-- ==== Sys2Proof/Word.lean ====
section
/-! DEFINITION. The word types of the QV9 and the two plain containers the state is built from: a map from numbers kept as a
sorted list, and a set of numbers kept as a sorted list. Nothing here belongs to one instruction. -/

namespace Sys2Proof

/-- A 64-bit scalar value, oref or command word. -/
abbrev Word := BitVec 64

/-- A byte of memory. -/
abbrev Byte := BitVec 8

/-- A 512-bit vector value (R270). -/
abbrev Vec := BitVec 512

/-- A 32-bit tile element or FP32 lane (R296). -/
abbrev Elem := BitVec 32

/-- A map from numbers, as a list of pairs with rising keys (DESIGN CHOICE, log entry 62). -/
abbrev NMap (α : Type) := List (Nat × α)

/-- The entry of key `k`, the first in the list. -/
def NMap.find {α : Type} : NMap α → Nat → Option α
  | [], _ => none
  | (k', v) :: m, k => if k = k' then some v else NMap.find m k

/-- The entry of key `k`, or `d` where there is none. -/
def NMap.getD {α : Type} (m : NMap α) (k : Nat) (d : α) : α := (NMap.find m k).getD d

/-- `m` with the entry of key `k` set to `v`. -/
def NMap.put {α : Type} : NMap α → Nat → α → NMap α
  | [], k, v => [(k, v)]
  | (k', v') :: m, k, v =>
    if k = k' then (k, v) :: m
    else if k < k' then (k, v) :: (k', v') :: m
    else (k', v') :: NMap.put m k v

/-- `m` without any entry of key `k`. -/
def NMap.del {α : Type} (m : NMap α) (k : Nat) : NMap α := m.filter fun p => p.1 ≠ k

/-- A set of numbers, as a list of rising numbers. -/
abbrev NSet := List Nat

/-- `t` with `k` in it. -/
def NSet.add : NSet → Nat → NSet
  | [], k => [k]
  | k' :: t, k => if k = k' then k' :: t else if k < k' then k :: k' :: t else k' :: NSet.add t k

/-- `t` without `k`. -/
def NSet.drop (t : NSet) (k : Nat) : NSet := t.filter fun j => j ≠ k

/-- Whether `k` is in `t`. -/
def NSet.has (t : NSet) (k : Nat) : Bool := t.any fun j => j == k

end Sys2Proof
end

