-- ==== Sys2Proof/Config.lean ====
section
/-! DEFINITION. What the spec fixes for every QV9 (counts and sizes) and the free values: results the spec leaves open. A free
value is an opaque constant, so nothing can prove what it is. -/

namespace Sys2Proof.Config

/-- Compute dies (Table 0.1). -/
def dies : Nat := 4
/-- Ranks on a compute die (Table 0.1). -/
def ranksPerDie : Nat := 96
/-- Cells of a rank (Table 0.1). -/
def cellsPerRank : Nat := 8
/-- Cells of the device (Table 0.2). -/
def cells : Nat := 3072
/-- Activation slots of a cell (R59). -/
def slotsPerCell : Nat := 4
/-- Die firmware cores (Table 3.1). -/
def dfcs : Nat := 6
/-- Engine harts of a compute die (Table 3.1). -/
def hartsPerDie : Nat := 28
/-- Hardware queues (R337). -/
def queues : Nat := 4096
/-- Resident contexts (R136). -/
def contexts : Nat := 1024
/-- Bytes of a cell's scratchpad (Table 2.1). -/
def scratchBytes : Nat := 196608
/-- Bytes of a cell's scratchpad that named regions may use (R30). -/
def regionBytes : Nat := 180224
/-- Bytes of a cell's accumulator region (Table 1.2). -/
def accBytes : Nat := 32768
/-- Bytes of a vault (R40). -/
def vaultBytes : Nat := 10485760
/-- Link ports (R400). -/
def ports : Nat := 24

/-- FREE VALUE, DESIGN CHOICE, log entry 2: the n-th scalar value that the spec leaves undefined. -/
opaque freeWord : Nat → BitVec 64
/-- FREE VALUE, DESIGN CHOICE, log entry 2: the n-th vector value that the spec leaves undefined. -/
opaque freeVec : Nat → BitVec 512
/-- FREE VALUE, DESIGN CHOICE, log entry 2: the n-th undefined content of a queue register (at most its first four entries are used). -/
opaque freeEntries : Nat → List (BitVec 512)
/-- FREE VALUE, DESIGN CHOICE, log entry 8: e^a within 2 units in the last place, where Table 12.2 gives no exact result. -/
opaque expValue : BitVec 32 → BitVec 32
/-- FREE VALUE, DESIGN CHOICE, log entry 8: ln a within 2 units in the last place, where Table 12.2 gives no exact result. -/
opaque logValue : BitVec 32 → BitVec 32
/-- FREE VALUE, DESIGN CHOICE, log entry 8: 1/(1 + e^-a) within 2 units in the last place, where Table 12.2 gives no exact result. -/
opaque sigmoidValue : BitVec 32 → BitVec 32
/-- FREE VALUE, DESIGN CHOICE, log entry 8: tanh a within 2 units in the last place, where Table 12.2 gives no exact result. -/
opaque tanhValue : BitVec 32 → BitVec 32
/-- FREE VALUE, DESIGN CHOICE, log entry 9: SHA-512 of a byte string (R323, R392), a standard the spec names. -/
opaque sha512 : List (BitVec 8) → BitVec 512
/-- FREE VALUE, DESIGN CHOICE, log entry 9: HMAC-SHA-512 under a key (R328). -/
opaque hmacSha512 : BitVec 512 → List (BitVec 8) → BitVec 512
/-- FREE VALUE, DESIGN CHOICE, log entry 9: whether an ECDSA P-521 signature of a digest verifies under the key of a slot (R323). -/
opaque ecdsaVerify : Nat → BitVec 512 → List (BitVec 8) → Bool
/-- FREE VALUE, DESIGN CHOICE, log entry 9: the fused floor of the capsule security version of a key slot (Table 14.3). -/
opaque versionFloor : Nat → Nat
/-- FREE VALUE, DESIGN CHOICE, log entry 9: the n-th key or nonce the security core generates. -/
opaque freeKey : Nat → BitVec 512

/-- FREE VALUE, DESIGN CHOICE, log entry 66: what byte `a` of memory reads as under the second key when its data unit holds it under the first, the plain
bytes of its 16-byte block being the list (R44). -/
opaque xtsByte : Nat → Nat → Nat → List (BitVec 8) → BitVec 8

/-- Where a body keeps a portable value (R327): a scalar register, a vector register, or a spill-frame offset. -/
inductive Place where
  | scalar (n : Nat) | vector (n : Nat) | frame (off : Nat)
  deriving DecidableEq, Repr, Inhabited

/-- FREE VALUE, DESIGN CHOICE, log entry 17: whether the n-th engine operation that fails has written its g-th granule before it ended (R111, R112, R121). -/
opaque freeChoice : Nat → Nat → Bool

/-- A native body (R326): its bytes, the record each native offset belongs to and where each record's code ends, and for each park
point the portable values that are live there with their places (R327); and for each record with code the places of values that its code expects. -/
structure Body where
  bytes : List Byte
  pos : List (Nat × Nat × Nat)
  resume : NMap (List (Nat × Place))
  maps : NMap (List (Nat × Place))
  deriving DecidableEq, Repr, Inhabited

/-- FREE VALUE, DESIGN CHOICE, log entry 9: the body the installer of a build derives from a Merner list with its hints, for a generation and a
stepping (R326). -/
opaque install : BitVec 256 → Nat → List (BitVec 64) → List (BitVec 8) → Body

/-- An image in a slot of boot flash (R392): the firmware of the security core and of the DFCs, the engine microcode, the build of the installer, the
configuration of link switch and edge dies, its security version, and its signature. -/
structure BootImage where
  core : List Byte
  dfc : List Byte
  micro : List Byte
  ibh : BitVec 256
  config : List Byte
  version : Nat
  sig : List Byte
  deriving DecidableEq, Repr, Inhabited

/-- FREE VALUE, DESIGN CHOICE, log entry 102: the image that slot A (0) or B (1) of boot flash holds as it is delivered (R392). -/
opaque flashImage : Nat → BootImage
/-- FREE VALUE, DESIGN CHOICE, log entry 102: whether an ECDSA P-521 signature of an image's SHA-512 digest is good (R392). -/
opaque bootVerify : BitVec 512 → List Byte → Bool
/-- FREE VALUE, DESIGN CHOICE, log entry 102: the fuse state beside the security version floor, and the debug enables in force (Table 17.1). -/
opaque fuses : Nat → List Byte
/-- FREE VALUE, DESIGN CHOICE, log entry 103: the certificate chain of SPDM slot 0, from the device identity key to an Aelrath root (R395). -/
opaque certificates : List Byte
/-- FREE VALUE, DESIGN CHOICE, log entry 103: the ECDSA P-521 signature of a digest under the device identity key (R395). -/
opaque identitySign : BitVec 512 → List Byte
/-- FREE VALUE, DESIGN CHOICE, log entry 103: the device's share of its n-th ECDHE exchange over P-521 (R395). -/
opaque ecdheShare : Nat → List Byte
/-- FREE VALUE, DESIGN CHOICE, log entry 103: the secret of the device's n-th ECDHE exchange with the other party's share (R395). -/
opaque ecdheSecret : Nat → List Byte → BitVec 512
/-- FREE VALUE, DESIGN CHOICE, log entry 103: the n-th message of a session under its secret, sealed with AES-256-GCM (R395). -/
opaque sealTraffic : BitVec 512 → Nat → List Byte → List Byte

end Sys2Proof.Config
end

