-- ==== Sys2Proof/Syntax.lean ====
section
/-! DEFINITION. The instructions of the QV9: one constructor per row of spec/opcode_table.json. Kreral forms carry their fields as
bit vectors, lowest field first in the order of the assembly names; Sarrun commands carry their register numbers and immediates;
a device event carries nothing: which cell, slot, context, die or queue it concerns, and the data that arrives from outside with it,
is the `Input` that the state holds beside it. Constructors with fields stand first, as compiled Lean asks of a type this large. -/

namespace Sys2Proof

/-- A message record (Table 16.6): the header as delivered, the payload words, the serial, the enqueue stamp, the return stamp
(R413), the arrival flags of Table 10.6, the sending virtual PE or queue (delivery order, R170), whether a queue sent it, and for a
multicast copy the cell whose counter it holds (R130), and of a message that came over a link the port it came in by and its time at the link
switch (R375). -/
structure Msg where
  hdr : Word
  pay : List Word
  ser : BitVec 36
  enq : BitVec 64
  ret : Option (BitVec 64)
  aflg : BitVec 5
  src : Nat
  cmd : Bool
  mcell : Option Nat
  via : Option (Nat × BitVec 64)
  deriving DecidableEq, Repr

/-- A message on its way (Table 16.6): source and destination device and context, destination virtual PE, the ingress port it came
in by (24: this device's compute dies) and the time it reached the link switch. -/
structure Packet where
  sdev : Nat
  sctx : Nat
  ddev : Nat
  dctx : Nat
  dvpe : Nat
  inport : Nat
  tsw : BitVec 64
  msg : Msg
  deriving DecidableEq, Repr

/-- The atomic operations (Table 10.4). -/
inductive Amo where
  | add | and | or | xor | min | max | minu | maxu | swp | cas | fadd
  deriving DecidableEq, Repr

/-- An agent of the machine: a cell's slot, a die firmware core, the command engine serving a queue, an engine hart of a die, the host
through a function, another device of the domain. -/
inductive Agent where
  | idle
  | slot (c k : Nat)
  | dfc (d : Nat)
  | queue (q : Nat)
  | hart (d h : Nat)
  | host (f : Nat)
  | remote (dev : Nat)
  deriving DecidableEq, Repr

/-- Where an arriving message comes from: the network inside the device (its place in the list), or a link port. -/
inductive Arrival where
  | net (i : Nat)
  | link (port : Nat) (p : Packet)
  deriving DecidableEq, Repr

/-- What an access from outside the device does (R20, R45). -/
inductive ExtAccess where
  | read (n : Nat)
  | write (bytes : List Byte)
  | atomic (op : Amo) (n : Nat) (b expect : BitVec 64)
  deriving DecidableEq, Repr

/-- What a remote refusal answers (R20): a posted store of this device (its place in the list), or the load or atomic an agent
waits on. -/
inductive Refused where
  | store (i : Nat)
  | access (a : Agent)
  deriving DecidableEq, Repr

/-- A BARA that reaches the barrier unit (R247): that of a slot, or the n-th one whose activation has ended meanwhile. -/
inductive BarArrival where
  | slot (c k : Nat)
  | stray (i : Nat)
  deriving DecidableEq, Repr

/-- The words of an object descriptor (Table 1.3). -/
structure Desc where
  w0 : Word
  ptr : Word
  w2 : Word
  w3 : Word
  deriving DecidableEq, Repr

/-- The host driver's choices for a new context (R136, R171, R172, R371, R440). -/
structure CtxSpec where
  fn : Nat
  cells : List Nat
  parts : List (Nat × Nat)
  spillEntries : Nat
  extEntries : Nat
  holdBytes : Nat
  arriveEntries : Nat
  report : Word
  reportVec : Nat
  service : Word
  trace : Word
  blocks : List Word
  deriving DecidableEq, Repr

/-- Host instructions without a row of their own (R346). -/
inductive HostOp where
  | loadCapsule (r cap : Nat) (grid : Bool)
  | unloadCapsule (r cap : Nat)
  | destroyContext (r : Nat)
  | writeLayout (r l : Nat) (v : Vec)
  | setBarrier (r b n : Nat)
  | createQueue (q r : Nat) (base : Word) (lsz pri wto : Nat) (priv : Bool)
  | destroyQueue (q : Nat)
  | stopQueue (q : Nat)
  | configMsix (f n : Nat)
  | maskVector (f v : Nat) (m : Bool)
  | setErrorLog (r : Nat) (o : Word) (v : Nat)
  | writePte (addr : Nat) (v : Word)
  | stopCells (r : Nat)
  | readByte (r : Nat) (o : Word)
  | writeByte (r c : Nat) (o : Word) (b : Byte)
  | bindHandler (r ch : Nat) (w : Word)
  | enableMsix (f : Nat) (on : Bool)
  | readCode (r cap view i : Nat)
  | readState (r c k view i : Nat)
  | readMsix (f : Nat)
  | writeFlash (slot : Nat) (image : Config.BootImage)
  deriving DecidableEq, Repr

/-- An update request to a queue record (R338, R341, R342, R345): the RW fields it sets, whether it maps the queue and to which die, the VERSION it
expects and the lease epoch it carries. -/
structure QUpdate where
  base : Option Word
  tail : Option (BitVec 32)
  lsz : Option Nat
  pri : Option Nat
  wto : Option Nat
  priv : Option Bool
  ctx : Option Nat
  map : Option (Option Nat)
  version : Option Nat
  epoch : Option Nat
  deriving DecidableEq, Repr

/-- What the host asks of a faulted queue (R353). -/
inductive Recovery where
  | resume | skip | reset
  deriving DecidableEq, Repr

/-- A member's report on a strike or a pitch (R383, R387); `passed` tells that its check before a pitch found nothing to refuse (DEDUCED, log entry 56). -/
inductive Report where
  | struck | absent | passed | reinjected | expired | refused (status : Nat)
  deriving DecidableEq, Repr

/-- A memory-mapped register without a row of its own (Tables 5.1, 6.9, 17.1). -/
inductive RegId where
  | fbhead (d : Nat) | fbgen (d : Nat) | fbstat (d : Nat)
  | hartStat (d h : Nat) | hartInfo (d h : Nat) | meas (n : Nat)
  deriving DecidableEq, Repr

/-- What an SPDM request asks of the security core (R395). -/
inductive SpdmReq where
  | session | endSession | measure (n : Nat) | ideKey (f : Nat)
  | certificate | signed (n : Nat) (nonce : List Byte) | keyExchange (share : List Byte)
  deriving DecidableEq, Repr

/-- What a device event concerns, and the data that comes with it. Each event's meaning says which of these it reads. -/
structure Input where
  cell : Nat := 0
  slot : Nat := 0
  die : Nat := 0
  hart : Nat := 0
  rank : Nat := 0
  ctx : Nat := 0
  vpe : Nat := 0
  chan : Nat := 0
  reg : Nat := 0
  queue : Nat := 0
  fn : Nat := 0
  port : Nat := 0
  job : Nat := 0
  dev : Nat := 0
  cap : Nat := 0
  idx : Nat := 0
  off : Nat := 0
  n : Nat := 0
  flag : Bool := false
  word : Word := 0
  words : List Word := []
  bytes : List Byte := []
  vecs : List Vec := []
  sel : Option Nat := none
  grant : Option (Nat × Nat × Nat) := none
  bits : BitVec 256 := 0
  agent : Agent := .idle
  arrival : Arrival := .net 0
  refused : Refused := .store 0
  bar : BarArrival := .stray 0
  access : ExtAccess := .read 0
  desc : Desc := ⟨0, 0, 0, 0⟩
  upd : QUpdate := ⟨none, none, none, none, none, none, none, none, none, none⟩
  how : Recovery := .resume
  report : Report := .absent
  rid : RegId := .meas 0
  spdm : SpdmReq := .session
  op : HostOp := .stopCells 0
  spec : CtxSpec := ⟨0, [], [], 0, 0, 0, 0, 0, 0, 0, 0, []⟩
  pkt : Packet := ⟨0, 0, 0, 0, 0, 0, 0, ⟨0, [], 0, 0, none, 0, 0, false, none, none⟩⟩
  deriving DecidableEq, Repr

/-- The instructions, commands and device events of spec/opcode_table.json. -/
inductive Instr where
  /-- `ADD` (R204). -/
  | add (rd ra rb : BitVec 5)
  /-- `SUB` (R204). -/
  | sub (rd ra rb : BitVec 5)
  /-- `AND` (R204). -/
  | and (rd ra rb : BitVec 5)
  /-- `OR` (R204). -/
  | or (rd ra rb : BitVec 5)
  /-- `XOR` (R204). -/
  | xor (rd ra rb : BitVec 5)
  /-- `SLL` (R204). -/
  | sll (rd ra rb : BitVec 5)
  /-- `SRL` (R204). -/
  | srl (rd ra rb : BitVec 5)
  /-- `SRA` (R204). -/
  | sra (rd ra rb : BitVec 5)
  /-- `MIN` (R204). -/
  | min (rd ra rb : BitVec 5)
  /-- `MAX` (R204). -/
  | max (rd ra rb : BitVec 5)
  /-- `MINU` (R204). -/
  | minu (rd ra rb : BitVec 5)
  /-- `MAXU` (R204). -/
  | maxu (rd ra rb : BitVec 5)
  /-- `SLT` (R204). -/
  | slt (rd ra rb : BitVec 5)
  /-- `SLTU` (R204). -/
  | sltu (rd ra rb : BitVec 5)
  /-- `MUL` (R204). -/
  | mul (rd ra rb : BitVec 5)
  /-- `MULH` (R204). -/
  | mulh (rd ra rb : BitVec 5)
  /-- `MULHU` (R204). -/
  | mulhu (rd ra rb : BitVec 5)
  /-- `DIV` (R205). -/
  | div (rd ra rb : BitVec 5)
  /-- `DIVU` (R205). -/
  | divu (rd ra rb : BitVec 5)
  /-- `REM` (R205). -/
  | rem (rd ra rb : BitVec 5)
  /-- `REMU` (R205). -/
  | remu (rd ra rb : BitVec 5)
  /-- `CLZ` (R206). -/
  | clz (rd ra : BitVec 5)
  /-- `CTZ` (R206). -/
  | ctz (rd ra : BitVec 5)
  /-- `POPC` (R206). -/
  | popc (rd ra : BitVec 5)
  /-- `SEXT` (R206). -/
  | sext (rd ra rb : BitVec 5)
  /-- `ZEXT` (R206). -/
  | zext (rd ra rb : BitVec 5)
  /-- `OADD` (R210). -/
  | oadd (rd ra rb : BitVec 5)
  /-- `OSLOT` (R210). -/
  | oslot (rd ra : BitVec 5)
  /-- `OCHK` (R211). -/
  | ochk (rd ra rb : BitVec 5)
  /-- `OMAKE` (R210). -/
  | omake (rd ra rb : BitVec 5)
  /-- `PACK2` (R212). -/
  | pack2 (rd ra rb : BitVec 5)
  /-- `PACK4` (R212). -/
  | pack4 (rd ra rb : BitVec 5)
  /-- `ADDI` (R207). -/
  | addi (rd ra : BitVec 5) (imm : BitVec 14)
  /-- `ANDI` (R207). -/
  | andi (rd ra : BitVec 5) (imm : BitVec 14)
  /-- `ORI` (R207). -/
  | ori (rd ra : BitVec 5) (imm : BitVec 14)
  /-- `XORI` (R207). -/
  | xori (rd ra : BitVec 5) (imm : BitVec 14)
  /-- `SLTI` (R207). -/
  | slti (rd ra : BitVec 5) (imm : BitVec 14)
  /-- `SLLI` (R207). -/
  | slli (rd ra : BitVec 5) (imm : BitVec 6)
  /-- `SRLI` (R207). -/
  | srli (rd ra : BitVec 5) (imm : BitVec 6)
  /-- `SRAI` (R207). -/
  | srai (rd ra : BitVec 5) (imm : BitVec 6)
  /-- `LUI` (R208). -/
  | lui (rd : BitVec 5) (u : BitVec 19)
  /-- `AUIC` (R209). -/
  | auic (rd ra : BitVec 5) (k : BitVec 12) (cd : BitVec 2)
  /-- `BEQ` (R213). -/
  | beq (ra rb : BitVec 5) (off : BitVec 11)
  /-- `BNE` (R213). -/
  | bne (ra rb : BitVec 5) (off : BitVec 11)
  /-- `BLT` (R213). -/
  | blt (ra rb : BitVec 5) (off : BitVec 11)
  /-- `BGE` (R213). -/
  | bge (ra rb : BitVec 5) (off : BitVec 11)
  /-- `BLTU` (R213). -/
  | bltu (ra rb : BitVec 5) (off : BitVec 11)
  /-- `BGEU` (R213). -/
  | bgeu (ra rb : BitVec 5) (off : BitVec 11)
  /-- `J` (R213). -/
  | j (off : BitVec 24)
  /-- `JAL` (R213). -/
  | jal (off : BitVec 24)
  /-- `JALR` (R215). -/
  | jalr (rd ra : BitVec 5) (imm : BitVec 14)
  /-- `CALLX` (R217). -/
  | callx (rd ra : BitVec 5) (imm : BitVec 14)
  /-- `LB` (R233). -/
  | lb (rt ra : BitVec 5) (w : BitVec 2) (sc : BitVec 3) (ord : BitVec 2) (imm : BitVec 7)
  /-- `LH` (R233). -/
  | lh (rt ra : BitVec 5) (w : BitVec 2) (sc : BitVec 3) (ord : BitVec 2) (imm : BitVec 7)
  /-- `LW` (R233). -/
  | lw (rt ra : BitVec 5) (w : BitVec 2) (sc : BitVec 3) (ord : BitVec 2) (imm : BitVec 7)
  /-- `LD` (R233). -/
  | ld (rt ra : BitVec 5) (w : BitVec 2) (sc : BitVec 3) (ord : BitVec 2) (imm : BitVec 7)
  /-- `LBU` (R233). -/
  | lbu (rt ra : BitVec 5) (w : BitVec 2) (sc : BitVec 3) (ord : BitVec 2) (imm : BitVec 7)
  /-- `LHU` (R233). -/
  | lhu (rt ra : BitVec 5) (w : BitVec 2) (sc : BitVec 3) (ord : BitVec 2) (imm : BitVec 7)
  /-- `LWU` (R233). -/
  | lwu (rt ra : BitVec 5) (w : BitVec 2) (sc : BitVec 3) (ord : BitVec 2) (imm : BitVec 7)
  /-- `LDCN` (R234). -/
  | ldcn (rt ra : BitVec 5) (w : BitVec 2) (sc : BitVec 3) (ord : BitVec 2) (imm : BitVec 7)
  /-- `SB` (R233). -/
  | sb (rt ra : BitVec 5) (w : BitVec 2) (sc : BitVec 3) (ord : BitVec 2) (imm : BitVec 7)
  /-- `SH` (R233). -/
  | sh (rt ra : BitVec 5) (w : BitVec 2) (sc : BitVec 3) (ord : BitVec 2) (imm : BitVec 7)
  /-- `SW` (R233). -/
  | sw (rt ra : BitVec 5) (w : BitVec 2) (sc : BitVec 3) (ord : BitVec 2) (imm : BitVec 7)
  /-- `SD` (R233). -/
  | sd (rt ra : BitVec 5) (w : BitVec 2) (sc : BitVec 3) (ord : BitVec 2) (imm : BitVec 7)
  /-- `LDF` (R235). -/
  | ldf (rt ra : BitVec 5) (w : BitVec 2) (sc : BitVec 3) (imm : BitVec 7)
  /-- `LDF.c` (R235). -/
  | ldfC (rt ra : BitVec 5) (w : BitVec 2) (sc : BitVec 3) (imm : BitVec 7)
  /-- `STF` (R235). -/
  | stf (rt ra : BitVec 5) (w : BitVec 2) (sc : BitVec 3) (imm : BitVec 7)
  /-- `FECLR` (R236). -/
  | feclr (rt ra : BitVec 5) (w : BitVec 2) (sc : BitVec 3) (imm : BitVec 7)
  /-- `LAYR` (R237). -/
  | layr (vd : BitVec 5) (lay : BitVec 6) (w : BitVec 2) (sc : BitVec 3)
  /-- `LAYW` (R237). -/
  | layw (vd : BitVec 5) (lay : BitVec 6) (w : BitVec 2) (sc : BitVec 3)
  /-- `AMOADD.w` (R240). -/
  | amoaddW (rd ra rb : BitVec 5) (sc : BitVec 3) (ord : BitVec 2)
  /-- `AMOAND.w` (R240). -/
  | amoandW (rd ra rb : BitVec 5) (sc : BitVec 3) (ord : BitVec 2)
  /-- `AMOOR.w` (R240). -/
  | amoorW (rd ra rb : BitVec 5) (sc : BitVec 3) (ord : BitVec 2)
  /-- `AMOXOR.w` (R240). -/
  | amoxorW (rd ra rb : BitVec 5) (sc : BitVec 3) (ord : BitVec 2)
  /-- `AMOMIN.w` (R240). -/
  | amominW (rd ra rb : BitVec 5) (sc : BitVec 3) (ord : BitVec 2)
  /-- `AMOMAX.w` (R240). -/
  | amomaxW (rd ra rb : BitVec 5) (sc : BitVec 3) (ord : BitVec 2)
  /-- `AMOMINU.w` (R240). -/
  | amominuW (rd ra rb : BitVec 5) (sc : BitVec 3) (ord : BitVec 2)
  /-- `AMOMAXU.w` (R240). -/
  | amomaxuW (rd ra rb : BitVec 5) (sc : BitVec 3) (ord : BitVec 2)
  /-- `AMOSWP.w` (R240). -/
  | amoswpW (rd ra rb : BitVec 5) (sc : BitVec 3) (ord : BitVec 2)
  /-- `AMOCAS.w` (R241). -/
  | amocasW (rd ra rb : BitVec 5) (sc : BitVec 3) (ord : BitVec 2)
  /-- `AMOFADD.w` (R242). -/
  | amofaddW (rd ra rb : BitVec 5) (sc : BitVec 3) (ord : BitVec 2)
  /-- `AMOADD.d` (R240). -/
  | amoaddD (rd ra rb : BitVec 5) (sc : BitVec 3) (ord : BitVec 2)
  /-- `AMOAND.d` (R240). -/
  | amoandD (rd ra rb : BitVec 5) (sc : BitVec 3) (ord : BitVec 2)
  /-- `AMOOR.d` (R240). -/
  | amoorD (rd ra rb : BitVec 5) (sc : BitVec 3) (ord : BitVec 2)
  /-- `AMOXOR.d` (R240). -/
  | amoxorD (rd ra rb : BitVec 5) (sc : BitVec 3) (ord : BitVec 2)
  /-- `AMOMIN.d` (R240). -/
  | amominD (rd ra rb : BitVec 5) (sc : BitVec 3) (ord : BitVec 2)
  /-- `AMOMAX.d` (R240). -/
  | amomaxD (rd ra rb : BitVec 5) (sc : BitVec 3) (ord : BitVec 2)
  /-- `AMOMINU.d` (R240). -/
  | amominuD (rd ra rb : BitVec 5) (sc : BitVec 3) (ord : BitVec 2)
  /-- `AMOMAXU.d` (R240). -/
  | amomaxuD (rd ra rb : BitVec 5) (sc : BitVec 3) (ord : BitVec 2)
  /-- `AMOSWP.d` (R240). -/
  | amoswpD (rd ra rb : BitVec 5) (sc : BitVec 3) (ord : BitVec 2)
  /-- `AMOCAS.d` (R241). -/
  | amocasD (rd ra rb : BitVec 5) (sc : BitVec 3) (ord : BitVec 2)
  /-- `AMOFADD.d` (R242). -/
  | amofaddD (rd ra rb : BitVec 5) (sc : BitVec 3) (ord : BitVec 2)
  /-- `FENCE` (R244). -/
  | fence (sc : BitVec 3) (sw sr pw pr : BitVec 1)
  /-- `WAITC` (R245). -/
  | waitc (cn cm cv : BitVec 1)
  /-- `BARA` (R247). -/
  | bara (rd ra : BitVec 5) (sc : BitVec 3)
  /-- `BARW` (R247). -/
  | barw (rd ra : BitVec 5) (sc : BitVec 3)
  /-- `SEND` (R249). -/
  | send (ra vb : BitVec 5)
  /-- `SENDM` (R250). -/
  | sendm (vd ra rb : BitVec 5)
  /-- `SENDS` (R249). -/
  | sends (ra vb : BitVec 5)
  /-- `SENDE` (R249). -/
  | sende (ra vb : BitVec 5)
  /-- `MSGLD` (R251). -/
  | msgld (rd ra : BitVec 5)
  /-- `BIND` (R253). -/
  | bind (ra : BitVec 5)
  /-- `UNBIND` (R254). -/
  | unbind (ra : BitVec 5)
  /-- `SBIND` (R254). -/
  | sbind (ra rb : BitVec 5)
  /-- `CHMASK` (R255). -/
  | chmask (ra : BitVec 5)
  /-- `CHUNMASK` (R255). -/
  | chunmask (ra : BitVec 5)
  /-- `QSTREAM` (R257). -/
  | qstream (q ra : BitVec 5)
  /-- `QREL` (R257). -/
  | qrel (q : BitVec 5)
  /-- `QPOP` (R257). -/
  | qpop (rd q : BitVec 5)
  /-- `QPUSH` (R257). -/
  | qpush (q ra : BitVec 5)
  /-- `QSTAT` (R257). -/
  | qstat (rd q : BitVec 5)
  /-- `RPT` (R287). -/
  | rpt (ra rb : BitVec 5)
  /-- `RPTW` (R290). -/
  | rptw (rd : BitVec 5)
  /-- `VLD` (R282). -/
  | vld (rt ra : BitVec 5) (w : BitVec 2) (sc : BitVec 3) (ord : BitVec 2) (imm : BitVec 7)
  /-- `VST` (R282). -/
  | vst (rt ra : BitVec 5) (w : BitVec 2) (sc : BitVec 3) (ord : BitVec 2) (imm : BitVec 7)
  /-- `VLDF` (R283). -/
  | vldf (rt ra : BitVec 5) (w : BitVec 2) (sc : BitVec 3) (imm : BitVec 7)
  /-- `VLDF.c` (R283). -/
  | vldfC (rt ra : BitVec 5) (w : BitVec 2) (sc : BitVec 3) (imm : BitVec 7)
  /-- `VSTF` (R283). -/
  | vstf (rt ra : BitVec 5) (w : BitVec 2) (sc : BitVec 3) (imm : BitVec 7)
  /-- `VLD` (R284). -/
  | vldL (vd : BitVec 5) (lay : BitVec 6) (rc : BitVec 5) (w : BitVec 2) (sc : BitVec 3)
  /-- `VST` (R284). -/
  | vstL (vd : BitVec 5) (lay : BitVec 6) (rc : BitVec 5) (w : BitVec 2) (sc : BitVec 3)
  /-- `VLDF` (R284). -/
  | vldfL (vd : BitVec 5) (lay : BitVec 6) (rc : BitVec 5) (w : BitVec 2) (sc : BitVec 3)
  /-- `VLDF.c` (R284). -/
  | vldfCL (vd : BitVec 5) (lay : BitVec 6) (rc : BitVec 5) (w : BitVec 2) (sc : BitVec 3)
  /-- `VSTF` (R284). -/
  | vstfL (vd : BitVec 5) (lay : BitVec 6) (rc : BitVec 5) (w : BitVec 2) (sc : BitVec 3)
  /-- `VADD` (R275). -/
  | vadd (vd va vb : BitVec 5) (m : BitVec 3)
  /-- `VSUB` (R275). -/
  | vsub (vd va vb : BitVec 5) (m : BitVec 3)
  /-- `VMUL` (R275). -/
  | vmul (vd va vb : BitVec 5) (m : BitVec 3)
  /-- `VFMA` (R275). -/
  | vfma (vd va vb : BitVec 5) (m : BitVec 3)
  /-- `VFMS` (R275). -/
  | vfms (vd va vb : BitVec 5) (m : BitVec 3)
  /-- `VMAX` (R275). -/
  | vmax (vd va vb : BitVec 5) (m : BitVec 3)
  /-- `VMIN` (R275). -/
  | vmin (vd va vb : BitVec 5) (m : BitVec 3)
  /-- `VABS` (R275). -/
  | vabs (vd va : BitVec 5) (m : BitVec 3)
  /-- `VNEG` (R275). -/
  | vneg (vd va : BitVec 5) (m : BitVec 3)
  /-- `VRCP` (R276). -/
  | vrcp (vd va : BitVec 5) (m : BitVec 3)
  /-- `VRSQ` (R276). -/
  | vrsq (vd va : BitVec 5) (m : BitVec 3)
  /-- `VEXP` (R276). -/
  | vexp (vd va : BitVec 5) (m : BitVec 3)
  /-- `VLOG` (R276). -/
  | vlog (vd va : BitVec 5) (m : BitVec 3)
  /-- `VSIGM` (R276). -/
  | vsigm (vd va : BitVec 5) (m : BitVec 3)
  /-- `VTANH` (R276). -/
  | vtanh (vd va : BitVec 5) (m : BitVec 3)
  /-- `VCVT` (R277). -/
  | vcvt (vd va : BitVec 5) (p : BitVec 2) (f : BitVec 6)
  /-- `VREDA` (R279). -/
  | vreda (vd va : BitVec 5) (m : BitVec 3)
  /-- `VREDX` (R279). -/
  | vredx (vd va : BitVec 5) (m : BitVec 3)
  /-- `VCMP.eq` (R280). -/
  | vcmpEq (vd va vb : BitVec 5) (m : BitVec 3)
  /-- `VCMP.ne` (R280). -/
  | vcmpNe (vd va vb : BitVec 5) (m : BitVec 3)
  /-- `VCMP.lt` (R280). -/
  | vcmpLt (vd va vb : BitVec 5) (m : BitVec 3)
  /-- `VCMP.le` (R280). -/
  | vcmpLe (vd va vb : BitVec 5) (m : BitVec 3)
  /-- `VCMP.gt` (R280). -/
  | vcmpGt (vd va vb : BitVec 5) (m : BitVec 3)
  /-- `VCMP.ge` (R280). -/
  | vcmpGe (vd va vb : BitVec 5) (m : BitVec 3)
  /-- `VSEL` (R280). -/
  | vsel (vd va vb : BitVec 5) (k : BitVec 3)
  /-- `VPERM` (R280). -/
  | vperm (vd va vb : BitVec 5) (m : BitVec 3)
  /-- `VBCST` (R280). -/
  | vbcst (vd ra : BitVec 5) (m : BitVec 3)
  /-- `VMVX` (R281). -/
  | vmvx (rd va rb : BitVec 5)
  /-- `VMVS` (R281). -/
  | vmvs (vd ra rb : BitVec 5)
  /-- `VSETL` (R272). -/
  | vsetl (rd ra : BitVec 5)
  /-- `VIADD` (R278). -/
  | viadd (vd va vb : BitVec 5) (m : BitVec 3) (e : BitVec 2)
  /-- `VISUB` (R278). -/
  | visub (vd va vb : BitVec 5) (m : BitVec 3) (e : BitVec 2)
  /-- `VIMUL` (R278). -/
  | vimul (vd va vb : BitVec 5) (m : BitVec 3) (e : BitVec 2)
  /-- `VIAND` (R278). -/
  | viand (vd va vb : BitVec 5) (m : BitVec 3) (e : BitVec 2)
  /-- `VIOR` (R278). -/
  | vior (vd va vb : BitVec 5) (m : BitVec 3) (e : BitVec 2)
  /-- `VIXOR` (R278). -/
  | vixor (vd va vb : BitVec 5) (m : BitVec 3) (e : BitVec 2)
  /-- `VISLL` (R278). -/
  | visll (vd va vb : BitVec 5) (m : BitVec 3) (e : BitVec 2)
  /-- `VISRL` (R278). -/
  | visrl (vd va vb : BitVec 5) (m : BitVec 3) (e : BitVec 2)
  /-- `VISRA` (R278). -/
  | visra (vd va vb : BitVec 5) (m : BitVec 3) (e : BitVec 2)
  /-- `MMA` (R301). -/
  | mma (ad : BitVec 3) (la lb : BitVec 6) (rc : BitVec 5) (w : BitVec 2)
  /-- `MMAZ` (R301). -/
  | mmaz (ad : BitVec 3) (la lb : BitVec 6) (rc : BitVec 5) (w : BitVec 2)
  /-- `MPOLY` (R313). -/
  | mpoly (ad aa ab : BitVec 3) (ra : BitVec 5)
  /-- `MITER` (R315). -/
  | miter (ad aa : BitVec 3) (md fb : BitVec 1) (ra rb : BitVec 5)
  /-- `MSCZ` (R303). -/
  | mscz (ad : BitVec 3) (w : BitVec 2) (ra : BitVec 5)
  /-- `MCVT` (R308). -/
  | mcvt (ad aa ab : BitVec 3)
  /-- `MTRN` (R308). -/
  | mtrn (ad aa : BitVec 3)
  /-- `MZERO` (R308). -/
  | mzero (ad : BitVec 3)
  /-- `MGANG` (R310). -/
  | mgang (ra rb : BitVec 5)
  /-- `MRDR` (R307). -/
  | mrdr (ad ab : BitVec 3) (ra rb : BitVec 5)
  /-- `MWRR` (R307). -/
  | mwrr (ad : BitVec 3) (ra rb : BitVec 5)
  /-- `CBLD` (R306). -/
  | cbld (n w : BitVec 2) (ra : BitVec 5)
  /-- `KLD` (R306). -/
  | kld (w : BitVec 2) (ra : BitVec 5)
  /-- `MLD` (R304). -/
  | mld (ad : BitVec 3) (la : BitVec 6) (w : BitVec 2) (sc : BitVec 3) (rc : BitVec 5)
  /-- `MST` (R305). -/
  | mst (ad : BitVec 3) (la : BitVec 6) (w : BitVec 2) (sc : BitVec 3) (rc : BitVec 5)
  /-- `MLDB` (R304). -/
  | mldb (ad : BitVec 3) (la : BitVec 6) (w : BitVec 2) (sc : BitVec 3) (rc : BitVec 5)
  /-- `CSRR` (R221). -/
  | csrr (rd : BitVec 5) (csr : BitVec 12)
  /-- `CSRW` (R221). -/
  | csrw (rd ra : BitVec 5) (csr : BitVec 12)
  /-- `CSRS` (R221). -/
  | csrs (rd ra : BitVec 5) (csr : BitVec 12)
  /-- `CSRC` (R221). -/
  | csrc (rd ra : BitVec 5) (csr : BitVec 12)
  /-- `ECALL` (R227). -/
  | ecall (rd ra rb : BitVec 5)
  /-- `EBRK` (R228). -/
  | ebrk (k : BitVec 15)
  /-- `NOP` (R195). -/
  | nop (rd ra rb : BitVec 5)
  /-- `ADD` (R196). -/
  | add16 (ra rb : BitVec 5)
  /-- `SUB` (R196). -/
  | sub16 (ra rb : BitVec 5)
  /-- `MOV` (R196). -/
  | mov16 (ra rb : BitVec 5)
  /-- `ADDI` (R196). -/
  | addi16 (ra imm : BitVec 5)
  /-- `ANDI` (R196). -/
  | andi16 (ra imm : BitVec 5)
  /-- `SLLI` (R196). -/
  | slli16 (ra imm : BitVec 5)
  /-- `SRLI` (R196). -/
  | srli16 (ra imm : BitVec 5)
  /-- `SRAI` (R196). -/
  | srai16 (ra imm : BitVec 5)
  /-- `AND` (R196). -/
  | and16 (ra rb : BitVec 5)
  /-- `OR` (R196). -/
  | or16 (ra rb : BitVec 5)
  /-- `XOR` (R196). -/
  | xor16 (ra rb : BitVec 5)
  /-- `LD` (R196). -/
  | ld16 (ra rb : BitVec 5)
  /-- `LW` (R196). -/
  | lw16 (ra rb : BitVec 5)
  /-- `SD` (R196). -/
  | sd16 (ra rb : BitVec 5)
  /-- `SW` (R196). -/
  | sw16 (ra rb : BitVec 5)
  /-- `BEQZ` (R196). -/
  | beqz16 (ra off : BitVec 5)
  /-- `BNEZ` (R196). -/
  | bnez16 (ra off : BitVec 5)
  /-- `J` (R196). -/
  | j16 (off : BitVec 10)
  /-- `JR` (R196). -/
  | jr16 (ra rb : BitVec 5)
  /-- `MUL` (R196). -/
  | mul16 (ra rb : BitVec 5)
  /-- `C.MOVI` (R354). -/
  | cMovi (ca : BitVec 4) (imm : BitVec 44)
  /-- `C.MOVW` (R354), with the word that follows it. -/
  | cMovw (ca : BitVec 4) (word : BitVec 64)
  /-- `C.ADD` (R354): register cc, or the immediate when i = 1. -/
  | cAdd (ca cb cc : BitVec 4) (i : BitVec 1) (imm : BitVec 32)
  /-- `C.SUB` (R354). -/
  | cSub (ca cb cc : BitVec 4) (i : BitVec 1) (imm : BitVec 32)
  /-- `C.AND` (R354). -/
  | cAnd (ca cb cc : BitVec 4) (i : BitVec 1) (imm : BitVec 32)
  /-- `C.OR` (R354). -/
  | cOr (ca cb cc : BitVec 4) (i : BitVec 1) (imm : BitVec 32)
  /-- `C.SHL` (R354). -/
  | cShl (ca cb cc : BitVec 4) (i : BitVec 1) (imm : BitVec 32)
  /-- `C.SHR` (R354). -/
  | cShr (ca cb cc : BitVec 4) (i : BitVec 1) (imm : BitVec 32)
  /-- `C.LD` (R355). -/
  | cLd (ca cb : BitVec 4) (imm : BitVec 32)
  /-- `C.ST` (R355). -/
  | cSt (ca cb : BitVec 4) (imm : BitVec 32)
  /-- `C.BEQ` (R356). -/
  | cBeq (ca cb : BitVec 4) (imm : BitVec 20)
  /-- `C.BNE` (R356). -/
  | cBne (ca cb : BitVec 4) (imm : BitVec 20)
  /-- `C.BLT` (R356). -/
  | cBlt (ca cb : BitVec 4) (imm : BitVec 20)
  /-- `C.BGE` (R356). -/
  | cBge (ca cb : BitVec 4) (imm : BitVec 20)
  /-- `C.JMP` (R356). -/
  | cJmp (imm : BitVec 20)
  /-- `C.CALL` (R356). -/
  | cCall (imm : BitVec 20)
  /-- `C.LOOP` (R356). -/
  | cLoop (ca : BitVec 4) (imm : BitVec 20)
  /-- `C.IB` (R357). -/
  | cIb (ca cb : BitVec 4)
  /-- `C.LAUNCH` (R358): channel, payload count, capsule. -/
  | cLaunch (ca cb : BitVec 4) (ch : BitVec 5) (n : BitVec 3) (cap : BitVec 23)
  /-- `C.LAUNCHALL` (R358). -/
  | cLaunchall (ca cb : BitVec 4) (ch : BitVec 5) (n : BitVec 3) (cap : BitVec 23)
  /-- `C.COPY` (R359). -/
  | cCopy (ca : BitVec 4) (hart : BitVec 4)
  /-- `C.WAITSEM` (R360). -/
  | cWaitsem (ca cb : BitVec 4) (cond : BitVec 2) (dec : BitVec 1) (sigq : BitVec 12) (sqv : BitVec 1)
  /-- `C.SIGSEM` (R361). -/
  | cSigsem (ca cb : BitVec 4) (st : BitVec 1)
  /-- `C.STAMP` (R363). -/
  | cStamp (ca : BitVec 4)
  /-- `C.INTR` (R364). -/
  | cIntr (vec : BitVec 11)
  /-- `C.INSTALL` (R325). -/
  | cInstall (ca cb cc : BitVec 4) (dies : BitVec 4)
  /-- `C.REBUILD` (R332). -/
  | cRebuild (ca cc : BitVec 4)
  /-- `C.DELETE` (R333). -/
  | cDelete (ca cc : BitVec 4)
  /-- `C.STRIKE` (R383). -/
  | cStrike (ca cc : BitVec 4)
  /-- `C.PITCH` (R387). -/
  | cPitch (ca cc : BitVec 4) (late : BitVec 1)
  /-- `C.SAVE` (R376). -/
  | cSave (ca cb cc : BitVec 4)
  /-- `C.RESTORE` (R378). -/
  | cRestore (ca cb cc : BitVec 4)
  /-- `C.HALT` (R366). -/
  | cHalt (ca : BitVec 4)
  /-- `END` (R219). -/
  | endAct
  /-- `YIELD` (R220). -/
  | yieldAct
  /-- `MWAIT` (R308). -/
  | mwait
  /-- `SRET` (R230). -/
  | sret
  /-- `WFE` (R230). -/
  | wfe
  /-- `END` (R196). -/
  | end16
  /-- `C.NOP` (R354). -/
  | cNop
  /-- `C.RET` (R356). -/
  | cRet
  /-- `C.FENCE` (R362). -/
  | cFence
  /-- `MESSAGE_ARRIVAL` (R53): Network interface places an arriving message in the input-buffer share or the spill ring. -/
  | messageArrival
  /-- `SPILL_TO_BUFFER_MOVE` (R55): Oldest spilled message moves into a freed share entry. -/
  | spillToBufferMove
  /-- `SPILL_OVERFLOW_EXTENSION` (R56): Firmware attaches an HBM4 extension to a full spill ring or contains the context. -/
  | spillOverflowExtension
  /-- `OUTBOUND_LIST_DRAIN` (R133): Outbound list passes its head message to the network interface when counters allow. -/
  | outboundListDrain
  /-- `MULTICAST_SLOT_RETURN` (R130): A receiver's return increments the sending cell's free-slot counter. -/
  | multicastSlotReturn
  /-- `ACTIVATION_START` (R176): A free slot starts the first runnable pair, loading TBUD and MSGID. -/
  | activationStart
  /-- `AGE_PROMOTION` (R177): A runnable pair's age counter exceeds AGEL and it is promoted. -/
  | agePromotion
  /-- `STEAL_ATTEMPT` (R181): After 32 idle clk a free slot probes up to four cells and may steal a message. -/
  | stealAttempt
  /-- `TURN_BUDGET_EXPIRY` (R183): TBUD passes zero and raises 0x08, aborting the activation. -/
  | turnBudgetExpiry
  /-- `PREEMPTION_REQUEST` (R184): Cell stops starting activations of the context until released. -/
  | preemptionRequest
  /-- `STREAM_OPEN` (R179): A STREAM-START at the head claims a stream slot and starts the bound sequence. -/
  | streamOpen
  /-- `STREAM_CLOSE` (R179): After EOS and drain of SQ the EOS activation starts on the stream slot. -/
  | streamClose
  /-- `STREAM_SLOT_BUDGET_EXPIRY` (R292): A stream slot's budget expires and the stream is closed with 0x08. -/
  | streamSlotBudgetExpiry
  /-- `STREAM_REFILL_REQUEST` (R126): Stream unit requests the next pattern entry for a register. -/
  | streamRefillRequest
  /-- `STREAM_REFILL_RETURN` (R126): A refill read returns and its entry enters the register in pattern order. -/
  | streamRefillReturn
  /-- `RPT_INSTANCE_ISSUE` (R289): Sequencer issues the next repetition instance with staggered fields. -/
  | rptInstanceIssue
  /-- `MATRIX_DISPATCH` (R294): Array takes the next matrix-queue head among all slots at an instruction boundary. -/
  | matrixDispatch
  /-- `MATRIX_INSTRUCTION_COMPLETE` (R294): Matrix instruction completes, committing provisional results of later instructions. -/
  | matrixInstructionComplete
  /-- `MITER_ITERATION` (R315): One MITER iteration completes with its convergence, growth and divergence tests. -/
  | miterIteration
  /-- `GANG_JOIN_COMPLETE` (R310): Every masked cell is joining with the same mask and tag, and all enter gang mode. -/
  | gangJoinComplete
  /-- `GANG_TIMEOUT` (R311): Join or rendezvous incomplete after 16 384 clk raises 0x0B. -/
  | gangTimeout
  /-- `SLOT_TABLE_FRAME_START` (R309): A 4 096-clk frame begins and slot-table writes take effect. -/
  | slotTableFrameStart
  /-- `COUNTER_WAIT_END` (R50): A W or WAITC wait ends when the named counters reach zero. -/
  | counterWaitEnd
  /-- `POSTED_STORE_ACK` (R46): A destination acknowledges a performed posted store and its counter decrements. -/
  | postedStoreAck
  /-- `POSTED_STORE_LOSS` (R52): An abandoned posted store's count is released and the context contained. -/
  | postedStoreLoss
  /-- `MEMORY_RESPONSE` (R233): A remote load or atomic response returns and the register is written. -/
  | memoryResponse
  /-- `DESCRIPTOR_CACHE_FILL` (R16): A descriptor-cache miss fetch returns the 32-byte entry. -/
  | descriptorCacheFill
  /-- `INBOUND_REMOTE_ACCESS` (R20): A remote device checks an inbound access against its context and performs or refuses it. -/
  | inboundRemoteAccess
  /-- `REMOTE_REFUSAL_RETURN` (R20): A refusal returns to the issuer, trapping a load or releasing a store's count. -/
  | remoteRefusalReturn
  /-- `FULL_EMPTY_WAKE` (R35): A fill makes a granule full and a waiting LDF or VLDF is served. -/
  | fullEmptyWake
  /-- `QUEUE_WAIT_WAKE` (R274): A stalled pop or push proceeds when the queue has an entry or room. -/
  | queueWaitWake
  /-- `BARRIER_ARRIVAL` (R247): A BARA reaches the barrier unit or the barrier mailbox and is counted. -/
  | barrierArrival
  /-- `ECALL_HANDOVER` (R227): Cell hands a service record to the DFC for the context's service ring. -/
  | ecallHandover
  /-- `ENGINE_KICK` (R108): Store to a hart's KICK register is queued, stalled on a full FIFO, or refused. -/
  | engineKick
  /-- `KICK_ACCEPT` (R108): A hart accepts a kick from its FIFO and acknowledges it. -/
  | kickAccept
  /-- `ENGINE_NOP` (R110): Engine operation writing only its mailbox. -/
  | engineNop
  /-- `ENGINE_COPY` (R113): Copy hart copies elements between layouts. -/
  | engineCopy
  /-- `ENGINE_REDUCE` (R116): Copy hart adds a source tile into a destination, or enters an ordered group. -/
  | engineReduce
  /-- `ENGINE_GATHER` (R114): Gather hart copies with source coordinate 1 from an index list. -/
  | engineGather
  /-- `ENGINE_SCATTER` (R114): Gather hart copies with destination coordinate 1 from an index list. -/
  | engineScatter
  /-- `ENGINE_ALLREDUCE` (R118): Collective hart member of an all-reduce in member order. -/
  | engineAllreduce
  /-- `ENGINE_ALLGATHER` (R118): Collective hart member of an all-gather. -/
  | engineAllgather
  /-- `ENGINE_REDUCESCATTER` (R118): Collective hart member of a reduce-scatter. -/
  | engineReducescatter
  /-- `REDUCE_GROUP_COMPLETE` (R117): NCON contributions arrived; the group adds in key order and writes every mailbox. -/
  | reduceGroupComplete
  /-- `COPY_KICK_ANSWER` (R359): Hart's acceptance or refusal of a C.COPY kick reaches the command engine. -/
  | copyKickAnswer
  /-- `FAULT_BUFFER_FLUSH` (R150): DFC write of FBTAIL flushes records, increments FBGEN and reissues retry-at-flush agents. -/
  | faultBufferFlush
  /-- `FAULT_SERVICE_BATCH` (R152): DFC services fault records from TAIL to HEAD, skipping duplicates. -/
  | faultServiceBatch
  /-- `FAULT_RETRY` (R153): A retry makes a parked slot runnable or resumes a hart's operation. -/
  | faultRetry
  /-- `REMOTE_RETRY_RELAY` (R147): A sideband retry from a remote device is relayed to the parked slot. -/
  | remoteRetryRelay
  /-- `HELD_WRITE_RELEASE` (R146): Held writes of a page now present are retranslated and performed in arrival order. -/
  | heldWriteRelease
  /-- `PAGE_UNAVAILABLE` (R154): A page cannot be made present; error record, slots stay parked, engine ops end ABSENT. -/
  | pageUnavailable
  /-- `MIGRATION` (R155): Firmware moves a page: set MIG, migration copy, remap, release held writes. -/
  | migration
  /-- `MIGRATION_ABANDON` (R156): A faulting migration copy is abandoned and poisoned granules marked. -/
  | migrationAbandon
  /-- `PAGE_SHOOTDOWN_COMPLETE` (R141): Every access translated under the old entry has performed. -/
  | pageShootdownComplete
  /-- `DESCRIPTOR_UPDATE` (R18): Host instruction through firmware changes or revokes a descriptor. -/
  | descriptorUpdate
  /-- `DESCRIPTOR_SHOOTDOWN_COMPLETE` (R18): Shootdown completes at every agent and the new entry is written. -/
  | descriptorShootdownComplete
  /-- `CODE_PAGE_VERIFY` (R329): Vault verifier checks a body page's seal and enters it into the code store. -/
  | codePageVerify
  /-- `REBUILD_COMPLETE` (R332): Rebuild derives a new body, the capsule becomes SEALED and parked slots are retried. -/
  | rebuildComplete
  /-- `FIRMWARE_ACTIVATION` (R332): Host activates new firmware when no activation runs; SEALED capsules become VOID. -/
  | firmwareActivation
  /-- `PRIVILEGED_COMMAND_COMPLETE` (R365): Lead DFC finishes serving a privileged command and writes its status word. -/
  | privilegedCommandComplete
  /-- `DOORBELL` (R343): Host write to a queue doorbell updates TAIL or faults BADTAIL. -/
  | doorbell
  /-- `QREC_UPDATE` (R341): Owner die applies an update request, invalidates replicas and answers. -/
  | qrecUpdate
  /-- `REPLICA_INVALIDATE` (R341): A die marks its queue-record replica stale. -/
  | replicaInvalidate
  /-- `COMMAND_ENGINE_SELECT` (R348): Command engine picks the next runnable queue by priority and round robin. -/
  | commandEngineSelect
  /-- `SEMAPHORE_RECHECK` (R360): Engine rereads a waited semaphore after an observed write or 2 us. -/
  | semaphoreRecheck
  /-- `WAIT_REPORT_TIMEOUT` (R367): After WTO ms a wait on an unmapped signaller is reported. -/
  | waitReportTimeout
  /-- `LEASE_RENEWAL` (R344): Lead renews its lease every 2 ms and followers restart their timers. -/
  | leaseRenewal
  /-- `LEASE_LAPSE` (R345): A follower's lease timer runs 10 ms without renewal. -/
  | leaseLapse
  /-- `LEAD_TAKEOVER` (R345): After a further lease period the lowest live follower raises the epoch and becomes lead. -/
  | leadTakeover
  /-- `HOST_INSTRUCTION` (R346): Lead answers a sequenced host instruction once, treating re-issues as done. -/
  | hostInstruction
  /-- `MAP_QUEUE` (R346): Host instruction to map a queue to a command engine. -/
  | mapQueue
  /-- `UNMAP_QUEUE` (R347): Host instruction to unmap a queue at a command boundary. -/
  | unmapQueue
  /-- `QUEUE_FAULT_RECOVERY` (R353): Host instruction to resume, skip or reset a faulted queue. -/
  | queueFaultRecovery
  /-- `QUEUE_RESUME` (R366): Host instruction returning a STOP queue to READY. -/
  | queueResume
  /-- `AMASK_CLEAR` (R183): Host instruction clears AMASK, keeping or discarding the head message. -/
  | amaskClear
  /-- `RELEASE_IMAGE` (R333): Host instruction releasing a held save image. -/
  | releaseImage
  /-- `REGISTER_JOB` (R381): Host instruction registering a job descriptor. -/
  | registerJob
  /-- `UNREGISTER_JOB` (R381): Host instruction unregistering a job descriptor. -/
  | unregisterJob
  /-- `CREATE_CONTEXT` (R136): Host instruction creating a resident context and its record. -/
  | createContext
  /-- `KILL_CONTEXT` (R391): Host kills a context: stores per R102, operations stopped, state discarded. -/
  | killContext
  /-- `SET_SAVE_LIMIT` (R377): Host sets SAVE_LIMIT. -/
  | setSaveLimit
  /-- `WRITE_WATCH_FILTER` (R157): Firmware writes an OTU watch filter on host instruction. -/
  | writeWatchFilter
  /-- `WRITE_WATCH_COMPARATOR` (R159): Firmware writes a cell watch comparator on host instruction. -/
  | writeWatchComparator
  /-- `WRITE_SLOT_TABLE` (R309): Firmware writes a rank slot table on host instruction. -/
  | writeSlotTable
  /-- `WRITE_AGEL` (R177): Firmware writes a cell's age limit on host instruction. -/
  | writeAgel
  /-- `WRITE_DBGCTL` (R408): Firmware writes a context's DBGCTL on host instruction. -/
  | writeDbgctl
  /-- `GRANT_TABLE_WRITE` (R171): Security core writes or revokes a grant-table entry. -/
  | grantTableWrite
  /-- `CXL_KEY_INSTALL` (R44): Security core generates and installs or retires a CXL key. -/
  | cxlKeyInstall
  /-- `HOST_MEMORY_REQUEST` (R45): A host read, write or atomic on device memory through a context's objects. -/
  | hostMemoryRequest
  /-- `DEBUG_STOP_REQUEST` (R409): A stop is requested at a cell of a context. -/
  | debugStopRequest
  /-- `STOP_LANDS` (R410): No slot of the cell runs the context; STOP trace record written and signalled. -/
  | stopLands
  /-- `DEBUG_RESUME` (R411): Host resume returns a stopped cell to normal selection. -/
  | debugResume
  /-- `DEBUG_STEP` (R411): Host step lets a stopped cell start exactly one activation. -/
  | debugStep
  /-- `TRACE_SAMPLE` (R412): Every SPER us a cell records a SAMPLE for each running slot. -/
  | traceSample
  /-- `SAVE_QUIESCE_COMPLETE` (R376): Save's quiescence reached; barriers unloaded and sections written. -/
  | saveQuiesceComplete
  /-- `SAVE_WATCHDOG_EXPIRY` (R377): SAVE_LIMIT expires and the save or strike is abandoned. -/
  | saveWatchdogExpiry
  /-- `STRIKE_REQUEST` (R383): A member receives the strike over the sideband and starts HALT and its watchdog. -/
  | strikeRequest
  /-- `STRIKE_HALT_COMPLETE` (R383): Every slot of the job is free or parked and kicks settled; DRAIN begins. -/
  | strikeHaltComplete
  /-- `STRIKE_DRAIN_COMPLETE` (R383): No job packet remains on the compute dies; sweep pegs enqueued. -/
  | strikeDrainComplete
  /-- `STRIKE_SWEEP_COMPLETE` (R384): Buffers are clear of job packets, written as sweep records. -/
  | strikeSweepComplete
  /-- `SWEEP_PEG_ARRIVAL` (R383): A sweep peg arrives on an ingress port; the last one makes the device DONE. -/
  | sweepPegArrival
  /-- `LATE_PACKET` (R386): A job packet after all pegs is stored in the late area and reported 0x11. -/
  | latePacket
  /-- `MEMBER_REPORT` (R383): A member's struck, absent or re-injected report reaches the initiator. -/
  | memberReport
  /-- `PITCH_REQUEST` (R387): A member receives a forwarded pitch, checks, restores and re-injects. -/
  | pitchRequest
  /-- `FLIT_REPLAY` (R400): A flit failing CRC is replayed from the retry buffer. -/
  | flitReplay
  /-- `LINK_DOWN` (R400): After 8 failed replays the link goes down and its traffic is lost with reports. -/
  | linkDown
  /-- `UNDELIVERABLE_MESSAGE` (R442): A link message for a non-resident context or bad virtual PE is discarded and refused. -/
  | undeliverableMessage
  /-- `UNDELIVERABLE_REFUSAL` (R442): Sender receives the refusal and writes a TYPE 13 record. -/
  | undeliverableRefusal
  /-- `DEVICE_WARM_RESET` (R399): Warm reset discards contexts and keys and scrubs memory. -/
  | deviceWarmReset
  /-- `BOOT` (R392): Security core boots, verifies the image, extends measurements and loads firmware. -/
  | boot
  /-- `FIRMWARE_READY` (R393): Lead DFC reports firmware ready and the attempt counter clears. -/
  | firmwareReady
  /-- `PCIE_HOT_RESET` (R398): Hot reset or link-down loses keys and detaches protected contexts. -/
  | pcieHotReset
  /-- `SPDM_REQUEST` (R395): Security core answers an SPDM request, including IDE_KM and fuse writes. -/
  | spdmRequest
  /-- `RAISE_SECURITY_FLOOR` (R394): Authenticated fuse write raising the security version floor. -/
  | raiseSecurityFloor
  /-- `LOCK_INTERFACE` (R397): TDISP request moving an interface to CONFIG_LOCKED. -/
  | lockInterface
  /-- `START_INTERFACE` (R396): TDISP request moving an interface to RUN. -/
  | startInterface
  /-- `STOP_INTERFACE` (R397): TDISP request returning an interface to CONFIG_UNLOCKED. -/
  | stopInterface
  /-- `CONFIG_WRITE` (R397): Interface configuration write, accepted or moving the interface to ERROR. -/
  | configWrite
  /-- `IDE_INTEGRITY_FAILURE` (R396): IDE integrity failure moves the interface to ERROR. -/
  | ideIntegrityFailure
  /-- `SET_PERFORMANCE_STATE` (R401): Host command changes a die's performance state at a cycle boundary. -/
  | setPerformanceState
  /-- `SET_IDLE_STATE` (R401): Host command changes a rank's idle state, refused for IS3 with state. -/
  | setIdleState
  /-- `SET_TRIP_STATE` (R402): Host pre-commands a die's trip state. -/
  | setTripState
  /-- `THERMAL_TRIP` (R402): A sensor crosses its threshold and the die enters its trip state. -/
  | thermalTrip
  /-- `UNCORRECTABLE_ERROR` (R403): An uncorrectable data error poisons granules and writes an error record. -/
  | uncorrectableError
  /-- `CORRECTED_ERROR_REPORT` (R403): Each millisecond a detecting unit reports its corrected-error count. -/
  | correctedErrorReport
  /-- `DFC_EVENT` (R229): A DFC trap or pending event enters DTVEC, or wakes a WFE. -/
  | dfcEvent
  /-- `REGISTER_WRITE` (R3): Write to a register with no row of its own, per its access codes. -/
  | registerWrite
  /-- `LEAD_LEASE_EXPIRY` (R344): A lead that has not completed a renewal for 10 ms stops acting as lead. -/
  | leadLeaseExpiry
  /-- `IDLE_STATE_EXIT` (R401): A rank completes its exit from IS1, IS2 or IS3 to IS0 after 1, 20 or 200 us and may start activations again. -/
  | idleStateExit
  deriving DecidableEq, Repr

end Sys2Proof
end

