-- ==== Sys2Proof/WellFormed.lean ====
section
/-! DEFINITION. Which instructions are well formed: every register, queue and vector field holds a legal value, SC and ORD are
allowed for the form, FENCE and WAITC name something (R195 steps 4 and 5, R61, R62, R191, R274), and a command's fields lie in the
ranges the command states (R351 to R366). An instruction that is not well formed raises 0x02, or faults its queue with BADFLD. -/

namespace Sys2Proof

/-- SC is not 0b110 or 0b111 (R62). -/
def legalScope (sc : BitVec 3) : Bool := decide (sc.toNat < 6)
/-- A load is plain or an acquire (R61). -/
def legalLoadOrd (o : BitVec 2) : Bool := o == 0 || o == 1
/-- A store is plain or a release (R61). -/
def legalStoreOrd (o : BitVec 2) : Bool := o == 0 || o == 2
/-- A vector operand field names v0 to v15 or q0 to q7 (R191). -/
def operand (v : BitVec 5) : Bool := decide (v.toNat < 24)
/-- A vector register field names v0 to v15. -/
def vectorReg (v : BitVec 5) : Bool := decide (v.toNat < 16)
/-- A queue register field names q0 to q7 (R191). -/
def queueReg (q : BitVec 5) : Bool := decide (q.toNat < 8)
/-- All queue fields of one instruction name the same queue (R274). -/
def oneQueue (vs : List (BitVec 5)) : Bool :=
  vs.all fun a => vs.all fun b => decide (a.toNat < 16) || decide (b.toNat < 16) || a == b
/-- The width of conversion format code `c` (R277). -/
def conversionWidth (c : Nat) : Nat :=
  match c with
  | 0 => 32 | 1 => 16 | 2 => 16 | 3 => 8 | 4 => 8 | 5 => 32 | 6 => 16 | _ => 8
/-- A VCVT converts between two formats, and its part number lies below 32 div the lesser width (R277). -/
def conversionPart (c : BitVec 6) (p : BitVec 2) : Bool :=
  c.toNat / 8 != c.toNat % 8 && decide (p.toNat < 32 / min (conversionWidth (c.toNat / 8)) (conversionWidth (c.toNat % 8)))

/-- Whether every field of the instruction holds a legal value (DEDUCED, log entry 37). -/
def wellFormed : Instr → Bool
  | .lb _ _ _ sc ord _ => legalScope sc && legalLoadOrd ord
  | .lh _ _ _ sc ord _ => legalScope sc && legalLoadOrd ord
  | .lw _ _ _ sc ord _ => legalScope sc && legalLoadOrd ord
  | .ld _ _ _ sc ord _ => legalScope sc && legalLoadOrd ord
  | .lbu _ _ _ sc ord _ => legalScope sc && legalLoadOrd ord
  | .lhu _ _ _ sc ord _ => legalScope sc && legalLoadOrd ord
  | .lwu _ _ _ sc ord _ => legalScope sc && legalLoadOrd ord
  | .ldcn _ _ _ sc ord _ => legalScope sc && legalLoadOrd ord
  | .sb _ _ _ sc ord _ => legalScope sc && legalStoreOrd ord
  | .sh _ _ _ sc ord _ => legalScope sc && legalStoreOrd ord
  | .sw _ _ _ sc ord _ => legalScope sc && legalStoreOrd ord
  | .sd _ _ _ sc ord _ => legalScope sc && legalStoreOrd ord
  | .ldf _ _ _ sc _ => legalScope sc
  | .ldfC _ _ _ sc _ => legalScope sc
  | .stf _ _ _ sc _ => legalScope sc
  | .feclr _ _ _ sc _ => legalScope sc
  | .layr vd _ _ sc => legalScope sc && vectorReg vd
  | .layw vd _ _ sc => legalScope sc && vectorReg vd
  | .amoaddW _ _ _ sc _ => legalScope sc
  | .amoandW _ _ _ sc _ => legalScope sc
  | .amoorW _ _ _ sc _ => legalScope sc
  | .amoxorW _ _ _ sc _ => legalScope sc
  | .amominW _ _ _ sc _ => legalScope sc
  | .amomaxW _ _ _ sc _ => legalScope sc
  | .amominuW _ _ _ sc _ => legalScope sc
  | .amomaxuW _ _ _ sc _ => legalScope sc
  | .amoswpW _ _ _ sc _ => legalScope sc
  | .amocasW _ _ _ sc _ => legalScope sc
  | .amofaddW _ _ _ sc _ => legalScope sc
  | .amoaddD _ _ _ sc _ => legalScope sc
  | .amoandD _ _ _ sc _ => legalScope sc
  | .amoorD _ _ _ sc _ => legalScope sc
  | .amoxorD _ _ _ sc _ => legalScope sc
  | .amominD _ _ _ sc _ => legalScope sc
  | .amomaxD _ _ _ sc _ => legalScope sc
  | .amominuD _ _ _ sc _ => legalScope sc
  | .amomaxuD _ _ _ sc _ => legalScope sc
  | .amoswpD _ _ _ sc _ => legalScope sc
  | .amocasD _ _ _ sc _ => legalScope sc
  | .amofaddD _ _ _ sc _ => legalScope sc
  | .fence sc sw sr pw pr => legalScope sc && (pr ||| pw) != 0 && (sr ||| sw) != 0
  | .waitc cn cm cv => (cv ||| cm ||| cn) != 0
  | .bara _ _ sc => legalScope sc
  | .barw _ _ sc => legalScope sc
  | .send _ vb => vectorReg vb
  | .sendm vd _ _ => vectorReg vd
  | .sends _ vb => vectorReg vb
  | .sende _ vb => vectorReg vb
  | .qstream q _ => queueReg q
  | .qrel q => queueReg q
  | .qpop _ q => queueReg q
  | .qpush q _ => queueReg q
  | .qstat _ q => queueReg q
  | .vld rt _ _ sc ord _ => legalScope sc && legalLoadOrd ord && operand rt
  | .vst rt _ _ sc ord _ => legalScope sc && legalStoreOrd ord && operand rt
  | .vldf rt _ _ sc _ => legalScope sc && operand rt
  | .vldfC rt _ _ sc _ => legalScope sc && operand rt
  | .vstf rt _ _ sc _ => legalScope sc && operand rt
  | .vldL vd _ _ _ sc => legalScope sc && operand vd
  | .vstL vd _ _ _ sc => legalScope sc && operand vd
  | .vldfL vd _ _ _ sc => legalScope sc && operand vd
  | .vldfCL vd _ _ _ sc => legalScope sc && operand vd
  | .vstfL vd _ _ _ sc => legalScope sc && operand vd
  | .vadd vd va vb _ => operand vd && operand va && operand vb && oneQueue [vd, va, vb]
  | .vsub vd va vb _ => operand vd && operand va && operand vb && oneQueue [vd, va, vb]
  | .vmul vd va vb _ => operand vd && operand va && operand vb && oneQueue [vd, va, vb]
  | .vfma vd va vb _ => operand vd && operand va && operand vb && oneQueue [vd, va, vb]
  | .vfms vd va vb _ => operand vd && operand va && operand vb && oneQueue [vd, va, vb]
  | .vmax vd va vb _ => operand vd && operand va && operand vb && oneQueue [vd, va, vb]
  | .vmin vd va vb _ => operand vd && operand va && operand vb && oneQueue [vd, va, vb]
  | .vabs vd va _ => operand vd && operand va && oneQueue [vd, va]
  | .vneg vd va _ => operand vd && operand va && oneQueue [vd, va]
  | .vrcp vd va _ => operand vd && operand va && oneQueue [vd, va]
  | .vrsq vd va _ => operand vd && operand va && oneQueue [vd, va]
  | .vexp vd va _ => operand vd && operand va && oneQueue [vd, va]
  | .vlog vd va _ => operand vd && operand va && oneQueue [vd, va]
  | .vsigm vd va _ => operand vd && operand va && oneQueue [vd, va]
  | .vtanh vd va _ => operand vd && operand va && oneQueue [vd, va]
  | .vcvt vd va p f => operand vd && operand va && oneQueue [vd, va] && conversionPart f p
  | .vreda vd va _ => operand vd && operand va && oneQueue [vd, va]
  | .vredx vd va _ => operand vd && operand va && oneQueue [vd, va]
  | .vcmpEq vd va vb _ => operand vd && operand va && operand vb && oneQueue [vd, va, vb]
  | .vcmpNe vd va vb _ => operand vd && operand va && operand vb && oneQueue [vd, va, vb]
  | .vcmpLt vd va vb _ => operand vd && operand va && operand vb && oneQueue [vd, va, vb]
  | .vcmpLe vd va vb _ => operand vd && operand va && operand vb && oneQueue [vd, va, vb]
  | .vcmpGt vd va vb _ => operand vd && operand va && operand vb && oneQueue [vd, va, vb]
  | .vcmpGe vd va vb _ => operand vd && operand va && operand vb && oneQueue [vd, va, vb]
  | .vsel vd va vb k => operand vd && operand va && operand vb && oneQueue [vd, va, vb] && k != 0
  | .vperm vd va vb _ => operand vd && operand va && operand vb && oneQueue [vd, va, vb]
  | .vbcst vd _ _ => operand vd
  | .vmvx _ va _ => operand va
  | .vmvs vd _ _ => operand vd
  | .viadd vd va vb _ _ => operand vd && operand va && operand vb && oneQueue [vd, va, vb]
  | .visub vd va vb _ _ => operand vd && operand va && operand vb && oneQueue [vd, va, vb]
  | .vimul vd va vb _ _ => operand vd && operand va && operand vb && oneQueue [vd, va, vb]
  | .viand vd va vb _ _ => operand vd && operand va && operand vb && oneQueue [vd, va, vb]
  | .vior vd va vb _ _ => operand vd && operand va && operand vb && oneQueue [vd, va, vb]
  | .vixor vd va vb _ _ => operand vd && operand va && operand vb && oneQueue [vd, va, vb]
  | .visll vd va vb _ _ => operand vd && operand va && operand vb && oneQueue [vd, va, vb]
  | .visrl vd va vb _ _ => operand vd && operand va && operand vb && oneQueue [vd, va, vb]
  | .visra vd va vb _ _ => operand vd && operand va && operand vb && oneQueue [vd, va, vb]
  | .miter _ aa md _ _ _ => (md == 1 || aa == 0)
  | .mrdr _ ab _ rb => operand rb && decide (ab.toNat ≤ 2)
  | .mwrr _ _ rb => operand rb
  | .mld _ _ _ sc _ => legalScope sc
  | .mst _ _ _ sc _ => legalScope sc
  | .mldb _ _ _ sc _ => legalScope sc
  | .jr16 _ rb => rb == 0
  | .cAdd _ _ cc i imm | .cSub _ _ cc i imm | .cAnd _ _ cc i imm | .cOr _ _ cc i imm | .cShl _ _ cc i imm
  | .cShr _ _ cc i imm => if i == 1 then cc == 0 else imm == 0
  | .cLaunch _ cb _ n _ | .cLaunchall _ cb _ n _ =>
    decide (cb.toNat + n.toNat ≤ 16) && (n != 0 || cb == 0)
  | .cWaitsem _ _ cond dec _ _ => cond != 3 && (dec == 0 || cond == 0)
  | .cInstall _ _ _ dies => dies != 0
  | _ => true

end Sys2Proof
end

