-- ==== Sys2Proof/Decode.lean ====
section
/-! DEFINITION. Instruction words to instructions and back: the 32-bit Kreral formats and the opcode map (R190, R192, R193), the
16-bit forms (R196), and the Sarrun command words (R351, R352). A decoder never looks at machine state; what depends on the agent
(R195 step 3, CSR numbers) is checked where the instruction runs. -/

namespace Sys2Proof

/-- Bits `[lo + len - 1 : lo]` of `w`, as a number. -/
def field (w lo len : Nat) : Nat := w / 2 ^ lo % 2 ^ len

/-- Bits `[lo + len - 1 : lo]` of `w`, as a bit vector. -/
def f {n : Nat} (w lo len : Nat) (_h : n = len := by rfl) : BitVec n := BitVec.ofNat n (field w lo len)

/-- A form whose must-be-zero fields are `z`: 0x02 if one of them is not zero (R191, R195 step 4). -/
def mbz (z : List Nat) (i : Instr) : Except Nat Instr := if z.all (· == 0) then .ok i else .error 2

/-- The forms of MAJ 0x00, by selector (Table 8.2). -/
def decodeMaj00 (w : Nat) : Except Nat Instr :=
  match field w 23 9 with
  | 0 => .ok (.add (f w 8 5) (f w 13 5) (f w 18 5))
  | 1 => .ok (.sub (f w 8 5) (f w 13 5) (f w 18 5))
  | 2 => .ok (.and (f w 8 5) (f w 13 5) (f w 18 5))
  | 3 => .ok (.or (f w 8 5) (f w 13 5) (f w 18 5))
  | 4 => .ok (.xor (f w 8 5) (f w 13 5) (f w 18 5))
  | 5 => .ok (.sll (f w 8 5) (f w 13 5) (f w 18 5))
  | 6 => .ok (.srl (f w 8 5) (f w 13 5) (f w 18 5))
  | 7 => .ok (.sra (f w 8 5) (f w 13 5) (f w 18 5))
  | _ => .error 1

/-- The forms of MAJ 0x01, by selector (Table 8.2). -/
def decodeMaj01 (w : Nat) : Except Nat Instr :=
  match field w 23 9 with
  | 0 => .ok (.min (f w 8 5) (f w 13 5) (f w 18 5))
  | 1 => .ok (.max (f w 8 5) (f w 13 5) (f w 18 5))
  | 2 => .ok (.minu (f w 8 5) (f w 13 5) (f w 18 5))
  | 3 => .ok (.maxu (f w 8 5) (f w 13 5) (f w 18 5))
  | 4 => .ok (.slt (f w 8 5) (f w 13 5) (f w 18 5))
  | 5 => .ok (.sltu (f w 8 5) (f w 13 5) (f w 18 5))
  | _ => .error 1

/-- The forms of MAJ 0x02, by selector (Table 8.2). -/
def decodeMaj02 (w : Nat) : Except Nat Instr :=
  match field w 23 9 with
  | 0 => .ok (.mul (f w 8 5) (f w 13 5) (f w 18 5))
  | 1 => .ok (.mulh (f w 8 5) (f w 13 5) (f w 18 5))
  | 2 => .ok (.mulhu (f w 8 5) (f w 13 5) (f w 18 5))
  | 3 => .ok (.div (f w 8 5) (f w 13 5) (f w 18 5))
  | 4 => .ok (.divu (f w 8 5) (f w 13 5) (f w 18 5))
  | 5 => .ok (.rem (f w 8 5) (f w 13 5) (f w 18 5))
  | 6 => .ok (.remu (f w 8 5) (f w 13 5) (f w 18 5))
  | _ => .error 1

/-- The forms of MAJ 0x03, by selector (Table 8.2). -/
def decodeMaj03 (w : Nat) : Except Nat Instr :=
  match field w 23 9 with
  | 0 => mbz [field w 18 5] (.clz (f w 8 5) (f w 13 5))
  | 1 => mbz [field w 18 5] (.ctz (f w 8 5) (f w 13 5))
  | 2 => mbz [field w 18 5] (.popc (f w 8 5) (f w 13 5))
  | 3 => .ok (.sext (f w 8 5) (f w 13 5) (f w 18 5))
  | 4 => .ok (.zext (f w 8 5) (f w 13 5) (f w 18 5))
  | _ => .error 1

/-- The forms of MAJ 0x04, by selector (Table 8.2). -/
def decodeMaj04 (w : Nat) : Except Nat Instr :=
  match field w 23 9 with
  | 0 => .ok (.oadd (f w 8 5) (f w 13 5) (f w 18 5))
  | 1 => mbz [field w 18 5] (.oslot (f w 8 5) (f w 13 5))
  | 2 => .ok (.ochk (f w 8 5) (f w 13 5) (f w 18 5))
  | 3 => .ok (.omake (f w 8 5) (f w 13 5) (f w 18 5))
  | 4 => .ok (.pack2 (f w 8 5) (f w 13 5) (f w 18 5))
  | 5 => .ok (.pack4 (f w 8 5) (f w 13 5) (f w 18 5))
  | _ => .error 1

/-- The forms of MAJ 0x10, by selector (Table 8.2). -/
def decodeMaj10 (w : Nat) : Except Nat Instr :=
  match field w 18 3 with
  | 0 => .ok (.beq (f w 8 5) (f w 13 5) (f w 21 11))
  | 1 => .ok (.bne (f w 8 5) (f w 13 5) (f w 21 11))
  | 2 => .ok (.blt (f w 8 5) (f w 13 5) (f w 21 11))
  | 3 => .ok (.bge (f w 8 5) (f w 13 5) (f w 21 11))
  | 4 => .ok (.bltu (f w 8 5) (f w 13 5) (f w 21 11))
  | 5 => .ok (.bgeu (f w 8 5) (f w 13 5) (f w 21 11))
  | _ => .error 1

/-- The forms of MAJ 0x15, by selector (Table 8.2). -/
def decodeMaj15 (w : Nat) : Except Nat Instr :=
  match field w 23 9 with
  | 0 => mbz [field w 8 15] (.endAct)
  | 1 => mbz [field w 8 15] (.yieldAct)
  | _ => .error 1

/-- The forms of MAJ 0x24, by selector (Table 8.2). -/
def decodeMaj24 (w : Nat) : Except Nat Instr :=
  match field w 23 2 with
  | 0 => .ok (.ldf (f w 8 5) (f w 13 5) (f w 18 2) (f w 20 3) (f w 25 7))
  | 1 => .ok (.ldfC (f w 8 5) (f w 13 5) (f w 18 2) (f w 20 3) (f w 25 7))
  | 2 => .ok (.stf (f w 8 5) (f w 13 5) (f w 18 2) (f w 20 3) (f w 25 7))
  | 3 => .ok (.feclr (f w 8 5) (f w 13 5) (f w 18 2) (f w 20 3) (f w 25 7))
  | _ => .error 1

/-- The forms of MAJ 0x25, by selector (Table 8.2). -/
def decodeMaj25 (w : Nat) : Except Nat Instr :=
  match field w 29 3 with
  | 0 => mbz [field w 19 5] (.layr (f w 8 5) (f w 13 6) (f w 24 2) (f w 26 3))
  | 1 => mbz [field w 19 5] (.layw (f w 8 5) (f w 13 6) (f w 24 2) (f w 26 3))
  | _ => .error 1

/-- The forms of MAJ 0x26, by selector (Table 8.2). -/
def decodeMaj26 (w : Nat) : Except Nat Instr :=
  match field w 28 4 with
  | 0 => .ok (.amoaddW (f w 8 5) (f w 13 5) (f w 18 5) (f w 23 3) (f w 26 2))
  | 1 => .ok (.amoandW (f w 8 5) (f w 13 5) (f w 18 5) (f w 23 3) (f w 26 2))
  | 2 => .ok (.amoorW (f w 8 5) (f w 13 5) (f w 18 5) (f w 23 3) (f w 26 2))
  | 3 => .ok (.amoxorW (f w 8 5) (f w 13 5) (f w 18 5) (f w 23 3) (f w 26 2))
  | 4 => .ok (.amominW (f w 8 5) (f w 13 5) (f w 18 5) (f w 23 3) (f w 26 2))
  | 5 => .ok (.amomaxW (f w 8 5) (f w 13 5) (f w 18 5) (f w 23 3) (f w 26 2))
  | 6 => .ok (.amominuW (f w 8 5) (f w 13 5) (f w 18 5) (f w 23 3) (f w 26 2))
  | 7 => .ok (.amomaxuW (f w 8 5) (f w 13 5) (f w 18 5) (f w 23 3) (f w 26 2))
  | 8 => .ok (.amoswpW (f w 8 5) (f w 13 5) (f w 18 5) (f w 23 3) (f w 26 2))
  | 9 => .ok (.amocasW (f w 8 5) (f w 13 5) (f w 18 5) (f w 23 3) (f w 26 2))
  | 10 => .ok (.amofaddW (f w 8 5) (f w 13 5) (f w 18 5) (f w 23 3) (f w 26 2))
  | _ => .error 1

/-- The forms of MAJ 0x27, by selector (Table 8.2). -/
def decodeMaj27 (w : Nat) : Except Nat Instr :=
  match field w 28 4 with
  | 0 => .ok (.amoaddD (f w 8 5) (f w 13 5) (f w 18 5) (f w 23 3) (f w 26 2))
  | 1 => .ok (.amoandD (f w 8 5) (f w 13 5) (f w 18 5) (f w 23 3) (f w 26 2))
  | 2 => .ok (.amoorD (f w 8 5) (f w 13 5) (f w 18 5) (f w 23 3) (f w 26 2))
  | 3 => .ok (.amoxorD (f w 8 5) (f w 13 5) (f w 18 5) (f w 23 3) (f w 26 2))
  | 4 => .ok (.amominD (f w 8 5) (f w 13 5) (f w 18 5) (f w 23 3) (f w 26 2))
  | 5 => .ok (.amomaxD (f w 8 5) (f w 13 5) (f w 18 5) (f w 23 3) (f w 26 2))
  | 6 => .ok (.amominuD (f w 8 5) (f w 13 5) (f w 18 5) (f w 23 3) (f w 26 2))
  | 7 => .ok (.amomaxuD (f w 8 5) (f w 13 5) (f w 18 5) (f w 23 3) (f w 26 2))
  | 8 => .ok (.amoswpD (f w 8 5) (f w 13 5) (f w 18 5) (f w 23 3) (f w 26 2))
  | 9 => .ok (.amocasD (f w 8 5) (f w 13 5) (f w 18 5) (f w 23 3) (f w 26 2))
  | 10 => .ok (.amofaddD (f w 8 5) (f w 13 5) (f w 18 5) (f w 23 3) (f w 26 2))
  | _ => .error 1

/-- The forms of MAJ 0x28, by selector (Table 8.2). -/
def decodeMaj28 (w : Nat) : Except Nat Instr :=
  match field w 30 2 with
  | 0 => mbz [field w 8 15] (.fence (f w 23 3) (f w 26 1) (f w 27 1) (f w 28 1) (f w 29 1))
  | 1 => mbz [field w 8 19] (.waitc (f w 27 1) (f w 28 1) (f w 29 1))
  | _ => .error 1

/-- The forms of MAJ 0x29, by selector (Table 8.2). -/
def decodeMaj29 (w : Nat) : Except Nat Instr :=
  match field w 29 3 with
  | 0 => mbz [field w 18 5, field w 26 3] (.bara (f w 8 5) (f w 13 5) (f w 23 3))
  | 1 => mbz [field w 18 5, field w 26 3] (.barw (f w 8 5) (f w 13 5) (f w 23 3))
  | _ => .error 1

/-- The forms of MAJ 0x2A, by selector (Table 8.2). -/
def decodeMaj2a (w : Nat) : Except Nat Instr :=
  match field w 23 9 with
  | 0 => mbz [field w 8 5] (.send (f w 13 5) (f w 18 5))
  | 1 => .ok (.sendm (f w 8 5) (f w 13 5) (f w 18 5))
  | 2 => mbz [field w 8 5] (.sends (f w 13 5) (f w 18 5))
  | 3 => mbz [field w 8 5] (.sende (f w 13 5) (f w 18 5))
  | 4 => mbz [field w 18 5] (.msgld (f w 8 5) (f w 13 5))
  | _ => .error 1

/-- The forms of MAJ 0x2B, by selector (Table 8.2). -/
def decodeMaj2b (w : Nat) : Except Nat Instr :=
  match field w 23 9 with
  | 0 => mbz [field w 8 5, field w 18 5] (.bind (f w 13 5))
  | 1 => mbz [field w 8 5, field w 18 5] (.unbind (f w 13 5))
  | 2 => mbz [field w 8 5] (.sbind (f w 13 5) (f w 18 5))
  | 3 => mbz [field w 8 5, field w 18 5] (.chmask (f w 13 5))
  | 4 => mbz [field w 8 5, field w 18 5] (.chunmask (f w 13 5))
  | _ => .error 1

/-- The forms of MAJ 0x2C, by selector (Table 8.2). -/
def decodeMaj2c (w : Nat) : Except Nat Instr :=
  match field w 23 9 with
  | 0 => mbz [field w 18 5] (.qstream (f w 8 5) (f w 13 5))
  | 1 => mbz [field w 13 10] (.qrel (f w 8 5))
  | 2 => mbz [field w 18 5] (.qpop (f w 8 5) (f w 13 5))
  | 3 => mbz [field w 18 5] (.qpush (f w 8 5) (f w 13 5))
  | 4 => mbz [field w 18 5] (.qstat (f w 8 5) (f w 13 5))
  | _ => .error 1

/-- The forms of MAJ 0x2D, by selector (Table 8.2). -/
def decodeMaj2d (w : Nat) : Except Nat Instr :=
  match field w 23 9 with
  | 0 => mbz [field w 8 5] (.rpt (f w 13 5) (f w 18 5))
  | 1 => mbz [field w 13 10] (.rptw (f w 8 5))
  | _ => .error 1

/-- The forms of MAJ 0x32, by selector (Table 8.2). -/
def decodeMaj32 (w : Nat) : Except Nat Instr :=
  match field w 23 2 with
  | 0 => .ok (.vldf (f w 8 5) (f w 13 5) (f w 18 2) (f w 20 3) (f w 25 7))
  | 1 => .ok (.vldfC (f w 8 5) (f w 13 5) (f w 18 2) (f w 20 3) (f w 25 7))
  | _ => .error 1

/-- The forms of MAJ 0x33, by selector (Table 8.2). -/
def decodeMaj33 (w : Nat) : Except Nat Instr :=
  match field w 23 2 with
  | 0 => .ok (.vstf (f w 8 5) (f w 13 5) (f w 18 2) (f w 20 3) (f w 25 7))
  | _ => .error 1

/-- The forms of MAJ 0x34, by selector (Table 8.2). -/
def decodeMaj34 (w : Nat) : Except Nat Instr :=
  match field w 29 3 with
  | 0 => .ok (.vldL (f w 8 5) (f w 13 6) (f w 19 5) (f w 24 2) (f w 26 3))
  | 1 => .ok (.vstL (f w 8 5) (f w 13 6) (f w 19 5) (f w 24 2) (f w 26 3))
  | 2 => .ok (.vldfL (f w 8 5) (f w 13 6) (f w 19 5) (f w 24 2) (f w 26 3))
  | 3 => .ok (.vldfCL (f w 8 5) (f w 13 6) (f w 19 5) (f w 24 2) (f w 26 3))
  | 4 => .ok (.vstfL (f w 8 5) (f w 13 6) (f w 19 5) (f w 24 2) (f w 26 3))
  | _ => .error 1

/-- The forms of MAJ 0x35, by selector (Table 8.2). -/
def decodeMaj35 (w : Nat) : Except Nat Instr :=
  match field w 26 6 with
  | 0 => .ok (.vadd (f w 8 5) (f w 13 5) (f w 18 5) (f w 23 3))
  | 1 => .ok (.vsub (f w 8 5) (f w 13 5) (f w 18 5) (f w 23 3))
  | 2 => .ok (.vmul (f w 8 5) (f w 13 5) (f w 18 5) (f w 23 3))
  | 3 => .ok (.vfma (f w 8 5) (f w 13 5) (f w 18 5) (f w 23 3))
  | 4 => .ok (.vfms (f w 8 5) (f w 13 5) (f w 18 5) (f w 23 3))
  | 5 => .ok (.vmax (f w 8 5) (f w 13 5) (f w 18 5) (f w 23 3))
  | 6 => .ok (.vmin (f w 8 5) (f w 13 5) (f w 18 5) (f w 23 3))
  | 7 => mbz [field w 18 5] (.vabs (f w 8 5) (f w 13 5) (f w 23 3))
  | 8 => mbz [field w 18 5] (.vneg (f w 8 5) (f w 13 5) (f w 23 3))
  | _ => .error 1

/-- The forms of MAJ 0x36, by selector (Table 8.2). -/
def decodeMaj36 (w : Nat) : Except Nat Instr :=
  match field w 26 6 with
  | 0 => mbz [field w 18 5] (.vrcp (f w 8 5) (f w 13 5) (f w 23 3))
  | 1 => mbz [field w 18 5] (.vrsq (f w 8 5) (f w 13 5) (f w 23 3))
  | 2 => mbz [field w 18 5] (.vexp (f w 8 5) (f w 13 5) (f w 23 3))
  | 3 => mbz [field w 18 5] (.vlog (f w 8 5) (f w 13 5) (f w 23 3))
  | 4 => mbz [field w 18 5] (.vsigm (f w 8 5) (f w 13 5) (f w 23 3))
  | 5 => mbz [field w 18 5] (.vtanh (f w 8 5) (f w 13 5) (f w 23 3))
  | _ => .error 1

/-- The forms of MAJ 0x38, by selector (Table 8.2). -/
def decodeMaj38 (w : Nat) : Except Nat Instr :=
  match field w 26 6 with
  | 0 => mbz [field w 18 5] (.vreda (f w 8 5) (f w 13 5) (f w 23 3))
  | 1 => mbz [field w 18 5] (.vredx (f w 8 5) (f w 13 5) (f w 23 3))
  | 2 => .ok (.vcmpEq (f w 8 5) (f w 13 5) (f w 18 5) (f w 23 3))
  | 3 => .ok (.vcmpNe (f w 8 5) (f w 13 5) (f w 18 5) (f w 23 3))
  | 4 => .ok (.vcmpLt (f w 8 5) (f w 13 5) (f w 18 5) (f w 23 3))
  | 5 => .ok (.vcmpLe (f w 8 5) (f w 13 5) (f w 18 5) (f w 23 3))
  | 6 => .ok (.vcmpGt (f w 8 5) (f w 13 5) (f w 18 5) (f w 23 3))
  | 7 => .ok (.vcmpGe (f w 8 5) (f w 13 5) (f w 18 5) (f w 23 3))
  | 8 => .ok (.vsel (f w 8 5) (f w 13 5) (f w 18 5) (f w 23 3))
  | 9 => .ok (.vperm (f w 8 5) (f w 13 5) (f w 18 5) (f w 23 3))
  | 10 => mbz [field w 18 5] (.vbcst (f w 8 5) (f w 13 5) (f w 23 3))
  | 11 => mbz [field w 23 3] (.vmvx (f w 8 5) (f w 13 5) (f w 18 5))
  | 12 => mbz [field w 23 3] (.vmvs (f w 8 5) (f w 13 5) (f w 18 5))
  | 13 => mbz [field w 18 8] (.vsetl (f w 8 5) (f w 13 5))
  | _ => .error 1

/-- The forms of MAJ 0x39, by selector (Table 8.2). -/
def decodeMaj39 (w : Nat) : Except Nat Instr :=
  match field w 26 4 with
  | 0 => .ok (.viadd (f w 8 5) (f w 13 5) (f w 18 5) (f w 23 3) (f w 30 2))
  | 1 => .ok (.visub (f w 8 5) (f w 13 5) (f w 18 5) (f w 23 3) (f w 30 2))
  | 2 => .ok (.vimul (f w 8 5) (f w 13 5) (f w 18 5) (f w 23 3) (f w 30 2))
  | 3 => .ok (.viand (f w 8 5) (f w 13 5) (f w 18 5) (f w 23 3) (f w 30 2))
  | 4 => .ok (.vior (f w 8 5) (f w 13 5) (f w 18 5) (f w 23 3) (f w 30 2))
  | 5 => .ok (.vixor (f w 8 5) (f w 13 5) (f w 18 5) (f w 23 3) (f w 30 2))
  | 6 => .ok (.visll (f w 8 5) (f w 13 5) (f w 18 5) (f w 23 3) (f w 30 2))
  | 7 => .ok (.visrl (f w 8 5) (f w 13 5) (f w 18 5) (f w 23 3) (f w 30 2))
  | 8 => .ok (.visra (f w 8 5) (f w 13 5) (f w 18 5) (f w 23 3) (f w 30 2))
  | _ => .error 1

/-- The forms of MAJ 0x50, by selector (Table 8.2). -/
def decodeMaj50 (w : Nat) : Except Nat Instr :=
  match field w 28 2 with
  | 0 => .ok (.mma (f w 8 3) (f w 11 6) (f w 17 6) (f w 23 5) (f w 30 2))
  | 1 => .ok (.mmaz (f w 8 3) (f w 11 6) (f w 17 6) (f w 23 5) (f w 30 2))
  | _ => .error 1

/-- The forms of MAJ 0x51, by selector (Table 8.2). -/
def decodeMaj51 (w : Nat) : Except Nat Instr :=
  match field w 27 5 with
  | 0 => mbz [field w 22 5] (.mpoly (f w 8 3) (f w 11 3) (f w 14 3) (f w 17 5))
  | 1 => mbz [field w 16 1] (.miter (f w 8 3) (f w 11 3) (f w 14 1) (f w 15 1) (f w 17 5) (f w 22 5))
  | 2 => mbz [field w 11 3, field w 16 1, field w 22 5] (.mscz (f w 8 3) (f w 14 2) (f w 17 5))
  | 3 => mbz [field w 17 10] (.mcvt (f w 8 3) (f w 11 3) (f w 14 3))
  | 4 => mbz [field w 14 13] (.mtrn (f w 8 3) (f w 11 3))
  | 5 => mbz [field w 11 16] (.mzero (f w 8 3))
  | 6 => mbz [field w 8 9] (.mgang (f w 17 5) (f w 22 5))
  | 7 => mbz [field w 8 19] (.mwait)
  | 8 => mbz [field w 11 3] (.mrdr (f w 8 3) (f w 14 3) (f w 17 5) (f w 22 5))
  | 9 => mbz [field w 11 6] (.mwrr (f w 8 3) (f w 17 5) (f w 22 5))
  | 10 => mbz [field w 10 4, field w 16 1, field w 22 5] (.cbld (f w 8 2) (f w 14 2) (f w 17 5))
  | 11 => mbz [field w 8 6, field w 16 1, field w 22 5] (.kld (f w 14 2) (f w 17 5))
  | _ => .error 1

/-- The forms of MAJ 0x52, by selector (Table 8.2). -/
def decodeMaj52 (w : Nat) : Except Nat Instr :=
  match field w 28 4 with
  | 0 => mbz [field w 22 1] (.mld (f w 8 3) (f w 11 6) (f w 17 2) (f w 19 3) (f w 23 5))
  | 1 => mbz [field w 22 1] (.mst (f w 8 3) (f w 11 6) (f w 17 2) (f w 19 3) (f w 23 5))
  | 2 => mbz [field w 22 1] (.mldb (f w 8 3) (f w 11 6) (f w 17 2) (f w 19 3) (f w 23 5))
  | _ => .error 1

/-- The forms of MAJ 0x60, by selector (Table 8.2). -/
def decodeMaj60 (w : Nat) : Except Nat Instr :=
  match field w 30 2 with
  | 0 => mbz [field w 13 5] (.csrr (f w 8 5) (f w 18 12))
  | 1 => .ok (.csrw (f w 8 5) (f w 13 5) (f w 18 12))
  | 2 => .ok (.csrs (f w 8 5) (f w 13 5) (f w 18 12))
  | 3 => .ok (.csrc (f w 8 5) (f w 13 5) (f w 18 12))
  | _ => .error 1

/-- The forms of MAJ 0x61, by selector (Table 8.2). -/
def decodeMaj61 (w : Nat) : Except Nat Instr :=
  match field w 23 9 with
  | 0 => .ok (.ecall (f w 8 5) (f w 13 5) (f w 18 5))
  | 1 => .ok (.ebrk (f w 8 15))
  | 2 => mbz [field w 8 15] (.sret)
  | 3 => mbz [field w 8 15] (.wfe)
  | _ => .error 1

/-- The forms of MAJ 0x67, by selector (Table 8.2). -/
def decodeMaj67 (w : Nat) : Except Nat Instr :=
  match field w 23 9 with
  | 0 => .ok (.nop (f w 8 5) (f w 13 5) (f w 18 5))
  | _ => .error 1

/-- The 32-bit instruction of word `w`, or the trap cause of R195 steps 1, 2 and 4 (Tables 8.1, 8.2). -/
def decode32 (w : Nat) : Except Nat Instr :=
  match field w 1 7 with
  | 0x00 => decodeMaj00 w
  | 0x01 => decodeMaj01 w
  | 0x02 => decodeMaj02 w
  | 0x03 => decodeMaj03 w
  | 0x04 => decodeMaj04 w
  | 0x05 => .ok (.addi (f w 8 5) (f w 13 5) (f w 18 14))
  | 0x06 => .ok (.andi (f w 8 5) (f w 13 5) (f w 18 14))
  | 0x07 => .ok (.ori (f w 8 5) (f w 13 5) (f w 18 14))
  | 0x08 => .ok (.xori (f w 8 5) (f w 13 5) (f w 18 14))
  | 0x09 => .ok (.slti (f w 8 5) (f w 13 5) (f w 18 14))
  | 0x0a => mbz [field w 24 8] (.slli (f w 8 5) (f w 13 5) (f w 18 6))
  | 0x0b => mbz [field w 24 8] (.srli (f w 8 5) (f w 13 5) (f w 18 6))
  | 0x0c => mbz [field w 24 8] (.srai (f w 8 5) (f w 13 5) (f w 18 6))
  | 0x0d => .ok (.lui (f w 8 5) (BitVec.ofNat 19 (field w 13 5 * 2 ^ 14 + field w 18 14)))
  | 0x0e => .ok (.auic (f w 8 5) (f w 13 5) (f w 18 12) (f w 30 2))
  | 0x10 => decodeMaj10 w
  | 0x11 => .ok (.j (f w 8 24))
  | 0x12 => .ok (.jal (f w 8 24))
  | 0x13 => .ok (.jalr (f w 8 5) (f w 13 5) (f w 18 14))
  | 0x14 => .ok (.callx (f w 8 5) (f w 13 5) (f w 18 14))
  | 0x15 => decodeMaj15 w
  | 0x18 => .ok (.lb (f w 8 5) (f w 13 5) (f w 18 2) (f w 20 3) (f w 23 2) (f w 25 7))
  | 0x19 => .ok (.lh (f w 8 5) (f w 13 5) (f w 18 2) (f w 20 3) (f w 23 2) (f w 25 7))
  | 0x1a => .ok (.lw (f w 8 5) (f w 13 5) (f w 18 2) (f w 20 3) (f w 23 2) (f w 25 7))
  | 0x1b => .ok (.ld (f w 8 5) (f w 13 5) (f w 18 2) (f w 20 3) (f w 23 2) (f w 25 7))
  | 0x1c => .ok (.lbu (f w 8 5) (f w 13 5) (f w 18 2) (f w 20 3) (f w 23 2) (f w 25 7))
  | 0x1d => .ok (.lhu (f w 8 5) (f w 13 5) (f w 18 2) (f w 20 3) (f w 23 2) (f w 25 7))
  | 0x1e => .ok (.lwu (f w 8 5) (f w 13 5) (f w 18 2) (f w 20 3) (f w 23 2) (f w 25 7))
  | 0x1f => .ok (.ldcn (f w 8 5) (f w 13 5) (f w 18 2) (f w 20 3) (f w 23 2) (f w 25 7))
  | 0x20 => .ok (.sb (f w 8 5) (f w 13 5) (f w 18 2) (f w 20 3) (f w 23 2) (f w 25 7))
  | 0x21 => .ok (.sh (f w 8 5) (f w 13 5) (f w 18 2) (f w 20 3) (f w 23 2) (f w 25 7))
  | 0x22 => .ok (.sw (f w 8 5) (f w 13 5) (f w 18 2) (f w 20 3) (f w 23 2) (f w 25 7))
  | 0x23 => .ok (.sd (f w 8 5) (f w 13 5) (f w 18 2) (f w 20 3) (f w 23 2) (f w 25 7))
  | 0x24 => decodeMaj24 w
  | 0x25 => decodeMaj25 w
  | 0x26 => decodeMaj26 w
  | 0x27 => decodeMaj27 w
  | 0x28 => decodeMaj28 w
  | 0x29 => decodeMaj29 w
  | 0x2a => decodeMaj2a w
  | 0x2b => decodeMaj2b w
  | 0x2c => decodeMaj2c w
  | 0x2d => decodeMaj2d w
  | 0x30 => .ok (.vld (f w 8 5) (f w 13 5) (f w 18 2) (f w 20 3) (f w 23 2) (f w 25 7))
  | 0x31 => .ok (.vst (f w 8 5) (f w 13 5) (f w 18 2) (f w 20 3) (f w 23 2) (f w 25 7))
  | 0x32 => decodeMaj32 w
  | 0x33 => decodeMaj33 w
  | 0x34 => decodeMaj34 w
  | 0x35 => decodeMaj35 w
  | 0x36 => decodeMaj36 w
  | 0x37 =>
    if field w 26 3 = field w 29 3 then .error 1
    else mbz [field w 18 5, field w 25 1] (.vcvt (f w 8 5) (f w 13 5) (f w 23 2) (f w 26 6))
  | 0x38 => decodeMaj38 w
  | 0x39 => decodeMaj39 w
  | 0x50 => decodeMaj50 w
  | 0x51 => decodeMaj51 w
  | 0x52 => decodeMaj52 w
  | 0x60 => decodeMaj60 w
  | 0x61 => decodeMaj61 w
  | 0x67 => decodeMaj67 w
  | _ => .error 1

/-- The 16-bit instruction of parcel `w`, or the trap cause (Table 8.5). -/
def decode16 (w : Nat) : Except Nat Instr :=
  match field w 1 5 with
  | 1 => .ok (.add16 (f w 6 5) (f w 11 5))
  | 2 => .ok (.sub16 (f w 6 5) (f w 11 5))
  | 3 => .ok (.mov16 (f w 6 5) (f w 11 5))
  | 4 => .ok (.addi16 (f w 6 5) (f w 11 5))
  | 5 => .ok (.andi16 (f w 6 5) (f w 11 5))
  | 6 => .ok (.slli16 (f w 6 5) (f w 11 5))
  | 7 => .ok (.srli16 (f w 6 5) (f w 11 5))
  | 8 => .ok (.srai16 (f w 6 5) (f w 11 5))
  | 9 => .ok (.and16 (f w 6 5) (f w 11 5))
  | 10 => .ok (.or16 (f w 6 5) (f w 11 5))
  | 11 => .ok (.xor16 (f w 6 5) (f w 11 5))
  | 12 => .ok (.ld16 (f w 6 5) (f w 11 5))
  | 13 => .ok (.lw16 (f w 6 5) (f w 11 5))
  | 14 => .ok (.sd16 (f w 6 5) (f w 11 5))
  | 15 => .ok (.sw16 (f w 6 5) (f w 11 5))
  | 16 => .ok (.beqz16 (f w 6 5) (f w 11 5))
  | 17 => mbz [field w 6 10] .end16
  | 18 => .ok (.bnez16 (f w 6 5) (f w 11 5))
  | 19 => .ok (.j16 (f w 6 10))
  | 20 => .ok (.jr16 (f w 6 5) (f w 11 5))
  | 21 => .ok (.mul16 (f w 6 5) (f w 11 5))
  | _ => .error 1

/-- The length in bytes of the instruction whose first parcel is `w` (R187). -/
def parcelLength (w : Nat) : Nat := if w % 2 = 1 then 4 else 2

/-- The instruction whose first two parcels are `w` (R187), or the trap cause. -/
def decodeKreral (w : Nat) : Except Nat Instr :=
  if w % 2 = 1 then decode32 (w % 2 ^ 32) else decode16 (w % 2 ^ 16)

/-- A command whose unread fields are `z`: BADFLD if one of them is not zero (R351). -/
def unread (z : List Nat) (i : Instr) : Except Nat Instr := if z.all (· == 0) then .ok i else .error 2

/-- An ALU command: immediate when bit 43 is set, and then cc must be zero; otherwise imm must be zero (R351). -/
def aluCommand (w : Nat) (i : Instr) : Except Nat Instr :=
  if field w 43 1 = 1 then unread [field w 44 4, field w 32 11] i else unread [field w 0 43] i

/-- The command of word `w` followed by word `w2` (Tables 15.4, 15.5), or FCODE 1 (BADOP) or 2 (BADFLD). -/
def decodeCommand (w w2 : Nat) : Except Nat Instr :=
  match field w 56 8 with
  | 0x00 => unread [field w 0 56] .cNop
  | 0x01 => unread [field w 44 8] (.cMovi (f w 52 4) (f w 0 44))
  | 0x02 => unread [field w 0 52] (.cMovw (f w 52 4) (BitVec.ofNat 64 w2))
  | 0x03 => aluCommand w (.cAdd (f w 52 4) (f w 48 4) (f w 44 4) (f w 43 1) (f w 0 32))
  | 0x04 => aluCommand w (.cSub (f w 52 4) (f w 48 4) (f w 44 4) (f w 43 1) (f w 0 32))
  | 0x05 => aluCommand w (.cAnd (f w 52 4) (f w 48 4) (f w 44 4) (f w 43 1) (f w 0 32))
  | 0x06 => aluCommand w (.cOr (f w 52 4) (f w 48 4) (f w 44 4) (f w 43 1) (f w 0 32))
  | 0x07 => aluCommand w (.cShl (f w 52 4) (f w 48 4) (f w 44 4) (f w 43 1) (f w 0 32))
  | 0x08 => aluCommand w (.cShr (f w 52 4) (f w 48 4) (f w 44 4) (f w 43 1) (f w 0 32))
  | 0x09 => unread [field w 44 4, field w 32 12] (.cLd (f w 52 4) (f w 48 4) (f w 0 32))
  | 0x0a => unread [field w 44 4, field w 32 12] (.cSt (f w 52 4) (f w 48 4) (f w 0 32))
  | 0x10 => unread [field w 44 4, field w 20 24] (.cBeq (f w 52 4) (f w 48 4) (f w 0 20))
  | 0x11 => unread [field w 44 4, field w 20 24] (.cBne (f w 52 4) (f w 48 4) (f w 0 20))
  | 0x12 => unread [field w 44 4, field w 20 24] (.cBlt (f w 52 4) (f w 48 4) (f w 0 20))
  | 0x13 => unread [field w 44 4, field w 20 24] (.cBge (f w 52 4) (f w 48 4) (f w 0 20))
  | 0x14 => unread [field w 44 12, field w 20 24] (.cJmp (f w 0 20))
  | 0x15 => unread [field w 44 12, field w 20 24] (.cCall (f w 0 20))
  | 0x16 => unread [field w 0 56] .cRet
  | 0x17 => unread [field w 44 8, field w 20 24] (.cLoop (f w 52 4) (f w 0 20))
  | 0x18 => unread [field w 0 48] (.cIb (f w 52 4) (f w 48 4))
  | 0x20 => unread [field w 44 4, field w 31 13] (.cLaunch (f w 52 4) (f w 48 4) (f w 0 5) (f w 5 3) (f w 8 23))
  | 0x21 => unread [field w 44 4, field w 31 13] (.cLaunchall (f w 52 4) (f w 48 4) (f w 0 5) (f w 5 3) (f w 8 23))
  | 0x22 => unread [field w 44 8, field w 4 40] (.cCopy (f w 52 4) (f w 0 4))
  | 0x28 => unread [field w 44 4, field w 16 28] (.cWaitsem (f w 52 4) (f w 48 4) (f w 0 2) (f w 2 1) (f w 3 12) (f w 15 1))
  | 0x29 => unread [field w 44 4, field w 1 43] (.cSigsem (f w 52 4) (f w 48 4) (f w 0 1))
  | 0x2a => unread [field w 0 56] .cFence
  | 0x2b => unread [field w 0 52] (.cStamp (f w 52 4))
  | 0x2c => unread [field w 44 12, field w 11 33] (.cIntr (f w 0 11))
  | 0x40 => unread [field w 4 40] (.cInstall (f w 52 4) (f w 48 4) (f w 44 4) (f w 0 4))
  | 0x41 => unread [field w 48 4, field w 0 44] (.cRebuild (f w 52 4) (f w 44 4))
  | 0x42 => unread [field w 48 4, field w 0 44] (.cDelete (f w 52 4) (f w 44 4))
  | 0x43 => unread [field w 48 4, field w 0 44] (.cStrike (f w 52 4) (f w 44 4))
  | 0x44 => unread [field w 48 4, field w 1 43] (.cPitch (f w 52 4) (f w 44 4) (f w 0 1))
  | 0x45 => unread [field w 0 44] (.cSave (f w 52 4) (f w 48 4) (f w 44 4))
  | 0x46 => unread [field w 0 44] (.cRestore (f w 52 4) (f w 48 4) (f w 44 4))
  | 0x47 => unread [field w 0 52] (.cHalt (f w 52 4))
  | _ => .error 1

/-- The instruction that starts at a parcel pair or is a command word: `nbits` tells them apart, since capsules and firmware are
made of parcels and rings of 64-bit words. -/
def decodeTableWord (nbits w : Nat) : Option Instr :=
  if nbits = 16 ∨ nbits = 32 then
    if parcelLength w * 8 = nbits then (decodeKreral w).toOption else none
  else if nbits = 64 ∨ nbits = 128 then (decodeCommand (w % 2 ^ 64) (w / 2 ^ 64 % 2 ^ 64)).toOption
  else none

/-- Fields packed from the lowest bit up: each pair is a width and a value. -/
def pack : List (Nat × Nat) → Nat
  | [] => 0
  | (n, v) :: r => v % 2 ^ n + 2 ^ n * pack r

/-- The fields of a command word, lowest first: the immediate's, then cc, cb, ca and the operation. A second word stands above. -/
def cmd (op ca cb cc : Nat) (imm : List (Nat × Nat)) : List (Nat × Nat) :=
  match imm.reverse with
  | (64, v) :: r => r.reverse ++ [(4, cc), (4, cb), (4, ca), (8, op), (64, v)]
  | _ => imm ++ [(4, cc), (4, cb), (4, ca), (8, op)]

/-- The fields of an instruction's encoding, lowest first (Tables 8.1, 8.2, 8.5, 15.4, 15.5). A device event has no encoding. -/
def encodeFields : Instr → List (Nat × Nat)
  | .add rd ra rb => [(1, 1), (7, 0), (5, rd.toNat), (5, ra.toNat), (5, rb.toNat), (9, 0)]
  | .sub rd ra rb => [(1, 1), (7, 0), (5, rd.toNat), (5, ra.toNat), (5, rb.toNat), (9, 1)]
  | .and rd ra rb => [(1, 1), (7, 0), (5, rd.toNat), (5, ra.toNat), (5, rb.toNat), (9, 2)]
  | .or rd ra rb => [(1, 1), (7, 0), (5, rd.toNat), (5, ra.toNat), (5, rb.toNat), (9, 3)]
  | .xor rd ra rb => [(1, 1), (7, 0), (5, rd.toNat), (5, ra.toNat), (5, rb.toNat), (9, 4)]
  | .sll rd ra rb => [(1, 1), (7, 0), (5, rd.toNat), (5, ra.toNat), (5, rb.toNat), (9, 5)]
  | .srl rd ra rb => [(1, 1), (7, 0), (5, rd.toNat), (5, ra.toNat), (5, rb.toNat), (9, 6)]
  | .sra rd ra rb => [(1, 1), (7, 0), (5, rd.toNat), (5, ra.toNat), (5, rb.toNat), (9, 7)]
  | .min rd ra rb => [(1, 1), (7, 1), (5, rd.toNat), (5, ra.toNat), (5, rb.toNat), (9, 0)]
  | .max rd ra rb => [(1, 1), (7, 1), (5, rd.toNat), (5, ra.toNat), (5, rb.toNat), (9, 1)]
  | .minu rd ra rb => [(1, 1), (7, 1), (5, rd.toNat), (5, ra.toNat), (5, rb.toNat), (9, 2)]
  | .maxu rd ra rb => [(1, 1), (7, 1), (5, rd.toNat), (5, ra.toNat), (5, rb.toNat), (9, 3)]
  | .slt rd ra rb => [(1, 1), (7, 1), (5, rd.toNat), (5, ra.toNat), (5, rb.toNat), (9, 4)]
  | .sltu rd ra rb => [(1, 1), (7, 1), (5, rd.toNat), (5, ra.toNat), (5, rb.toNat), (9, 5)]
  | .mul rd ra rb => [(1, 1), (7, 2), (5, rd.toNat), (5, ra.toNat), (5, rb.toNat), (9, 0)]
  | .mulh rd ra rb => [(1, 1), (7, 2), (5, rd.toNat), (5, ra.toNat), (5, rb.toNat), (9, 1)]
  | .mulhu rd ra rb => [(1, 1), (7, 2), (5, rd.toNat), (5, ra.toNat), (5, rb.toNat), (9, 2)]
  | .div rd ra rb => [(1, 1), (7, 2), (5, rd.toNat), (5, ra.toNat), (5, rb.toNat), (9, 3)]
  | .divu rd ra rb => [(1, 1), (7, 2), (5, rd.toNat), (5, ra.toNat), (5, rb.toNat), (9, 4)]
  | .rem rd ra rb => [(1, 1), (7, 2), (5, rd.toNat), (5, ra.toNat), (5, rb.toNat), (9, 5)]
  | .remu rd ra rb => [(1, 1), (7, 2), (5, rd.toNat), (5, ra.toNat), (5, rb.toNat), (9, 6)]
  | .clz rd ra => [(1, 1), (7, 3), (5, rd.toNat), (5, ra.toNat), (5, 0), (9, 0)]
  | .ctz rd ra => [(1, 1), (7, 3), (5, rd.toNat), (5, ra.toNat), (5, 0), (9, 1)]
  | .popc rd ra => [(1, 1), (7, 3), (5, rd.toNat), (5, ra.toNat), (5, 0), (9, 2)]
  | .sext rd ra rb => [(1, 1), (7, 3), (5, rd.toNat), (5, ra.toNat), (5, rb.toNat), (9, 3)]
  | .zext rd ra rb => [(1, 1), (7, 3), (5, rd.toNat), (5, ra.toNat), (5, rb.toNat), (9, 4)]
  | .oadd rd ra rb => [(1, 1), (7, 4), (5, rd.toNat), (5, ra.toNat), (5, rb.toNat), (9, 0)]
  | .oslot rd ra => [(1, 1), (7, 4), (5, rd.toNat), (5, ra.toNat), (5, 0), (9, 1)]
  | .ochk rd ra rb => [(1, 1), (7, 4), (5, rd.toNat), (5, ra.toNat), (5, rb.toNat), (9, 2)]
  | .omake rd ra rb => [(1, 1), (7, 4), (5, rd.toNat), (5, ra.toNat), (5, rb.toNat), (9, 3)]
  | .pack2 rd ra rb => [(1, 1), (7, 4), (5, rd.toNat), (5, ra.toNat), (5, rb.toNat), (9, 4)]
  | .pack4 rd ra rb => [(1, 1), (7, 4), (5, rd.toNat), (5, ra.toNat), (5, rb.toNat), (9, 5)]
  | .addi rd ra imm => [(1, 1), (7, 5), (5, rd.toNat), (5, ra.toNat), (14, imm.toNat)]
  | .andi rd ra imm => [(1, 1), (7, 6), (5, rd.toNat), (5, ra.toNat), (14, imm.toNat)]
  | .ori rd ra imm => [(1, 1), (7, 7), (5, rd.toNat), (5, ra.toNat), (14, imm.toNat)]
  | .xori rd ra imm => [(1, 1), (7, 8), (5, rd.toNat), (5, ra.toNat), (14, imm.toNat)]
  | .slti rd ra imm => [(1, 1), (7, 9), (5, rd.toNat), (5, ra.toNat), (14, imm.toNat)]
  | .slli rd ra imm => [(1, 1), (7, 0xa), (5, rd.toNat), (5, ra.toNat), (6, imm.toNat), (8, 0)]
  | .srli rd ra imm => [(1, 1), (7, 0xb), (5, rd.toNat), (5, ra.toNat), (6, imm.toNat), (8, 0)]
  | .srai rd ra imm => [(1, 1), (7, 0xc), (5, rd.toNat), (5, ra.toNat), (6, imm.toNat), (8, 0)]
  | .lui rd u => [(1, 1), (7, 0x0d), (5, rd.toNat), (5, u.toNat / 2 ^ 14), (14, u.toNat % 2 ^ 14)]
  | .auic rd ra k cd => [(1, 1), (7, 0xe), (5, rd.toNat), (5, ra.toNat), (12, k.toNat), (2, cd.toNat)]
  | .beq ra rb off => [(1, 1), (7, 0x10), (5, ra.toNat), (5, rb.toNat), (3, 0), (11, off.toNat)]
  | .bne ra rb off => [(1, 1), (7, 0x10), (5, ra.toNat), (5, rb.toNat), (3, 1), (11, off.toNat)]
  | .blt ra rb off => [(1, 1), (7, 0x10), (5, ra.toNat), (5, rb.toNat), (3, 2), (11, off.toNat)]
  | .bge ra rb off => [(1, 1), (7, 0x10), (5, ra.toNat), (5, rb.toNat), (3, 3), (11, off.toNat)]
  | .bltu ra rb off => [(1, 1), (7, 0x10), (5, ra.toNat), (5, rb.toNat), (3, 4), (11, off.toNat)]
  | .bgeu ra rb off => [(1, 1), (7, 0x10), (5, ra.toNat), (5, rb.toNat), (3, 5), (11, off.toNat)]
  | .j off => [(1, 1), (7, 0x11), (24, off.toNat)]
  | .jal off => [(1, 1), (7, 0x12), (24, off.toNat)]
  | .jalr rd ra imm => [(1, 1), (7, 0x13), (5, rd.toNat), (5, ra.toNat), (14, imm.toNat)]
  | .callx rd ra imm => [(1, 1), (7, 0x14), (5, rd.toNat), (5, ra.toNat), (14, imm.toNat)]
  | .endAct => [(1, 1), (7, 0x15), (15, 0), (9, 0)]
  | .yieldAct => [(1, 1), (7, 0x15), (15, 0), (9, 1)]
  | .lb rt ra w sc ord imm => [(1, 1), (7, 0x18), (5, rt.toNat), (5, ra.toNat), (2, w.toNat), (3, sc.toNat), (2, ord.toNat), (7, imm.toNat)]
  | .lh rt ra w sc ord imm => [(1, 1), (7, 0x19), (5, rt.toNat), (5, ra.toNat), (2, w.toNat), (3, sc.toNat), (2, ord.toNat), (7, imm.toNat)]
  | .lw rt ra w sc ord imm => [(1, 1), (7, 0x1a), (5, rt.toNat), (5, ra.toNat), (2, w.toNat), (3, sc.toNat), (2, ord.toNat), (7, imm.toNat)]
  | .ld rt ra w sc ord imm => [(1, 1), (7, 0x1b), (5, rt.toNat), (5, ra.toNat), (2, w.toNat), (3, sc.toNat), (2, ord.toNat), (7, imm.toNat)]
  | .lbu rt ra w sc ord imm => [(1, 1), (7, 0x1c), (5, rt.toNat), (5, ra.toNat), (2, w.toNat), (3, sc.toNat), (2, ord.toNat), (7, imm.toNat)]
  | .lhu rt ra w sc ord imm => [(1, 1), (7, 0x1d), (5, rt.toNat), (5, ra.toNat), (2, w.toNat), (3, sc.toNat), (2, ord.toNat), (7, imm.toNat)]
  | .lwu rt ra w sc ord imm => [(1, 1), (7, 0x1e), (5, rt.toNat), (5, ra.toNat), (2, w.toNat), (3, sc.toNat), (2, ord.toNat), (7, imm.toNat)]
  | .ldcn rt ra w sc ord imm => [(1, 1), (7, 0x1f), (5, rt.toNat), (5, ra.toNat), (2, w.toNat), (3, sc.toNat), (2, ord.toNat), (7, imm.toNat)]
  | .sb rt ra w sc ord imm => [(1, 1), (7, 0x20), (5, rt.toNat), (5, ra.toNat), (2, w.toNat), (3, sc.toNat), (2, ord.toNat), (7, imm.toNat)]
  | .sh rt ra w sc ord imm => [(1, 1), (7, 0x21), (5, rt.toNat), (5, ra.toNat), (2, w.toNat), (3, sc.toNat), (2, ord.toNat), (7, imm.toNat)]
  | .sw rt ra w sc ord imm => [(1, 1), (7, 0x22), (5, rt.toNat), (5, ra.toNat), (2, w.toNat), (3, sc.toNat), (2, ord.toNat), (7, imm.toNat)]
  | .sd rt ra w sc ord imm => [(1, 1), (7, 0x23), (5, rt.toNat), (5, ra.toNat), (2, w.toNat), (3, sc.toNat), (2, ord.toNat), (7, imm.toNat)]
  | .ldf rt ra w sc imm => [(1, 1), (7, 0x24), (5, rt.toNat), (5, ra.toNat), (2, w.toNat), (3, sc.toNat), (2, 0), (7, imm.toNat)]
  | .ldfC rt ra w sc imm => [(1, 1), (7, 0x24), (5, rt.toNat), (5, ra.toNat), (2, w.toNat), (3, sc.toNat), (2, 1), (7, imm.toNat)]
  | .stf rt ra w sc imm => [(1, 1), (7, 0x24), (5, rt.toNat), (5, ra.toNat), (2, w.toNat), (3, sc.toNat), (2, 2), (7, imm.toNat)]
  | .feclr rt ra w sc imm => [(1, 1), (7, 0x24), (5, rt.toNat), (5, ra.toNat), (2, w.toNat), (3, sc.toNat), (2, 3), (7, imm.toNat)]
  | .layr vd lay w sc => [(1, 1), (7, 0x25), (5, vd.toNat), (6, lay.toNat), (5, 0), (2, w.toNat), (3, sc.toNat), (3, 0)]
  | .layw vd lay w sc => [(1, 1), (7, 0x25), (5, vd.toNat), (6, lay.toNat), (5, 0), (2, w.toNat), (3, sc.toNat), (3, 1)]
  | .amoaddW rd ra rb sc ord => [(1, 1), (7, 0x26), (5, rd.toNat), (5, ra.toNat), (5, rb.toNat), (3, sc.toNat), (2, ord.toNat), (4, 0)]
  | .amoandW rd ra rb sc ord => [(1, 1), (7, 0x26), (5, rd.toNat), (5, ra.toNat), (5, rb.toNat), (3, sc.toNat), (2, ord.toNat), (4, 1)]
  | .amoorW rd ra rb sc ord => [(1, 1), (7, 0x26), (5, rd.toNat), (5, ra.toNat), (5, rb.toNat), (3, sc.toNat), (2, ord.toNat), (4, 2)]
  | .amoxorW rd ra rb sc ord => [(1, 1), (7, 0x26), (5, rd.toNat), (5, ra.toNat), (5, rb.toNat), (3, sc.toNat), (2, ord.toNat), (4, 3)]
  | .amominW rd ra rb sc ord => [(1, 1), (7, 0x26), (5, rd.toNat), (5, ra.toNat), (5, rb.toNat), (3, sc.toNat), (2, ord.toNat), (4, 4)]
  | .amomaxW rd ra rb sc ord => [(1, 1), (7, 0x26), (5, rd.toNat), (5, ra.toNat), (5, rb.toNat), (3, sc.toNat), (2, ord.toNat), (4, 5)]
  | .amominuW rd ra rb sc ord => [(1, 1), (7, 0x26), (5, rd.toNat), (5, ra.toNat), (5, rb.toNat), (3, sc.toNat), (2, ord.toNat), (4, 6)]
  | .amomaxuW rd ra rb sc ord => [(1, 1), (7, 0x26), (5, rd.toNat), (5, ra.toNat), (5, rb.toNat), (3, sc.toNat), (2, ord.toNat), (4, 7)]
  | .amoswpW rd ra rb sc ord => [(1, 1), (7, 0x26), (5, rd.toNat), (5, ra.toNat), (5, rb.toNat), (3, sc.toNat), (2, ord.toNat), (4, 8)]
  | .amocasW rd ra rb sc ord => [(1, 1), (7, 0x26), (5, rd.toNat), (5, ra.toNat), (5, rb.toNat), (3, sc.toNat), (2, ord.toNat), (4, 9)]
  | .amofaddW rd ra rb sc ord => [(1, 1), (7, 0x26), (5, rd.toNat), (5, ra.toNat), (5, rb.toNat), (3, sc.toNat), (2, ord.toNat), (4, 0xa)]
  | .amoaddD rd ra rb sc ord => [(1, 1), (7, 0x27), (5, rd.toNat), (5, ra.toNat), (5, rb.toNat), (3, sc.toNat), (2, ord.toNat), (4, 0)]
  | .amoandD rd ra rb sc ord => [(1, 1), (7, 0x27), (5, rd.toNat), (5, ra.toNat), (5, rb.toNat), (3, sc.toNat), (2, ord.toNat), (4, 1)]
  | .amoorD rd ra rb sc ord => [(1, 1), (7, 0x27), (5, rd.toNat), (5, ra.toNat), (5, rb.toNat), (3, sc.toNat), (2, ord.toNat), (4, 2)]
  | .amoxorD rd ra rb sc ord => [(1, 1), (7, 0x27), (5, rd.toNat), (5, ra.toNat), (5, rb.toNat), (3, sc.toNat), (2, ord.toNat), (4, 3)]
  | .amominD rd ra rb sc ord => [(1, 1), (7, 0x27), (5, rd.toNat), (5, ra.toNat), (5, rb.toNat), (3, sc.toNat), (2, ord.toNat), (4, 4)]
  | .amomaxD rd ra rb sc ord => [(1, 1), (7, 0x27), (5, rd.toNat), (5, ra.toNat), (5, rb.toNat), (3, sc.toNat), (2, ord.toNat), (4, 5)]
  | .amominuD rd ra rb sc ord => [(1, 1), (7, 0x27), (5, rd.toNat), (5, ra.toNat), (5, rb.toNat), (3, sc.toNat), (2, ord.toNat), (4, 6)]
  | .amomaxuD rd ra rb sc ord => [(1, 1), (7, 0x27), (5, rd.toNat), (5, ra.toNat), (5, rb.toNat), (3, sc.toNat), (2, ord.toNat), (4, 7)]
  | .amoswpD rd ra rb sc ord => [(1, 1), (7, 0x27), (5, rd.toNat), (5, ra.toNat), (5, rb.toNat), (3, sc.toNat), (2, ord.toNat), (4, 8)]
  | .amocasD rd ra rb sc ord => [(1, 1), (7, 0x27), (5, rd.toNat), (5, ra.toNat), (5, rb.toNat), (3, sc.toNat), (2, ord.toNat), (4, 9)]
  | .amofaddD rd ra rb sc ord => [(1, 1), (7, 0x27), (5, rd.toNat), (5, ra.toNat), (5, rb.toNat), (3, sc.toNat), (2, ord.toNat), (4, 0xa)]
  | .fence sc sw sr pw pr => [(1, 1), (7, 0x28), (15, 0), (3, sc.toNat), (1, sw.toNat), (1, sr.toNat), (1, pw.toNat), (1, pr.toNat), (2, 0)]
  | .waitc cn cm cv => [(1, 1), (7, 0x28), (19, 0), (1, cn.toNat), (1, cm.toNat), (1, cv.toNat), (2, 1)]
  | .bara rd ra sc => [(1, 1), (7, 0x29), (5, rd.toNat), (5, ra.toNat), (5, 0), (3, sc.toNat), (3, 0), (3, 0)]
  | .barw rd ra sc => [(1, 1), (7, 0x29), (5, rd.toNat), (5, ra.toNat), (5, 0), (3, sc.toNat), (3, 0), (3, 1)]
  | .send ra vb => [(1, 1), (7, 0x2a), (5, 0), (5, ra.toNat), (5, vb.toNat), (9, 0)]
  | .sendm vd ra rb => [(1, 1), (7, 0x2a), (5, vd.toNat), (5, ra.toNat), (5, rb.toNat), (9, 1)]
  | .sends ra vb => [(1, 1), (7, 0x2a), (5, 0), (5, ra.toNat), (5, vb.toNat), (9, 2)]
  | .sende ra vb => [(1, 1), (7, 0x2a), (5, 0), (5, ra.toNat), (5, vb.toNat), (9, 3)]
  | .msgld rd ra => [(1, 1), (7, 0x2a), (5, rd.toNat), (5, ra.toNat), (5, 0), (9, 4)]
  | .bind ra => [(1, 1), (7, 0x2b), (5, 0), (5, ra.toNat), (5, 0), (9, 0)]
  | .unbind ra => [(1, 1), (7, 0x2b), (5, 0), (5, ra.toNat), (5, 0), (9, 1)]
  | .sbind ra rb => [(1, 1), (7, 0x2b), (5, 0), (5, ra.toNat), (5, rb.toNat), (9, 2)]
  | .chmask ra => [(1, 1), (7, 0x2b), (5, 0), (5, ra.toNat), (5, 0), (9, 3)]
  | .chunmask ra => [(1, 1), (7, 0x2b), (5, 0), (5, ra.toNat), (5, 0), (9, 4)]
  | .qstream q ra => [(1, 1), (7, 0x2c), (5, q.toNat), (5, ra.toNat), (5, 0), (9, 0)]
  | .qrel q => [(1, 1), (7, 0x2c), (5, q.toNat), (10, 0), (9, 1)]
  | .qpop rd q => [(1, 1), (7, 0x2c), (5, rd.toNat), (5, q.toNat), (5, 0), (9, 2)]
  | .qpush q ra => [(1, 1), (7, 0x2c), (5, q.toNat), (5, ra.toNat), (5, 0), (9, 3)]
  | .qstat rd q => [(1, 1), (7, 0x2c), (5, rd.toNat), (5, q.toNat), (5, 0), (9, 4)]
  | .rpt ra rb => [(1, 1), (7, 0x2d), (5, 0), (5, ra.toNat), (5, rb.toNat), (9, 0)]
  | .rptw rd => [(1, 1), (7, 0x2d), (5, rd.toNat), (10, 0), (9, 1)]
  | .vld rt ra w sc ord imm => [(1, 1), (7, 0x30), (5, rt.toNat), (5, ra.toNat), (2, w.toNat), (3, sc.toNat), (2, ord.toNat), (7, imm.toNat)]
  | .vst rt ra w sc ord imm => [(1, 1), (7, 0x31), (5, rt.toNat), (5, ra.toNat), (2, w.toNat), (3, sc.toNat), (2, ord.toNat), (7, imm.toNat)]
  | .vldf rt ra w sc imm => [(1, 1), (7, 0x32), (5, rt.toNat), (5, ra.toNat), (2, w.toNat), (3, sc.toNat), (2, 0), (7, imm.toNat)]
  | .vldfC rt ra w sc imm => [(1, 1), (7, 0x32), (5, rt.toNat), (5, ra.toNat), (2, w.toNat), (3, sc.toNat), (2, 1), (7, imm.toNat)]
  | .vstf rt ra w sc imm => [(1, 1), (7, 0x33), (5, rt.toNat), (5, ra.toNat), (2, w.toNat), (3, sc.toNat), (2, 0), (7, imm.toNat)]
  | .vldL vd lay rc w sc => [(1, 1), (7, 0x34), (5, vd.toNat), (6, lay.toNat), (5, rc.toNat), (2, w.toNat), (3, sc.toNat), (3, 0)]
  | .vstL vd lay rc w sc => [(1, 1), (7, 0x34), (5, vd.toNat), (6, lay.toNat), (5, rc.toNat), (2, w.toNat), (3, sc.toNat), (3, 1)]
  | .vldfL vd lay rc w sc => [(1, 1), (7, 0x34), (5, vd.toNat), (6, lay.toNat), (5, rc.toNat), (2, w.toNat), (3, sc.toNat), (3, 2)]
  | .vldfCL vd lay rc w sc => [(1, 1), (7, 0x34), (5, vd.toNat), (6, lay.toNat), (5, rc.toNat), (2, w.toNat), (3, sc.toNat), (3, 3)]
  | .vstfL vd lay rc w sc => [(1, 1), (7, 0x34), (5, vd.toNat), (6, lay.toNat), (5, rc.toNat), (2, w.toNat), (3, sc.toNat), (3, 4)]
  | .vadd vd va vb m => [(1, 1), (7, 0x35), (5, vd.toNat), (5, va.toNat), (5, vb.toNat), (3, m.toNat), (6, 0)]
  | .vsub vd va vb m => [(1, 1), (7, 0x35), (5, vd.toNat), (5, va.toNat), (5, vb.toNat), (3, m.toNat), (6, 1)]
  | .vmul vd va vb m => [(1, 1), (7, 0x35), (5, vd.toNat), (5, va.toNat), (5, vb.toNat), (3, m.toNat), (6, 2)]
  | .vfma vd va vb m => [(1, 1), (7, 0x35), (5, vd.toNat), (5, va.toNat), (5, vb.toNat), (3, m.toNat), (6, 3)]
  | .vfms vd va vb m => [(1, 1), (7, 0x35), (5, vd.toNat), (5, va.toNat), (5, vb.toNat), (3, m.toNat), (6, 4)]
  | .vmax vd va vb m => [(1, 1), (7, 0x35), (5, vd.toNat), (5, va.toNat), (5, vb.toNat), (3, m.toNat), (6, 5)]
  | .vmin vd va vb m => [(1, 1), (7, 0x35), (5, vd.toNat), (5, va.toNat), (5, vb.toNat), (3, m.toNat), (6, 6)]
  | .vabs vd va m => [(1, 1), (7, 0x35), (5, vd.toNat), (5, va.toNat), (5, 0), (3, m.toNat), (6, 7)]
  | .vneg vd va m => [(1, 1), (7, 0x35), (5, vd.toNat), (5, va.toNat), (5, 0), (3, m.toNat), (6, 8)]
  | .vrcp vd va m => [(1, 1), (7, 0x36), (5, vd.toNat), (5, va.toNat), (5, 0), (3, m.toNat), (6, 0)]
  | .vrsq vd va m => [(1, 1), (7, 0x36), (5, vd.toNat), (5, va.toNat), (5, 0), (3, m.toNat), (6, 1)]
  | .vexp vd va m => [(1, 1), (7, 0x36), (5, vd.toNat), (5, va.toNat), (5, 0), (3, m.toNat), (6, 2)]
  | .vlog vd va m => [(1, 1), (7, 0x36), (5, vd.toNat), (5, va.toNat), (5, 0), (3, m.toNat), (6, 3)]
  | .vsigm vd va m => [(1, 1), (7, 0x36), (5, vd.toNat), (5, va.toNat), (5, 0), (3, m.toNat), (6, 4)]
  | .vtanh vd va m => [(1, 1), (7, 0x36), (5, vd.toNat), (5, va.toNat), (5, 0), (3, m.toNat), (6, 5)]
  | .vcvt vd va p f => [(1, 1), (7, 0x37), (5, vd.toNat), (5, va.toNat), (5, 0), (2, p.toNat), (1, 0), (6, f.toNat)]
  | .vreda vd va m => [(1, 1), (7, 0x38), (5, vd.toNat), (5, va.toNat), (5, 0), (3, m.toNat), (6, 0)]
  | .vredx vd va m => [(1, 1), (7, 0x38), (5, vd.toNat), (5, va.toNat), (5, 0), (3, m.toNat), (6, 1)]
  | .vcmpEq vd va vb m => [(1, 1), (7, 0x38), (5, vd.toNat), (5, va.toNat), (5, vb.toNat), (3, m.toNat), (6, 2)]
  | .vcmpNe vd va vb m => [(1, 1), (7, 0x38), (5, vd.toNat), (5, va.toNat), (5, vb.toNat), (3, m.toNat), (6, 3)]
  | .vcmpLt vd va vb m => [(1, 1), (7, 0x38), (5, vd.toNat), (5, va.toNat), (5, vb.toNat), (3, m.toNat), (6, 4)]
  | .vcmpLe vd va vb m => [(1, 1), (7, 0x38), (5, vd.toNat), (5, va.toNat), (5, vb.toNat), (3, m.toNat), (6, 5)]
  | .vcmpGt vd va vb m => [(1, 1), (7, 0x38), (5, vd.toNat), (5, va.toNat), (5, vb.toNat), (3, m.toNat), (6, 6)]
  | .vcmpGe vd va vb m => [(1, 1), (7, 0x38), (5, vd.toNat), (5, va.toNat), (5, vb.toNat), (3, m.toNat), (6, 7)]
  | .vsel vd va vb k => [(1, 1), (7, 0x38), (5, vd.toNat), (5, va.toNat), (5, vb.toNat), (3, k.toNat), (6, 8)]
  | .vperm vd va vb m => [(1, 1), (7, 0x38), (5, vd.toNat), (5, va.toNat), (5, vb.toNat), (3, m.toNat), (6, 9)]
  | .vbcst vd ra m => [(1, 1), (7, 0x38), (5, vd.toNat), (5, ra.toNat), (5, 0), (3, m.toNat), (6, 0xa)]
  | .vmvx rd va rb => [(1, 1), (7, 0x38), (5, rd.toNat), (5, va.toNat), (5, rb.toNat), (3, 0), (6, 0xb)]
  | .vmvs vd ra rb => [(1, 1), (7, 0x38), (5, vd.toNat), (5, ra.toNat), (5, rb.toNat), (3, 0), (6, 0xc)]
  | .vsetl rd ra => [(1, 1), (7, 0x38), (5, rd.toNat), (5, ra.toNat), (8, 0), (6, 0xd)]
  | .viadd vd va vb m e => [(1, 1), (7, 0x39), (5, vd.toNat), (5, va.toNat), (5, vb.toNat), (3, m.toNat), (4, 0), (2, e.toNat)]
  | .visub vd va vb m e => [(1, 1), (7, 0x39), (5, vd.toNat), (5, va.toNat), (5, vb.toNat), (3, m.toNat), (4, 1), (2, e.toNat)]
  | .vimul vd va vb m e => [(1, 1), (7, 0x39), (5, vd.toNat), (5, va.toNat), (5, vb.toNat), (3, m.toNat), (4, 2), (2, e.toNat)]
  | .viand vd va vb m e => [(1, 1), (7, 0x39), (5, vd.toNat), (5, va.toNat), (5, vb.toNat), (3, m.toNat), (4, 3), (2, e.toNat)]
  | .vior vd va vb m e => [(1, 1), (7, 0x39), (5, vd.toNat), (5, va.toNat), (5, vb.toNat), (3, m.toNat), (4, 4), (2, e.toNat)]
  | .vixor vd va vb m e => [(1, 1), (7, 0x39), (5, vd.toNat), (5, va.toNat), (5, vb.toNat), (3, m.toNat), (4, 5), (2, e.toNat)]
  | .visll vd va vb m e => [(1, 1), (7, 0x39), (5, vd.toNat), (5, va.toNat), (5, vb.toNat), (3, m.toNat), (4, 6), (2, e.toNat)]
  | .visrl vd va vb m e => [(1, 1), (7, 0x39), (5, vd.toNat), (5, va.toNat), (5, vb.toNat), (3, m.toNat), (4, 7), (2, e.toNat)]
  | .visra vd va vb m e => [(1, 1), (7, 0x39), (5, vd.toNat), (5, va.toNat), (5, vb.toNat), (3, m.toNat), (4, 8), (2, e.toNat)]
  | .mma ad la lb rc w => [(1, 1), (7, 0x50), (3, ad.toNat), (6, la.toNat), (6, lb.toNat), (5, rc.toNat), (2, 0), (2, w.toNat)]
  | .mmaz ad la lb rc w => [(1, 1), (7, 0x50), (3, ad.toNat), (6, la.toNat), (6, lb.toNat), (5, rc.toNat), (2, 1), (2, w.toNat)]
  | .mpoly ad aa ab ra => [(1, 1), (7, 0x51), (3, ad.toNat), (3, aa.toNat), (3, ab.toNat), (5, ra.toNat), (5, 0), (5, 0)]
  | .miter ad aa md fb ra rb => [(1, 1), (7, 0x51), (3, ad.toNat), (3, aa.toNat), (1, md.toNat), (1, fb.toNat), (1, 0), (5, ra.toNat), (5, rb.toNat), (5, 1)]
  | .mscz ad w ra => [(1, 1), (7, 0x51), (3, ad.toNat), (3, 0), (2, w.toNat), (1, 0), (5, ra.toNat), (5, 0), (5, 2)]
  | .mcvt ad aa ab => [(1, 1), (7, 0x51), (3, ad.toNat), (3, aa.toNat), (3, ab.toNat), (10, 0), (5, 3)]
  | .mtrn ad aa => [(1, 1), (7, 0x51), (3, ad.toNat), (3, aa.toNat), (13, 0), (5, 4)]
  | .mzero ad => [(1, 1), (7, 0x51), (3, ad.toNat), (16, 0), (5, 5)]
  | .mgang ra rb => [(1, 1), (7, 0x51), (9, 0), (5, ra.toNat), (5, rb.toNat), (5, 6)]
  | .mwait => [(1, 1), (7, 0x51), (19, 0), (5, 7)]
  | .mrdr ad ab ra rb => [(1, 1), (7, 0x51), (3, ad.toNat), (3, 0), (3, ab.toNat), (5, ra.toNat), (5, rb.toNat), (5, 8)]
  | .mwrr ad ra rb => [(1, 1), (7, 0x51), (3, ad.toNat), (6, 0), (5, ra.toNat), (5, rb.toNat), (5, 9)]
  | .cbld n w ra => [(1, 1), (7, 0x51), (2, n.toNat), (4, 0), (2, w.toNat), (1, 0), (5, ra.toNat), (5, 0), (5, 0xa)]
  | .kld w ra => [(1, 1), (7, 0x51), (6, 0), (2, w.toNat), (1, 0), (5, ra.toNat), (5, 0), (5, 0xb)]
  | .mld ad la w sc rc => [(1, 1), (7, 0x52), (3, ad.toNat), (6, la.toNat), (2, w.toNat), (3, sc.toNat), (1, 0), (5, rc.toNat), (4, 0)]
  | .mst ad la w sc rc => [(1, 1), (7, 0x52), (3, ad.toNat), (6, la.toNat), (2, w.toNat), (3, sc.toNat), (1, 0), (5, rc.toNat), (4, 1)]
  | .mldb ad la w sc rc => [(1, 1), (7, 0x52), (3, ad.toNat), (6, la.toNat), (2, w.toNat), (3, sc.toNat), (1, 0), (5, rc.toNat), (4, 2)]
  | .csrr rd csr => [(1, 1), (7, 0x60), (5, rd.toNat), (5, 0), (12, csr.toNat), (2, 0)]
  | .csrw rd ra csr => [(1, 1), (7, 0x60), (5, rd.toNat), (5, ra.toNat), (12, csr.toNat), (2, 1)]
  | .csrs rd ra csr => [(1, 1), (7, 0x60), (5, rd.toNat), (5, ra.toNat), (12, csr.toNat), (2, 2)]
  | .csrc rd ra csr => [(1, 1), (7, 0x60), (5, rd.toNat), (5, ra.toNat), (12, csr.toNat), (2, 3)]
  | .ecall rd ra rb => [(1, 1), (7, 0x61), (5, rd.toNat), (5, ra.toNat), (5, rb.toNat), (9, 0)]
  | .ebrk k => [(1, 1), (7, 0x61), (15, k.toNat), (9, 1)]
  | .sret => [(1, 1), (7, 0x61), (15, 0), (9, 2)]
  | .wfe => [(1, 1), (7, 0x61), (15, 0), (9, 3)]
  | .nop rd ra rb => [(1, 1), (7, 0x67), (5, rd.toNat), (5, ra.toNat), (5, rb.toNat), (9, 0)]
  | .add16 ra rb => [(1, 0), (5, 1), (5, ra.toNat), (5, rb.toNat)]
  | .sub16 ra rb => [(1, 0), (5, 2), (5, ra.toNat), (5, rb.toNat)]
  | .mov16 ra rb => [(1, 0), (5, 3), (5, ra.toNat), (5, rb.toNat)]
  | .addi16 ra imm => [(1, 0), (5, 4), (5, ra.toNat), (5, imm.toNat)]
  | .andi16 ra imm => [(1, 0), (5, 5), (5, ra.toNat), (5, imm.toNat)]
  | .slli16 ra imm => [(1, 0), (5, 6), (5, ra.toNat), (5, imm.toNat)]
  | .srli16 ra imm => [(1, 0), (5, 7), (5, ra.toNat), (5, imm.toNat)]
  | .srai16 ra imm => [(1, 0), (5, 8), (5, ra.toNat), (5, imm.toNat)]
  | .and16 ra rb => [(1, 0), (5, 9), (5, ra.toNat), (5, rb.toNat)]
  | .or16 ra rb => [(1, 0), (5, 0xa), (5, ra.toNat), (5, rb.toNat)]
  | .xor16 ra rb => [(1, 0), (5, 0xb), (5, ra.toNat), (5, rb.toNat)]
  | .ld16 ra rb => [(1, 0), (5, 0xc), (5, ra.toNat), (5, rb.toNat)]
  | .lw16 ra rb => [(1, 0), (5, 0xd), (5, ra.toNat), (5, rb.toNat)]
  | .sd16 ra rb => [(1, 0), (5, 0xe), (5, ra.toNat), (5, rb.toNat)]
  | .sw16 ra rb => [(1, 0), (5, 0xf), (5, ra.toNat), (5, rb.toNat)]
  | .beqz16 ra off => [(1, 0), (5, 0x10), (5, ra.toNat), (5, off.toNat)]
  | .end16 => [(1, 0), (5, 0x11), (10, 0)]
  | .bnez16 ra off => [(1, 0), (5, 0x12), (5, ra.toNat), (5, off.toNat)]
  | .j16 off => [(1, 0), (5, 0x13), (10, off.toNat)]
  | .jr16 ra rb => [(1, 0), (5, 0x14), (5, ra.toNat), (5, rb.toNat)]
  | .mul16 ra rb => [(1, 0), (5, 0x15), (5, ra.toNat), (5, rb.toNat)]
  | .cNop => cmd 0x00 0 0 0 [(44, 0)]
  | .cMovi ca imm => cmd 0x01 ca.toNat 0 0 [(44, imm.toNat)]
  | .cMovw ca word => cmd 0x02 ca.toNat 0 0 [(44, 0), (64, word.toNat)]
  | .cAdd ca cb cc i imm => cmd 0x03 ca.toNat cb.toNat cc.toNat [(32, imm.toNat), (11, 0), (1, i.toNat)]
  | .cSub ca cb cc i imm => cmd 0x04 ca.toNat cb.toNat cc.toNat [(32, imm.toNat), (11, 0), (1, i.toNat)]
  | .cAnd ca cb cc i imm => cmd 0x05 ca.toNat cb.toNat cc.toNat [(32, imm.toNat), (11, 0), (1, i.toNat)]
  | .cOr ca cb cc i imm => cmd 0x06 ca.toNat cb.toNat cc.toNat [(32, imm.toNat), (11, 0), (1, i.toNat)]
  | .cShl ca cb cc i imm => cmd 0x07 ca.toNat cb.toNat cc.toNat [(32, imm.toNat), (11, 0), (1, i.toNat)]
  | .cShr ca cb cc i imm => cmd 0x08 ca.toNat cb.toNat cc.toNat [(32, imm.toNat), (11, 0), (1, i.toNat)]
  | .cLd ca cb imm => cmd 0x09 ca.toNat cb.toNat 0 [(32, imm.toNat), (12, 0)]
  | .cSt ca cb imm => cmd 0x0a ca.toNat cb.toNat 0 [(32, imm.toNat), (12, 0)]
  | .cBeq ca cb imm => cmd 0x10 ca.toNat cb.toNat 0 [(20, imm.toNat), (24, 0)]
  | .cBne ca cb imm => cmd 0x11 ca.toNat cb.toNat 0 [(20, imm.toNat), (24, 0)]
  | .cBlt ca cb imm => cmd 0x12 ca.toNat cb.toNat 0 [(20, imm.toNat), (24, 0)]
  | .cBge ca cb imm => cmd 0x13 ca.toNat cb.toNat 0 [(20, imm.toNat), (24, 0)]
  | .cJmp imm => cmd 0x14 0 0 0 [(20, imm.toNat), (24, 0)]
  | .cCall imm => cmd 0x15 0 0 0 [(20, imm.toNat), (24, 0)]
  | .cRet => cmd 0x16 0 0 0 [(44, 0)]
  | .cLoop ca imm => cmd 0x17 ca.toNat 0 0 [(20, imm.toNat), (24, 0)]
  | .cIb ca cb => cmd 0x18 ca.toNat cb.toNat 0 [(44, 0)]
  | .cLaunch ca cb ch n cap => cmd 0x20 ca.toNat cb.toNat 0 [(5, ch.toNat), (3, n.toNat), (23, cap.toNat), (13, 0)]
  | .cLaunchall ca cb ch n cap => cmd 0x21 ca.toNat cb.toNat 0 [(5, ch.toNat), (3, n.toNat), (23, cap.toNat), (13, 0)]
  | .cCopy ca hart => cmd 0x22 ca.toNat 0 0 [(4, hart.toNat), (40, 0)]
  | .cWaitsem ca cb cond dec sigq sqv => cmd 0x28 ca.toNat cb.toNat 0 [(2, cond.toNat), (1, dec.toNat), (12, sigq.toNat), (1, sqv.toNat), (28, 0)]
  | .cSigsem ca cb st => cmd 0x29 ca.toNat cb.toNat 0 [(1, st.toNat), (43, 0)]
  | .cFence => cmd 0x2a 0 0 0 [(44, 0)]
  | .cStamp ca => cmd 0x2b ca.toNat 0 0 [(44, 0)]
  | .cIntr vec => cmd 0x2c 0 0 0 [(11, vec.toNat), (33, 0)]
  | .cInstall ca cb cc dies => cmd 0x40 ca.toNat cb.toNat cc.toNat [(4, dies.toNat), (40, 0)]
  | .cRebuild ca cc => cmd 0x41 ca.toNat 0 cc.toNat [(44, 0)]
  | .cDelete ca cc => cmd 0x42 ca.toNat 0 cc.toNat [(44, 0)]
  | .cStrike ca cc => cmd 0x43 ca.toNat 0 cc.toNat [(44, 0)]
  | .cPitch ca cc late => cmd 0x44 ca.toNat 0 cc.toNat [(1, late.toNat), (43, 0)]
  | .cSave ca cb cc => cmd 0x45 ca.toNat cb.toNat cc.toNat [(44, 0)]
  | .cRestore ca cb cc => cmd 0x46 ca.toNat cb.toNat cc.toNat [(44, 0)]
  | .cHalt ca => cmd 0x47 ca.toNat 0 0 [(44, 0)]
  | _ => []

/-- The bits of an instruction's encoding, first word lowest. -/
def encode (i : Instr) : Nat := pack (encodeFields i)

/-- How many bits an instruction's encoding has; 0 for a device event. -/
def encodeBits (i : Instr) : Nat := ((encodeFields i).map (·.1)).sum

end Sys2Proof
end

