-- ==== Sys2Proof/Machine/State.lean ====
section
/-! DEFINITION. The state of a QV9, as plain data: everything the spec gives the device, each piece under the spec's own name, and
beside it the model's own fields that say which agent moves next and count the free values (log entries 1 and 2). Registers the
spec gives no reset value start at zero (DESIGN CHOICE, log entry 3). -/

namespace Sys2Proof.Machine

/-! ### Activation slots -/

/-- An entry of a queue register: its value, the trap a pop of it raises (0: none, 0x05, 0x07, 0x14), the oref and ordinal that trap
names, the KIND of a 0x05, and the generation of its fault record (R127, R144). -/
structure QEntry where
  val : Vec
  bad : Nat
  ref : Word
  ord : Word
  kind : Nat
  gen : BitVec 16
  deriving DecidableEq, Repr

/-- An entry that holds a value. -/
def QEntry.of (v : Vec) : QEntry := ⟨v, 0, 0, 0, 0, 0⟩

/-- The mode of a queue register (ch. 5). -/
inductive QMode where
  | plain | bound | stream
  deriving DecidableEq, Repr

/-- A queue register: mode, entries head first, and in stream mode the pattern, the layout entry as QSTREAM read it (R27), the entries
popped, the entries requested, and the refills in flight in pattern order (R124, R126, R129). -/
structure QReg where
  mode : QMode
  ents : List QEntry
  pat : Vec
  lay : Vec
  popped : Nat
  asked : Nat
  flight : List QEntry
  deriving DecidableEq, Repr

/-- A queue register in plain mode without entries. -/
def QReg.empty : QReg := ⟨.plain, [], 0, 0, 0, 0, []⟩

/-- A handler table entry (Table 7.4). -/
structure Handler where
  hidx : BitVec 16
  role : BitVec 2
  rep : Bool
  stl : Bool
  sbd : Bool
  sq : BitVec 3
  srb : BitVec 4
  slen : BitVec 4
  tb : BitVec 32
  nent : Nat
  bnd : Bool
  deriving DecidableEq, Repr

/-- The zero entry. -/
def Handler.zero : Handler := ⟨0, 0, false, false, false, 0, 0, 0, 0, 0, false⟩

/-- The record of an activation: virtual PE, channel, the message that started it, the handler entry it started under, the cell that
hosts the virtual PE, whether this cell stole it, its hosted ordinal (0 when stolen), the sampled DBGCTL, the DEQ stamp, the serial
its sends carry, time spent parked, and MIS and MISV of a stolen activation (R176, R182, R408, R413). -/
structure Activation where
  vpe : Nat
  ch : Nat
  msg : Msg
  h : Handler
  owner : Nat
  stolen : Bool
  hord : Nat
  dbg : Word
  deq : Word
  serial : BitVec 36
  parked : Nat
  mis : Word
  misv : Word
  deriving DecidableEq, Repr

/-- What a slot does (R176, R145): a parked slot has its cause, whether a retry has made it runnable, and the object page it waits for
(context, slot, offset). -/
inductive Status where
  | free
  | running
  | parked (cause : Nat) (retried : Bool) (page : Option (Nat × Nat × Nat))
  | stream (src : Nat)
  deriving DecidableEq, Repr

/-- What a running slot waits for, when its last turn ended in a wait: of a full/empty form the granules, of a descriptor cache miss the
object slot, of a fetch the capsule and the page. -/
inductive Wait where
  | none | counter | fullEmpty (gs : List Nat) | queue | barrier | record | sequencer | matrix | descriptor (o : Nat) | code (cap page : Nat) | response
  | outbound | gang
  deriving DecidableEq, Repr

/-- The slot-scoped CSRs that a matrix instruction samples, and the other slot-scoped configuration (Table 9.12). -/
structure Csrs where
  fmta : BitVec 5
  fmtb : BitVec 5
  cbmode : BitVec 8
  sclp : Word
  zpp : Word
  rm : BitVec 2
  gmask : BitVec 8
  mtrapen : BitVec 2
  deriving DecidableEq, Repr

/-- All zero (Table 9.12). -/
def Csrs.reset : Csrs := ⟨0, 0, 0, 0, 0, 0, 0, 0⟩

/-- The shadow of FLG and OVFC0 to OVFC7: flags raised, flags cleared, and for each tile the value written and the increments made
after it (R226). -/
structure Shadow where
  raised : BitVec 6
  cleared : BitVec 6
  ovf : Vector (Option (BitVec 32) × Nat) 8
  deriving DecidableEq, Repr

/-- The empty shadow. -/
def Shadow.empty : Shadow := ⟨0, 0, Vector.replicate 8 (none, 0)⟩

/-- A buffered or released send: the message as it will be delivered, and its receivers: device, context, virtual PE, and for a
multicast copy the counter (k, h) it draws on (R130, R170, R249), and whether it has been counted against its counters (R132, R133). -/
structure OutMsg where
  msg : Msg
  dests : List (Nat × Nat × Nat × Option (Nat × Nat))
  paid : Bool
  deriving DecidableEq, Repr

/-- A sequence of the repetition buffer: its word, its count, the vector length it runs under, the next buffer slot and the
repetition (R287, R289), and the capsule and record of its RPT, at which a park in an instance stands (R327). -/
structure Sequence where
  word : Word
  count : Nat
  vl : Nat
  bslot : Nat
  j : Nat
  cap : Nat
  record : Nat
  deriving DecidableEq, Repr

/-- A slot's sequencer: the running sequence, the waiting one, and the instances issued in the activation (R289, R290). -/
structure Sequencer where
  run : Option Sequence
  wait : Option Sequence
  issued : Nat
  deriving DecidableEq, Repr

/-- A matrix instruction in the matrix queue: the instruction, as it was encoded (`form`: an instance's with the registers of its buffer
slot, R311), the scalar value captured for its field, the CSRs sampled, the layout
entries read (R27), the scalar registers, taint, place and sequencer to go back to if it parks or traps, the repetition instance it is,
whether the array runs it, and for MITER whether its iteration has begun (R294, R295). -/
structure MatOp where
  i : Instr
  x : Word
  csr : Csrs
  lays : List Vec
  regs : Vector Word 32
  taint : BitVec 32
  cap : Nat
  pc : Nat
  seq : Sequencer
  rep : Option (Nat × Nat)
  onArray : Bool
  begun : Bool
  form : Instr
  deriving DecidableEq, Repr

/-- Gang state of a slot (R310, R311): joining with tag, mask and own-slot time waited, or in gang mode with tag, mask, ordinal and the
count of ganged instructions arrived; a broken gang keeps the ordinal. -/
inductive Gang where
  | none
  | joining (tag : BitVec 32) (mask : BitVec 8) (clk : Nat)
  | joined (tag : BitVec 32) (mask : BitVec 8) (ord : Nat) (n : Nat) (clk : Nat)
  | broken (ord : Nat)
  deriving DecidableEq, Repr

/-- One activation slot. `barw` is the barrier and phase a waiting BARW waits for, and whether that phase has completed since (R247);
`rep` the buffer slot and repetition of the instance being carried out, `lay` the layout entry that an access still out for its
response, or waits after its start, has read (R27; `repLay` that of a repetition instance), `age` the clk since its activation started (R176),
`atStart` whether none of its instructions has completed, so that a park with 0x12 stands at the HANDLER record (R330). -/
structure Slot where
  status : Status
  act : Option Activation
  cap : Nat
  pc : Nat
  x : Vector Word 32
  v : Vector Vec 16
  vl : Nat
  q : Vector QReg 8
  cb : Vector (BitVec 256) 4
  k : Vector Elem 8
  csr : Csrs
  mrpV : Bool
  mrpRow : Nat
  staging : List (List (Option Elem))
  tbud : Nat
  fcause : Word
  foref : Word
  fcoord : Word
  pcv : Nat
  pcm : Nat
  pcn : Nat
  taint : BitVec 32
  shadow : Shadow
  sends : List OutMsg
  ending : Bool
  ticket : Option (Nat × BitVec 16)
  barw : Option (Nat × BitVec 16 × Bool)
  seq : Sequencer
  mq : List MatOp
  gang : Gang
  pend : Option Instr
  held : Bool
  rep : Option (Nat × Nat)
  wait : Wait
  frame : List Byte
  lay : Option Vec
  repLay : Option Vec
  age : Nat
  atStart : Bool
  deriving DecidableEq, Repr

/-- A free slot after reset. -/
def Slot.reset : Slot where
  status := .free
  act := none
  cap := 0
  pc := 0
  x := Vector.replicate 32 0
  v := Vector.replicate 16 0
  vl := 16
  q := Vector.replicate 8 QReg.empty
  cb := Vector.replicate 4 0
  k := Vector.replicate 8 0
  csr := Csrs.reset
  mrpV := false
  mrpRow := 0
  staging := []
  tbud := 0
  fcause := 0
  foref := 0
  fcoord := 0
  pcv := 0
  pcm := 0
  pcn := 0
  taint := 0
  shadow := Shadow.empty
  sends := []
  ending := false
  ticket := none
  barw := none
  seq := ⟨none, none, 0⟩
  mq := []
  gang := .none
  pend := none
  held := false
  rep := none
  wait := .none
  frame := []
  lay := none
  repLay := none
  age := 0
  atStart := false

/-! ### Cells -/

/-- A repetition buffer slot: the instruction, its captured scalar values in the order of its scalar fields, the stagger bits [55:9] of
the sequence word it was captured under, and the capsule and record it came from (R286). -/
structure RepSlot where
  i : Instr
  x : List Word
  word : Word
  cap : Nat
  record : Nat
  deriving DecidableEq, Repr

/-- The architectural NOP (R286). -/
def RepSlot.nop : RepSlot := ⟨.nop 0 0 0, [], 0, 0, 0⟩

/-- Accounting counters of a context cell (Table 18.4). -/
structure Acct where
  qwait : BitVec 64
  search : BitVec 64
  run : BitVec 64
  idle : BitVec 64
  nact : BitVec 32
  nabort : BitVec 32
  stealok : BitVec 32
  stealfail : BitVec 32
  parked : BitVec 64
  deriving DecidableEq, Repr

/-- Debug stop of a cell (R409 to R411): the source of the stop on its way and of one that has landed, with the k of an EBRK above it
(R228), and whether one step is allowed. -/
inductive Stopped where
  | no
  | stopping (src : Nat)
  | stopped (src : Nat)
  | stepping
  deriving DecidableEq, Repr

/-- One cell. `hits` are the comparator hits recorded (R160, R408): comparator, context, slot, MSGID, TIME; `stopBy` names the activation whose hit asked
for the stop, as the words of its STOP record but W4 (R407; empty for a host request) (DESIGN CHOICE, log entry 50); `searching` the slots whose free time
counts as SEARCH (R413), `sampled` the TIME of each slot's last SAMPLE record (R412). -/
structure Cell where
  ctx : Option Nat
  slots : Vector Slot 4
  handlers : Vector Handler 32
  repBuf : Vector RepSlot 16
  rowSums : Vector (BitVec 1024) 8
  ovfc : Vector (BitVec 32) 8
  agel : BitVec 16
  wcmp : Vector Word 4
  dcache : List (Nat × Desc)
  outbound : List OutMsg
  freeCnt : NMap Nat
  spill : List (Nat × Nat × Msg)
  ext : Bool
  netHeld : List Packet
  records : List (List Word)
  preempt : Bool
  stop : Stopped
  stopBy : List Word
  hits : List (List Word)
  idleClk : Nat
  searching : NSet
  sampled : NMap Nat
  acct : Acct
  deriving DecidableEq, Repr

/-- A free cell (R172). -/
def Cell.reset : Cell where
  ctx := none
  slots := Vector.replicate 4 Slot.reset
  handlers := Vector.replicate 32 Handler.zero
  repBuf := Vector.replicate 16 RepSlot.nop
  rowSums := Vector.replicate 8 0
  ovfc := Vector.replicate 8 0
  agel := 4096
  wcmp := Vector.replicate 4 0
  dcache := []
  outbound := []
  freeCnt := []
  spill := []
  ext := false
  netHeld := []
  records := []
  preempt := false
  stop := .no
  stopBy := []
  hits := []
  idleClk := 0
  searching := []
  sampled := []
  acct := ⟨0, 0, 0, 0, 0, 0, 0, 0, 0⟩

/-! ### Contexts -/

/-- A virtual PE (R165, R173 to R177, R225): MIS, MISV, FLG, masks, the messages of each channel that hold input-buffer entries and
wait, the entries of the share in use, the age of each runnable channel, the channels promoted, the channels whose activation runs or
is parked, and the open streams by channel with their source. -/
structure Vpe where
  mis : Word
  misv : Word
  flg : BitVec 6
  cmask : BitVec 32
  amask : BitVec 32
  queues : NMap (List Msg)
  used : Nat
  ages : NMap Nat
  promoted : NSet
  busy : NSet
  streams : NMap Nat
  deriving DecidableEq, Repr

/-- A virtual PE at context load. -/
def Vpe.reset : Vpe := ⟨0, 0, 0, 0, 0, [], 0, [], [], [], []⟩

/-- A named barrier (R246): phase, tally, arrival count. -/
structure Barrier where
  ph : BitVec 16
  a : BitVec 16
  n : BitVec 16
  deriving DecidableEq, Repr

/-- The fold of a grid capsule (R163 to R165). -/
structure Fold where
  v : Nat
  p : Nat
  n : Nat
  f : Nat
  deriving DecidableEq, Repr

/-- Why and where a context is being saved (R376, R377): the image oref, the queue waiting for it, KIND, JOBID, TIME at the start. -/
structure Saving where
  image : Word
  queue : Option Nat
  kind : Nat
  job : Nat
  start : Word
  deriving DecidableEq, Repr

/-- The record of a resident context (R136). `keys` gives each installed key of its key set (R44) by the number the security core generated
it under, `shared` the ranges that firmware has added for shared objects (R140), `noMove` the object pages whose migration has failed (R156), `setN`
the arrival counts that the host has set since the context was saved (R246),
`exchange` what members of collectives on other devices have sent: device, context and packet (R118; DESIGN CHOICE, log entry 75). -/
structure Context where
  fn : Nat
  cells : List Nat
  parts : List (Nat × Nat)
  shared : List (Nat × Nat)
  objs : NMap Desc
  lays : NMap Vec
  grants : NMap (Nat × Nat × Nat)
  keys : NMap Nat
  flags : BitVec 6
  dbgctl : Word
  caps : NSet
  grid : Nat
  fold : Fold
  barriers : NMap Barrier
  unloaded : Bool
  mailbox : List (BitVec 16 × Nat)
  vpes : NMap Vpe
  spillEntries : Nat
  extEntries : Nat
  holdBytes : Nat
  arriveEntries : Nat
  arrived : List Packet
  report : Word
  reportVec : Nat
  reports : List (List Word)
  reportLost : Nat
  service : Word
  serviced : List (List Word)
  trace : Word
  blocks : List Word
  contained : Bool
  detached : Bool
  saving : Option Saving
  job : Option Nat
  noMove : List (Nat × Nat)
  setN : NMap Nat
  exchange : List (Nat × Nat × Msg)
  deriving DecidableEq, Repr

/-! ### Capsules -/

/-- A capsule (R322 to R334): its state (Table 14.7), body with its maps and the tag it was derived under, and the portable side: grid,
need, regions, grain, barriers, handlers by portable index, exports, stubs, hints, the Merner list and its page hashes, the digest, and the manifest's
bytes (R336). `dies` are the compute dies whose code stores receive the body (R325), `seals` the seal value of each body page (R328), `stuck` says that a
rebuild has found no space, so that only a C.REBUILD begins another (R332). -/
structure Capsule where
  state : Nat
  body : Config.Body
  gen : BitVec 8
  step : BitVec 8
  ibh : BitVec 256
  grid : Nat × Nat × Nat × Nat
  need : Nat
  regions : List (Nat × Nat)
  grain : Nat
  barriers : List (Nat × Nat)
  handlers : NMap Nat
  exports : List Nat
  stubs : List Nat
  hints : List Byte
  list : List Word
  hashes : List Vec
  digest : Vec
  manifest : List Byte
  dies : BitVec 4
  seals : List Vec
  stuck : Bool
  deriving DecidableEq, Repr

/-! ### Memory side -/

/-- One element to write: its oref, the lowest bit within the byte there, its width in bits, its value (R22), its coordinates, which FCOORD
names (R144), and whether its bytes carry poison (R113). -/
structure Piece where
  o : Word
  lo : Nat
  len : Nat
  val : Nat
  coord : Word
  bad : Bool
  deriving DecidableEq, Repr

/-- What a posted or held write does at its destination: bytes at an oref of a context, or elements of a layout (`fill`: the granules
become full), a layout entry, or a kick of a hart. -/
inductive Effect where
  | bytes (o : Word) (b : List Byte) (fill : Bool)
  | pieces (l : List Piece) (fill : Bool)
  | layout (l : Nat) (v : Vec)
  | kick (d h : Nat) (v : Word)
  deriving DecidableEq, Repr

/-- A write that has left its agent and is not yet performed: the agent, its context, the serial of its activation, the post class (0 V,
1 M, 2 N), the descriptor under which it was checked, its effect, whether it is a release, the fence epoch it left in, the access kind of Table 6.7, whether
it is counted, the retry-at-flush mark (R46, R146, R151), the epoch of the earlier reads and writes of its agent that it must not pass (`floor`,
R77), of a kick the virtual PE of the activation that made it and whether that was stolen (R107), whether it is held in the context's
hold area (R146), and for an operation's mailbox the harts that took part, whose earlier writes it must not pass (R71). -/
structure Posted where
  agent : Agent
  ctx : Nat
  ser : BitVec 36
  cls : Nat
  desc : Desc
  eff : Effect
  rel : Bool
  epoch : Nat
  acc : Nat
  counted : Bool
  mark : Bool
  floor : Nat
  vpe : Nat
  stolen : Bool
  area : Bool
  behind : List Agent
  deriving DecidableEq, Repr

/-- The fault buffer of a compute die (R149 to R152): records from TAIL to HEAD, HEAD, TAIL, generation, LOST, and the pages serviced
with the generation that closed their batch. -/
structure FaultBuf where
  recs : List (List Word)
  head : BitVec 12
  tail : BitVec 12
  gen : BitVec 16
  lost : Bool
  served : List (Nat × Nat × Nat × BitVec 16)
  deriving DecidableEq, Repr

/-- The empty buffer. -/
def FaultBuf.reset : FaultBuf := ⟨[], 0, 0, 0, false, []⟩

/-- A kick as a hart holds it (R107): context, agent, and for a cell the cell, the virtual PE of the activation, and whether it was
stolen; the block index; the queue whose C.COPY made it. -/
structure Kick where
  ctx : Nat
  agent : Agent
  vpe : Nat
  stolen : Bool
  idx : Nat
  post : Option Posted
  queue : Option Nat
  deriving DecidableEq, Repr

/-- A contribution to an ordered REDUCE group or a collective: who kicked it, its block, the layout entries it read when it was accepted
(R27, R111), and for a collective with members on other devices the source values that have been sent to them, each with its poison (R118). -/
structure Contribution where
  kick : Kick
  block : List Word
  lays : List Vec
  src : Option (List (Nat × Bool))
  deriving DecidableEq, Repr

/-- What stands still at a page in a hart: the operation at the head of its FIFO, an ordered group, or a collective (context, GRP) (R121). -/
inductive HartStop where
  | head
  | group (r grp : Nat)
  | coll (r grp : Nat)
  deriving DecidableEq, Repr

/-- An engine hart (R105, R108, R117): FIFO, kicks not yet accepted, KERR per context, whether the running operation, and the check of an
arriving kick, waits for a page (context, slot, offset) and what waits, whether that wait has the retry-at-flush mark (R151), the layout entries that the
running operation has read (R27), and on a collective hart the open groups (context, GRP), the contributions that wait for a group to close, and unfinished
collective members. -/
structure Hart where
  fifo : List Kick
  waiting : List Kick
  kerr : NMap Nat
  stopped : Option (Nat × Nat × Nat)
  why : HartStop
  kickStop : Option (Nat × Nat × Nat)
  mark : Bool
  lays : Option (List Vec)
  groups : List (Nat × Nat × List Contribution)
  late : List Contribution
  members : List Contribution
  deriving DecidableEq, Repr

/-- An idle hart. -/
def Hart.reset : Hart := ⟨[], [], [], none, .head, none, false, none, [], [], []⟩

/-! ### Queues, firmware, host and links -/

/-- A hardware queue: its record (Table 15.1), its frame (Table 15.2: registers, buffer stack, call stack, level; a buffer as its first
word, its length and the index of its next word, the innermost first), the copies in flight (R359), the dies whose replica is stale
(R341), ns of waiting (R367), the command that waits for something (a semaphore, an answer, the lead's service), an answer to it not yet
seen (of a privileged command: its service is under way), of a C.INSTALL the 64 KiB pages copied of its object and the capsule it installs (R325), the messages a C.LAUNCHALL has sent, a request for command words in an object of another device and its answer, the status of a privileged command served, and a stop or an unmapping asked for at the next
command boundary (R347, R366), and while its command waits where it stands the time at which that command started (R348, R363). -/
structure Queue where
  base : Word
  tail : BitVec 32
  head : BitVec 32
  lsz : Nat
  state : Nat
  pri : Nat
  priv : Bool
  ctx : Nat
  map : Bool
  eng : Nat
  fcode : Nat
  version : BitVec 32
  ser : BitVec 36
  frame : Nat
  wto : Nat
  c : Vector Word 16
  bufs : List (Word × Nat × Nat)
  calls : List (Nat × Nat)
  lv : Nat
  copies : Nat
  stale : NSet
  waitNs : Nat
  service : Option Instr
  answer : Option Bool
  launched : Nat
  asking : Bool
  fetched : List Word
  result : Option (Nat × Nat)
  sealed : NMap (List Byte)
  installing : Option Nat
  stopReq : Bool
  unmapReq : Bool
  stalled : Option Word
  deriving DecidableEq, Repr

/-- A zero queue record (R338) with a zero frame (R339). -/
def Queue.reset : Queue where
  base := 0
  tail := 0
  head := 0
  lsz := 0
  state := 0
  pri := 0
  priv := false
  ctx := 0
  map := false
  eng := 0
  fcode := 0
  version := 0
  ser := 0
  frame := 0
  wto := 0
  c := Vector.replicate 16 0
  bufs := []
  calls := []
  lv := 0
  copies := 0
  stale := []
  waitNs := 0
  service := none
  answer := none
  launched := 0
  asking := false
  fetched := []
  result := none
  sealed := []
  installing := none
  stopReq := false
  unmapReq := false
  stalled := none

/-- A command engine (R348): the queue it serves, the commands served in this turn, and the queue it served last. -/
structure Engine where
  serving : Option Nat
  served : Nat
  last : Nat
  deriving DecidableEq, Repr

/-- A die firmware core (R229, R344): registers, CSRs of Table 9.15, posted-store counters, taint, WFE stall, a remote access awaiting
its response, the context its orefs name, its firmware image, whether it lives, and the lease timer in ns. -/
structure Dfc where
  x : Vector Word 32
  pc : Word
  pie : Bool
  ie : Bool
  depc : Word
  evt : Bool
  cause : BitVec 8
  dtvec : Word
  devent : BitVec 8
  dscratch : Word
  pcv : Nat
  pcm : Nat
  pcn : Nat
  taint : BitVec 32
  wfe : Bool
  wait : Wait
  pend : Option Instr
  ctx : Option Nat
  code : List Byte
  alive : Bool
  lease : Nat
  lapsed : Bool
  deriving DecidableEq, Repr

/-- A DFC after warm reset (Table 9.15). -/
def Dfc.reset : Dfc where
  x := Vector.replicate 32 0
  pc := 0
  pie := false
  ie := false
  depc := 0
  evt := false
  cause := 0
  dtvec := 0
  devent := 0
  dscratch := 0
  pcv := 0
  pcm := 0
  pcn := 0
  taint := 0
  wfe := false
  wait := .none
  pend := none
  ctx := none
  code := []
  alive := true
  lease := 0
  lapsed := false

/-- A host function's interface: its TDISP state (0 CONFIG_UNLOCKED, 1 CONFIG_LOCKED, 2 RUN, 3 ERROR), configuration registers, MSI-X table
size, masked and pending vectors (R364, R396), and whether MSI-X is disabled. -/
structure Iface where
  tdisp : Nat
  regs : NMap Word
  msix : Nat
  masked : NSet
  pending : NSet
  off : Bool
  deriving DecidableEq, Repr

/-- An interface after reset, MSI-X disabled as PCIe resets it (PRESUMED, log entry 80). -/
def Iface.reset : Iface := ⟨0, [], 1, [], [], true⟩

/-- A link port (R400): up, partner device, failed replays in a row, packets that wait to leave. -/
structure Port where
  up : Bool
  partner : Nat
  fails : Nat
  egress : List Packet
  ingress : List Packet
  deriving DecidableEq, Repr

/-- A port after reset. -/
def Port.reset : Port := ⟨false, 0, 0, [], []⟩

/-- A registered job (R381, R383): the context and oref of its descriptor, its members (device, context), the orefs the descriptor holds, the strike
phase (0 none, 1 HALT, 2 DRAIN, 3 PEG and SWEEP, 4 waiting for pegs, 5 struck, 6 checked for a pitch, 7 re-injected), the pegs that have arrived (port,
device), the packets swept with their ordinals, the job packets counted at each port, the members' reports, the queue waiting, whether late packets are
accepted, whether cells may start (R387), and whether the job stands struck here: struck and not yet pitched. -/
structure Job where
  ctx : Nat
  oref : Word
  members : List (Nat × Nat)
  image : Word
  sweepA : Word
  lateA : Word
  cellList : Word
  phase : Nat
  pegs : List (Nat × Nat)
  swept : List (Nat × Packet)
  arr : NMap Nat
  reports : List (Nat × Report)
  queue : Option Nat
  accept : Bool
  gate : Bool
  struck : Bool
  deriving DecidableEq, Repr

/-- Power of the device (R401, R402): performance state of each die, idle state of each rank (die x 96 + rank), ranks on their way back
to IS0, trip state of each die, dies that have tripped. -/
structure Power where
  ps : NMap Nat
  idle : NMap Nat
  exiting : NSet
  trip : NMap (Nat × Nat)
  tripped : NSet
  deriving DecidableEq, Repr

/-- The security core (R392 to R395): measurements, current slot (false A), failed attempts, whether the other slot failed too,
recovery, security version floor, an SPDM session, whether it has attested the device, interfaces with IDE keys, Kseal by the number it was
generated under (R328), the slots of boot flash that have been rewritten, and the secret of the last SPDM key exchange (R395). -/
structure Security where
  meas : NMap Vec
  slotB : Bool
  attempts : Nat
  other : Bool
  recovery : Bool
  floor : Nat
  spdm : Bool
  attested : Bool
  ide : NSet
  kseal : Nat
  flash : NMap Config.BootImage
  secret : Option Vec
  deriving DecidableEq, Repr

/-- Running firmware (R330, R344): generation, stepping, installer build, the lead's die, the lease epoch, ns since the last renewal, the requests answered,
the microcode of the engine harts (R104), the lead that has stopped acting as such, a renewal on its way, and the page-table writes of the host, by sequence number and
entry, that wait for their shootdown (R141). -/
structure Firmware where
  gen : BitVec 8
  step : BitVec 8
  ibh : BitVec 256
  lead : Option Nat
  epoch : Nat
  sinceRenewal : Nat
  answered : NSet
  micro : List Byte
  former : Option Nat
  renewal : Bool
  waiting : List (Nat × Nat)
  deriving DecidableEq, Repr

/-- Which agent moves next: a slot or a DFC issues one instruction, the pipeline of a cell chooses a slot that is ready (R176), a command
engine executes one command, a device event happens, or time passes (DESIGN CHOICE, log entry 1). -/
inductive Turn where
  | agent (a : Agent)
  | cell (c : Nat)
  | engine (d : Nat)
  | event (i : Instr) (x : Input)
  | elapse (clk ns : Nat)
  deriving DecidableEq, Repr

/-- The whole device. `xts` gives, for a granule of CXL memory that has been written, the key under which its data unit holds it (R44); `clk` counts, in eighths, the clk of each compute die since warm
reset (R401), `slotNext` the slot tables written with the frame of their writes (R309); `marks` the
agents, pages and access kinds of loads and atomics from outside whose fault records were lost (R151); `serial` is the next serial of an activation (R167; DESIGN CHOICE, log
entry 65). -/
structure State where
  sched : List Turn
  focus : Agent
  cur : Agent
  inp : Input
  fresh : Nat
  serial : BitVec 36
  time : BitVec 64
  devId : BitVec 9
  mem : List Host.Cell
  xts : NMap Nat
  full : NSet
  poison : NSet
  posted : List Posted
  held : List Posted
  epochs : NMap Nat
  net : List Packet
  mcReturns : List (Nat × Nat)
  arrivals : List (Nat × Nat)
  cells : NMap Cell
  ctxs : NMap Context
  caps : NMap Capsule
  codeStore : NMap (List Nat)
  queues : NMap Queue
  engines : NMap Engine
  dfcs : NMap Dfc
  harts : NMap Hart
  faults : NMap FaultBuf
  marks : List (Agent × Nat × (Nat × Nat × Nat))
  filters : NMap (List Word)
  slotTables : NMap (BitVec 256)
  slotNext : NMap (Nat × BitVec 256)
  clk : NMap Nat
  shoot : List (Nat × List Posted)
  ifaces : NMap Iface
  msi : List (Nat × Nat)
  errors : List (List Word)
  errLost : Nat
  errRing : Option (Nat × Word × Nat)
  watch : List (List Word)
  corrected : NMap Nat
  ports : NMap Port
  routes : NMap Nat
  jobs : NMap Job
  images : List (Nat × Word × NMap Vec)
  saveLimit : Nat
  reports : List (List Word)
  answers : List (List Byte)
  power : Power
  sec : Security
  fw : Firmware
  stoppedAll : Bool
  deriving DecidableEq, Repr

/-- Why the machine stops with a fault. -/
inductive Fault where
  /-- Raised by an instruction or a command given to `exec` while no agent of its kind is the one that moves (`State.cur`). Safe: `step`
  never does this. -/
  | noAgent
  deriving DecidableEq, Repr

/-- Why an instruction has no meaning. -/
inductive Refusal where
  /-- Raised by an arm of `exec` that has no meaning yet. Safe. -/
  | notModelled (mnemonic : String)
  deriving DecidableEq, Repr

/-- The machine right after device warm reset: no context, no capsule, every memory zero, DFC 0 the lead with epoch 1 (R58, R338, R344,
R399), trip states PS7 with IS1 (R402, read from the default where none is set) (DESIGN CHOICE, log entry 5). -/
def State.reset : State where
  sched := []
  focus := .idle
  cur := .idle
  inp := {}
  fresh := 0
  serial := 0
  time := 0
  devId := 0
  mem := []
  xts := []
  full := []
  poison := []
  posted := []
  held := []
  epochs := []
  net := []
  mcReturns := []
  arrivals := []
  cells := []
  ctxs := []
  caps := []
  codeStore := []
  queues := []
  engines := []
  dfcs := [(0, Dfc.reset), (1, Dfc.reset), (2, Dfc.reset), (3, Dfc.reset), (4, Dfc.reset), (5, Dfc.reset)]
  harts := []
  faults := []
  marks := []
  filters := []
  slotTables := []
  slotNext := []
  clk := []
  shoot := []
  ifaces := []
  msi := []
  errors := []
  errLost := 0
  errRing := none
  watch := []
  corrected := []
  ports := []
  routes := []
  jobs := []
  images := []
  saveLimit := 1000
  reports := []
  answers := []
  power := ⟨[], [], [], [], []⟩
  sec := ⟨[], false, 0, false, false, 0, false, false, [], 0, [], none⟩
  fw := ⟨0, 0, 0, some 0, 1, 0, [], [], none, false, []⟩
  stoppedAll := false

end Sys2Proof.Machine
end

