-- ==== Sys2Proof/Machine/Ops.lean ====
section
/-! DEFINITION. The named operations over the state: bit fields and byte order, the one memory, registers and program counters of the
agent that moves, records and reports, and taking a trap: an abort, a park, and the entry of a die firmware core, with the return from
it. -/

namespace Sys2Proof.Machine

/-! ### Bits and bytes -/

/-- Bits `[lo + len - 1 : lo]` of a word. -/
def bits {n : Nat} (w : BitVec n) (lo len : Nat) : Nat := w.toNat / 2 ^ lo % 2 ^ len

/-- Bit `k` of a word. -/
def bit {n : Nat} (w : BitVec n) (k : Nat) : Bool := w.getLsbD k

/-- The number of a Bool as a bit. -/
def b2n (b : Bool) : Nat := if b then 1 else 0

/-- SignExt(x, n) of R6 on a number: the low `n` bits of `x`, as a signed integer. -/
def signed (x n : Nat) : Int :=
  if n = 0 then 0 else if x % 2 ^ n < 2 ^ (n - 1) then Int.ofNat (x % 2 ^ n) else Int.ofNat (x % 2 ^ n) - Int.ofNat (2 ^ n)

/-- A word from an integer, modulo 2^64. -/
def wordOf (i : Int) : Word := BitVec.ofInt 64 i

/-- A word from a number, modulo 2^64. -/
def word (n : Nat) : Word := BitVec.ofNat 64 n

/-- A number put together from fields, lowest first: each pair is a width and a value. -/
def fields (l : List (Nat × Nat)) : Nat := pack l

/-- The number of a little-endian byte string (R2). -/
def numOfBytes : List Byte → Nat
  | [] => 0
  | b :: r => b.toNat + 256 * numOfBytes r

/-- The `n` bytes of a number, little-endian (R2). -/
def bytesOf : Nat → Nat → List Byte
  | 0, _ => []
  | n + 1, v => BitVec.ofNat 8 v :: bytesOf n (v / 256)

/-! ### Memory

One memory holds every place: HBM4, CXL and host memory at their physical addresses (R135); scratchpads, accumulator regions and
vaults above 2^48, each at the key of its cell or rank. -/

/-- What a byte that no entry lists reads as (R58, R399; DESIGN CHOICE, log entry 4). -/
def unlisted : Byte := 0

/-- The byte at `a`. -/
def readByte (m : List Host.Cell) (a : Nat) : Byte :=
  match m with
  | [] => unlisted
  | (a', b) :: r => if a' = a then b else readByte r a

/-- `m` with an entry for `a`, in its place. -/
def insertByte (m : List Host.Cell) (a : Nat) (b : Byte) : List Host.Cell :=
  match m with
  | [] => [(a, b)]
  | (a', b') :: r =>
    if a = a' then (a, b) :: r
    else if a < a' then (a, b) :: (a', b') :: r
    else (a', b') :: insertByte r a b

/-- `m` with the byte at `a` set to `b`; no entry stays that reads as an unlisted byte does. -/
def writeByte (m : List Host.Cell) (a : Nat) (b : Byte) : List Host.Cell :=
  if b = unlisted then m.filter (fun c => c.1 ≠ a) else insertByte m a b

/-- The canonical form: addresses strictly rising, and no entry equal to what an unlisted address reads as. -/
abbrev Memory.wf (m : List Host.Cell) : Prop := m.Pairwise (fun a b => a.1 < b.1) ∧ ∀ c ∈ m, c.2 ≠ unlisted

/-- The bytes at a list of addresses. -/
def readKeys (m : List Host.Cell) (ks : List Nat) : List Byte := ks.map (readByte m)

/-- `m` with the bytes written at a list of addresses. -/
def writeKeys (m : List Host.Cell) : List Nat → List Byte → List Host.Cell
  | k :: ks, b :: bs => writeKeys (writeByte m k b) ks bs
  | _, _ => m

/-- The addresses of `n` bytes from `a`. -/
def span (a n : Nat) : List Nat := (List.range n).map (a + ·)

/-- The key of scratchpad byte `a` of cell `c`. -/
def scratchKey (c a : Nat) : Nat := 2 ^ 48 + c * 2 ^ 18 + a
/-- The key of accumulator byte `a` of cell `c`. -/
def accKey (c a : Nat) : Nat := 2 ^ 49 + c * 2 ^ 15 + a
/-- The key of byte `a` of the vault of global rank `g`. -/
def vaultKey (g a : Nat) : Nat := 2 ^ 50 + g * 2 ^ 24 + a

/-- The granule (16 bytes, R32, R403) of a key. -/
def granule (k : Nat) : Nat := k / 16
/-- The granules that a list of keys touches. -/
def granules (ks : List Nat) : List Nat := (ks.map granule).dedup
/-- The granules every byte of which stands in the list of keys. -/
def wholeGranules (ks : List Nat) : List Nat := (granules ks).filter fun g => (span (16 * g) 16).all fun k => ks.contains k

/-- A set with the numbers of a list added. -/
def addAll (t : NSet) (l : List Nat) : NSet := l.foldl NSet.add t
/-- A set with the numbers of a list dropped. -/
def dropAll (t : NSet) (l : List Nat) : NSet := l.foldl NSet.drop t

/-- The state with its memory replaced. -/
def State.withMem (s : State) (m : List Host.Cell) : State := { s with mem := m }

/-- Store bytes at keys: plain, or as a fill that makes their granules full (Table 2.3), and clear the poison of whole granules when the
write is one that does so (R233). -/
def State.store (s : State) (ks : List Nat) (bs : List Byte) (fill clean : Bool) : State :=
  { s with
    mem := writeKeys s.mem ks bs
    full := if fill then addAll s.full (granules ks) else s.full
    poison := if clean then dropAll s.poison (wholeGranules ks) else s.poison }

/-- The byte at a key as an access under a key of a key set reads it: an access that names no key, or the key under which the granule was
written, reads what was written (R44). A granule that no access under a key has written reads as memory holds it (DESIGN CHOICE, log entry 66). -/
def readUnder (s : State) (id : Option Nat) (k : Nat) : Byte :=
  match id, s.xts.find (granule k) with
  | some i, some j => if i = j then readByte s.mem k else Config.xtsByte j i k (readKeys s.mem (span (16 * granule k) 16))
  | _, _ => readByte s.mem k

/-- The bytes at a list of keys as an access under a key reads them. -/
def State.bytesUnder (s : State) (id : Option Nat) (ks : List Nat) : List Byte := ks.map (readUnder s id)

/-- The granules of a write brought under its key: what stood under another key is decrypted and encrypted anew (R44). -/
def State.rekey (s : State) (id : Option Nat) (gs : List Nat) : State :=
  match id with
  | none => s
  | some i =>
    let other := gs.filter fun g => (s.xts.find g).any (· != i)
    { s with
      mem := other.foldl (fun m g => writeKeys m (span (16 * g) 16) (s.bytesUnder id (span (16 * g) 16))) s.mem
      xts := gs.foldl (fun x g => x.put g i) s.xts }

/-- Whether any granule of the keys is poisoned. -/
def State.poisoned (s : State) (ks : List Nat) : Bool := (granules ks).any s.poison.has

/-- The place in a list of keys of the first that is poisoned (R144). -/
def State.poisonAt (s : State) (ks : List Nat) : Word := word (ks.findIdx fun k => s.poison.has (granule k))

/-! ### Parts of the state by number -/

/-- Cell `c`. -/
def State.cell (s : State) (c : Nat) : Cell := s.cells.getD c Cell.reset
/-- The state with cell `c` replaced. -/
def State.setCell (s : State) (c : Nat) (x : Cell) : State := { s with cells := s.cells.put c x }
/-- Slot `k` of a cell. -/
def Cell.slot (x : Cell) (k : Nat) : Slot := x.slots[k]?.getD Slot.reset
/-- A cell with slot `k` replaced. -/
def Cell.setSlot (x : Cell) (k : Nat) (l : Slot) : Cell := { x with slots := x.slots.setIfInBounds k l }
/-- Slot `k` of cell `c`. -/
def State.slot (s : State) (c k : Nat) : Slot := (s.cell c).slot k
/-- The state with slot `k` of cell `c` replaced. -/
def State.setSlot (s : State) (c k : Nat) (l : Slot) : State := s.setCell c ((s.cell c).setSlot k l)
/-- Context `r`, if resident. -/
def State.ctx (s : State) (r : Nat) : Option Context := s.ctxs.find r
/-- The state with context `r` replaced. -/
def State.setCtx (s : State) (r : Nat) (x : Context) : State := { s with ctxs := s.ctxs.put r x }
/-- Change context `r`, if resident. -/
def State.onCtx (s : State) (r : Nat) (g : Context → Context) : State :=
  match s.ctx r with
  | some x => s.setCtx r (g x)
  | none => s
/-- Virtual PE `v` of a context. -/
def Context.vpe (x : Context) (v : Nat) : Vpe := x.vpes.getD v Vpe.reset
/-- Change virtual PE `v` of context `r`. -/
def State.onVpe (s : State) (r v : Nat) (g : Vpe → Vpe) : State :=
  s.onCtx r fun x => { x with vpes := x.vpes.put v (g (x.vpe v)) }
/-- DFC `d`. -/
def State.dfc (s : State) (d : Nat) : Dfc := s.dfcs.getD d Dfc.reset
/-- The state with DFC `d` replaced. -/
def State.setDfc (s : State) (d : Nat) (x : Dfc) : State := { s with dfcs := s.dfcs.put d x }
/-- Queue `q`. -/
def State.queue (s : State) (q : Nat) : Queue := s.queues.getD q Queue.reset
/-- The state with queue `q` replaced. -/
def State.setQueue (s : State) (q : Nat) (x : Queue) : State := { s with queues := s.queues.put q x }
/-- Hart `h` of die `d`, stored at 28 d + h (R149). -/
def State.hart (s : State) (d h : Nat) : Hart := s.harts.getD (28 * d + h) Hart.reset
/-- The state with hart `h` of die `d` replaced. -/
def State.setHart (s : State) (d h : Nat) (x : Hart) : State := { s with harts := s.harts.put (28 * d + h) x }
/-- The fault buffer of die `d`. -/
def State.fault (s : State) (d : Nat) : FaultBuf := s.faults.getD d FaultBuf.reset
/-- The state with the fault buffer of die `d` replaced. -/
def State.setFault (s : State) (d : Nat) (x : FaultBuf) : State := { s with faults := s.faults.put d x }
/-- Interface of function `f`. -/
def State.iface (s : State) (f : Nat) : Iface := s.ifaces.getD f Iface.reset
/-- The state with the interface of function `f` replaced. -/
def State.setIface (s : State) (f : Nat) (x : Iface) : State := { s with ifaces := s.ifaces.put f x }
/-- Link port `p`. -/
def State.port (s : State) (p : Nat) : Port := s.ports.getD p Port.reset
/-- The state with link port `p` replaced. -/
def State.setPort (s : State) (p : Nat) (x : Port) : State := { s with ports := s.ports.put p x }

/-- The compute die of cell `c` (R164). -/
def dieOfCell (c : Nat) : Nat := c / 768
/-- The global rank of cell `c`: die x 96 + rank (R117). -/
def rankOfCell (c : Nat) : Nat := c / 8
/-- A cell's index in its rank. -/
def indexInRank (c : Nat) : Nat := c % 8

/-! ### The agent that moves -/

/-- The scalar registers of the agent that moves; all zero when it has none. -/
def State.regs (s : State) : Vector Word 32 :=
  match s.cur with
  | .slot c k => (s.slot c k).x
  | .dfc d => (s.dfc d).x
  | _ => Vector.replicate 32 0

/-- x[r]; x0 reads as zero (R191). -/
def getX (s : State) (r : BitVec 5) : Word := if r = 0 then 0 else s.regs[r.toNat]?.getD 0

/-- The taint of the moving agent's registers (R67). -/
def State.taints (s : State) : BitVec 32 :=
  match s.cur with
  | .slot c k => (s.slot c k).taint
  | .dfc d => (s.dfc d).taint
  | _ => 0

/-- The state with the moving agent's registers and taint replaced. -/
def State.setRegs (s : State) (x : Vector Word 32) (t : BitVec 32) : State :=
  match s.cur with
  | .slot c k => s.setSlot c k { s.slot c k with x := x, taint := t }
  | .dfc d => s.setDfc d { s.dfc d with x := x, taint := t }
  | _ => s

/-- A taint set with bit `r` set to `b`. -/
def taintBit (t : BitVec 32) (r : BitVec 5) (b : Bool) : BitVec 32 :=
  if b then t ||| (1#32 <<< r.toNat) else t &&& ~~~(1#32 <<< r.toNat)

/-- Write x[r] and its taint; a write to x0 is discarded (R191). -/
def setXt (s : State) (r : BitVec 5) (v : Word) (t : Bool) : State :=
  if r = 0 then s else s.setRegs (s.regs.setIfInBounds r.toNat v) (taintBit s.taints r t)

/-- Write x[r], clearing its taint (R67). -/
def setX (s : State) (r : BitVec 5) (v : Word) : State := setXt s r v false

/-- Whether x[r] is tainted. -/
def tainted (s : State) (r : BitVec 5) : Bool := r ≠ 0 && bit s.taints r.toNat

/-- Change the moving slot; nothing when the mover is no slot. -/
def onSlot (s : State) (g : Slot → Slot) : State :=
  match s.cur with
  | .slot c k => s.setSlot c k (g (s.slot c k))
  | _ => s

/-- The moving slot; the reset slot when the mover is no slot. -/
def State.me (s : State) : Slot :=
  match s.cur with
  | .slot c k => s.slot c k
  | _ => Slot.reset

/-- The program counter of the moving agent: a slot's is the byte offset in its capsule's body. -/
def getPc (s : State) : Nat :=
  match s.cur with
  | .slot c k => (s.slot c k).pc
  | .dfc d => (s.dfc d).pc.toNat
  | _ => 0

/-- A slot with the layout entry that its access has read: a repetition instance's stands apart from that of the instruction stream (R27). -/
def Slot.keepLay (l : Slot) (e : Option Vec) : Slot := if l.rep.isSome then { l with repLay := e } else { l with lay := e }

/-- The layout entry that the access in hand has read, if it has begun. -/
def Slot.keptLay (l : Slot) : Option Vec := if l.rep.isSome then l.repLay else l.lay

/-- Set the program counter of the moving agent. -/
def setPc (s : State) (p : Nat) : State :=
  match s.cur with
  | .slot c k => s.setSlot c k { s.slot c k with pc := p, wait := .none, pend := none, lay := none, atStart := false }
  | .dfc d => s.setDfc d { s.dfc d with pc := word p, wait := .none, pend := none }
  | _ => s

/-- Complete an instruction of `len` bytes: the program counter moves past it. A repetition instance has no place of its own in the
instruction stream, so it moves nothing (R288). -/
def retire (s : State) (len : Nat) : State :=
  match s.cur with
  | .slot c k =>
    let l := s.slot c k
    s.setSlot c k { l.keepLay none with
      pc := if l.rep.isSome then l.pc else l.pc + len, wait := .none, pend := none, atStart := l.rep.isSome && l.atStart }
  | .dfc d => s.setDfc d { s.dfc d with pc := (s.dfc d).pc + word len, wait := .none, pend := none }
  | _ => s

/-- Mark what the moving agent waits for; it stays at its instruction. -/
def waitFor (s : State) (w : Wait) : State :=
  match s.cur with
  | .slot c k => s.setSlot c k { s.slot c k with wait := w }
  | .dfc d => s.setDfc d { s.dfc d with wait := w }
  | _ => s

/-- The moving agent's request has left: it waits for the response to `i`, with the layout entry it has read (R27). -/
def awaitResponse (s : State) (i : Instr) (lay : Option Vec := none) : State :=
  match s.cur with
  | .slot c k => s.setSlot c k { (s.slot c k).keepLay lay with pend := some i, wait := .response }
  | .dfc d => s.setDfc d { s.dfc d with pend := some i, wait := .response }
  | _ => s

/-- Whether the response to the moving agent's request has arrived: an instruction is run again for its response (`MEMORY_RESPONSE`),
and for nothing else while the request is out. -/
def State.answered (s : State) : Bool :=
  match s.cur with
  | .slot c k => (s.slot c k).pend.isSome
  | .dfc d => (s.dfc d).pend.isSome
  | _ => false

/-- The next free value's number, and the state in which it has been taken (DESIGN CHOICE, log entry 2). -/
def takeFresh (s : State) : Nat × State := (s.fresh, { s with fresh := s.fresh + 1 })

/-! ### Flags of a handler and of debug control -/

/-- Debug stops are enabled in the activation's sampled DBGCTL (R408). -/
def stopEnabled (a : Activation) : Bool := bit a.dbg 0
/-- Precise mode is on and the handler is replayable (R158, R228). -/
def precise (a : Activation) : Bool := bit a.dbg 1 && a.h.rep

/-! ### Records and reports -/

/-- The clk that compute die `d` has counted since warm reset (R401). -/
def State.clkOf (s : State) (d : Nat) : Nat := s.clk.getD d 0 / 8

/-- The clk that compute die `d` counts while `clk` cycles of PS0 pass: in PSn its clock runs at 8 - n eighths of that of PS0 (Table 17.3). -/
def State.clkIn (s : State) (d clk : Nat) : Nat := (s.clk.getD d 0 + clk * (8 - s.power.ps.getD d 0)) / 8 - s.clkOf d

/-- Signal an MSI-X vector of a function: sent, or held pending when the vector is masked or the function has MSI-X disabled (R364). -/
def signal (s : State) (fn vec : Nat) : State :=
  let i := s.iface fn
  if i.off || i.masked.has vec then s.setIface fn { i with pending := i.pending.add vec }
  else { s with msi := s.msi ++ [(fn, vec)] }

/-- The native byte at which execution enters record `n`: its first instruction, or that of the next record that has one. -/
def entryOf (x : Capsule) (n : Nat) : Nat := ((x.body.pos.find? fun p => n ≤ p.1).map fun p => p.2.1).getD 0

/-- The place of an activation's handler: the grid capsule, its HANDLER record and the native offset of its entry in the current body (R407). -/
def handlerPlace (s : State) (c : Nat) (a : Activation) : Nat × Nat × Nat :=
  match ((s.cells.getD c Cell.reset).ctx.bind s.ctxs.find).map (·.grid) with
  | some g =>
    match (s.caps.find g).bind fun x => (x.handlers.find a.h.hidx.toNat).map fun n => (n, entryOf x n) with
    | some (n, e) => (g, n, e)
    | none => (g, 0, a.h.nent)
  | none => (0, 0, a.h.nent)

/-- Whether a slot issues and runs instructions: it is running, or serves a stream. -/
def isActive : Status → Bool
  | .running => true
  | .stream _ => true
  | _ => false

/-- Whether a slot is parked on a VOID body, 0x12. -/
def Status.onVoid : Status → Bool
  | .parked cause _ _ => cause == 18
  | _ => false

/-- The record (R407: the position map) that native offset `pc` of capsule `cap` belongs to. -/
def recordAt (s : State) (cap pc : Nat) : Nat :=
  match s.caps.find cap with
  | some x => ((x.body.pos.find? fun p => p.2.1 ≤ pc && pc < p.2.2).map (·.1)).getD 0
  | none => 0

/-- The native offset at which a record of a capsule begins (R407). -/
def offsetOf (s : State) (cap rec' : Nat) : Nat :=
  match s.caps.find cap with
  | some x => ((x.body.pos.find? fun p => p.1 == rec').map (·.2.1)).getD 0
  | none => 0

/-- The place of a slot's instruction: capsule, record and native offset; of a repetition instance, those of the instruction that its buffer
slot was captured from (R286, R291); of a slot parked with 0x12 at its activation's start, those of the HANDLER record (R330). -/
def placeOf (s : State) (c : Nat) (l : Slot) : Nat × Nat × Nat :=
  match l.rep with
  | some (b, _) =>
    let e := (s.cells.getD c Cell.reset).repBuf[b]?.getD RepSlot.nop
    (e.cap, e.record, offsetOf s e.cap e.record)
  | none =>
    match if l.atStart && l.status.onVoid then l.act else none with
    | some a => handlerPlace s c a
    | none => (l.cap, recordAt s l.cap l.pc, l.pc)

/-- MSGID of an activation (Table 7.1): SRC as its message's header has it, 0 for a GRANT (R249), the queue for a CONTROL message. -/
def msgId (a : Activation) : Word :=
  word (fields [(4, bits a.msg.hdr 0 4), (36, a.msg.ser.toNat), (24, if a.msg.cmd then a.msg.src else bits a.msg.hdr 16 24)])

/-! ### Messages back to their queues -/

/-- A message with arrival-flag bit `b` set (Table 10.6). -/
def flagMsg (m : Msg) (b : Nat) : Msg := { m with aflg := m.aflg ||| (1#5 <<< b) }

/-- Return a message to the head of its channel's queue at its virtual PE, with a return stamp (R183, R184, R413). It keeps its entry. -/
def returnMsg (s : State) (r v ch : Nat) (m : Msg) (flag : Nat) : State :=
  s.onVpe r v fun p =>
    { p with queues := p.queues.put ch ({ flagMsg m flag with ret := some s.time } :: p.queues.getD ch [])
             busy := p.busy.drop ch
             ages := p.ages.put ch 0 }

/-- The zero descriptor. -/
def Desc.zero : Desc := ⟨0, 0, 0, 0⟩

/-! ### Translation at the memory port -/

/-- The 8-byte word of memory at physical address `a`. -/
def readWord (m : List Host.Cell) (a : Nat) : Word := word (numOfBytes (readKeys m (span a 8)))

/-- The root level of an object of `len` bytes (R137). -/
def rootLevel (len : Nat) : Nat :=
  if len ≤ 2 ^ 21 then 0 else if len ≤ 2 ^ 30 then 1 else if len ≤ 2 ^ 39 then 2 else if len ≤ 2 ^ 48 then 3 else 4

/-- The lowest offset bit and the number of bits that index a level (Table 6.2). -/
def levelIndex (lv : Nat) : Nat × Nat :=
  match lv with
  | 0 => (16, 5) | 1 => (21, 9) | 2 => (30, 9) | 3 => (39, 9) | _ => (48, 4)

/-- A page-table entry breaks the rules of R139 at level `lv`. -/
def malformed (e : Word) (lv : Nat) : Bool :=
  let leaf := bit e 1
  let addr := bits e 8 40 * 256
  bits e 48 16 != 0 || bits e 3 2 != 0
    || (leaf && decide (lv ≥ 2)) || (!leaf && lv == 0)
    || (!leaf && (bit e 7 || bit e 6 || bit e 5 || bit e 2))
    || (if leaf then (if lv == 0 then addr % 2 ^ 16 != 0 else addr % 2 ^ 21 != 0)
        else if lv == 1 then addr % 256 != 0 else addr % 4096 != 0)

/-- The outcome of a walk: the physical address with the address, level and value of the leaf entry, or the kind (0 ABSENT, 2 MALFORMED) and
level where it ended. -/
inductive Walk where
  | page (phys leafAt lvl : Nat) (leaf : Word)
  | absent (kind lvl : Nat)
  deriving DecidableEq, Repr

/-- Formula (6.1) from level `lv` on, with the table at `t`. -/
def walkFrom (m : List Host.Cell) (off : Nat) : Nat → Nat → Walk
  | lv, t =>
    let (lo, n) := levelIndex lv
    let at' := t + 8 * (off / 2 ^ lo % 2 ^ n)
    let e := readWord m at'
    if !bit e 0 then .absent 0 lv
    else if malformed e lv then .absent 2 lv
    else
      let addr := bits e 8 40 * 256
      if bit e 1 then .page (addr + (if lv = 0 then off % 2 ^ 16 else off % 2 ^ 21)) at' lv e
      else match lv with
        | 0 => .absent 2 0
        | lv' + 1 => walkFrom m off lv' addr

/-- Translate offset `off` of an object (R139). An entry with P = 0 is absent whatever its other bits hold (R138) (DEDUCED, log entry 20). -/
def walk (m : List Host.Cell) (d : Desc) (off : Nat) : Walk := walkFrom m off (rootLevel (bits d.w0 0 52)) d.ptr.toNat

/-- OR a bit into a page-table entry, as the OTU sets A and D (R142). -/
def orEntry (m : List Host.Cell) (a : Nat) (b : Nat) : List Host.Cell := writeByte m a (readByte m a ||| BitVec.ofNat 8 b)

/-- Set A, and for a write or atomic D, on the leaf entries an access used (R142). -/
def touchLeaves (s : State) (ls : List Nat) (write : Bool) : State :=
  { s with mem := ls.foldl (fun m a => orEntry m a (if write then 0x60 else 0x20)) s.mem }

/-! ### Trace records and accounting -/

/-- The number of the key under which a context reaches an object: that of entry KEY of its key set for the CXL tier, none elsewhere (R44). -/
def keyOf (x : Context) (d : Desc) : Option Nat := if bits d.w0 57 3 = 3 then some (x.keys.getD (bits d.w2 0 8) 0) else none

/-- The key of byte `off` of a vault or paged object, and the leaf entry used; none when no page is there. -/
def firmwareKey (m : List Host.Cell) (d : Desc) (off : Nat) : Option (Nat × Option Nat) :=
  if bits d.w0 57 3 = 1 then some (vaultKey (bits d.ptr 24 9) (bits d.ptr 0 24 + off), none)
  else match walk m d off with
    | .page phys leafAt _ _ => some (phys, some leafAt)
    | .absent _ _ => none

/-- The keys of `n` bytes at an oref of a context as firmware reaches an object that the host driver named (R371, R412); empty when the
object is too short or a page is absent. -/
def firmwareKeys (s : State) (x : Context) (o : Word) (n : Nat) : List (Nat × Option Nat) :=
  let d := x.objs.getD (bits o 52 12) Desc.zero
  let off := bits o 0 52
  let ks := if off + n ≤ bits d.w0 0 52 then (List.range n).filterMap fun i => firmwareKey s.mem d (off + i) else []
  if ks.length = n then ks else []

/-- The word firmware reads at an oref of a context; zero where it cannot. -/
def firmwareRead (s : State) (x : Context) (o : Word) : Word :=
  word (numOfBytes (s.bytesUnder (keyOf x (x.objs.getD (bits o 52 12) Desc.zero)) ((firmwareKeys s x o 8).map (·.1))))

/-- Firmware's write of bytes at an oref of a context; nothing where it cannot. -/
def firmwareWrite (s : State) (x : Context) (o : Word) (b : List Byte) : State :=
  let ks := firmwareKeys s x o b.length
  let s := s.rekey (keyOf x (x.objs.getD (bits o 52 12) Desc.zero)) (granules (ks.map (·.1)))
  touchLeaves { s with mem := writeKeys s.mem (ks.map (·.1)) b } (ks.filterMap (·.2)).dedup true

/-- The bytes of a list of words. -/
def wordBytes (ws : List Word) : List Byte := ws.flatMap fun w => bytesOf 8 w.toNat

/-- Append a record to a ring object: behind a header of 64 bytes, whose first word holds the number of the next record and the count of lost ones and whose second
that of the next record the host will read (R412; for the report ring and the error log DESIGN CHOICE, log entry 51). Answers whether it was written: a full ring
counts it lost. -/
def ringAppend (s : State) (x : Context) (o : Word) (rec' : List Word) : State × Bool :=
  let len := bits (x.objs.getD (bits o 52 12) Desc.zero).w0 0 52
  let size := 8 * rec'.length
  let cap := (len - 64) / size
  if cap = 0 || (firmwareKeys s x o 16).isEmpty then (s, false)
  else
    let w0 := firmwareRead s x o
    let next := bits w0 0 32
    let read := bits (firmwareRead s x (o + 8)) 0 32
    if (next + 2 ^ 32 - read) % 2 ^ 32 = cap then
      (firmwareWrite s x o (bytesOf 8 (min (bits w0 32 32 + 1) (2 ^ 32 - 1) * 2 ^ 32 + next)), false)
    else
      let s := firmwareWrite s x (o + word (64 + size * (next % cap))) (wordBytes rec')
      (firmwareWrite s x o (bytesOf 8 (bits w0 32 32 * 2 ^ 32 + (next + 1) % 2 ^ 32)), true)

/-- Write a trace record (Table 18.2) into the context's trace object, or count it lost (R412) (DEDUCED, log entry 39). -/
def traceWrite (s : State) (x : Context) (rec8 : List Word) : State := (ringAppend s x x.trace rec8).1

/-- Append an error record (Table 17.4) to the error log, or count it lost when the ring is full, and signal the error vector (R404). Until the host driver names a
ring the records are kept (DEDUCED, log entry 51). -/
def errorRecord (s : State) (type sev : Nat) (ctx : Option Nat) (die count detail loc : Nat) : State :=
  let w0 := fields [(32, count), (8, 0), (3, die), (10, ctx.getD 0), (1, b2n ctx.isSome), (2, sev), (8, type)]
  let rec4 := [word w0, word detail, word loc, s.time]
  match s.errRing with
  | none => { s with errors := s.errors ++ [rec4] }
  | some (r, o, vec) =>
    match (s.ctx r).map fun x => ringAppend s x o rec4 with
    | some (t, true) => signal { t with errors := t.errors ++ [rec4] } 0 vec
    | some (t, false) => { t with errLost := t.errLost + 1 }
    | none => { s with errLost := s.errLost + 1 }

/-- One lease period in ns (R344). -/
def leasePeriod : Nat := 10000000

/-- Whether the lead acts as lead: it has completed a renewal within the last 10 ms (R344). -/
def leadActs (s : State) : Bool := s.fw.lead.isSome && decide (s.fw.sinceRenewal < leasePeriod)

/-- The lead answers the host instruction of a sequence number: status and value; it answers it no second time (R346; DESIGN CHOICE, log entry 59). -/
def answerSeq (s : State) (seq code value : Nat) : State :=
  { s with reports := s.reports ++ [[3, word seq, word code, word value]], fw := { s.fw with answered := s.fw.answered.add seq } }

/-- The lead answers the host instruction under way, whose sequence number stands in the event's offset. -/
def answerHost (s : State) (code value : Nat) : State := answerSeq s s.inp.off code value

/-- Whether the lead carries out the host instruction of the event: it acts as lead, and has not answered that sequence number (R344, R346). -/
def takesHost (s : State) : Bool := leadActs s && !s.fw.answered.has s.inp.off

/-- A host instruction, carried out and answered once: the state it leaves, its status and its value (R346). -/
def byHost (s : State) (r : State × Nat × Nat) : Host.Outcome State Fault Refusal :=
  if takesHost s then .next (answerHost r.1 r.2.1 r.2.2) else .next s

/-- The dies that hold a replica of the record of queue `n`: every compute and edge die but its owner (R341). -/
def replicas (n : Nat) : NSet := (List.range 6).filter fun d => d != n % 4

/-- The owner has applied an update of queue `n`: VERSION increments, and every replica is stale before the update is answered (R341). -/
def bumpVersion (n : Nat) (q : Queue) : Queue := { q with version := q.version + 1, stale := replicas n }

/-- A wait for a semaphore that its queue leaves by another way than its condition: the queue stands at it again, and its serial was taken (R347, R366). Other
commands under way go on. -/
def leaveWait (q : Queue) : Queue :=
  match q.service with
  | some (.cWaitsem _ _ _ _ _ _) => { q with service := none, answer := none, stalled := none, ser := q.ser + 1 }
  | _ => q

/-- Contain a context (R405): it starts no activation and its queues enter STOP. -/
def contain (s : State) (r : Nat) : State :=
  let s := s.onCtx r fun x => { x with contained := true }
  { s with queues := s.queues.map fun p =>
      if p.2.ctx = r ∧ (p.2.state = 1 ∨ p.2.state = 2) then (p.1, bumpVersion p.1 { leaveWait p.2 with state := 3 }) else p }

/-- Contain a context and write the error record that names it (TYPE 10, CONTAINED). -/
def containWithRecord (s : State) (r die detail loc : Nat) : State :=
  errorRecord (contain s r) 10 1 (some r) die 1 detail loc

/-- An access refused by the checks of a frame (R140): the context is contained, and the record names object and page (slot in [63:52], number of the 64 KiB
page below) and the oref (DESIGN CHOICE, log entry 51). -/
def refuseAccess (s : State) (r die : Nat) (o : Word) : State :=
  containWithRecord s r die (bits o 52 12 * 2 ^ 52 + bits o 16 36) o.toNat

/-- Append a trap report (Table 16.2) to the context's report ring, signalled on its report vector (R371). -/
def trapReport (s : State) (r c k cls cause : Nat) (l : Slot) : State :=
  match s.ctx r, l.act with
  | some x, some a =>
    let bs := l.rep.map (·.1)
    let w0 := fields [(8, cause), (8, 0), (1, b2n a.stolen), (1, b2n a.h.rep), (2, cls), (3, 0), (2, k), (5, a.ch), (10, r), (24, a.vpe)]
    let (cap, rec', noff) := placeOf s c l
    let w2 := fields [(32, rec'), (4, 0), (4, bs.getD 0), (1, b2n bs.isSome), (23, cap)]
    let w3 := fields [(32, noff), (32, (l.rep.map (·.2)).getD 0)]
    let w := [word w0, msgId a, word w2, word w3, l.fcause, l.foref, l.fcoord, s.time]
    match ringAppend s x x.report w with
    | (t, true) => signal (t.setCtx r { x with reports := x.reports ++ [w] }) x.fn x.reportVec
    | (t, false) => t.setCtx r { x with reportLost := x.reportLost + 1 }
  | _, _ => s

/-- The trace record of kind `kind` for the activation of a slot, at a place (capsule, record, native offset); `cmp` is its CMP stamp. It is
written when the activation's TMASK enables the kind (R408). -/
def traceRecord (s : State) (c k kind arg : Nat) (at' : Nat × Nat × Nat) (cmp : Word) : State :=
  let l := s.slot c k
  match (s.cell c).ctx.bind s.ctx, l.act with
  | some x, some a =>
    if bit a.dbg (6 + kind) then
      let w0 := fields [(24, a.vpe), (3, 0), (5, a.ch), (10, (s.cell c).ctx.getD 0), (2, k), (12, c), (8, kind)]
      traceWrite s x [word w0, msgId a, word (fields [(32, at'.2.1), (9, 0), (23, at'.1)]), word (fields [(32, at'.2.2), (32, arg)]),
        s.time, a.msg.enq, a.deq, cmp]
    else s
  | _, _ => s

/-- A counter that holds at its maximum value (R413). -/
def held64 (n : Nat) : BitVec 64 := BitVec.ofNat 64 (min n (2 ^ 64 - 1))

/-- The accounting of an activation's completion at time `now` (R413): RUN grows by CMP - DEQ without the time parked, PARKED by that
time. -/
def account (x : Cell) (now : Word) (a : Activation) (aborted : Bool) : Cell :=
  let total := (now - a.deq).toNat
  { x with acct := { x.acct with
      run := held64 (x.acct.run.toNat + (total - a.parked))
      parked := held64 (x.acct.parked.toNat + a.parked)
      nabort := if aborted then BitVec.ofNat 32 (min (x.acct.nabort.toNat + 1) (2 ^ 32 - 1)) else x.acct.nabort } }

/-- Request a debug stop at a cell, by a source and, of a hit, in an activation, which the stop record will name; a second request has no further effect
(R409, R410) (DEDUCED, log entry 50). -/
def requestStop (s : State) (c src : Nat) (by' : List Word := []) : State :=
  match (s.cell c).stop with
  | .no => s.setCell c { s.cell c with stop := .stopping src, stopBy := by' }
  | .stepping => s.setCell c { s.cell c with stop := .stopping src, stopBy := by' }
  | _ => s

/-- The name of a slot's activation as the STOP record gives it (R407): words W0 to W3 and W5 to W7 of Table 18.2, with KIND 7, ARG and CMP left out. -/
def activationName (s : State) (c k : Nat) : List Word :=
  match (s.slot c k).act with
  | none => []
  | some a =>
    let (cap, n, noff) := handlerPlace s c a
    [word (fields [(24, a.vpe), (3, 0), (5, a.ch), (10, (s.cell c).ctx.getD 0), (2, k), (12, c), (8, 7)]), msgId a,
      word (fields [(32, n), (9, 0), (23, cap)]), word noff, a.msg.enq, a.deq, 0]

/-- The moving slot's activation asks for a debug stop of its cell, when its debug stops are enabled (R409). -/
def noteHit (s : State) (src : Nat) : State :=
  match s.cur with
  | .slot c k =>
    match (s.slot c k).act with
    | some a => if stopEnabled a then requestStop s c src (activationName s c k) else s
    | none => s
  | _ => s

/-- The CMP stamp of an activation that ends enters the name that its stop keeps (R407, R413). -/
def stampStop (s : State) (c k : Nat) : State :=
  let by' := (s.cell c).stopBy
  if !by'.isEmpty && bits (by'.getD 0 0) 42 2 == k then s.setCell c { s.cell c with stopBy := by'.set 6 s.time } else s

/-- What the end of an activation by END, YIELD or abort always does: its trace record, the accounting, and its CMP stamp in a stop that it asked for
(R407, R408, R412, R413). -/
def closeActivation (s : State) (c k kind arg : Nat) : State :=
  match (s.slot c k).act with
  | none => s
  | some a =>
    let s := traceRecord s c k kind arg (handlerPlace s c a) s.time
    stampStop (s.setCell c (account (s.cell c) s.time a (kind == 4))) c k

/-! ### Gangs -/

/-- A slot that leaves gang mode breaks the gang: its partners in the rank with the same tag and mask are marked (R311) (DEDUCED, log entry 40). -/
def breakGang (s : State) (c k : Nat) : State :=
  match (s.slot c k).gang with
  | .joined tag mask _ _ _ =>
    let base := 8 * rankOfCell c
    (List.range 32).foldl (fun t i =>
      let c' := base + i / 4
      let k' := i % 4
      match (t.slot c' k').gang with
      | .joined tag' mask' ord _ _ =>
        if c' ≠ c ∧ tag' = tag ∧ mask' = mask then t.setSlot c' k' { t.slot c' k' with gang := .broken ord } else t
      | _ => t) (s.setSlot c k { s.slot c k with gang := .none })
  | _ => s.setSlot c k { s.slot c k with gang := .none }

/-! ### Ending an activation -/

/-- Queue registers with every stream-mode register back in plain mode (R129). -/
def plainQueues (q : Vector QReg 8) : Vector QReg 8 := q.map fun r => if r.mode = .plain then r else QReg.empty

/-- What a slot is after its activation: free, its streams in plain mode, MRP clear, no taint, no ticket, nothing queued; its posted
stores stay counted (R47, R129, R219, R246). -/
def Slot.freed (l : Slot) : Slot :=
  { l with
    status := .free, act := none, q := plainQueues l.q, mrpV := false, mrpRow := 0, staging := [], taint := 0, shadow := Shadow.empty,
    sends := [], ending := false, ticket := none, barw := none, seq := ⟨none, none, 0⟩, mq := [], gang := .none, pend := none, held := false,
    rep := none, wait := .none, frame := [], lay := none, repLay := none, age := 0, atStart := false }

/-- Apply an activation's shadow to the committed state (R226): FLG of its virtual PE, the context's flag word, and OVFC of the cell;
a stolen activation commits OVFC into the thief's cell. -/
def commitShadow (s : State) (r c k : Nat) : State :=
  let l := s.slot c k
  match l.act with
  | none => s
  | some a =>
    let sh := l.shadow
    let s := s.onVpe r a.vpe fun p => { p with flg := (p.flg &&& ~~~sh.cleared) ||| sh.raised }
    let s := s.onCtx r fun x => { x with flags := x.flags ||| sh.raised }
    let cl := s.cell c
    let ovfc := cl.ovfc.mapIdx fun t old =>
      let e := sh.ovf[t]?.getD (none, 0)
      BitVec.ofNat 32 (min ((e.1.getD old).toNat + e.2) 0xFFFFFFFF)
    (s.setCell c { cl with ovfc := ovfc }).setSlot c k { l with shadow := Shadow.empty }

/-- The index of the free-slot counter (k, h) of R130 for a virtual PE of a context hosted on cell `c`. -/
def counterIndex (x : Context) (c v : Nat) : Nat := indexInRank c * 64 + v / x.fold.p

/-- The cell that hosts virtual PE `v` of a context (Formula (7.2)). -/
def hostCell (x : Context) (v : Nat) : Nat := x.cells.getD (v % x.fold.p) 0

/-- Free the input-buffer entries of messages taken from the share of virtual PE `v`: room in the share, and each multicast copy's slot on its
way back to the sending cell (R53, R130). -/
def freeEntries (s : State) (r v : Nat) (ms : List Msg) : State :=
  match s.ctx r with
  | none => s
  | some x =>
    let back := ms.filterMap fun m => m.mcell.map fun c => (c, counterIndex x (hostCell x v) v)
    let s := s.onVpe r v fun p => { p with used := p.used - ms.length }
    { s with mcReturns := s.mcReturns ++ back }

/-- Close a stream whose sequence cannot go on (R292): the queue's entries and the STREAM messages still queued from its source are discarded,
AMASK is set, the cause is reported for the pair, and the slot is free; its EOS, if queued, stands at the head of the queue. -/
def closeStream (s : State) (r c k src cause : Nat) (a : Activation) (l : Slot) : State :=
  let s := trapReport (s.setSlot c k l) r c k 1 cause l
  let q := (((s.ctx r).map fun x => x.vpe a.vpe).getD Vpe.reset).queues.getD a.ch []
  let stays (m : Msg) : Bool := !(bits m.hdr 8 3 == 2 && m.src == src)
  let eos (m : Msg) : Bool := bits m.hdr 8 3 == 3 && m.src == src
  let s := s.onVpe r a.vpe fun p =>
    { p with queues := p.queues.put a.ch ((q.filter eos) ++ (q.filter stays).filter fun m => !eos m), streams := p.streams.del a.ch, busy := p.busy.drop a.ch
             amask := p.amask ||| (1#32 <<< a.ch) }
  let s := freeEntries s r a.vpe (q.filter fun m => !stays m)
  let s := stampStop s c k
  s.setSlot c k ((s.slot c k).freed)

/-- The source of the stream a slot serves, running or parked (R179). -/
def streamOf (s : State) (r : Nat) (l : Slot) : Option Nat :=
  match l.act with
  | some a => if a.stolen then none else (((s.ctx r).map fun x => x.vpe a.vpe).getD Vpe.reset).streams.find a.ch
  | none => none

/-- Abort the activation of a slot (R183): sends and shadow discarded, the message at the head of its queue with REPLAY set, AMASK of the
channel set at the owner, streams in plain mode, the slot free; stores stay. Fault CSRs as given (R144), the trap report appended (R371). A slot that serves a
stream closes it instead (R292; DEDUCED, log entry 14). -/
def abortActivation (s : State) (c k cause : Nat) (fcause foref fcoord : Word) : State :=
  let l := { s.slot c k with fcause := fcause, foref := foref, fcoord := fcoord }
  let r := (s.cell c).ctx.getD 0
  match l.act, streamOf s r l with
  | none, _ => s.setSlot c k l
  | some a, some src => closeStream s r c k src cause a l
  | some a, none =>
    let s := trapReport (s.setSlot c k l) r c k 1 cause l
    let s := returnMsg s r a.vpe a.ch a.msg 1
    let s := s.onVpe r a.vpe fun p => { p with amask := p.amask ||| (1#32 <<< a.ch) }
    let s := closeActivation s c k 4 cause
    let s := match l.pend with
      | some (.bara _ ra _) => { s with arrivals := s.arrivals ++ [(r, bits (if ra = 0 then 0 else l.x[ra.toNat]?.getD 0) 0 8)] }
      | _ => s
    let s := breakGang s c k
    s.setSlot c k ((s.slot c k).freed)

/-- Park a slot at its instruction (R143, R145): fault CSRs written, the slot parked. -/
def parkSlot (s : State) (c k cause : Nat) (fcause foref fcoord : Word) (page : Option (Nat × Nat × Nat)) : State :=
  let s := traceRecord s c k 5 cause (placeOf s c { s.slot c k with status := .parked cause false page }) 0
  let l := s.slot c k
  s.setSlot c k { l with
    fcause := fcause, foref := foref, fcoord := fcoord, status := .parked cause false page, pend := none, wait := .none, lay := none, repLay := none }

/-! ### Taking a trap on a die firmware core, and the return -/

/-- A DFC takes a trap or an event (R229): DEPC := the address, DCAUSE written, PIE := IE and IE := 0, execution at DTVEC. -/
def dfcTrap (s : State) (d : Nat) (evt : Bool) (cause : Nat) (depc : Word) : State :=
  let x := s.dfc d
  s.setDfc d { x with
    depc := depc, evt := evt, cause := BitVec.ofNat 8 cause, pie := x.ie, ie := false, pc := x.dtvec, wfe := false, wait := .none,
    pend := none }

/-- Return from a DFC's trap handling (R230): pc := DEPC, IE := PIE. -/
def dfcReturn (s : State) (d : Nat) : State :=
  let x := s.dfc d
  s.setDfc d { x with pc := x.depc, ie := x.pie, wait := .none }

/-! ### Halts: how an instruction ends that does not complete -/

/-- Why an instruction does not complete in this turn. -/
inductive Halt where
  /-- An abort-class trap: cause, FOREF, FCOORD, access kind (Tables 16.1, 6.5), and whether the context is contained as well (R140). -/
  | trap (cause : Nat) (ref coord : Word) (acc : Nat) (contained : Bool)
  /-- A park-class trap: cause, KIND, access kind, FOREF, FCOORD, the page, and walk level; a fault record is written when `record`. -/
  | park (cause kind acc : Nat) (ref coord : Word) (page : Option (Nat × Nat × Nat)) (lvl : Nat) (record : Bool)
  /-- A watch stop 0x0E: the source of the hit, FOREF, FCOORD, and access kind (R158, R160, R228). -/
  | stop (src : Nat) (ref coord : Word) (acc : Nat)
  /-- A wait: the agent stays at its instruction. -/
  | wait (w : Wait)
  /-- A request to another device that is lost, or has no route: 0x07 (R400): the device, FOREF, FCOORD, access kind. -/
  | lost (dev : Nat) (ref coord : Word) (acc : Nat)
  /-- The request of a remote access leaves; the agent stays at its instruction until the response arrives (`MEMORY_RESPONSE`), with the layout
  entry it has read. -/
  | issue (i : Instr) (lay : Option Vec)
  /-- A halt of an access that the memory side has translated or performed: the state with what it left there (A and D set, bytes written, records
  sent: R142, R158), or of a wait with the layout entry that the access has read (R27). -/
  | after (t : State) (h : Halt)
  deriving DecidableEq, Repr

/-- A trap that names no access. -/
def trapOf (cause : Nat) : Halt := .trap cause 0 0 0 false

/-- The die whose fault buffer an agent's accesses report to: edge die e reports to compute die 2e. A remote device comes in at the edge die of the
port that its route names, the host at edge die 0 (R149) (DEDUCED, log entry 21). -/
def dieOfAgent (s : State) : Agent → Nat
  | .slot c _ => dieOfCell c
  | .dfc d => if d < 4 then d else 2 * (d - 4)
  | .hart d _ => d
  | .remote dev => 2 * (s.routes.getD dev 0 / 12)
  | _ => 0

/-- The agent field of a fault record: AGT and AID (Table 6.8). A command engine's queue and a die firmware core, which the table does not name, stand as AGT 2 with
numbers above every function's (DESIGN CHOICE, log entry 25). -/
def agentField : Agent → Nat × Nat
  | .slot c k => (0, 4 * c + k)
  | .hart d h => (1, 28 * d + h)
  | .queue q => (2, 64 + q)
  | .host f => (2, f)
  | .remote d => (3, d)
  | .dfc d => (2, 8192 + d)
  | .idle => (2, 2 ^ 14 - 1)

/-- Set event bit `b` of DFC `d` (Table 9.15). -/
def raiseEvent (s : State) (d b : Nat) : State :=
  let x := s.dfc d
  s.setDfc d { x with devent := x.devent ||| (1#8 <<< b) }

/-- Write a fault record (Table 6.8) into the buffer of an agent's die; a full ring sets LOST (R149, R151). Answers the state and whether
the record was lost (DEDUCED, log entry 25). -/
def faultRecord (s : State) (a : Agent) (ctx slot acc kind lvl off : Nat) : State × Bool :=
  let d := dieOfAgent s a
  let b := s.fault d
  if b.recs.length < 4096 then
    let w0 := fields [(17, 0), (3, lvl), (2, kind), (4, acc), (12, slot), (10, ctx), (16, b.gen.toNat)]
    let (agt, aid) := agentField a
    let w2 := fields [(16, 0), (14, aid), (2, agt)]
    (raiseEvent (s.setFault d { b with recs := b.recs ++ [[word w0, word off, word w2, s.time]], head := b.head + 1 }) d 0, false)
  else (s.setFault d { b with lost := true }, true)

/-- The FCAUSE value (Table 6.5). -/
def fcauseOf (cause kind acc : Nat) (gen : BitVec 16) : Word :=
  word (fields [(8, cause), (4, kind), (4, acc), (16, gen.toNat)])

/-- Give the slot back the registers it had when the head of its matrix queue issued: what was issued past it is discarded (R294). -/
def rewind (s : State) (c k : Nat) : State :=
  let l := s.slot c k
  match l.mq with
  | [] => s
  | m :: _ =>
    s.setSlot c k { l with
      x := m.regs, taint := m.taint, cap := m.cap, pc := m.pc, seq := m.seq, rep := m.rep, mq := [], lay := none, repLay := none }

/-- An abort-class trap of the moving agent: a slot aborts its activation, a DFC enters its handler (R370, R371). -/
def takeTrap (s : State) (cause : Nat) (ref coord : Word) (acc : Nat) : State :=
  match s.cur with
  | .slot c k => abortActivation s c k cause (fcauseOf cause 0 acc 0) ref coord
  | .dfc d => dfcTrap s d false cause (s.dfc d).pc
  | _ => s

/-- A queue register whose head entry waits for a page, made to read its pattern again from the entries popped (R127, R145). -/
def rereadStream (r : QReg) : QReg :=
  match r.mode, r.ents with
  | .stream, e :: _ => if e.bad = 5 then { r with ents := [], flight := [], asked := r.popped } else r
  | _, _ => r

/-- The generation of the fault record of the entry that a stream pop of the slot waits for (R144). -/
def streamGen (l : Slot) : BitVec 16 :=
  ((l.q.toList.filterMap fun r => match r.mode, r.ents with
    | .stream, e :: _ => if e.bad = 5 then some e.gen else none
    | _, _ => none).head?).getD 0

/-- A VOID capsule begins to be rebuilt, at the first park with 0x12 or at C.REBUILD (Table 14.8); after a rebuild that found no space only at C.REBUILD, which
clears `stuck` (R332). -/
def beginRebuild (s : State) (cap : Nat) : State :=
  match s.caps.find cap with
  | some x => if x.state = 2 ∧ x.stuck = false then { s with caps := s.caps.put cap { x with state := 3 } } else s
  | none => s

/-- A park-class trap of the moving agent; a park with 0x12 (whose level names the capsule) begins its rebuild; on a DFC it is a trap like any other (R371). -/
def takePark (s : State) (cause kind acc : Nat) (ref coord : Word) (page : Option (Nat × Nat × Nat)) (lvl : Nat) (record : Bool) : State :=
  match s.cur with
  | .slot c k =>
    if record then
      match page with
      | some (r, o, off) =>
        let gen := (s.fault (dieOfCell c)).gen
        let (s, lost) := faultRecord s s.cur r o acc kind lvl off
        let s := parkSlot s c k cause (fcauseOf cause kind acc gen) ref coord page
        if lost then s.setSlot c k { s.slot c k with held := true } else s
      | none => parkSlot s c k cause (fcauseOf cause kind acc 0) ref coord page
    else
      let l := s.slot c k
      let s := if cause = 18 then beginRebuild s lvl else s
      let s := parkSlot s c k cause (fcauseOf cause kind acc (streamGen l)) ref coord page
      s.setSlot c k { s.slot c k with q := (s.slot c k).q.map rereadStream }
  | .dfc d => dfcTrap s d false cause (s.dfc d).pc
  | _ => s

/-- Whether the moving slot has issued past a matrix instruction that is not complete: what it does is provisional (R294). -/
def State.provisional (s : State) : Bool := !s.me.mq.isEmpty

/-- Whether a halt ends in a trap, a park or a stop. -/
def Halt.takes : Halt → Bool
  | .trap _ _ _ _ _ => true
  | .park _ _ _ _ _ _ _ _ => true
  | .stop _ _ _ _ => true
  | .lost _ _ _ _ => true
  | .after _ h => h.takes
  | _ => false

/-- Take a halt of the moving agent that nothing before it holds back. -/
def takeHalt (s : State) (h : Halt) : State :=
  match h with
  | .trap cause ref coord acc false => takeTrap s cause ref coord acc
  | .trap cause ref coord acc true =>
    let r := match s.cur with | .slot c _ => (s.cell c).ctx.getD 0 | .dfc d => (s.dfc d).ctx.getD 0 | _ => 0
    refuseAccess (takeTrap s cause ref coord acc) r (dieOfAgent s s.cur) ref
  | .park cause kind acc ref coord page lvl record => takePark s cause kind acc ref coord page lvl record
  | .stop src ref coord acc =>
    takeTrap (noteHit s src) 14 ref coord acc
  | .lost dev ref coord acc =>
    let r := match s.cur with | .slot c _ => (s.cell c).ctx | .dfc d => (s.dfc d).ctx | _ => none
    takeTrap (errorRecord s 3 2 r 4 1 dev ref.toNat) 7 ref coord acc
  | .wait w => waitFor s w
  | .issue i lay => awaitResponse s i lay
  | .after t h => takeHalt t h

/-- Take a halt of the moving agent. A trap, park or stop past a pending matrix instruction waits until that has completed (R294). -/
def settle (s : State) (h : Halt) : State :=
  if h.takes && s.provisional then waitFor s .matrix else takeHalt s h

/-- The outcome of an instruction of the moving agent: the state it computes, or its halt taken in the state it started from. -/
def finish (s : State) (r : Except Halt State) : Host.Outcome State Fault Refusal :=
  match r with
  | .ok t => .next t
  | .error h => .next (settle s h)

/-- An instruction of a slot or a DFC: with no such agent moving it is a fault. -/
def scalar (s : State) (r : Except Halt State) : Host.Outcome State Fault Refusal :=
  match s.cur with
  | .slot _ _ => finish s r
  | .dfc _ => finish s r
  | _ => .fault .noAgent

/-- An instruction of a cell only: a DFC takes 0x01 (R256, DEDUCED, log entry 7). -/
def cellOnly (s : State) (r : Except Halt State) : Host.Outcome State Fault Refusal :=
  match s.cur with
  | .slot _ _ => finish s r
  | .dfc _ => finish s (.error (trapOf 1))
  | _ => .fault .noAgent

/-- A check: the halt when the condition does not hold. -/
def need (c : Bool) (h : Halt) : Except Halt Unit := if c then .ok () else .error h

end Sys2Proof.Machine
end

