-- ==== Sys2Proof/Machine/Num.lean ====
section
/-! DEFINITION. Numbers: the floating-point formats (R259), exact values, rounding and conversion (R260, R265, R266), sums, products,
quotients and square roots, each computed exactly and rounded once. A value that is not a dyadic rational is held as a bracket: a
dyadic below it in magnitude and a sticky mark. -/

namespace Sys2Proof.Machine

/-- A value read from a format: NaN (signalling or not), infinity, or the finite number (-1)^neg x m x 2^e; `more` says that the true
magnitude lies strictly between m and m + 1 at that exponent. -/
inductive FVal where
  | nan (sig : Bool)
  | inf (neg : Bool)
  | fin (neg : Bool) (m : Nat) (e : Int) (more : Bool)
  deriving DecidableEq, Repr

/-- A floating-point format (Table 11.1): exponent bits, fraction bits, bias, whether it has infinities. -/
structure Fmt where
  eb : Nat
  mb : Nat
  bias : Int
  infs : Bool
  deriving DecidableEq, Repr

/-- FP32. -/
def fp32 : Fmt := ⟨8, 23, 127, true⟩
/-- BF16. -/
def bf16 : Fmt := ⟨8, 7, 127, true⟩
/-- FP16. -/
def fp16 : Fmt := ⟨5, 10, 15, true⟩
/-- E4M3. -/
def e4m3 : Fmt := ⟨4, 3, 7, false⟩
/-- E5M2. -/
def e5m2 : Fmt := ⟨5, 2, 15, true⟩

/-! ### Flags as a set: NV 0, DZ 1, OF 2, UF 3, NX 4, SAT 5 (Table 9.14) -/

/-- Invalid. -/
def flNV : BitVec 6 := 1
/-- Divide-by-zero. -/
def flDZ : BitVec 6 := 2
/-- Overflow. -/
def flOF : BitVec 6 := 4
/-- Underflow. -/
def flUF : BitVec 6 := 8
/-- Inexact. -/
def flNX : BitVec 6 := 16
/-- Saturate. -/
def flSAT : BitVec 6 := 32

/-- A flag when a condition holds. -/
def flagIf (c : Bool) (fl : BitVec 6) : BitVec 6 := if c then fl else 0

/-! ### Reading and writing formats -/

/-- The value of the bits `b` of format `f` (R259). -/
def fdecode (f : Fmt) (b : Nat) : FVal :=
  let m := b % 2 ^ f.mb
  let e := b / 2 ^ f.mb % 2 ^ f.eb
  let neg := b / 2 ^ (f.mb + f.eb) % 2 = 1
  let top := 2 ^ f.eb - 1
  if e = top ∧ f.infs then (if m = 0 then .inf neg else .nan (decide (m < 2 ^ (f.mb - 1))))
  else if e = top ∧ m = 2 ^ f.mb - 1 then .nan false
  else if e = 0 then .fin neg m (1 - f.bias - f.mb) false
  else .fin neg (2 ^ f.mb + m) (Int.ofNat e - f.bias - f.mb) false

/-- The canonical NaN (R260). -/
def canonNaN (f : Fmt) : Nat :=
  if f.infs then (2 ^ f.eb - 1) * 2 ^ f.mb + 2 ^ (f.mb - 1) else 2 ^ (f.eb + f.mb) - 1

/-- Sign bit of a format. -/
def signBit (f : Fmt) (neg : Bool) : Nat := if neg then 2 ^ (f.eb + f.mb) else 0

/-- An infinity. -/
def infBits (f : Fmt) (neg : Bool) : Nat := signBit f neg + (2 ^ f.eb - 1) * 2 ^ f.mb

/-- The largest finite magnitude (Table 11.1). -/
def maxBits (f : Fmt) (neg : Bool) : Nat :=
  signBit f neg + (if f.infs then (2 ^ f.eb - 1) * 2 ^ f.mb - 1 else 2 ^ (f.eb + f.mb) - 2)

/-- Whether a rounding moves up: mode 0 RNE, 1 towards zero, 2 towards minus infinity, 3 towards plus infinity, for kept bits `r`, a
remainder `rem` of `2^sh`, and a sticky mark (R265). -/
def roundUp (mode : Nat) (neg : Bool) (r rem sh : Nat) (more : Bool) : Bool :=
  match mode with
  | 0 => if sh = 0 then false else
      decide (2 * rem > 2 ^ sh) || (2 * rem == 2 ^ sh && (more || r % 2 == 1))
  | 1 => false
  | 2 => neg && (rem != 0 || more)
  | _ => !neg && (rem != 0 || more)

/-- Round(x, f, m) (R265): the kept significand and its exponent on the grid of `f`, without an upper limit, and whether it is inexact. -/
def roundGrid (f : Fmt) (mode : Nat) (neg : Bool) (m : Nat) (e : Int) (more : Bool) : Nat × Int × Bool :=
  let emin : Int := 1 - f.bias
  let q := if m = 0 then emin - f.mb else max (e + Int.ofNat (Nat.log2 m) - f.mb) (emin - f.mb)
  if q ≤ e then (m * 2 ^ (e - q).toNat, q, more)
  else
    let sh := (q - e).toNat
    let r := m / 2 ^ sh
    let rem := m % 2 ^ sh
    (if roundUp mode neg r rem sh more then r + 1 else r, q, rem != 0 || more)

/-- The bits of a rounded magnitude, or none when it lies beyond the range of `f`. -/
def gridBits (f : Fmt) (neg : Bool) (r : Nat) (q : Int) : Option Nat :=
  if r < 2 ^ f.mb then some (signBit f neg + r)
  else
    let (r, q) := if r = 2 ^ (f.mb + 1) then (r / 2, q + 1) else (r, q)
    let e := (q + f.mb + f.bias).toNat
    let b := e * 2 ^ f.mb + (r - 2 ^ f.mb)
    if b ≤ maxBits f false then some (signBit f neg + b) else none

/-- Whether a rounded magnitude is nonzero and below the smallest normal (tininess after rounding, R265). -/
def tiny (f : Fmt) (r : Nat) : Bool := r != 0 && decide (r < 2 ^ f.mb)

/-- The flags of a rounding: inexact, and underflow when the result is tiny as well. -/
def roundFlags (f : Fmt) (r : Nat) (inexact : Bool) : BitVec 6 :=
  flagIf inexact flNX ||| flagIf (inexact && tiny f r) flUF

/-- An arithmetic result in a format with infinities (R266): RNE, a result that rounds beyond range is an infinity with OF and NX. -/
def arith (f : Fmt) : FVal → Nat × BitVec 6
  | .nan _ => (canonNaN f, 0)
  | .inf n => (infBits f n, 0)
  | .fin neg m e more =>
    let (r, q, nx) := roundGrid f 0 neg m e more
    match gridBits f neg r q with
    | some b => (b, roundFlags f r nx)
    | none => (infBits f neg, flOF ||| flNX)

/-- Conversion of one element to a floating format (Table 11.5): bits, flags, and whether it saturated. -/
def convertF (f : Fmt) (mode : Nat) : FVal → Nat × BitVec 6 × Bool
  | .nan sig => (canonNaN f, flagIf sig flNV, false)
  | .inf n => if f.infs then (infBits f n, 0, false) else (maxBits f n, flSAT, true)
  | .fin neg m e more =>
    let (r, q, nx) := roundGrid f mode neg m e more
    match gridBits f neg r q with
    | some b => (b, roundFlags f r nx, false)
    | none => (maxBits f neg, flSAT ||| flNX, true)

/-- Conversion of one element to an integer format of width `w` (Table 11.5): value, flags, and whether it saturated. -/
def convertI (w : Nat) (uns : Bool) (mode : Nat) : FVal → Int × BitVec 6 × Bool
  | .nan _ => (0, flNV, false)
  | .inf n => (if n then (if uns then 0 else -(2 ^ (w - 1) : Int)) else (if uns then 2 ^ w - 1 else 2 ^ (w - 1) - 1), flSAT, true)
  | .fin neg m e more =>
    let lo : Int := if uns then 0 else -(2 ^ (w - 1))
    let hi : Int := if uns then 2 ^ w - 1 else 2 ^ (w - 1) - 1
    let (r, nx) : Nat × Bool :=
      if 0 ≤ e then (m * 2 ^ e.toNat, more)
      else
        let sh := (-e).toNat
        let r := m / 2 ^ sh
        let rem := m % 2 ^ sh
        (if roundUp mode neg r rem sh more then r + 1 else r, rem != 0 || more)
    let v : Int := if neg then -(Int.ofNat r) else Int.ofNat r
    if v < lo then (lo, flSAT ||| flNX, true)
    else if hi < v then (hi, flSAT ||| flNX, true)
    else (v, flagIf nx flNX, false)

/-- An integer as an exact value. -/
def ofInt (i : Int) : FVal := .fin (decide (i < 0)) i.natAbs 0 false

/-! ### Exact arithmetic -/

/-- Whether a value is a signalling NaN. -/
def isSig : FVal → Bool
  | .nan s => s
  | _ => false

/-- Whether a value is a NaN. -/
def isNaN : FVal → Bool
  | .nan _ => true
  | _ => false

/-- Whether a value is finite. -/
def isFin : FVal → Bool
  | .fin _ _ _ _ => true
  | _ => false

/-- The signed significand of a finite value at exponent `e` (at most its own). -/
def scaled (neg : Bool) (m : Nat) (e' e : Int) : Int :=
  let n := Int.ofNat (m * 2 ^ (e' - e).toNat)
  if neg then -n else n

/-- a + b, exact, with the flags of its creation: NV for a signalling input and for infinities of both signs (R260). An exact zero sum is
+0 unless both addends are -0 (R275). -/
def fadd (a b : FVal) : FVal × BitVec 6 :=
  let sg := flagIf (isSig a || isSig b) flNV
  match a, b with
  | .nan _, _ => (.nan false, sg)
  | _, .nan _ => (.nan false, sg)
  | .inf x, .inf y => if x = y then (.inf x, 0) else (.nan false, flNV)
  | .inf x, _ => (.inf x, 0)
  | _, .inf y => (.inf y, 0)
  | .fin n m e _, .fin n' m' e' _ =>
    let l := min e e'
    let t := scaled n m e l + scaled n' m' e' l
    if t = 0 then (.fin (n && n') 0 l false, 0) else (.fin (decide (t < 0)) t.natAbs l false, 0)

/-- The value with its sign inverted. -/
def fneg : FVal → FVal
  | .nan s => .nan s
  | .inf n => .inf (!n)
  | .fin n m e more => .fin (!n) m e more

/-- a x b, exact. -/
def fmul (a b : FVal) : FVal × BitVec 6 :=
  let sg := flagIf (isSig a || isSig b) flNV
  match a, b with
  | .nan _, _ => (.nan false, sg)
  | _, .nan _ => (.nan false, sg)
  | .inf x, .inf y => (.inf (x != y), 0)
  | .inf x, .fin n m _ _ => if m = 0 then (.nan false, flNV) else (.inf (x != n), 0)
  | .fin n m _ _, .inf y => if m = 0 then (.nan false, flNV) else (.inf (n != y), 0)
  | .fin n m e _, .fin n' m' e' _ => (.fin (n != n') (m * m') (e + e') false, 0)

/-- a x b + c, exact. -/
def ffma (a b c : FVal) : FVal × BitVec 6 :=
  let (p, f1) := fmul a b
  let (r, f2) := fadd p c
  (r, f1 ||| f2 ||| flagIf (isSig c) flNV)

/-- The exact sum of a list, in one go: infinities of both signs give NaN with NV whatever else is there (R300); the sum of -0 only is
-0. -/
def fsum (l : List FVal) : FVal × BitVec 6 :=
  match l with
  | [] => (.fin false 0 0 false, 0)
  | x :: r =>
    let t := r.foldl (fun acc v => let (q, fl) := fadd acc.1 v; (q, acc.2 ||| fl)) (x, flagIf (isSig x) flNV)
    (t.1, t.2 ||| flagIf (l.any (· == .inf false) && l.any (· == .inf true)) flNV)

/-- The order of two non-NaN values: negative, zero or positive as a is less than, equal to or greater than b; zeros are equal. -/
def fcmp (a b : FVal) : Int :=
  match a, b with
  | .inf x, .inf y => if x = y then 0 else if x then -1 else 1
  | .inf x, _ => if x then -1 else 1
  | _, .inf y => if y then 1 else -1
  | .fin n m e _, .fin n' m' e' _ => let l := min e e'; scaled n m e l - scaled n' m' e' l
  | _, _ => 0

/-- a < b, false when either is NaN (IEEE-style). -/
def flt (a b : FVal) : Bool := !isNaN a && !isNaN b && decide (fcmp a b < 0)
/-- a = b, false when either is NaN. -/
def feq (a b : FVal) : Bool := !isNaN a && !isNaN b && decide (fcmp a b = 0)
/-- a ≤ b, false when either is NaN. -/
def fle (a b : FVal) : Bool := flt a b || feq a b

/-- The integer square root, `bit` binary digits from the top. -/
def isqrtFrom (n : Nat) : Nat → Nat → Nat
  | 0, r => r
  | b + 1, r => isqrtFrom n b (if (r + 2 ^ b) * (r + 2 ^ b) ≤ n then r + 2 ^ b else r)

/-- The integer square root of `n`. -/
def isqrt (n : Nat) : Nat := isqrtFrom n (Nat.log2 n / 2 + 1) 0

/-- 1 / a for a nonzero finite a, bracketed to 64 bits. -/
def frecip (neg : Bool) (m : Nat) (e : Int) : FVal :=
  let k := Nat.log2 m + 64
  .fin neg (2 ^ k / m) (-e - Int.ofNat k) (2 ^ k % m != 0)

/-- The square root of a finite value m x 2^e, bracketed to more than 60 bits. -/
def fsqrt (m : Nat) (e : Int) : FVal :=
  let k : Nat := 128 + (if e % 2 = 0 then 0 else 1)
  let n := m * 2 ^ k
  let r := isqrt n
  .fin false r ((e - Int.ofNat k) / 2) (r * r != n)

/-- 1 / sqrt(a) for a positive finite a, bracketed: the root of the exact reciprocal's floor has the same integer part. -/
def frsqrt (m : Nat) (e : Int) : FVal :=
  let e0 : Int := -e
  let k : Nat := 2 * (Nat.log2 m) + 140
  let k := if (e0 - Int.ofNat k) % 2 = 0 then k else k + 1
  let n := 2 ^ k / m
  let r := isqrt n
  .fin false r ((e0 - Int.ofNat k) / 2) (r * r * m != 2 ^ k)

/-! ### FP32 lanes -/

/-- The value of an FP32 lane. -/
def f32 (b : Elem) : FVal := fdecode fp32 b.toNat

/-- An FP32 lane from bits. -/
def elem (n : Nat) : Elem := BitVec.ofNat 32 n

/-- Round an exact result with the flags of its creation to an FP32 lane. -/
def toF32 (r : FVal × BitVec 6) : Elem × BitVec 6 :=
  let (b, fl) := arith fp32 r.1
  (elem b, r.2 ||| fl)

/-- RoundRNE(a + b, FP32). -/
def add32 (a b : Elem) : Elem × BitVec 6 := toF32 (fadd (f32 a) (f32 b))

/-- The canonical NaN of FP32. -/
def nan32 : Elem := 0x7FC00000

/-- The value of element bits `b` in layout or conversion format code `f` of Table 1.7, for float formats. -/
def floatFmt (f : Nat) : Option Fmt :=
  match f with
  | 0 => some fp32 | 1 => some bf16 | 2 => some fp16 | 3 => some e4m3 | 4 => some e5m2 | _ => none

/-- A value rounded RNE to a format and read back, as the feedback reads of tiles do (Table 11.4): value, flags, saturated. -/
def reread (f : Fmt) (v : FVal) : FVal × BitVec 6 × Bool :=
  let (b, fl, sat) := convertF f 0 v
  (fdecode f b, fl, sat)

end Sys2Proof.Machine
end

