-- ==== Sys2Proof/Machine/Flags.lean ====
section
/-! DEFINITION. Flags and counts: SetFlag and CountOvf of R6 into the activation's shadow, and FLG and OVFC as the activation sees them
(R226, R268). -/

namespace Sys2Proof.Machine

/-- Raise flags in the moving slot's shadow: each joins the raised set and leaves the cleared set (R226). -/
def raiseFlags (s : State) (fl : BitVec 6) : State :=
  onSlot s fun l => { l with shadow := { l.shadow with raised := l.shadow.raised ||| fl, cleared := l.shadow.cleared &&& ~~~fl } }

/-- Clear flags in the shadow. -/
def clearFlags (s : State) (fl : BitVec 6) : State :=
  onSlot s fun l => { l with shadow := { l.shadow with raised := l.shadow.raised &&& ~~~fl, cleared := l.shadow.cleared ||| fl } }

/-- CountOvf(t), `n` times: increments in the shadow, which hold where the count would pass 0xFFFF_FFFF (R6, R226). -/
def countOvf (s : State) (t n : Nat) : State :=
  onSlot s fun l =>
    let e := l.shadow.ovf[t]?.getD (none, 0)
    { l with shadow := { l.shadow with ovf := l.shadow.ovf.setIfInBounds t (e.1, min (e.2 + n) 0xFFFFFFFF) } }

/-- The virtual PE state of the moving slot's activation. -/
def State.myVpe (s : State) : Vpe :=
  match s.cur, s.me.act with
  | .slot c _, some a => (((s.cell c).ctx.bind s.ctx).map fun x => x.vpe a.vpe).getD Vpe.reset
  | _, _ => Vpe.reset

/-- FLG as the activation sees it: (committed and not cleared) or raised (R226). -/
def viewFlg (s : State) : BitVec 6 := (s.myVpe.flg &&& ~~~s.me.shadow.cleared) ||| s.me.shadow.raised

/-- OVFCt as the activation sees it (R226). -/
def viewOvfc (s : State) (t : Nat) : BitVec 32 :=
  match s.cur with
  | .slot c k =>
    let e := (s.slot c k).shadow.ovf[t]?.getD (none, 0)
    let base := e.1.getD ((s.cell c).ovfc[t]?.getD 0)
    BitVec.ofNat 32 (min (base.toNat + e.2) 0xFFFFFFFF)
  | _ => 0

/-- Record a written value of OVFCt and zero its increments (R226). -/
def writeOvfc (s : State) (t : Nat) (v : BitVec 32) : State :=
  onSlot s fun l => { l with shadow := { l.shadow with ovf := l.shadow.ovf.setIfInBounds t (some v, 0) } }

end Sys2Proof.Machine
end

