-- ==== Sys2Proof/Machine/Operands.lean ====
section
/-! DEFINITION. Operand forms: orefs and their check (R7 to R15), layouts and coordinates (R21 to R26), page tables and the checks of a
frame (R134 to R142), watch filters and comparators (R157 to R160), the wait field (R49), posted stores (R46), and performing an access
at its place. Every kind of agent uses the same operations through its `View`. -/

namespace Sys2Proof.Machine

/-! ### Who resolves a reference -/

/-- In whose terms an oref is resolved (R7, R107): the context, and for slots 0 to 16 the cell with the hosted ordinal of the virtual PE;
a stolen activation has no named regions (R182). `table`: descriptors are read
in the context's table, not through a cell's descriptor cache. -/
structure View where
  ctx : Option Nat
  cell : Option Nat
  hord : Nat
  regions : Bool
  table : Bool
  deriving DecidableEq, Repr

/-- The view of an agent. -/
def viewOf (s : State) : Agent → View
  | .slot c k =>
    match (s.slot c k).act with
    | some a => ⟨(s.cell c).ctx, some c, a.hord, !a.stolen, false⟩
    | none => ⟨(s.cell c).ctx, some c, 0, false, false⟩
  | .dfc d => ⟨(s.dfc d).ctx, none, 0, false, true⟩
  | .queue q => ⟨some (s.queue q).ctx, none, 0, false, true⟩
  | _ => ⟨none, none, 0, false, true⟩

/-- The grid capsule of a context (R166). -/
def gridCapsule (s : State) (x : Context) : Option Capsule := s.caps.find x.grid

/-- The place of named region `n` in a virtual PE's span: its offset from the span's start and its length; declared regions stand in
manifest order, each at a multiple of 768 (R10; DEDUCED, log entry 10). -/
def regionAt : List (Nat × Nat) → Nat → Nat → Option (Nat × Nat)
  | [], _, _ => none
  | (i, len) :: r, n, at' => if i = n then some (at', len) else regionAt r n (at' + (len + 767) / 768 * 768)

/-- Where a reference leads. -/
inductive Home where
  | scratch (c : Nat) | accum (c : Nat) | vault (g : Nat) | paged (home : Nat) | window (d : Nat) | remote | nowhere
  deriving DecidableEq, Repr

/-- A resolved reference: home, base within it, length, rights (bits R 0, W 1, X 2, A 3, S 4), object slot, offset, and for slots 32 and
above the descriptor. -/
structure Target where
  home : Home
  base : Nat
  len : Nat
  rights : Nat
  slot : Nat
  off : Nat
  desc : Desc
  deriving DecidableEq, Repr

/-- Whether a descriptor counts as empty: V = 0, or HOME 110 or 111 (R13). -/
def emptyDesc (d : Desc) : Bool := !bit d.w0 63 || decide (bits d.w0 57 3 ≥ 6)

/-- The descriptor of a slot: the cell's cached copy, else the context's table (R16) (DEDUCED, log entry 33). -/
def lookupDesc (s : State) (v : View) (slot : Nat) : Desc :=
  let table := match v.ctx.bind s.ctx with
    | some x => x.objs.getD slot Desc.zero
    | none => Desc.zero
  match if v.table then none else v.cell with
  | some c => (((s.cell c).dcache.find? fun p => p.1 = slot).map (·.2)).getD table
  | none => table

/-- A reference from a cell whose descriptor cache holds no entry of the object slot: the access waits for it (R16). -/
def cacheMiss (s : State) (v : View) (slot : Nat) : Bool :=
  match if v.table then none else v.cell with
  | some c => decide (32 ≤ slot) && !((s.cell c).dcache.any fun p => p.1 == slot)
  | none => false

/-- The home a descriptor names, and the base in it (R12, Table 1.4, R105; DESIGN CHOICE, log entry 6). HOME 110, which a context's table cannot use, stands for
a cell's accumulator region in a write that an engine hart has made (R107). -/
def homeOf (d : Desc) : Home × Nat :=
  match bits d.w0 57 3 with
  | 0 => if bit d.ptr 63 then (.window (bits d.ptr 0 2), 0) else (.scratch (bits d.ptr 18 12), bits d.ptr 0 18)
  | 1 => (.vault (bits d.ptr 24 9), bits d.ptr 0 24)
  | 5 => (.remote, 0)
  | 6 => (.accum (bits d.ptr 18 12), 0)
  | h => (.paged h, 0)

/-- Resolve an oref to its length, rights and home (R15 steps 1 and 2; Table 1.2). -/
def resolve (s : State) (v : View) (o : Word) : Except Halt Target :=
  let slot := bits o 52 12
  let off := bits o 0 52
  if slot < 16 then
    match v.cell, v.ctx.bind s.ctx with
    | some c, some x =>
      match (gridCapsule s x).bind fun g => regionAt g.regions slot 0 with
      | some (a, len) =>
        if v.regions then .ok ⟨.scratch c, v.hord * x.fold.n + a, len, 11, slot, off, Desc.zero⟩
        else .ok ⟨.nowhere, 0, 0, 11, slot, off, Desc.zero⟩
      | none => .ok ⟨.nowhere, 0, 0, 11, slot, off, Desc.zero⟩
    | _, _ => .ok ⟨.nowhere, 0, 0, 11, slot, off, Desc.zero⟩
  else if slot = 16 then
    match v.cell with
    | some c => .ok ⟨.accum c, 0, Config.accBytes, 3, slot, off, Desc.zero⟩
    | none => .ok ⟨.nowhere, 0, 0, 3, slot, off, Desc.zero⟩
  else if slot < 32 then .error (.trap 2 o 0 0 false)
  else if cacheMiss s v slot then .error (.wait (.descriptor slot))
  else
    let d := lookupDesc s v slot
    if emptyDesc d then .ok ⟨.nowhere, 0, 0, 0, slot, off, d⟩
    else
      let (h, b) := homeOf d
      .ok ⟨h, b, bits d.w0 0 52, bits d.w0 52 5, slot, off, d⟩

/-- A hit makes its entry the most recently used of the cell's descriptor cache (R16). -/
def useDesc (s : State) (v : View) (t : Target) : State :=
  match if v.table then none else v.cell with
  | some c =>
    match (s.cell c).dcache.find? fun p => p.1 = t.slot with
    | some e => s.setCell c { s.cell c with dcache := e :: (s.cell c).dcache.filter fun p => p.1 ≠ t.slot }
    | none => s
  | none => s

/-- CheckRef(o, n, rts) (R15): slot, bounds, rights, in this order. `rts` has the bits of `Target.rights`; `coord` and `acc` go into the
fault CSRs, and of an access past the end the first byte past it (R144). -/
def checkRef (s : State) (v : View) (o : Word) (n rts acc : Nat) (coord : Word := 0) : Except Halt Target :=
  match resolve s v o with
  | .error (.wait w) => .error (.wait w)
  | .error _ => .error (.trap 2 o coord acc false)
  | .ok t =>
    if t.off + n > t.len then .error (.trap 3 (word (t.slot * 2 ^ 52 + max t.off t.len)) coord acc false)
    else if t.rights &&& rts ≠ rts then .error (.trap 4 o coord acc false)
    else .ok t

/-- Whether an access is local to the issuing cell (R28). -/
def isLocal (v : View) (t : Target) : Bool :=
  match t.home with
  | .scratch c => v.cell == some c
  | .accum c => v.cell == some c
  | _ => false

/-- PostClass (Table 2.1, R28): 0 V, 1 M, 2 N. -/
def postClass (t : Target) : Nat :=
  match t.home with
  | .vault _ => 0
  | .paged 4 => 2
  | .paged _ => 1
  | _ => 2

/-- The engine-window rule (R105): the only accesses permitted are an aligned 8-byte store to KICK and an aligned 8-byte load of STAT
or HINFO. -/
def windowRule (t : Target) (n : Nat) (store : Bool) : Bool :=
  match t.home with
  | .window _ =>
    n == 8 && (if store then t.off % 64 == 0 else t.off % 64 == 8 || t.off % 64 == 16)
  | _ => true

/-! ### The checks of a frame -/

/-- Whether a physical address lies in the range of a home (R135, Table 6.1). -/
def inHome (home a : Nat) : Bool :=
  match home with
  | 2 => decide (a < 0xC000000000)
  | 3 => decide (0x100000000000 ≤ a ∧ a < 0x140000000000)
  | 4 => decide (0x800000000000 ≤ a ∧ a < 2 ^ 48)
  | _ => false

/-- Whether the bytes from `a` to `e` lie in ranges, taken one after the other. -/
def covered (parts : List (Nat × Nat)) (e : Nat) : Nat → Nat → Bool
  | 0, a => decide (e ≤ a)
  | n + 1, a =>
    decide (e ≤ a) || match parts.find? fun p => decide (p.1 ≤ a ∧ a < p.2) with
      | some p => covered parts e n p.2
      | none => false

/-- Whether every byte of an access lies in the ranges of a partition map (R140). -/
def inPartition (parts : List (Nat × Nat)) (a n : Nat) : Bool := covered parts (a + n) parts.length a

/-- The partition map of a context: the ranges granted to it and those added for shared objects (R140). -/
def Context.ranges (x : Context) : List (Nat × Nat) := x.parts ++ x.shared

/-- A located access: the keys of its bytes in order, the leaf entries it used, whether it is watched, and the key of the context's key set
under which it reads and writes (R44). -/
structure Located where
  keys : List Nat
  leaves : List Nat
  watched : Bool
  key : Option Nat
  deriving DecidableEq, Repr

/-- How a walk ended an access: absent (kind, level, offset), or refused by the frame checks of R140 (offset). -/
inductive NoPage where
  | absent (kind lvl off : Nat)
  | refused (off : Nat)
  deriving DecidableEq, Repr

/-- Locate `n` bytes from offset `off` of a paged object, one 64 KiB piece after the other; `fuel` bounds the pieces. -/
def locatePaged (s : State) (parts : List (Nat × Nat)) (home : Nat) (d : Desc) (blockMig : Bool) : Nat → Nat → Nat → Except NoPage Located
  | 0, _, _ => .ok ⟨[], [], false, none⟩
  | fuel + 1, off, n =>
    if n = 0 then .ok ⟨[], [], false, none⟩
    else
      let m := min n (2 ^ 16 - off % 2 ^ 16)
      match walk s.mem d off with
      | .absent kind lvl => .error (.absent kind lvl off)
      | .page phys leafAt lvl leaf =>
        if blockMig && bit leaf 7 then .error (.absent 1 lvl off)
        else if !(inHome home phys && inPartition parts phys m) then .error (.refused off)
        else
          match locatePaged s parts home d blockMig fuel (off + m) (n - m) with
          | .error e => .error e
          | .ok r => .ok ⟨span phys m ++ r.keys, leafAt :: r.leaves, bit leaf 2 || r.watched, none⟩

/-- The descriptor that the OTU translates under: entry SLOT of the context's object table, from which it takes PTR and LEN; while that entry is
empty or names another home, the one under which the access was checked (R136) (DEDUCED, log entry 67). -/
def otuDesc (x : Option Context) (t : Target) : Desc :=
  match x.bind fun x => x.objs.find t.slot with
  | some d => if emptyDesc d || bits d.w0 57 3 != bits t.desc.w0 57 3 then t.desc else d
  | none => t.desc

/-- Locate an access of `n` bytes at a resolved reference; `blockMig`: a write or atomic, which a migrating page turns away (R155). A detached context reaches no
host memory: its access waits as for a migrating page (R398; DESIGN CHOICE, log entry 61). -/
def locate (s : State) (v : View) (t : Target) (n : Nat) (blockMig : Bool) : Except NoPage Located :=
  match t.home with
  | .scratch c => .ok ⟨span (scratchKey c (t.base + t.off)) n, [], false, none⟩
  | .accum c => .ok ⟨span (accKey c t.off) n, [], false, none⟩
  | .vault g => .ok ⟨span (vaultKey g (t.base + t.off)) n, [], false, none⟩
  | .paged h =>
    let x := v.ctx.bind s.ctx
    let d := otuDesc x t
    if h = 4 && x.any fun x => x.detached then .error (.absent 1 0 t.off) else
    (locatePaged s ((x.map Context.ranges).getD []) h d blockMig (n / 2 ^ 16 + 2) t.off n).map fun l =>
      { l with key := x.bind fun x => keyOf x d }
  | _ => .ok ⟨[], [], false, none⟩

/-- The bytes of a located access. -/
def State.bytesAt (s : State) (l : Located) : List Byte := s.bytesUnder l.key l.keys

/-- The halt of a load, atomic or operand read that found no page (R143, R140). -/
def noPageHalt (v : View) (t : Target) (o coord : Word) (acc : Nat) : NoPage → Halt
  | .absent kind lvl off =>
    .park 5 kind acc (o + word (off - t.off)) coord (some (v.ctx.getD 0, t.slot, off)) lvl true
  | .refused off => .trap 4 (o + word (off - t.off)) coord acc true

/-! ### Watch filters and comparators -/

/-- The enabled filters that an access to a watched page hits (R157). -/
def filterHits (s : State) (ctx slot off n : Nat) (rd wr : Bool) : List Nat :=
  (s.filters.filter fun p =>
    let w (i : Nat) : Word := p.2.getD i 0
    bit (w 0) 63 && ((rd && bit (w 0) 62) || (wr && bit (w 0) 61)) && bits (w 0) 40 10 == ctx && bits (w 0) 28 12 == slot
      && decide (off ≤ bits (w 2) 0 52 ∧ bits (w 1) 0 52 < off + n)).map (·.1)

/-- Send the watch-hit records of an access: filter, context, slot, offset, access kind (Table 6.7), agent as a fault record names it, TIME (R158; the
spec gives the record no layout: DESIGN CHOICE, log entry 59). -/
def watchRecords (s : State) (hits : List Nat) (ctx slot off acc : Nat) (a : Agent) : State :=
  let (agt, aid) := agentField a
  { s with watch := s.watch ++ hits.map fun f =>
      [word f, word ctx, word slot, word off, word acc, word (fields [(14, aid), (2, agt)]), s.time] }

/-- The activation of the moving slot, if any. -/
def State.activation (s : State) : Option Activation := s.me.act

/-- Whether a hit of the moving slot stops it at once: its activation still runs, debug stops are enabled, PRECISE is 1 and the handler is replayable (R158,
R160). -/
def State.stopsAtOnce (s : State) : Bool := isActive s.me.status && s.activation.any fun a => stopEnabled a && precise a

/-- How far past offset `off` the first byte lies that one of the filters covers (R144). -/
def filterAt (s : State) (hits : List Nat) (off : Nat) : Nat :=
  ((hits.map fun f => bits ((s.filters.getD f []).getD 1 0) 0 52 - off).min?).getD 0

/-- What an access of the moving slot that hits filters leaves beside itself: the records, and a stop asked for when stops are enabled (R158). -/
def filterNote (s : State) (hits : List Nat) (ctx slot off acc : Nat) : State :=
  if hits.isEmpty then s else noteHit (watchRecords s hits ctx slot off acc s.cur) 1

/-- The effect of a watch-filter hit of the moving slot on the state `t` that its access leaves: the record, and when stops are enabled either the
abort with 0x0E, which the access precedes, or a stop at the activation's end (R158). -/
def filterEffect (s : State) (hits : List Nat) (ctx slot off : Nat) (o coord : Word) (acc : Nat) (t : State) : Except Halt State :=
  let t := filterNote t hits ctx slot off acc
  if !hits.isEmpty && s.stopsAtOnce then .error (.after t (.stop 1 (o + word (filterAt s hits off)) coord acc)) else .ok t

/-- Whether WCMP0 of a cell matches an access to scratchpad bytes `a` to `a + n - 1` (Table 6.13). -/
def scratchMatch (s : State) (c a n : Nat) (rd wr : Bool) : Bool :=
  let w := (s.cell c).wcmp[0]?.getD 0
  bit w 63 && ((rd && bit w 62) || (wr && bit w 61)) && decide (a ≤ bits w 0 18 ∧ bits w 36 18 < a + n)

/-- How far past the start of an access at scratchpad byte `a` the first byte lies that WCMP0 covers (R144). -/
def scratchAt (s : State) (c a : Nat) : Nat := bits ((s.cell c).wcmp[0]?.getD 0) 36 18 - a

/-- Whether WCMP1 of a cell matches rows `lo` to `hi` of tile `t`. -/
def tileMatch (s : State) (c t lo hi : Nat) (rd wr : Bool) : Bool :=
  let w := (s.cell c).wcmp[1]?.getD 0
  bit w 63 && ((rd && bit w 62) || (wr && bit w 61)) && bits w 10 3 == t && decide (lo ≤ bits w 0 5 ∧ bits w 5 5 ≤ hi)

/-- Whether the comparators of the own cell match an access at a local place (R160). -/
def localMatch (s : State) (t : Target) (n : Nat) (rd wr : Bool) : Bool :=
  match t.home with
  | .scratch c => scratchMatch s c (t.base + t.off) n rd wr
  | .accum c =>
    (List.range ((t.off + n - 1) / 128 - t.off / 128 + 1)).any fun i =>
      let row := t.off / 128 + i
      tileMatch s c (row / 32) (row % 32) (row % 32) rd wr
  | _ => false

/-- The comparator that a local place belongs to, and how far past the start of the access the first byte lies that it covers (R144, R160). -/
def localAt (s : State) (t : Target) : Nat × Nat :=
  match t.home with
  | .scratch c => (0, scratchAt s c (t.base + t.off))
  | .accum c => (1, 4096 * bits ((s.cell c).wcmp[1]?.getD 0) 10 3 + 128 * bits ((s.cell c).wcmp[1]?.getD 0) 5 5 - t.off)
  | _ => (0, 0)

/-- A hit of comparator `n` of cell `c` recorded, with the activation of a slot when it has one (R160, R408; DESIGN CHOICE, log entry 50). -/
def recordHit (s : State) (c n : Nat) (k : Option Nat) : State :=
  let msg := ((k.bind fun k => (s.slot c k).act).map msgId).getD 0
  s.setCell c { s.cell c with hits := (s.cell c).hits ++ [[word n, word ((s.cell c).ctx.getD 0), word (k.getD 4), msg, s.time]] }

/-- A match of comparator `n` before the instruction performs: the hit is recorded; while stops are enabled, in precise mode with a replayable handler the
instruction does not perform and raises 0x0E, otherwise a stop is asked for (R160). -/
def comparator (s : State) (hit : Bool) (n : Nat) (o : Word) (acc : Nat) (coord : Word := 0) : Except Halt State :=
  match s.cur with
  | .slot c k =>
    if !hit || s.activation.isNone then .ok s
    else
      let t := recordHit s c n (some k)
      if s.stopsAtOnce then .error (.after t (.stop 2 o coord acc)) else .ok (noteHit t 2)
  | _ => .ok s

/-- The comparators of the own cell before an access to a local place (R160). -/
def localGate (s : State) (t : Target) (n : Nat) (rd wr : Bool) (o : Word) (acc : Nat) (coord : Word := 0) : Except Halt State :=
  comparator s (localMatch s t n rd wr) (localAt s t).1 (o + word (localAt s t).2) acc coord

/-- WCMP2: the instruction writes register `n` of `file` (0 scalar, 1 vector). -/
def registerMatch (s : State) (file n : Nat) : Bool :=
  match s.cur with
  | .slot c _ =>
    let w := (s.cell c).wcmp[2]?.getD 0
    bit w 63 && bits w 5 2 == file && bits w 0 5 == n && (file == 0 || n < 16)
  | _ => false

/-- WCMP3: a pop or a push of queue register `q` of cell `c`. -/
def queueMatch (s : State) (c q : Nat) (pop push : Bool) : Bool :=
  let w := (s.cell c).wcmp[3]?.getD 0
  bit w 63 && ((pop && bit w 62) || (push && bit w 61)) && bits w 0 3 == q

/-! ### Waits -/

/-- The counter of a post class of the moving agent (R46). -/
def counter (s : State) (cls : Nat) : Nat :=
  match s.cur with
  | .slot c k => let l := s.slot c k; if cls = 0 then l.pcv else if cls = 1 then l.pcm else l.pcn
  | .dfc d => let x := s.dfc d; if cls = 0 then x.pcv else if cls = 1 then x.pcm else x.pcn
  | _ => 0

/-- Formula (2.2): the wait that W names (R49). -/
def waitField (s : State) (w : BitVec 2) : Except Halt Unit :=
  match w.toNat with
  | 0 => .ok ()
  | n => need (counter s (n - 1) == 0) (.wait .counter)

/-- Add `d` to a counter of an agent: `up` counts a store posted, otherwise one performed. -/
def bump (s : State) (a : Agent) (cls : Nat) (up : Bool) : State :=
  let g (n : Nat) := if up then n + 1 else n - 1
  match a with
  | .slot c k =>
    let l := s.slot c k
    s.setSlot c k (if cls = 0 then { l with pcv := g l.pcv } else if cls = 1 then { l with pcm := g l.pcm } else { l with pcn := g l.pcn })
  | .dfc d =>
    let x := s.dfc d
    s.setDfc d (if cls = 0 then { x with pcv := g x.pcv } else if cls = 1 then { x with pcm := g x.pcm } else { x with pcn := g x.pcn })
  | _ => s

/-- The index under which an agent's fence epoch is kept. -/
def agentIndex : Agent → Nat
  | .idle => 0 | .slot c k => 1 + 4 * c + k | .dfc d => 20000 + d | .queue q => 30000 + q | .hart d h => 40000 + 28 * d + h
  | .host f => 50000 + f | .remote d => 60000 + d

/-- Writes of the moving agent that have left and are not performed. -/
def outstanding (s : State) : List Posted := (s.posted ++ s.held).filter fun p => p.agent == s.cur

/-- The key under which the epoch that later reads wait for is kept (DESIGN CHOICE, log entry 12). -/
def readFence (a : Agent) : Nat := 100000 + agentIndex a

/-- The key under which the epoch that later writes wait for is kept (R77; DESIGN CHOICE, log entry 12). -/
def writeFence (a : Agent) : Nat := 200000 + agentIndex a

/-- A read waits for the writes that a FENCE puts before it (R244; DESIGN CHOICE, log entry 12). -/
def readFenced (s : State) : Bool := (outstanding s).any fun p => decide (p.epoch < s.epochs.getD (readFence s.cur) 0)

/-- A write that performs at once waits for the writes that a FENCE, or its own release annotation, puts before it (R244, R70; log
entry 12). -/
def writeFenced (s : State) (rel : Bool) : Bool :=
  (outstanding s).any fun p => rel || decide (p.epoch < s.epochs.getD (writeFence s.cur) 0)

/-- An acquire waits for the releases of its agent that have left before it (Table 3.7, R85). -/
def acquireHeld (s : State) (acq : Bool) : Bool := acq && (outstanding s).any fun p => p.rel

/-- Post a write of the moving agent: it leaves for its destination and is counted (R46). -/
def post (s : State) (v : View) (t : Target) (eff : Effect) (rel : Bool) (acc : Nat) : State :=
  let cls := postClass t
  let p : Posted :=
    { agent := s.cur, ctx := v.ctx.getD 0, ser := (s.activation.map fun a => a.serial).getD 0, cls, desc := t.desc, eff, rel
      epoch := s.epochs.getD (agentIndex s.cur) 0, acc, counted := true, mark := false, floor := s.epochs.getD (writeFence s.cur) 0
      vpe := (s.activation.map fun a => a.vpe).getD 0, stolen := (s.activation.map fun a => a.stolen).getD false, area := false, behind := [] }
  bump { s with posted := s.posted ++ [p] } s.cur cls true

/-- A remote store stalls while its counter stands at 4 095 (R46). -/
def postRoom (s : State) (t : Target) : Except Halt Unit := need (decide (counter s (postClass t) < 4095)) (.wait .counter)

/-- The number of bytes an element of `len` bits lies in. -/
def elemBytes (len : Nat) : Nat := max 1 (len / 8)

/-- The byte ranges (oref, length) that a write touches. -/
def effectRefs : Effect → List (Word × Nat)
  | .bytes o b _ => [(o, b.length)]
  | .pieces l _ => l.map fun p => (p.o, elemBytes p.len)
  | .layout _ _ => []
  | .kick _ _ _ => []

/-- What an offset is counted in: an object slot, or for HOME 101 the remote object that the descriptor names (R19, R46). -/
def objectOf (d : Desc) (slot : Nat) : Nat × Nat := if bits d.w0 57 3 = 5 then (1, bits d.ptr 0 31) else (0, slot)

/-- Whether an earlier posted store of an agent touches bytes `[off, off + n)` of an object, so that a later access waits (R46). -/
def overlaps (ps : List Posted) (a : Agent) (d : Desc) (slot off n : Nat) : Bool :=
  ps.any fun p => p.agent == a && (effectRefs p.eff).any fun e =>
    objectOf p.desc (bits e.1 52 12) == objectOf d slot && decide (bits e.1 0 52 < off + n ∧ off < bits e.1 0 52 + e.2)

/-- The rank whose vault a descriptor names (R40). -/
def vaultOf (d : Desc) : Option Nat := if bits d.w0 57 3 = 1 then some (bits d.ptr 24 9) else none

/-- Whether a write of the agent to the same vault is still on its way: the lateral network delivers an agent's accesses to one vault in order
(R41). -/
def vaultBusy (s : State) (a : Agent) (t : Target) : Bool :=
  match t.home with
  | .vault g => s.posted.any fun p => p.agent == a && vaultOf p.desc == some g && !(effectRefs p.eff).isEmpty
  | _ => false

/-- The keys of the bytes that a write touches, under the descriptor it was checked with; those it cannot locate are left out. -/
def effectKeys (s : State) (p : Posted) : List Nat :=
  let v : View := ⟨some p.ctx, none, 0, false, true⟩
  (effectRefs p.eff).flatMap fun e =>
    match resolve s v e.1 with
    | .ok t =>
      let (h, b) := homeOf p.desc
      match locate s v { t with home := h, base := b, desc := p.desc } e.2 false with
      | .ok l => l.keys
      | .error _ => []
    | .error _ => []

/-- Whether a write of the agent that has left touches one of these bytes, through whatever object (R46; DEDUCED, log entry 11). -/
def mayOverlap (s : State) (a : Agent) (ks : List Nat) : Bool :=
  (s.posted ++ s.held).any fun p => p.agent == a && (effectKeys s p).any ks.contains

/-! ### The order of slots (R176) -/

/-- The key by which slots are ordered (R176): slots whose age in clk exceeds AGEL oldest first, then by role, age, channel and hosted ordinal. -/
def slotKey (s : State) (c k : Nat) : List Nat :=
  let l := s.slot c k
  match l.act with
  | none => [2]
  | some a =>
    if max 64 (s.cell c).agel.toNat < l.age then [0, 2 ^ 64 - l.age, a.ch, a.hord]
    else [1, a.h.role.toNat, 2 ^ 64 - l.age, a.ch, a.hord]

/-- The least of a list under a key. -/
def leastBy (key : Nat → List Nat) : List Nat → Option Nat
  | [] => none
  | k :: r =>
    match leastBy key r with
    | none => some k
    | some j => some (if key j < key k then j else k)

/-- Whether no slot that comes before slot `k` in slot order waits on one of the granules and finds all it waits for full: of several full/empty
accesses that a fill makes ready, the bank serves that one first (R35). -/
def servedFirst (s : State) (c k : Nat) (gs : List Nat) : Bool :=
  (List.range 4).all fun j =>
    match (s.slot c j).status, (s.slot c j).wait with
    | .free, _ => true
    | .parked _ _ _, _ => true
    | _, .fullEmpty ws => j == k || !(ws.any gs.contains) || !(ws.all s.full.has) || !decide (slotKey s c j < slotKey s c k)
    | _, _ => true

/-- Whether the moving slot's full/empty access is served first. -/
def myTurn (s : State) (gs : List Nat) : Bool :=
  match s.cur with
  | .slot c k => servedFirst s c k gs
  | _ => true

/-! ### Layouts -/

/-- Words of a layout entry (R21): word `i` is bits [64 i + 63 : 64 i]. -/
def layWord (e : Vec) (i : Nat) : Word := e.extractLsb' (64 * i) 64

/-- The element format of a layout entry. -/
def layFmt (e : Vec) : Nat := bits (layWord e 7) 0 5

/-- The width in bits of a layout element format (Table 1.7); 0 for a reserved code. -/
def fmtWidth (f : Nat) : Nat :=
  match f with
  | 0x00 => 32 | 0x01 => 16 | 0x02 => 16 | 0x03 => 8 | 0x04 => 8 | 0x05 => 8 | 0x06 => 8 | 0x07 => 4 | 0x08 => 4
  | 0x09 => 2 | 0x0A => 2 | 0x0B => 4 | 0x0C => 4 | 0x0D => 4 | 0x0E => 4 | 0x0F => 16 | 0x10 => 32 | 0x11 => 64 | 0x12 => 8
  | _ => 0

/-- EXTd of a layout entry; a dimension at or above NDIM + 1 has extent 1 (R24). -/
def layExt (e : Vec) (d : Nat) : Nat :=
  if d > bits (layWord e 7) 5 2 then 1
  else match d with
    | 0 => bits (layWord e 1) 0 32 | 1 => bits (layWord e 1) 32 32 | 2 => bits (layWord e 2) 0 32 | _ => bits (layWord e 2) 32 32

/-- STRd of a layout entry, signed (R21); not read above NDIM. -/
def layStr (e : Vec) (d : Nat) : Int :=
  if d > bits (layWord e 7) 5 2 then 0 else signed (bits (layWord e (3 + d)) 0 40) 40

/-- Coordinate `d` of a coordinate register (R24). -/
def coordOf (c : Word) (d : Nat) : Nat := bits c (16 * d) 16

/-- The four coordinates of a coordinate register. -/
def coords (c : Word) : List Int := [coordOf c 0, coordOf c 1, coordOf c 2, coordOf c 3]

/-- Coordinates packed as in R24, for FCOORD. -/
def packCoords (c : List Int) : Word :=
  word (fields ((List.range 4).map fun d => (16, (c.getD d 0).toNat)))

/-- The home code of a BASE (R23): 0 SCR, 6 ACC, or the descriptor's HOME; none for an empty descriptor. -/
def baseHome (s : State) (v : View) (slot : Nat) : Option Nat :=
  if slot < 16 then some 0
  else if slot = 16 then some 6
  else
    let d := lookupDesc s v slot
    if emptyDesc d then none else some (bits d.w0 57 3)

/-- Steps 1 to 3 of R25: the entry itself is usable. -/
def layoutUsable (s : State) (v : View) (e : Vec) : Bool :=
  let w7 := layWord e 7
  let base := layWord e 0
  let rsv := bits (layWord e 3) 40 24 == 0 && bits (layWord e 4) 40 24 == 0 && bits (layWord e 5) 40 24 == 0
    && bits (layWord e 6) 40 24 == 0 && bits w7 18 46 == 0 && bits w7 14 2 == 0
  let space := bits w7 11 3
  let bperm := bits w7 7 4
  let slot := bits base 52 12
  bit w7 16 && fmtWidth (layFmt e) != 0 && decide (bperm < 13) && rsv
    && (bperm == 0 || (space == 0 && bits base 0 52 % 768 == 0))
    && !(decide (17 ≤ slot) && decide (slot < 32))
    && (space == 7 || baseHome s v slot == some space)

/-- Formula (1.2): bank permutation of byte offset `a` (R26). -/
def bankPermute (a bperm : Nat) : Nat :=
  let g := a / 16
  let row := g / 48
  (row * 48 + (g % 48 + row * bperm) % 48) * 16 + a % 16

/-- Steps 4 to 7 of R25 for exact coordinates: the oref and the bit position, or a bounds trap. `skip` names dimensions whose extent the
caller has tested itself. -/
def layoutElem (e : Vec) (c : List Int) : Option (Word × Nat) :=
  if (List.range 4).any fun d => decide (c.getD d 0 < 0) || decide (Int.ofNat (layExt e d) ≤ c.getD d 0) then none
  else
    let el := (List.range 4).foldl (fun (n : Int) d => n + c.getD d 0 * layStr e d) 0
    let b := el * Int.ofNat (fmtWidth (layFmt e))
    let a := b / 8
    if a < 0 then none
    else
      let bp := bits (layWord e 7) 7 4
      let a' := if bp = 0 then a.toNat else bankPermute a.toNat bp
      let off := bits (layWord e 0) 0 52 + a'
      if off ≥ 2 ^ 52 then none
      else some (word (bits (layWord e 0) 52 12 * 2 ^ 52 + off), (b % 8).toNat)

/-- The layout entry `l` of a context (R27: one read when the operation starts). -/
def layoutEntry (s : State) (v : View) (l : Nat) : Vec :=
  match v.ctx.bind s.ctx with
  | some x => x.lays.getD l 0
  | none => 0

/-- Whether a LAYW of the moving agent to entry `l` has left and is not performed: a later read of the entry must not pass it (R73). -/
def layoutPosted (s : State) (l : Nat) : Bool :=
  (outstanding s).any fun p => match p.eff with
    | .layout n _ => n == l
    | _ => false

/-- Layout entry `l` for a form of the moving agent: the copy read when the access began, else the entry, once its own LAYW has performed (R27, R73). -/
def myLayout (s : State) (v : View) (l : Nat) : Except Halt Vec :=
  match s.me.keptLay with
  | some e => .ok e
  | none => do
    need (!layoutPosted s l) (.wait .counter)
    .ok (layoutEntry s v l)

/-- An access that has begun and waits keeps the layout entry it has read (R27). -/
def holding (s : State) (e : Vec) (r : Except Halt State) : Except Halt State :=
  match r with
  | .error (.wait w) => .error (.after (onSlot s fun l => l.keepLay (some e)) (.wait w))
  | r => r

/-- The descriptor under a layout's BASE is in the cell's descriptor cache, or the layout waits for it (R16). -/
def layoutReady (s : State) (v : View) (e : Vec) : Except Halt Unit :=
  need (!cacheMiss s v (bits (layWord e 0) 52 12)) (.wait (.descriptor (bits (layWord e 0) 52 12)))

/-! ### Performing reads -/

/-- STAT or HINFO of a hart as a context reads it (Table 5.1) (DEDUCED, log entry 19). -/
def windowRead (s : State) (ctx d off : Nat) : Word :=
  let h := off / 64
  let x := s.hart d h
  if off % 64 = 8 then
    let pend := (x.fifo.filter fun k => k.ctx = ctx).length + (x.members.filter fun m => m.kick.ctx = ctx).length
      + ((x.groups.filter fun g => g.1 = ctx).map fun g => g.2.2.length).sum + (x.late.filter fun m => m.kick.ctx = ctx).length
    word (fields [(5, min pend 16), (19, 0), (8, x.kerr.getD ctx 0), (32, 0)])
  else word (fields [(8, if h < 16 then 0 else if h < 24 then 1 else 2), (8, h), (48, 0)])

/-- The route table reaches a device, over a port that is up (R400). -/
def routed (s : State) (dev : Nat) : Bool := dev == s.devId.toNat || (s.routes.find dev).any fun p => (s.port p).up

/-- What a remote device answered to a load or atomic (`State.inp`): its value (0), a refusal (1, R20), ABSENT (2, R147), or nothing because the
request or the answer was lost (3, R400). -/
def remoteAnswer (s : State) (t : Target) (o coord : Word) (acc : Nat) : Except Halt Unit :=
  let dev := bits t.desc.ptr 0 9
  if !routed s dev then .error (.lost dev o coord acc)
  else match s.inp.n with
    | 0 => .ok ()
    | 1 => .error (.trap 4 o coord acc false)
    | 2 => .error (.park 5 3 acc o coord none 0 true)
    | _ => .error (.lost dev o coord acc)

/-- Read `n` bytes at a resolved reference for the moving agent: the pages must be present, A is set on the entries used, filters are compared, a poisoned
granule raises 0x07 with its first byte (R142, R144, R157, R233; DESIGN CHOICE, log entry 59: of a hit in precise mode that finds poison, 0x07). `remote` are the bytes a remote device answered with. -/
def readAt (s : State) (v : View) (t : Target) (o coord : Word) (n acc : Nat) (remote : List Byte) : Except Halt (List Byte × State) :=
  match t.home with
  | .window d => .ok (bytesOf 8 (windowRead s (v.ctx.getD 0) d t.off).toNat, s)
  | .remote => (remoteAnswer s t o coord acc).map fun _ => ((remote ++ List.replicate n 0).take n, s)
  | _ =>
    match locate s v t n false with
    | .error e => .error (noPageHalt v t o coord acc e)
    | .ok l =>
      let s' := touchLeaves s l.leaves false
      let hits := if l.watched then filterHits s (v.ctx.getD 0) t.slot t.off n true false else []
      if s.poisoned l.keys then
        .error (.after (filterNote s' hits (v.ctx.getD 0) t.slot t.off acc) (.trap 7 (o + s.poisonAt l.keys) coord acc false))
      else
        match filterEffect s hits (v.ctx.getD 0) t.slot t.off o coord acc s' with
        | .error h => .error h
        | .ok s'' => .ok (s.bytesAt l, s'')

/-- Write bytes at a local or located place. -/
def writeAt (s : State) (l : Located) (b : List Byte) (fill clean : Bool) : State :=
  touchLeaves ((s.rekey l.key (granules l.keys)).store l.keys b fill clean) l.leaves true

/-! ### The steps of a memory access (R231) -/

/-- Formula (10.2): the oref of an M-format access. -/
def formRef (base : Word) (imm : BitVec 7) (scale : Nat) : Word :=
  word (bits base 52 12 * 2 ^ 52 + ((Int.ofNat (bits base 0 52) + signed imm.toNat 7 * Int.ofNat scale) % Int.ofNat (2 ^ 52)).toNat)

/-- Store bytes for the moving agent at a checked reference: at once when local, else posted (R46, R233). -/
def storeAt (s : State) (v : View) (t : Target) (o : Word) (b : List Byte) (w : BitVec 2) (rel fill clean : Bool) (acc : Nat) :
    Except Halt State := do
  let s := useDesc s v t
  if isLocal v t then
    let s ← localGate s t b.length false true o acc
    waitField s w
    need (!writeFenced s rel) (.wait .counter)
    match locate s v t b.length true with
    | .ok l => .ok (writeAt s l b fill clean)
    | .error _ => .ok s
  else
    waitField s w
    postRoom s t
    match t.home with
    | .window d => .ok (post s v t (.kick d (t.off / 64) (word (numOfBytes b))) true acc)
    | _ => .ok (post s v t (.bytes o b fill) rel acc)

/-- The memory with one element written: whole bytes, or its bits within one byte (R22). -/
def writePiece (m : List Host.Cell) (ks : List Nat) (p : Piece) : List Host.Cell :=
  if p.len ≥ 8 then writeKeys m ks (bytesOf (p.len / 8) p.val)
  else
    let old := (readByte m (ks.headD 0)).toNat
    let low := old % 2 ^ p.lo
    let high := old / 2 ^ (p.lo + p.len) * 2 ^ (p.lo + p.len)
    writeKeys m ks [BitVec.ofNat 8 (high + p.val % 2 ^ p.len * 2 ^ p.lo + low)]

/-- Write elements at located places, as one write; bytes that carry poison poison their granules (R113, R233, R284).
DESIGN CHOICE (log entry 96): a granule is poisoned by any poisoned element written to it, also by one whose bytes a later element of the same
write replaces. -/
def writePieces (s : State) (l : List (Located × Piece)) (fill : Bool) : State :=
  let ks := l.flatMap fun e => e.1.keys
  let s := s.rekey ((l.head?.bind fun e => e.1.key)) (granules ks)
  let s := { s with
    mem := l.foldl (fun m e => writePiece m e.1.keys e.2) s.mem
    full := if fill then addAll s.full (granules ks) else s.full
    poison := addAll (dropAll s.poison (wholeGranules ks)) (granules ((l.filter fun e => e.2.bad).flatMap fun e => e.1.keys)) }
  touchLeaves s (l.flatMap fun e => e.1.leaves).dedup true

/-- Steps 5 and 6 of a remote access that returns a value, an acquire or not: its pages are present, its wait field is met, no earlier write of
the agent to the same bytes or the same vault is on its way (R46, R41), and then the request leaves and the instruction runs again for its
response. -/
def reach (s : State) (v : View) (t : Target) (o coord : Word) (n acc : Nat) (w : BitVec 2) (write acq : Bool) (i : Instr) :
    Except Halt Unit := do
  match locate s v t n write with
  | .error e => .error (noPageHalt v t o coord acc e)
  | .ok l =>
    waitField s w
    need (!readFenced s && !acquireHeld s acq) (.wait .counter)
    need (!overlaps (outstanding s) s.cur t.desc t.slot t.off n && !mayOverlap s s.cur l.keys && !vaultBusy s s.cur t) (.wait .counter)
    need s.answered (.issue i none)

/-- Read `n` bytes for the moving agent at a checked reference, by the steps of R231 from step 5 on: a local place at once, after the
comparators; any other place when the response arrives. -/
def loadAt (s : State) (v : View) (t : Target) (o coord : Word) (n : Nat) (w : BitVec 2) (acq : Bool) (i : Instr) :
    Except Halt (List Byte × State) := do
  let s := useDesc s v t
  if isLocal v t then
    let s ← localGate s t n true false o 0
    waitField s w
    need (!readFenced s && !acquireHeld s acq) (.wait .counter)
    readAt s v t o coord n 0 []
  else
    reach s v t o coord n 0 w false acq i
    readAt s v t o coord n 0 s.inp.bytes

/-! ### Elements of a layout -/

/-- An element of a layout access: its reference and its bit position. -/
structure ElemRef where
  t : Target
  o : Word
  lo : Nat
  c : Word
  deriving DecidableEq, Repr

/-- LayoutRef steps 4 to 7 and CheckRef of the element at exact coordinates `c` (R25); a write through a read-only layout is 0x04. -/
def elemRef (s : State) (v : View) (e : Vec) (c : List Int) (rts acc : Nat) : Except Halt ElemRef := do
  let fc := packCoords c
  match layoutElem e c with
  | none => .error (.trap 3 0 fc acc false)
  | some (o, lo) =>
    need (!(rts &&& 2 != 0 && bit (layWord e 7) 17)) (.trap 4 o fc acc false)
    let n := elemBytes (fmtWidth (layFmt e))
    let t ← checkRef s v o n rts acc fc
    need (windowRule t n (rts &&& 2 != 0)) (.trap 2 o fc acc false)
    .ok ⟨t, o, lo, fc⟩

/-- The elements (number, reference) of a list of (number, coordinates), or the first failure. -/
def elemRefs (s : State) (v : View) (e : Vec) (rts acc : Nat) : List (Nat × List Int) → Except Halt (List (Nat × ElemRef))
  | [] => .ok []
  | (j, c) :: r => do
    let x ← elemRef s v e c rts acc
    let xs ← elemRefs s v e rts acc r
    .ok ((j, x) :: xs)

/-- The value of an element of width `w` read from its bytes. -/
def elemValue (w lo : Nat) (b : List Byte) : Nat := numOfBytes b / 2 ^ lo % 2 ^ w

/-- Read elements one after the other (R231 step 7): (number, value), and the state with A set and hits noted. -/
def readElems (s : State) (v : View) (w acc : Nat) : List (Nat × ElemRef) → Except Halt (List (Nat × Nat) × State)
  | [] => .ok ([], s)
  | (j, x) :: r => do
    let s := useDesc s v x.t
    let (b, s) ← readAt s v x.t x.o x.c (elemBytes w) acc (s.inp.bytes.drop (j * w / 8))
    let (l, s) ← readElems s v w acc r
    .ok ((j, elemValue w x.lo b) :: l, s)

/-- Step 5 for a list of elements: every page present, or the halt of the first that is not. -/
def elemsPresent (s : State) (v : View) (w acc : Nat) (write : Bool) : List (Nat × ElemRef) → Except Halt (List (Located × ElemRef))
  | [] => .ok []
  | (_, x) :: r =>
    match locate s v x.t (elemBytes w) write with
    | .error e => .error (noPageHalt v x.t x.o x.c acc e)
    | .ok l => (elemsPresent s v w acc write r).map ((l, x) :: ·)

/-- Steps 5 and 6 of a read of several elements: local elements are ready once the wait field is met; others when the response is
there. -/
def reachElems (s : State) (v : View) (w acc : Nat) (wf : BitVec 2) (xs : List (Nat × ElemRef)) (i : Instr) (lay : Vec) : Except Halt State := do
  match xs with
  | [] => waitField s wf; .ok s
  | (_, x) :: _ =>
    let hit := (xs.find? fun y => localMatch s y.2.t (elemBytes w) true false && isLocal v y.2.t).map (·.2)
    let s ← localGate s ((hit.map (·.t)).getD x.t) (elemBytes w) hit.isSome false ((hit.map (·.o)).getD 0) acc ((hit.map (·.c)).getD 0)
    if isLocal v x.t then
      waitField s wf
      need (!readFenced s) (.wait .counter)
      .ok s
    else
      let ls ← elemsPresent s v w acc false xs
      waitField s wf
      need (!readFenced s) (.wait .counter)
      need (!(xs.any fun y => overlaps (outstanding s) s.cur y.2.t.desc y.2.t.slot y.2.t.off (elemBytes w))) (.wait .counter)
      need (!mayOverlap s s.cur (ls.flatMap fun l => l.1.keys) && !vaultBusy s s.cur x.t) (.wait .counter)
      need s.answered (.issue i (some lay))
      .ok s

/-- The store of an element at the KICK of an engine window: a kick (R105). -/
def kickElem (s : State) (v : View) (acc : Nat) (x : ElemRef × Nat) : State := post s v x.1.t (.kick (bits x.1.t.desc.ptr 0 2) (x.1.t.off / 64) (word x.2)) true acc

/-- Write elements of width `w` for the moving agent: at once when local, else posted as one store (R46, R284); in an engine window each element is
a kick. DESIGN CHOICE (log entry 92): a posted layout strip counts as one store in PCV, PCM or PCN, however many elements it has. -/
def storeElems (s : State) (v : View) (w acc : Nat) (wf : BitVec 2) (rel fill : Bool) (xs : List (ElemRef × Nat)) : Except Halt State := do
  match xs with
  | [] => waitField s wf; .ok s
  | (x, _) :: _ =>
    let s := useDesc s v x.t
    if isLocal v x.t then
      let hit := (xs.find? fun y => localMatch s y.1.t (elemBytes w) false true).map (·.1)
      let s ← localGate s ((hit.map (·.t)).getD x.t) (elemBytes w) false hit.isSome ((hit.map (·.o)).getD 0) acc ((hit.map (·.c)).getD 0)
      waitField s wf
      need (!writeFenced s rel) (.wait .counter)
      .ok (writePieces s (xs.filterMap fun y =>
        match locate s v y.1.t (elemBytes w) true with
        | .ok l => some (l, ⟨y.1.o, y.1.lo, w, y.2, y.1.c, false⟩)
        | .error _ => none) fill)
    else
      waitField s wf
      postRoom s x.t
      match x.t.home with
      | .window _ =>
        need (decide (counter s 2 + xs.length ≤ 4095)) (.wait .counter)
        .ok (xs.foldl (fun s y => kickElem s v acc y) s)
      | _ => .ok (post s v x.t (.pieces (xs.map fun y => ⟨y.1.o, y.1.lo, w, y.2, y.1.c, false⟩) fill) rel acc)

end Sys2Proof.Machine
end

