-- ==== Sys2Proof/Machine/Integer.lean ====
section
/-! DEFINITION. The integer, reference and coordinate instructions of MAJ 0x00 to 0x0E and their 16-bit forms (R203 to R212, R196). -/

namespace Sys2Proof.Machine

/-- A computing form of `len` bytes: x[rd] := v with the union of its sources' taints, and past the instruction (R203, R67). -/
def compute (s : State) (len : Nat) (rd : BitVec 5) (src : List (BitVec 5)) (v : Word) :
    Host.Outcome State Fault Refusal :=
  scalar s (.ok (retire (setXt s rd v (src.any (tainted s))) len))

/-- A register-register form. -/
def compute2 (s : State) (len : Nat) (rd ra rb : BitVec 5) (op : Word → Word → Word) : Host.Outcome State Fault Refusal :=
  compute s len rd [ra, rb] (op (getX s ra) (getX s rb))

/-- A form with one source. -/
def compute1 (s : State) (len : Nat) (rd ra : BitVec 5) (op : Word → Word) : Host.Outcome State Fault Refusal :=
  compute s len rd [ra] (op (getX s ra))

/-! ### The operations (Tables 9.1, 9.3, 9.4) -/

/-- SLL: the shift amount is b[5:0]. -/
def sll64 (a b : Word) : Word := a <<< (bits b 0 6)
/-- SRL. -/
def srl64 (a b : Word) : Word := a >>> (bits b 0 6)
/-- SRA: the sign fills from the left. -/
def sra64 (a b : Word) : Word := a.sshiftRight (bits b 0 6)
/-- The lesser of the signed readings. -/
def smin64 (a b : Word) : Word := if a.toInt ≤ b.toInt then a else b
/-- The greater of the signed readings. -/
def smax64 (a b : Word) : Word := if a.toInt ≤ b.toInt then b else a
/-- The lesser of the unsigned readings. -/
def umin64 (a b : Word) : Word := if a.toNat ≤ b.toNat then a else b
/-- The greater of the unsigned readings. -/
def umax64 (a b : Word) : Word := if a.toNat ≤ b.toNat then b else a
/-- 1 where signed a < b, else 0. -/
def slt64 (a b : Word) : Word := word (b2n (decide (a.toInt < b.toInt)))
/-- 1 where unsigned a < b, else 0. -/
def sltu64 (a b : Word) : Word := word (b2n (decide (a.toNat < b.toNat)))
/-- The high half of the signed product. -/
def mulh64 (a b : Word) : Word := wordOf (a.toInt * b.toInt / 2 ^ 64)
/-- The high half of the unsigned product. -/
def mulhu64 (a b : Word) : Word := word (a.toNat * b.toNat / 2 ^ 64)

/-- The quotient and remainder of Formula (9.2). -/
def divS (a b : Word) : Int × Int :=
  let sa := a.toInt
  let sb := b.toInt
  if sb = 0 then (-1, sa)
  else if sa = -2 ^ 63 ∧ sb = -1 then (-2 ^ 63, 0)
  else
    let q := sa.sign * sb.sign * (Int.ofNat (sa.natAbs / sb.natAbs))
    (q, sa - q * sb)

/-- The quotient and remainder of Formula (9.3). -/
def divU (a b : Word) : Nat × Nat :=
  if b.toNat = 0 then (2 ^ 64 - 1, a.toNat) else (a.toNat / b.toNat, a.toNat % b.toNat)

/-- The number of leading zero bits of the low `n` bits. -/
def leadingZeros (a : Word) : Nat → Nat
  | 0 => 0
  | n + 1 => if bit a n then 0 else leadingZeros a n + 1

/-- The number of zero bits from bit `i` on, among `n` bits. -/
def trailingZeros (a : Word) (i : Nat) : Nat → Nat
  | 0 => 0
  | n + 1 => if bit a i then 0 else trailingZeros a (i + 1) n + 1

/-- The number of one bits. -/
def popCount {n : Nat} (a : BitVec n) : Nat := ((List.range n).filter fun i => bit a i).length

/-- The width of SEXT and ZEXT: b[5:0], and 0 means 64 (R206). -/
def extWidth (b : Word) : Nat := if bits b 0 6 = 0 then 64 else bits b 0 6

/-- SignExt(a, m) for m = b[5:0]. -/
def sext64 (a b : Word) : Word := wordOf (signed a.toNat (extWidth b))
/-- ZeroExt(a, m) for m = b[5:0]. -/
def zext64 (a b : Word) : Word := word (a.toNat % 2 ^ extWidth b)

/-- SignExt(imm, 14) (R207). -/
def imm14 (imm : BitVec 14) : Word := imm.signExtend 64

/-- Formula (9.4): coordinate `d` moved by `k`, no carry into the next. -/
def addCoord (a : Word) (d : BitVec 2) (k : BitVec 12) : Word :=
  let c := bits a (16 * d.toNat) 16
  let c' := ((Int.ofNat c + signed k.toNat 12) % 2 ^ 16).toNat
  word (a.toNat - c * 2 ^ (16 * d.toNat) + c' * 2 ^ (16 * d.toNat))

/-- OADD: cat(a[63:52], (a[51:0] + b) mod 2^52) (R210). -/
def oadd64 (a b : Word) : Word := word (bits a 52 12 * 2 ^ 52 + (bits a 0 52 + b.toNat) % 2 ^ 52)
/-- OSLOT: the slot of an oref. -/
def oslot64 (a : Word) : Word := word (bits a 52 12)
/-- OMAKE: cat(a[11:0], b[51:0]). -/
def omake64 (a b : Word) : Word := word (bits a 0 12 * 2 ^ 52 + bits b 0 52)

/-- Sat of Formula (9.5). -/
def sat16 (v : Nat) : Nat := min v 65535
/-- PACK2. -/
def packTwo (a b : Word) : Word := word (sat16 b.toNat * 2 ^ 16 + sat16 a.toNat)
/-- PACK4. -/
def packFour (a b : Word) : Word :=
  word (sat16 (bits b 32 32) * 2 ^ 48 + sat16 (bits b 0 32) * 2 ^ 32 + sat16 (bits a 32 32) * 2 ^ 16 + sat16 (bits a 0 32))

/-- The OCHK result (Table 9.5) for an access of `n` bytes at a resolved oref. -/
def ochkResult (t : Target) (n : Nat) : Word :=
  word (fields [(52, t.len), (5, t.rights), (6, 0), (1, b2n (decide (t.off + n ≤ t.len)))])

/-! ### Meanings -/

/-- ADD (R204). -/
def execAdd (rd ra rb : BitVec 5) (s : State) := compute2 s 4 rd ra rb (· + ·)
/-- SUB (R204). -/
def execSub (rd ra rb : BitVec 5) (s : State) := compute2 s 4 rd ra rb (· - ·)
/-- AND (R204). -/
def execAnd (rd ra rb : BitVec 5) (s : State) := compute2 s 4 rd ra rb (· &&& ·)
/-- OR (R204). -/
def execOr (rd ra rb : BitVec 5) (s : State) := compute2 s 4 rd ra rb (· ||| ·)
/-- XOR (R204). -/
def execXor (rd ra rb : BitVec 5) (s : State) := compute2 s 4 rd ra rb (· ^^^ ·)
/-- SLL (R204). -/
def execSll (rd ra rb : BitVec 5) (s : State) := compute2 s 4 rd ra rb sll64
/-- SRL (R204). -/
def execSrl (rd ra rb : BitVec 5) (s : State) := compute2 s 4 rd ra rb srl64
/-- SRA (R204). -/
def execSra (rd ra rb : BitVec 5) (s : State) := compute2 s 4 rd ra rb sra64
/-- MIN (R204). -/
def execMin (rd ra rb : BitVec 5) (s : State) := compute2 s 4 rd ra rb smin64
/-- MAX (R204). -/
def execMax (rd ra rb : BitVec 5) (s : State) := compute2 s 4 rd ra rb smax64
/-- MINU (R204). -/
def execMinu (rd ra rb : BitVec 5) (s : State) := compute2 s 4 rd ra rb umin64
/-- MAXU (R204). -/
def execMaxu (rd ra rb : BitVec 5) (s : State) := compute2 s 4 rd ra rb umax64
/-- SLT (R204). -/
def execSlt (rd ra rb : BitVec 5) (s : State) := compute2 s 4 rd ra rb slt64
/-- SLTU (R204). -/
def execSltu (rd ra rb : BitVec 5) (s : State) := compute2 s 4 rd ra rb sltu64
/-- MUL (R204). -/
def execMul (rd ra rb : BitVec 5) (s : State) := compute2 s 4 rd ra rb (· * ·)
/-- MULH (R204). -/
def execMulh (rd ra rb : BitVec 5) (s : State) := compute2 s 4 rd ra rb mulh64
/-- MULHU (R204). -/
def execMulhu (rd ra rb : BitVec 5) (s : State) := compute2 s 4 rd ra rb mulhu64
/-- DIV (R205). -/
def execDiv (rd ra rb : BitVec 5) (s : State) := compute2 s 4 rd ra rb fun a b => wordOf (divS a b).1
/-- DIVU (R205). -/
def execDivu (rd ra rb : BitVec 5) (s : State) := compute2 s 4 rd ra rb fun a b => word (divU a b).1
/-- REM (R205). -/
def execRem (rd ra rb : BitVec 5) (s : State) := compute2 s 4 rd ra rb fun a b => wordOf (divS a b).2
/-- REMU (R205). -/
def execRemu (rd ra rb : BitVec 5) (s : State) := compute2 s 4 rd ra rb fun a b => word (divU a b).2
/-- CLZ (R206). -/
def execClz (rd ra : BitVec 5) (s : State) := compute1 s 4 rd ra fun a => word (leadingZeros a 64)
/-- CTZ (R206). -/
def execCtz (rd ra : BitVec 5) (s : State) := compute1 s 4 rd ra fun a => word (trailingZeros a 0 64)
/-- POPC (R206). -/
def execPopc (rd ra : BitVec 5) (s : State) := compute1 s 4 rd ra fun a => word (popCount a)
/-- SEXT (R206). -/
def execSext (rd ra rb : BitVec 5) (s : State) := compute2 s 4 rd ra rb sext64
/-- ZEXT (R206). -/
def execZext (rd ra rb : BitVec 5) (s : State) := compute2 s 4 rd ra rb zext64
/-- OADD (R210). -/
def execOadd (rd ra rb : BitVec 5) (s : State) := compute2 s 4 rd ra rb oadd64
/-- OSLOT (R210). -/
def execOslot (rd ra : BitVec 5) (s : State) := compute1 s 4 rd ra oslot64
/-- OCHK (R211): no trap, the slots 17 to 31 give 0, and a descriptor that the cell's cache does not hold stalls the slot (R16). -/
def execOchk (rd ra rb : BitVec 5) (s : State) : Host.Outcome State Fault Refusal :=
  let v := viewOf s s.cur
  let done (s : State) (x : Word) : State := retire (setXt s rd x (tainted s ra || tainted s rb)) 4
  scalar s (match resolve s v (getX s ra) with
    | .ok t => .ok (done (useDesc s v t) (ochkResult t (getX s rb).toNat))
    | .error (.wait w) => .error (.wait w)
    | .error _ => .ok (done s 0))
/-- OMAKE (R210). -/
def execOmake (rd ra rb : BitVec 5) (s : State) := compute2 s 4 rd ra rb omake64
/-- PACK2 (R212). -/
def execPack2 (rd ra rb : BitVec 5) (s : State) := compute2 s 4 rd ra rb packTwo
/-- PACK4 (R212). -/
def execPack4 (rd ra rb : BitVec 5) (s : State) := compute2 s 4 rd ra rb packFour
/-- ADDI (R207). -/
def execAddi (rd ra : BitVec 5) (imm : BitVec 14) (s : State) := compute1 s 4 rd ra (· + imm14 imm)
/-- ANDI (R207). -/
def execAndi (rd ra : BitVec 5) (imm : BitVec 14) (s : State) := compute1 s 4 rd ra (· &&& imm14 imm)
/-- ORI (R207). -/
def execOri (rd ra : BitVec 5) (imm : BitVec 14) (s : State) := compute1 s 4 rd ra (· ||| imm14 imm)
/-- XORI (R207). -/
def execXori (rd ra : BitVec 5) (imm : BitVec 14) (s : State) := compute1 s 4 rd ra (· ^^^ imm14 imm)
/-- SLTI (R207). -/
def execSlti (rd ra : BitVec 5) (imm : BitVec 14) (s : State) := compute1 s 4 rd ra (slt64 · (imm14 imm))
/-- SLLI (R207). -/
def execSlli (rd ra : BitVec 5) (imm : BitVec 6) (s : State) := compute1 s 4 rd ra (sll64 · (imm.setWidth 64))
/-- SRLI (R207). -/
def execSrli (rd ra : BitVec 5) (imm : BitVec 6) (s : State) := compute1 s 4 rd ra (srl64 · (imm.setWidth 64))
/-- SRAI (R207). -/
def execSrai (rd ra : BitVec 5) (imm : BitVec 6) (s : State) := compute1 s 4 rd ra (sra64 · (imm.setWidth 64))
/-- LUI: SignExt(U, 19) x 2^14 (R208). -/
def execLui (rd : BitVec 5) (u : BitVec 19) (s : State) := compute s 4 rd [] (u.signExtend 64 <<< 14)
/-- AUIC (R209). -/
def execAuic (rd ra : BitVec 5) (k : BitVec 12) (cd : BitVec 2) (s : State) := compute1 s 4 rd ra (addCoord · cd k)

/-! ### The 16-bit forms (Table 8.5) -/

/-- 16-bit ADD. -/
def execAdd16 (ra rb : BitVec 5) (s : State) := compute2 s 2 ra ra rb (· + ·)
/-- 16-bit SUB. -/
def execSub16 (ra rb : BitVec 5) (s : State) := compute2 s 2 ra ra rb (· - ·)
/-- 16-bit MOV: ADDI xA, xB, 0. -/
def execMov16 (ra rb : BitVec 5) (s : State) := compute1 s 2 ra rb (· + 0)
/-- 16-bit ADDI with simm5. -/
def execAddi16 (ra imm : BitVec 5) (s : State) := compute1 s 2 ra ra (· + imm.signExtend 64)
/-- 16-bit ANDI with simm5. -/
def execAndi16 (ra imm : BitVec 5) (s : State) := compute1 s 2 ra ra (· &&& imm.signExtend 64)
/-- 16-bit SLLI. -/
def execSlli16 (ra imm : BitVec 5) (s : State) := compute1 s 2 ra ra (sll64 · (imm.setWidth 64))
/-- 16-bit SRLI. -/
def execSrli16 (ra imm : BitVec 5) (s : State) := compute1 s 2 ra ra (srl64 · (imm.setWidth 64))
/-- 16-bit SRAI. -/
def execSrai16 (ra imm : BitVec 5) (s : State) := compute1 s 2 ra ra (sra64 · (imm.setWidth 64))
/-- 16-bit AND. -/
def execAnd16 (ra rb : BitVec 5) (s : State) := compute2 s 2 ra ra rb (· &&& ·)
/-- 16-bit OR. -/
def execOr16 (ra rb : BitVec 5) (s : State) := compute2 s 2 ra ra rb (· ||| ·)
/-- 16-bit XOR. -/
def execXor16 (ra rb : BitVec 5) (s : State) := compute2 s 2 ra ra rb (· ^^^ ·)
/-- 16-bit MUL. -/
def execMul16 (ra rb : BitVec 5) (s : State) := compute2 s 2 ra ra rb (· * ·)

end Sys2Proof.Machine
end

