-- ==== Sys2Proof/Machine/Memory.lean ====
section
/-! DEFINITION. Scalar loads and stores, full/empty forms and layout table access (R231 to R238), MAJ 0x18 to 0x25 and their 16-bit
forms. -/

namespace Sys2Proof.Machine

/-! ### Loads -/

/-- The load of instruction `i` of `len` bytes: `n` bytes at Formula (10.2), extended into x[rt], which it taints for LDCN (R232 to
R234), as an acquire when its ORD says so (R70). -/
def loadForm (i : Instr) (len n : Nat) (sgn taint : Bool) (rt ra : BitVec 5) (w ord : BitVec 2) (imm : BitVec 7) (s : State) :
    Host.Outcome State Fault Refusal :=
  scalar s do
    let v := viewOf s s.cur
    let o := formRef (getX s ra) imm n
    let t ← checkRef s v o n 1 0
    need (windowRule t n false) (.trap 2 o 0 0 false)
    let (b, s') ← loadAt s v t o 0 n w (ord == 1) i
    let x := numOfBytes b
    .ok (retire (setXt s' rt (if sgn then wordOf (signed x (8 * n)) else word x) taint) len)

/-- LB (R232). -/
def execLb (rt ra : BitVec 5) (w : BitVec 2) (sc : BitVec 3) (ord : BitVec 2) (imm : BitVec 7) (s : State) :=
  loadForm (.lb rt ra w sc ord imm) 4 1 true false rt ra w ord imm s
/-- LH (R232). -/
def execLh (rt ra : BitVec 5) (w : BitVec 2) (sc : BitVec 3) (ord : BitVec 2) (imm : BitVec 7) (s : State) :=
  loadForm (.lh rt ra w sc ord imm) 4 2 true false rt ra w ord imm s
/-- LW (R232). -/
def execLw (rt ra : BitVec 5) (w : BitVec 2) (sc : BitVec 3) (ord : BitVec 2) (imm : BitVec 7) (s : State) :=
  loadForm (.lw rt ra w sc ord imm) 4 4 true false rt ra w ord imm s
/-- LD (R232). -/
def execLd (rt ra : BitVec 5) (w : BitVec 2) (sc : BitVec 3) (ord : BitVec 2) (imm : BitVec 7) (s : State) :=
  loadForm (.ld rt ra w sc ord imm) 4 8 false false rt ra w ord imm s
/-- LBU (R232). -/
def execLbu (rt ra : BitVec 5) (w : BitVec 2) (sc : BitVec 3) (ord : BitVec 2) (imm : BitVec 7) (s : State) :=
  loadForm (.lbu rt ra w sc ord imm) 4 1 false false rt ra w ord imm s
/-- LHU (R232). -/
def execLhu (rt ra : BitVec 5) (w : BitVec 2) (sc : BitVec 3) (ord : BitVec 2) (imm : BitVec 7) (s : State) :=
  loadForm (.lhu rt ra w sc ord imm) 4 2 false false rt ra w ord imm s
/-- LWU (R232). -/
def execLwu (rt ra : BitVec 5) (w : BitVec 2) (sc : BitVec 3) (ord : BitVec 2) (imm : BitVec 7) (s : State) :=
  loadForm (.lwu rt ra w sc ord imm) 4 4 false false rt ra w ord imm s
/-- LDCN: LD that taints its destination (R234). -/
def execLdcn (rt ra : BitVec 5) (w : BitVec 2) (sc : BitVec 3) (ord : BitVec 2) (imm : BitVec 7) (s : State) :=
  loadForm (.ldcn rt ra w sc ord imm) 4 8 false true rt ra w ord imm s
/-- 16-bit LD: offset 0, W 0b00, plain, DEV (R196). -/
def execLd16 (ra rb : BitVec 5) (s : State) := loadForm (.ld16 ra rb) 2 8 false false ra rb 0 0 0 s
/-- 16-bit LW (R196). -/
def execLw16 (ra rb : BitVec 5) (s : State) := loadForm (.lw16 ra rb) 2 4 true false ra rb 0 0 0 s

/-! ### Stores -/

/-- A store of `len` bytes of code: the low `n` bytes of x[rt] at Formula (10.2), as a release when its ORD says so (R232, R233). -/
def storeForm (len n : Nat) (rt ra : BitVec 5) (w ord : BitVec 2) (imm : BitVec 7) (s : State) : Host.Outcome State Fault Refusal :=
  scalar s do
    let v := viewOf s s.cur
    let o := formRef (getX s ra) imm n
    let t ← checkRef s v o n 2 1
    need (windowRule t n true) (.trap 2 o 0 1 false)
    let s' ← storeAt s v t o (bytesOf n (getX s rt).toNat) w (ord == 2) false false 1
    .ok (retire s' len)

/-- SB (R232). -/
def execSb (rt ra : BitVec 5) (w : BitVec 2) (_sc : BitVec 3) (ord : BitVec 2) (imm : BitVec 7) (s : State) :=
  storeForm 4 1 rt ra w ord imm s
/-- SH (R232). -/
def execSh (rt ra : BitVec 5) (w : BitVec 2) (_sc : BitVec 3) (ord : BitVec 2) (imm : BitVec 7) (s : State) :=
  storeForm 4 2 rt ra w ord imm s
/-- SW (R232). -/
def execSw (rt ra : BitVec 5) (w : BitVec 2) (_sc : BitVec 3) (ord : BitVec 2) (imm : BitVec 7) (s : State) :=
  storeForm 4 4 rt ra w ord imm s
/-- SD (R232). -/
def execSd (rt ra : BitVec 5) (w : BitVec 2) (_sc : BitVec 3) (ord : BitVec 2) (imm : BitVec 7) (s : State) :=
  storeForm 4 8 rt ra w ord imm s
/-- 16-bit SD (R196). -/
def execSd16 (ra rb : BitVec 5) (s : State) := storeForm 2 8 ra rb 0 0 0 s
/-- 16-bit SW (R196). -/
def execSw16 (ra rb : BitVec 5) (s : State) := storeForm 2 4 ra rb 0 0 0 s

/-! ### Full/empty forms -/

/-- Whether a reference leads to the own scratchpad of the agent's cell (R34). -/
def ownScratch (v : View) (t : Target) : Bool :=
  match t.home with
  | .scratch c => v.cell == some c
  | _ => false

/-- Whether a reference leads to some cell's scratchpad. -/
def anyScratch (t : Target) : Bool :=
  match t.home with
  | .scratch _ => true
  | _ => false

/-- A full/empty read of `n` bytes at a checked place of the own scratchpad: it waits until every granule is full, raises 0x07 on poison
with the bits left full, and empties the granules when `clear`, as an acquire (R235, R35, R70). -/
def fullRead (s : State) (v : View) (t : Target) (o coord : Word) (n : Nat) (w : BitVec 2) (clear : Bool) : Except Halt (List Byte × State) := do
  let s := useDesc s v t
  let s ← localGate s t n true false o 0
  waitField s w
  need (!readFenced s && !acquireHeld s true) (.wait .counter)
  match locate s v t n false with
  | .error _ => .ok ([], s)
  | .ok l =>
    need ((granules l.keys).all s.full.has && myTurn s (granules l.keys)) (.wait (.fullEmpty (granules l.keys)))
    need (!s.poisoned l.keys) (.trap 7 (o + s.poisonAt l.keys) coord 0 false)
    .ok (readKeys s.mem l.keys, if clear then { s with full := dropAll s.full (granules l.keys) } else s)

/-- LDF and LDF.c (R235). -/
def fullLoad (clear : Bool) (rt ra : BitVec 5) (w : BitVec 2) (imm : BitVec 7) (s : State) : Host.Outcome State Fault Refusal :=
  scalar s do
    let v := viewOf s s.cur
    let o := formRef (getX s ra) imm 8
    let t ← checkRef s v o 8 (if clear then 3 else 1) 0
    need (t.off % 8 == 0 && ownScratch v t) (.trap 2 o 0 0 false)
    let (b, s') ← fullRead s v t o 0 8 w clear
    .ok (retire (setX s' rt (word (numOfBytes b))) 4)

/-- LDF (R235). -/
def execLdf (rt ra : BitVec 5) (w : BitVec 2) (_sc : BitVec 3) (imm : BitVec 7) (s : State) := fullLoad false rt ra w imm s
/-- LDF.c (R235). -/
def execLdfC (rt ra : BitVec 5) (w : BitVec 2) (_sc : BitVec 3) (imm : BitVec 7) (s : State) := fullLoad true rt ra w imm s

/-- STF: a release store that makes its granule full, in any scratchpad (R34, R235). -/
def execStf (rt ra : BitVec 5) (w : BitVec 2) (_sc : BitVec 3) (imm : BitVec 7) (s : State) : Host.Outcome State Fault Refusal :=
  scalar s do
    let v := viewOf s s.cur
    let o := formRef (getX s ra) imm 8
    let t ← checkRef s v o 8 2 1
    need (t.off % 8 == 0 && anyScratch t) (.trap 2 o 0 1 false)
    let s' ← storeAt s v t o (bytesOf 8 (getX s rt).toNat) w true true false 1
    .ok (retire s' 4)

/-- FECLR: empty x[rt] granules of the own scratchpad (R236). -/
def execFeclr (rt ra : BitVec 5) (w : BitVec 2) (_sc : BitVec 3) (imm : BitVec 7) (s : State) : Host.Outcome State Fault Refusal :=
  scalar s do
    let n := (getX s rt).toNat
    if n = 0 then .ok (retire s 4)
    else
      let v := viewOf s s.cur
      let o := formRef (getX s ra) imm 16
      let t ← checkRef s v o (16 * n) 2 1
      need (ownScratch v t && (t.base + t.off) % 16 == 0) (.trap 2 o 0 1 false)
      let s := useDesc s v t
      let s ← localGate s t (16 * n) false true o 1
      waitField s w
      need (!writeFenced s false) (.wait .counter)
      match t.home with
      | .scratch c =>
        let g := granule (scratchKey c (t.base + t.off))
        .ok (retire { s with full := s.full.filter fun k => !(decide (g ≤ k) && decide (k < g + n)) } 4)
      | _ => .ok (retire s 4)

/-! ### Layout table access -/

/-- The vector register of the moving slot, and its write. -/
def getV (s : State) (r : Nat) : Vec := s.me.v[r]?.getD 0
/-- Write v[r]. -/
def setV (s : State) (r : Nat) (x : Vec) : State := onSlot s fun l => { l with v := l.v.setIfInBounds r x }

/-- The reference under which the layout table is reached: HBM4, post class M (R238). -/
def layoutTarget : Target := ⟨.paged 2, 0, 4096, 3, 0, 0, Desc.zero⟩

/-- LAYR: the 64 bytes of a layout entry into vd, as a remote load (R237, R238). -/
def execLayr (vd : BitVec 5) (lay : BitVec 6) (w : BitVec 2) (sc : BitVec 3) (s : State) : Host.Outcome State Fault Refusal :=
  cellOnly s do
    waitField s w
    need (!readFenced s && !layoutPosted s lay.toNat) (.wait .counter)
    need s.answered (.issue (.layr vd lay w sc) none)
    .ok (retire (setV s vd.toNat (layoutEntry s (viewOf s s.cur) lay.toNat)) 4)

/-- LAYW: vd into a layout entry, as a remote store counted in PCM (R237, R238). -/
def execLayw (vd : BitVec 5) (lay : BitVec 6) (w : BitVec 2) (_sc : BitVec 3) (s : State) : Host.Outcome State Fault Refusal :=
  cellOnly s do
    waitField s w
    postRoom s layoutTarget
    .ok (retire (post s (viewOf s s.cur) layoutTarget (.layout lay.toNat (getV s vd.toNat)) false 1) 4)

end Sys2Proof.Machine
end

