-- ==== Sys2Proof/Machine/Control.lean ====
section
/-! DEFINITION. Branches and jumps, CALLX, END and YIELD (R213 to R220): MAJ 0x10 to 0x15 and their 16-bit forms. -/

namespace Sys2Proof.Machine

/-! ### Places in code -/

/-- Capsule `c`, if it is known. -/
def State.capsule (s : State) (c : Nat) : Option Capsule := s.caps.find c

/-- The parcel length of the instruction at byte `p` of a body. -/
def lengthAt (b : List Byte) (p : Nat) : Nat := parcelLength (b.getD p 0).toNat

/-- Whether walking instruction by instruction from `p` reaches `t` (R187, R214). -/
def reaches (b : List Byte) (t : Nat) : Nat → Nat → Bool
  | 0, p => p == t
  | n + 1, p => p == t || (decide (p < t) && reaches b t n (p + lengthAt b p))

/-- Whether the cell's decoder finds the start of an instruction at `t`: on the path from the start of its record (R214, R336). -/
def isStart (x : Config.Body) (t : Nat) : Bool :=
  match x.pos.find? fun p => p.2.1 ≤ t && t < p.2.2 with
  | some (_, lo, hi) => reaches x.bytes t ((hi - lo) / 2) lo
  | none => false

/-- Whether a jump of the moving agent to byte `t` is legal: on the code pages of the executing body, at the start of an instruction
(R214); in the firmware image of a DFC, at an even address. -/
def validTarget (s : State) (t : Int) : Bool :=
  match s.cur with
  | .slot c k =>
    match s.capsule (s.slot c k).cap with
    | some x => decide (0 ≤ t) && decide (t < x.body.bytes.length) && isStart x.body t.toNat
    | none => false
  | .dfc d => decide (0 ≤ t) && t % 2 == 0 && decide (t < (s.dfc d).code.length)
  | _ => false

/-- A taken branch or jump: 0x01 at the branch for a bad target, with no effect (R214). -/
def jumpTo (s : State) (t : Int) : Except Halt State :=
  if validTarget s t then .ok (setPc s t.toNat) else .error (trapOf 1)

/-- A return token (Table 9.7). -/
def token (cap recNo : Nat) : Word := word (fields [(32, recNo), (8, 0), (23, cap), (1, 1)])

/-- The link that the moving agent's jump of `len` bytes makes: a return token on a cell, the native address on a DFC (R215). -/
def link (s : State) (len : Nat) : Word :=
  match s.cur with
  | .slot c k => let l := s.slot c k; token l.cap (recordAt s l.cap l.pc)
  | _ => word (getPc s + len)

/-! ### Branches -/

/-- A conditional branch of `len` bytes: the offset counts parcels from the branch (R213). -/
def branch (s : State) (len : Nat) (taken : Bool) (off : Int) : Host.Outcome State Fault Refusal :=
  scalar s (if taken then jumpTo s (Int.ofNat (getPc s) + 2 * off) else .ok (retire s len))

/-- BEQ (R213). -/
def execBeq (ra rb : BitVec 5) (off : BitVec 11) (s : State) := branch s 4 (getX s ra == getX s rb) off.toInt
/-- BNE (R213). -/
def execBne (ra rb : BitVec 5) (off : BitVec 11) (s : State) := branch s 4 (getX s ra != getX s rb) off.toInt
/-- BLT (R213). -/
def execBlt (ra rb : BitVec 5) (off : BitVec 11) (s : State) :=
  branch s 4 (decide ((getX s ra).toInt < (getX s rb).toInt)) off.toInt
/-- BGE (R213). -/
def execBge (ra rb : BitVec 5) (off : BitVec 11) (s : State) :=
  branch s 4 (decide ((getX s rb).toInt ≤ (getX s ra).toInt)) off.toInt
/-- BLTU (R213). -/
def execBltu (ra rb : BitVec 5) (off : BitVec 11) (s : State) :=
  branch s 4 (decide ((getX s ra).toNat < (getX s rb).toNat)) off.toInt
/-- BGEU (R213). -/
def execBgeu (ra rb : BitVec 5) (off : BitVec 11) (s : State) :=
  branch s 4 (decide ((getX s rb).toNat ≤ (getX s ra).toNat)) off.toInt
/-- J (R213). -/
def execJ (off : BitVec 24) (s : State) := branch s 4 true off.toInt
/-- 16-bit BEQZ (R196). -/
def execBeqz16 (ra off : BitVec 5) (s : State) := branch s 2 (getX s ra == 0) off.toInt
/-- 16-bit BNEZ (R196). -/
def execBnez16 (ra off : BitVec 5) (s : State) := branch s 2 (getX s ra != 0) off.toInt
/-- 16-bit J (R196). -/
def execJ16 (off : BitVec 10) (s : State) := branch s 2 true off.toInt

/-- JAL: the link in x1, then as J (R213). -/
def execJal (off : BitVec 24) (s : State) : Host.Outcome State Fault Refusal :=
  scalar s ((jumpTo s (Int.ofNat (getPc s) + 2 * off.toInt)).map fun t => setX t 1 (link s 4))

/-! ### JALR -/

/-- Whether word `n` of a list is the wide word of a CONST record, which is data (Table 8.8); `d`: the first word is. -/
def isWide : Bool → List Word → Nat → Bool
  | _, [], _ => false
  | d, _ :: _, 0 => d
  | d, w :: ws, n + 1 => isWide (!d && bits w 0 10 == 0x3F5 && bit w 63) ws n

/-- Whether record `n` of a capsule is a JAL, CALLX or JALR record (Table 8.2: operation indices 0x031 to 0x033). -/
def linkRecord (x : Capsule) (n : Nat) : Bool :=
  match x.list[n]? with
  | some w => decide (0x31 ≤ bits w 0 10) && decide (bits w 0 10 ≤ 0x33) && !isWide false x.list n
  | none => false

/-- The native byte that follows the code of record `n` (R215). -/
def afterRecord (x : Capsule) (n : Nat) : Nat := ((x.body.pos.find? fun p => p.1 = n).map fun p => p.2.2).getD 0

/-- Whether the body is VOID, or being rebuilt: entering it parks with 0x12 (R330, Table 14.7). -/
def voidBody (x : Capsule) : Bool := x.state == 2 || x.state == 3

/-- The park on the VOID body of a capsule, 0x12 (Table 16.1): no access is named; the level field of the halt carries the capsule. -/
def parkVoid (cap : Nat) : Halt := .park 18 0 0 0 0 none cap false

/-- Continue in capsule `cap` at byte `p`. -/
def enterBody (s : State) (cap p : Nat) : State := setPc (onSlot s fun l => { l with cap := cap }) p

/-- Whether a capsule is loaded into the moving agent's context. -/
def loadedHere (s : State) (cap : Nat) : Bool :=
  match (viewOf s s.cur).ctx.bind s.ctx with
  | some x => x.caps.has cap
  | none => false

/-- JALR on a cell: through a return token (R215). -/
def jalrToken (s : State) (rd ra : BitVec 5) (len : Nat) : Except Halt State := do
  let v := getX s ra
  let cap := bits v 40 23
  let n := bits v 0 32
  need (bit v 63 && bits v 32 8 == 0 && loadedHere s cap) (trapOf 1)
  match s.capsule cap with
  | none => .error (trapOf 1)
  | some x =>
    need (linkRecord x n) (trapOf 1)
    need (!voidBody x) (parkVoid cap)
    .ok (setX (enterBody s cap (afterRecord x n)) rd (link s len))

/-- JALR on a DFC: x[ra] + 2 x imm; the target is computed before rd is written (R215). -/
def jalrNative (s : State) (rd ra : BitVec 5) (imm : BitVec 14) (len : Nat) : Except Halt State :=
  (jumpTo s (Int.ofNat (getX s ra + 2 * imm14 imm).toNat)).map fun t => setX t rd (link s len)

/-- JALR (R215). On a cell imm is a must-be-zero field. -/
def execJalr (rd ra : BitVec 5) (imm : BitVec 14) (s : State) : Host.Outcome State Fault Refusal :=
  match s.cur with
  | .slot _ _ => finish s (if imm = 0 then jalrToken s rd ra 4 else .error (trapOf 2))
  | .dfc _ => finish s (jalrNative s rd ra imm 4)
  | _ => .fault .noAgent

/-- 16-bit JR: JALR x0, xA, 0; field B is not read and must be zero (R196). -/
def execJr16 (ra rb : BitVec 5) (s : State) : Host.Outcome State Fault Refusal :=
  if rb ≠ 0 then scalar s (.error (trapOf 2))
  else
    match s.cur with
    | .slot _ _ => finish s (jalrToken s 0 ra 2)
    | .dfc _ => finish s (jalrNative s 0 ra 0 2)
    | _ => .fault .noAgent

/-! ### CALLX -/

/-- CALLX: read the linkage entry as an acquire at DEV, then enter the bound function, or the resolver stub with the entry's oref in x31
(Formula (9.6)). -/
def execCallx (rd ra : BitVec 5) (imm : BitVec 14) (s : State) : Host.Outcome State Fault Refusal :=
  cellOnly s do
    let v := viewOf s s.cur
    let a := getX s ra
    let o := word (bits a 52 12 * 2 ^ 52 + ((Int.ofNat (bits a 0 52) + 8 * imm.toInt) % Int.ofNat (2 ^ 52)).toNat)
    need (bits o 0 3 == 0) (.trap 2 o 0 0 false)
    let t ← checkRef s v o 8 4 0
    need (windowRule t 8 false) (.trap 2 o 0 0 false)
    let (b, s') ← loadAt s v t o 0 8 0 true (.callx rd ra imm)
    let e := word (numOfBytes b)
    let bound := bit e 63
    let cap := if bound then bits e 40 23 else s.me.cap
    need (loadedHere s cap) (.after s' (.trap 4 o 0 0 false))
    match s.capsule cap with
    | none => .error (.after s' (.trap 4 o 0 0 false))
    | some x =>
      match if bound then x.exports[bits e 16 24]? else x.stubs[bits e 0 16]? with
      | none => .error (.after s' (.trap 4 o 0 0 false))
      | some n =>
        need (!voidBody x) (.after s' (parkVoid cap))
        let s' ← comparator s' (!bound && registerMatch s' 0 31) 2 0 0
        let s' := if bound then s' else setX s' 31 o
        .ok (setX (enterBody s' cap (entryOf x n)) rd (link s 4))

/-! ### END and YIELD -/

/-- Whether a buffered GRANT message's endpoint has been revoked since its send (R171). -/
def revokedGrant (x : Context) (m : OutMsg) : Bool :=
  bits m.msg.hdr 8 3 == 5 && m.dests.any fun d => !(x.grants.any fun g => g.2 == (d.1, d.2.1, d.2.2.1))

/-- END steps 4 to 6 (R219): the message's entry freed, its multicast slot on its way back, and the slot free. -/
def completeEnd (s : State) (c k : Nat) : State :=
  match (s.slot c k).act, (s.cell c).ctx with
  | some a, some r =>
    let s := s.onVpe r a.vpe fun p => { p with used := p.used - 1, busy := p.busy.drop a.ch, ages := p.ages.put a.ch 0 }
    let s := match a.msg.mcell, s.ctx r with
      | some from', some x => { s with mcReturns := s.mcReturns ++ [(from', counterIndex x a.owner a.vpe)] }
      | _, _ => s
    let s := closeActivation s c k 2 0
    let s := breakGang s c k
    s.setSlot c k ((s.slot c k).freed)
  | _, _ => s

/-- Whether any message of the slot's activation is still in its cell's outbound list (R133). -/
def stillLeaving (s : State) (c k : Nat) : Bool :=
  match (s.slot c k).act with
  | some a => (s.cell c).outbound.any fun m => m.msg.ser == a.serial
  | none => false

/-- A pre-emption, debug stop, save or strike is pending at a cell (R133, R184, R315). -/
def requestPending (s : State) (c : Nat) : Bool := (s.cell c).preempt || decide ((s.cell c).stop ≠ .no)

/-- END (R219): commit the shadow, pass the buffered sends to the outbound list, and end when they have left it, or at once when a
request is pending (R133). -/
def endActivation (s : State) (c k : Nat) : Except Halt State :=
  let l := s.slot c k
  match (s.cell c).ctx with
  | none => .ok s
  | some r =>
    if l.ending then (if stillLeaving s c k && !requestPending s c then .error (.wait .outbound) else .ok (completeEnd s c k))
    else if (s.ctx r).any fun x => l.sends.any (revokedGrant x) then .error (trapOf 16)
    else
      let s := commitShadow s r c k
      let cl := s.cell c
      let s := s.setCell c { cl with outbound := cl.outbound ++ l.sends }
      let s := s.setSlot c k { s.slot c k with sends := [], ending := true, wait := .outbound }
      .ok (if l.sends.isEmpty || requestPending s c then completeEnd s c k else s)

/-- YIELD (R220): commit the shadow, discard the sends, return the message with the resume flag, free the slot. -/
def yieldActivation (s : State) (c k : Nat) : State :=
  match (s.slot c k).act, (s.cell c).ctx with
  | some a, some r =>
    let s := commitShadow s r c k
    let s := returnMsg s r a.vpe a.ch a.msg 0
    let s := closeActivation s c k 3 0
    let s := breakGang s c k
    s.setSlot c k ((s.slot c k).freed)
  | _, _ => s

/-- END and YIELD for the moving slot; a DFC takes 0x01 (R220). -/
def ending (s : State) (g : Nat → Nat → Except Halt State) : Host.Outcome State Fault Refusal :=
  match s.cur with
  | .slot c k => finish s (g c k)
  | .dfc _ => finish s (.error (trapOf 1))
  | _ => .fault .noAgent

/-- END (R219). -/
def execEndAct (s : State) : Host.Outcome State Fault Refusal := ending s fun c k => endActivation s c k
/-- 16-bit END (R196). -/
def execEnd16 (s : State) : Host.Outcome State Fault Refusal := ending s fun c k => endActivation s c k
/-- YIELD (R220). -/
def execYieldAct (s : State) : Host.Outcome State Fault Refusal := ending s fun c k => .ok (yieldActivation s c k)

/-! ### The turn budget (R183) -/

/-- Whether a slot's budget counts: it runs, or is stalled in a wait other than END's (R133, R183). -/
def budgetCounts (l : Slot) : Bool :=
  !l.ending && match l.status with
    | .running => true
    | .stream _ => true
    | _ => false

/-- Abort the activation of a slot, or close its stream, when its budget would pass zero (R183, R292): 0x08. -/
def expireBudget (s : State) (c k : Nat) : State := takeTrap (rewind { s with cur := .slot c k } c k) 8 0 0 0

/-- Whether the budget of a slot is used up: the next clk would pass zero (R183). -/
def budgetOut (l : Slot) : Bool := budgetCounts l && decide (l.tbud = 0) && l.act.isSome

end Sys2Proof.Machine
end

