-- ==== Sys2Proof/Machine/Message.lean ====
section
/-! DEFINITION. Barriers (R246 to R248), sends (R249, R250), MSGLD (R251), binding and masking (R253 to R256): MAJ 0x29 to 0x2B. -/

namespace Sys2Proof.Machine

/-- The context of the moving slot. -/
def State.myCtx (s : State) : Option Context := (viewOf s s.cur).ctx.bind s.ctx

/-! ### Barriers -/

/-- Barrier `b` of a context. -/
def Context.barrier (x : Context) (b : Nat) : Barrier := x.barriers.getD b ⟨0, 0, 0⟩

/-- The compute die whose barrier unit holds a context's barriers: that of its lowest-numbered cell. -/
def barrierDie (x : Context) : Nat := dieOfCell (x.cells.foldl min 3071)

/-- Wake the BARWs of a context that wait for phase `p` of barrier `b` (R247). -/
def wakeBarw (s : State) (x : Context) (b : Nat) (p : BitVec 16) : State :=
  x.cells.foldl (fun s c => (List.range 4).foldl (fun s k =>
    let l := s.slot c k
    if l.barw = some (b, p, false) then s.setSlot c k { l with barw := some (b, p, true), wait := .none } else s) s) s

/-- An arrival at barrier `b` of context `r` (Formula (10.5)): the phase it counts in, and the state; the N-th arrival completes the
phase. -/
def barrierArrive (s : State) (r b : Nat) : BitVec 16 × State :=
  match s.ctx r with
  | none => (0, s)
  | some x =>
    let e := x.barrier b
    if e.a + 1 = e.n then
      (e.ph, wakeBarw (s.setCtx r { x with barriers := x.barriers.put b { e with a := 0, ph := e.ph + 1 } }) x b e.ph)
    else (e.ph, s.setCtx r { x with barriers := x.barriers.put b { e with a := e.a + 1 } })

/-- The barrier that x[ra] names, or 0x02 for nonzero bits above it or a barrier with N = 0 (R247). -/
def barrierOf (s : State) (ra : BitVec 5) : Except Halt (Nat × Nat × Context) :=
  let v := getX s ra
  match (viewOf s s.cur).ctx, s.myCtx with
  | some r, some x => if bits v 8 56 = 0 ∧ (x.barrier (bits v 0 8)).n ≠ 0 then .ok (bits v 0 8, r, x) else .error (trapOf 2)
  | _, _ => .error (trapOf 2)

/-- BARA: an arrival, as a release: earlier writes have performed (DESIGN CHOICE, log entry 12). It counts at once on the die of the barrier unit;
from another die it crosses first (BARRIER_ARRIVAL). -/
def execBara (rd ra : BitVec 5) (sc : BitVec 3) (s : State) : Host.Outcome State Fault Refusal :=
  cellOnly s do
    let (b, r, x) ← barrierOf s ra
    need (!writeFenced s true) (.wait .counter)
    need (s.answered || dieOfAgent s s.cur == barrierDie x) (.issue (.bara rd ra sc) none)
    let (p, s') := barrierArrive s r b
    let s' := onSlot s' fun l => { l with ticket := some (b, p) }
    .ok (retire (setX s' rd (p.setWidth 64)) 4)

/-- The phase a BARW waits for: that of a wait begun, of a ticket for the barrier, else the phase at issue (Formula (10.5)). -/
def barwPhase (l : Slot) (b : Nat) (e : Barrier) : BitVec 16 :=
  match l.barw with
  | some (b', p, _) => if b' = b then p else e.ph
  | none =>
    match l.ticket with
    | some (b', p) => if b' = b then p else e.ph
    | none => e.ph

/-- Whether a BARW finds its phase completed: woken by the completion, or at issue by the completion test of R247. -/
def barwDone (l : Slot) (p : BitVec 16) (e : Barrier) : Bool :=
  match l.barw with
  | some (_, _, done) => done
  | none => decide (1 ≤ (e.ph - p).toNat ∧ (e.ph - p).toNat ≤ 32767)

/-- BARW: wait until the phase has completed (R247). -/
def execBarw (rd ra : BitVec 5) (_sc : BitVec 3) (s : State) : Host.Outcome State Fault Refusal :=
  match barrierOf s ra with
  | .error h => cellOnly s (.error h)
  | .ok (b, _, x) =>
    let e := x.barrier b
    let p := barwPhase s.me b e
    if barwDone s.me p e then
      cellOnly s (.ok (retire (setX (onSlot s fun l => { l with barw := none }) rd (p.setWidth 64)) 4))
    else cellOnly s (.ok (onSlot s fun l => { l with barw := some (b, p, false), wait := .barrier }))

/-! ### Sends -/

/-- KIND of a header. -/
def msgKind (h : Word) : Nat := bits h 8 3
/-- LEN of a header. -/
def msgLen (h : Word) : Nat := bits h 4 4
/-- DEST of a header. -/
def msgDest (h : Word) : Nat := bits h 40 24

/-- The payload words of a send: the low LEN doublewords of a vector (R249). -/
def payload (v : Vec) (n : Nat) : List Word := (List.range n).map fun i => v.extractLsb' (64 * i) 64

/-- The header as the message carries it: DEST, SRC and IDX replaced (R249). -/
def fillHeader (h : Word) (dest src idx : Nat) : Word := word (fields [(4, idx), (12, bits h 4 12), (24, src), (24, dest)])

/-- Checks 2 to 5 of R249: a free buffer place, LEN, KIND, and the KINDs that the form accepts. -/
def sendChecks (l : Slot) (h : Word) (kinds : List Nat) : Except Halt Unit := do
  need (decide (l.sends.length < 16)) (trapOf 9)
  need (decide (msgLen h ≤ 8)) (trapOf 2)
  need (kinds.contains (msgKind h) && (msgKind h != 1 || msgLen h == 0)) (trapOf 2)

/-- Buffer a message for its receivers: filled header, payload captured, the activation's serial (R249). -/
def bufferSend (s : State) (h : Word) (dest src : Nat) (v : Vec) (dests : List (Nat × Nat × Nat × Option (Nat × Nat))) : State :=
  onSlot s fun l =>
    match l.act with
    | none => l
    | some a =>
      let m : Msg := ⟨fillHeader h dest src l.sends.length, payload v (msgLen h), a.serial, 0, none, 0, a.vpe, false, none, none⟩
      { l with sends := l.sends ++ [⟨m, dests, false⟩] }

/-- A unicast send of the moving slot, or one to a granted endpoint (R249, R168, R171). -/
def sendForm (kinds : List Nat) (ra vb : BitVec 5) (s : State) : Host.Outcome State Fault Refusal :=
  cellOnly s do
    let h := getX s ra
    sendChecks s.me h kinds
    match s.myCtx, s.me.act with
    | some x, some a =>
      if msgKind h = 5 then
        need (bits h 48 16 == 0) (trapOf 2)
        match x.grants.find (bits h 40 8) with
        | none => .error (trapOf 16)
        | some (dev, ctx, vpe) => .ok (retire (bufferSend s h vpe 0 (getV s vb.toNat) [(dev, ctx, vpe, none)]) 4)
      else
        need (decide (msgDest h < x.fold.v)) (trapOf 16)
        .ok (retire (bufferSend s h (msgDest h) a.vpe (getV s vb.toNat)
          [(s.devId.toNat, (viewOf s s.cur).ctx.getD 0, msgDest h, none)]) 4)
    | _, _ => .error (trapOf 16)

/-- SEND: WORD and GRANT (R249). -/
def execSend (ra vb : BitVec 5) (s : State) := sendForm [0, 5] ra vb s
/-- SENDS: STREAM-START and STREAM (R249). -/
def execSends (ra vb : BitVec 5) (s : State) := sendForm [1, 2] ra vb s
/-- SENDE: EOS (R249). -/
def execSende (ra vb : BitVec 5) (s : State) := sendForm [3] ra vb s

/-- The receivers of a multicast: for each cell of the rank in the mask, in increasing order, the virtual PE of Formula (10.6) with its
counter, or 0x10 (R250). -/
def multicastDests (s : State) (x : Context) (c mask ord : Nat) : List Nat → Except Halt (List (Nat × Nat × Nat × Option (Nat × Nat)))
  | [] => .ok []
  | k :: ks =>
    if mask / 2 ^ k % 2 = 0 then multicastDests s x c mask ord ks
    else
      match x.cells.findIdx? (· == 8 * rankOfCell c + k) with
      | none => .error (trapOf 16)
      | some ck =>
        let v := ck + ord * x.fold.p
        if v < x.fold.v then
          (multicastDests s x c mask ord ks).map ((s.devId.toNat, (s.cell c).ctx.getD 0, v, some (k, ord)) :: ·)
        else .error (trapOf 16)

/-- SENDM: one copy to each cell of the rank that the mask names (R250). -/
def execSendm (vd ra rb : BitVec 5) (s : State) : Host.Outcome State Fault Refusal :=
  cellOnly s do
    let h := getX s rb
    let m := getX s ra
    sendChecks s.me h [0]
    need (bits m 8 56 == 0 && m != 0 && bits h 46 18 == 0) (trapOf 2)
    match s.cur, s.myCtx, s.me.act with
    | .slot c _, some x, some a =>
      let ds ← multicastDests s x c m.toNat (bits h 40 6) (List.range 8)
      .ok (retire (bufferSend s h (msgDest h) a.vpe (getV s vd.toNat) ds) 4)
    | _, _, _ => .error (trapOf 16)

/-- The arrival word (Table 10.6): its flags but STOLEN stand with the message and stay (DEDUCED, log entry 52). -/
def arrivalWord (a : Activation) : Word := word (a.msg.aflg.toNat ||| (if a.stolen then 4 else 0))

/-- MSGLD: a word of the triggering message (R251). -/
def execMsgld (rd ra : BitVec 5) (s : State) : Host.Outcome State Fault Refusal :=
  cellOnly s do
    let i := (getX s ra).toNat
    match s.me.act with
    | none => .error (trapOf 2)
    | some a =>
      if i = 0 then .ok (retire (setX s rd a.msg.hdr) 4)
      else if i = 15 then .ok (retire (setX s rd (arrivalWord a)) 4)
      else if i ≤ msgLen a.msg.hdr then .ok (retire (setX s rd (a.msg.pay.getD (i - 1) 0)) 4)
      else .error (trapOf 3)

/-! ### Binding and masking -/

/-- The native entry of a handler of the grid capsule, by its portable index. -/
def handlerEntry (s : State) (x : Context) (hidx : Nat) : Option Nat :=
  (gridCapsule s x).bind fun g => (g.handlers.find hidx).map fun n => entryOf g n

/-- Entry `ch` of a cell's handler table, and its write. -/
def Cell.handler (x : Cell) (ch : Nat) : Handler := x.handlers[ch]?.getD Handler.zero
/-- Write entry `ch`. -/
def Cell.setHandler (x : Cell) (ch : Nat) (h : Handler) : Cell := { x with handlers := x.handlers.setIfInBounds ch h }

/-- A binding form acts on its own cell; in a stolen activation, 0x02; on a DFC, 0x01 (R256). -/
def bindingForm (s : State) (g : Nat → Activation → Context → Except Halt State) : Host.Outcome State Fault Refusal :=
  cellOnly s <|
    match s.cur, s.me.act, s.myCtx with
    | .slot c _, some a, some x => if a.stolen then .error (trapOf 2) else (g c a x).map fun t => retire t 4
    | _, _, _ => .error (trapOf 2)

/-- Write the handler-table entry that bind word `w` names (R253), with the stream word's fields where there is one (R254). -/
def bindEntry (s : State) (c : Nat) (x : Context) (w : Word) (stream : Option Word) : Except Halt State := do
  need (bits w 5 7 == 0 && bits w 14 2 != 3) (trapOf 2)
  match handlerEntry s x (bits w 16 16) with
  | none => .error (trapOf 2)
  | some nent =>
    let cl := s.cell c
    let ch := bits w 0 5
    let h := cl.handler ch
    let h := { h with hidx := BitVec.ofNat 16 (bits w 16 16), role := BitVec.ofNat 2 (bits w 14 2), rep := bit w 13, stl := bit w 12,
                      tb := BitVec.ofNat 32 (bits w 32 32), nent := nent, bnd := true }
    let h := match stream with
      | none => { h with sbd := false }
      | some t => { h with sbd := true, sq := BitVec.ofNat 3 (bits t 0 3), srb := BitVec.ofNat 4 (bits t 3 4), slen := BitVec.ofNat 4 (bits t 7 4) }
    .ok (s.setCell c (cl.setHandler ch h))

/-- BIND (R253). -/
def execBind (ra : BitVec 5) (s : State) : Host.Outcome State Fault Refusal :=
  bindingForm s fun c _ x => bindEntry s c x (getX s ra) none

/-- SBIND (R254). -/
def execSbind (ra rb : BitVec 5) (s : State) : Host.Outcome State Fault Refusal :=
  bindingForm s fun c _ x =>
    let t := getX s rb
    if bits t 11 53 = 0 ∧ bits t 3 4 + bits t 7 4 ≤ 15 then bindEntry s c x (getX s ra) (some t) else .error (trapOf 2)

/-- A pair that is no longer runnable starts again at age 0 when it next is (R177). -/
def dropAge (p : Vpe) (ch : Nat) : Vpe := { p with ages := p.ages.put ch 0, promoted := p.promoted.drop ch }

/-- UNBIND (R254). -/
def execUnbind (ra : BitVec 5) (s : State) : Host.Outcome State Fault Refusal :=
  bindingForm s fun c _ _ =>
    let w := getX s ra
    if bits w 5 59 ≠ 0 then .error (trapOf 2)
    else
      let cl := s.cell c
      let ch := bits w 0 5
      let s := s.setCell c (cl.setHandler ch { cl.handler ch with bnd := false, sbd := false })
      .ok (s.onCtx ((s.cell c).ctx.getD 0) fun x =>
        { x with vpes := x.vpes.map fun p => if x.cells[p.1 % x.fold.p]? = some c then (p.1, dropAge p.2 ch) else p })

/-- CHMASK (R255). -/
def execChmask (ra : BitVec 5) (s : State) : Host.Outcome State Fault Refusal :=
  bindingForm s fun c a _ =>
    let w := getX s ra
    if bits w 32 32 ≠ 0 then .error (trapOf 2)
    else .ok (s.onVpe ((s.cell c).ctx.getD 0) a.vpe fun p =>
      (List.range 32).foldl (fun p ch => if bit w ch then dropAge p ch else p) { p with cmask := p.cmask ||| w.setWidth 32 })

/-- CHUNMASK (R255). -/
def execChunmask (ra : BitVec 5) (s : State) : Host.Outcome State Fault Refusal :=
  bindingForm s fun c a _ =>
    let w := getX s ra
    if bits w 32 32 ≠ 0 then .error (trapOf 2)
    else .ok (s.onVpe ((s.cell c).ctx.getD 0) a.vpe fun p => { p with cmask := p.cmask &&& ~~~(w.setWidth 32) })

/-! ### Streams being fed (R179) -/

/-- The next message of an open stream's source in a queue, when it is a STREAM message; a later STREAM-START of the source stays queued. -/
def nextEntry (q : List Msg) (src : Nat) : Option Msg :=
  match q.find? fun m => m.src == src && (msgKind m.hdr == 2 || msgKind m.hdr == 3) with
  | some m => if msgKind m.hdr = 2 then some m else none
  | none => none

/-- A list without the first occurrence of a message. -/
def dropMsg (m : Msg) : List Msg → List Msg
  | [] => []
  | a :: r => if a = m then r else a :: dropMsg m r

/-- The 64-byte entry of a STREAM message; missing words are zero (R179). -/
def streamEntry (m : Msg) : Vec := BitVec.ofNat 512 (fields ((m.pay.take 8).map fun w => (64, w.toNat)))

/-- Push STREAM messages into the bound queue of a stream slot while it has room; each frees its input-buffer entry at once. A push that WCMP3
matches has no running activation to name, so its stop lands at the cell's next activation boundary (R160). -/
def feedStream (s : State) (r c k : Nat) : Nat → State
  | 0 => s
  | n + 1 =>
    match (s.slot c k).status, (s.slot c k).act with
    | .stream src, some a =>
      let p := ((s.ctx r).map fun x => x.vpe a.vpe).getD Vpe.reset
      let q := (s.slot c k).q[a.h.sq.toNat]?.getD QReg.empty
      match nextEntry (p.queues.getD a.ch []) src with
      | some m =>
        if q.ents.length < 4 then
          let s := s.onVpe r a.vpe fun p => { p with queues := p.queues.put a.ch (dropMsg m (p.queues.getD a.ch [])) }
          let s := freeEntries s r a.vpe [m]
          let l := s.slot c k
          let q := { q with ents := q.ents ++ [QEntry.of (streamEntry m)] }
          let s := s.setSlot c k { l with q := l.q.setIfInBounds a.h.sq.toNat q }
          let s := if queueMatch s c a.h.sq.toNat false true then
              (if stopEnabled a then requestStop (recordHit s c 3 none) c 2 else recordHit s c 3 none) else s
          feedStream s r c k n
        else s
      | none => s
    | _, _ => s

/-- Feed every stream slot of a cell. -/
def feedStreams (s : State) (c : Nat) : State :=
  match (s.cell c).ctx with
  | some r => (List.range 4).foldl (fun s k => feedStream s r c k 4) s
  | none => s

end Sys2Proof.Machine
end

