-- ==== Sys2Proof/Machine/Activation.lean ====
section
/-! DEFINITION. Messages and activations (R53 to R56, R130 to R133, R173 to R186): arrival and spilling, the outbound list, the choice of the
next pair, activation start, stealing, streams, the turn budget and pre-emption. -/

namespace Sys2Proof.Machine

/-! ### Pairs -/

/-- The virtual PEs of a context hosted on a cell (Formula (7.2)). -/
def hosted (x : Context) (c : Nat) : List Nat :=
  match x.cells.idxOf? c with
  | some i => (List.range x.fold.f).filterMap fun h => if i + h * x.fold.p < x.fold.v then some (i + h * x.fold.p) else none
  | none => []

/-- The share of input-buffer entries of each virtual PE (R53). -/
def share (x : Context) : Nat := 128 / x.fold.f

/-- Whether an open stream keeps the pair's messages waiting: only the EOS of the source is taken while it is open (R179). That this holds a
WORD, GRANT or CONTROL message of the stream's own source too is the model's (DESIGN CHOICE, log entry 70). -/
def heldByStream (p : Vpe) (ch : Nat) : Bool := (p.streams.find ch).isSome

/-- Whether (virtual PE, channel) is runnable, under the handler table of its cell (R175). -/
def runnable (cl : Cell) (p : Vpe) (ch : Nat) : Bool :=
  !(p.queues.getD ch []).isEmpty && (cl.handler ch).bnd && !bit p.cmask ch && !bit p.amask ch && !p.busy.has ch && !heldByStream p ch

/-- The runnable pairs of a cell: (virtual PE, channel). -/
def runnablePairs (s : State) (c : Nat) : List (Nat × Nat) :=
  match (s.cell c).ctx.bind s.ctx with
  | none => []
  | some x => (hosted x c).flatMap fun v => ((List.range 32).filter (runnable (s.cell c) (x.vpe v))).map fun ch => (v, ch)

/-- Whether the cell is allowed to start an activation: its context is not contained, detached, saved or struck, no request is pending, it is not
stopped, its rank is awake, its job's gate is open, and its grid capsule is neither INSTALLING nor QUARANTINED (R184, R331, R387, R401, R405, R409). -/
def mayStart (s : State) (c : Nat) : Bool :=
  match (s.cell c).ctx.bind s.ctx with
  | none => false
  | some x =>
    !x.contained && !x.detached && x.saving.isNone && !(s.cell c).preempt && !s.stoppedAll
      && (match (s.cell c).stop with | .no => true | .stepping => true | _ => false)
      && s.power.idle.getD (rankOfCell c) 0 == 0 && !s.power.exiting.has (rankOfCell c)
      && (match x.job.bind s.jobs.find with | some j => j.gate | none => true)
      && (match s.caps.find x.grid with | some b => b.state != 4 && b.state != 0 | none => true)

/-- The key by which pairs are ordered (R176): promoted pairs oldest first, then by role, age, channel and hosted ordinal. -/
def pairKey (s : State) (c : Nat) (x : Context) (v ch : Nat) : List Nat :=
  let p := x.vpe v
  let age := p.ages.getD ch 0
  if p.promoted.has ch || decide (max 64 (s.cell c).agel.toNat < age) then [0, 2 ^ 64 - age, ch, v / x.fold.p]
  else [1, ((s.cell c).handler ch).role.toNat, 2 ^ 64 - age, ch, v / x.fold.p]

/-- The pair that comes first (R176). -/
def firstPair (s : State) (c : Nat) (x : Context) : List (Nat × Nat) → Option (Nat × Nat)
  | [] => none
  | q :: r =>
    match firstPair s c x r with
    | none => some q
    | some q' => some (if pairKey s c x q'.1 q'.2 < pairKey s c x q.1 q.2 then q' else q)

/-- A free slot of a cell. -/
def freeSlot (x : Cell) : Option Nat := (List.range 4).find? fun k => decide ((x.slot k).status = .free)

/-- The free slots of a cell. -/
def freeSlots (x : Cell) : List Nat := (List.range 4).filter fun k => decide ((x.slot k).status = .free)

/-! ### Arrival and spilling (R53 to R56) -/

/-- The room of a cell's spill ring, with its extension when attached. -/
def spillRoom (x : Context) (cl : Cell) : Nat := x.spillEntries + if cl.ext then x.extEntries else 0

/-- Put a stamped message into the input buffer of its virtual PE: it joins its channel's queue (R53, R175). -/
def enterBuffer (s : State) (r v : Nat) (m : Msg) : State :=
  let ch := bits m.hdr 11 5
  s.onVpe r v fun p => { p with queues := p.queues.put ch (p.queues.getD ch [] ++ [m]), used := p.used + 1 }

/-- Whether an arrival for a pair must spill: the share is full, or an earlier message of the pair has spilled (R54, R55). -/
def mustSpill (x : Context) (cl : Cell) (v ch : Nat) : Bool :=
  decide (share x ≤ (x.vpe v).used) || cl.spill.any fun e => e.1 == v && e.2.1 == ch

/-- The i-th element taken out of a list. -/
def takeAt {α : Type} (l : List α) (i : Nat) : Option (α × List α) := (l[i]?).map fun a => (a, l.take i ++ l.drop (i + 1))

/-- Move spilled messages of virtual PE `v` into the free entries of its share, the oldest first (R55); `fuel` bounds their number. -/
def moveSpilled (s : State) (r c v : Nat) : Nat → State
  | 0 => s
  | n + 1 =>
    match s.ctx r, ((s.cell c).spill.findIdx? fun e => e.1 == v).bind (takeAt (s.cell c).spill) with
    | some x, some (e, rest) =>
      if (x.vpe v).used < share x then moveSpilled (enterBuffer (s.setCell c { s.cell c with spill := rest }) r v e.2.2) r c v n else s
    | _, _ => s

/-- Place an arriving message of a context at its cell, with the port and time of one that came over a link (R375): input buffer, spill ring, or held in the network (R53 to R56). Spilled messages of its
virtual PE take the free entries before it (R55). The stamp is the time of arrival; a message in the ring is marked SPILL (Table 10.6). A
message held at a full ring notifies the die firmware core, by DEVENT bit 3 (DESIGN CHOICE, log entry 71). -/
def placeMsg (s : State) (r : Nat) (x : Context) (p : Packet) : State :=
  let c := hostCell x p.dvpe
  let s := moveSpilled s r c p.dvpe (s.cell c).spill.length
  let x := (s.ctx r).getD x
  let cl := s.cell c
  let ch := bits p.msg.hdr 11 5
  let m := { p.msg with
    enq := if p.msg.enq = 0 then s.time else p.msg.enq, via := if p.inport < 24 then some (p.inport, p.tsw) else p.msg.via }
  if !cl.netHeld.isEmpty then s.setCell c { cl with netHeld := cl.netHeld ++ [{ p with msg := m }] }
  else if mustSpill x cl p.dvpe ch then
    if cl.spill.length < spillRoom x cl then s.setCell c { cl with spill := cl.spill ++ [(p.dvpe, ch, flagMsg m 4)] }
    else raiseEvent (s.setCell c { cl with netHeld := [{ p with msg := m }] }) (dieOfCell c) 3
  else feedStreams (enterBuffer s r p.dvpe m) c

/-- Let arrivals held in the network in, in order, while there is room (R56). -/
def admitHeld (s : State) (r c : Nat) : Nat → State
  | 0 => s
  | n + 1 =>
    match s.ctx r, (s.cell c).netHeld with
    | some x, p :: rest =>
      let t := placeMsg (s.setCell c { s.cell c with netHeld := [] }) r x p
      if (t.cell c).netHeld.isEmpty then admitHeld (t.setCell c { t.cell c with netHeld := rest }) r c n else s
    | _, _ => s

/-- The sender of a GRANT that an image has held, which its record does not name: it counts as any of its context's (R249; DESIGN CHOICE, log entry 85). -/
def anySource : Nat := 2 ^ 24

/-- Whether two packets are of one triple, whose order is kept (R55, R170). -/
def sameTriple (a b : Packet) : Bool :=
  a.sdev == b.sdev && a.sctx == b.sctx && (a.msg.src == b.msg.src || a.msg.src == anySource || b.msg.src == anySource) && a.msg.cmd == b.msg.cmd && a.dctx == b.dctx && a.dvpe == b.dvpe
    && bits a.msg.hdr 11 5 == bits b.msg.hdr 11 5

/-- Keep a message for a resident context without cells in its arrival area, or contain the context when the area is full (R440): then the message
stays where it is. -/
def keepArrival (s : State) (x : Context) (p : Packet) : Option State :=
  if x.arrived.length < x.arriveEntries then some (s.setCtx p.dctx { x with arrived := x.arrived ++ [p] }) else none

/-- A packet of a collective between devices (R118): KIND 6, which no message has (DESIGN CHOICE, log entry 75). -/
def isExchange (m : Msg) : Bool := msgKind m.hdr == 6

/-- Take a collective's packet in for its context; one that repeats an earlier one replaces it. -/
def takeExchange (s : State) (p : Packet) : State :=
  s.onCtx p.dctx fun x =>
    { x with exchange := (x.exchange.filter fun e => !(e.1 == p.sdev && e.2.1 == p.sctx && e.2.2.hdr == p.msg.hdr)) ++ [(p.sdev, p.sctx, p.msg)] }

/-- The network hands over a packet whose turn it is; `kept` is the state without it. Without a resident context or virtual PE it is discarded
with a TYPE 13 record (R442, here for a message that never left the device) (DEDUCED, log entry 31). -/
def arriveFrom (s kept : State) (p : Packet) : State :=
  match s.ctx p.dctx with
  | none => errorRecord kept 13 2 (some p.sctx) (dieOfCell 0) 1 (fields [(9, p.sdev), (10, p.dctx), (21, 0), (24, p.dvpe)]) 0
  | some x =>
    if isExchange p.msg then takeExchange kept p
    else if x.cells.isEmpty then
      match keepArrival kept x p with
      | some t => t
      | none => if x.contained then s else containWithRecord s p.dctx 0 0 0
    else if p.dvpe < x.fold.v then placeMsg kept p.dctx x p
    else errorRecord kept 13 2 (some p.sctx) (dieOfCell 0) 1 (fields [(9, p.sdev), (10, p.dctx), (21, 0), (24, p.dvpe)]) 0

/-- The first spilled message whose virtual PE has room, and the ring without it. -/
def firstMovable (x : Context) (l : List (Nat × Nat × Msg)) : Option ((Nat × Nat × Msg) × List (Nat × Nat × Msg)) :=
  match l.findIdx? fun e => decide ((x.vpe e.1).used < share x) with
  | some i => takeAt l i
  | none => none

/-- `SPILL_TO_BUFFER_MOVE` (R55): the oldest spilled message of a virtual PE with room moves into the freed entry; arrivals held in the network
follow into the ring. -/
def execSpillToBufferMove (s : State) : Host.Outcome State Fault Refusal :=
  let c := s.inp.cell
  match (s.cell c).ctx with
  | none => .next s
  | some r =>
    match s.ctx r with
    | none => .next s
    | some x =>
      match firstMovable x (s.cell c).spill with
      | none => .next s
      | some (e, rest) =>
        let s := enterBuffer (s.setCell c { s.cell c with spill := rest }) r e.1 e.2.2
        .next (admitHeld (feedStreams s c) r c 1)

/-- `SPILL_OVERFLOW_EXTENSION` (R56): for arrivals held at a full ring, the extension is attached, or the context is contained with a record
that names the cell. -/
def execSpillOverflowExtension (s : State) : Host.Outcome State Fault Refusal :=
  let c := s.inp.cell
  match (s.cell c).ctx with
  | none => .next s
  | some r =>
    match s.ctx r with
    | none => .next s
    | some x =>
      if (s.cell c).netHeld.isEmpty then .next s
      else if !(s.cell c).ext && decide (0 < x.extEntries) then
        .next (admitHeld (s.setCell c { s.cell c with ext := true }) r c (s.cell c).netHeld.length)
      else if x.contained then .next s
      else .next (containWithRecord s r (dieOfCell c) c 0)

/-! ### The outbound list (R130, R133) -/

/-- Whether a multicast message can leave: every masked counter is above zero (R130). -/
def countersReady (cl : Cell) (m : OutMsg) : Bool :=
  m.dests.all fun d => match d.2.2.2 with
    | some (k, h) => decide (0 < cl.freeCnt.getD (k * 64 + h) 0)
    | none => true

/-- The counters after a message has left. -/
def drawCounters (cl : Cell) (m : OutMsg) : Cell :=
  { cl with freeCnt := m.dests.foldl (fun f d => match d.2.2.2 with
    | some (k, h) => NMap.put f (k * 64 + h) (NMap.getD f (k * 64 + h) 0 - 1)
    | none => f) cl.freeCnt }

/-- A message that cannot leave is lost, with a link record; the context of this device that sends it is contained, and none for a packet that came in over a
link (R400). -/
def sendLost (s : State) (p : Packet) (die detail : Nat) : State :=
  if p.sdev = s.devId.toNat ∧ 24 ≤ p.inport then errorRecord (contain s p.sctx) 3 1 (some p.sctx) die 1 detail 0 else errorRecord s 3 2 none die 1 detail 0

/-- Hand a message for one receiver to the network: inside the device, or to the egress of the port its route names, with the TIME at which it reached the link
switch (TSW of Table 16.6). Without a route, or over a
port that is down, it is lost with a link record that names the device or the port, and its sending context, where it is of this device, is contained (R400) (DEDUCED, log entry 15). -/
def sendPacket (s : State) (p : Packet) : State :=
  if p.ddev = s.devId.toNat then { s with net := s.net ++ [p] }
  else
    match s.routes.find p.ddev with
    | some port =>
      if (s.port port).up then s.setPort port { s.port port with egress := (s.port port).egress ++ [{ p with tsw := s.time }] }
      else sendLost s p (4 + port / 12) port
    | none => sendLost s p 4 p.ddev

/-- Keep a packet in the ingress buffer of its port. -/
def keepIngress (s : State) (p : Packet) : State := s.setPort p.inport { s.port p.inport with ingress := (s.port p.inport).ingress ++ [p] }

/-- A message from a link for a context that is not resident, or a virtual PE not below V, is discarded with a TYPE 13 record with CV 0, and a refusal goes back
(R442). -/
def refuseMessage (s : State) (p : Packet) : State :=
  let s := errorRecord s 13 2 none (if p.inport < 24 then 4 + p.inport / 12 else 4) 1 (fields [(9, p.sdev), (10, p.dctx), (21, 0), (24, p.dvpe)]) 0
  { s with reports := s.reports ++ [[7, word p.sdev, word p.sctx, word p.dctx, word p.dvpe]] }

/-- A packet from a link port takes its way: to its context here, or on to the port its route names (R400). What finds a full arrival area contains the context and
stays in the ingress buffer, and what comes behind it for that context too (R440). -/
def linkDeliver (s : State) (p : Packet) : State :=
  if p.ddev ≠ s.devId.toNat then sendPacket s p
  else match s.ctx p.dctx with
    | none => refuseMessage s p
    | some x =>
      if isExchange p.msg then takeExchange s p
      else if x.cells.isEmpty then
        if (s.port p.inport).ingress.any (fun q => q.ddev == p.ddev && q.dctx == p.dctx) then keepIngress s p
        else match keepArrival s x p with
          | some t => t
          | none => keepIngress (if x.contained then s else containWithRecord s p.dctx 0 0 0) p
      else if p.dvpe < x.fold.v then placeMsg s p.dctx x p
      else refuseMessage s p

/-- Deliver the packets of some kind that port buffers hold, port by port in their order; one that cannot be delivered stays behind those left. -/
def emptyIngress (s : State) (g : Packet → Bool) : State :=
  (List.range Config.ports).foldl (fun s p =>
    let i := (s.port p).ingress
    (i.filter g).foldl linkDeliver (s.setPort p { s.port p with ingress := i.filter fun q => !g q })) s

/-- Send a released message to its receivers; a multicast copy carries MCAST (Table 10.6) and the cell whose counter its slot returns to. -/
def release (s : State) (r c : Nat) (m : OutMsg) : State :=
  m.dests.foldl (fun s d =>
    sendPacket s ⟨s.devId.toNat, r, d.1, d.2.1, d.2.2.1, 24, 0, if d.2.2.2.isSome then { flagMsg m.msg 3 with mcell := some c } else { m.msg with mcell := none }⟩) s

/-- End the stall of a slot at END step 3, when its messages have left or a request is pending (R133). -/
def endStall (s : State) (c k : Nat) (force : Bool) : State :=
  if (s.slot c k).ending && (force || !stillLeaving s c k) then completeEnd s c k else s

/-- End the stalls of a cell's slots. -/
def endStalls (s : State) (c : Nat) (force : Bool) : State := (List.range 4).foldl (fun s k => endStall s c k force) s

/-- Whether the pitch gate of a context's job is open (R387). -/
def gateOpen (s : State) (r : Nat) : Bool :=
  match ((s.ctx r).bind fun x => x.job).bind s.jobs.find with
  | some j => j.gate
  | none => true

/-- Whether the outbound lists of a context stand still: one of its cells has a request pending (R133), but in the HALT of a strike, where ending activations
release their sends (Table 16.8). -/
def listsStand (s : State) (r : Nat) (c : Nat) : Bool :=
  (s.cell c).preempt && !(((s.ctx r).bind fun x => x.job).bind s.jobs.find).any fun j => j.phase == 1

/-- `OUTBOUND_LIST_DRAIN` (R133): the head message leaves when its counters allow; a slot whose messages have all left completes its END. -/
def execOutboundListDrain (s : State) : Host.Outcome State Fault Refusal :=
  let c := s.inp.cell
  match (s.cell c).ctx, (s.cell c).outbound with
  | some r, m :: rest =>
    if listsStand s r c || !gateOpen s r || !(m.paid || countersReady (s.cell c) m) then .next s
    else
      let cl := { s.cell c with outbound := rest }
      let s := s.setCell c (if m.paid then cl else drawCounters cl m)
      .next (endStalls (release s r c m) c false)
  | _, _ => .next s

/-- `MULTICAST_SLOT_RETURN` (R130): a returned slot reaches the counter of the sending cell. -/
def execMulticastSlotReturn (s : State) : Host.Outcome State Fault Refusal :=
  match takeAt s.mcReturns s.inp.idx with
  | none => .next s
  | some ((c, i), rest) =>
    let s := { s with mcReturns := rest }
    let cl := s.cell c
    .next (s.setCell c { cl with freeCnt := cl.freeCnt.put i (cl.freeCnt.getD i 0 + 1) })

/-! ### Activation start (R176, R330) -/

/-- A register file of free values, numbered from `n` (R162) (DEDUCED, log entry 32). -/
def freeSlotRegs (l : Slot) (n : Nat) : Slot :=
  { l with
    x := Vector.ofFn fun i => if i.val = 0 then 0 else Config.freeWord (n + i.val)
    v := Vector.ofFn fun i => Config.freeVec (n + i.val)
    q := Vector.ofFn fun i => { QReg.empty with ents := ((Config.freeEntries (n + i.val)).take 4).map QEntry.of }
    cb := Vector.ofFn fun i => (Config.freeVec (n + 16 + i.val)).setWidth 256
    k := Vector.ofFn fun i => (Config.freeWord (n + 32 + i.val)).setWidth 32 }

/-- The turn budget that a TB field gives (Table 7.4). -/
def budgetOf (tb : BitVec 32) : Nat := if tb = 0 then 2 ^ 32 else tb.toNat

/-- A slot as an activation of record `a` finds it at its start, at byte `pc` of capsule `cap`: every slot-scoped CSR has its reset value, the fault CSRs
among them, of which R162 says no more than that they are undefined (R162, R176, R223, R272) (DEDUCED, log entry 32). -/
def startSlot (l : Slot) (a : Activation) (cap pc n : Nat) : Slot :=
  { freeSlotRegs l.freed n with
    status := .running, act := some a, cap := cap, pc := pc, vl := 16, csr := Csrs.reset, tbud := budgetOf a.h.tb
    fcause := 0, foref := 0, fcoord := 0, atStart := true }

/-- Whether a body's tag is the device's (R330). -/
def tagCurrent (s : State) (x : Capsule) : Bool := x.gen == s.fw.gen && x.step == s.fw.step && x.ibh == s.fw.ibh

/-- The capsule is VOID when its body's tag is not the device's (R330). -/
def checkTag (s : State) (cap : Nat) : State :=
  match s.caps.find cap with
  | some x => if x.state = 1 ∧ !tagCurrent s x then { s with caps := s.caps.put cap { x with state := 2 } } else s
  | none => s

/-- Account the start of an activation in slot `k` of the cell that runs it (R413). -/
def accountStart (x : Cell) (k : Nat) (now : Word) (m : Msg) : Cell :=
  { x with
    idleClk := 0
    searching := x.searching.drop k
    acct := { x.acct with
      qwait := held64 (x.acct.qwait.toNat + (now - m.ret.getD m.enq).toNat)
      nact := BitVec.ofNat 32 (min (x.acct.nact.toNat + 1) (2 ^ 32 - 1)) } }

/-- The head message of a pair leaves its queue: the pair is busy, its age starts anew (R175, R177). -/
def takeHead (s : State) (r v ch : Nat) : State :=
  s.onVpe r v fun p =>
    { p with queues := p.queues.put ch ((p.queues.getD ch []).drop 1), busy := p.busy.add ch, ages := p.ages.put ch 0
             promoted := p.promoted.drop ch }

/-- The activation record for message `m` of (v, ch), under the handler table of cell `owner`. -/
def newActivation (s : State) (x : Context) (owner v ch : Nat) (m : Msg) (stolen : Bool) : Activation where
  vpe := v
  ch := ch
  msg := m
  h := (s.cell owner).handler ch
  owner := owner
  stolen := stolen
  hord := if stolen then 0 else v / x.fold.p
  dbg := x.dbgctl
  deq := s.time
  serial := s.serial
  parked := 0
  mis := 0
  misv := 0

/-- Put an activation into slot `k` of cell `c` at its handler's entry; it parks there with 0x12 when the body is VOID (R330). -/
def beginAt (s : State) (c k : Nat) (x : Context) (a : Activation) : State :=
  let s := checkTag s x.grid
  let entry := (handlerEntry s x a.h.hidx.toNat).getD 0
  let a := { a with h := { a.h with nent := entry } }
  let cl := accountStart (s.cell c) k s.time a.msg
  let s := s.setCell c cl
  let s := { s with fresh := s.fresh + 64, serial := s.serial + 1 }
  let s := s.setSlot c k (startSlot (s.slot c k) a x.grid entry (s.fresh - 64))
  let s := traceRecord s c k 1 0 (handlerPlace s c a) 0
  let void := match s.caps.find x.grid with | some b => voidBody b | none => false
  let s := { s with cur := .slot c k }
  if void then settle s (parkVoid x.grid) else s

/-- After one start, a stepping cell stops again when the activation ends (R411). -/
def stepTaken (s : State) (c : Nat) : State :=
  match (s.cell c).stop with
  | .stepping => s.setCell c { s.cell c with stop := .stopping 0 }
  | _ => s

/-- Whether the head of a pair opens a stream (R179). -/
def opensStream (cl : Cell) (p : Vpe) (ch : Nat) : Bool :=
  match p.queues.getD ch [] with
  | m :: _ => (cl.handler ch).sbd && msgKind m.hdr == 1
  | [] => false

/-- `ACTIVATION_START` (R176): a free slot starts the first runnable pair. A pair whose head opens a stream is taken by `STREAM_OPEN`. -/
def execActivationStart (s : State) : Host.Outcome State Fault Refusal :=
  let c := s.inp.cell
  match (s.cell c).ctx, freeSlot (s.cell c) with
  | some r, some k =>
    match s.ctx r with
    | none => .next s
    | some x =>
      if !mayStart s c then .next s
      else
        match firstPair s c x (runnablePairs s c) with
        | none => .next s
        | some (v, ch) =>
          match (x.vpe v).queues.getD ch [] with
          | [] => .next s
          | m :: _ =>
            if opensStream (s.cell c) (x.vpe v) ch then .next s
            else .next (stepTaken (beginAt (takeHead s r v ch) c k x (newActivation s x c v ch m false)) c)
  | _, _ => .next s

/-- `AGE_PROMOTION` (R177): a runnable pair whose age exceeds AGEL is promoted. -/
def execAgePromotion (s : State) : Host.Outcome State Fault Refusal :=
  let c := s.inp.cell
  match (s.cell c).ctx with
  | none => .next s
  | some r =>
    match s.ctx r with
    | none => .next s
    | some x =>
      let v := s.inp.vpe
      let ch := s.inp.chan
      if (runnablePairs s c).contains (v, ch) && decide (max 64 (s.cell c).agel.toNat < (x.vpe v).ages.getD ch 0) then
        .next (s.onVpe r v fun p => { p with promoted := p.promoted.add ch })
      else .next s

/-! ### Stealing (R181, R182) -/

/-- The cells a steal attempt probes: up to four of the own context, of its rank in cell order from its own on and wrapping, then of its die in
increasing number after its own (R181). -/
def probes (x : Context) (c : Nat) : List Nat :=
  let own := x.cells.filter (· != c)
  let rank := own.filter fun d => rankOfCell d == rankOfCell c
  let rank := rank.filter (c < ·) ++ rank.filter (· < c)
  let die := own.filter fun d => dieOfCell d == dieOfCell c && rankOfCell d != rankOfCell c
  (rank ++ die.filter (c < ·)).take 4

/-- The pairs of a cell that can be stolen: (cell, virtual PE, channel, head message). A STREAM-START that would open a stream is left to its
owner (DESIGN CHOICE, log entry 72). -/
def stealable (s : State) (x : Context) (c : Nat) : List (Nat × Nat × Nat × Msg) :=
  if mayStart s c && decide ((s.cell c).stop = .no) then
    (runnablePairs s c).filterMap fun q =>
      match (x.vpe q.1).queues.getD q.2 [] with
      | m :: _ =>
        if ((s.cell c).handler q.2).stl && !bit m.aflg 0 && !opensStream (s.cell c) (x.vpe q.1) q.2 then some (c, q.1, q.2, m) else none
      | [] => none
  else []

/-- The candidate with the oldest enqueue stamp; of equal stamps the one probed first (DESIGN CHOICE, log entry 72). -/
def oldest : List (Nat × Nat × Nat × Msg) → Option (Nat × Nat × Nat × Msg)
  | [] => none
  | e :: r =>
    match oldest r with
    | none => some e
    | some e' => some (if e'.2.2.2.enq < e.2.2.2.enq then e' else e)

/-- `STEAL_ATTEMPT` (R181): after 32 idle clk, up to four cells are probed; the oldest stealable message starts here, or the attempt fails. A cell that is
stopped, or takes one step, neither steals nor is stolen from (R410, R411). -/
def execStealAttempt (s : State) : Host.Outcome State Fault Refusal :=
  let c := s.inp.cell
  match (s.cell c).ctx, freeSlot (s.cell c) with
  | some r, some k =>
    match s.ctx r with
    | none => .next s
    | some x =>
      if !mayStart s c || decide ((s.cell c).stop ≠ .no) || decide ((s.cell c).idleClk < 32) || !(runnablePairs s c).isEmpty then .next s
      else
        let found := (probes x c).any fun d => !(runnablePairs s d).isEmpty
        let cl := { s.cell c with searching := if found then freeSlots (s.cell c) else [] }
        match oldest ((probes x c).flatMap (stealable s x)) with
        | none =>
          let n := BitVec.ofNat 32 (min (cl.acct.stealfail.toNat + 1) (2 ^ 32 - 1))
          .next (s.setCell c { cl with idleClk := 0, acct := { cl.acct with stealfail := n } })
        | some (o, v, ch, m) =>
          let n := BitVec.ofNat 32 (min (cl.acct.stealok.toNat + 1) (2 ^ 32 - 1))
          let s := s.setCell c { cl with acct := { cl.acct with stealok := n } }
          let s := beginAt (takeHead s r v ch) c k x (newActivation s x o v ch m true)
          let at' := ((s.slot c k).act.map (handlerPlace s c)).getD (0, 0, 0)
          .next (traceRecord s c k 8 o at' 0)
  | _, _ => .next s

/-! ### Budgets and pre-emption (R183, R184) -/

/-- `TURN_BUDGET_EXPIRY` (R183): TBUD would pass zero, and the activation is aborted with 0x08 (DEDUCED, log entry 41). -/
def execTurnBudgetExpiry (s : State) : Host.Outcome State Fault Refusal :=
  let l := s.slot s.inp.cell s.inp.slot
  if l.status = .running ∧ budgetOut l then .next (expireBudget s s.inp.cell s.inp.slot) else .next s

/-- `PREEMPTION_REQUEST` (R184): the cells of a context start no more activations, and stalls at END end (R133). -/
def execPreemptionRequest (s : State) : Host.Outcome State Fault Refusal :=
  match s.ctx s.inp.ctx with
  | none => .next s
  | some x => .next (x.cells.foldl (fun s c => endStalls (s.setCell c { s.cell c with preempt := true }) c true) s)

/-! ### Streams (R179, R180, R292) -/

/-- `STREAM_OPEN` (R179): a STREAM-START at the head of the first runnable pair claims a free slot as a stream slot. Its input-buffer entry
is freed (DEDUCED, log entry 14). -/
def execStreamOpen (s : State) : Host.Outcome State Fault Refusal :=
  let c := s.inp.cell
  match (s.cell c).ctx, freeSlot (s.cell c) with
  | some r, some k =>
    match s.ctx r with
    | none => .next s
    | some x =>
      if !mayStart s c then .next s
      else
        match firstPair s c x (runnablePairs s c) with
        | none => .next s
        | some (v, ch) =>
          match (x.vpe v).queues.getD ch [] with
          | [] => .next s
          | m :: _ =>
            if !opensStream (s.cell c) (x.vpe v) ch then .next s
            else
              let a := newActivation s x c v ch m false
              let s := freeEntries (takeHead s r v ch) r v [m]
              let s := s.onVpe r v fun p => { p with streams := p.streams.put ch m.src }
              let s := { s with fresh := s.fresh + 64, serial := s.serial + 1 }
              let l := startSlot (s.slot c k) a x.grid 0 (s.fresh - 64)
              let w := word (fields [(4, a.h.srb.toNat), (4, a.h.slen.toNat)])
              let l := { l with
                status := .stream m.src
                q := l.q.setIfInBounds a.h.sq.toNat ⟨.bound, [], 0, 0, 0, 0, []⟩
                seq := ⟨some ⟨w, 0, 16, a.h.srb.toNat, 0, x.grid, recordAt s x.grid 0⟩, none, 0⟩ }
              .next (stepTaken (feedStreams (s.setSlot c k l) c) c)
  | _, _ => .next s

/-- Whether a stream slot stands between repetitions with nothing to pop and nothing queued. -/
def drained (l : Slot) : Bool :=
  match l.act, l.seq.run with
  | some a, some r => (l.q[a.h.sq.toNat]?.getD QReg.empty).ents.isEmpty && r.bslot == bits r.word 0 4 && l.pend.isNone && l.mq.isEmpty
  | _, _ => false

/-- `STREAM_CLOSE` (R179): at the EOS of the source, once the sequence has drained SQ, the EOS activation starts on the stream slot, with the
bound queue back in plain mode, where the cell may start an activation (R184). The shadow of the sequence becomes the activation's, so that its
flags are committed or discarded with it (R6, R374; DESIGN CHOICE, log entry 73). It starts whether or not CMASK has been set, or the channel unbound, since
the stream opened (DESIGN CHOICE, log entry 100). -/
def execStreamClose (s : State) : Host.Outcome State Fault Refusal :=
  let c := s.inp.cell
  let k := s.inp.slot
  match (s.cell c).ctx, (s.slot c k).status, (s.slot c k).act with
  | some r, .stream src, some a =>
    match s.ctx r with
    | none => .next s
    | some x =>
      let q := (x.vpe a.vpe).queues.getD a.ch []
      match q.find? fun m => m.src == src && (msgKind m.hdr == 2 || msgKind m.hdr == 3) with
      | some m =>
        if msgKind m.hdr = 3 ∧ drained (s.slot c k) ∧ mayStart s c then
          let sh := (s.slot c k).shadow
          let s := s.onVpe r a.vpe fun p =>
            { p with queues := p.queues.put a.ch (dropMsg m (p.queues.getD a.ch [])), streams := p.streams.del a.ch, busy := p.busy.add a.ch
                     ages := p.ages.put a.ch 0, promoted := p.promoted.drop a.ch }
          let b := { newActivation s x c a.vpe a.ch m false with h := a.h }
          let s := beginAt s c k x b
          .next (stepTaken (s.setSlot c k { s.slot c k with shadow := sh }) c)
        else .next s
      | none => .next s
  | _, _, _ => .next s

/-- `STREAM_SLOT_BUDGET_EXPIRY` (R292): the budget of a stream slot expires and its stream is closed with 0x08. -/
def execStreamSlotBudgetExpiry (s : State) : Host.Outcome State Fault Refusal :=
  let c := s.inp.cell
  let k := s.inp.slot
  let l := s.slot c k
  match l.status with
  | .stream _ => if budgetOut l then .next (expireBudget s c k) else .next s
  | _ => .next s

end Sys2Proof.Machine
end

