-- ==== Sys2Proof/Machine/Atomic.lean ====
section
/-! DEFINITION. Atomics (R239 to R243, R194), fences and counter waits (R244, R245): MAJ 0x26 to 0x28. -/

namespace Sys2Proof.Machine

/-- The lesser or greater of two numbers read as signed values of `k` bits. -/
def signedPick (k : Nat) (least : Bool) (a b : Nat) : Nat :=
  if (signed a k ≤ signed b k) = least then a else b

/-- One FP32 lane of AMOFADD (R242): RoundRNE(m + b). -/
def faddLane (m b : Nat) : Nat × BitVec 6 :=
  let (r, fl) := add32 (elem m) (elem b)
  (r.toNat, fl)

/-- The new value of an atomic of `n` bytes from the old value `m`, the operand `b` and the expected value (Table 10.4); none where it
writes nothing; and the flags of AMOFADD. -/
def amoNew (op : Amo) (n m b expect : Nat) : Option Nat × BitVec 6 :=
  let b := b % 2 ^ (8 * n)
  match op with
  | .add => (some ((m + b) % 2 ^ (8 * n)), 0)
  | .and => (some (m &&& b), 0)
  | .or => (some (m ||| b), 0)
  | .xor => (some (m ^^^ b), 0)
  | .min => (some (signedPick (8 * n) true m b), 0)
  | .max => (some (signedPick (8 * n) false m b), 0)
  | .minu => (some (min m b), 0)
  | .maxu => (some (max m b), 0)
  | .swp => (some b, 0)
  | .cas => (if m = expect % 2 ^ (8 * n) then some b else none, 0)
  | .fadd =>
    let (r0, f0) := faddLane (m % 2 ^ 32) (b % 2 ^ 32)
    if n = 4 then (some r0, f0)
    else
      let (r1, f1) := faddLane (m / 2 ^ 32) (b / 2 ^ 32)
      (some (r1 * 2 ^ 32 + r0), f0 ||| f1)

/-- Whether host memory carries the operation (R243). -/
def hostAtomic : Amo → Bool
  | .add => true | .swp => true | .cas => true | _ => false

/-- Whether a reference is to an engine window, which takes no atomic (R105). -/
def inWindow (t : Target) : Bool :=
  match t.home with
  | .window _ => true
  | _ => false

/-- Whether a reference leads to host memory. -/
def inHost (t : Target) : Bool :=
  match t.home with
  | .paged h => h == 4
  | _ => false

/-- Whether a reference is translated at a memory port. -/
def isPaged (t : Target) : Bool :=
  match t.home with
  | .paged _ => true
  | _ => false

/-- The atomic performs at its place (R240): the old value is read and the new one written as one action; answers the old value, the
flags and the state. A remote device performs its own, and its answer is the old value, from which the flags follow (R242). A host atomic that
the host completed with Unsupported Request or Completer Abort (`State.inp`) raises 0x04 (R243). -/
def atomicAt (s : State) (v : View) (t : Target) (op : Amo) (n : Nat) (o b expect : Word) : Except Halt (Nat × BitVec 6 × State) :=
  match t.home with
  | .remote =>
    let m := numOfBytes ((s.inp.bytes ++ List.replicate n 0).take n)
    (remoteAnswer s t o 0 2).map fun _ => (m, (amoNew op n m b.toNat expect.toNat).2, s)
  | _ =>
    match locate s v t n true with
    | .error e => .error (noPageHalt v t o 0 2 e)
    | .ok l =>
      let hits := if l.watched then filterHits s (v.ctx.getD 0) t.slot t.off n true true else []
      if inHost t && s.inp.n == 1 then .error (.after (touchLeaves s l.leaves true) (.trap 4 o 0 2 false))
      else if s.poisoned l.keys then
        .error (.after (filterNote (touchLeaves s l.leaves true) hits (v.ctx.getD 0) t.slot t.off 2) (.trap 7 (o + s.poisonAt l.keys) 0 2 false))
      else
        let m := numOfBytes (s.bytesAt l)
        let (new, fl) := amoNew op n m b.toNat expect.toNat
        let s' := match new with
          | some x => writeAt s l (bytesOf n x) false false
          | none => touchLeaves s l.leaves true
        match filterEffect s hits (v.ctx.getD 0) t.slot t.off o 0 2 s' with
        | .error h => .error h
        | .ok s'' => .ok (m, fl, s'')

/-- An atomic of `n` bytes at the oref x[ra] (R239): the checks of R231, the wait of R194, and for a remote place its response. An atomic
that is a release performs only after every earlier write of its agent (DESIGN CHOICE, log entry 12). -/
def atomicForm (i : Instr) (op : Amo) (n : Nat) (rd ra rb : BitVec 5) (ord : BitVec 2) (s : State) : Host.Outcome State Fault Refusal :=
  scalar s do
    let v := viewOf s s.cur
    let o := getX s ra
    let t ← checkRef s v o n 11 2
    need (t.off % n == 0) (.trap 6 o 0 2 false)
    need (!inHost t || hostAtomic op) (.trap 2 o 0 2 false)
    need (!inWindow t) (.trap 2 o 0 2 false)
    let rel := ord == 2 || ord == 3
    let acq := ord == 1 || ord == 3
    let s := useDesc s v t
    let s ← localGate s t n (isLocal v t) (isLocal v t) o 2
    if isLocal v t then
      need (!readFenced s && !writeFenced s rel && !acquireHeld s acq) (.wait .counter)
    else
      match locate s v t n true with
      | .error e => .error (noPageHalt v t o 0 2 e)
      | .ok _ => need (counter s (postClass t) == 0 && !readFenced s && !writeFenced s rel) (.wait .counter)
      reach s v t o 0 n 2 0 true acq i
    let (m, fl, s') ← atomicAt s v t op n o (getX s rb) (getX s rd)
    .ok (retire (raiseFlags (setX s' rd (wordOf (signed m (8 * n)))) fl) 4)

/-- AMOADD, 4-byte (R240). -/
def execAmoaddW (rd ra rb : BitVec 5) (sc : BitVec 3) (ord : BitVec 2) (s : State) :=
  atomicForm (.amoaddW rd ra rb sc ord) .add 4 rd ra rb ord s
/-- AMOAND, 4-byte (R240). -/
def execAmoandW (rd ra rb : BitVec 5) (sc : BitVec 3) (ord : BitVec 2) (s : State) :=
  atomicForm (.amoandW rd ra rb sc ord) .and 4 rd ra rb ord s
/-- AMOOR, 4-byte (R240). -/
def execAmoorW (rd ra rb : BitVec 5) (sc : BitVec 3) (ord : BitVec 2) (s : State) :=
  atomicForm (.amoorW rd ra rb sc ord) .or 4 rd ra rb ord s
/-- AMOXOR, 4-byte (R240). -/
def execAmoxorW (rd ra rb : BitVec 5) (sc : BitVec 3) (ord : BitVec 2) (s : State) :=
  atomicForm (.amoxorW rd ra rb sc ord) .xor 4 rd ra rb ord s
/-- AMOMIN, 4-byte (R240). -/
def execAmominW (rd ra rb : BitVec 5) (sc : BitVec 3) (ord : BitVec 2) (s : State) :=
  atomicForm (.amominW rd ra rb sc ord) .min 4 rd ra rb ord s
/-- AMOMAX, 4-byte (R240). -/
def execAmomaxW (rd ra rb : BitVec 5) (sc : BitVec 3) (ord : BitVec 2) (s : State) :=
  atomicForm (.amomaxW rd ra rb sc ord) .max 4 rd ra rb ord s
/-- AMOMINU, 4-byte (R240). -/
def execAmominuW (rd ra rb : BitVec 5) (sc : BitVec 3) (ord : BitVec 2) (s : State) :=
  atomicForm (.amominuW rd ra rb sc ord) .minu 4 rd ra rb ord s
/-- AMOMAXU, 4-byte (R240). -/
def execAmomaxuW (rd ra rb : BitVec 5) (sc : BitVec 3) (ord : BitVec 2) (s : State) :=
  atomicForm (.amomaxuW rd ra rb sc ord) .maxu 4 rd ra rb ord s
/-- AMOSWP, 4-byte (R240). -/
def execAmoswpW (rd ra rb : BitVec 5) (sc : BitVec 3) (ord : BitVec 2) (s : State) :=
  atomicForm (.amoswpW rd ra rb sc ord) .swp 4 rd ra rb ord s
/-- AMOCAS, 4-byte (R241). -/
def execAmocasW (rd ra rb : BitVec 5) (sc : BitVec 3) (ord : BitVec 2) (s : State) :=
  atomicForm (.amocasW rd ra rb sc ord) .cas 4 rd ra rb ord s
/-- AMOFADD, 4-byte (R242). -/
def execAmofaddW (rd ra rb : BitVec 5) (sc : BitVec 3) (ord : BitVec 2) (s : State) :=
  atomicForm (.amofaddW rd ra rb sc ord) .fadd 4 rd ra rb ord s
/-- AMOADD, 8-byte (R240). -/
def execAmoaddD (rd ra rb : BitVec 5) (sc : BitVec 3) (ord : BitVec 2) (s : State) :=
  atomicForm (.amoaddD rd ra rb sc ord) .add 8 rd ra rb ord s
/-- AMOAND, 8-byte (R240). -/
def execAmoandD (rd ra rb : BitVec 5) (sc : BitVec 3) (ord : BitVec 2) (s : State) :=
  atomicForm (.amoandD rd ra rb sc ord) .and 8 rd ra rb ord s
/-- AMOOR, 8-byte (R240). -/
def execAmoorD (rd ra rb : BitVec 5) (sc : BitVec 3) (ord : BitVec 2) (s : State) :=
  atomicForm (.amoorD rd ra rb sc ord) .or 8 rd ra rb ord s
/-- AMOXOR, 8-byte (R240). -/
def execAmoxorD (rd ra rb : BitVec 5) (sc : BitVec 3) (ord : BitVec 2) (s : State) :=
  atomicForm (.amoxorD rd ra rb sc ord) .xor 8 rd ra rb ord s
/-- AMOMIN, 8-byte (R240). -/
def execAmominD (rd ra rb : BitVec 5) (sc : BitVec 3) (ord : BitVec 2) (s : State) :=
  atomicForm (.amominD rd ra rb sc ord) .min 8 rd ra rb ord s
/-- AMOMAX, 8-byte (R240). -/
def execAmomaxD (rd ra rb : BitVec 5) (sc : BitVec 3) (ord : BitVec 2) (s : State) :=
  atomicForm (.amomaxD rd ra rb sc ord) .max 8 rd ra rb ord s
/-- AMOMINU, 8-byte (R240). -/
def execAmominuD (rd ra rb : BitVec 5) (sc : BitVec 3) (ord : BitVec 2) (s : State) :=
  atomicForm (.amominuD rd ra rb sc ord) .minu 8 rd ra rb ord s
/-- AMOMAXU, 8-byte (R240). -/
def execAmomaxuD (rd ra rb : BitVec 5) (sc : BitVec 3) (ord : BitVec 2) (s : State) :=
  atomicForm (.amomaxuD rd ra rb sc ord) .maxu 8 rd ra rb ord s
/-- AMOSWP, 8-byte (R240). -/
def execAmoswpD (rd ra rb : BitVec 5) (sc : BitVec 3) (ord : BitVec 2) (s : State) :=
  atomicForm (.amoswpD rd ra rb sc ord) .swp 8 rd ra rb ord s
/-- AMOCAS, 8-byte (R241). -/
def execAmocasD (rd ra rb : BitVec 5) (sc : BitVec 3) (ord : BitVec 2) (s : State) :=
  atomicForm (.amocasD rd ra rb sc ord) .cas 8 rd ra rb ord s
/-- AMOFADD, 8-byte (R242). -/
def execAmofaddD (rd ra rb : BitVec 5) (sc : BitVec 3) (ord : BitVec 2) (s : State) :=
  atomicForm (.amofaddD rd ra rb sc ord) .fadd 8 rd ra rb ord s
/-! ### FENCE and WAITC -/

/-- FENCE (R244, R77): when its predecessor set names writes, the writes before it end an epoch, and the accesses of its successor set, later writes
or later reads or both, perform only after the writes of that epoch. Reads of an agent perform in program order in any case (DESIGN CHOICE, log
entry 12). -/
def execFence (_sc : BitVec 3) (sw sr pw _pr : BitVec 1) (s : State) : Host.Outcome State Fault Refusal :=
  let k := agentIndex s.cur
  let e := s.epochs.getD k 0 + 1
  let s' := if pw = 1 then { s with epochs := s.epochs.put k e } else s
  let s' := if pw = 1 ∧ sw = 1 then { s' with epochs := s'.epochs.put (writeFence s.cur) e } else s'
  let s' := if pw = 1 ∧ sr = 1 then { s' with epochs := s'.epochs.put (readFence s.cur) e } else s'
  scalar s (.ok (retire s' 4))

/-- WAITC: waits until every named counter is zero (R245). -/
def execWaitc (cn cm cv : BitVec 1) (s : State) : Host.Outcome State Fault Refusal :=
  scalar s do
    need ((cv = 0 || counter s 0 == 0) && (cm = 0 || counter s 1 == 0) && (cn = 0 || counter s 2 == 0)) (.wait .counter)
    .ok (retire s 4)

end Sys2Proof.Machine
end

