-- ==== Sys2Proof/Machine/System.lean ====
section
/-! DEFINITION. CSR access and the CSR map (R221 to R226, R167, Tables 9.11 to 9.15), ECALL, EBRK, SRET, WFE and NOP (R227 to R230): MAJ
0x60, 0x61 and 0x67. -/

namespace Sys2Proof.Machine

/-! ### Reading CSRs -/

/-- MIS and MISV as the slot's activation sees them: its own pair when stolen, else its virtual PE's (R225). -/
def State.mis (s : State) : Word × Word :=
  match s.me.act with
  | some a => if a.stolen then (a.mis, a.misv) else (s.myVpe.mis, s.myVpe.misv)
  | none => (0, 0)

/-- Replace MIS and MISV of the slot's activation. -/
def setMis (s : State) (mis misv : Word) : State :=
  match s.cur, s.me.act with
  | .slot c _, some a =>
    if a.stolen then onSlot s fun l => { l with act := some { a with mis := mis, misv := misv } }
    else s.onVpe ((s.cell c).ctx.getD 0) a.vpe fun p => { p with mis := mis, misv := misv }
  | _, _ => s

/-- The value of cell CSR `n` (Table 9.11), or none when the map does not list it. -/
def cellCsr (s : State) (c n : Nat) : Option Word :=
  let l := s.me
  let act (g : Activation → Word) : Word := (l.act.map g).getD 0
  match n with
  | 0x100 => some (l.csr.fmta.setWidth 64)
  | 0x101 => some (l.csr.fmtb.setWidth 64)
  | 0x102 => some (l.csr.cbmode.setWidth 64)
  | 0x103 => some l.csr.sclp
  | 0x104 => some l.csr.zpp
  | 0x110 => some s.mis.1
  | 0x111 => some s.mis.2
  | 0x112 => some (word (fields [(9, l.mrpRow), (54, 0), (1, b2n l.mrpV)]))
  | 0x118 => some ((viewOvfc s 0).setWidth 64)
  | 0x119 => some ((viewOvfc s 1).setWidth 64)
  | 0x11A => some ((viewOvfc s 2).setWidth 64)
  | 0x11B => some ((viewOvfc s 3).setWidth 64)
  | 0x11C => some ((viewOvfc s 4).setWidth 64)
  | 0x11D => some ((viewOvfc s 5).setWidth 64)
  | 0x11E => some ((viewOvfc s 6).setWidth 64)
  | 0x11F => some ((viewOvfc s 7).setWidth 64)
  | 0x120 => some ((viewFlg s).setWidth 64)
  | 0x121 => some (l.csr.rm.setWidth 64)
  | 0x122 => some (l.csr.gmask.setWidth 64)
  | 0x123 => some (l.csr.mtrapen.setWidth 64)
  | 0x130 => some (word l.tbud)
  | 0x131 => some ((s.cell c).agel.setWidth 64)
  | 0x140 => some l.fcause
  | 0x141 => some l.foref
  | 0x142 => some l.fcoord
  | 0x143 => some (act msgId)
  | 0x150 => some (act fun a => word a.vpe)
  | 0x151 => some (word (c + (act fun a => word a.hord).toNat * 2 ^ 16))
  | 0x152 => some (word ((s.cell c).ctx.getD 0))
  | 0x160 => some (word l.pcv)
  | 0x161 => some (word l.pcm)
  | 0x162 => some (word l.pcn)
  | 0xC00 => some s.time
  | _ => none

/-- The value of CSR `n` of a die firmware core (Table 9.15), or none. -/
def dfcCsr (s : State) (d n : Nat) : Option Word :=
  let x := s.dfc d
  match n with
  | 0x800 => some (word (fields [(1, b2n x.ie), (1, b2n x.pie)]))
  | 0x801 => some x.depc
  | 0x802 => some (word (fields [(8, x.cause.toNat), (55, 0), (1, b2n x.evt)]))
  | 0x803 => some x.dtvec
  | 0x804 => some (x.devent.setWidth 64)
  | 0x805 => some x.dscratch
  | 0xC00 => some s.time
  | _ => none

/-- The value of a CSR for the moving agent; none when the map does not list it for that agent (R221, R223). -/
def readCsr (s : State) (n : Nat) : Option Word :=
  match s.cur with
  | .slot c _ => cellCsr s c n
  | .dfc d => dfcCsr s d n
  | _ => none

/-! ### Writing CSRs -/

/-- Change the slot-scoped configuration of the moving slot. -/
def onCsr (s : State) (g : Csrs → Csrs) : State := onSlot s fun l => { l with csr := g l.csr }

/-- The value `v` applied to CSR `n` of the moving slot field by field (R3, Tables 9.12 to 9.14); a CSR whose every field is RO ignores
it. -/
def writeCellCsr (s : State) (n : Nat) (v : Word) : State :=
  match n with
  | 0x100 => onCsr s fun c => { c with fmta := v.setWidth 5 }
  | 0x101 => onCsr s fun c => { c with fmtb := v.setWidth 5 }
  | 0x102 => onCsr s fun c => { c with cbmode := v.setWidth 8 }
  | 0x103 => onCsr s fun c => { c with sclp := v }
  | 0x104 => onCsr s fun c => { c with zpp := v }
  | 0x110 => if bit v 63 then setMis s (s.mis.1 &&& 0x7FFFFFFFFFFFFFFF) s.mis.2 else s
  | 0x118 => writeOvfc s 0 (v.setWidth 32)
  | 0x119 => writeOvfc s 1 (v.setWidth 32)
  | 0x11A => writeOvfc s 2 (v.setWidth 32)
  | 0x11B => writeOvfc s 3 (v.setWidth 32)
  | 0x11C => writeOvfc s 4 (v.setWidth 32)
  | 0x11D => writeOvfc s 5 (v.setWidth 32)
  | 0x11E => writeOvfc s 6 (v.setWidth 32)
  | 0x11F => writeOvfc s 7 (v.setWidth 32)
  | 0x121 => onCsr s fun c => { c with rm := v.setWidth 2 }
  | 0x122 => onCsr s fun c => { c with gmask := v.setWidth 8 }
  | 0x123 => onCsr s fun c => { c with mtrapen := v.setWidth 2 }
  | _ => s

/-- The value `v` applied to CSR `n` of a die firmware core (Table 9.15): DEVENT is write-one-to-clear. -/
def writeDfcCsr (s : State) (d n : Nat) (v : Word) : State :=
  let x := s.dfc d
  match n with
  | 0x800 => s.setDfc d { x with ie := bit v 0, pie := bit v 1 }
  | 0x801 => s.setDfc d { x with depc := v }
  | 0x803 => s.setDfc d { x with dtvec := v &&& 0xFFFFFFFFFFFFFFFC }
  | 0x804 => s.setDfc d { x with devent := x.devent &&& ~~~(v.setWidth 8) }
  | 0x805 => s.setDfc d { x with dscratch := v }
  | _ => s

/-- The value `v` applied to a CSR of the moving agent. -/
def writeCsr (s : State) (n : Nat) (v : Word) : State :=
  match s.cur with
  | .slot _ _ => writeCellCsr s n v
  | .dfc d => writeDfcCsr s d n v
  | _ => s

/-- A write of FLG enters the shadow in the bits it names: the bits to raise and the bits to clear (R226). -/
def writeFlg (s : State) (raise clear : BitVec 6) : State := clearFlags (raiseFlags s raise) clear

/-- A CSR form: the old value into rd; 0x01 for a CSR not listed for the agent. `g` is the write, from the old value and x[ra]. -/
def csrForm (rd : BitVec 5) (csr : BitVec 12) (s : State) (g : Word → State) : Host.Outcome State Fault Refusal :=
  match readCsr s csr.toNat with
  | none => scalar s (.error (trapOf 1))
  | some old => scalar s (.ok (retire (setX (g old) rd old) 4))

/-- Whether the CSR is FLG of a cell. -/
def isFlg (s : State) (csr : BitVec 12) : Bool :=
  match s.cur with
  | .slot _ _ => csr == 0x120
  | _ => false

/-- CSRR (R221). -/
def execCsrr (rd : BitVec 5) (csr : BitVec 12) (s : State) : Host.Outcome State Fault Refusal := csrForm rd csr s fun _ => s

/-- CSRW (R221, R226). -/
def execCsrw (rd ra : BitVec 5) (csr : BitVec 12) (s : State) : Host.Outcome State Fault Refusal :=
  let v := getX s ra
  csrForm rd csr s fun _ => if isFlg s csr then writeFlg s (v.setWidth 6) (~~~(v.setWidth 6)) else writeCsr s csr.toNat v

/-- CSRS (R221, R226). -/
def execCsrs (rd ra : BitVec 5) (csr : BitVec 12) (s : State) : Host.Outcome State Fault Refusal :=
  let v := getX s ra
  csrForm rd csr s fun old => if isFlg s csr then writeFlg s (v.setWidth 6) 0 else writeCsr s csr.toNat (old ||| v)

/-- CSRC (R221, R226). -/
def execCsrc (rd ra : BitVec 5) (csr : BitVec 12) (s : State) : Host.Outcome State Fault Refusal :=
  let v := getX s ra
  csrForm rd csr s fun old => if isFlg s csr then writeFlg s 0 (v.setWidth 6) else writeCsr s csr.toNat (old &&& ~~~v)

/-! ### ECALL and EBRK -/

/-- The service record of an ECALL (R227): slot and activation serial, by which the hand-over finds its ECALL, RCTX, PEID, MSGID, the record of the ECALL, code, argument, TIME (DEDUCED, log entry 34). -/
def serviceRecord (s : State) (c k : Nat) (a : Activation) (code arg : Word) : List Word :=
  let l := s.slot c k
  [word (fields [(2, k), (36, a.serial.toNat)]), word ((s.cell c).ctx.getD 0), word a.vpe, msgId a, word (recordAt s l.cap l.pc), code, arg, s.time]

/-- ECALL (R227): post a service record, as a release at SYS, and complete when it has been handed over (ECALL_HANDOVER). -/
def execEcall (rd ra rb : BitVec 5) (s : State) : Host.Outcome State Fault Refusal :=
  cellOnly s do
    need (decide ((getX s ra).toNat < 0x8000)) (trapOf 2)
    if s.answered then .ok (retire (setX s rd 0) 4)
    else
      need (!writeFenced s true) (.wait .counter)
      match s.cur, s.me.act with
      | .slot c k, some a =>
        let cl := s.cell c
        need (decide (cl.records.length < 8)) (.wait .record)
        let s := s.setCell c { cl with records := cl.records ++ [serviceRecord s c k a (getX s ra) (getX s rb)] }
        .ok (s.setSlot c k { s.slot c k with pend := some (.ecall rd ra rb), wait := .record })
      | _, _ => .error (trapOf 2)

/-- EBRK (R228): nothing while debug stops are off; else 0x0E with FOREF := k before any effect, or a stop that lands when the activation
ends. The source of a stop by EBRK is 3, with 4 k added to record k. -/
def execEbrk (k : BitVec 15) (s : State) : Host.Outcome State Fault Refusal :=
  scalar s <|
    match s.activation with
    | some a =>
      if stopEnabled a && precise a then .error (.stop (3 + 4 * k.toNat) (k.setWidth 64) 0 0)
      else .ok (retire (noteHit s (3 + 4 * k.toNat)) 4)
    | none => .ok (retire s 4)

/-! ### Die firmware cores, and NOP -/

/-- A form of a die firmware core only: a cell takes 0x01 (R230). -/
def dfcOnly (s : State) (g : Nat → State) : Host.Outcome State Fault Refusal :=
  match s.cur with
  | .dfc d => finish s (.ok (g d))
  | .slot _ _ => finish s (.error (trapOf 1))
  | _ => .fault .noAgent

/-- SRET (R230). -/
def execSret (s : State) : Host.Outcome State Fault Refusal := dfcOnly s (dfcReturn s)

/-- WFE: stall until DEVENT is nonzero (R230). -/
def execWfe (s : State) : Host.Outcome State Fault Refusal :=
  dfcOnly s fun d =>
    if (s.dfc d).devent = 0 then s.setDfc d { s.dfc d with wfe := true }
    else retire (s.setDfc d { s.dfc d with wfe := false }) 4

/-- NOP: its register fields are ignored (R195). -/
def execNop (_rd _ra _rb : BitVec 5) (s : State) : Host.Outcome State Fault Refusal := scalar s (.ok (retire s 4))

end Sys2Proof.Machine
end

