-- ==== Sys2Proof/Machine/Fetch.lean ====
section
/-! DEFINITION. What every instruction passes before it takes effect: the fetch of its bytes (R188, R329), the checks of Table 8.4 that are
left after decoding, the watch comparators on registers and queues (R160), and the waits behind the matrix queue and the sequencer (R290,
R294). -/

namespace Sys2Proof.Machine

/-! ### Registers and queues an instruction uses -/

/-- The scalar register an instruction writes, apart from the link of JAL in x1; none where it writes none. -/
def scalarDest : Instr → Option (BitVec 5)
  | .jal _ => some 1
  | .add rd _ _ => some rd
  | .sub rd _ _ => some rd
  | .and rd _ _ => some rd
  | .or rd _ _ => some rd
  | .xor rd _ _ => some rd
  | .sll rd _ _ => some rd
  | .srl rd _ _ => some rd
  | .sra rd _ _ => some rd
  | .min rd _ _ => some rd
  | .max rd _ _ => some rd
  | .minu rd _ _ => some rd
  | .maxu rd _ _ => some rd
  | .slt rd _ _ => some rd
  | .sltu rd _ _ => some rd
  | .mul rd _ _ => some rd
  | .mulh rd _ _ => some rd
  | .mulhu rd _ _ => some rd
  | .div rd _ _ => some rd
  | .divu rd _ _ => some rd
  | .rem rd _ _ => some rd
  | .remu rd _ _ => some rd
  | .clz rd _ => some rd
  | .ctz rd _ => some rd
  | .popc rd _ => some rd
  | .sext rd _ _ => some rd
  | .zext rd _ _ => some rd
  | .oadd rd _ _ => some rd
  | .oslot rd _ => some rd
  | .ochk rd _ _ => some rd
  | .omake rd _ _ => some rd
  | .pack2 rd _ _ => some rd
  | .pack4 rd _ _ => some rd
  | .addi rd _ _ => some rd
  | .andi rd _ _ => some rd
  | .ori rd _ _ => some rd
  | .xori rd _ _ => some rd
  | .slti rd _ _ => some rd
  | .slli rd _ _ => some rd
  | .srli rd _ _ => some rd
  | .srai rd _ _ => some rd
  | .lui rd _ => some rd
  | .auic rd _ _ _ => some rd
  | .jalr rd _ _ => some rd
  | .callx rd _ _ => some rd
  | .lb rt _ _ _ _ _ => some rt
  | .lh rt _ _ _ _ _ => some rt
  | .lw rt _ _ _ _ _ => some rt
  | .ld rt _ _ _ _ _ => some rt
  | .lbu rt _ _ _ _ _ => some rt
  | .lhu rt _ _ _ _ _ => some rt
  | .lwu rt _ _ _ _ _ => some rt
  | .ldcn rt _ _ _ _ _ => some rt
  | .ldf rt _ _ _ _ => some rt
  | .ldfC rt _ _ _ _ => some rt
  | .amoaddW rd _ _ _ _ => some rd
  | .amoandW rd _ _ _ _ => some rd
  | .amoorW rd _ _ _ _ => some rd
  | .amoxorW rd _ _ _ _ => some rd
  | .amominW rd _ _ _ _ => some rd
  | .amomaxW rd _ _ _ _ => some rd
  | .amominuW rd _ _ _ _ => some rd
  | .amomaxuW rd _ _ _ _ => some rd
  | .amoswpW rd _ _ _ _ => some rd
  | .amocasW rd _ _ _ _ => some rd
  | .amofaddW rd _ _ _ _ => some rd
  | .amoaddD rd _ _ _ _ => some rd
  | .amoandD rd _ _ _ _ => some rd
  | .amoorD rd _ _ _ _ => some rd
  | .amoxorD rd _ _ _ _ => some rd
  | .amominD rd _ _ _ _ => some rd
  | .amomaxD rd _ _ _ _ => some rd
  | .amominuD rd _ _ _ _ => some rd
  | .amomaxuD rd _ _ _ _ => some rd
  | .amoswpD rd _ _ _ _ => some rd
  | .amocasD rd _ _ _ _ => some rd
  | .amofaddD rd _ _ _ _ => some rd
  | .bara rd _ _ => some rd
  | .barw rd _ _ => some rd
  | .msgld rd _ => some rd
  | .qpop rd _ => some rd
  | .qstat rd _ => some rd
  | .rptw rd => some rd
  | .vmvx rd _ _ => some rd
  | .vsetl rd _ => some rd
  | .miter _ _ _ _ _ rb => some rb
  | .mgang _ rb => some rb
  | .csrr rd _ => some rd
  | .csrw rd _ _ => some rd
  | .csrs rd _ _ => some rd
  | .csrc rd _ _ => some rd
  | .ecall rd _ _ => some rd
  | .add16 ra _ => some ra
  | .sub16 ra _ => some ra
  | .mov16 ra _ => some ra
  | .addi16 ra _ => some ra
  | .andi16 ra _ => some ra
  | .slli16 ra _ => some ra
  | .srli16 ra _ => some ra
  | .srai16 ra _ => some ra
  | .and16 ra _ => some ra
  | .or16 ra _ => some ra
  | .xor16 ra _ => some ra
  | .ld16 ra _ => some ra
  | .lw16 ra _ => some ra
  | .mul16 ra _ => some ra
  | _ => none

/-- The vector or queue register an instruction writes; none where it writes none. -/
def vectorDest : Instr → Option (BitVec 5)
  | .layr vd _ _ _ => some vd
  | .vld rt _ _ _ _ _ => some rt
  | .vldf rt _ _ _ _ => some rt
  | .vldfC rt _ _ _ _ => some rt
  | .vldL vd _ _ _ _ => some vd
  | .vldfL vd _ _ _ _ => some vd
  | .vldfCL vd _ _ _ _ => some vd
  | .vadd vd _ _ _ => some vd
  | .vsub vd _ _ _ => some vd
  | .vmul vd _ _ _ => some vd
  | .vfma vd _ _ _ => some vd
  | .vfms vd _ _ _ => some vd
  | .vmax vd _ _ _ => some vd
  | .vmin vd _ _ _ => some vd
  | .vabs vd _ _ => some vd
  | .vneg vd _ _ => some vd
  | .vrcp vd _ _ => some vd
  | .vrsq vd _ _ => some vd
  | .vexp vd _ _ => some vd
  | .vlog vd _ _ => some vd
  | .vsigm vd _ _ => some vd
  | .vtanh vd _ _ => some vd
  | .vcvt vd _ _ _ => some vd
  | .vreda vd _ _ => some vd
  | .vredx vd _ _ => some vd
  | .vcmpEq vd _ _ _ => some vd
  | .vcmpNe vd _ _ _ => some vd
  | .vcmpLt vd _ _ _ => some vd
  | .vcmpLe vd _ _ _ => some vd
  | .vcmpGt vd _ _ _ => some vd
  | .vcmpGe vd _ _ _ => some vd
  | .vsel vd _ _ _ => some vd
  | .vperm vd _ _ _ => some vd
  | .vbcst vd _ _ => some vd
  | .vmvs vd _ _ => some vd
  | .viadd vd _ _ _ _ => some vd
  | .visub vd _ _ _ _ => some vd
  | .vimul vd _ _ _ _ => some vd
  | .viand vd _ _ _ _ => some vd
  | .vior vd _ _ _ _ => some vd
  | .vixor vd _ _ _ _ => some vd
  | .visll vd _ _ _ _ => some vd
  | .visrl vd _ _ _ _ => some vd
  | .visra vd _ _ _ _ => some vd
  | .mrdr _ _ _ rb => some rb
  | _ => none

/-- The vector operand fields an instruction reads. -/
def vectorSources : Instr → List (BitVec 5)
  | .vst rt _ _ _ _ _ => [rt]
  | .vstf rt _ _ _ _ => [rt]
  | .vstL vd _ _ _ _ => [vd]
  | .vstfL vd _ _ _ _ => [vd]
  | .vadd _ va vb _ => [va, vb]
  | .vsub _ va vb _ => [va, vb]
  | .vmul _ va vb _ => [va, vb]
  | .vfma vd va vb _ => [va, vb, vd]
  | .vfms vd va vb _ => [va, vb, vd]
  | .vmax _ va vb _ => [va, vb]
  | .vmin _ va vb _ => [va, vb]
  | .vabs _ va _ => [va]
  | .vneg _ va _ => [va]
  | .vrcp _ va _ => [va]
  | .vrsq _ va _ => [va]
  | .vexp _ va _ => [va]
  | .vlog _ va _ => [va]
  | .vsigm _ va _ => [va]
  | .vtanh _ va _ => [va]
  | .vcvt _ va _ _ => [va]
  | .vreda _ va _ => [va]
  | .vredx _ va _ => [va]
  | .vcmpEq _ va vb _ => [va, vb]
  | .vcmpNe _ va vb _ => [va, vb]
  | .vcmpLt _ va vb _ => [va, vb]
  | .vcmpLe _ va vb _ => [va, vb]
  | .vcmpGt _ va vb _ => [va, vb]
  | .vcmpGe _ va vb _ => [va, vb]
  | .vsel _ va vb _ => [va, vb]
  | .vperm _ va vb _ => [va, vb]
  | .vmvx _ va _ => [va]
  | .viadd _ va vb _ _ => [va, vb]
  | .visub _ va vb _ _ => [va, vb]
  | .vimul _ va vb _ _ => [va, vb]
  | .viand _ va vb _ _ => [va, vb]
  | .vior _ va vb _ _ => [va, vb]
  | .vixor _ va vb _ _ => [va, vb]
  | .visll _ va vb _ _ => [va, vb]
  | .visrl _ va vb _ _ => [va, vb]
  | .visra _ va vb _ _ => [va, vb]
  | .mwrr _ _ rb => [rb]
  | _ => []

/-- The queue registers an instruction pops and pushes as WCMP3 counts them (R160). -/
def queueUse (i : Instr) : List (Nat × Bool × Bool) :=
  match i with
  | .qpop _ q => [(q.toNat, true, false)]
  | .qpush q _ => [(q.toNat, false, true)]
  | _ => ((vectorSources i).filter fun r => decide (16 ≤ r.toNat)).map fun r => (r.toNat - 16, true, false)

/-- Whether WCMP2 of the own cell matches an instruction (R160). -/
def writesWatched (s : State) (i : Instr) : Bool :=
  (match scalarDest i with | some r => r != 0 && registerMatch s 0 r.toNat | none => false)
    || (match vectorDest i with | some r => registerMatch s 1 r.toNat | none => false)

/-- Whether WCMP3 of the own cell matches an instruction (R160). -/
def queueWatched (s : State) (i : Instr) : Bool :=
  match s.cur with | .slot c _ => (queueUse i).any fun u => queueMatch s c u.1 u.2.1 u.2.2 | _ => false

/-- Whether WCMP2 or WCMP3 of the own cell matches an instruction (R160). -/
def watched (s : State) (i : Instr) : Bool := writesWatched s i || queueWatched s i

/-- The register and queue comparators before an instruction performs. -/
def watchGate (s : State) (i : Instr) : Except Halt State := do
  let s' ← comparator s (writesWatched s i) 2 0 0
  comparator s' (queueWatched s i) 3 0 0

/-! ### Classes of instructions -/

/-- MAJ 0x00 to 0x13, their 16-bit forms, and NOP: what may issue past the sequencer and a matrix instruction (R290, R294). -/
def runsAhead : Instr → Bool
  | .add _ _ _ => true
  | .sub _ _ _ => true
  | .and _ _ _ => true
  | .or _ _ _ => true
  | .xor _ _ _ => true
  | .sll _ _ _ => true
  | .srl _ _ _ => true
  | .sra _ _ _ => true
  | .min _ _ _ => true
  | .max _ _ _ => true
  | .minu _ _ _ => true
  | .maxu _ _ _ => true
  | .slt _ _ _ => true
  | .sltu _ _ _ => true
  | .mul _ _ _ => true
  | .mulh _ _ _ => true
  | .mulhu _ _ _ => true
  | .div _ _ _ => true
  | .divu _ _ _ => true
  | .rem _ _ _ => true
  | .remu _ _ _ => true
  | .clz _ _ => true
  | .ctz _ _ => true
  | .popc _ _ => true
  | .sext _ _ _ => true
  | .zext _ _ _ => true
  | .oadd _ _ _ => true
  | .oslot _ _ => true
  | .ochk _ _ _ => true
  | .omake _ _ _ => true
  | .pack2 _ _ _ => true
  | .pack4 _ _ _ => true
  | .addi _ _ _ => true
  | .andi _ _ _ => true
  | .ori _ _ _ => true
  | .xori _ _ _ => true
  | .slti _ _ _ => true
  | .slli _ _ _ => true
  | .srli _ _ _ => true
  | .srai _ _ _ => true
  | .lui _ _ => true
  | .auic _ _ _ _ => true
  | .beq _ _ _ => true
  | .bne _ _ _ => true
  | .blt _ _ _ => true
  | .bge _ _ _ => true
  | .bltu _ _ _ => true
  | .bgeu _ _ _ => true
  | .j _ => true
  | .jal _ => true
  | .jalr _ _ _ => true
  | .nop _ _ _ => true
  | .add16 _ _ => true
  | .sub16 _ _ => true
  | .mov16 _ _ => true
  | .addi16 _ _ => true
  | .andi16 _ _ => true
  | .slli16 _ _ => true
  | .srli16 _ _ => true
  | .srai16 _ _ => true
  | .and16 _ _ => true
  | .or16 _ _ => true
  | .xor16 _ _ => true
  | .beqz16 _ _ => true
  | .bnez16 _ _ => true
  | .j16 _ => true
  | .jr16 _ _ => true
  | .mul16 _ _ => true
  | _ => false

/-- The instructions of MAJ 0x50 to 0x52. -/
def isMatrix : Instr → Bool
  | .mma _ _ _ _ _ => true
  | .mmaz _ _ _ _ _ => true
  | .mpoly _ _ _ _ => true
  | .miter _ _ _ _ _ _ => true
  | .mscz _ _ _ => true
  | .mcvt _ _ _ => true
  | .mtrn _ _ => true
  | .mzero _ => true
  | .mgang _ _ => true
  | .mwait => true
  | .mrdr _ _ _ _ => true
  | .mwrr _ _ _ => true
  | .cbld _ _ _ => true
  | .kld _ _ => true
  | .mld _ _ _ _ _ => true
  | .mst _ _ _ _ _ => true
  | .mldb _ _ _ _ _ => true
  | _ => false

/-- Whether an instruction in the matrix queue may still write a scalar register. -/
def writesScalarLate (m : MatOp) : Bool :=
  match m.i with
  | .miter _ _ _ _ _ _ => true
  | .mgang _ _ => true
  | _ => false

/-- The waits of a slot's scalar pipeline behind its matrix queue (R294) and its sequencer (R290). -/
def issueGate (s : State) (i : Instr) : Except Halt Unit := do
  let l := s.me
  need (l.mq.isEmpty || (!(l.mq.any writesScalarLate) && (runsAhead i || isMatrix i))) (.wait .matrix)
  need (l.seq.run.isNone || runsAhead i || (match i with | .rpt _ _ => true | _ => false)) (.wait .sequencer)

/-! ### Checks of Table 8.4 after the encoding is read -/

/-- The CSR an instruction names. -/
def csrOf : Instr → Option (BitVec 12)
  | .csrr _ n => some n
  | .csrw _ _ n => some n
  | .csrs _ _ n => some n
  | .csrc _ _ n => some n
  | _ => none

/-- Steps 3 to 5 of Table 8.4 for the moving agent: SRET and WFE are unassigned on a cell, where the imm of JALR must be zero (R215), an unlisted CSR is
0x01, an illegal field 0x02. The forms that a DFC does not have raise 0x01 in their meanings (DEDUCED, log entry 7). -/
def decodeTrap (s : State) (i : Instr) : Except Halt Unit := do
  match s.cur, i with
  | .slot _ _, .sret => .error (trapOf 1)
  | .slot _ _, .wfe => .error (trapOf 1)
  | .slot _ _, .jalr _ _ imm => need (imm == 0) (trapOf 2)
  | _, _ => .ok ()
  match csrOf i with
  | some n => need (readCsr s n.toNat).isSome (trapOf 1)
  | none => .ok ()
  need (wellFormed i) (trapOf 2)

/-! ### Fetch -/

/-- Bytes `p` to `p + n - 1` of a code image, as a number. -/
def codeAt (b : List Byte) (p n : Nat) : Nat := numOfBytes ((b.drop p).take n)

/-- The key of a body page of a capsule in a code store. -/
def pageKey (cap page : Nat) : Nat := cap * 2 ^ 20 + page

/-- Whether a body page of a capsule is in a die's code store (R329). -/
def pageStored (s : State) (d cap page : Nat) : Bool := (s.codeStore.getD d []).any (· == pageKey cap page)

/-- A code store in which the page of a key has just been fetched: it stands first (R329). -/
def touchPage (t : List Nat) (k : Nat) : List Nat := if t.any (· == k) then k :: t.filter (· != k) else t

/-- The state after the fetch of `n` bytes at the moving slot's place: its pages are the ones most recently fetched from the die's code store (R329). -/
def touchCode (s : State) (n : Nat) : State :=
  match s.cur with
  | .slot c k =>
    let l := s.slot c k
    let d := dieOfCell c
    let t := s.codeStore.getD d []
    let u := touchPage (touchPage t (pageKey l.cap (l.pc / 4096))) (pageKey l.cap ((l.pc + n - 1) / 4096))
    if u = t then s else { s with codeStore := s.codeStore.put d u }
  | _ => s

/-- The trap cause of the word `w` where the decoder names `e`: steps 3 and 4 of Table 8.4 check SRET and WFE on a cell, and an unlisted CSR number,
before any field that must be zero, and END, its 16-bit form and YIELD are unassigned on a DFC (R220). -/
def decodeCause (s : State) (w e : Nat) : Nat :=
  if field w 0 8 = 0xC1 ∧ (readCsr s (field w 18 12)).isNone then 1
  else if field w 0 8 = 0xC3 ∧ (field w 23 9 = 2 ∨ field w 23 9 = 3) then (match s.cur with | .slot _ _ => 1 | _ => e)
  else if field w 0 8 = 0x2B ∨ field w 0 6 = 0x22 then (match s.cur with | .dfc _ => 1 | _ => e)
  else e

/-- An instruction as fetched: its number and its length, or the trap the decoder names. -/
def decodeAt (s : State) (b : List Byte) (p : Nat) : Except Halt (Instr × Nat) := do
  let len := parcelLength (codeAt b p 2)
  need (decide (p + len ≤ b.length)) (trapOf 1)
  match decodeKreral (codeAt b p len) with
  | .ok i => .ok (i, len)
  | .error e => .error (trapOf (decodeCause s (codeAt b p len) e))

/-- Fetch from a capsule's body on a cell of die `d`: 0x0F from a quarantined capsule, a park with 0x12 on a VOID one, a stall until both
pages are verified (R188, R329 to R334). -/
def fetchBody (s : State) (d cap p : Nat) : Except Halt (Instr × Nat) := do
  match s.capsule cap with
  | none => .error (trapOf 1)
  | some x =>
    need (x.state != 4) (trapOf 15)
    need (!voidBody x) (parkVoid cap)
    need (x.state == 1) (trapOf 1)
    need (decide (p + 2 ≤ x.body.bytes.length)) (trapOf 1)
    need (pageStored s d cap (p / 4096)) (.wait (.code cap (p / 4096)))
    let len := parcelLength (codeAt x.body.bytes p 2)
    let q := (p + len - 1) / 4096
    need (pageStored s d cap q || decide (x.body.bytes.length < p + len)) (.wait (.code cap q))
    decodeAt s x.body.bytes p

/-- Fetch the next instruction of the moving agent. -/
def fetchNext (s : State) : Except Halt (Instr × Nat) :=
  match s.cur with
  | .slot c k => let l := s.slot c k; fetchBody s (dieOfCell c) l.cap l.pc
  | .dfc d => let x := s.dfc d; do
    need (decide (x.pc.toNat + 2 ≤ x.code.length)) (trapOf 1)
    decodeAt s x.code x.pc.toNat
  | _ => .error (trapOf 1)

/-- Everything an instruction passes before its meaning: fetched, decoded, checked, past the gates. The state that comes with it has the
fetched pages first in the code store and watch hits noted. -/
def ready (s : State) : Except Halt (Instr × State) := do
  let (i, n) ← fetchNext s
  let s := touchCode s n
  decodeTrap s i
  issueGate s i
  let s ← watchGate s i
  .ok (i, s)

end Sys2Proof.Machine
end

