-- ==== Sys2Proof/Machine/Queue.lean ====
section
/-! DEFINITION. Queue registers: pops and pushes of each mode, and the queue instructions of MAJ 0x2C (R124 to R129, R257). -/

namespace Sys2Proof.Machine

/-- Queue register `q` of the moving slot. -/
def getQ (s : State) (q : Nat) : QReg := s.me.q[q]?.getD QReg.empty
/-- The state with queue register `q` of the moving slot replaced. -/
def setQ (s : State) (q : Nat) (r : QReg) : State := onSlot s fun l => { l with q := l.q.setIfInBounds q r }

/-- Word `i` of a stream pattern (Table 5.6). -/
def patWord (p : Vec) (i : Nat) : Word := p.extractLsb' (64 * i) 64

/-- The number of entries of a pattern: N0 x N1 x N2 (R125). -/
def patCount (p : Vec) : Nat := bits (patWord p 5) 0 32 * bits (patWord p 5) 32 32 * bits (patWord p 6) 0 32

/-- The halt of a pop in stream mode that cannot deliver entry `e` (R127); none when it can. -/
def entryHalt (s : State) (e : QEntry) : Option Halt :=
  if e.bad = 0 then none
  else if e.bad = 5 then
    some (.park 5 e.kind 5 e.ref e.ord (if e.kind = 3 then none else some ((viewOf s s.cur).ctx.getD 0, bits e.ref 52 12, bits e.ref 0 52)) 0 false)
  else some (.trap e.bad e.ref e.ord 5 false)

/-- Pop queue register `q` of the moving slot: the head entry, or the wait or trap that its mode gives (R126, R127, R257). -/
def popQ (s : State) (q : Nat) : Except Halt (Vec × State) :=
  let r := getQ s q
  match r.ents with
  | e :: rest =>
    match if r.mode = .stream then entryHalt s e else none with
    | some h => .error h
    | none => .ok (e.val, setQ s q { r with ents := rest, popped := r.popped + (if r.mode = .plain then 0 else 1) })
  | [] =>
    if r.mode = .stream ∧ r.popped = patCount r.pat then .error (.trap 20 0 (word r.popped) 5 false)
    else .error (.wait .queue)

/-- Push an entry: 0x02 unless the register is plain, a wait while it holds four (R257). -/
def pushQ (s : State) (q : Nat) (x : Vec) : Except Halt State :=
  let r := getQ s q
  if r.mode ≠ .plain then .error (trapOf 2)
  else if r.ents.length ≥ 4 then .error (.wait .queue)
  else .ok (setQ s q { r with ents := r.ents ++ [QEntry.of x] })

/-- The checks of R124 on a stream pattern for a register. -/
def patternLegal (s : State) (v : View) (r : QReg) (p : Vec) : Bool :=
  let w7 := patWord p 7
  let e := layoutEntry s v (bits w7 0 6)
  bits (patWord p 6) 32 32 == 0 && bits w7 7 57 == 0 && layoutUsable s v e
    && (!bit w7 6 || 512 % fmtWidth (layFmt e) == 0) && decide (r.mode = .plain)

/-- QSTREAM: read the pattern, check it, and put the register in stream mode (R257, R124). While its layout entry has an own LAYW on its way (R73), or the
descriptor of its BASE is not cached (R16), it waits and reads the pattern again. -/
def execQstream (q ra : BitVec 5) (s : State) : Host.Outcome State Fault Refusal :=
  cellOnly s do
    let v := viewOf s s.cur
    let o := getX s ra
    let t ← checkRef s v o 64 1 0
    need (t.off % 8 == 0 && windowRule t 64 false) (.trap 2 o 0 0 false)
    let (b, s') ← loadAt s v t o 0 64 0 false (.qstream q ra)
    let p : Vec := BitVec.ofNat 512 (numOfBytes b)
    let l := bits (patWord p 7) 0 6
    let again := onSlot s' fun x => { x with pend := none }
    need (!layoutPosted s' l) (.after again (.wait .counter))
    let slot := bits (layWord (layoutEntry s' v l) 0) 52 12
    need (!cacheMiss s' v slot) (.after again (.wait (.descriptor slot)))
    need (patternLegal s' v (getQ s' q.toNat) p) (.after s' (.trap 2 o 0 0 false))
    .ok (retire (setQ s' q.toNat ⟨.stream, [], p, layoutEntry s' v l, 0, 0, []⟩) 4)

/-- QREL: the register in plain mode without entries; refills in flight are dropped (R257). -/
def execQrel (q : BitVec 5) (s : State) : Host.Outcome State Fault Refusal :=
  cellOnly s (.ok (retire (setQ s q.toNat QReg.empty) 4))

/-- QPOP: bits [63:0] of the head entry (R257). -/
def execQpop (rd q : BitVec 5) (s : State) : Host.Outcome State Fault Refusal :=
  cellOnly s do
    let (x, s') ← popQ s q.toNat
    .ok (retire (setX s' rd (x.setWidth 64)) 4)

/-- QPUSH: an entry whose bits [63:0] are x[ra] (R257). -/
def execQpush (q ra : BitVec 5) (s : State) : Host.Outcome State Fault Refusal :=
  cellOnly s do
    let s' ← pushQ s q.toNat ((getX s ra).setWidth 512)
    .ok (retire s' 4)

/-- The number of a queue mode (Table 10.9). -/
def modeCode : QMode → Nat
  | .plain => 0 | .bound => 1 | .stream => 2

/-- The QSTAT result (Table 10.9). -/
def qstatWord (r : QReg) : Word :=
  let remain := if r.mode = .stream then min (patCount r.pat - r.popped) 0xFFFFFFFF else 0
  let bad := match r.ents with | e :: _ => b2n (e.bad != 0) | [] => 0
  word (fields [(3, r.ents.length), (1, 0), (2, modeCode r.mode), (1, 0), (1, bad), (24, 0), (32, remain)])

/-- QSTAT (R257). -/
def execQstat (rd q : BitVec 5) (s : State) : Host.Outcome State Fault Refusal :=
  cellOnly s (.ok (retire (setX s rd (qstatWord (getQ s q.toNat))) 4))

end Sys2Proof.Machine
end

