-- ==== Sys2Proof/Machine/Vector.lean ====
section
/-! DEFINITION. Vector arithmetic, conversion, movement and memory access (R270 to R284): MAJ 0x30 to 0x39. -/

namespace Sys2Proof.Machine

/-! ### Elements, masks and operands -/

/-- Element `k` of width `w` (R270). -/
def vget (x : Vec) (w k : Nat) : Nat := x.toNat / 2 ^ (k * w) % 2 ^ w

/-- A vector of elements of width `w`, element 0 first. -/
def vmake (w : Nat) (l : List Nat) : Vec := BitVec.ofNat 512 (l.foldr (fun e acc => e % 2 ^ w + 2 ^ w * acc) 0)

/-- Whether element `k` of width `w` is active under mask field `m` (R271). -/
def activeAt (s : State) (m : BitVec 3) (w k : Nat) : Bool :=
  decide (k * w / 8 < 4 * s.me.vl) && (m == 0 || bit (getV s m.toNat) k)

/-- The one queue register that vector operand fields name, if any (R274). -/
def queueIn (l : List (BitVec 5)) : Option Nat := (l.find? fun r => decide (16 ≤ r.toNat)).map fun r => r.toNat - 16

/-- Whether the moving slot serves a stream. -/
def onStream (s : State) : Bool :=
  match s.me.status with
  | .stream _ => true
  | _ => false

/-- Read vector operands (R274): a queue among them is popped once for all. The destination queue, when there is one, is plain and has
room; room counts the entry that the instruction itself pops. Answers the values in order. -/
def vread (s : State) (dst : Option (BitVec 5)) (src : List (BitVec 5)) : Except Halt (List Vec × State) := do
  let dq := queueIn dst.toList
  match dq with
  | some q => need (decide ((getQ s q).mode = .plain)) (trapOf 2)
  | none => .ok ()
  match queueIn src with
  | some q =>
    need (!(decide ((getQ s q).mode = .bound) && !onStream s)) (trapOf 2)
    let (e, s') ← popQ s q
    .ok (src.map fun r => if r.toNat < 16 then getV s r.toNat else e, s')
  | none =>
    match dq with
    | some q => need (decide ((getQ s q).ents.length < 4)) (.wait .queue)
    | none => .ok ()
    .ok (src.map fun r => getV s r.toNat, s)

/-- Write a vector destination: a register, or one entry pushed. -/
def vwrite (s : State) (r : BitVec 5) (x : Vec) : State :=
  if r.toNat < 16 then setV s r.toNat x
  else
    let q := getQ s (r.toNat - 16)
    setQ s (r.toNat - 16) { q with ents := q.ents ++ [QEntry.of x] }

/-- What an inactive element of a destination holds: its old value in a register, zero in a queue entry (R271). -/
def oldOf (s : State) (r : BitVec 5) : Vec := if r.toNat < 16 then getV s r.toNat else 0

/-- The elements of width `w` of a result: `g k` where active, else the old element; with the flags of the active ones. -/
def vlanes (s : State) (rd : BitVec 5) (m : BitVec 3) (w : Nat) (g : Nat → Nat × BitVec 6) : Vec × BitVec 6 :=
  let old := oldOf s rd
  let l := (List.range (512 / w)).map fun k => if activeAt s m w k then g k else (vget old w k, 0)
  (vmake w (l.map (·.1)), l.foldl (fun a e => a ||| e.2) 0)

/-- A form that computes element by element on `n` vector sources. -/
def vform (s : State) (vd : BitVec 5) (src : List (BitVec 5)) (m : BitVec 3) (w : Nat) (g : List Nat → Nat × BitVec 6) :
    Host.Outcome State Fault Refusal :=
  cellOnly s do
    let (vs, s') ← vread s (some vd) src
    let (x, fl) := vlanes s vd m w fun k => g (vs.map fun v => vget v w k)
    .ok (retire (raiseFlags (vwrite s' vd x) fl) 4)

/-! ### FP32 lanes -/

/-- A lane operation on two FP32 operands. -/
def lane2 (op : Elem → Elem → Elem × BitVec 6) (l : List Nat) : Nat × BitVec 6 :=
  let (r, fl) := op (elem (l.getD 0 0)) (elem (l.getD 1 0))
  (r.toNat, fl)

/-- A lane operation on one FP32 operand. -/
def lane1 (op : Elem → Elem × BitVec 6) (l : List Nat) : Nat × BitVec 6 :=
  let (r, fl) := op (elem (l.getD 0 0))
  (r.toNat, fl)

/-- Whether an FP32 lane has its sign bit set. -/
def negative (a : Elem) : Bool := bit a 31

/-- VMAX and VMIN: -0 is less than +0, canonical NaN if either input is a NaN (Table 12.1). -/
def vpick (greatest : Bool) (a b : Elem) : Elem × BitVec 6 :=
  let fl := flagIf (isSig (f32 a) || isSig (f32 b)) flNV
  if isNaN (f32 a) || isNaN (f32 b) then (nan32, fl)
  else
    let less := flt (f32 a) (f32 b) || (feq (f32 a) (f32 b) && negative a && !negative b)
    (if less = greatest then b else a, fl)

/-- a x b + d with one rounding, the product negated for VFMS. -/
def vfused (negate : Bool) (a b d : Elem) : Elem × BitVec 6 :=
  toF32 (ffma (if negate then fneg (f32 a) else f32 a) (f32 b) (f32 d))

/-- VABS and VNEG: a sign change; canonical NaN for a NaN, NV for a signalling one. -/
def vsigned (op : Elem → Elem) (a : Elem) : Elem × BitVec 6 :=
  if isNaN (f32 a) then (nan32, flagIf (isSig (f32 a)) flNV) else (op a, 0)

/-! ### Transcendental lanes (R276) -/

/-- Whether the magnitude m x 2^e is at least (or above) num / den. -/
def magAbove (m : Nat) (e : Int) (num den : Nat) (orEqual : Bool) : Bool :=
  let l := m * den * 2 ^ e.toNat
  let r := num * 2 ^ (-e).toNat
  decide (r < l) || (orEqual && l == r)

/-- ln 2 in units of 2^-256. -/
def ln2Fixed : Nat := 80260960185991308862233904206310070533990667611589946606122867505419956976171

/-- e^x for x in units of 2^-256, in the same units: a power of two times a series of 60 terms. -/
def expFixed (x : Nat) : Nat :=
  let r := x % ln2Fixed
  let sum := (List.range 60).foldl (fun (p : Nat × Nat) i => let t := p.1 * r / (2 ^ 256 * (i + 1)); (t, p.2 + t)) (2 ^ 256, 2 ^ 256)
  sum.2 * 2 ^ (x / ln2Fixed)

/-- ln (n / d) for d <= n <= 2 d, in units of 2^-256: twice the inverse hyperbolic tangent of (n - d) / (n + d), by a series of 90 terms. -/
def lnFixed (n d : Nat) : Nat :=
  let z := (n - d) * 2 ^ 256 / (n + d)
  let q := z * z / 2 ^ 256
  2 * ((List.range 90).foldl (fun (p : Nat × Nat) i => (p.1 * q / 2 ^ 256, p.2 + p.1 / (2 * i + 1))) (z, 0)).2

/-- Whether m x 2^e lies within 2 units in the last place of num / den (R276), which is known to 90 bits. -/
def withinTwoUlp (num den m : Nat) (e : Int) : Bool :=
  let d := Int.ofNat (Nat.log2 num) - Int.ofNat (Nat.log2 den)
  let k := if num * 2 ^ (-d).toNat < den * 2 ^ d.toNat then d - 1 else d
  let unit (j : Int) : Nat := 2 ^ (400 + j).toNat
  let a := m * unit e * den
  let b := num * 2 ^ 400
  decide ((a - b) + (b - a) ≤ 2 * unit (max (k - 23) (-149)) * den + num * 2 ^ 310)

/-- A result whose magnitude is num / den, with NX and the flags that follow from it: the free value `b` where it keeps the bound of R276, else the
nearest (DESIGN CHOICE, log entry 8). -/
def inexactLane (neg : Bool) (num den : Nat) (b : Elem) : Elem × BitVec 6 :=
  let kept := match f32 b with | .fin n m e _ => n == neg && withinTwoUlp num den m e | _ => false
  let v := if kept then b else (toF32 (.fin neg (num * 2 ^ 300 / den) (-300) true, 0)).1
  let e := bits v 23 8
  (v, flNX ||| flagIf (e == 0) flUF ||| flagIf (e == 255) flOF)

/-- m x 2^e of an FP32 magnitude, in units of 2^-256. -/
def fixedOf (m : Nat) (e : Int) : Nat := m * 2 ^ (e + 256).toNat

/-- The infinity of a sign. -/
def inf32 (neg : Bool) : Elem := if neg then 0xFF800000 else 0x7F800000

/-- The NaN result of a NaN input. -/
def nanLane (sig : Bool) : Elem × BitVec 6 := (nan32, flagIf sig flNV)

/-- VRCP. -/
def vrcpLane (a : Elem) : Elem × BitVec 6 :=
  match f32 a with
  | .nan sg => nanLane sg
  | .inf n => (if n then 0x80000000 else 0, 0)
  | .fin n m e _ => if m = 0 then (inf32 n, flDZ) else toF32 (frecip n m e, 0)

/-- VRSQ. -/
def vrsqLane (a : Elem) : Elem × BitVec 6 :=
  match f32 a with
  | .nan sg => nanLane sg
  | .inf n => if n then (nan32, flNV) else (0, 0)
  | .fin n m e _ => if m = 0 then (inf32 n, flDZ) else if n then (nan32, flNV) else toF32 (frsqrt m e, 0)

/-- VEXP. -/
def vexpLane (a : Elem) : Elem × BitVec 6 :=
  match f32 a with
  | .nan sg => nanLane sg
  | .inf n => (if n then 0 else inf32 false, 0)
  | .fin n m e _ =>
    if m = 0 then (0x3F800000, 0)
    else if !n && magAbove m e 887228 10000 false then (inf32 false, flOF ||| flNX)
    else if n && magAbove m e 10398 100 false then (0, flUF ||| flNX)
    else
      let x := expFixed (fixedOf m e)
      if n then inexactLane false (2 ^ 256) x (Config.expValue a) else inexactLane false x (2 ^ 256) (Config.expValue a)

/-- VLOG. -/
def vlogLane (a : Elem) : Elem × BitVec 6 :=
  match f32 a with
  | .nan sg => nanLane sg
  | .inf n => if n then (nan32, flNV) else (inf32 false, 0)
  | .fin n m e _ =>
    if m = 0 then (inf32 true, flDZ)
    else if n then (nan32, flNV)
    else if a = 0x3F800000 then (0, 0)
    else
      let k := e + Int.ofNat (Nat.log2 m)
      let x := lnFixed m (2 ^ Nat.log2 m)
      if k < 0 then inexactLane true (k.natAbs * ln2Fixed - x) (2 ^ 256) (Config.logValue a)
      else inexactLane false (k.toNat * ln2Fixed + x) (2 ^ 256) (Config.logValue a)

/-- VSIGM. -/
def vsigmLane (a : Elem) : Elem × BitVec 6 :=
  match f32 a with
  | .nan sg => nanLane sg
  | .inf n => (if n then 0 else 0x3F800000, 0)
  | .fin n m e _ =>
    if m = 0 then (0x3F000000, 0)
    else if !n && magAbove m e 18 1 true then (0x3F800000, flNX)
    else if n && magAbove m e 104 1 true then (0, flUF ||| flNX)
    else
      let x := expFixed (fixedOf m e)
      inexactLane false (if n then 2 ^ 256 else x) (2 ^ 256 + x) (Config.sigmoidValue a)

/-- VTANH. -/
def vtanhLane (a : Elem) : Elem × BitVec 6 :=
  match f32 a with
  | .nan sg => nanLane sg
  | .inf n => (if n then 0xBF800000 else 0x3F800000, 0)
  | .fin n m e _ =>
    if m = 0 then (a, 0)
    else if magAbove m e 91 10 true then (if n then 0xBF800000 else 0x3F800000, flNX)
    else
      let x := expFixed (2 * fixedOf m e)
      inexactLane n (x - 2 ^ 256) (x + 2 ^ 256) (Config.tanhValue a)

/-! ### MAJ 0x35 and 0x36 -/

/-- VADD (R275). -/
def execVadd (vd va vb : BitVec 5) (m : BitVec 3) (s : State) := vform s vd [va, vb] m 32 (lane2 add32)
/-- VSUB (R275). -/
def execVsub (vd va vb : BitVec 5) (m : BitVec 3) (s : State) :=
  vform s vd [va, vb] m 32 (lane2 fun a b => toF32 (fadd (f32 a) (fneg (f32 b))))
/-- VMUL (R275). -/
def execVmul (vd va vb : BitVec 5) (m : BitVec 3) (s : State) :=
  vform s vd [va, vb] m 32 (lane2 fun a b => toF32 (fmul (f32 a) (f32 b)))
/-- VFMA: a x b + d (R275); a queue destination supplies d as well. -/
def execVfma (vd va vb : BitVec 5) (m : BitVec 3) (s : State) :=
  vform s vd [va, vb, vd] m 32 fun l => lane2 (fun a b => vfused false a b (elem (l.getD 2 0))) l
/-- VFMS: d - a x b (R275). -/
def execVfms (vd va vb : BitVec 5) (m : BitVec 3) (s : State) :=
  vform s vd [va, vb, vd] m 32 fun l => lane2 (fun a b => vfused true a b (elem (l.getD 2 0))) l
/-- VMAX (R275). -/
def execVmax (vd va vb : BitVec 5) (m : BitVec 3) (s : State) := vform s vd [va, vb] m 32 (lane2 (vpick true))
/-- VMIN (R275). -/
def execVmin (vd va vb : BitVec 5) (m : BitVec 3) (s : State) := vform s vd [va, vb] m 32 (lane2 (vpick false))
/-- VABS (R275). -/
def execVabs (vd va : BitVec 5) (m : BitVec 3) (s : State) := vform s vd [va] m 32 (lane1 (vsigned (· &&& 0x7FFFFFFF)))
/-- VNEG (R275). -/
def execVneg (vd va : BitVec 5) (m : BitVec 3) (s : State) := vform s vd [va] m 32 (lane1 (vsigned (· ^^^ 0x80000000)))
/-- VRCP (R276). -/
def execVrcp (vd va : BitVec 5) (m : BitVec 3) (s : State) := vform s vd [va] m 32 (lane1 vrcpLane)
/-- VRSQ (R276). -/
def execVrsq (vd va : BitVec 5) (m : BitVec 3) (s : State) := vform s vd [va] m 32 (lane1 vrsqLane)
/-- VEXP (R276). -/
def execVexp (vd va : BitVec 5) (m : BitVec 3) (s : State) := vform s vd [va] m 32 (lane1 vexpLane)
/-- VLOG (R276). -/
def execVlog (vd va : BitVec 5) (m : BitVec 3) (s : State) := vform s vd [va] m 32 (lane1 vlogLane)
/-- VSIGM (R276). -/
def execVsigm (vd va : BitVec 5) (m : BitVec 3) (s : State) := vform s vd [va] m 32 (lane1 vsigmLane)
/-- VTANH (R276). -/
def execVtanh (vd va : BitVec 5) (m : BitVec 3) (s : State) := vform s vd [va] m 32 (lane1 vtanhLane)

/-! ### Conversion (R277) -/

/-- The float format of conversion code `c`, or none for the integer codes 5 to 7. -/
def cvtFloat (c : Nat) : Option Fmt := floatFmt c
/-- The width of conversion code `c`. -/
def cvtWidth (c : Nat) : Nat := match c with | 0 => 32 | 1 => 16 | 2 => 16 | 3 => 8 | 4 => 8 | 5 => 32 | 6 => 16 | _ => 8

/-- The exact value of an element in conversion code `c`. -/
def cvtRead (c b : Nat) : FVal :=
  match cvtFloat c with
  | some f => fdecode f b
  | none => ofInt (signed b (cvtWidth c))

/-- Convert(x, c, mode) of Table 11.5: the bits and the flags. -/
def cvtWrite (c mode : Nat) (x : FVal) : Nat × BitVec 6 :=
  match cvtFloat c with
  | some f => let (b, fl, _) := convertF f mode x; (b, fl)
  | none => let (i, fl, _) := convertI (cvtWidth c) false mode x; ((i % 2 ^ cvtWidth c).toNat, fl)

/-- Formula (12.2): the converted elements of `a` over those of `old`, with the flags. -/
def vcvtVec (sf df p mode vl : Nat) (a old : Vec) : Vec × BitVec 6 :=
  let ws := cvtWidth sf
  let wd := cvtWidth df
  let l := (List.range (512 / wd)).map fun k =>
    let base := 16 * (p % (32 / wd))
    if base ≤ k ∧ k < base + vl then cvtWrite df mode (cvtRead sf (vget a ws (k - base + 16 * (p % (32 / ws))))) else (vget old wd k, 0)
  (vmake wd (l.map (·.1)), l.foldl (fun acc e => acc ||| e.2) 0)

/-- VCVT (R277). -/
def execVcvt (vd va : BitVec 5) (p : BitVec 2) (f : BitVec 6) (s : State) : Host.Outcome State Fault Refusal :=
  cellOnly s do
    let (vs, s') ← vread s (some vd) [va]
    let (x, fl) := vcvtVec (f.toNat / 8) (f.toNat % 8) p.toNat s.me.csr.rm.toNat s.me.vl (vs.headD 0) (oldOf s vd)
    .ok (retire (raiseFlags (vwrite s' vd x) fl) 4)

/-! ### Integer elements (R278) -/

/-- An integer form on elements of width 8 x 2^e; the operation sees a, b and the width. -/
def viform (s : State) (vd va vb : BitVec 5) (m : BitVec 3) (e : BitVec 2) (op : Nat → Nat → Nat → Nat) :
    Host.Outcome State Fault Refusal :=
  let w := 8 * 2 ^ e.toNat
  vform s vd [va, vb] m w fun l => (op (l.getD 0 0) (l.getD 1 0) w % 2 ^ w, 0)

/-- VIADD (R278). -/
def execViadd (vd va vb : BitVec 5) (m : BitVec 3) (e : BitVec 2) (s : State) := viform s vd va vb m e fun a b _ => a + b
/-- VISUB (R278). -/
def execVisub (vd va vb : BitVec 5) (m : BitVec 3) (e : BitVec 2) (s : State) := viform s vd va vb m e fun a b w => a + 2 ^ w - b
/-- VIMUL (R278). -/
def execVimul (vd va vb : BitVec 5) (m : BitVec 3) (e : BitVec 2) (s : State) := viform s vd va vb m e fun a b _ => a * b
/-- VIAND (R278). -/
def execViand (vd va vb : BitVec 5) (m : BitVec 3) (e : BitVec 2) (s : State) := viform s vd va vb m e fun a b _ => a &&& b
/-- VIOR (R278). -/
def execVior (vd va vb : BitVec 5) (m : BitVec 3) (e : BitVec 2) (s : State) := viform s vd va vb m e fun a b _ => a ||| b
/-- VIXOR (R278). -/
def execVixor (vd va vb : BitVec 5) (m : BitVec 3) (e : BitVec 2) (s : State) := viform s vd va vb m e fun a b _ => a ^^^ b
/-- VISLL (R278). -/
def execVisll (vd va vb : BitVec 5) (m : BitVec 3) (e : BitVec 2) (s : State) := viform s vd va vb m e fun a b w => a * 2 ^ (b % w)
/-- VISRL (R278). -/
def execVisrl (vd va vb : BitVec 5) (m : BitVec 3) (e : BitVec 2) (s : State) := viform s vd va vb m e fun a b w => a / 2 ^ (b % w)
/-- VISRA (R278). -/
def execVisra (vd va vb : BitVec 5) (m : BitVec 3) (e : BitVec 2) (s : State) :=
  viform s vd va vb m e fun a b w => ((signed a w / 2 ^ (b % w)) % 2 ^ w).toNat

/-! ### Reductions, comparison, selection and movement -/

/-- One level of the fixed tree of R279: adjacent results combined, with their flags. -/
def treeLevel (op : Elem → Elem → Elem × BitVec 6) : List (Elem × BitVec 6) → List (Elem × BitVec 6)
  | a :: b :: r => (let (x, fl) := op a.1 b.1; (x, fl ||| a.2 ||| b.2)) :: treeLevel op r
  | l => l

/-- The four levels of the tree over 16 lanes. -/
def tree (op : Elem → Elem → Elem × BitVec 6) (l : List Elem) : Elem × BitVec 6 :=
  (treeLevel op (treeLevel op (treeLevel op (treeLevel op (l.map fun e => (e, 0)))))).headD (0, 0)

/-- A reduction: an inactive lane enters as `unit`; the result in lane 0 and +0 in lanes 1 to 15 (R279). -/
def vreduce (s : State) (vd va : BitVec 5) (m : BitVec 3) (unit : Elem) (op : Elem → Elem → Elem × BitVec 6) :
    Host.Outcome State Fault Refusal :=
  cellOnly s do
    let (vs, s') ← vread s (some vd) [va]
    let a := vs.headD 0
    let (x, fl) := tree op ((List.range 16).map fun k => if activeAt s m 32 k then elem (vget a 32 k) else unit)
    .ok (retire (raiseFlags (vwrite s' vd (x.setWidth 512)) fl) 4)

/-- VREDA (R279). -/
def execVreda (vd va : BitVec 5) (m : BitVec 3) (s : State) := vreduce s vd va m 0 add32
/-- VREDX (R279). -/
def execVredx (vd va : BitVec 5) (m : BitVec 3) (s : State) := vreduce s vd va m (inf32 true) (vpick true)

/-- VCMP (R280): bit i of the result for lane i; `ordered` forms raise NV for any NaN. -/
def vcompare (s : State) (vd va vb : BitVec 5) (m : BitVec 3) (ordered : Bool) (cmp : FVal → FVal → Bool) :
    Host.Outcome State Fault Refusal :=
  cellOnly s do
    let (vs, s') ← vread s (some vd) [va, vb]
    let l := (List.range 16).map fun k =>
      let a := f32 (elem (vget (vs.getD 0 0) 32 k))
      let b := f32 (elem (vget (vs.getD 1 0) 32 k))
      if activeAt s m 32 k then
        (b2n (cmp a b), flagIf (isSig a || isSig b || (ordered && (isNaN a || isNaN b))) flNV)
      else (0, 0)
    let r := l.foldr (fun e acc => e.1 + 2 * acc) 0
    .ok (retire (raiseFlags (vwrite s' vd (BitVec.ofNat 512 r)) (l.foldl (fun a e => a ||| e.2) 0)) 4)

/-- VCMP.eq (R280). -/
def execVcmpEq (vd va vb : BitVec 5) (m : BitVec 3) (s : State) := vcompare s vd va vb m false feq
/-- VCMP.ne (R280). -/
def execVcmpNe (vd va vb : BitVec 5) (m : BitVec 3) (s : State) := vcompare s vd va vb m false fun a b => !feq a b
/-- VCMP.lt (R280). -/
def execVcmpLt (vd va vb : BitVec 5) (m : BitVec 3) (s : State) := vcompare s vd va vb m true flt
/-- VCMP.le (R280). -/
def execVcmpLe (vd va vb : BitVec 5) (m : BitVec 3) (s : State) := vcompare s vd va vb m true fle
/-- VCMP.gt (R280). -/
def execVcmpGt (vd va vb : BitVec 5) (m : BitVec 3) (s : State) := vcompare s vd va vb m true fun a b => flt b a
/-- VCMP.ge (R280). -/
def execVcmpGe (vd va vb : BitVec 5) (m : BitVec 3) (s : State) := vcompare s vd va vb m true fun a b => fle b a

/-- VSEL: the mask field names the selecting register; lanes below VL are written (R280). -/
def execVsel (vd va vb : BitVec 5) (k : BitVec 3) (s : State) : Host.Outcome State Fault Refusal :=
  cellOnly s do
    let (vs, s') ← vread s (some vd) [va, vb]
    let (x, _) := vlanes s vd 0 32 fun i => (vget (if bit (getV s k.toNat) i then vs.getD 0 0 else vs.getD 1 0) 32 i, 0)
    .ok (retire (vwrite s' vd x) 4)

/-- VPERM (R280). -/
def execVperm (vd va vb : BitVec 5) (m : BitVec 3) (s : State) : Host.Outcome State Fault Refusal :=
  cellOnly s do
    let (vs, s') ← vread s (some vd) [va, vb]
    let (x, _) := vlanes s vd m 32 fun i => (vget (vs.getD 0 0) 32 (vget (vs.getD 1 0) 32 i % 16), 0)
    .ok (retire (vwrite s' vd x) 4)

/-- VBCST (R280). -/
def execVbcst (vd ra : BitVec 5) (m : BitVec 3) (s : State) : Host.Outcome State Fault Refusal :=
  cellOnly s do
    let (_, s') ← vread s (some vd) []
    let (x, _) := vlanes s vd m 32 fun _ => (bits (getX s ra) 0 32, 0)
    .ok (retire (vwrite s' vd x) 4)

/-- VMVX: a doubleword of va into x[rd] (R281). -/
def execVmvx (rd va rb : BitVec 5) (s : State) : Host.Outcome State Fault Refusal :=
  cellOnly s do
    let (vs, s') ← vread s none [va]
    .ok (retire (setX s' rd (word (vget (vs.headD 0) 64 (bits (getX s rb) 0 3)))) 4)

/-- VMVS: x[ra] into a doubleword of vd (R281). -/
def execVmvs (vd ra rb : BitVec 5) (s : State) : Host.Outcome State Fault Refusal :=
  cellOnly s do
    let (_, s') ← vread s (some vd) []
    let old := oldOf s vd
    let x := vmake 64 ((List.range 8).map fun k => if k = bits (getX s rb) 0 3 then (getX s ra).toNat else vget old 64 k)
    .ok (retire (vwrite s' vd x) 4)

/-- VSETL: VL := min(x[ra], 16) (R272). -/
def execVsetl (rd ra : BitVec 5) (s : State) : Host.Outcome State Fault Refusal :=
  let n := min (getX s ra).toNat 16
  cellOnly s (.ok (retire (setX (onSlot s fun l => { l with vl := n }) rd (word n)) 4))

/-! ### Vector memory access -/

/-- Whether a full/empty vector access stands where R282 lets it: at a scratchpad byte address that is a multiple of 16. -/
def fullPlace (t : Target) : Bool := anyScratch t && (t.base + t.off) % 16 == 0

/-- VLD of 64 bytes at an oref (R282). -/
def execVld (rt ra : BitVec 5) (w : BitVec 2) (sc : BitVec 3) (ord : BitVec 2) (imm : BitVec 7) (s : State) :
    Host.Outcome State Fault Refusal :=
  cellOnly s do
    let v := viewOf s s.cur
    let o := formRef (getX s ra) imm 64
    let t ← checkRef s v o 64 1 0
    need (t.off % 8 == 0 && windowRule t 64 false) (.trap 2 o 0 0 false)
    let (_, _) ← vread s (some rt) []
    let (b, s') ← loadAt s v t o 0 64 w (ord == 1) (.vld rt ra w sc ord imm)
    .ok (retire (vwrite s' rt (BitVec.ofNat 512 (numOfBytes b))) 4)

/-- VST of 64 bytes at an oref (R282). -/
def execVst (rt ra : BitVec 5) (w : BitVec 2) (_sc : BitVec 3) (ord : BitVec 2) (imm : BitVec 7) (s : State) :
    Host.Outcome State Fault Refusal :=
  cellOnly s do
    let v := viewOf s s.cur
    let o := formRef (getX s ra) imm 64
    let t ← checkRef s v o 64 2 1
    need (t.off % 8 == 0 && windowRule t 64 true) (.trap 2 o 0 1 false)
    let (vs, s') ← vread s none [rt]
    let s'' ← storeAt s' v t o (bytesOf 64 (vs.headD 0).toNat) w (ord == 2) false true 1
    .ok (retire s'' 4)

/-- VLDF and VLDF.c at an oref: the four granules of the own scratchpad (R283). -/
def vfullLoad (clear : Bool) (rt ra : BitVec 5) (w : BitVec 2) (imm : BitVec 7) (s : State) : Host.Outcome State Fault Refusal :=
  cellOnly s do
    let v := viewOf s s.cur
    let o := formRef (getX s ra) imm 64
    let t ← checkRef s v o 64 (if clear then 3 else 1) 0
    need (ownScratch v t && fullPlace t) (.trap 2 o 0 0 false)
    let (_, _) ← vread s (some rt) []
    let (b, s') ← fullRead s v t o 0 64 w clear
    .ok (retire (vwrite s' rt (BitVec.ofNat 512 (numOfBytes b))) 4)

/-- VLDF (R283). -/
def execVldf (rt ra : BitVec 5) (w : BitVec 2) (_sc : BitVec 3) (imm : BitVec 7) (s : State) := vfullLoad false rt ra w imm s
/-- VLDF.c (R283). -/
def execVldfC (rt ra : BitVec 5) (w : BitVec 2) (_sc : BitVec 3) (imm : BitVec 7) (s : State) := vfullLoad true rt ra w imm s

/-- VSTF at an oref: a release store that makes its four granules full (R283). -/
def execVstf (rt ra : BitVec 5) (w : BitVec 2) (_sc : BitVec 3) (imm : BitVec 7) (s : State) : Host.Outcome State Fault Refusal :=
  cellOnly s do
    let v := viewOf s s.cur
    let o := formRef (getX s ra) imm 64
    let t ← checkRef s v o 64 2 1
    need (fullPlace t) (.trap 2 o 0 1 false)
    let (vs, s') ← vread s none [rt]
    let s'' ← storeAt s' v t o (bytesOf 64 (vs.headD 0).toNat) w true true true 1
    .ok (retire s'' 4)

/-! ### Layout forms (R284) -/

/-- The elements along dimension 0 from coordinate register `c` that lie inside EXT0: (number, exact coordinates). -/
def stripCoords (e : Vec) (c : Word) : List (Nat × List Int) :=
  let w := fmtWidth (layFmt e)
  ((List.range (512 / w)).filter fun j => decide (coordOf c 0 + j < layExt e 0)).map fun j =>
    (j, [Int.ofNat (coordOf c 0 + j), coordOf c 1, coordOf c 2, coordOf c 3])

/-- Steps 1 to 3 of R25 for a layout entry, else 0x02, once the descriptor of its BASE is there (R16). -/
def usable (s : State) (v : View) (e : Vec) (acc : Nat) : Except Halt Unit := do
  layoutReady s v e
  need (layoutUsable s v e) (.trap 2 (layWord e 0) 0 acc false)

/-- Elements as a vector instruction reads them from a layout: the reserved TERN code counts as 0 and raises NV (R262). -/
def readTern (e : Vec) (l : List (Nat × Nat)) : List (Nat × Nat) × BitVec 6 :=
  if layFmt e = 0x0A then (l.map fun p => (p.1, if p.2 = 2 then 0 else p.2), if l.any fun p => p.2 == 2 then flNV else 0) else (l, 0)

/-- Whether BASE of a layout lies in the own scratchpad: the place rule of the full/empty layout forms (R284). -/
def baseOwnScratch (s : State) (v : View) (e : Vec) : Bool :=
  match resolve s v (layWord e 0) with
  | .ok t => ownScratch v t
  | .error _ => false

/-- A vector of elements of width `w` from (number, value) pairs; the others are zero. -/
def vscatter (w : Nat) (l : List (Nat × Nat)) : Vec :=
  BitVec.ofNat 512 (l.foldl (fun acc p => acc + p.2 % 2 ^ w * 2 ^ (p.1 * w)) 0)

/-- VLD along dimension 0 of a layout (R284). -/
def execVldL (vd : BitVec 5) (lay : BitVec 6) (rc : BitVec 5) (w : BitVec 2) (sc : BitVec 3) (s : State) :
    Host.Outcome State Fault Refusal :=
  cellOnly s do
    let v := viewOf s s.cur
    let e ← myLayout s v lay.toNat
    holding s e do
      let c := getX s rc
      usable s v e 0
      let xs ← elemRefs s v e 1 0 (stripCoords e c)
      let (_, _) ← vread s (some vd) []
      let wd := fmtWidth (layFmt e)
      let s' ← reachElems s v wd 0 w xs (.vldL vd lay rc w sc) e
      let (l, s'') ← readElems s' v wd 0 xs
      let (l, fl) := readTern e l
      .ok (retire (raiseFlags (vwrite s'' vd (vscatter wd l)) fl) 4)

/-- VST along dimension 0 of a layout (R284). -/
def execVstL (vd : BitVec 5) (lay : BitVec 6) (rc : BitVec 5) (w : BitVec 2) (_sc : BitVec 3) (s : State) :
    Host.Outcome State Fault Refusal :=
  cellOnly s do
    let v := viewOf s s.cur
    let e ← myLayout s v lay.toNat
    holding s e do
      usable s v e 1
      let xs ← elemRefs s v e 2 1 (stripCoords e (getX s rc))
      let (vs, s') ← vread s none [vd]
      let wd := fmtWidth (layFmt e)
      let s'' ← storeElems s' v wd 1 w false false (xs.map fun x => (x.2, vget (vs.headD 0) wd x.1))
      .ok (retire s'' 4)

/-- VLDF and VLDF.c along dimension 0 of a layout: every granule that holds a byte of an element inside EXT0 (R284). -/
def vfullLoadL (clear : Bool) (vd : BitVec 5) (lay : BitVec 6) (rc : BitVec 5) (w : BitVec 2) (s : State) :
    Host.Outcome State Fault Refusal :=
  cellOnly s do
    let v := viewOf s s.cur
    let e ← myLayout s v lay.toNat
    holding s e do
      usable s v e 0
      let xs ← elemRefs s v e (if clear then 3 else 1) 0 (stripCoords e (getX s rc))
      need (baseOwnScratch s v e) (.trap 2 (layWord e 0) (getX s rc) 0 false)
      let (_, _) ← vread s (some vd) []
      let wd := fmtWidth (layFmt e)
      let s' ← reachElems s v wd 0 w xs (.vldfL vd lay rc w 0) e
      need (!acquireHeld s' true) (.wait .counter)
      let ls ← elemsPresent s' v wd 0 false xs
      let ks := ls.flatMap fun l => l.1.keys
      need ((granules ks).all s'.full.has && myTurn s' (granules ks)) (.wait (.fullEmpty (granules ks)))
      let (l, s'') ← readElems s' v wd 0 xs
      let (l, fl) := readTern e l
      let s'' := if clear then { s'' with full := dropAll s''.full (granules ks) } else s''
      .ok (retire (raiseFlags (vwrite s'' vd (vscatter wd l)) fl) 4)

/-- VLDF along a layout (R284). -/
def execVldfL (vd : BitVec 5) (lay : BitVec 6) (rc : BitVec 5) (w : BitVec 2) (_sc : BitVec 3) (s : State) :=
  vfullLoadL false vd lay rc w s
/-- VLDF.c along a layout (R284). -/
def execVldfCL (vd : BitVec 5) (lay : BitVec 6) (rc : BitVec 5) (w : BitVec 2) (_sc : BitVec 3) (s : State) :=
  vfullLoadL true vd lay rc w s

/-- VSTF along dimension 0 of a layout (R284). -/
def execVstfL (vd : BitVec 5) (lay : BitVec 6) (rc : BitVec 5) (w : BitVec 2) (_sc : BitVec 3) (s : State) :
    Host.Outcome State Fault Refusal :=
  cellOnly s do
    let v := viewOf s s.cur
    let e ← myLayout s v lay.toNat
    holding s e do
      usable s v e 1
      let xs ← elemRefs s v e 2 1 (stripCoords e (getX s rc))
      need (baseOwnScratch s v e) (.trap 2 (layWord e 0) (getX s rc) 1 false)
      let (vs, s') ← vread s none [vd]
      let wd := fmtWidth (layFmt e)
      let s'' ← storeElems s' v wd 1 w true true (xs.map fun x => (x.2, vget (vs.headD 0) wd x.1))
      .ok (retire s'' 4)

end Sys2Proof.Machine
end

