-- ==== Sys2Proof/Machine/Matrix.lean ====
section
/-! DEFINITION. The arithmetic of the matrix pipeline (R264, R267, R296 to R300, R303 to R308, R313, R315): tiles, operand codes, the
legal pairs and their paths, products, and the conversions of loads and stores. -/

namespace Sys2Proof.Machine

/-! ### Tiles (R9, R296) -/

/-- The address of row `i` of tile `t` in the accumulator region (R9). -/
def tileRow (t i : Nat) : Nat := 4096 * t + 128 * i

/-- Row `i` of tile `t` of cell `c`. -/
def readTileRow (s : State) (c t i : Nat) : List Elem :=
  (List.range 32).map fun j => elem (numOfBytes (readKeys s.mem (span (accKey c (tileRow t i + 4 * j)) 4)))

/-- Tile `t` of cell `c`, row by row. -/
def readTile (s : State) (c t : Nat) : List (List Elem) := (List.range 32).map (readTileRow s c t)

/-- The state with row `i` of a tile written; poison stays, as only vector stores and engines clear it (R233). -/
def writeTileRow (s : State) (c t i : Nat) (r : List Elem) : State :=
  s.store (span (accKey c (tileRow t i)) (4 * r.length)) (r.flatMap fun e => bytesOf 4 e.toNat) false false

/-- The state with a tile written. -/
def writeTile (s : State) (c t : Nat) (m : List (List Elem)) : State :=
  (m.zipIdx).foldl (fun s r => writeTileRow s c t r.2 r.1) s

/-- Whether a granule of a tile is poisoned. -/
def tilePoisoned (s : State) (c t : Nat) : Bool := s.poisoned (span (accKey c (tileRow t 0)) 4096)

/-- The row-sum vector of a tile (R296). -/
def rowSums (s : State) (c t : Nat) : List Elem :=
  let r := (s.cell c).rowSums[t]?.getD 0
  (List.range 32).map fun i => elem (bits r (32 * i) 32)

/-- The state with a row-sum vector written. -/
def writeRowSums (s : State) (c t : Nat) (l : List Elem) : State :=
  let x := s.cell c
  let v : BitVec 1024 := BitVec.ofNat 1024 (fields (l.map fun e => (32, e.toNat)))
  s.setCell c { x with rowSums := x.rowSums.setIfInBounds t v }

/-- The zero tile. -/
def zeroTile : List (List Elem) := List.replicate 32 (List.replicate 32 0)

/-! ### Matrices of exact values -/

/-- The exact zero. -/
def fzero : FVal := .fin false 0 0 false
/-- The exact one. -/
def fone : FVal := .fin false 1 0 false

/-- The columns of a matrix given by its rows, `n` of them (and the rows of one given by its columns). -/
def transposed {α : Type} (d : α) (n : Nat) (m : List (List α)) : List (List α) :=
  (List.range n).map fun j => m.map fun r => r.getD j d

/-- The identity of size 32 (Table 11.4). -/
def identity (n : Nat) : List (List FVal) := (List.range n).map fun i => (List.range n).map fun j => if i = j then fone else fzero

/-- The integer of an exact integer value. -/
def intOf : FVal → Int
  | .fin n m e _ => scaled n m e 0
  | _ => 0

/-! ### Operand codes (Table 11.4, R298, R299) -/

/-- The groups of Table 13.2. -/
inductive Group where
  | f32 | b16 | f8 | i8 | i16 | i32 | n4
  deriving DecidableEq, Repr

/-- The group of a code other than IDENT; none for a reserved code. -/
def groupOf (code : Nat) : Option Group :=
  match code with
  | 0x00 | 0x10 | 0x11 => some .f32
  | 0x01 | 0x02 | 0x12 | 0x13 => some .b16
  | 0x03 | 0x04 | 0x14 => some .f8
  | 0x05 | 0x06 => some .i8
  | 0x0F => some .i16
  | 0x15 | 0x16 => some .i32
  | 0x07 | 0x08 | 0x09 | 0x0A | 0x0B | 0x0C | 0x0D | 0x0E => some .n4
  | _ => none

/-- Whether a code names a LUT4 format. -/
def isLut (code : Nat) : Bool := decide (0x0B ≤ code ∧ code ≤ 0x0E)

/-- Whether a code is float-valued under CBMODE (R299). -/
def floatValued (cbmode : BitVec 8) (code : Nat) : Bool :=
  match groupOf code with
  | some .f32 | some .b16 | some .f8 => true
  | some .n4 => isLut code && bit cbmode (code - 0x0B)
  | _ => false

/-- The summation paths of R300. -/
inductive Path where
  | tree | chunk | integer
  deriving DecidableEq, Repr

/-- Table 13.2: the path of a pair of sampled codes, or none for an illegal one. IDENT takes its group from its partner (R298). -/
def pathOf (cbmode : BitVec 8) (a b : Nat) : Option Path :=
  if a = 0x17 ∧ b = 0x17 then none
  else
    let fa := if a = 0x17 then floatValued cbmode b else floatValued cbmode a
    let fb := if b = 0x17 then fa else floatValued cbmode b
    let ga := if a = 0x17 then (groupOf b).map fun _ => if fa then Group.f8 else .i8 else groupOf a
    let gb := if b = 0x17 then ga else groupOf b
    match ga, gb with
    | some ga, some gb =>
      if ga = .n4 then none
      else if fa then
        if gb = .i16 ∨ gb = .i32 then none
        else if ga = .f32 ∨ gb = .f32 then some .tree else some .chunk
      else if fb then none
      else some .integer
    | _, _ => none

/-- Whether B is a zero-point operand (R267); the ZP bits of CBMODE are [7:4]. -/
def zeroPoint (cbmode : BitVec 8) (code : Nat) : Bool :=
  code == 0x06 || code == 0x08 || (isLut code && bit cbmode (4 + (code - 0x0B)))

/-- The value of element bits `b` in stored format `f` (R261 to R263): value and flags. -/
def storedValue (cb : Vector (BitVec 256) 4) (cbmode : BitVec 8) (f b : Nat) : FVal × BitVec 6 :=
  match floatFmt f with
  | some t => (fdecode t b, 0)
  | none =>
    match f with
    | 0x05 => (ofInt (signed b 8), 0)
    | 0x06 => (ofInt (Int.ofNat (b % 256)), 0)
    | 0x07 => (ofInt (signed b 4), 0)
    | 0x08 => (ofInt (Int.ofNat (b % 16)), 0)
    | 0x09 => (ofInt (signed b 2), 0)
    | 0x0A => if b % 4 = 2 then (fzero, flNV) else (ofInt (signed b 2), 0)
    | 0x0F => (ofInt (signed b 16), 0)
    | 0x10 => (ofInt (signed b 32), 0)
    | _ =>
      let n := f - 0x0B
      let ent := bits (cb[n]?.getD 0) (16 * (b % 16)) 16
      if bit cbmode n then (fdecode bf16 ent, 0) else (ofInt (signed ent 8), 0)

/-- A tile element read through a tile code (Table 11.4): value, flags, saturations counted. -/
def tileValue (code : Nat) (b : Elem) : FVal × BitVec 6 × Nat :=
  match code with
  | 0x12 | 0x13 => let (v, fl, sat) := reread bf16 (f32 b); (v, fl, b2n sat)
  | 0x14 => let (v, fl, sat) := reread e4m3 (f32 b); (v, fl, b2n sat)
  | 0x15 | 0x16 => (ofInt (signed b.toNat 32), 0, 0)
  | _ => (f32 b, 0, 0)

/-- Whether a code reads a tile transposed. -/
def isTransposed (code : Nat) : Bool := code == 0x11 || code == 0x13 || code == 0x16

/-- An operand matrix with the flags and the count of its reads. -/
structure Read where
  m : List (List FVal)
  fl : BitVec 6
  n : Nat
  deriving DecidableEq, Repr

/-- A tile read through a code, row by row as the operand has it (Table 13.1). -/
def tileOperand (code : Nat) (t : List (List Elem)) : Read :=
  let l := t.map fun r => r.map (tileValue code)
  let m := l.map fun r => r.map (·.1)
  ⟨if isTransposed code then transposed fzero t.length m else m,
    l.flatten.foldl (fun a e => a ||| e.2.1) 0, l.flatten.foldl (fun a e => a + e.2.2) 0⟩

/-- The elements of a tile that saturate in a read through code 0x12 (R264, R268). -/
def bf16Saturated (t : List (List Elem)) : Nat := (t.flatten.filter fun b => decide ((tileValue 0x12 b).2.2 = 1)).length

/-- The feedback read of MPOLY and MITER: code 0x10 or 0x12 (R313), column by column with the flags of each column. -/
def feedback (fb : Bool) (cols : List (List Elem)) : List (List FVal × BitVec 6) :=
  cols.map fun c =>
    let l := c.map (tileValue (if fb then 0x12 else 0x10))
    (l.map (·.1), l.foldl (fun a e => a ||| e.2.1) 0)

/-- The path of the pair (Fb, Fb). -/
def feedbackPath (fb : Bool) : Path := if fb then .chunk else .tree

/-! ### Sums of products (R300) -/

/-- One level of the tree of Table 13.3: neighbours added. -/
def treePairs : List Elem → List Elem × BitVec 6
  | x :: y :: r =>
    let (e, fl) := add32 x y
    let (l, fl') := treePairs r
    (e :: l, fl ||| fl')
  | l => (l, 0)

/-- Table 13.3: five levels from 32 values to the root. -/
def treeRoot : Nat → List Elem → Elem × BitVec 6
  | 0, l => (l.headD 0, 0)
  | n + 1, l =>
    let (l', fl) := treePairs l
    let (e, fl') := treeRoot n l'
    (e, fl ||| fl')

/-- Add 32 products to an accumulator element along a path: the element, flags, and 1 when an INT32 sum leaves the range (R300). -/
def accumulate (p : Path) (t : Elem) (a b : List FVal) : Elem × BitVec 6 × Nat :=
  match p with
  | .chunk =>
    let ps := List.zipWith fmul a b
    let (x, f1) := toF32 (fsum (ps.map (·.1)))
    let (r, f2) := add32 t x
    (r, ps.foldl (fun acc e => acc ||| e.2) (f1 ||| f2), 0)
  | .tree =>
    let ps := List.zipWith (fun x y => toF32 (fmul x y)) a b
    let (x, f1) := treeRoot 5 (ps.map (·.1))
    let (r, f2) := add32 t x
    (r, ps.foldl (fun acc e => acc ||| e.2) (f1 ||| f2), 0)
  | .integer =>
    let n := signed t.toNat 32 + (List.zipWith (fun x y => intOf x * intOf y) a b).sum
    (BitVec.ofInt 32 n, 0, b2n (decide (n < -(2 ^ 31) ∨ 2 ^ 31 ≤ n)))

/-- AccRow (R300): the same path with every B element 1, and no count. -/
def accumulateRow (p : Path) (t : Elem) (a : List FVal) : Elem × BitVec 6 :=
  let (e, fl, _) := accumulate p t a (a.map fun _ => fone)
  (e, fl)

/-- Formula (13.4) on a tile given by columns: `a` holds the rows of A, `b` the columns of B. -/
def multiply (p : Path) (t : List (List Elem)) (a b : List (List FVal)) : List (List Elem) × BitVec 6 × Nat :=
  let l := List.zipWith (fun tc bc => List.zipWith (fun e ar => accumulate p e ar bc) tc a) t b
  (l.map fun c => c.map (·.1), l.flatten.foldl (fun x e => x ||| e.2.1) 0, l.flatten.foldl (fun x e => x + e.2.2) 0)

/-- The chunks of 32 of a list. -/
def chunks32 {α : Type} : Nat → List α → List (List α)
  | 0, _ => []
  | n + 1, l => l.take 32 :: chunks32 n (l.drop 32)

/-- Prod from a zero accumulator for one element, chunk by chunk of K (R313). -/
def prodElem (p : Path) (n : Nat) (a b : List FVal) : Elem × BitVec 6 :=
  (List.zip (chunks32 n a) (chunks32 n b)).foldl (fun acc c =>
    let (e, fl, _) := accumulate p acc.1 c.1 c.2
    (e, acc.2 ||| fl)) (0, 0)

/-- Prod of matrices of size 32 n: `a` by rows, `b` by columns; the columns of the product, each with its flags. -/
def prodCols (p : Path) (n : Nat) (a b : List (List FVal)) : List (List Elem × BitVec 6) :=
  b.map fun bc =>
    let l := a.map fun ar => prodElem p n ar bc
    (l.map (·.1), l.foldl (fun x e => x ||| e.2) 0)

/-- Columns of a matrix with the flags of computing each. -/
abbrev Cols := List (List Elem × BitVec 6)

/-- The flags of two computations, column by column. -/
def orCols (a b : List (BitVec 6)) : List (BitVec 6) := List.zipWith (· ||| ·) a b

/-- The elements of columns. -/
def colElems (c : Cols) : List (List Elem) := c.map (·.1)
/-- The flags of columns. -/
def colFlags (c : Cols) : List (BitVec 6) := c.map (·.2)

/-- The columns of a feedback read. -/
def readCols (c : List (List FVal × BitVec 6)) : List (List FVal) := c.map (·.1)
/-- The flags of a feedback read. -/
def readFlags (c : List (List FVal × BitVec 6)) : List (BitVec 6) := c.map (·.2)

/-- Every element of column `c` of a matrix by columns, replaced by `g row column`. -/
def mapCols (n : Nat) (g : Nat → Nat → Elem × BitVec 6) : Cols :=
  (List.range n).map fun c =>
    let l := (List.range n).map fun r => g r c
    (l.map (·.1), l.foldl (fun x e => x ||| e.2) 0)

/-- Element (r, c) of columns. -/
def colAt (m : List (List Elem)) (r c : Nat) : Elem := (m.getD c []).getD r 0

/-- δrc as an exact value (DEDUCED, log entry 35). -/
def delta (r c : Nat) : FVal := if r = c then fone else fzero

/-! ### MPOLY and MITER (R313, R315) -/

/-- The Horner steps of Formula (13.6) left to do, for coefficients `ks` from the one below the last on: H, Q, the flags by column, and the elements of H
that saturated in its reads. -/
def polySteps (fb : Bool) (n : Nat) (s : List (List FVal)) :
    List Elem → List (List Elem) → List (List Elem) → List (BitVec 6) → Nat → List (List Elem) × List (List Elem) × List (BitVec 6) × Nat
  | [], h, q, fl, sat => (h, q, fl, sat)
  | k :: ks, h, _, fl, sat =>
    let hf := feedback fb h
    let q := prodCols (feedbackPath fb) n (transposed fzero (32 * n) (hf.map (·.1))) s
    let qe := colElems q
    let h' := mapCols (32 * n) fun r c => toF32 (ffma (f32 k) (delta r c) (f32 (colAt qe r c)))
    polySteps fb n s ks (colElems h') qe (orCols (orCols fl (hf.map (·.2))) (orCols (colFlags q) (colFlags h')))
      (sat + if fb then bf16Saturated h else 0)

/-- Formula (13.6): p(S) for S given by columns; the result, the last Q, the flags by column, and the saturations of the reads of H. -/
def polyEval (fb : Bool) (n deg : Nat) (k : Nat → Elem) (s : List (List Elem)) :
    List (List Elem) × List (List Elem) × List (BitVec 6) × Nat :=
  let sf := feedback fb s
  let h := mapCols (32 * n) fun r c => toF32 (fmul (f32 (k deg)) (delta r c))
  polySteps fb n (sf.map (·.1)) ((List.range deg).reverse.map k) (colElems h) []
    (if deg = 0 then colFlags h else orCols (colFlags h) (sf.map (·.2))) 0

/-- One iteration of Formula (13.7) up to ρ: X by columns, A by columns in mode 1; X′, ρ, the flags by column and those of ρ. -/
structure IterStep where
  x : List (List Elem)
  rho : Elem
  fl : List (BitVec 6)
  rfl : BitVec 6
  deriving DecidableEq, Repr

/-- Compute one iteration of Formula (13.7). A sum of squares too large for FP32 gives ρ = +∞. -/
def iterate (fb : Bool) (n : Nat) (k : Nat → Elem) (a : Option (List (List Elem))) (x : List (List Elem)) : IterStep :=
  let p := feedbackPath fb
  let t := transposed fzero (32 * n)
  let y := feedback fb x
  let yc := readCols y
  let (left, lfl) := match a with
    | none => (yc, [])
    | some a => (t (readCols (feedback fb a)), readFlags (feedback fb a))
  let m := prodCols p n left yc
  let me := colElems m
  let zero := feq (f32 (k 2)) fzero
  let mf := feedback fb me
  let q := if zero then [] else prodCols p n (t (readCols mf)) (readCols mf)
  let qe := colElems q
  let pm := mapCols (32 * n) fun r c =>
    let (a0, f0) := fmul (f32 (k 0)) (delta r c)
    let (a1, f1) := fmul (f32 (k 1)) (f32 (colAt me r c))
    let (a2, f2) := fmul (f32 (k 2)) (if zero then fzero else f32 (colAt qe r c))
    let (v, f3) := fsum [a0, a1, a2]
    toF32 (v, f0 ||| f1 ||| f2 ||| f3)
  let pf := feedback fb (colElems pm)
  let x' := prodCols p n (t yc) (readCols pf)
  let xe := colElems x'
  let ds := List.zipWith (fun d e => fadd (f32 d) (fneg (f32 e))) xe.flatten x.flatten
  let (v, sf) := fsum (ds.map fun d => (fmul d.1 d.1).1)
  let (sum, of) := toF32 (v, 0)
  let root := match v with
    | .fin _ m e _ => if isFin (f32 sum) then (fsqrt m e, 0) else (f32 sum, of)
    | w => (w, 0)
  let (rho, rf) := toF32 (root.1, ds.foldl (fun a d => a ||| d.2) (sf ||| root.2))
  let fl := orCols (orCols (readFlags y) (colFlags m)) (orCols (colFlags pm) (orCols (readFlags pf) (colFlags x')))
  let fl := if lfl.isEmpty then fl else orCols fl lfl
  let fl := if zero then fl else orCols fl (orCols (readFlags mf) (colFlags q))
  ⟨xe, rho, fl, rf⟩

/-- The three tests of Formula (13.7) on an iteration: which way it ends, or none; and the growth mark g. WHY is 0 where it converged. -/
inductive IterEnd where
  | goOn | converged | diverged (why : Nat)
  deriving DecidableEq, Repr

/-- The growth test: COUNT ≥ 1 and ρ > γ × RHO, exact. -/
def growth (k : Nat → Elem) (count : Nat) (rho old : Elem) : Bool :=
  decide (1 ≤ count) && flt (fmul (f32 (k 4)) (f32 old)).1 (f32 rho)

/-- The tests in the order of Formula (13.7). -/
def iterTests (k : Nat → Elem) (count : Nat) (grow : Bool) (old : Elem) (r : IterStep) : IterEnd :=
  if r.x.any fun c => c.any fun e => !isFin (f32 e) then .diverged 3
  else if flt (f32 (k 5)) (f32 r.rho) then .diverged 1
  else if growth k count r.rho old && grow then .diverged 2
  else if fle (f32 r.rho) (f32 (k 3)) then .converged
  else .goOn

/-- NV where a test reads a signalling NaN (R260). -/
def readFlag (v : FVal) : BitVec 6 :=
  match v with
  | .nan true => flNV
  | _ => 0

/-- The flags of the tests: each threshold that is read, and the product γ × RHO (R260). -/
def testFlags (k : Nat → Elem) (count : Nat) (grow : Bool) (old : Elem) (r : IterStep) : BitVec 6 :=
  if r.x.any fun c => c.any fun e => !isFin (f32 e) then 0
  else
    let omega := readFlag (f32 (k 5))
    if flt (f32 (k 5)) (f32 r.rho) then omega
    else
      let fl := omega ||| if 1 ≤ count then (fmul (f32 (k 4)) (f32 old)).2 else 0
      if growth k count r.rho old && grow then fl else fl ||| readFlag (f32 (k 3))

/-! ### Scaling and conversion -/

/-- Formula (13.5) for one element. -/
def scaleElem (int : Bool) (sj zj t rs : Elem) : Elem × BitVec 6 :=
  let rd (e : Elem) : FVal := if int then ofInt (signed e.toNat 32) else f32 e
  let (zr, f1) := fmul (f32 zj) (rd rs)
  let (d, f2) := fadd (rd t) (fneg zr)
  let (p, f3) := fmul (f32 sj) d
  toF32 (p, f1 ||| f2 ||| f3)

/-- The tile element of a layout element (R304): FP32 for a float format, INT32 for an integer one. -/
def loadConvert (f b : Nat) : Elem × BitVec 6 :=
  match floatFmt f with
  | some t => let (x, fl, _) := convertF fp32 0 (fdecode t b); (elem x, fl)
  | none =>
    let (v, fl) := storedValue (Vector.replicate 4 0) 0 f b
    (BitVec.ofInt 32 (intOf v), fl)

/-- Whether MLD and MLDB take a layout format (R304). -/
def loadable (f : Nat) : Bool := decide (f ≤ 0x0A) || f == 0x0F || f == 0x10

/-- Whether MST takes a layout format (R305). -/
def storable (f : Nat) : Bool := decide (f ≤ 0x09) || f == 0x0F || f == 0x10

/-- The stored bits of a tile element (R305): bits, flags, whether it saturated. -/
def storeConvert (f mode : Nat) (e : Elem) : Nat × BitVec 6 × Bool :=
  if f = 0 ∨ f = 0x10 then (e.toNat, 0, false)
  else
    match floatFmt f with
    | some t => convertF t mode (f32 e)
    | none =>
      let w := fmtWidth f
      let (v, fl, sat) := convertI w (f == 0x06 || f == 0x08) mode (ofInt (signed e.toNat 32))
      ((v % 2 ^ w).toNat, fl, sat)

/-- MCVT of one element (R308): element, flags, whether it saturated. -/
def mcvtElem (code mode : Nat) (e : Elem) : Elem × BitVec 6 × Bool :=
  let narrow (f : Fmt) : Elem × BitVec 6 × Bool :=
    let (b, fl, sat) := convertF f mode (f32 e)
    (elem (convertF fp32 0 (fdecode f b)).1, fl, sat)
  let toInt (w : Nat) (v : FVal) : Elem × BitVec 6 × Bool :=
    let (i, fl, sat) := convertI w false mode v
    (BitVec.ofInt 32 i, fl, sat)
  match code with
  | 0 => toInt 32 (f32 e)
  | 1 => let (b, fl, sat) := convertF fp32 mode (ofInt (signed e.toNat 32)); (elem b, fl, sat)
  | 2 => narrow bf16
  | 3 => narrow fp16
  | 4 => narrow e4m3
  | 5 => narrow e5m2
  | 6 => toInt 8 (ofInt (signed e.toNat 32))
  | _ => toInt 16 (ofInt (signed e.toNat 32))

end Sys2Proof.Machine
end

