-- ==== Sys2Proof/Machine/MatrixForms.lean ====
section
/-! DEFINITION. The matrix instructions (R294 to R318), MAJ 0x50 to 0x52. A form issues into its slot's matrix queue, where its checks of
issue time are made; the array performs it later, which the events of `MatrixEvents` do through the run functions here. -/

namespace Sys2Proof.Machine

/-! ### Gangs (R310, R311) -/

/-- Whether a slot is in gang mode. -/
def inGang (l : Slot) : Bool :=
  match l.gang with
  | .joined _ _ _ _ _ => true
  | .broken _ => true
  | _ => false

/-- The mask of a gang's cells, where the slot is in one. -/
def gangMask (l : Slot) : BitVec 8 :=
  match l.gang with
  | .joined _ mask _ _ _ => mask
  | _ => 0

/-- The ordinal of a slot in its gang. -/
def gangOrd (l : Slot) : Nat :=
  match l.gang with
  | .joined _ _ ord _ _ => ord
  | .broken ord => ord
  | _ => 0

/-- The number of cells in a mask. -/
def maskCount (m : BitVec 8) : Nat := ((List.range 8).filter (bit m)).length

/-- The slots of a rank in the gang of slot (c, k), in the order of their ordinals; the slot alone when it is in none. -/
def gangOf (s : State) (c k : Nat) : List (Nat × Nat) :=
  match (s.slot c k).gang with
  | .joined tag mask _ _ _ =>
    (List.range 32).filterMap fun i =>
      let c' := 8 * rankOfCell c + i / 4
      match (s.slot c' (i % 4)).gang with
      | .joined tag' mask' _ _ _ => if tag' = tag ∧ mask' = mask ∧ bit mask (i / 4) then some (c', i % 4) else none
      | _ => none
  | _ => [(c, k)]

/-- The number of tiles in a slab of the moving slot's matrices: the participants of its gang, or one (R313). -/
def slabSize (l : Slot) : Nat := if inGang l then max 1 (maskCount (gangMask l)) else 1

/-- Two slabs of `n` tiles lie within the eight tiles and are identical or disjoint. -/
def slabsLegal (n a b : Nat) : Bool := decide (a + n ≤ 8) && decide (b + n ≤ 8) && (a == b || decide (a + n ≤ b) || decide (b + n ≤ a))

/-! ### Issue (R294, R295) -/

/-- A layout that a matrix form uses is there: no LAYW of the slot to it is on its way (R73), and the descriptor of its BASE is cached (R16). -/
def layoutThere (s : State) (v : View) (l : BitVec 6) (e : Vec) : Except Halt Unit := do
  need (!layoutPosted s l.toNat) (.wait .counter)
  layoutReady s v e

/-- A matrix form as it was encoded: of a repetition instance the form in its buffer slot, with its own register numbers (R311). -/
def encodedForm (s : State) (i : Instr) : Instr :=
  match s.cur, s.me.rep with
  | .slot c _, some (b, _) => (((s.cell c).repBuf[b]?).getD RepSlot.nop).i
  | _, _ => i

/-- Issue a matrix instruction with the value of its scalar field: the layout entries it uses are read, its checks made, and it joins
the queue, which holds four (DEDUCED, log entry 42). -/
def matrixForm (s : State) (i : Instr) (x : Word) (lays : List (BitVec 6)) (chk : View → List Vec → Except Halt Unit) :
    Host.Outcome State Fault Refusal :=
  cellOnly s do
    let v := viewOf s s.cur
    let es := lays.map fun l => layoutEntry s v l.toNat
    chk v es
    need (decide (s.me.mq.length < 4)) (.wait .matrix)
    let l := s.me
    let m : MatOp := ⟨i, x, l.csr, es, l.x, l.taint, l.cap, l.pc, l.seq, l.rep, false, false, encodedForm s i⟩
    .ok (retire (onSlot s fun l => { l with mq := l.mq ++ [m] }) 4)

/-- The reserved-operand trap of a matrix form. -/
def illegal (c : Bool) : Except Halt Unit := need c (trapOf 2)

/-- The check of one operand of MMA (R297, R298): the field of a tile or identity code, or a usable layout whose FMT is the code's. -/
def operandLegal (s : State) (v : View) (code : Nat) (field : BitVec 6) (e : Vec) : Bool :=
  if code = 0x17 then field == 0
  else if 0x10 ≤ code then decide (field.toNat < 8)
  else layoutUsable s v e && (layFmt e == code || (isLut code && isLut (layFmt e)))

/-- The checks of MMA and MMAZ at issue (R301 step 2), once the layouts they use are there. -/
def mmaChecks (s : State) (la lb : BitVec 6) (v : View) (es : List Vec) : Except Halt Unit := do
  let r := s.me.csr
  if r.fmta.toNat < 0x10 then layoutThere s v la (es.getD 0 0)
  if r.fmtb.toNat < 0x10 then layoutThere s v lb (es.getD 1 0)
  illegal ((pathOf r.cbmode r.fmta.toNat r.fmtb.toNat).isSome && operandLegal s v r.fmta.toNat la (es.getD 0 0)
    && operandLegal s v r.fmtb.toNat lb (es.getD 1 0))

/-- MMA (R301). -/
def execMma (ad : BitVec 3) (la lb : BitVec 6) (rc : BitVec 5) (w : BitVec 2) (s : State) : Host.Outcome State Fault Refusal :=
  matrixForm s (.mma ad la lb rc w) (getX s rc) [la, lb] (mmaChecks s la lb)
/-- MMAZ (R301). -/
def execMmaz (ad : BitVec 3) (la lb : BitVec 6) (rc : BitVec 5) (w : BitVec 2) (s : State) : Host.Outcome State Fault Refusal :=
  matrixForm s (.mmaz ad la lb rc w) (getX s rc) [la, lb] (mmaChecks s la lb)

/-- MPOLY (R313). -/
def execMpoly (ad aa ab : BitVec 3) (ra : BitVec 5) (s : State) : Host.Outcome State Fault Refusal :=
  matrixForm s (.mpoly ad aa ab ra) (getX s ra) [] fun _ _ =>
    let n := slabSize s.me
    illegal (bits (getX s ra) 4 60 == 0
      && (if inGang s.me then ab == 0 && slabsLegal n ad.toNat aa.toNat else ad != aa && ad != ab && aa != ab))

/-- MITER (R314). -/
def execMiter (ad aa : BitVec 3) (md fb : BitVec 1) (ra rb : BitVec 5) (s : State) : Host.Outcome State Fault Refusal :=
  matrixForm s (.miter ad aa md fb ra rb) (getX s ra) [] fun _ _ =>
    let n := slabSize s.me
    let x := getX s ra
    illegal (bits x 32 32 == 0 && bits x 0 32 != 0 && decide (ad.toNat + n ≤ 8)
      && (md == 0 || (slabsLegal n ad.toNat aa.toNat && ad != aa)))

/-- MSCZ (R303). -/
def execMscz (ad : BitVec 3) (w : BitVec 2) (ra : BitVec 5) (s : State) : Host.Outcome State Fault Refusal :=
  matrixForm s (.mscz ad w ra) (getX s ra) [] fun _ _ =>
    let x := getX s ra
    let r := s.me.csr
    illegal (bits x 2 62 == 0 && bits r.sclp 0 2 == 0 && (bit x 1 || bits r.zpp 0 2 == 0))

/-- MCVT (R308). -/
def execMcvt (ad aa ab : BitVec 3) (s : State) : Host.Outcome State Fault Refusal := matrixForm s (.mcvt ad aa ab) 0 [] fun _ _ => .ok ()
/-- MTRN (R308). -/
def execMtrn (ad aa : BitVec 3) (s : State) : Host.Outcome State Fault Refusal := matrixForm s (.mtrn ad aa) 0 [] fun _ _ => .ok ()
/-- MZERO (R308). -/
def execMzero (ad : BitVec 3) (s : State) : Host.Outcome State Fault Refusal := matrixForm s (.mzero ad) 0 [] fun _ _ => .ok ()

/-- MGANG (R310). -/
def execMgang (ra rb : BitVec 5) (s : State) : Host.Outcome State Fault Refusal :=
  matrixForm s (.mgang ra rb) (getX s ra) [] fun v _ =>
    let x := getX s ra
    let g := s.me.csr.gmask
    illegal (x == 0 || (bits x 32 32 == 0 && bit g (indexInRank (v.cell.getD 0)) && decide (2 ≤ maskCount g)))

/-- MWAIT: completes when the slot's matrix queue is empty (R308). -/
def execMwait (s : State) : Host.Outcome State Fault Refusal :=
  cellOnly s (if s.me.mq.isEmpty then .ok (retire s 4) else .error (.wait .matrix))

/-- MRDR (R307). -/
def execMrdr (ad ab : BitVec 3) (ra rb : BitVec 5) (s : State) : Host.Outcome State Fault Refusal :=
  matrixForm s (.mrdr ad ab ra rb) (getX s ra) [] fun _ _ => .ok ()
/-- MWRR (R307). -/
def execMwrr (ad : BitVec 3) (ra rb : BitVec 5) (s : State) : Host.Outcome State Fault Refusal :=
  matrixForm s (.mwrr ad ra rb) (getX s ra) [] fun _ _ => .ok ()
/-- CBLD (R306). -/
def execCbld (n w : BitVec 2) (ra : BitVec 5) (s : State) : Host.Outcome State Fault Refusal :=
  matrixForm s (.cbld n w ra) (getX s ra) [] fun _ _ => .ok ()
/-- KLD (R306). -/
def execKld (w : BitVec 2) (ra : BitVec 5) (s : State) : Host.Outcome State Fault Refusal :=
  matrixForm s (.kld w ra) (getX s ra) [] fun _ _ => .ok ()

/-- MLD (R304). -/
def execMld (ad : BitVec 3) (la : BitVec 6) (w : BitVec 2) (sc : BitVec 3) (rc : BitVec 5) (s : State) :
    Host.Outcome State Fault Refusal :=
  matrixForm s (.mld ad la w sc rc) (getX s rc) [la] fun v es => do
    layoutThere s v la (es.headD 0)
    illegal (layoutUsable s v (es.headD 0) && loadable (layFmt (es.headD 0)))
/-- MLDB (R304). -/
def execMldb (ad : BitVec 3) (la : BitVec 6) (w : BitVec 2) (sc : BitVec 3) (rc : BitVec 5) (s : State) :
    Host.Outcome State Fault Refusal :=
  matrixForm s (.mldb ad la w sc rc) (getX s rc) [la] fun v es => do
    layoutThere s v la (es.headD 0)
    illegal (layoutUsable s v (es.headD 0) && loadable (layFmt (es.headD 0)))
/-- MST (R305). -/
def execMst (ad : BitVec 3) (la : BitVec 6) (w : BitVec 2) (sc : BitVec 3) (rc : BitVec 5) (s : State) :
    Host.Outcome State Fault Refusal :=
  matrixForm s (.mst ad la w sc rc) (getX s rc) [la] fun v es => do
    layoutThere s v la (es.headD 0)
    illegal (layoutUsable s v (es.headD 0) && storable (layFmt (es.headD 0)))

/-! ### Running on the array: rows of operands -/

/-- The W field of a matrix instruction. -/
def matrixWait : Instr → BitVec 2
  | .mma _ _ _ _ w => w
  | .mmaz _ _ _ _ w => w
  | .mscz _ w _ => w
  | .mld _ _ w _ _ => w
  | .mldb _ _ w _ _ => w
  | .mst _ _ w _ _ => w
  | .cbld _ w _ => w
  | .kld w _ => w
  | _ => 0

/-- The outcome of running a matrix instruction: a halt comes with the state that keeps the rows already there (R148). -/
abbrev Run := Except (State × Halt) State

/-- A step that keeps nothing when it halts. -/
def keeping {α : Type} (s : State) (r : Except Halt α) : Except (State × Halt) α := r.mapError fun h => (s, h)

/-- Element of a layout operand at exact coordinates (R297, R301 step 4): none where coordinate 0 or 1 is at or beyond its extent. `ix`
numbers the element among those of the instruction, for the bytes of a remote answer; `wf` is the wait that comes between the page and the read
(R49; that of MMA has been taken before, R301). -/
def loadElem (s : State) (v : View) (e : Vec) (c : List Int) (wf : BitVec 2) (ix : Nat) : Except Halt (Option Elem × State) := do
  if (List.range 2).any fun d => decide (Int.ofNat (layExt e d) ≤ c.getD d 0) then .ok (none, s)
  else
    let w := fmtWidth (layFmt e)
    let n := elemBytes w
    let x ← elemRef s v e c 1 3
    let s := useDesc s v x.t
    let s ← localGate s x.t n (isLocal v x.t) false x.o 3 x.c
    match locate s v x.t n false with
    | .error e => .error (noPageHalt v x.t x.o x.c 3 e)
    | .ok l =>
      waitField s wf
      need (!overlaps (outstanding s) s.cur x.t.desc x.t.slot x.t.off n && !mayOverlap s s.cur l.keys && !vaultBusy s s.cur x.t) (.wait .counter)
      let (b, s) ← readAt s v x.t x.o x.c n 3 (s.inp.bytes.drop (ix * n))
      .ok (some (elem (elemValue w x.lo b)), s)

/-- A halt of one of several reads keeps what the reads before it have left: the A bits of their pages and their records (R142, R158). -/
def afterReads (s : State) (h : Halt) : Halt :=
  match h with
  | .after t h => .after t h
  | h => if h.takes then .after s h else h

/-- The elements of one row, in order. -/
def loadRow (v : View) (e : Vec) (wf : BitVec 2) : Nat → List (List Int) → State → Except Halt (List (Option Elem) × State)
  | _, [], s => .ok ([], s)
  | ix, c :: r, s =>
    match loadElem s v e c wf ix with
    | .error h => .error (afterReads s h)
    | .ok (x, s) => (loadRow v e wf (ix + 1) r s).map fun p => (x :: p.1, p.2)

/-- Load the operand rows numbered in the list, each into the staging area (R302): `row r` is none for a row that is present at once, else
its layout and coordinates. -/
def loadRows (v : View) (row : Nat → Option (Vec × List (List Int))) : List Nat → State → Run
  | [], s => .ok s
  | r :: rs, s => do
    let (l, s) ← match row r with
      | none => Except.ok ([], s)
      | some (e, cs) => keeping s (loadRow v e 0 (32 * r) cs s)
    loadRows v row rs (onSlot s fun x => { x with staging := x.staging ++ [l], mrpRow := r + 1 })

/-- The rows that are still to load, of `n`. -/
def rowsLeft (s : State) (n : Nat) : List Nat := (List.range n).drop s.me.mrpRow

/-- Row `r` of the operands of MMA (R297, R302, R312): rows of A then columns of B; only ordinal 0 of a gang reads A. -/
def mmaRow (m : MatOp) (ord r : Nat) : Option (Vec × List (List Int)) :=
  let k0 := coordOf m.x 0
  let bt := Int.ofNat (coordOf m.x 3)
  if r < 32 then
    if m.csr.fmta.toNat ≥ 0x10 ∨ ord ≠ 0 then none
    else some (m.lays.getD 0 0, (List.range 32).map fun k => [Int.ofNat (k0 + k), Int.ofNat (coordOf m.x 1 + r), bt, 0])
  else if m.csr.fmtb.toNat ≥ 0x10 then none
  else some (m.lays.getD 1 0, (List.range 32).map fun k =>
    [Int.ofNat (k0 + k), Int.ofNat (coordOf m.x 2 + 32 * ord + (r - 32)), bt, 0])

/-- The oref of row `i` of tile `t`: object slot 16. -/
def tileRef (t i : Nat) : Word := word (16 * 2 ^ 52 + tileRow t i)

/-- The tile comparator before an instruction performs: the rows it reads, through a tile code or as MST and MRDR do, and those it writes (R160). The first
row of a match is the faulting place (R144). -/
def tileComparators (s : State) (c : Nat) (rd wr : List (Nat × Nat × Nat)) : Except Halt State :=
  let hit := (rd.find? fun t => tileMatch s c t.1 t.2.1 t.2.2 true false).or (wr.find? fun t => tileMatch s c t.1 t.2.1 t.2.2 false true)
  let first := bits ((s.cell c).wcmp[1]?.getD 0) 5 5
  comparator s hit.isSome 1 ((hit.map fun t => tileRef t.1 (max first t.2.1)).getD 0) 3

/-- A poisoned operand tile traps when it is consumed (R301 step 4), at its first poisoned byte (R144). -/
def tileClean (s : State) (c t : Nat) : Except Halt Unit :=
  need (!tilePoisoned s c t) (.trap 7 (tileRef t 0 + s.poisonAt (span (accKey c (tileRow t 0)) 4096)) 0 3 false)

/-- All rows of a tile. -/
def allRows (t : Nat) : Nat × Nat × Nat := (t, 0, 31)

/-- The tile that an operand of MMA names under its sampled code, if any. -/
def operandTile (code : Nat) (f : BitVec 6) : List Nat := if 0x10 ≤ code ∧ code < 0x17 then [f.toNat] else []

/-- The tiles of a slab of `n`. -/
def slabTiles (n first : Nat) : List Nat := (List.range n).map (first + ·)

/-- The operands of MMA and MMAZ, checked in the order of MRP: those of A, which only ordinal 0 of a gang reads, then those of B, then the
accumulator `acc` that MMA reads (R301 step 4, R312). -/
def mmaPrepare (m : MatOp) (la lb : BitVec 6) (acc : List Nat) (ad : Nat) (s : State) (c : Nat) : Run := do
  let ord := gangOrd s.me
  let ta := if ord = 0 then operandTile m.csr.fmta.toNat la else []
  let tb := operandTile m.csr.fmtb.toNat lb
  keeping s (ta.forM (tileClean s c))
  let s ← loadRows (viewOf s s.cur) (mmaRow m ord) (rowsLeft s 64) s
  keeping s ((tb ++ acc).forM (tileClean s c))
  keeping s (tileComparators s c ((ta ++ tb).map allRows) [allRows ad])

/-- What the moving slot must have before an instruction at the head of its queue can take effect: every operand row, no poison in a tile it
reads, no comparator that stops it (R301 step 4, R160). -/
def prepare (m : MatOp) (s : State) (c : Nat) : Run :=
  match m.i with
  | .mma ad la lb _ _ => mmaPrepare m la lb [ad.toNat] ad.toNat s c
  | .mmaz ad la lb _ _ => mmaPrepare m la lb [] ad.toNat s c
  | .mpoly ad aa ab _ => do
    let n := slabSize s.me
    keeping s ((slabTiles n aa.toNat).forM (tileClean s c))
    keeping s (tileComparators s c ((slabTiles n aa.toNat).map allRows)
      ((slabTiles n ad.toNat ++ if inGang s.me || bits m.x 0 3 == 0 then [] else [ab.toNat]).map allRows))
  | _ => .ok s

/-! ### MMA -/

/-- The value of a staged element: zero beyond an extent. -/
def stagedValue (s : State) (m : MatOp) (code : Nat) : Option Elem → FVal × BitVec 6
  | none => (fzero, 0)
  | some b => storedValue s.me.cb m.csr.cbmode code b.toNat

/-- Staged rows as operand values. -/
def stagedRead (s : State) (m : MatOp) (code from' : Nat) : Read :=
  let l := ((s.me.staging.drop from').take 32).map fun r => r.map (stagedValue s m code)
  ⟨l.map fun r => r.map (·.1), l.flatten.foldl (fun a e => a ||| e.2) 0, 0⟩

/-- Operand A of the moving slot, by rows. -/
def operandA (s : State) (c : Nat) (m : MatOp) (la : BitVec 6) : Read :=
  let code := m.csr.fmta.toNat
  if code = 0x17 then ⟨identity 32, 0, 0⟩
  else if 0x10 ≤ code then tileOperand code (readTile s c la.toNat)
  else stagedRead s m code 0

/-- Operand B of the moving slot, by columns. -/
def operandB (s : State) (c : Nat) (m : MatOp) (lb : BitVec 6) : Read :=
  let code := m.csr.fmtb.toNat
  if code = 0x17 then ⟨identity 32, 0, 0⟩
  else if 0x10 ≤ code then
    let r := tileOperand code (readTile s c lb.toNat)
    { r with m := transposed fzero 32 r.m }
  else stagedRead s m code 32

/-- The effect of MMA or MMAZ for the moving slot, with operand A as read (Formula (13.4)). -/
def mmaEffect (s : State) (c : Nat) (m : MatOp) (zero : Bool) (ad lb : Nat) (a : Read) (b : Read) : State :=
  match pathOf m.csr.cbmode m.csr.fmta.toNat m.csr.fmtb.toNat with
  | none => s
  | some p =>
    let t := if zero then zeroTile else transposed 0 32 (readTile s c ad)
    let (cols, fl, n) := multiply p t a.m b.m
    let rs := if zero then List.replicate 32 0 else rowSums s c ad
    let sums := List.zipWith (accumulateRow p) rs a.m
    let zp := zeroPoint m.csr.cbmode m.csr.fmtb.toNat
    let s := writeTile s c ad (transposed 0 32 cols)
    let s := if zp then writeRowSums s c ad (sums.map (·.1)) else if zero then writeRowSums s c ad rs else s
    let s := raiseFlags s (fl ||| b.fl ||| (if zp then sums.foldl (fun x e => x ||| e.2) 0 else 0))
    countOvf (if b.n = 0 then s else countOvf s lb b.n) ad n

/-- The effect of an MMA of all participants: operand A comes from ordinal 0 (R312). -/
def mmaAll (s : State) (ps : List (Nat × Nat)) (zero : Bool) (ad : BitVec 3) (la lb : BitVec 6) : State :=
  match ps with
  | [] => s
  | (c0, k0) :: _ =>
    let at' (s : State) (c k : Nat) : State := { s with cur := .slot c k }
    let m0 := (s.slot c0 k0).mq.head?
    match m0 with
    | none => s
    | some m0 =>
      let a := operandA (at' s c0 k0) c0 m0 la
      let bs := ps.map fun p => operandB (at' s p.1 p.2) p.1 (((s.slot p.1 p.2).mq.head?).getD m0) lb
      let s := (List.zip ps bs).foldl (fun s p =>
        mmaEffect (at' s p.1.1 p.1.2) p.1.1 (((s.slot p.1.1 p.1.2).mq.head?).getD m0) zero ad.toNat lb.toNat a p.2) s
      let s := raiseFlags (at' s c0 k0) a.fl
      if a.n = 0 then s else countOvf s la.toNat a.n

/-! ### MPOLY and MITER over slabs -/

/-- A slab of tiles of the participants, by columns of the whole matrix (R313). -/
def readSlab (s : State) (ps : List (Nat × Nat)) (first : Nat) : List (List Elem) :=
  ps.flatMap fun p =>
    transposed 0 32 ((List.range ps.length).flatMap fun t => readTile s p.1 (first + t))

/-- Write a slab given by columns. -/
def writeSlab (s : State) (ps : List (Nat × Nat)) (first : Nat) (cols : List (List Elem)) : State :=
  (ps.zipIdx).foldl (fun s p =>
    let own := (cols.drop (32 * p.2)).take 32
    (List.range ps.length).foldl (fun s t =>
      writeTile s p.1.1 (first + t) (transposed 0 32 (own.map fun c => (c.drop (32 * t)).take 32))) s) s

/-- Raise the flags of computed columns, each at the participant that holds the column, and flags common to all (R319). -/
def raiseCols (s : State) (ps : List (Nat × Nat)) (fl : List (BitVec 6)) (common : BitVec 6) : State :=
  (ps.zipIdx).foldl (fun s p =>
    raiseFlags { s with cur := .slot p.1.1 p.1.2 } (((fl.drop (32 * p.2)).take 32).foldl (· ||| ·) common)) s

/-- The coefficients of a slot as sampled. -/
def coeffs (l : Slot) (i : Nat) : Elem := l.k[i]?.getD 0

/-- A feedback read of a slab of tiles through code 0x12 counts the elements that saturate, each in the OVFC of its tile at its participant (R264, R268;
a slab that an instruction or an iteration reads several times counts once: DESIGN CHOICE, log entry 68). -/
def countFeedback (s : State) (ps : List (Nat × Nat)) (fb : Bool) (first : Nat) : State :=
  if !fb then s
  else ps.foldl (fun s p => (slabTiles ps.length first).foldl (fun s t =>
    let n := bf16Saturated (readTile s p.1 t)
    if n = 0 then s else countOvf { s with cur := .slot p.1 p.2 } t n) s) s

/-- The effect of MPOLY for all participants (R313). On one cell H lives in tile ad, so that its reads through code 0x12 count there (R264, R268). -/
def mpolyAll (s : State) (ps : List (Nat × Nat)) (m : MatOp) (ad aa ab : BitVec 3) : State :=
  match ps with
  | [] => s
  | (c0, k0) :: _ =>
    let n := bits m.x 0 3
    let (h, q, fl, sat) := polyEval (bit m.x 3) ps.length n (coeffs (s.slot c0 k0)) (readSlab s ps aa.toNat)
    let s := if n = 0 then s else countFeedback s ps (bit m.x 3) aa.toNat
    let s := writeSlab s ps ad.toNat h
    let s := if inGang (s.slot c0 k0) ∨ n = 0 then s
      else countOvf { writeSlab s ps ab.toNat q with cur := .slot c0 k0 } ad.toNat sat
    raiseCols s ps fl 0

/-- The result word of MITER (Table 13.5). -/
def iterResult (ec why count : Nat) : Word := word (fields [(32, count), (2, why), (28, 0), (2, ec)])

/-- MIS of an iteration (Table 9.13). -/
def misWord (ad aa : Nat) (gang : Bool) (md count : Nat) : Word :=
  word (fields [(32, count), (8, 0), (1, md), (1, b2n gang), (3, aa), (3, ad), (15, 0), (1, 1)])

/-- Whether a saved iteration is the one a MITER continues (Formula (13.7)). -/
def misMatches (mis : Word) (ad aa : Nat) (gang : Bool) (md : Nat) : Bool :=
  bit mis 63 && bits mis 45 3 == ad && bits mis 40 1 == md && bit mis 41 == gang && (md == 0 || bits mis 42 3 == aa)

/-- MISV of an iteration (Table 9.13). -/
def misvWord (grow : Bool) (rho : Elem) : Word := word (fields [(32, rho.toNat), (1, b2n grow)])

/-- Where a MITER stands after one step of Formula (13.7). -/
inductive IterAt where
  /-- The loop goes on. -/
  | more
  /-- An ending: END and WHY of Table 13.5. -/
  | done (ec why : Nat)
  deriving DecidableEq, Repr

/-- Write MIS and MISV at every participant. -/
def setMisAll (s : State) (ps : List (Nat × Nat)) (mis misv : Word) : State :=
  ps.foldl (fun s p => setMis { s with cur := .slot p.1 p.2 } mis misv) s

/-- MIS and MISV of a participant. -/
def misOf (s : State) (p : Nat × Nat) : Word × Word := State.mis { s with cur := .slot p.1 p.2 }

/-- One turn of the loop of Formula (13.7) for all participants; the first turn of an instruction makes the fresh start if there is no
iteration to continue. Where participants' saved iterations differ, ordinal 0's decides (DEDUCED, log entry 13). -/
def miterTurn (s : State) (ps : List (Nat × Nat)) (m : MatOp) (ad aa : BitVec 3) (md fb : BitVec 1) : State × Nat × IterAt :=
  match ps with
  | [] => (s, 0, .more)
  | p0 :: _ =>
    let l := s.slot p0.1 p0.2
    let gang := inGang l
    let k := coeffs l
    let cap := bits m.x 0 32
    let fresh := !m.begun && !(ps.all fun p => misMatches (misOf s p).1 ad.toNat aa.toNat gang md.toNat)
    let mis0 := if fresh then misWord ad.toNat (if md = 1 then aa.toNat else 0) gang md.toNat 0 else (misOf s p0).1
    let misv0 := if fresh then 0 else (misOf s p0).2
    let s := setMisAll s ps mis0 misv0
    let count := bits mis0 0 32
    if cap ≤ count then (s, count, .done 1 0)
    else
      let x := readSlab s ps ad.toNat
      let a := if md = 1 then some (readSlab s ps aa.toNat) else none
      let r := iterate (fb == 1) ps.length k a x
      let old := elem (bits misv0 0 32)
      let grow := bit misv0 32
      let s := raiseCols s ps r.fl (r.rfl ||| testFlags k count grow old r)
      let s := countFeedback s ps (fb == 1) ad.toNat
      let s := if md = 1 then countFeedback s ps (fb == 1) aa.toNat else s
      let at' (n : Nat) : Word := misWord ad.toNat (if md = 1 then aa.toNat else 0) gang md.toNat n
      let g := growth k count r.rho old
      match iterTests k count grow old r with
      | .diverged why => (setMisAll s ps mis0 (misvWord (why == 2 && g) r.rho), count, .done 2 why)
      | t =>
        let s := setMisAll (writeSlab s ps ad.toNat r.x) ps (at' (count + 1)) (misvWord g r.rho)
        if t = .converged then (s, count + 1, .done 0 0)
        else if count + 1 = cap then (s, count + 1, .done 1 0)
        else if ps.any fun p => requestPending s p.1 then (s, count + 1, .done 3 0)
        else (s, count + 1, .more)

/-! ### The other instructions on the array -/

/-- Read `n` bytes for the array at a reference: CheckRef, page, the wait of the instruction, poison (R49, R303, R306). -/
def arrayRead (s : State) (v : View) (o : Word) (n : Nat) (ok : Bool) (wf : BitVec 2) : Except Halt (List Byte × State) := do
  let t ← checkRef s v o n 1 3
  need (ok && windowRule t n false) (.trap 2 o 0 3 false)
  let s := useDesc s v t
  let s ← localGate s t n (isLocal v t) false o 3
  match locate s v t n false with
  | .error e => .error (noPageHalt v t o 0 3 e)
  | .ok l =>
    waitField s wf
    need (!overlaps (outstanding s) s.cur t.desc t.slot t.off n && !mayOverlap s s.cur l.keys && !vaultBusy s s.cur t) (.wait .counter)
    readAt s v t o 0 n 3 s.inp.bytes

/-- FP32 lane `j` of bytes. -/
def laneOf (b : List Byte) (j : Nat) : Elem := elem (numOfBytes ((b.drop (4 * j)).take 4))

/-- MSCZ on the array (Formula (13.5)). Its two vectors are no rows of MRP: parked on either, it keeps ROW 0 and reads both again (DESIGN CHOICE, log
entry 99). -/
def msczRun (s : State) (c : Nat) (m : MatOp) (ad : Nat) : Except Halt State := do
  let v := viewOf s s.cur
  let (sb, s) ← arrayRead s v m.csr.sclp 128 true (matrixWait m.i)
  let s0 := { s with inp := { s.inp with bytes := s.inp.bytes.drop 128 } }
  let (zb, s') ← if bit m.x 1 then .ok (List.replicate 128 0, s0) else (arrayRead s0 v m.csr.zpp 128 true (matrixWait m.i)).mapError (afterReads s)
  let s := { s' with inp := s.inp }
  tileClean s c ad
  let s ← tileComparators s c [] [allRows ad]
  let rs := rowSums s c ad
  let l := List.zipWith (fun r z => (r.zipIdx).map fun e => scaleElem (bit m.x 0) (laneOf sb e.2) (laneOf zb e.2) e.1 z) (readTile s c ad) rs
  .ok (raiseFlags (writeTile s c ad (l.map fun r => r.map (·.1))) (l.flatten.foldl (fun a e => a ||| e.2) 0))

/-- MCVT on the array: a saturated element counts for the tile it goes into and for the one it comes from (R268, R308; DEDUCED, log entry 36). -/
def mcvtRun (s : State) (c : Nat) (m : MatOp) (ad aa code : Nat) : Except Halt State := do
  illegal (decide (code < 8))
  tileClean s c aa
  let s ← tileComparators s c [] [allRows ad]
  let l := (readTile s c aa).map fun r => r.map (mcvtElem code m.csr.rm.toNat)
  let s := writeTile s c ad (l.map fun r => r.map (·.1))
  let s := raiseFlags s (l.flatten.foldl (fun a e => a ||| e.2.1) 0)
  let n := (l.flatten.filter fun e => e.2.2).length
  .ok (if ad = aa then countOvf s ad n else countOvf (countOvf s ad n) aa n)

/-- Row `i` of a load: coordinates c + (j, i, 0, 0) (R304). -/
def loadCoords (x : Word) (i : Nat) : List (List Int) :=
  (List.range 32).map fun j => [Int.ofNat (coordOf x 0 + j), Int.ofNat (coordOf x 1 + i), coordOf x 2, coordOf x 3]

/-- The tile row of a loaded row. -/
def convertRow (f : Nat) (l : List (Option Elem)) : List Elem × BitVec 6 :=
  let r := l.map fun o => match o with
    | none => (0, 0)
    | some b => loadConvert f b.toNat
  (r.map (·.1), r.foldl (fun a e => a ||| e.2) 0)

/-- MLD: each row goes into the tile as it arrives (R148, R304), once no row that is still to be written stops at a comparator (R160). -/
def mldRows (v : View) (c : Nat) (m : MatOp) (ad : Nat) : List Nat → State → Run
  | [], s => .ok s
  | r :: rs, s => do
    let e := m.lays.headD 0
    let (l, s) ← keeping s (loadRow v e (matrixWait m.i) (32 * r) (loadCoords m.x r) s)
    let (row, fl) := convertRow (layFmt e) l
    mldRows v c m ad rs (onSlot (raiseFlags (writeTileRow s c ad r row) fl) fun x => { x with mrpRow := r + 1 })

/-- MLDB on the array. -/
def mldbRun (s : State) (c : Nat) (m : MatOp) (ad : Nat) : Except Halt State := do
  let e := m.lays.headD 0
  let s ← tileComparators s c [] [allRows ad]
  let (l, s) ← loadRow (viewOf s s.cur) e (matrixWait m.i) 0 (loadCoords m.x 0) s
  let (row, fl) := convertRow (layFmt e) l
  .ok (raiseFlags (writeTile s c ad (List.replicate 32 row)) fl)

/-- The elements that MST stores, with their tile elements (R305). -/
def mstElems (s : State) (v : View) (e : Vec) (x : Word) (t : List (List Elem)) : Except Halt (List (ElemRef × Elem)) := do
  let l := (t.zipIdx).flatMap fun r => (r.1.zipIdx).filterMap fun p =>
    let c0 := coordOf x 0 + p.2
    let c1 := coordOf x 1 + r.2
    if c0 < layExt e 0 ∧ c1 < layExt e 1 then
      some ((p.1, [Int.ofNat c0, Int.ofNat c1, Int.ofNat (coordOf x 2), Int.ofNat (coordOf x 3)]) : Elem × List Int)
    else none
  l.mapM fun p => do
    let r ← elemRef s v e p.2 2 4
    .ok (r, p.1)

/-- Store elements one after the other, each a store of its own (R305). -/
def mstStores (v : View) (w : Nat) : List (ElemRef × Nat) → State → Except Halt State
  | [], s => .ok s
  | x :: r, s => do
    let s ← storeElems s v w 4 0 false false [x]
    mstStores v w r s

/-- MST on the array (R305), once each counter has room for its stores of that class (R46). -/
def mstRun (s : State) (c : Nat) (m : MatOp) (ad : Nat) : Except Halt State := do
  let v := viewOf s s.cur
  let e := m.lays.headD 0
  let f := layFmt e
  tileClean s c ad
  let s ← tileComparators s c [allRows ad] []
  let xs ← mstElems s v e m.x (readTile s c ad)
  let c1 := coordOf m.x 1 + 32
  let trailer ← if c1 < layExt e 1 then
      match layoutElem e [Int.ofNat (coordOf m.x 0), Int.ofNat c1, coordOf m.x 2, coordOf m.x 3] with
      | none => Except.error (Halt.trap 3 0 (packCoords [coordOf m.x 0, Int.ofNat c1, coordOf m.x 2, coordOf m.x 3]) 4 false)
      | some (o, _) => (checkRef s v o 8 2 4).map fun t => some (t, o)
    else .ok none
  let l := xs.map fun x => (x.1, storeConvert f m.csr.rm.toNat x.2)
  waitField s (matrixWait m.i)
  let remote := ((l.map fun x => x.1.t) ++ (trailer.map (·.1)).toList).filter fun t => !isLocal v t
  need ((List.range 3).all fun cls => decide (counter s cls + (remote.filter fun t => postClass t == cls).length ≤ 4095)) (.wait .counter)
  let s ← mstStores v (fmtWidth f) (l.map fun x => (x.1, x.2.1)) s
  let n := (l.filter fun x => x.2.2.2).length
  let s := countOvf (raiseFlags s (l.foldl (fun a x => a ||| x.2.2.1) 0)) ad n
  match trailer with
  | none => .ok s
  | some (t, o) =>
    storeAt s v t o (bytesOf 4 (min n 0xFFFFFFFF) ++ bytesOf 4 (viewOvfc s ad).toNat) 0 false false true 4

/-- The elements of a half-row (R307). -/
def readHalf (s : State) (c ad h : Nat) : List Elem :=
  if h < 64 then ((readTileRow s c ad (h / 2)).drop (16 * (h % 2))).take 16 else ((rowSums s c ad).drop (16 * (h - 64))).take 16

/-- The state with a half-row written (R307). -/
def writeHalf (s : State) (c ad h : Nat) (l : List Elem) : State :=
  if h < 64 then
    s.store (span (accKey c (tileRow ad (h / 2) + 64 * (h % 2))) 64) (l.flatMap fun e => bytesOf 4 e.toNat) false false
  else
    let r := rowSums s c ad
    writeRowSums s c ad (if h = 64 then l ++ r.drop 16 else r.take 16 ++ l)

/-- The row range a half-row touches, for WCMP1. -/
def halfRow (ad h : Nat) : List (Nat × Nat × Nat) := if h < 64 then [(ad, h / 2, h / 2)] else []

/-- MRDR on the array (R307). -/
def mrdrRun (s : State) (c : Nat) (m : MatOp) (ad ab : Nat) (vd : BitVec 5) : Except Halt State := do
  let h := m.x.toNat
  need (decide (h < 66)) (trapOf 3)
  let ks := span (accKey c (tileRow ad (h / 2) + 64 * (h % 2))) 64
  need (!(decide (h < 64) && s.poisoned ks)) (.trap 7 (tileRef ad (h / 2) + word (64 * (h % 2)) + s.poisonAt ks) 0 3 false)
  let s ← tileComparators s c (halfRow ad h) []
  let (_, s) ← vread s (some vd) []
  let l := (readHalf s c ad h).map fun e =>
    if ab = 1 then mcvtElem 1 m.csr.rm.toNat e else if ab = 2 then mcvtElem 0 m.csr.rm.toNat e else (e, 0, false)
  let s := vwrite s vd (vmake 32 (l.map fun e => e.1.toNat))
  .ok (countOvf (raiseFlags s (l.foldl (fun a e => a ||| e.2.1) 0)) ad (if ab = 2 then (l.filter fun e => e.2.2).length else 0))

/-- MWRR on the array (R307). -/
def mwrrRun (s : State) (c : Nat) (m : MatOp) (ad : Nat) (vb : BitVec 5) : Except Halt State := do
  let h := m.x.toNat
  need (decide (h < 66)) (trapOf 3)
  let s ← tileComparators s c [] (halfRow ad h)
  let (vs, s) ← vread s none [vb]
  .ok (writeHalf s c ad h ((List.range 16).map fun j => elem (vget (vs.headD 0) 32 j)))

/-- CBLD on the array: entry e from bytes 2e and 2e + 1 (R306). -/
def cbldRun (s : State) (m : MatOp) (n : Nat) : Except Halt State := do
  let (b, s) ← arrayRead s (viewOf s s.cur) m.x 32 (bits m.x 0 5 == 0) (matrixWait m.i)
  .ok (onSlot s fun l => { l with cb := l.cb.setIfInBounds n (BitVec.ofNat 256 (numOfBytes b)) })

/-- KLD on the array: ki from bytes 4i to 4i + 3 (R306). -/
def kldRun (s : State) (m : MatOp) : Except Halt State := do
  let (b, s) ← arrayRead s (viewOf s s.cur) m.x 32 (bits m.x 0 5 == 0) (matrixWait m.i)
  .ok (onSlot s fun l => { l with k := l.k.mapIdx fun i _ => laneOf b i })

/-- Perform an instruction that is local to its cell: all but ganged MMA, MMAZ, MPOLY, and MITER and MGANG (R311). -/
def runLocal (s : State) (c : Nat) (m : MatOp) : Run :=
  match m.i with
  | .mscz ad _ _ => keeping s (msczRun s c m ad.toNat)
  | .mcvt ad aa ab => keeping s (mcvtRun s c m ad.toNat aa.toNat ab.toNat)
  | .mtrn ad aa => keeping s (do
      tileClean s c aa.toNat
      let s ← tileComparators s c [] [allRows ad.toNat]
      .ok (writeTile s c ad.toNat (transposed 0 32 (readTile s c aa.toNat))))
  | .mzero ad => keeping s (do
      let s ← tileComparators s c [] [allRows ad.toNat]
      .ok (writeRowSums (writeTile s c ad.toNat zeroTile) c ad.toNat (List.replicate 32 0)))
  | .mrdr ad ab _ rb => keeping s (mrdrRun s c m ad.toNat ab.toNat rb)
  | .mwrr ad _ rb => keeping s (mwrrRun s c m ad.toNat rb)
  | .cbld n _ _ => keeping s (cbldRun s m n.toNat)
  | .kld _ _ => keeping s (kldRun s m)
  | .mld ad _ _ _ _ => do
    let s ← keeping s (tileComparators s c [] [(ad.toNat, s.me.mrpRow, 31)])
    mldRows (viewOf s s.cur) c m ad.toNat (rowsLeft s 32) s
  | .mldb ad _ _ _ _ => keeping s (mldbRun s c m ad.toNat)
  | .mst ad _ _ _ _ => keeping s (mstRun s c m ad.toNat)
  | _ => .ok s

end Sys2Proof.Machine
end

