-- ==== Sys2Proof/Machine/Repetition.lean ====
section
/-! DEFINITION. The repetition buffer (R286 to R292): RPT and its capture, RPTW, and the instances a sequencer issues. -/

namespace Sys2Proof.Machine

/-- How a captured scalar value steps from repetition to repetition (Formula (12.3)). -/
inductive StepKind where
  | oref | coord | plain
  deriving DecidableEq, Repr

/-- The scalar fields of an instruction that RPT can capture, with how their values step; none for one that it cannot (R288, R289). -/
def scalarFields : Instr → Option (List (BitVec 5 × StepKind))
  | .vld _ ra _ _ _ _ => some [(ra, .oref)]
  | .vst _ ra _ _ _ _ => some [(ra, .oref)]
  | .vldf _ ra _ _ _ => some [(ra, .oref)]
  | .vldfC _ ra _ _ _ => some [(ra, .oref)]
  | .vstf _ ra _ _ _ => some [(ra, .oref)]
  | .vldL _ _ rc _ _ => some [(rc, .coord)]
  | .vstL _ _ rc _ _ => some [(rc, .coord)]
  | .vldfL _ _ rc _ _ => some [(rc, .coord)]
  | .vldfCL _ _ rc _ _ => some [(rc, .coord)]
  | .vstfL _ _ rc _ _ => some [(rc, .coord)]
  | .vadd _ _ _ _ => some []
  | .vsub _ _ _ _ => some []
  | .vmul _ _ _ _ => some []
  | .vfma _ _ _ _ => some []
  | .vfms _ _ _ _ => some []
  | .vmax _ _ _ _ => some []
  | .vmin _ _ _ _ => some []
  | .vabs _ _ _ => some []
  | .vneg _ _ _ => some []
  | .vrcp _ _ _ => some []
  | .vrsq _ _ _ => some []
  | .vexp _ _ _ => some []
  | .vlog _ _ _ => some []
  | .vsigm _ _ _ => some []
  | .vtanh _ _ _ => some []
  | .vcvt _ _ _ _ => some []
  | .vreda _ _ _ => some []
  | .vredx _ _ _ => some []
  | .vcmpEq _ _ _ _ => some []
  | .vcmpNe _ _ _ _ => some []
  | .vcmpLt _ _ _ _ => some []
  | .vcmpLe _ _ _ _ => some []
  | .vcmpGt _ _ _ _ => some []
  | .vcmpGe _ _ _ _ => some []
  | .vsel _ _ _ _ => some []
  | .vperm _ _ _ _ => some []
  | .vbcst _ ra _ => some [(ra, .plain)]
  | .vmvs _ ra rb => some [(ra, .plain), (rb, .plain)]
  | .viadd _ _ _ _ _ => some []
  | .visub _ _ _ _ _ => some []
  | .vimul _ _ _ _ _ => some []
  | .viand _ _ _ _ _ => some []
  | .vior _ _ _ _ _ => some []
  | .vixor _ _ _ _ _ => some []
  | .visll _ _ _ _ _ => some []
  | .visrl _ _ _ _ _ => some []
  | .visra _ _ _ _ _ => some []
  | .mma _ _ _ rc _ => some [(rc, .coord)]
  | .mmaz _ _ _ rc _ => some [(rc, .coord)]
  | .mpoly _ _ _ ra => some [(ra, .plain)]
  | .mscz _ _ ra => some [(ra, .plain)]
  | .mcvt _ _ _ => some []
  | .mtrn _ _ => some []
  | .mzero _ => some []
  | .mwait => some []
  | .mrdr _ _ ra _ => some [(ra, .plain)]
  | .mwrr _ ra _ => some [(ra, .plain)]
  | .cbld _ _ ra => some [(ra, .oref)]
  | .kld _ ra => some [(ra, .oref)]
  | .mld _ _ _ _ rc => some [(rc, .coord)]
  | .mst _ _ _ _ rc => some [(rc, .coord)]
  | .mldb _ _ _ _ rc => some [(rc, .coord)]
  | _ => none

/-- The instance of a captured instruction at repetition `j` (R289): its vector and tile fields staggered, its scalar fields naming x1 and x2,
which hold the captured values while it runs. -/
def instanceOf (i : Instr) (w : Word) (j : Nat) : Instr :=
  let v (s : Nat) (r : BitVec 5) : BitVec 5 := if r.toNat < 16 then BitVec.ofNat 5 ((r.toNat + j * s) % 16) else r
  let t (s : Nat) (r : BitVec 3) : BitVec 3 := BitVec.ofNat 3 ((r.toNat + j * s) % 8)
  let dv := bits w 9 3
  let av := bits w 12 3
  let bv := bits w 15 3
  let ad := bits w 18 3
  match i with
  | .vld rt _ w sc ord imm => .vld (v dv rt) 1 w sc ord imm
  | .vst rt _ w sc ord imm => .vst (v dv rt) 1 w sc ord imm
  | .vldf rt _ w sc imm => .vldf (v dv rt) 1 w sc imm
  | .vldfC rt _ w sc imm => .vldfC (v dv rt) 1 w sc imm
  | .vstf rt _ w sc imm => .vstf (v dv rt) 1 w sc imm
  | .vldL vd lay _ w sc => .vldL (v dv vd) lay 1 w sc
  | .vstL vd lay _ w sc => .vstL (v dv vd) lay 1 w sc
  | .vldfL vd lay _ w sc => .vldfL (v dv vd) lay 1 w sc
  | .vldfCL vd lay _ w sc => .vldfCL (v dv vd) lay 1 w sc
  | .vstfL vd lay _ w sc => .vstfL (v dv vd) lay 1 w sc
  | .vadd vd va vb m => .vadd (v dv vd) (v av va) (v bv vb) m
  | .vsub vd va vb m => .vsub (v dv vd) (v av va) (v bv vb) m
  | .vmul vd va vb m => .vmul (v dv vd) (v av va) (v bv vb) m
  | .vfma vd va vb m => .vfma (v dv vd) (v av va) (v bv vb) m
  | .vfms vd va vb m => .vfms (v dv vd) (v av va) (v bv vb) m
  | .vmax vd va vb m => .vmax (v dv vd) (v av va) (v bv vb) m
  | .vmin vd va vb m => .vmin (v dv vd) (v av va) (v bv vb) m
  | .vabs vd va m => .vabs (v dv vd) (v av va) m
  | .vneg vd va m => .vneg (v dv vd) (v av va) m
  | .vrcp vd va m => .vrcp (v dv vd) (v av va) m
  | .vrsq vd va m => .vrsq (v dv vd) (v av va) m
  | .vexp vd va m => .vexp (v dv vd) (v av va) m
  | .vlog vd va m => .vlog (v dv vd) (v av va) m
  | .vsigm vd va m => .vsigm (v dv vd) (v av va) m
  | .vtanh vd va m => .vtanh (v dv vd) (v av va) m
  | .vcvt vd va p f => .vcvt (v dv vd) (v av va) p f
  | .vreda vd va m => .vreda (v dv vd) (v av va) m
  | .vredx vd va m => .vredx (v dv vd) (v av va) m
  | .vcmpEq vd va vb m => .vcmpEq (v dv vd) (v av va) (v bv vb) m
  | .vcmpNe vd va vb m => .vcmpNe (v dv vd) (v av va) (v bv vb) m
  | .vcmpLt vd va vb m => .vcmpLt (v dv vd) (v av va) (v bv vb) m
  | .vcmpLe vd va vb m => .vcmpLe (v dv vd) (v av va) (v bv vb) m
  | .vcmpGt vd va vb m => .vcmpGt (v dv vd) (v av va) (v bv vb) m
  | .vcmpGe vd va vb m => .vcmpGe (v dv vd) (v av va) (v bv vb) m
  | .vsel vd va vb k => .vsel (v dv vd) (v av va) (v bv vb) k
  | .vperm vd va vb m => .vperm (v dv vd) (v av va) (v bv vb) m
  | .vbcst vd _ m => .vbcst (v dv vd) 1 m
  | .vmvs vd _ _ => .vmvs (v dv vd) 1 2
  | .viadd vd va vb m e => .viadd (v dv vd) (v av va) (v bv vb) m e
  | .visub vd va vb m e => .visub (v dv vd) (v av va) (v bv vb) m e
  | .vimul vd va vb m e => .vimul (v dv vd) (v av va) (v bv vb) m e
  | .viand vd va vb m e => .viand (v dv vd) (v av va) (v bv vb) m e
  | .vior vd va vb m e => .vior (v dv vd) (v av va) (v bv vb) m e
  | .vixor vd va vb m e => .vixor (v dv vd) (v av va) (v bv vb) m e
  | .visll vd va vb m e => .visll (v dv vd) (v av va) (v bv vb) m e
  | .visrl vd va vb m e => .visrl (v dv vd) (v av va) (v bv vb) m e
  | .visra vd va vb m e => .visra (v dv vd) (v av va) (v bv vb) m e
  | .mma td la lb _ w => .mma (t ad td) la lb 1 w
  | .mmaz td la lb _ w => .mmaz (t ad td) la lb 1 w
  | .mpoly td aa ab _ => .mpoly (t ad td) (t av aa) (t bv ab) 1
  | .mscz td w _ => .mscz (t ad td) w 1
  | .mcvt td aa ab => .mcvt (t ad td) (t av aa) ab
  | .mtrn td aa => .mtrn (t ad td) (t av aa)
  | .mzero td => .mzero (t ad td)
  | .mwait => .mwait
  | .mrdr td ab _ rb => .mrdr (t ad td) ab 1 (v dv rb)
  | .mwrr td _ rb => .mwrr (t ad td) 1 (v bv rb)
  | .cbld n w _ => .cbld n w 1
  | .kld w _ => .kld w 1
  | .mld td la w sc _ => .mld (t ad td) la w sc 1
  | .mst td la w sc _ => .mst (t ad td) la w sc 1
  | .mldb td la w sc _ => .mldb (t ad td) la w sc 1
  | _ => i

/-- Run an instruction that RPT can capture, or that waits for a response or for full granules, in the state it has then (R35, R45, R288, R289). -/
def runForm (i : Instr) (s : State) : Host.Outcome State Fault Refusal :=
  match i with
  | .nop rd ra rb => execNop rd ra rb s
  | .callx rd ra imm => execCallx rd ra imm s
  | .lb rt ra w sc ord imm => execLb rt ra w sc ord imm s
  | .lh rt ra w sc ord imm => execLh rt ra w sc ord imm s
  | .lw rt ra w sc ord imm => execLw rt ra w sc ord imm s
  | .ld rt ra w sc ord imm => execLd rt ra w sc ord imm s
  | .lbu rt ra w sc ord imm => execLbu rt ra w sc ord imm s
  | .lhu rt ra w sc ord imm => execLhu rt ra w sc ord imm s
  | .lwu rt ra w sc ord imm => execLwu rt ra w sc ord imm s
  | .ldcn rt ra w sc ord imm => execLdcn rt ra w sc ord imm s
  | .layr vd lay w sc => execLayr vd lay w sc s
  | .amoaddW rd ra rb sc ord => execAmoaddW rd ra rb sc ord s
  | .amoandW rd ra rb sc ord => execAmoandW rd ra rb sc ord s
  | .amoorW rd ra rb sc ord => execAmoorW rd ra rb sc ord s
  | .amoxorW rd ra rb sc ord => execAmoxorW rd ra rb sc ord s
  | .amominW rd ra rb sc ord => execAmominW rd ra rb sc ord s
  | .amomaxW rd ra rb sc ord => execAmomaxW rd ra rb sc ord s
  | .amominuW rd ra rb sc ord => execAmominuW rd ra rb sc ord s
  | .amomaxuW rd ra rb sc ord => execAmomaxuW rd ra rb sc ord s
  | .amoswpW rd ra rb sc ord => execAmoswpW rd ra rb sc ord s
  | .amocasW rd ra rb sc ord => execAmocasW rd ra rb sc ord s
  | .amofaddW rd ra rb sc ord => execAmofaddW rd ra rb sc ord s
  | .amoaddD rd ra rb sc ord => execAmoaddD rd ra rb sc ord s
  | .amoandD rd ra rb sc ord => execAmoandD rd ra rb sc ord s
  | .amoorD rd ra rb sc ord => execAmoorD rd ra rb sc ord s
  | .amoxorD rd ra rb sc ord => execAmoxorD rd ra rb sc ord s
  | .amominD rd ra rb sc ord => execAmominD rd ra rb sc ord s
  | .amomaxD rd ra rb sc ord => execAmomaxD rd ra rb sc ord s
  | .amominuD rd ra rb sc ord => execAmominuD rd ra rb sc ord s
  | .amomaxuD rd ra rb sc ord => execAmomaxuD rd ra rb sc ord s
  | .amoswpD rd ra rb sc ord => execAmoswpD rd ra rb sc ord s
  | .amocasD rd ra rb sc ord => execAmocasD rd ra rb sc ord s
  | .amofaddD rd ra rb sc ord => execAmofaddD rd ra rb sc ord s
  | .qstream q ra => execQstream q ra s
  | .ld16 ra rb => execLd16 ra rb s
  | .lw16 ra rb => execLw16 ra rb s
  | .ldf rt ra w sc imm => execLdf rt ra w sc imm s
  | .ldfC rt ra w sc imm => execLdfC rt ra w sc imm s
  | .vld rt ra w sc ord imm => execVld rt ra w sc ord imm s
  | .vst rt ra w sc ord imm => execVst rt ra w sc ord imm s
  | .vldf rt ra w sc imm => execVldf rt ra w sc imm s
  | .vldfC rt ra w sc imm => execVldfC rt ra w sc imm s
  | .vstf rt ra w sc imm => execVstf rt ra w sc imm s
  | .vldL vd lay rc w sc => execVldL vd lay rc w sc s
  | .vstL vd lay rc w sc => execVstL vd lay rc w sc s
  | .vldfL vd lay rc w sc => execVldfL vd lay rc w sc s
  | .vldfCL vd lay rc w sc => execVldfCL vd lay rc w sc s
  | .vstfL vd lay rc w sc => execVstfL vd lay rc w sc s
  | .vadd vd va vb m => execVadd vd va vb m s
  | .vsub vd va vb m => execVsub vd va vb m s
  | .vmul vd va vb m => execVmul vd va vb m s
  | .vfma vd va vb m => execVfma vd va vb m s
  | .vfms vd va vb m => execVfms vd va vb m s
  | .vmax vd va vb m => execVmax vd va vb m s
  | .vmin vd va vb m => execVmin vd va vb m s
  | .vabs vd va m => execVabs vd va m s
  | .vneg vd va m => execVneg vd va m s
  | .vrcp vd va m => execVrcp vd va m s
  | .vrsq vd va m => execVrsq vd va m s
  | .vexp vd va m => execVexp vd va m s
  | .vlog vd va m => execVlog vd va m s
  | .vsigm vd va m => execVsigm vd va m s
  | .vtanh vd va m => execVtanh vd va m s
  | .vcvt vd va p f => execVcvt vd va p f s
  | .vreda vd va m => execVreda vd va m s
  | .vredx vd va m => execVredx vd va m s
  | .vcmpEq vd va vb m => execVcmpEq vd va vb m s
  | .vcmpNe vd va vb m => execVcmpNe vd va vb m s
  | .vcmpLt vd va vb m => execVcmpLt vd va vb m s
  | .vcmpLe vd va vb m => execVcmpLe vd va vb m s
  | .vcmpGt vd va vb m => execVcmpGt vd va vb m s
  | .vcmpGe vd va vb m => execVcmpGe vd va vb m s
  | .vsel vd va vb k => execVsel vd va vb k s
  | .vperm vd va vb m => execVperm vd va vb m s
  | .vbcst vd ra m => execVbcst vd ra m s
  | .vmvs vd ra rb => execVmvs vd ra rb s
  | .viadd vd va vb m e => execViadd vd va vb m e s
  | .visub vd va vb m e => execVisub vd va vb m e s
  | .vimul vd va vb m e => execVimul vd va vb m e s
  | .viand vd va vb m e => execViand vd va vb m e s
  | .vior vd va vb m e => execVior vd va vb m e s
  | .vixor vd va vb m e => execVixor vd va vb m e s
  | .visll vd va vb m e => execVisll vd va vb m e s
  | .visrl vd va vb m e => execVisrl vd va vb m e s
  | .visra vd va vb m e => execVisra vd va vb m e s
  | .mma ad la lb rc w => execMma ad la lb rc w s
  | .mmaz ad la lb rc w => execMmaz ad la lb rc w s
  | .mpoly ad aa ab ra => execMpoly ad aa ab ra s
  | .mscz ad w ra => execMscz ad w ra s
  | .mcvt ad aa ab => execMcvt ad aa ab s
  | .mtrn ad aa => execMtrn ad aa s
  | .mzero ad => execMzero ad s
  | .mwait => execMwait s
  | .mrdr ad ab ra rb => execMrdr ad ab ra rb s
  | .mwrr ad ra rb => execMwrr ad ra rb s
  | .cbld n w ra => execCbld n w ra s
  | .kld w ra => execKld w ra s
  | .mld ad la w sc rc => execMld ad la w sc rc s
  | .mst ad la w sc rc => execMst ad la w sc rc s
  | .mldb ad la w sc rc => execMldb ad la w sc rc s
  | _ => .next s
/-! ### RPT and RPTW -/

/-- First buffer slot and length of a sequence word (Table 12.5). -/
def seqRange (w : Word) : Nat × Nat := (bits w 0 4, bits w 4 4 + 1)

/-- Whether sequences of any slot of a cell hold buffer slots of a range (R288). -/
def bufferBusy (x : Cell) (lo n : Nat) : Bool :=
  x.slots.toList.any fun l => [l.seq.run, l.seq.wait].any fun q =>
    match q with
    | some q => let (s, m) := seqRange q.word; decide (s < lo + n ∧ lo < s + m)
    | none => false

/-- Capture `n` instructions from byte `p` on for buffer slots (R288): each a legal 32-bit instruction of the classes named there, with the
values its scalar fields have now. -/
def capture (s : State) (w : Word) (cap d : Nat) : Nat → Nat → Except Halt (List RepSlot)
  | 0, _ => .ok []
  | n + 1, p => do
    let (i, len) ← fetchBody s d cap p
    match scalarFields i with
    | none => .error (trapOf 2)
    | some fs =>
      need (len == 4 && wellFormed i) (trapOf 2)
      let r ← capture s w cap d n (p + 4)
      .ok (⟨i, fs.map fun f => getX s f.1, w, cap, recordAt s cap p⟩ :: r)

/-- A trap of the decoder inside a capture is RPT's 0x02 (R288); waits and other traps stay. -/
def captureHalt : Halt → Halt
  | .trap 1 _ _ _ _ => trapOf 2
  | h => h

/-- Buffer slots with a list written from `lo` on. -/
def fillBuffer (b : Vector RepSlot 16) (lo : Nat) (l : List RepSlot) : Vector RepSlot 16 :=
  (l.zipIdx).foldl (fun b e => b.setIfInBounds (lo + e.2) e.1) b

/-- Give a slot's sequencer a sequence: it starts at once or waits (R289). -/
def enqueueSeq (q : Sequencer) (s : Sequence) : Sequencer :=
  if s.count = 0 then q
  else match q.run with
    | none => { q with run := some s }
    | some _ => { q with wait := some s }

/-- RPT (R287 to R289). -/
def execRpt (ra rb : BitVec 5) (s : State) : Host.Outcome State Fault Refusal :=
  cellOnly s do
    let n := getX s ra
    let w := getX s rb
    let (lo, len) := seqRange w
    need (bits n 32 32 == 0 && bits w 56 8 == 0 && !bit w 23 && decide (lo + len ≤ 16)) (trapOf 2)
    need (s.me.seq.wait.isNone) (.wait .sequencer)
    match s.cur with
    | .slot c _ =>
      let l := s.me
      let q : Sequence := ⟨w, n.toNat, l.vl, lo, 0, l.cap, recordAt s l.cap l.pc⟩
      if bit w 8 then
        let r ← (capture s w l.cap (dieOfCell c) len (l.pc + 4)).mapError captureHalt
        need (!bufferBusy (s.cell c) lo len) (.wait .sequencer)
        let x := s.cell c
        let s := s.setCell c { x with repBuf := fillBuffer x.repBuf lo r }
        .ok (retire (onSlot s fun l => { l with seq := enqueueSeq l.seq q }) (4 + 4 * len))
      else .ok (retire (onSlot s fun l => { l with seq := enqueueSeq l.seq q }) 4)
    | _ => .ok s

/-- RPTW: waits until the sequencer is idle, then the number of instances issued in the activation (R290). -/
def execRptw (rd : BitVec 5) (s : State) : Host.Outcome State Fault Refusal :=
  cellOnly s do
    need (s.me.seq.run.isNone) (.wait .sequencer)
    .ok (retire (setX s rd (word s.me.seq.issued)) 4)

/-! ### Instances (R289) -/

/-- A captured value at repetition `j` (Formula (12.3)). -/
def stepped (w : Word) (j : Nat) (k : StepKind) (v : Word) : Word :=
  match k with
  | .plain => v
  | .oref =>
    let st := signed (bits w 40 16) 16
    word (bits v 52 12 * 2 ^ 52 + ((Int.ofNat (bits v 0 52) + 64 * Int.ofNat j * st) % Int.ofNat (2 ^ 52)).toNat)
  | .coord =>
    let d := bits w 21 2
    let st := signed (bits w 24 16) 16
    let c := ((Int.ofNat (coordOf v d) + Int.ofNat j * st) % 65536).toNat
    word (fields ((List.range 4).map fun i => (16, if i = d then c else coordOf v i)))

/-- The sequence after an instance: the next buffer slot, the next repetition, or its end, when the waiting sequence starts. A stream's
sequence has no end of its own (R292). -/
def advanceSeq (q : Sequencer) (stream : Bool) : Sequencer :=
  match q.run with
  | none => q
  | some r =>
    let (lo, len) := seqRange r.word
    let q := { q with issued := q.issued + 1 }
    if r.bslot + 1 < lo + len then { q with run := some { r with bslot := r.bslot + 1 } }
    else if r.j + 1 < r.count ∨ stream then { q with run := some { r with bslot := lo, j := r.j + 1 } }
    else { q with run := q.wait, wait := none }

/-- Run the instance that the sequencer of the moving slot stands at, which parks with 0x12 while the body of the slot's capsule is VOID (R332): the
captured values are in x1 and x2 while it runs, VL is that of the
RPT, and what the instance computes from the scalar registers is from those. -/
def runInstance (s : State) (c k : Nat) (r : Sequence) (e : RepSlot) (w : Word) : State :=
  let l := s.slot c k
  let i := instanceOf e.i w r.j
  let ks := ((scalarFields e.i).getD []).map (·.2)
  let vs := List.zipWith (stepped w r.j) ks e.x
  let x := (l.x.setIfInBounds 1 (vs.getD 0 0)).setIfInBounds 2 (vs.getD 1 0)
  let s1 := s.setSlot c k { l with x := x, vl := r.vl, rep := some (r.bslot, r.j) }
  let gated := do
    need (!(s.capsule l.cap).any voidBody) (parkVoid l.cap)
    need (l.mq.isEmpty || runsAhead i || (isMatrix i && !(l.mq.any writesScalarLate))) (.wait .matrix)
    watchGate s1 i
  let t := match gated with
    | .error h => settle s1 h
    | .ok s2 =>
      match runForm i s2 with
      | .next t => t
      | _ => s1
  let m := t.slot c k
  let going := match m.status with | .running => true | .stream _ => true | _ => false
  if !going ∧ m.act.isNone then t
  else
    let mq := if l.mq.length < m.mq.length then
        m.mq.dropLast ++ (m.mq.getLast?.toList.map fun o => { o with regs := l.x })
      else m.mq
    let done := going && decide (m.wait = .none) && m.pend.isNone
    t.setSlot c k { m with
      x := l.x, vl := l.vl, mq := mq
      rep := if m.pend.isSome then m.rep else none
      seq := if done then advanceSeq m.seq (onStream s) else m.seq }

/-- Issue the next instance of slot (c, k), or nothing when it has none, waits for a response, or its stream has no entry for a new
repetition. -/
def instanceTurn (s : State) (c k : Nat) : State :=
  let s := { s with cur := .slot c k }
  let l := s.slot c k
  match l.seq.run with
  | none => s
  | some r =>
    let e := (s.cell c).repBuf[r.bslot]?.getD RepSlot.nop
    match l.status with
    | .running => runInstance s c k r e r.word
    | .stream _ =>
      let (lo, _) := seqRange r.word
      let sq := match l.act with | some a => getQ s a.h.sq.toNat | none => QReg.empty
      if r.bslot = lo ∧ l.pend.isNone then
        if sq.ents.isEmpty then s
        else
          let r := { r with j := sq.popped }
          runInstance (s.setSlot c k { l with seq := { l.seq with run := some r } }) c k r e e.word
      else runInstance s c k r e e.word
    | _ => s

/-- Issue the next instance of slot (c, k); a pop of a bound queue makes room for the next STREAM message (R179). -/
def issueInstance (s : State) (c k : Nat) : State := feedStreams (instanceTurn s c k) c

/-- `RPT_INSTANCE_ISSUE` (R289): the sequencer of a slot issues its next instance, while the slot's budget is not used up (R183, R291, R292). -/
def execRptInstanceIssue (s : State) : Host.Outcome State Fault Refusal :=
  let c := s.inp.cell
  let k := s.inp.slot
  if (s.slot c k).pend.isSome then .next s
  else if budgetOut (s.slot c k) then .next (expireBudget s c k)
  else .next (issueInstance s c k)

end Sys2Proof.Machine
end

