-- ==== Sys2Proof/Machine/Streams.lean ====
section
/-! DEFINITION. The stream unit (R124 to R129): the refill of queue registers in stream mode. -/

namespace Sys2Proof.Machine

/-- The place of entry `n` of a pattern in its three levels (R125). -/
def patIndex (p : Vec) (n : Nat) : List Nat :=
  let n0 := bits (patWord p 5) 0 32
  let n1 := bits (patWord p 5) 32 32
  [n % n0, n / n0 % n1, n / (n0 * n1)]

/-- Formula (5.4): the coordinates of entry `n` of a pattern, exact. -/
def patCoords (p : Vec) (n : Nat) : List Int :=
  (List.range 4).map fun d =>
    let c := bits (patWord p (d / 2)) (32 * (d % 2)) 32
    ((patIndex p n).zipIdx).foldl (fun (x : Int) e => x + Int.ofNat e.1 * signed (bits (patWord p (2 + e.2)) (16 * d) 16) 16) c

/-- The coordinates of the elements of entry `n` with each one's lowest bit in the entry, in order; none for an element past EXT0, which reads as
zero bits (R125). -/
def patElems (p e : Vec) (n : Nat) : List (Nat × List Int) :=
  let w := fmtWidth (layFmt e)
  let c := patCoords p n
  if !bit (patWord p 7) 6 then [(0, c)]
  else (List.range (512 / w)).filterMap fun j =>
    let c0 := c.getD 0 0 + Int.ofNat j
    if Int.ofNat (layExt e 0) ≤ c0 then none else some (j * w, c0 :: c.drop 1)

/-- A coordinate lies outside 0 to 2^32 - 1 (R125). -/
def wideCoord (c : List Int) : Bool := c.any fun x => decide (x < 0) || decide (2 ^ 32 ≤ x)

/-- An entry that no pop delivers: cause, oref, ordinal, and for a page that is not present its KIND and the generation of its fault record (R127,
R144). -/
def badEntry (bad : Nat) (o : Word) (n : Nat) (kind : Nat := 0) (gen : BitVec 16 := 0) : QEntry := ⟨0, bad, o, word n, kind, gen⟩

/-- A coordinate other than the first lies at or beyond its extent: the entry is bad even where no element of a strip is read (R125). -/
def outerBad (e : Vec) (c : List Int) : Bool := (List.range 3).any fun d => decide (Int.ofNat (layExt e (d + 1)) ≤ c.getD (d + 1) 0)

/-- What a request for an entry comes to: an entry for the register, or a watch stop of the running activation (R158, R160). -/
inductive Refilled where
  | entry (e : QEntry) (t : State)
  | stops (h : Halt)
  deriving DecidableEq, Repr

/-- What a remote device made of an element's read: nothing wrong, or the entry that reports it (R127): a refusal makes the entry bad, ABSENT parks the
pop (R147), a lost request or a device without a route is 0x07, with the link's record (R400) (DEDUCED, log entry 27). -/
def refillAnswer (s : State) (t : Target) (o : Word) (n : Nat) : Except Refilled Unit :=
  match t.home with
  | .remote =>
    match remoteAnswer s t o 0 5 with
    | .ok _ => .ok ()
    | .error (.trap _ _ _ _ _) => .error (.entry (badEntry 20 o n) s)
    | .error (.park _ kind _ _ _ _ _ _) => .error (.entry (badEntry 5 o n kind) s)
    | .error _ => .error (.entry (badEntry 7 o n) (errorRecord s 3 2 (viewOf s s.cur).ctx 4 1 (bits t.desc.ptr 0 9) o.toNat))
  | _ => .ok ()

/-- The oref that a failed check of an entry's element names (R144). -/
def haltRef (o : Word) : Halt → Word
  | .trap _ ref _ _ _ => ref
  | _ => o

/-- Read one element of an entry: its value and the state, or the entry that reports why not (R127), or a watch stop. The remote device's answer, if any, is in
`State.inp` from byte `skip` on. An element in an engine window where R105 does not permit the access makes the entry bad (DESIGN CHOICE, log entry
74). -/
def refillElem (s : State) (v : View) (e : Vec) (n skip : Nat) (c : List Int) : Except Refilled (Nat × State) :=
  match layoutElem e c with
  | none => .error (.entry (badEntry 20 0 n) s)
  | some (o, lo) =>
    let w := fmtWidth (layFmt e)
    match checkRef s v o (elemBytes w) 1 5 with
    | .error h => .error (.entry (badEntry 20 (haltRef o h) n) s)
    | .ok t =>
      if !windowRule t (elemBytes w) false then .error (.entry (badEntry 20 o n) s)
      else
        match localGate (useDesc s v t) t (elemBytes w) (isLocal v t) false o 5 (word n) with
        | .error h => .error (.stops h)
        | .ok s =>
        match locate s v t (elemBytes w) false with
        | .error (.refused off) =>
          let o := o + word (off - t.off)
          .error (.entry (badEntry 20 o n) (refuseAccess s (v.ctx.getD 0) (dieOfAgent s s.cur) o))
        | .error (.absent kind lvl off) =>
          let gen := (s.fault (dieOfAgent s s.cur)).gen
          let (s, lost) := faultRecord s s.cur (v.ctx.getD 0) t.slot 5 kind lvl off
          let s := if lost then onSlot s fun l => { l with held := true } else s
          .error (.entry (badEntry 5 (o + word (off - t.off)) n kind gen) s)
        | .ok l =>
          let hits := if l.watched then filterHits s (v.ctx.getD 0) t.slot t.off (elemBytes w) true false else []
          let s1 := touchLeaves s l.leaves false
          if s.poisoned l.keys then .error (.entry (badEntry 7 (o + s.poisonAt l.keys) n) (filterNote s1 hits (v.ctx.getD 0) t.slot t.off 5))
          else
            match refillAnswer s t o n, filterEffect s hits (v.ctx.getD 0) t.slot t.off o (word n) 5 s1 with
            | .error e, _ => .error e
            | .ok _, .error h => .error (.stops h)
            | .ok _, .ok s1 =>
              let b := match t.home with
                | .remote => ((s.inp.bytes.drop skip) ++ List.replicate 8 0).take (elemBytes w)
                | .window d => bytesOf 8 (windowRead s (v.ctx.getD 0) d t.off).toNat
                | _ => s.bytesAt l
              .ok (elemValue w lo b, s1)

/-- Read the elements of an entry into its value. -/
def refillElems (v : View) (e : Vec) (n : Nat) : List (Nat × List Int) → Nat → State → Refilled
  | [], acc, s => .entry { QEntry.of (BitVec.ofNat 512 acc) with ord := word n } s
  | (lo, c) :: r, acc, s =>
    match refillElem s v e n (lo / 8) c with
    | .error x => x
    | .ok (x, s) => refillElems v e n r (acc + x * 2 ^ lo) s

/-- The entry number `n` of a register, read now (DEDUCED, log entry 27). The coordinates tested against 2^32 are those of c: an element of a strip whose
coordinate 0 lies past it reads as zeros, like any at or beyond EXT0 (DESIGN CHOICE, log entry 95). -/
def refill (s : State) (q : QReg) (n : Nat) : Refilled :=
  if wideCoord (patCoords q.pat n) || outerBad q.lay (patCoords q.pat n) then .entry (badEntry 20 0 n) s
  else refillElems (viewOf s s.cur) q.lay n (patElems q.pat q.lay n) 0 s

/-- What an entry reads, with the keys of its bytes, for the order of R41 and R46. -/
def refillKeys (s : State) (q : QReg) (n : Nat) : List (Target × List Nat) :=
  let v := viewOf s s.cur
  let w := elemBytes (fmtWidth (layFmt q.lay))
  (patElems q.pat q.lay n).filterMap fun e =>
    match (layoutElem q.lay e.2).map (·.1) with
    | none => none
    | some o =>
      match checkRef s v o w 1 5 with
      | .error _ => none
      | .ok t => some (t, match locate s v t w false with | .ok l => l.keys | .error _ => [])

/-- Earlier posted stores of the slot to the bytes of an entry or to their vault, a fence before it, or a descriptor that its cell does not hold yet
hold its read back (R16, R41, R46, R128). -/
def refillWaits (s : State) (q : QReg) (n : Nat) : Bool :=
  let v := viewOf s s.cur
  readFenced s
    || ((patElems q.pat q.lay n).any fun e => (layoutElem q.lay e.2).any fun o => cacheMiss s v (bits o.1 52 12))
    || (refillKeys s q n).any fun e =>
      overlaps (outstanding s) s.cur e.1.desc e.1.slot e.1.off (elemBytes (fmtWidth (layFmt q.lay))) || mayOverlap s s.cur e.2
        || vaultBusy s s.cur e.1

/-- `STREAM_REFILL_REQUEST` (R126, R128): the stream unit requests the next entry of a register with fewer than four held or in flight; the read
takes its place in program order here. -/
def execStreamRefillRequest (s : State) : Host.Outcome State Fault Refusal :=
  let s := { s with cur := .slot s.inp.cell s.inp.slot }
  let q := getQ s s.inp.reg
  if q.mode = .stream ∧ q.ents.length + q.flight.length < 4 ∧ q.asked < patCount q.pat ∧ s.me.act.isSome ∧ !refillWaits s q q.asked then
    match refill s q q.asked with
    | .entry e s => .next (setQ s s.inp.reg { q with flight := q.flight ++ [e], asked := q.asked + 1 })
    | .stops h => .next (settle s h)
  else .next s

/-- `STREAM_REFILL_RETURN` (R126): the oldest read in flight returns and its entry enters the register, past the comparator of pushes (R160). -/
def execStreamRefillReturn (s : State) : Host.Outcome State Fault Refusal :=
  let s := { s with cur := .slot s.inp.cell s.inp.slot }
  let q := getQ s s.inp.reg
  match q.mode, q.flight with
  | .stream, e :: r =>
    match comparator s (queueMatch s s.inp.cell s.inp.reg false true) 3 0 5 with
    | .ok s => .next (setQ s s.inp.reg { q with ents := q.ents ++ [e], flight := r })
    | .error h => .next (settle s h)
  | _, _ => .next s

end Sys2Proof.Machine
end

