-- ==== Sys2Proof/Machine/MemEvents.lean ====
section
/-! DEFINITION. What reaches the memory side after an instruction has left it: posted stores arriving, held and lost (R46, R52, R140,
R146), responses and refusals (R20, R233), wakes, barrier arrivals (R247, R380), the hand-over of service records (R227), the descriptor cache
(R16), and accesses from another device (R20, R147). -/

namespace Sys2Proof.Machine

/-! ### Writes arriving at their place -/

/-- The reference of a write in flight, at the place its check found (R18). -/
def postedTarget (s : State) (p : Posted) (o : Word) : Target :=
  let (h, b) := homeOf p.desc
  match resolve s ⟨some p.ctx, none, 0, false, true⟩ o with
  | .ok t => { t with home := h, base := b, desc := p.desc }
  | .error _ => ⟨h, b, bits p.desc.w0 0 52, 0, bits o 52 12, bits o 0 52, p.desc⟩

/-- The view under which a write in flight is translated. -/
def postedView (p : Posted) : View := ⟨some p.ctx, none, 0, false, true⟩

/-- Locate every byte range of a write, or the first that finds no page, with its target. -/
def locateWrite (s : State) (p : Posted) : List (Word × Nat) → Except (NoPage × Target) (List Located)
  | [] => .ok []
  | (o, n) :: r =>
    let t := postedTarget s p o
    match locate s (postedView p) t n true with
    | .error e => .error (e, t)
    | .ok l => (locateWrite s p r).map (l :: ·)

/-- The size in bits of the object page at an offset: by the level where the walk ends, 64 KiB at level 0, 2 MiB above it (R137). -/
def pageShift (s : State) (ctx slot off : Nat) : Nat :=
  match s.ctx ctx with
  | none => 16
  | some x =>
    match walk s.mem (x.objs.getD slot Desc.zero) off with
    | .page _ _ lvl _ => if lvl = 0 then 16 else 21
    | .absent _ lvl => if lvl = 0 then 16 else 21

/-- The object page that holds an offset: context, slot, first offset. -/
def pageOf (s : State) (pg : Nat × Nat × Nat) : Nat × Nat × Nat :=
  (pg.1, pg.2.1, pg.2.2 / 2 ^ pageShift s pg.1 pg.2.1 pg.2.2 * 2 ^ pageShift s pg.1 pg.2.1 pg.2.2)

/-- Whether two page names (context, slot, offset) name one page. -/
def samePage (s : State) (a b : Nat × Nat × Nat) : Bool := pageOf s a == pageOf s b

/-- The object pages that a write names. -/
def writePages (s : State) (p : Posted) : List (Nat × Nat × Nat) :=
  ((effectRefs p.eff).flatMap fun e =>
    [pageOf s (p.ctx, bits e.1 52 12, bits e.1 0 52), pageOf s (p.ctx, bits e.1 52 12, bits e.1 0 52 + e.2 - 1)]).dedup

/-- Whether two writes name a common page. -/
def samePages (s : State) (p q : Posted) : Bool := (writePages s p).any fun a => (writePages s q).contains a

/-- A write is released from its agent's count (R46, R52). -/
def uncount (s : State) (p : Posted) : State := if p.counted then bump s p.agent p.cls false else s

/-- The OTU that translates an agent's accesses: port p of a compute die for the cells of ranks 24p to 24p + 23 and harts 7p to 7p + 6, and that of
an edge die for what arrives there (R134). A die firmware core and a command engine use port 0 of their die (DESIGN CHOICE, log entry 22). -/
def otuOf (s : State) (a : Agent) : Nat :=
  match a with
  | .slot c _ => 4 * dieOfCell c + c / 8 % 96 / 24
  | .hart d h => 4 * d + h / 7
  | .dfc d => if d < 4 then 4 * d else 12 + d
  | .queue q => 4 * (s.queue q).eng
  | _ => 16 + dieOfAgent s a / 2

/-- Whether the OTU of a write holds 256 writes already, so that one more goes to its context's hold area (R146). -/
def otuFull (s : State) (p : Posted) : Bool := decide (256 ≤ (s.held.filter fun q => !q.area && otuOf s q.agent == otuOf s p.agent).length)

/-- Whether a context's hold area has room, at 128 bytes a write (R146) (DEDUCED, log entry 22). -/
def areaRoom (s : State) (r : Nat) (x : Context) : Bool := decide ((s.held.filter fun q => q.area && q.ctx == r).length < x.holdBytes / 128)

/-- Hold a write whose page is absent or migrating (R146): it stays counted, and a fault record is written: HELD for a page that already has a
held write; none for a migrating page unless a cell slot or the host wrote (R155). A full hold area contains the context. -/
def holdWrite (s : State) (p : Posted) (t : Target) (kind lvl off : Nat) : State :=
  let again := s.held.any (samePages s p)
  let silent := kind == 1 && match p.agent with | .slot _ _ => false | .host _ => false | _ => true
  let s0 : State := s
  let (s1, lost) := if silent then (s0, false) else faultRecord s0 p.agent p.ctx t.slot p.acc (if again then 3 else kind) lvl off
  let s2 := { s1 with held := s1.held ++ [{ p with mark := lost, area := otuFull s p }] }
  match s.ctx p.ctx with
  | some x =>
    if !otuFull s p || areaRoom s p.ctx x then s2
    else refuseAccess s2 p.ctx (dieOfAgent s p.agent) (word (t.slot * 2 ^ 52 + off))
  | none => s2

/-- The effect of a write-filter hit on the issuing slot (R158): in precise mode, with a replayable handler, the activation is aborted if it
still runs, with the reference of the first byte that a filter covers; otherwise the stop lands when it ends, or at the cell's next boundary. -/
def writeHit (s : State) (p : Posted) (hits : List Nat) (t : Target) (o coord : Word) : State :=
  if hits.isEmpty then s
  else
    let s := watchRecords s hits p.ctx t.slot t.off p.acc p.agent
    match p.agent with
    | .slot c k =>
      let u := { s with cur := p.agent }
      if (s.slot c k).act.any fun a => a.serial == p.ser then
        if u.stopsAtOnce then { settle (rewind u c k) (.stop 1 (o + word (filterAt s hits t.off)) coord p.acc) with cur := s.cur }
        else { noteHit u 1 with cur := s.cur }
      else if bit (((s.ctx p.ctx).map fun x => x.dbgctl).getD 0) 0 then requestStop s c 1 else s
    | _ => s

/-- The filters that a located write hits, range by range, with their effect. -/
def writeHits (s : State) (p : Posted) : List ((Word × Nat × Word) × Located) → State
  | [] => s
  | ((o, n, coord), l) :: r =>
    let t := postedTarget s p o
    writeHits (writeHit s p (if l.watched then filterHits s p.ctx t.slot t.off n false true else []) t o coord) p r

/-- Whether a write clears the poison of the granules it covers whole: one of the host does not, only a vector store and an engine (R233). -/
def cleans (p : Posted) : Bool :=
  match p.agent with
  | .host _ => false
  | _ => true

/-- Perform a write at its located places. -/
def performWrite (s : State) (p : Posted) (ls : List Located) : State :=
  match p.eff with
  | .bytes o b fill =>
    match ls with
    | l :: _ => writeHits (writeAt s l b fill (cleans p)) p [((o, b.length, 0), l)]
    | [] => s
  | .pieces xs fill => writeHits (writePieces s (List.zip ls xs) fill) p (List.zip (xs.map fun x => (x.o, elemBytes x.len, x.coord)) ls)
  | .layout l v => s.onCtx p.ctx fun x => { x with lays := x.lays.put l v }
  | .kick _ _ _ => s

/-- Whether a write leads to another device. -/
def toRemote (p : Posted) : Bool := bits p.desc.w0 57 3 == 5 && !(effectRefs p.eff).isEmpty

/-- A posted store that the links or the host interface abandon (R52): no effect, its count released, a record, and the context
contained (DEDUCED, log entry 26). -/
def loseStore (s : State) (p : Posted) : State :=
  errorRecord (contain (uncount s p) p.ctx) 9 1 (some p.ctx) (dieOfAgent s p.agent) 1 0 (effectRefs p.eff |>.headD (0, 0)).1.toNat

/-- A write, already taken from its list, reaches its place: it is performed and acknowledged, held, or refused by the frame checks, which
discards it, releases its count, and contains the context (R46, R140, R146, R400). -/
def landWrite (s : State) (p : Posted) : State :=
  if toRemote p then
    if routed s (bits p.desc.ptr 0 9) then uncount s p
    else errorRecord (loseStore s p) 3 1 (some p.ctx) 4 1 (bits p.desc.ptr 0 9) 0
  else
    match locateWrite s p (effectRefs p.eff) with
    | .ok ls => uncount (performWrite s p ls) p
    | .error (.absent kind lvl off, t) => holdWrite s p t kind lvl off
    | .error (.refused off, t) =>
      refuseAccess (uncount s p) p.ctx (dieOfAgent s p.agent) (word (t.slot * 2 ^ 52 + off))

/-- Whether two writes touch the same byte or layout entry. -/
def clash (s : State) (p q : Posted) : Bool :=
  match p.eff, q.eff with
  | .layout l _, .layout l' _ => l == l' && p.ctx == q.ctx
  | _, _ =>
    (effectRefs p.eff).any (fun e => overlaps [q] q.agent p.desc (bits e.1 52 12) (bits e.1 0 52) e.2)
      || (effectKeys s p).any (effectKeys s q).contains

/-- Whether two writes go to one vault, which the lateral network delivers in order (R41). -/
def sameVault (p q : Posted) : Bool :=
  (vaultOf p.desc).isSome && vaultOf p.desc == vaultOf q.desc && !(effectRefs p.eff).isEmpty && !(effectRefs q.eff).isEmpty

/-- Whether the order of its agent's writes lets a write in flight land before those in `before`, which left earlier: the same bytes in program
order (R46), the same vault in issue order (R41), a release behind everything earlier, fences (R70, R244), and a mailbox
behind the harts of its operation (R71). -/
def inOrder (s : State) (p : Posted) (before others : List Posted) : Bool :=
  let mine (q : Posted) : Bool := q.agent == p.agent
  !(before.any fun q => (mine q && (p.rel || sameVault p q || clash s p q)) || p.behind.contains q.agent) && !(others.any fun q => mine q && decide (q.epoch < p.floor))

/-- Whether the write of a kick: those land by `ENGINE_KICK`. -/
def isKick (p : Posted) : Bool :=
  match p.eff with
  | .kick _ _ _ => true
  | _ => false

/-- Whether the write `p`, the i-th in flight, may reach its destination: in the order of its agent, and not while a held write of its agent touches
its bytes, unless it is held too. -/
def mayLand (s : State) (p : Posted) (i : Nat) : Bool :=
  let ready := inOrder s p (s.posted.take i ++ if p.rel then s.held else []) (s.posted ++ s.held)
  let free := match locateWrite s p (effectRefs p.eff) with
    | .ok _ => !(s.held.any fun q => q.agent == p.agent && clash s p q)
    | .error _ => true
  !isKick p && ready && free

/-- `POSTED_STORE_ACK` (R46): the i-th write in flight reaches its destination, which performs and acknowledges it. -/
def execPostedStoreAck (s : State) : Host.Outcome State Fault Refusal :=
  match takeAt s.posted s.inp.idx with
  | none => .next s
  | some (p, rest) => if mayLand s p s.inp.idx then .next (landWrite { s with posted := rest } p) else .next s

/-- `POSTED_STORE_LOSS` (R52): the links or the host interface abandon a posted store. -/
def execPostedStoreLoss (s : State) : Host.Outcome State Fault Refusal :=
  match takeAt s.posted s.inp.idx with
  | none => .next s
  | some (p, rest) =>
    if toRemote p || (bits p.desc.w0 57 3 == 4 && !(effectRefs p.eff).isEmpty) then .next (loseStore { s with posted := rest } p) else .next s

/-- An answer to the outside: a code byte, 0 done, 1 refused, 2 ABSENT or Unsupported Request, 4 poisoned data, and the bytes. -/
def answer (s : State) (code : Nat) (b : List Byte) : State := { s with answers := s.answers ++ [BitVec.ofNat 8 code :: b] }

/-- Whether the shootdown of a page-table entry is under way: a write that was translated under the old entry has not performed (R141). -/
def shooting (s : State) (a : Nat) : Bool := s.shoot.any fun e => e.1 == a && e.2.any s.posted.contains

/-- A held write lands: that of another device or of the host is answered when it performs, or is refused (R20, R146). -/
def landHeld (s : State) (p : Posted) (refused : Bool) : State :=
  let s := landWrite s p
  match p.agent with
  | .remote _ => answer s (b2n refused) []
  | .host _ => answer s (b2n refused) []
  | _ => s

/-- `HELD_WRITE_RELEASE` (R146, R155): the i-th held write, whose page is present and not migrating, with the shootdown of its entry completed, is translated
anew and performed; writes of one page go in the order in which they arrived. -/
def execHeldWriteRelease (s : State) : Host.Outcome State Fault Refusal :=
  match takeAt s.held s.inp.idx with
  | none => .next s
  | some (p, rest) =>
    let before := s.held.take s.inp.idx
    let ready := !(before.any (samePages s p)) && inOrder s p before (s.posted ++ s.held)
    match locateWrite s p (effectRefs p.eff) with
    | .error (.absent _ _ _, _) => .next s
    | .error (.refused _, _) => if ready then .next (landHeld { s with held := rest } p true) else .next s
    | .ok ls =>
      if ready && !(ls.any fun l => l.leaves.any (shooting s)) then .next (landHeld { s with held := rest } p false) else .next s

/-! ### Responses, refusals and wakes -/

/-- Run the waiting instruction of an agent for the answer in `State.inp`. -/
def answerAgent (s : State) (a : Agent) : State :=
  let s := { s with cur := a }
  match a with
  | .slot c k =>
    match (s.slot c k).pend with
    | none => s
    | some (.bara _ _ _) => s
    | some (.ecall _ _ _) => s
    | some i =>
      if (s.slot c k).rep.isSome then issueInstance s c k
      else match runForm i s with
        | .next t => t
        | _ => s
  | .dfc d =>
    match (s.dfc d).pend with
    | none => s
    | some i =>
      match runForm i s with
      | .next t => t
      | _ => s
  | _ => s

/-- End a slot's wait of the given kind: it issues again and finds what it waited for, or waits on. -/
def endWait (s : State) (c k : Nat) (w : Wait) : State :=
  if (s.slot c k).wait = w then s.setSlot c k { s.slot c k with wait := .none } else s

/-- `COUNTER_WAIT_END` (R50): a slot whose counters fall to zero goes on; W and WAITC read them again at issue. -/
def execCounterWaitEnd (s : State) : Host.Outcome State Fault Refusal := .next (endWait s s.inp.cell s.inp.slot .counter)

/-- Run the full/empty form that a slot waits at: the instance of its sequencer, or its scalar code's next instruction. -/
def serveSlot (s : State) (c k : Nat) : State :=
  if (s.slot c k).seq.run.isSome then issueInstance s c k
  else
    let s := { s with cur := .slot c k }
    match ready s with
    | .error h => settle s h
    | .ok (i, t) =>
      match runForm i t with
      | .next u => u
      | _ => t

/-- `FULL_EMPTY_WAKE` (R35): a slot whose full/empty form waits, and finds every granule full, is served when it comes first among the slots that wait
so; the others read the bits again. -/
def execFullEmptyWake (s : State) : Host.Outcome State Fault Refusal :=
  let c := s.inp.cell
  let k := s.inp.slot
  match (s.slot c k).wait with
  | .fullEmpty gs =>
    if gs.all s.full.has && servedFirst s c k gs && (s.slot c k).pend.isNone && !budgetOut (s.slot c k) then .next (serveSlot s c k) else .next s
  | _ => .next s

/-- `QUEUE_WAIT_WAKE` (R274): a stalled pop or push goes on; it looks at the queue register again. -/
def execQueueWaitWake (s : State) : Host.Outcome State Fault Refusal := .next (endWait s s.inp.cell s.inp.slot .queue)

/-! ### Barriers and service records -/

/-- An arrival at barrier `b` of context `r`: at the barrier unit, or when the barriers are unloaded in the mailbox, by Formula (16.1). -/
def arriveAnywhere (s : State) (r b : Nat) : BitVec 16 × State :=
  match s.ctx r with
  | none => (0, s)
  | some x =>
    if x.unloaded then
      let e := x.barrier b
      let k := (x.mailbox.filter fun m => m.2 == b).length
      let p := BitVec.ofNat 16 (e.ph.toNat + (e.a.toNat + k) / e.n.toNat)
      (p, s.setCtx r { x with mailbox := x.mailbox ++ [(p, b)] })
    else barrierArrive s r b

/-- `BARRIER_ARRIVAL` (R247, R380): a BARA that crossed a die bridge reaches the barrier unit, or one whose activation has ended meanwhile. -/
def execBarrierArrival (s : State) : Host.Outcome State Fault Refusal :=
  match s.inp.bar with
  | .slot c k =>
    match (s.slot c k).pend with
    | some (.bara rd ra _) =>
      let s := { s with cur := .slot c k }
      let b := bits (getX s ra) 0 8
      let (p, s) := arriveAnywhere s ((s.cell c).ctx.getD 0) b
      .next (retire (setX (onSlot s fun l => { l with ticket := some (b, p) }) rd (p.setWidth 64)) 4)
    | _ => .next s
  | .stray i =>
    match takeAt s.arrivals i with
    | none => .next s
    | some ((r, b), rest) => .next (arriveAnywhere { s with arrivals := rest } r b).2

/-- `ECALL_HANDOVER` (R227): the cell's oldest service record goes to its die's DFC, which appends it to the context's service ring; the ECALL that
made it completes. -/
def execEcallHandover (s : State) : Host.Outcome State Fault Refusal :=
  let c := s.inp.cell
  match (s.cell c).records with
  | [] => .next s
  | w :: rest =>
    let s := s.setCell c { s.cell c with records := rest }
    let k := bits (w.getD 0 0) 0 2
    let s := s.onCtx (w.getD 1 0).toNat fun x => { x with serviced := x.serviced ++ [w.drop 1] }
    let s := raiseEvent s (dieOfCell c) 6
    match (s.slot c k).pend, (s.slot c k).act with
    | some (.ecall rd _ _), some a =>
      if a.serial.toNat = bits (w.getD 0 0) 2 36 then .next (retire (setX { s with cur := .slot c k } rd 0) 4) else .next s
    | _, _ => .next s

/-! ### The descriptor cache -/

/-- Put a descriptor into a cell's cache of 64 entries, most recently used first (R16). -/
def cacheDesc (x : Cell) (slot : Nat) (d : Desc) : Cell :=
  { x with dcache := ((slot, d) :: x.dcache.filter fun p => p.1 ≠ slot).take 64 }

/-- `DESCRIPTOR_CACHE_FILL` (R16): a miss fetches an entry of the object table, in the place of the least recently used one, and every access of the
cell that waits for it goes on. An entry that is cached stays as it is. -/
def execDescriptorCacheFill (s : State) : Host.Outcome State Fault Refusal :=
  let c := s.inp.cell
  let slot := s.inp.idx
  match (s.cell c).ctx.bind s.ctx with
  | none => .next s
  | some x =>
    if slot < 32 ∨ 4096 ≤ slot ∨ (s.cell c).dcache.any fun p => p.1 == slot then .next s
    else .next ((List.range 4).foldl (fun s k => endWait s c k (.descriptor slot))
      (s.setCell c (cacheDesc (s.cell c) slot (x.objs.getD slot Desc.zero))))

/-! ### Accesses from outside -/

/-- The number of bytes an access from outside touches, and the rights it needs. -/
def extNeed : ExtAccess → Nat × Nat
  | .read n => (n, 1)
  | .write b => (b.length, 2)
  | .atomic _ n _ _ => (n, 11)

/-- Access kinds of Table 6.7 for a read or atomic, and for a write, by another device or the host. -/
def extAcc (host : Bool) : ExtAccess → Nat
  | .write _ => if host then 9 else 11
  | _ => if host then 8 else 10

/-- The fault record of a load or atomic from outside; one that finds the ring full leaves the retry-at-flush mark (R149, R151). -/
def extFault (s : State) (a : Agent) (r slot acc kind lvl off : Nat) : State :=
  let (s, lost) := faultRecord s a r slot acc kind lvl off
  if lost then { s with marks := s.marks ++ [(a, acc, (r, slot, off))] } else s

/-- Whether an earlier write of the same requester that has not performed makes an access from outside wait: one to the same bytes, and of the
host any, unless the access carries the Relaxed Ordering attribute (the event's flag) (Table 3.6, rows 1 and 11). -/
def extWaits (s : State) (a : Agent) (t : Target) (n : Nat) (relaxed : Bool) : Bool :=
  let keys := match locate s ⟨some s.inp.ctx, none, 0, false, true⟩ t n false with | .ok l => l.keys | .error _ => []
  (s.posted ++ s.held).any fun p => p.agent == a
    && ((!relaxed && !cleans p) || overlaps [p] a t.desc t.slot t.off n && p.ctx == s.inp.ctx || (effectKeys s p).any keys.contains)

/-- Carry out an access from outside that has passed its check: it reads, holds or performs, and answers (R20, R45, R146, R147, R155). -/
def extPerform (s : State) (a : Agent) (r : Nat) (t : Target) (o : Word) (x : ExtAccess) (host : Bool) : State :=
  let v : View := ⟨some r, none, 0, false, true⟩
  let acc := extAcc host x
  let hits (s1 : State) (l : Located) (n : Nat) (rd wr : Bool) : State :=
    if l.watched then watchRecords s1 (filterHits s r t.slot t.off n rd wr) r t.slot t.off acc a else s1
  match x with
  | .write b =>
    let p : Posted := ⟨a, r, 0, postClass t, t.desc, .bytes o b false, false, 0, acc, false, false, 0, 0, false, false, []⟩
    match locateWrite s p (effectRefs p.eff) with
    | .ok _ => answer (landWrite s p) 0 []
    | .error (.absent _ _ _, _) => landWrite s p
    | .error (.refused _, _) => answer (landWrite s p) 1 []
  | .read n =>
    match locate s v t n false with
    | .error (.absent kind lvl off) => answer (extFault s a r t.slot acc kind lvl off) 2 []
    | .error (.refused off) => answer (refuseAccess s r (dieOfAgent s a) (word (t.slot * 2 ^ 52 + off))) 1 []
    | .ok l =>
      let s1 := hits (touchLeaves s l.leaves false) l n true false
      if s.poisoned l.keys then answer s1 4 (if host then s.bytesAt l else []) else answer s1 0 (s.bytesAt l)
  | .atomic op n b e =>
    match locate s v t n true with
    | .error (.absent kind lvl off) => answer (extFault s a r t.slot acc kind lvl off) 2 []
    | .error (.refused off) => answer (refuseAccess s r (dieOfAgent s a) (word (t.slot * 2 ^ 52 + off))) 1 []
    | .ok l =>
      if s.poisoned l.keys then answer (hits (touchLeaves s l.leaves true) l n true true) 4 []
      else
        let m := numOfBytes (s.bytesAt l)
        let s1 := match (amoNew op n m b.toNat e.toNat).1 with
          | some y => writeAt s l (bytesOf n y) false false
          | none => touchLeaves s l.leaves true
        answer (hits s1 l n true true) 0 (bytesOf n m)

/-- Whether an atomic from outside may be carried out at a place: naturally aligned, and of the kinds that the place carries (R239, R243). -/
def extAtomicOk (t : Target) : ExtAccess → Bool
  | .atomic op n _ _ => t.off % n == 0 && (!inHost t || hostAtomic op)
  | _ => true

/-- Whether a resolved reference leads to another device. -/
def isRemoteHome (t : Target) : Bool :=
  match t.home with
  | .remote => true
  | _ => false

/-- `INBOUND_REMOTE_ACCESS` (R20): an access of another device is checked against entry RSLOT of context RCTX, whose object must have S; a refused
store is recorded, naming both contexts. -/
def execInboundRemoteAccess (s : State) : Host.Outcome State Fault Refusal :=
  let r := s.inp.ctx
  let slot := s.inp.idx
  let o := word (slot % 4096 * 2 ^ 52 + s.inp.off % 2 ^ 52)
  let (n, rts) := extNeed s.inp.access
  let a : Agent := .remote s.inp.dev
  let refuse (s : State) : State :=
    match s.inp.access with
    | .write _ => answer (errorRecord s 3 2 (some r) 4 1 (s.inp.dev + s.inp.vpe * 2 ^ 16) o.toNat) 1 []
    | _ => answer s 1 []
  match s.ctx r with
  | none => .next (refuse s)
  | some _ =>
    if slot < 32 ∨ 4096 ≤ slot then .next (refuse s)
    else
      match checkRef s ⟨some r, none, 0, false, true⟩ o n (rts ||| 16) (extAcc false s.inp.access) with
      | .error _ => .next (refuse s)
      | .ok t =>
        if inWindow t || isRemoteHome t || !extAtomicOk t s.inp.access then .next (refuse s)
        else if extWaits s a t n true then .next s
        else .next (extPerform s a r t o s.inp.access false)

end Sys2Proof.Machine
end

