-- ==== Sys2Proof/Machine/Engine.lean ====
section
/-! DEFINITION. Engine harts (R104 to R123, R17): kicks, command blocks, copies, gathers, scatters, reductions, ordered groups, collectives,
and the mailbox. An operation runs whole in one event. -/

namespace Sys2Proof.Machine

/-! ### Blocks -/

/-- Word `i` of a command block. -/
def blkWord (b : List Word) (i : Nat) : Word := b.getD i 0
/-- OP of a block (Table 5.2). -/
def blkOp (b : List Word) : Nat := bits (blkWord b 0) 0 8
/-- GRP of a block. -/
def blkGrp (b : List Word) : Nat := bits (blkWord b 0) 32 8
/-- NCON of a block. -/
def blkNcon (b : List Word) : Nat := bits (blkWord b 0) 40 8
/-- ME of a block. -/
def blkMe (b : List Word) : Nat := bits (blkWord b 0) 48 8
/-- RFMT of a block. -/
def blkRfmt (b : List Word) : Nat := bits (blkWord b 0) 24 2
/-- O of a block. -/
def blkOrd (b : List Word) : Bool := bit (blkWord b 0) 23
/-- Nd of a block. -/
def blkN (b : List Word) (d : Nat) : Nat := coordOf (blkWord b 3) d

/-- The kind of a hart: 0 copy, 1 gather, 2 collective. -/
def hartKind (h : Nat) : Nat := if h < 16 then 0 else if h < 24 then 1 else 2

/-- The hart kinds that run an OP (Table 5.3); none for a reserved OP. -/
def opKinds (op : Nat) : List Nat :=
  match op with
  | 0x00 => [0, 1, 2] | 0x01 => [0] | 0x02 => [0] | 0x08 => [1] | 0x09 => [1] | 0x10 => [2] | 0x11 => [2] | 0x12 => [2] | _ => []

/-- Whether an OP is a collective. -/
def isCollective (op : Nat) : Bool := decide (0x10 ≤ op)

/-- The rules of R110 that a block must keep on a hart. -/
def blockLegal (h : Nat) (b : List Word) : Bool :=
  let w0 := blkWord b 0
  let op := blkOp b
  let usesAux := op == 8 || op == 9 || isCollective op
  (opKinds op).contains (hartKind h) && bits w0 56 8 == 0 && bits w0 26 6 == 0 && blkWord b 6 == 0 && bits (blkWord b 7) 16 48 == 0
    && decide (bits w0 20 3 < 6) && (usesAux || blkWord b 5 == 0)
    && (!(op == 2 || op == 0x10 || op == 0x12) || blkRfmt b != 3)
    && (!(op == 2 && blkOrd b) || blkNcon b != 0)
    && (!isCollective op || (decide (2 ≤ blkNcon b) && decide (blkMe b < blkNcon b)))
    && (op != 0x12 || blkN b 1 % blkNcon b == 0)

/-! ### Microcode (R104) -/

/-- A word of microcode is a form of the subset that an engine hart runs (R104): the integer and oref instructions, the control instructions other than
CALLX, END and YIELD, loads, stores and atomics other than LDCN, LDF and FECLR, and FENCE; of the 16-bit forms all but END (Tables 8.2, 8.5). Control
instructions are read as the branches and jumps: NOP, ECALL, EBRK and the CSR forms stand outside the subset (DESIGN CHOICE, log entry 94). -/
def inSubset (w : Nat) : Bool :=
  let maj := w / 2 % 128
  if w % 2 = 0 then w / 2 % 32 != 17
  else decide (maj ≤ 0x13) || decide (0x18 ≤ maj ∧ maj ≤ 0x1E) || decide (0x20 ≤ maj ∧ maj ≤ 0x23) || (maj == 0x24 && w / 2 ^ 23 % 4 == 2)
    || maj == 0x26 || maj == 0x27 || (maj == 0x28 && w / 2 ^ 30 == 0)

/-- Whether every form of a microcode image decodes and lies in the subset; `fuel` bounds the forms. -/
def microLegal (b : List Byte) : Nat → Bool
  | 0 => b.isEmpty
  | n + 1 =>
    b.isEmpty ||
      let len := parcelLength (numOfBytes (b.take 2))
      let w := numOfBytes (b.take len)
      decide (len ≤ b.length) && inSubset w && (match decodeKreral w with | .ok i => wellFormed i | .error _ => false) && microLegal (b.drop len) n

/-! ### Who kicks -/

/-- In whose terms a kick's orefs resolve (R107, R17). -/
def kickView (s : State) (k : Kick) : View :=
  match k.agent with
  | .slot c _ => ⟨some k.ctx, some c, k.vpe / (((s.ctx k.ctx).map fun x => x.fold.p).getD 1), !k.stolen, true⟩
  | _ => ⟨some k.ctx, none, 0, false, true⟩

/-- The key by which contributions are ordered, which also identifies the contributor (R117). -/
def contributor (s : State) (k : Kick) : List Nat :=
  match k.agent with
  | .slot c _ => [1, rankOfCell c, indexInRank c, k.vpe]
  | .queue q => [0, 1, (s.queue q).eng]
  | .dfc d => [0, 2, d]
  | .host f => [0, 0, f]
  | _ => [0, 3, 0]

/-! ### Accesses of a hart -/

/-- Why an operation does not go on: a subcause of Table 5.4 (with the reference that the checks of a frame refused, R140), an absent page: (context,
slot, offset), kind, level; or bytes that an earlier write of the hart has yet to reach (R69). -/
inductive EHalt where
  | sub (n : Nat) (refused : Option Word)
  | page (ctx slot off kind lvl : Nat)
  | busy
  deriving DecidableEq, Repr

/-- What reads of an operation used: leaf entries, and on watched pages the bytes (slot, offset, length). -/
abbrev Used := List Nat × List (Nat × Nat × Nat)

/-- The result of reads: what they give, or why they end, with what was used before (R142, R157). -/
abbrev ERes (α : Type) := Except (EHalt × Used) α

/-- A check that has read nothing, among reads. -/
def checked {α : Type} (x : Except EHalt α) : ERes α :=
  match x with
  | .ok a => .ok a
  | .error h => .error (h, ([], []))

/-- Reads that follow others, which used `u`. -/
def following {α : Type} (u : Used) (x : ERes α) : ERes α :=
  match x with
  | .ok a => .ok a
  | .error (h, u') => .error (h, (u.1 ++ u'.1, u.2 ++ u'.2))

/-- The subcause of a failed check. -/
def subOf : Halt → Nat
  | .trap 2 _ _ _ _ => 1
  | .trap 3 _ _ _ _ => 3
  | _ => 4

/-- Check `n` bytes of an operation (R17): the check of R15, and no engine window (R111). -/
def eRef (s : State) (v : View) (o : Word) (n rts : Nat) : Except EHalt Target :=
  match checkRef s v o n rts 6 with
  | .error h => .error (.sub (subOf h) none)
  | .ok t => if inWindow t then .error (.sub 4 none) else .ok t

/-- Locate bytes of an operation. -/
def eLocate (s : State) (v : View) (t : Target) (n : Nat) (blockMig : Bool) : Except EHalt Located :=
  match locate s v t n blockMig with
  | .ok l => .ok l
  | .error (.absent kind lvl off) => .error (.page (v.ctx.getD 0) t.slot off kind lvl)
  | .error (.refused off) => .error (.sub 4 (some (word (t.slot * 2 ^ 52 + off))))

/-- Read bytes of an operation of hart `a`: the bytes, whether poisoned, and what it used. A remote device's bytes are in `State.inp` from `skip` on; its
refusal is RIGHTS, its ABSENT stops the hart (KIND 3: the remote device holds the record), and a lost request reads as poison (R20, R147, R400). A write of
the hart that has not performed is waited for where it touches the same bytes or the same vault (R41, R69). -/
def eRead (s : State) (a : Agent) (v : View) (t : Target) (n skip : Nat) (blockMig : Bool := false) : ERes (List Byte × Bool × Located) :=
  match t.home with
  | .remote =>
    if s.inp.n = 1 then checked (.error (.sub 4 none))
    else if s.inp.n = 2 then checked (.error (.page (v.ctx.getD 0) t.slot t.off 3 0))
    else .ok (((s.inp.bytes.drop skip) ++ List.replicate n 0).take n, decide (s.inp.n = 3) || !routed s (bits t.desc.ptr 0 9), ⟨[], [], false, none⟩)
  | _ => do
    let l ← checked (eLocate s v t n blockMig)
    if mayOverlap s a l.keys || vaultBusy s a t then checked (.error .busy)
    else .ok (s.bytesAt l, s.poisoned l.keys, l)

/-- The reads `x` of `n` bytes each, as used. -/
def usedBy (n : Nat) (x : List (Target × Located)) : Used :=
  (x.flatMap fun e => e.2.leaves, (x.filter fun e => e.2.watched).map fun e => (e.1.slot, e.1.off, n))

/-- A is set on the leaf entries that an operation's reads used, and its reads that hit a watch filter are recorded (R142, R157, R158). -/
def noteReads (s : State) (a : Agent) (r : Nat) (u : Used) : State :=
  u.2.foldl (fun s e => watchRecords s (filterHits s r e.1 e.2.1 e.2.2 true false) r e.1 e.2.1 6 a) (touchLeaves s u.1.dedup false)

/-- Read the words of a list that an operation names, each an access of its own; a poisoned one is subcause POISON. -/
def eWords (s : State) (a : Agent) (v : View) (o : Word) (n size : Nat) : ERes (List Nat × Used) := do
  let t ← checked (eRef s v o (n * size) 1)
  let (b, p, l) ← eRead s a v t (n * size) 0
  let u : Used := (l.leaves, if l.watched then (List.range n).map fun i => (t.slot, t.off + size * i, size) else [])
  if p then .error (.sub 7 none, u) else .ok ((List.range n).map fun i => numOfBytes ((b.drop (size * i)).take size), u)

/-- The block that a kick names: 8 doublewords of the context's engine command object on the die. -/
def readBlock (s : State) (d h : Nat) (k : Kick) : ERes (List Word × Used) :=
  match s.ctx k.ctx with
  | none => checked (.error (.sub 3 none))
  | some x => do
    let o := word (bits (x.blocks.getD d 0) 52 12 * 2 ^ 52 + 64 * k.idx)
    let (l, u) ← eWords s (.hart d h) ⟨some k.ctx, none, 0, false, true⟩ o 8 8
    .ok (l.map word, u)

/-! ### The walk -/

/-- An element of the walk: place in the order, source and destination. -/
structure Item where
  src : ElemRef
  dst : ElemRef
  deriving DecidableEq, Repr

/-- The index tuples of a walk, i0 fastest (R111). -/
def tuples (b : List Word) : List (List Nat) :=
  (List.range (blkN b 3)).flatMap fun i3 => (List.range (blkN b 2)).flatMap fun i2 =>
    (List.range (blkN b 1)).flatMap fun i1 => (List.range (blkN b 0)).map fun i0 => [i0, i1, i2, i3]

/-- A coordinate word plus offsets, exact; none where a sum reaches 65 536. -/
def sumCoords (c : Word) (i : List Nat) : Option (List Int) :=
  let l := (List.range 4).map fun d => coordOf c d + i.getD d 0
  if l.any fun x => decide (65536 ≤ x) then none else some (l.map Int.ofNat)

/-- An element of a layout for an operation (R25, R17, R111). -/
def eElem (s : State) (v : View) (e : Vec) (c : Option (List Int)) (rts : Nat) : Except EHalt ElemRef :=
  match c.bind fun c => (layoutElem e c).map fun r => (c, r) with
  | none => .error (.sub 3 none)
  | some (c, o, lo) =>
    if rts &&& 2 != 0 && bit (layWord e 7) 17 then .error (.sub 4 none)
    else (eRef s v o (elemBytes (fmtWidth (layFmt e))) rts).map fun t => ⟨t, o, lo, packCoords c⟩

/-- Offsets of the source and the destination of a tuple: GATHER and SCATTER take coordinate 1 from the index list (R114). -/
def offsets (op : Nat) (idx : List Nat) (i : List Nat) : List Nat × List Nat :=
  let j := [i.getD 0 0, idx.getD (i.getD 1 0) 0, i.getD 2 0, i.getD 3 0]
  if op = 8 then (j, i) else if op = 9 then (i, j) else (i, i)

/-- The items of a walk up to the first element that fails, with that failure and the tuples from it on. -/
def items (s : State) (v : View) (b : List Word) (es ed : Vec) (op dr : Nat) (idx : List Nat) :
    List (List Nat) → List Item × Option (EHalt × List (List Nat))
  | [] => ([], none)
  | i :: r =>
    let (a, z) := offsets op idx i
    let one : Except EHalt Item := do
      let x ← eElem s v es (sumCoords (blkWord b 1) a) 1
      let y ← eElem s v ed (sumCoords (blkWord b 2) z) dr
      .ok (Item.mk x y)
    match one with
    | .error h => ([], some (h, i :: r))
    | .ok x => let (l, f) := items s v b es ed op dr idx r; (x :: l, f)

/-- The granules, by object slot and granule of its offsets, that an element's bytes lie in. -/
def elemGrans (n : Nat) (x : ElemRef) : List (Nat × Nat) :=
  let a := (x.t.base + x.t.off) / 16
  let z := (x.t.base + x.t.off + n - 1) / 16
  (List.range (z - a + 1)).map fun i => (x.t.slot, a + i)

/-- A destination as a write in flight carries it (R107): scratchpads and accumulator regions by their cell. -/
def placeDesc (t : Target) : Desc :=
  match t.home with
  | .scratch c => ⟨word (2 ^ 63 + t.len), word (c * 2 ^ 18 + t.base), 0, 0⟩
  | .accum c => ⟨word (2 ^ 63 + 6 * 2 ^ 57 + t.len), word (c * 2 ^ 18), 0, 0⟩
  | _ => t.desc

/-- The write of a hart for a kick, as a write in flight. -/
def hartWrite (d h : Nat) (k : Kick) (t : Target) (eff : Effect) : Posted :=
  ⟨.hart d h, k.ctx, 0, postClass t, placeDesc t, eff, true, 0, 7, false, false, 0, 0, false, false, []⟩

/-- An element that an operation writes: where, its value, and whether its source was poisoned (R113). -/
abbrev EWrite := ElemRef × Nat × Bool

/-- Elements with their values, none poisoned. -/
def plainWrites (l : List (ElemRef × Nat)) : List EWrite := l.map fun x => (x.1, x.2, false)

/-- Group elements by the page of their first byte, in order. -/
def byPage (l : List EWrite) : List (List EWrite) :=
  let key (x : EWrite) : Nat × Nat := (x.1.t.slot, x.1.t.off / 2 ^ 16)
  (l.map key).dedup.map fun p => l.filter fun x => key x == p

/-- What becomes of an element's write: it performs at once; its place cannot take it yet, or lies on another device; or an earlier write of the hart, which
has not performed, comes first: one to the same bytes or vault, and for a fill, which is a release, any (R41, R69, R70). -/
inductive EPlace where
  | now (l : Located)
  | away
  | late
  deriving DecidableEq, Repr

/-- The place of an element's write. -/
def ePlace (s : State) (v : View) (a : Agent) (n : Nat) (x : EWrite) : EPlace :=
  match locate s v x.1.t n true with
  | .error _ => .away
  | .ok l =>
    if isRemoteHome x.1.t then .away
    else if (anyScratch x.1.t && (s.posted ++ s.held).any fun q => q.agent == a) || mayOverlap s a l.keys || vaultBusy s a x.1.t then .late
    else .now l

/-- Elements with what becomes of them, so that no granule is written twice: where an element of an object cannot be written yet, every element of that
object which could be waits with it (R112). -/
def writtenOnce (l : List (EPlace × EWrite)) : List (EPlace × EWrite) :=
  let busy := (l.filter fun x => decide (x.1 = .late)).map fun x => x.2.1.t.slot
  l.map fun x => match x.1 with | .now _ => if busy.contains x.2.1.t.slot then (.late, x.2) else x | _ => x

/-- Write elements of width `w` to their destinations (R32, R33, R112): scratchpad granules become full; a page that is absent or migrating
holds its writes (R146). -/
def eWrite (s : State) (v : View) (d h : Nat) (k : Kick) (w : Nat) (l : List EWrite) : State :=
  let n := elemBytes w
  let piece (x : EWrite) : Piece := ⟨x.1.o, x.1.lo, w, x.2.1, x.1.c, x.2.2⟩
  let l := writtenOnce (l.map fun x => (ePlace s v (.hart d h) n x, x))
  let there := l.filterMap fun x => match x.1 with | .now a => some (a, x.2) | _ => none
  let scr := there.filter fun x => anyScratch x.2.1.t
  let rest := there.filter fun x => !anyScratch x.2.1.t
  let hit (s : State) (x : Located × EWrite) : State :=
    if x.1.watched then
      watchRecords s (filterHits s k.ctx x.2.1.t.slot x.2.1.t.off n false true) k.ctx x.2.1.t.slot x.2.1.t.off 7 (.hart d h)
    else s
  let s1 := writePieces (writePieces s (scr.map fun x => (x.1, piece x.2)) true) (rest.map fun x => (x.1, piece x.2)) false
  let s1 := rest.foldl hit s1
  let send (f : State → Posted → State) (s : State) (g : List EWrite) : State :=
    match g with
    | x :: _ => f s (hartWrite d h k x.1.t (.pieces (g.map piece) (anyScratch x.1.t)))
    | [] => s
  let s1 := (byPage ((l.filter fun x => decide (x.1 = .late)).map (·.2))).foldl (send fun s p => { s with posted := s.posted ++ [p] }) s1
  (byPage ((l.filter fun x => decide (x.1 = .away)).map (·.2))).foldl (send landWrite) s1

/-- WCMP0 of the cell whose scratchpad an operation reaches: the hit is recorded, and asks for a stop there while stops are enabled (R160). -/
def eWatch (s : State) (l : List (ElemRef × Nat × Bool)) : State :=
  l.foldl (fun s x =>
    match x.1.t.home with
    | .scratch c =>
      let dbg := (((s.cell c).ctx.bind s.ctx).map fun y => y.dbgctl).getD 0
      if !scratchMatch s c (x.1.t.base + x.1.t.off) x.2.1 (!x.2.2) x.2.2 then s
      else if bit dbg 0 then requestStop (recordHit s c 0 none) c 2 else recordHit s c 0 none
    | _ => s) s

/-- The sources of items read in order: (value, poisoned, located). -/
def readSources (s : State) (a : Agent) (v : View) (w : Nat) : Nat → List ElemRef → ERes (List (Nat × Bool × Located))
  | _, [] => .ok []
  | j, x :: r => do
    let (b, p, l) ← eRead s a v x.t (elemBytes w) (j * w / 8)
    let xs ← following (usedBy (elemBytes w) [(x.t, l)]) (readSources s a v w (j + 1) r)
    .ok ((elemValue w x.lo b, p, l) :: xs)

/-- What the reads of source elements used. -/
def sourcesUsed (w : Nat) (l : List ElemRef) (vals : List (Nat × Bool × Located)) : Used :=
  usedBy (elemBytes w) (List.zip (l.map (·.t)) (vals.map (·.2.2)))

/-! ### How an operation ends -/

/-- The end of an operation: a mailbox with subcause, flags and count; a stop at a page; a contribution passed on; or a wait. -/
inductive OpEnd where
  | ends (s : State) (sub : Nat) (fl : BitVec 6) (n : Nat)
  | stops (s : State) (h : EHalt)
  | passed (s : State)
  | waits
  deriving Repr

/-- What the frame checks do to the context `r` of an operation of die `d` that they refuse (R140). -/
def refusedAt (s : State) (r d : Nat) (o : Option Word) : State :=
  match o with
  | some o => refuseAccess s r d o
  | none => s

/-- The end that a halt of hart (d, h) gives, behind what its reads used: a stop at a page, or a mailbox that counts nothing. -/
def haltEnd (s : State) (d h : Nat) (k : Kick) (e : EHalt × Used) : OpEnd :=
  let t := noteReads s (.hart d h) k.ctx e.2
  match e.1 with
  | .page _ _ _ _ _ => .stops t e.1
  | .busy => .waits
  | .sub n o => .ends (refusedAt t k.ctx d o) n 0 0

/-- The mailbox word (Table 5.4). -/
def mailboxWord (b : List Word) (sub : Nat) (fl : BitVec 6) (n : Nat) : Word :=
  word (fields [(24, min n 0xFFFFFF), (8, sub), (2, 0), (6, fl.toNat), (8, if sub = 0 then 0 else 0x13), (16, bits (blkWord b 7) 0 16)])

/-- Write a kick's mailbox, a release behind every access of the harts that took part in its operation, this one and `others` (R71, R119): at once, or in flight
while writes of theirs are. A block that could not be read names no mailbox. -/
def writeMailbox (s : State) (d h : Nat) (others : List Agent) (k : Kick) (b : List Word) (w : Word) : State :=
  match if b.isEmpty then .error (trapOf 3) else checkRef s (kickView s k) (blkWord b 4) 8 2 7 with
  | .error _ => s
  | .ok t =>
    let p := { hartWrite d h k t (.bytes (blkWord b 4) (bytesOf 8 w.toNat) (anyScratch t)) with behind := others }
    let s := eWatch s [(⟨t, blkWord b 4, 0, 0⟩, 8, true)]
    if (s.posted ++ s.held).any fun q => q.agent == .hart d h || others.contains q.agent then { s with posted := s.posted ++ [p] }
    else landWrite s p

/-- End a kick's operation: mailbox, flags into the context's flag word (R120), one copy in flight less (R359). -/
def endKick (s : State) (d h : Nat) (k : Kick) (b : List Word) (sub : Nat) (fl : BitVec 6) (n : Nat) (others : List Agent := []) : State :=
  let s := writeMailbox s d h others k b (mailboxWord b sub fl n)
  let s := s.onCtx k.ctx fun x => { x with flags := x.flags ||| fl }
  match k.queue with
  | some q => s.setQueue q { s.queue q with copies := (s.queue q).copies - 1 }
  | none => s

/-- Record the fault of a hart at a page (R121, R149), or none for a page of another device, which holds the record (R147); the access kind is Table
6.7's. -/
def hartFault (s : State) (d h acc : Nat) : EHalt → State × Option (Nat × Nat × Nat)
  | .page r slot off 3 _ => (s, some (r, slot, off))
  | .page r slot off kind lvl =>
    let (s, lost) := faultRecord s (.hart d h) r slot acc kind lvl off
    (if lost then s.setHart d h { s.hart d h with mark := true } else s, some (r, slot, off))
  | _ => (s, none)

/-- A hart stops at a page in what `why` names (R121). -/
def hartStops (s : State) (d h : Nat) (why : HartStop) (e : EHalt) : State :=
  let (s, p) := hartFault s d h 6 e
  s.setHart d h { s.hart d h with stopped := p, why := why }

/-- The two layout entries that a block names: source and destination. -/
def blockLays (s : State) (v : View) (b : List Word) : List Vec :=
  [layoutEntry s v (bits (blkWord b 0) 8 6), layoutEntry s v (bits (blkWord b 0) 14 6)]

/-- Run the operation at the head of hart (d, h)'s FIFO when it is one of the event's own (DEDUCED, log entry 18). Its layout entries are read once: an
operation that stops at a page keeps them (R27, R111). Microcode with a form that a hart does not have ends it with BADBLK and a record of the die firmware
core (Table 8.4 step 3; DESIGN CHOICE, log entry 76). -/
def runHead (s : State) (mine : List Word → Bool) (run : State → Nat → Nat → Kick → List Word → List Vec → OpEnd) : Host.Outcome State Fault Refusal :=
  let d := s.inp.die
  let h := s.inp.hart
  let x := s.hart d h
  match x.fifo with
  | [] => .next s
  | k :: rest =>
    if x.stopped.isSome then .next s
    else
      let pop (s : State) : State := s.setHart d h { s.hart d h with fifo := rest, lays := none }
      match readBlock s d h k with
      | .error (.page r slot off kind lvl, u) => .next (hartStops (noteReads s (.hart d h) k.ctx u) d h .head (.page r slot off kind lvl))
      | .error (.busy, _) => .next s
      | .error (.sub n o, u) =>
        if mine [] then .next (endKick (pop (refusedAt (noteReads s (.hart d h) k.ctx u) k.ctx d o)) d h k [] n 0 0) else .next s
      | .ok (b, u) =>
        if !mine b then .next s
        else
          let ls := x.lays.getD (blockLays s (kickView s k) b)
          let t := noteReads s (.hart d h) k.ctx u
          match if !microLegal s.fw.micro s.fw.micro.length then .ends (errorRecord t 11 2 (some k.ctx) d 1 h 0) 1 0 0
            else if blockLegal h b then run t d h k b ls else .ends t 1 0 0 with
          | .ends t sub fl n => .next (endKick (pop t) d h k b sub fl n)
          | .stops t e => .next (hartStops (t.setHart d h { x with lays := some ls }) d h .head e)
          | .passed t => .next (pop t)
          | .waits => .next s

/-! ### COPY, GATHER, SCATTER and REDUCE -/

/-- The format code of RFMT (R115). -/
def rfmtCode (r : Nat) : Nat := if r = 0 then 0x00 else if r = 1 then 0x01 else 0x10

/-- Formula (5.1) on the bits of two elements. -/
def reduceAdd (r a b : Nat) : Nat × BitVec 6 :=
  if r = 2 then ((a + b) % 2 ^ 32, 0)
  else
    let f := if r = 0 then fp32 else bf16
    let (x, fl) := fadd (fdecode f a) (fdecode f b)
    let (n, fl') := arith f x
    (n, fl ||| fl')

/-- The layouts of an operation, checked (R111, R113, R115). Of an ALLGATHER, which moves bits as the copies do, they must be of one width too (DESIGN CHOICE,
log entry 93). -/
def opLayouts (s : State) (v : View) (b : List Word) (ls : List Vec) : Except EHalt (Vec × Vec) := do
  let es := ls.getD 0 0
  let ed := ls.getD 1 0
  let arith := blkOp b == 2 || blkOp b == 0x10 || blkOp b == 0x12
  if !(layoutUsable s v es && layoutUsable s v ed) then .error (.sub 2 none)
  else if arith && !(layFmt es == rfmtCode (blkRfmt b) && layFmt ed == rfmtCode (blkRfmt b)) then .error (.sub 6 none)
  else if !arith && fmtWidth (layFmt es) != fmtWidth (layFmt ed) then .error (.sub 6 none)
  else .ok (es, ed)

/-- The granules that an operation which fails at a later element may have written by then: complete ones before it, as a free choice
(R112, R121, DESIGN CHOICE, log entry 17). -/
def releasedItems (s : State) (n : Nat) (done later : List ElemRef) : List Bool :=
  let late := later.flatMap (elemGrans n)
  let order := (done.flatMap (elemGrans n)).dedup
  let ok (g : Nat × Nat) : Bool := !late.contains g && Config.freeChoice s.fresh (order.idxOf g)
  done.map fun x => (elemGrans n x).all ok

/-- Keep the members of a list whose mark is set. -/
def marked {α : Type} (l : List α) (m : List Bool) : List α := ((List.zip l m).filter (·.2)).map (·.1)

/-- The destinations of the tuples from a failing one on, where they resolve. -/
def laterDsts (s : State) (v : View) (b : List Word) (ed : Vec) (op dr : Nat) (idx : List Nat) (l : List (List Nat)) : List ElemRef :=
  l.filterMap fun i =>
    match eElem s v ed (sumCoords (blkWord b 2) (offsets op idx i).2) dr with
    | .ok x => some x
    | .error _ => none

/-- Copy items: each element's bits unchanged, poison carried along (R113). -/
def copyItems (s : State) (v : View) (d h : Nat) (k : Kick) (w : Nat) (l : List Item) (vals : List (Nat × Bool × Located)) : State :=
  let s1 := eWrite s v d h k w ((List.zip (l.map (·.dst)) vals).map fun e => (e.1, e.2.1, e.2.2.1))
  noteReads s1 (.hart d h) k.ctx (sourcesUsed w (l.map (·.src)) vals)

/-- COPY, GATHER and SCATTER (R111 to R114). -/
def copyOp (s : State) (d h : Nat) (k : Kick) (b : List Word) (ls : List Vec) : OpEnd :=
  let v := kickView s k
  let op := blkOp b
  let r : ERes (Vec × (List Nat × Used) × List Item × Option (EHalt × List (List Nat)) × List (Nat × Bool × Located)) := do
    let (es, ed) ← checked (opLayouts s v b ls)
    let idx ← if (op = 8 ∨ op = 9) ∧ (tuples b).length ≠ 0 then eWords s (.hart d h) v (blkWord b 5) (blkN b 1) 4 else .ok ([], [], [])
    let (l, f) := items s v b es ed op 2 idx.1 (tuples b)
    let vals ← following idx.2 (readSources s (.hart d h) v (fmtWidth (layFmt es)) 0 (l.map (·.src)))
    .ok (ed, idx, l, f, vals)
  match r with
  | .error e => haltEnd s d h k e
  | .ok (ed, (idx, u), l, f, vals) =>
    let w := fmtWidth (layFmt ed)
    let s0 := eWatch (noteReads s (.hart d h) k.ctx u) (l.flatMap fun i => [(i.src, elemBytes w, false), (i.dst, elemBytes w, true)])
    match f with
    | none => .ends (copyItems s0 v d h k w l vals) 0 0 l.length
    | some (.page r slot off kind lvl, _) => .stops s0 (.page r slot off kind lvl)
    | some (.busy, _) => .waits
    | some (.sub n o, later) =>
      let m := releasedItems s (elemBytes w) (l.map (·.dst)) (laterDsts s v b ed op 2 idx later)
      let s1 := copyItems { s0 with fresh := s.fresh + 1 } v d h k w (marked l m) (marked vals m)
      .ends (refusedAt s1 k.ctx d o) n 0 (marked l m).length

/-- The value that stands at a destination element: in a memory, or as a remote device has answered. -/
def destValue (s : State) (m : List Host.Cell) (w : Nat) (x : ElemRef) (a : List Byte × Bool × Located) : Nat :=
  elemValue w x.lo (if isRemoteHome x.t then a.1 else { s with mem := m }.bytesAt a.2.2)

/-- Add sources into destinations one element after the other (R115, R116): the writes and the flags. -/
def addInto (s : State) (r w : Nat) : List Host.Cell → List (ElemRef × (List Byte × Bool × Located) × Nat) → List (ElemRef × Nat) × BitVec 6
  | _, [] => ([], 0)
  | m, (x, a, c) :: rest =>
    let (y, fl) := reduceAdd r (destValue s m w x a) c
    let (l, fl') := addInto s r w (writePiece m a.2.2.keys ⟨x.o, x.lo, w, y, 0, false⟩) rest
    ((x, y) :: l, fl ||| fl')

/-- Read destinations for an addition, which a migrating page stops (R155); the operation waits until each can be written in the same step, for its read,
addition and write are one action (R116). Remote values follow the `j` elements before them in the answer. -/
def readDsts (s : State) (a : Agent) (v : View) (w : Nat) : Nat → List ElemRef → ERes (List (List Byte × Bool × Located))
  | _, [] => .ok []
  | j, x :: r => do
    let y ← eRead s a v x.t (elemBytes w) (j * w / 8) true
    if ePlace s v a (elemBytes w) (x, 0, false) = .late then checked (.error .busy)
    else
      let l ← following (usedBy (elemBytes w) [(x.t, y.2.2)]) (readDsts s a v w (j + 1) r)
      .ok (y :: l)

/-- REDUCE with O = 0 (R116). -/
def reduceOp (s : State) (d h : Nat) (k : Kick) (b : List Word) (ls : List Vec) : OpEnd :=
  let v := kickView s k
  let r : ERes (Vec × List Item × Option (EHalt × List (List Nat)) × List (Nat × Bool × Located) × List (List Byte × Bool × Located)) := do
    let (es, ed) ← checked (opLayouts s v b ls)
    let (l, f) := items s v b es ed 2 3 [] (tuples b)
    let w := fmtWidth (layFmt es)
    let vals ← readSources s (.hart d h) v w 0 (l.map (·.src))
    let dsts ← following (sourcesUsed w (l.map (·.src)) vals) (readDsts s (.hart d h) v w l.length (l.map (·.dst)))
    .ok (ed, l, f, vals, dsts)
  match r with
  | .error e => haltEnd s d h k e
  | .ok (ed, l, f, vals, dsts) =>
    let w := fmtWidth (layFmt ed)
    let s0 := eWatch s (l.flatMap fun i => [(i.src, elemBytes w, false), (i.dst, elemBytes w, false), (i.dst, elemBytes w, true)])
    let bad (e : (Nat × Bool × Located) × (List Byte × Bool × Located)) : Bool := e.1.2.1 || e.2.2.1
    let good := ((List.zip vals dsts).takeWhile fun e => !bad e).length
    let all := List.zip (l.map (·.dst)) (List.zip dsts (vals.map (·.1)))
    let used := sourcesUsed w (l.map (·.src) ++ l.map (·.dst)) (vals ++ dsts.map fun e => (0, e.2))
    let write (s : State) (xs : List (ElemRef × (List Byte × Bool × Located) × Nat)) : State × BitVec 6 :=
      let (ws, fl) := addInto s (blkRfmt b) w s.mem xs
      (noteReads (eWrite s v d h k w (plainWrites ws)) (.hart d h) k.ctx used, fl)
    let later := match f with | some (_, t) => laterDsts s v b ed 2 3 [] t | none => []
    if good < l.length then
      let m := releasedItems s (elemBytes w) ((l.map (·.dst)).take good) ((l.map (·.dst)).drop good ++ later)
      let (s1, fl) := write { s0 with fresh := s.fresh + 1 } (marked all m)
      .ends s1 7 fl (marked all m).length
    else
      match f with
      | none => let (s1, fl) := write s0 all; .ends s1 0 fl l.length
      | some (.page r slot off kind lvl, _) => .stops s0 (.page r slot off kind lvl)
      | some (.busy, _) => .waits
      | some (.sub n o, _) =>
        let m := releasedItems s (elemBytes w) (l.map (·.dst)) later
        let (s1, fl) := write { s0 with fresh := s.fresh + 1 } (marked all m)
        .ends (refusedAt s1 k.ctx d o) n fl (marked all m).length

/-! ### Ordered groups (R117) -/

/-- What the first contribution fixes: NCON, LD, DCRD, CNT, RFMT. -/
def groupKey (b : List Word) : List Nat := [blkNcon b, bits (blkWord b 0) 14 6, (blkWord b 2).toNat, (blkWord b 3).toNat, blkRfmt b]

/-- A contribution enters group GRP of its context on hart (d, ch): it opens the group, joins it, or disagrees with it and ends with GROUP. Where 64 groups
are open, or the group is complete, it waits at the hart for a group to close (R117). -/
def joinGroup (s : State) (d ch : Nat) (c : Contribution) : State :=
  let x := s.hart d ch
  let grp := blkGrp c.block
  let waits := s.setHart d ch { x with late := x.late ++ [c] }
  match x.groups.find? fun g => g.1 == c.kick.ctx && g.2.1 == grp with
  | none => if x.groups.length < 64 then s.setHart d ch { x with groups := x.groups ++ [(c.kick.ctx, grp, [c])] } else waits
  | some (_, _, cs) =>
    if cs.any fun e => groupKey e.block != groupKey c.block || contributor s e.kick == contributor s c.kick then endKick s d ch c.kick c.block 8 0 0
    else if blkNcon c.block ≤ cs.length then waits
    else
      s.setHart d ch { x with
        groups := x.groups.map fun g => if g.1 == c.kick.ctx && g.2.1 == grp then (g.1, g.2.1, cs ++ [c]) else g }

/-- A group closes: the contributions that wait at its hart enter theirs, in the order of their arrival (R117). -/
def shutGroup (s : State) (d ch r grp : Nat) : State :=
  let x := s.hart d ch
  let s := s.setHart d ch { x with groups := x.groups.filter fun g => !(g.1 == r && g.2.1 == grp), late := [] }
  x.late.foldl (fun s c => joinGroup s d ch c) s

/-- REDUCE with O = 1: the block is passed to group GRP of the context on collective hart 24 + GRP mod 4 (R117). -/
def enterGroup (s : State) (d : Nat) (k : Kick) (b : List Word) (ls : List Vec) : OpEnd :=
  match checked (opLayouts s (kickView s k) b ls) with
  | .error e => haltEnd s d 0 k e
  | .ok _ => .passed (joinGroup s d (24 + blkGrp b % 4) ⟨k, b, ls, none⟩)

/-- Insert a contribution by its key. -/
def insertBy (s : State) (c : Contribution) : List Contribution → List Contribution
  | [] => [c]
  | e :: r => if contributor s c.kick < contributor s e.kick then c :: e :: r else e :: insertBy s c r

/-- The contributions in key order. -/
def sorted (s : State) (l : List Contribution) : List Contribution := l.foldr (insertBy s) []

/-- The sources of a contribution: its items' values, in the walk, as hart `a` reads them. -/
def groupSources (s : State) (a : Agent) (c : Contribution) : ERes (List Item × List (Nat × Bool × Located)) := do
  let v := kickView s c.kick
  let (es, ed) ← checked (opLayouts s v c.block c.lays)
  match items s v c.block es ed 2 3 [] (tuples c.block) with
  | (_, some (h, _)) => checked (.error h)
  | (l, none) =>
    let vals ← readSources s a v (fmtWidth (layFmt es)) 0 (l.map (·.src))
    .ok (l, vals)

/-- The sources of all contributions, in order. -/
def allSources (s : State) (a : Agent) : List Contribution → ERes (List (List Item × List (Nat × Bool × Located)))
  | [] => .ok []
  | c :: r => do
    let x ← groupSources s a c
    let xs ← following (sourcesUsed (fmtWidth (rfmtCode (blkRfmt c.block))) (x.1.map (·.src)) x.2) (allSources s a r)
    .ok (x :: xs)

/-- Write every contributor's mailbox. -/
def endAll (s : State) (d h : Nat) (cs : List Contribution) (sub : Nat) (fl : BitVec 6) (n : Nat) : State :=
  cs.foldl (fun s c => endKick s d h c.kick c.block sub fl n) s

/-- Add `vals` of one contribution after the other into destination values, element by element (R117 step 3). -/
def foldGroup (r : Nat) : List Nat → List (List Nat) → List Nat × BitVec 6
  | d, [] => (d, 0)
  | d, c :: rest =>
    let x := List.zipWith (reduceAdd r) d c
    let (l, fl) := foldGroup r (x.map (·.1)) rest
    (l, x.foldl (fun f e => f ||| e.2) fl)

/-- `REDUCE_GROUP_COMPLETE` (R117): with NCON contributions in, the collective hart adds them in key order, writes each destination once, and then every
contributor's mailbox. The input names die, context and group. The destination layout is the first contributor's in key order, in whose terms a base in slots
0 to 16 resolves; a source or destination that fails its check, or is poisoned, ends every contributor with that subcause and DONE 0 (DESIGN CHOICE, log
entry 77). -/
def execReduceGroupComplete (s : State) : Host.Outcome State Fault Refusal :=
  let d := s.inp.die
  let h := 24 + s.inp.idx % 4
  let x := s.hart d h
  match x.groups.find? fun g => g.1 == s.inp.ctx && g.2.1 == s.inp.idx with
  | none => .next s
  | some (r, grp, cs) =>
    match sorted s cs with
    | [] => .next s
    | c :: rest =>
      let b := c.block
      if cs.length < blkNcon b ∨ x.stopped.isSome then .next s
      else
        let v := kickView s c.kick
        let res : ERes (List (List Item × List (Nat × Bool × Located)) × List ElemRef × Nat × List (List Byte × Bool × Located)) := do
          let l ← allSources s (.hart d h) (c :: rest)
          let dst := ((l.map (·.1)).headD []).map (·.dst)
          let w := fmtWidth (rfmtCode (blkRfmt b))
          let u := l.map fun e => sourcesUsed w (e.1.map (·.src)) e.2
          let a ← following (u.flatMap (·.1), u.flatMap (·.2)) (readDsts s (.hart d h) v w ((l.map fun e => e.2.length).foldl (· + ·) 0) dst)
          .ok (l, dst, w, a)
        match res with
        | .error (.busy, _) => .next s
        | .error (.page r slot off kind lvl, u) =>
          .next (hartStops (noteReads s (.hart d h) r u) d h (.group r grp) (.page r slot off kind lvl))
        | .error (.sub n o, u) => .next (shutGroup (endAll (refusedAt (noteReads s (.hart d h) r u) r d o) d h cs n 0 0) d h r grp)
        | .ok (l, dst, w, a) =>
          let note (s : State) : State := noteReads (l.foldl (fun s e => noteReads s (.hart d h) r (sourcesUsed w (e.1.map (·.src)) e.2)) s)
            (.hart d h) r (sourcesUsed w dst (a.map fun e => (0, e.2)))
          if (l.any fun e => e.2.any fun y => y.2.1) || a.any fun y => y.2.1 then .next (shutGroup (endAll (note s) d h cs 7 0 0) d h r grp)
          else
            let base := List.zipWith (fun x y => destValue s s.mem w x y) dst a
            let (vals, fl) := foldGroup (blkRfmt b) base (l.map fun e => e.2.map (·.1))
            let s1 := note (eWrite s v d h c.kick w (plainWrites (List.zip dst vals)))
            let s1 := eWatch s1 (l.flatMap fun e => e.1.map fun i => (i.src, elemBytes w, false))
            .next (shutGroup (endAll (eWatch s1 (dst.map fun x => (x, elemBytes w, true))) d h cs 0 fl dst.length) d h r grp)

/-! ### Collectives (R118) -/

/-- A member list entry: device, die, context; none when a bit above them is set. -/
def memberOf (n : Nat) : Option (Nat × Nat × Nat) :=
  if n / 2 ^ 21 = 0 then some (n % 512, n / 512 % 4, n / 2048 % 1024) else none

/-- A list of options, when each is there. -/
def allSome {α : Type} : List (Option α) → Option (List α)
  | [] => some []
  | none :: _ => none
  | some a :: r => (allSome r).map (a :: ·)

/-- The member list of a block. An entry with a bit above its fields set ends the member with BADBLK (DESIGN CHOICE, log entry 78). -/
def memberList (s : State) (a : Agent) (k : Kick) (b : List Word) : ERes (List (Nat × Nat × Nat) × Used) := do
  let (l, u) ← eWords s a (kickView s k) (blkWord b 5) (blkNcon b) 8
  match allSome (l.map memberOf) with
  | some m => .ok (m, u)
  | none => .error (.sub 1 none, u)

/-- The entered member `i` of a group at its die and context, with its hart. -/
def enteredMember (s : State) (i grp : Nat) (m : Nat × Nat × Nat) : Option (Nat × Contribution) :=
  ([24, 25, 26, 27].filterMap fun h =>
    ((s.hart m.2.1 h).members.find? fun c => c.kick.ctx == m.2.2 && blkGrp c.block == grp && blkMe c.block == i).map fun c => (h, c)).head?

/-- What the members' blocks must agree in: OP, GRP, NCON, RFMT where it is used, and CNT. -/
def collKey (b : List Word) : List Nat :=
  [blkOp b, blkGrp b, blkNcon b, if blkOp b = 0x11 then 0 else blkRfmt b, (blkWord b 3).toNat]

/-- Whether a context may reach a peer: itself, or one that a grant of its table names (R118). -/
def reachable (s : State) (r : Nat) (m : Nat × Nat × Nat) : Bool :=
  (m.1 == s.devId.toNat && m.2.2 == r)
    || ((s.ctx r).any fun x => x.grants.any fun g => g.2.1 == m.1 && g.2.2.1 == m.2.2)

/-- Whether a member's block agrees with a peer's, and its list with the list `ms`, as its own hart reads it. -/
def agreesWith (s : State) (b : List Word) (ms : List (Nat × Nat × Nat)) (m : Nat × Nat × Contribution) : Bool :=
  collKey m.2.2.block == collKey b
    && (match memberList s (.hart m.1 m.2.1) m.2.2.kick m.2.2.block with | .ok x => x.1 == ms | .error _ => false)
    && ms.all (reachable s m.2.2.kick.ctx)

/-- The walk of one member of a collective: tuple counts of its source and destination, and where the destination's coordinate 1 starts. -/
def collBlock (b : List Word) (n1 off1 : Nat) (dst : Bool) : List Word :=
  let c := blkWord b 3
  let w3 := word (fields [(16, coordOf c 0), (16, n1), (16, coordOf c 2), (16, coordOf c 3)])
  let shift (x : Word) : Word := if dst then x + word (off1 * 2 ^ 16) else x
  [blkWord b 0, blkWord b 1, shift (blkWord b 2), w3, blkWord b 4, 0, 0, blkWord b 7]

/-- The element references of one side of a member's walk, offset by `off1` in coordinate 1. -/
def collElems (s : State) (v : View) (e : Vec) (crd : Word) (b : List Word) (n1 off1 rts : Nat) : Except EHalt (List ElemRef) :=
  (tuples (collBlock b n1 0 false)).foldr (fun i r => do
    let x ← eElem s v e (sumCoords crd [i.getD 0 0, i.getD 1 0 + off1, i.getD 2 0, i.getD 3 0]) rts
    let xs ← r
    .ok (x :: xs)) (.ok [])

/-- A member's source: the elements and their values, as its hart reads them. -/
def memberSource (s : State) (a : Agent) (c : Contribution) : ERes (List ElemRef × List (Nat × Bool × Located)) := do
  let v := kickView s c.kick
  let (es, _) ← checked (opLayouts s v c.block c.lays)
  let l ← checked (collElems s v es (blkWord c.block 1) c.block (blkN c.block 1) 0 1)
  let vals ← readSources s a v (fmtWidth (layFmt es)) 0 l
  .ok (l, vals)

/-! #### Members on other devices

Each member sends to the devices of the others first what its block says (OP, GRP, NCON, RFMT, CNT and the member list, seven words a packet), then its
source, in packets of up to seven values and a word of poison bits. The header's SRC field holds member and group, its DEST field the packet's place, SRC bit
16 that the sender's group has ended with GROUP, SRC bit 17 that the packet holds the block's words (DESIGN CHOICE, log entry 75). -/

/-- What a packet of a collective brings: the end of the sender's group, words of its block, or values of its source. -/
inductive ExchangeKind where
  | fail
  | key
  | data
  deriving DecidableEq, Repr

/-- The header of a collective's packet. -/
def exchangeHeader (grp me n len : Nat) (kind : ExchangeKind) : Word :=
  word (fields [(4, 0), (4, len), (3, 6), (5, 0), (8, me), (8, grp), (1, b2n (kind == .fail)), (1, b2n (kind == .key)), (6, 0), (24, n)])

/-- What a collective's packet brings, from its header. -/
def exchangeKind (m : Msg) : ExchangeKind := if bit m.hdr 32 then .fail else if bit m.hdr 33 then .key else .data

/-- The packets' payloads of a source, each with its place. -/
def exchangeParts (n : Nat) : Nat → List (Nat × Bool) → List (Nat × List Word)
  | 0, _ => []
  | fuel + 1, l =>
    if l.isEmpty then []
    else
      let a := l.take 7
      (n, a.map (fun e => word e.1) ++ [word (fields (a.map fun e => (1, b2n e.2)))]) :: exchangeParts (n + 1) fuel (l.drop 7)

/-- The words in which the members of a group must agree, in packets of seven. -/
def keyParts (b : List Word) (ms : List (Nat × Nat × Nat)) : List (Nat × List Word) :=
  let w := (collKey b).map word ++ ms.map fun m => word (m.1 + 512 * m.2.1 + 2048 * m.2.2)
  (List.range ((w.length + 6) / 7)).map fun i => (i, (w.drop (7 * i)).take 7)

/-- Send packets of member `me` of a group to each member of another device. -/
def exchangeWith (s : State) (r grp me : Nat) (kind : ExchangeKind) (ms : List (Nat × Nat × Nat)) (parts : List (Nat × List Word)) : State :=
  let away := ((ms.filter fun m => m.1 != s.devId.toNat).map fun m => (m.1, m.2.2)).dedup
  away.foldl (fun s m => parts.foldl (fun s p =>
    sendPacket s ⟨s.devId.toNat, r, m.1, m.2, 0, 24, 0, ⟨exchangeHeader grp me p.1 p.2.length kind, p.2, 0, 0, none, 0, me, true, none, none⟩⟩) s) s

/-- Who sent a collective's packet that a context holds: device, context, member and group. -/
def exchangeSender (e : Nat × Nat × Msg) : Nat × Nat × Nat × Nat := (e.1, e.2.1, bits e.2.2.hdr 16 8, bits e.2.2.hdr 24 8)

/-- Whether a packet is the first that its sender sends for one operation. -/
def exchangeStart (m : Msg) : Bool := exchangeKind m == .key && bits m.hdr 40 24 == 0

/-- The packets of a sender that belong to the first operation it has packets of, out of what a context holds. -/
def firstRound (l : List (Nat × Nat × Msg)) (who : Nat × Nat × Nat × Nat) : List Msg :=
  match (l.filter fun e => exchangeSender e == who).map (·.2.2) with
  | [] => []
  | m :: rest => m :: rest.takeWhile fun e => !exchangeStart e

/-- What a context holds of the packets of collectives. -/
def State.exchange (s : State) (r : Nat) : List (Nat × Nat × Msg) := ((s.ctx r).map fun x => x.exchange).getD []

/-- The source of a member on another device, once all `n` values are there. -/
def exchangedSource (s : State) (r grp i n : Nat) (m : Nat × Nat × Nat) : Option (List (Nat × Bool)) :=
  let l := firstRound (s.exchange r) (m.1, m.2.2, i, grp)
  (allSome ((List.range ((n + 6) / 7)).map fun j => l.find? fun e => bits e.hdr 40 24 == j && exchangeKind e == .data)).map fun l =>
    l.flatMap fun e => (e.pay.dropLast.zipIdx).map fun x => (x.1.toNat, bit (e.pay.getLastD 0) x.2)

/-- Whether a sender on another device has ended the group or disagrees with a block of this one: in its words, or in the place at which it stands in the list
(R118). -/
def exchangeFailed (s : State) (r grp : Nat) (b : List Word) (ms : List (Nat × Nat × Nat)) : Bool :=
  let mine := keyParts b ms
  (((s.exchange r).map exchangeSender).dedup.filter fun w => w.2.2.2 == grp).any fun w =>
    ((ms[w.2.2.1]?).map fun m => (m.1, m.2.2)) != some (w.1, w.2.1) || (firstRound (s.exchange r) w).any fun e =>
      match exchangeKind e with
      | .fail => true
      | .key => !mine.contains (bits e.hdr 40 24, e.pay)
      | .data => false

/-- The packets of a group's operation that has ended leave the context. -/
def dropExchange (s : State) (r grp : Nat) : State :=
  s.onCtx r fun x =>
    let who := (x.exchange.map exchangeSender).dedup.filter fun w => w.2.2.2 == grp
    { x with exchange := who.foldl (fun l w => (firstRound l w).foldl (fun l m => l.erase (w.1, w.2.1, m)) l) x.exchange }

/-! #### The collective -/

/-- The source values of member `i`, each with its poison: as it was sent, read here, or as its device sent it. -/
def collSource (s : State) (r grp i n : Nat) (me : Nat × Nat × Nat) (c : Option (Nat × Nat × Contribution)) :
    ERes (List (Nat × Bool) × List ElemRef × List (Nat × Bool × Located)) :=
  match c with
  | some (d, h, c) =>
    match c.src with
    | some l => .ok (l, [], [])
    | none => (memberSource s (.hart d h) c).map fun x => (x.2.map fun y => (y.1, y.2.1), x.1, x.2)
  | none =>
    match exchangedSource s r grp i n me with
    | some l => .ok (l, [], [])
    | none => checked (.error .busy)

/-- Fold members' values in member order (Formula (5.2)). -/
def foldMembers (r : Nat) : List (List Nat) → List Nat × BitVec 6
  | [] => ([], 0)
  | a :: rest => foldGroup r a rest

/-- Every k-th piece along dimension 1 of a member's values, for REDUCESCATTER: those whose i1 lies in piece `m`. -/
def pieceOf (b : List Word) (m : Nat) (vals : List Nat) : List Nat :=
  let n1 := blkN b 1 / blkNcon b
  ((List.zip (tuples b) vals).filter fun e => decide (e.1.getD 1 0 / n1 = m)).map (·.2)

/-- What a member of this device writes: its destination elements and values. -/
def collWrite (s : State) (c : Contribution) (vals : List (List Nat)) : Except EHalt (List (ElemRef × Nat) × BitVec 6) := do
  let b := c.block
  let v := kickView s c.kick
  let (_, ed) ← opLayouts s v b c.lays
  if blkOp b = 0x10 then
    let (x, fl) := foldMembers (blkRfmt b) vals
    let l ← collElems s v ed (blkWord b 2) b (blkN b 1) 0 2
    .ok (List.zip l x, fl)
  else if blkOp b = 0x12 then
    let (x, fl) := foldMembers (blkRfmt b) (vals.map (pieceOf b (blkMe b)))
    let l ← collElems s v ed (blkWord b 2) b (blkN b 1 / blkNcon b) 0 2
    .ok (List.zip l x, fl)
  else
    let ls ← (List.range vals.length).foldr (fun m r => do
      let x ← collElems s v ed (blkWord b 2) b (blkN b 1) (m * blkN b 1) 2
      let xs ← r
      .ok (List.zip x (vals.getD m []) :: xs)) (.ok [])
    .ok (ls.flatten, 0)

/-- A destination granule of an arithmetic collective that is poisoned ends it with POISON (R115). -/
def dstPoisoned (s : State) (v : View) (w : Nat) (l : List (ElemRef × Nat)) : Bool :=
  l.any fun x => match locate s v x.1.t (elemBytes w) false with | .ok a => s.poisoned a.keys | .error _ => false

/-- The writes of every member of this device, or the first failure. -/
def collWrites (s : State) (w : Nat) (vals : List (List Nat)) : List (Nat × Nat × Contribution) →
    Except EHalt (List ((Nat × Nat × Contribution) × List (ElemRef × Nat) × BitVec 6))
  | [] => .ok []
  | m :: r => do
    let x ← collWrite s m.2.2 vals
    if blkOp m.2.2.block != 0x11 && dstPoisoned s (kickView s m.2.2.kick) w x.1 then .error (.sub 7 none)
    else
      let xs ← collWrites s w vals r
      .ok ((m, x) :: xs)

/-- Take a collective's members off their harts. -/
def dropMembers (s : State) (l : List (Nat × Nat × Contribution)) : State :=
  l.foldl (fun s m => s.setHart m.1 m.2.1 { s.hart m.1 m.2.1 with members := (s.hart m.1 m.2.1).members.filter (· != m.2.2) }) s

/-- End a collective for its members of this device: (die, hart, contribution) with subcause, flags and count. Each mailbox stands behind the writes of every
member's hart (R71). -/
def endMembers (s : State) (l : List ((Nat × Nat × Contribution) × BitVec 6 × Nat)) (sub : Nat) : State :=
  let hs := (l.map fun m => Agent.hart m.1.1 m.1.2.1).dedup
  let s := ((l.map fun m => (m.1.2.2.kick.ctx, blkGrp m.1.2.2.block)).dedup).foldl (fun s g => dropExchange s g.1 g.2) (dropMembers s (l.map (·.1)))
  l.foldl (fun s m => endKick s m.1.1 m.1.2.1 m.1.2.2.kick m.1.2.2.block sub m.2.1 m.2.2 hs) s

/-- The peers of a member of this device that have entered here (die, hart, contribution): those of its group whose place its list `ms` names, whatever their
ME, and those whose lists name its place (R118). -/
def membersHere (s : State) (grp : Nat) (place : Nat × Nat × Nat) (ms : List (Nat × Nat × Nat)) : List (Nat × Nat × Contribution) :=
  (List.range Config.dies).flatMap fun d => [24, 25, 26, 27].flatMap fun h => ((s.hart d h).members.filter fun c =>
    blkGrp c.block == grp && (ms.contains (s.devId.toNat, d, c.kick.ctx)
      || match memberList s (.hart d h) c.kick c.block with | .ok l => l.1.contains place | .error _ => false)).map fun c => (d, h, c)

/-- A group ends with a subcause: its members here, and word to the other devices when its members disagree (R118). -/
def failGroup (s : State) (r grp me : Nat) (ms : List (Nat × Nat × Nat)) (l : List (Nat × Nat × Contribution)) (sub : Nat) : State :=
  let s := endMembers s (l.map fun m => (m, 0, 0)) sub
  if sub = 8 then exchangeWith s r grp me .fail ms [(0, [])] else s

/-- The sources of the members in order. -/
def collSources (s : State) (r grp n : Nat) : List (((Nat × Nat × Nat) × Nat) × Option (Nat × Nat × Contribution)) →
    ERes (List (List (Nat × Bool) × List ElemRef × List (Nat × Bool × Located)))
  | [] => .ok []
  | ((m, i), c) :: rest => do
    let x ← collSource s r grp i n m c
    let xs ← following (usedBy 1 (List.zip (x.2.1.map (·.t)) (x.2.2.map (·.2.2)))) (collSources s r grp n rest)
    .ok (x :: xs)

/-- The local members of a list with their places in it, each with its contribution when it has entered. -/
def roster (s : State) (grp : Nat) (ms : List (Nat × Nat × Nat)) : List (((Nat × Nat × Nat) × Nat) × Option (Nat × Nat × Contribution)) :=
  (ms.zipIdx).map fun e =>
    (e, if e.1.1 = s.devId.toNat then (enteredMember s e.2 grp e.1).map fun x => (e.1.2.1, x.1, x.2) else none)

/-- A collective whose members of this device have all entered: every addition in member order, each destination written, every mailbox (R118). With
members on other devices it waits for their data; an event whose flag is set brings word that a peer cannot be reached. -/
def finishCollective (s : State) (d h : Nat) (c : Contribution) : State :=
  let r := c.kick.ctx
  let b := c.block
  let grp := blkGrp b
  match memberList s (.hart d h) c.kick b with
  | .error (.page r' slot off kind lvl, u) => hartStops (noteReads s (.hart d h) r u) d h (.coll r grp) (.page r' slot off kind lvl)
  | .error (.busy, _) => s
  | .error (.sub n o, u) => endMembers (refusedAt (noteReads s (.hart d h) r u) r d o) [((d, h, c), 0, 0)] n
  | .ok (ms, used) =>
    let here := (roster s grp ms).filter fun e => e.1.1.1 == s.devId.toNat
    match allSome (here.map (·.2)) with
    | none => s
    | some l =>
      let agree := l.all fun m => agreesWith s b ms m
      let zero := l.map fun m => (m, (0 : BitVec 6), 0)
      let n := (tuples b).length
      let named := grp == s.inp.idx && r == s.inp.ctx
      let failed := exchangeFailed s r grp b ms
      if !agree || failed || (s.inp.flag && named) || !(l.any fun m => m.2.2 == c) then failGroup s r grp (blkMe b) ms l 8
      else
        let w := fmtWidth (layFmt (c.lays.getD 0 0))
        let res : ERes (List (List (Nat × Bool) × List ElemRef × List (Nat × Bool × Located)) ×
            List ((Nat × Nat × Contribution) × List (ElemRef × Nat) × BitVec 6)) := do
          let src ← collSources s r grp n (roster s grp ms)
          let u := src.map fun x => usedBy (elemBytes w) (List.zip (x.2.1.map (·.t)) (x.2.2.map (·.2.2)))
          let u : Used := (u.flatMap (·.1), u.flatMap (·.2))
          if blkOp b != 0x11 && src.any (fun x => x.1.any fun y => y.2) then .error (.sub 7 none, u)
          else
            let ws ← following u (checked (collWrites s w (src.map fun x => x.1.map (·.1)) l))
            .ok (src, ws)
        match res with
        | .error (.page r' slot off kind lvl, u) => hartStops (noteReads s (.hart d h) r u) d h (.coll r grp) (.page r' slot off kind lvl)
        | .error (.busy, _) => s
        | .error (.sub n o, u) => endMembers (refusedAt (noteReads s (.hart d h) r u) r d o) zero n
        | .ok (src, ws) =>
          let bad := src.flatMap fun x => x.1.map (·.2)
          let s1 := ws.foldl (fun s m =>
            let l := m.2.1.zipIdx.map fun e => (e.1.1, e.1.2, blkOp b == 0x11 && bad.getD e.2 false)
            eWrite s (kickView s m.1.2.2.kick) m.1.1 m.1.2.1 m.1.2.2.kick w l) s
          let s1 := noteReads s1 (.hart d h) r used
          let s1 := (List.zip (roster s grp ms) src).foldl (fun s e =>
            match e.1.2 with
            | some m => noteReads s (.hart m.1 m.2.1) m.2.2.kick.ctx (sourcesUsed w e.2.2.1 e.2.2.2)
            | none => s) s1
          let s1 := eWatch s1 (src.flatMap fun x => x.2.1.map fun y => (y, elemBytes w, false))
          let s1 := eWatch s1 (ws.flatMap fun m => m.2.1.map fun x => (x.1, elemBytes w, true))
          endMembers s1 (ws.map fun m => (m.1, m.2.2, m.2.1.length)) 0

/-- A member's hart sends its source to the members on other devices, once (R118). -/
def sendSource (s : State) (d h : Nat) (c : Contribution) : State :=
  match c.src, memberList s (.hart d h) c.kick c.block with
  | none, .ok (ms, _) =>
    if ms.all fun m => m.1 == s.devId.toNat then s
    else
      match memberSource s (.hart d h) c with
      | .ok (l, vals) =>
        let src := vals.map fun y => (y.1, y.2.1)
        let s := noteReads s (.hart d h) c.kick.ctx (sourcesUsed (fmtWidth (layFmt (c.lays.getD 0 0))) l vals)
        let x := s.hart d h
        let s := s.setHart d h { x with members := x.members.map fun e => if e = c then { e with src := some src } else e }
        let s := exchangeWith s c.kick.ctx (blkGrp c.block) (blkMe c.block) .key ms (keyParts c.block ms)
        exchangeWith s c.kick.ctx (blkGrp c.block) (blkMe c.block) .data ms (exchangeParts 0 src.length src)
      | .error (.page r slot off kind lvl, u) =>
        hartStops (noteReads s (.hart d h) c.kick.ctx u) d h (.coll c.kick.ctx (blkGrp c.block)) (.page r slot off kind lvl)
      | .error _ => s
  | _, _ => s

/-- Enter a collective member at its hart (R118, R122). One whose block, list or grants disagree with its peers ends with GROUP, and they with it; so does a
second kick of a member that has entered already (DESIGN CHOICE, log entry 93). -/
def enterCollective (s : State) (d h : Nat) (k : Kick) (b : List Word) (ls : List Vec) : OpEnd :=
  match checked (opLayouts s (kickView s k) b ls) with
  | .error e => haltEnd s d h k e
  | .ok _ =>
    match memberList s (.hart d h) k b with
    | .error e => haltEnd s d h k e
    | .ok (ms, u) =>
      let s := noteReads s (.hart d h) k.ctx u
      let x := s.hart d h
      let place := (s.devId.toNat, d, k.ctx)
      let peers := membersHere s (blkGrp b) place ms
      let ok := ms[blkMe b]? == some place && ms.all (reachable s k.ctx)
        && peers.all fun m => agreesWith s b ms m && blkMe m.2.2.block != blkMe b
      if ok then .passed (s.setHart d h { x with members := x.members ++ [⟨k, b, ls, none⟩] })
      else .ends (failGroup s k.ctx (blkGrp b) (blkMe b) ms peers 8) 8 0 0

/-- A collective event of hart (d, h): its head member is entered, sources go to other devices, then a collective of that OP that is complete ends. -/
def collective (s : State) (op : Nat) : Host.Outcome State Fault Refusal :=
  let d := s.inp.die
  let h := s.inp.hart
  let mine (s : State) : List Contribution := if (s.hart d h).stopped.isSome then [] else (s.hart d h).members.filter fun c => blkOp c.block == op
  match runHead s (fun b => blkOp b == op && (opKinds op).contains (hartKind h) && !b.isEmpty) enterCollective with
  | .next t =>
    let t := (mine t).foldl (fun s c => sendSource s d h c) t
    .next ((mine t).foldl (fun s c =>
      if (s.hart d h).members.contains c && (s.hart d h).stopped.isNone then finishCollective s d h c else s) t)
  | o => o

/-! ### Events -/

/-- A hart runs this OP on this event. -/
def ownOp (h op : Nat) (b : List Word) : Bool := !b.isEmpty && blkOp b == op && (opKinds op).contains (hartKind h)

/-- `ENGINE_NOP` (R110): a NOP writes only its mailbox; so ends any block with an OP that the hart does not run, with BADBLK. -/
def execEngineNop (s : State) : Host.Outcome State Fault Refusal :=
  runHead s (fun b => b.isEmpty || blkOp b == 0 || !(opKinds (blkOp b)).contains (hartKind s.inp.hart)) fun s _ _ _ _ _ => .ends s 0 0 0
/-- `ENGINE_COPY` (R113). -/
def execEngineCopy (s : State) : Host.Outcome State Fault Refusal := runHead s (ownOp s.inp.hart 1) copyOp
/-- `ENGINE_REDUCE` (R116, R117). -/
def execEngineReduce (s : State) : Host.Outcome State Fault Refusal :=
  runHead s (ownOp s.inp.hart 2) fun s d h k b ls => if blkOrd b then enterGroup s d k b ls else reduceOp s d h k b ls
/-- `ENGINE_GATHER` (R114). -/
def execEngineGather (s : State) : Host.Outcome State Fault Refusal := runHead s (ownOp s.inp.hart 8) copyOp
/-- `ENGINE_SCATTER` (R114). -/
def execEngineScatter (s : State) : Host.Outcome State Fault Refusal := runHead s (ownOp s.inp.hart 9) copyOp
/-- `ENGINE_ALLREDUCE` (R118). -/
def execEngineAllreduce (s : State) : Host.Outcome State Fault Refusal := collective s 0x10
/-- `ENGINE_ALLGATHER` (R118). -/
def execEngineAllgather (s : State) : Host.Outcome State Fault Refusal := collective s 0x11
/-- `ENGINE_REDUCESCATTER` (R118). -/
def execEngineReducescatter (s : State) : Host.Outcome State Fault Refusal := collective s 0x12

/-! ### Kicks (R108) -/

/-- Whether a kick is refused, and why: a subcause; or the page its check waits for. A block whose MBOX word is poisoned is refused with KERR 0x07 (DESIGN
CHOICE, log entry 81). Answers what the check read. -/
def kickCheck (s : State) (d h : Nat) (k : Kick) (v : Word) : ERes Used := do
  if bits v 16 48 ≠ 0 then checked (.error (.sub 1 none))
  else
    match s.ctx k.ctx with
    | none => checked (.error (.sub 3 none))
    | some x =>
      let o := word (bits (x.blocks.getD d 0) 52 12 * 2 ^ 52)
      let w : View := ⟨some k.ctx, none, 0, false, true⟩
      match resolve s w o with
      | .error _ => checked (.error (.sub 3 none))
      | .ok t =>
        if t.len / 64 ≤ k.idx then checked (.error (.sub 3 none))
        else if t.rights &&& 1 = 0 then checked (.error (.sub 4 none))
        else
          let (m, u) ← eWords s (.hart d h) w (o + word (64 * k.idx + 32)) 1 8
          let mb := word (m.headD 0)
          if bits mb 0 3 ≠ 0 then .error (.sub 1 none, u)
          else following u ((checked (eRef s (kickView s k) mb 8 2)).map fun _ => u)

/-- The kick that a posted kick store makes: from a slot it carries the virtual PE of the activation that made it (R107), from a queue C.COPY's mark. -/
def kickOf (p : Posted) (v : Word) : Kick :=
  ⟨p.ctx, p.agent, p.vpe, p.stolen, bits v 0 16, some p, match p.agent with | .queue q => if p.mark then some q else none | _ => none⟩

/-- Acknowledge a kick: its count released, and a command engine told; a C.COPY that is accepted is in flight until it ends (R108, R359). -/
def ackKick (s : State) (k : Kick) (accepted : Bool) : State :=
  let s := match k.post with | some p => uncount s p | none => s
  let s := match k.queue with
    | some q => if accepted then s.setQueue q { s.queue q with copies := (s.queue q).copies + 1 } else s
    | none => s
  match k.agent with
  | .queue q => s.setQueue q { s.queue q with answer := some accepted }
  | _ => s

/-- Refuse a kick: KERR and an error record, its acknowledgement, and what the frame checks do where they refuse its read (R108, R140). -/
def refuseKick (s : State) (d h : Nat) (k : Kick) (v : Word) (n : Nat) (o : Option Word) : State :=
  let s := s.setHart d h { s.hart d h with kerr := (s.hart d h).kerr.put k.ctx n }
  let s := errorRecord s 12 2 (some k.ctx) d 1 (fields [(8, n), (5, h), (3, 0), (16, bits v 0 16)]) 0
  ackKick (refusedAt s k.ctx d o) k false

/-- A kick reaches its hart: refused, queued, or waiting for room (R108). -/
def landKick (s : State) (d h : Nat) (k : Kick) (v : Word) : State :=
  match kickCheck s d h k v with
  | .error (.page r slot off kind lvl, u) =>
    let (s, p) := hartFault (noteReads s (.hart d h) k.ctx u) d h 6 (.page r slot off kind lvl)
    s.setHart d h { s.hart d h with kickStop := p }
  | .error (.busy, _) => s
  | .error (.sub n o, u) => refuseKick (noteReads s (.hart d h) k.ctx u) d h k v n o
  | .ok u =>
    let s := noteReads s (.hart d h) k.ctx u
    let x := s.hart d h
    if x.waiting.isEmpty ∧ x.fifo.length < 16 then ackKick (s.setHart d h { x with fifo := x.fifo ++ [{ k with post := none }] }) k true
    else s.setHart d h { x with waiting := x.waiting ++ [k] }

/-- `ENGINE_KICK` (R106, R108): the i-th write in flight, a kick store, reaches its hart behind every earlier write of its agent. -/
def execEngineKick (s : State) : Host.Outcome State Fault Refusal :=
  match takeAt s.posted s.inp.idx with
  | none => .next s
  | some (p, rest) =>
    match p.eff with
    | .kick d h v =>
      if !inOrder s p (s.posted.take s.inp.idx ++ s.held) (s.posted ++ s.held) || (s.hart d h).kickStop.isSome then .next s
      else
        let u := { s with posted := rest }
        match kickCheck u d h (kickOf p v) v with
        | .error (.busy, _) => .next s
        | _ =>
          let t := landKick u d h (kickOf p v) v
          .next (if (t.hart d h).kickStop.isSome then { t with posted := s.posted } else t)
    | _ => .next s

/-- `KICK_ACCEPT` (R108): a hart with room accepts the oldest waiting kick and acknowledges it. -/
def execKickAccept (s : State) : Host.Outcome State Fault Refusal :=
  let d := s.inp.die
  let h := s.inp.hart
  let x := s.hart d h
  match x.waiting with
  | [] => .next s
  | k :: rest =>
    if x.fifo.length < 16 then
      .next (ackKick (s.setHart d h { x with waiting := rest, fifo := x.fifo ++ [{ k with post := none }] }) k true)
    else .next s

end Sys2Proof.Machine
end

