-- ==== Sys2Proof/Machine/FaultService.lean ====
section
/-! DEFINITION. Fault service (R149 to R156): the fault buffer, retries, migration, shootdowns, and changes of descriptors (R11, R18). What
firmware decides (frames, page-table entries) comes with the event. -/

namespace Sys2Proof.Machine

/-! ### Resuming parked slots -/

/-- Resume a parked slot that a retry has made runnable, unless it was restored as joining a gang (R374), or its cell is stopped or has a request pending, or its context waits behind the pitch
gate (R153, R184, R387, R410): it runs again at its instruction, or serves its stream. -/
def resumeSlot (s : State) (c k : Nat) : State :=
  let l := s.slot c k
  let x := s.cell c
  let free := (match x.stop with | .no => true | .stepping => true | _ => false) && !x.preempt && !s.stoppedAll
    && (match l.gang with | .joining _ _ _ => l.mq.isEmpty | _ => true)
    && (match (x.ctx.bind s.ctx).bind fun y => y.job.bind s.jobs.find with | some j => j.gate | none => true)
  match l.status with
  | .parked _ true _ =>
    if free then
      let st : Status := match streamOf s (x.ctx.getD 0) l with | some src => .stream src | none => .running
      let at' := (l.act.map (handlerPlace s c)).getD (0, 0, 0)
      stepTaken (traceRecord (s.setSlot c k { l with status := st }) c k 6 0 at' 0) c
    else s
  | _ => s

/-- Resume every retried slot of a cell. -/
def resumeCell (s : State) (c : Nat) : State := (List.range 4).foldl (fun s k => resumeSlot s c k) s

/-- A hart goes on whose operation, or whose check of an arriving kick, stands at one of the pages that `p` names (R121). -/
def resumeHart (s : State) (d h : Nat) (p : Nat × Nat × Nat → Bool) : State :=
  let x := s.hart d h
  let clear (o : Option (Nat × Nat × Nat)) : Option (Nat × Nat × Nat) := if o.any p then none else o
  s.setHart d h { x with stopped := clear x.stopped, kickStop := clear x.kickStop }

/-- Send an agent a retry for a page: a slot parked on it becomes runnable, a hart stopped at it goes on; any other of this device ignores it (R153). To an
agent of another device it goes over the link sideband (R147). -/
def sendRetry (s : State) (a : Agent) (pg : Nat × Nat × Nat) : State :=
  match a with
  | .slot c k =>
    match (s.slot c k).status with
    | .parked cause _ (some q) =>
      if samePage s pg q then resumeSlot (s.setSlot c k { s.slot c k with status := .parked cause true (some q), held := false }) c k else s
    | _ => s
  | .hart d h => resumeHart s d h (samePage s pg)
  | .remote dev => { s with reports := s.reports ++ [[9, word dev, word pg.1, word pg.2.1, word pg.2.2]] }
  | _ => s

/-- The agent that a fault record names (Table 6.8). -/
def recordAgent (w2 : Word) : Agent :=
  let aid := bits w2 16 14
  match bits w2 30 2 with
  | 0 => .slot (aid / 4) (aid % 4)
  | 1 => .hart (aid / 28) (aid % 28)
  | 2 => if aid < 64 then .host aid else if aid < 8192 then .queue (aid - 64) else .dfc (aid - 8192)
  | _ => .remote aid

/-- The page that a fault record names. -/
def recordPage (r : List Word) : Nat × Nat × Nat := (bits (r.getD 0 0) 38 10, bits (r.getD 0 0) 26 12, bits (r.getD 1 0) 0 52)

/-- Whether an object page is present and not migrating, and the shootdown of its entry complete, so that retries may be sent (R153, R155). -/
def pageReady (s : State) (pg : Nat × Nat × Nat) : Bool :=
  match s.ctx pg.1 with
  | none => false
  | some x =>
    match walk s.mem (x.objs.getD pg.2.1 Desc.zero) pg.2.2 with
    | .page _ leafAt _ leaf => !bit leaf 7 && !shooting s leafAt
    | .absent _ _ => false

/-- Whether an object page is present and not migrating (R153). -/
def pagePresent (s : State) (pg : Nat × Nat × Nat) : Bool :=
  match s.ctx pg.1 with
  | none => false
  | some x =>
    match walk s.mem (x.objs.getD pg.2.1 Desc.zero) pg.2.2 with
    | .page _ _ _ leaf => !bit leaf 7
    | .absent _ _ => false

/-! ### The fault buffer (R149 to R153) -/

/-- Whether an agent reports to the fault buffer of die `d`. -/
def ofDie (s : State) (d : Nat) (a : Agent) : Bool := dieOfAgent s a == d

/-- A stream register whose held entries from the first that waits for a page on are read again (R127, R151). -/
def reissueStream (q : QReg) : QReg :=
  if q.mode = .stream ∧ (q.ents ++ q.flight).any fun e => e.bad == 5 then
    let keep := q.ents.takeWhile fun e => e.bad != 5
    { q with ents := keep, flight := [], asked := q.popped + keep.length }
  else q

/-- A marked slot reissues its access (R151). -/
def reissueSlot (s : State) (c k : Nat) : State :=
  let l := s.slot c k
  if !l.held then s
  else
    let l := { l with held := false, q := l.q.map reissueStream }
    match l.status with
    | .parked cause _ pg => resumeSlot (s.setSlot c k { l with status := .parked cause true pg }) c k
    | _ => s.setSlot c k l

/-- A marked held write records its fault again, if its page is still absent. -/
def reissueWrite (s : State) (i : Nat) : State :=
  match s.held[i]? with
  | none => s
  | some p =>
    match locateWrite s p (effectRefs p.eff) with
    | .error (.absent kind lvl off, t) =>
      let (s, lost) := faultRecord s p.agent p.ctx t.slot p.acc kind lvl off
      { s with held := s.held.set i { p with mark := lost } }
    | _ => { s with held := s.held.set i { p with mark := false } }

/-- The kind and level of the fault that an access to a page finds, a write or atomic also while the page migrates; none when it may go on. -/
def faultAt (s : State) (pg : Nat × Nat × Nat) : Option (Nat × Nat) :=
  match s.ctx pg.1 with
  | none => none
  | some x =>
    match walk s.mem (x.objs.getD pg.2.1 Desc.zero) pg.2.2 with
    | .page _ _ lvl leaf => if bit leaf 7 then some (1, lvl) else none
    | .absent kind lvl => some (kind, lvl)

/-- A load or atomic from outside whose record found the ring full is reissued: it records its fault again, or its agent gets a retry (R147, R151). -/
def reissueMark (s : State) (m : Agent × Nat × (Nat × Nat × Nat)) : State :=
  match faultAt s m.2.2 with
  | some (kind, lvl) => extFault s m.1 m.2.2.1 m.2.2.2.1 m.2.1 kind lvl m.2.2.2.2
  | none => sendRetry s m.1 m.2.2

/-- Flush the fault buffer of a die up to `tail` (R150; of a full ring, a TAIL equal to HEAD flushes all: DESIGN CHOICE, log
entry 97), and reissue what carries the retry-at-flush mark (R151). -/
def flush (s : State) (d tail : Nat) : State :=
  let b := s.fault d
  let n := (tail + 4096 - b.tail.toNat) % 4096
  let n := if n = 0 ∧ b.recs.length = 4096 then 4096 else n
  let s := s.setFault d { b with recs := b.recs.drop n, tail := BitVec.ofNat 12 tail, gen := b.gen + 1 }
  let s := (s.cells.filter fun p => dieOfCell p.1 == d).foldl (fun s p => (List.range 4).foldl (fun s k => reissueSlot s p.1 k) s) s
  let s := (List.range Config.hartsPerDie).foldl (fun s h =>
    let x := s.hart d h
    if x.mark then s.setHart d h { x with stopped := none, kickStop := none, mark := false } else s) s
  let s := ((s.held.zipIdx).filter fun e => e.1.mark && ofDie s d e.1.agent).foldl (fun s e => reissueWrite s e.2) s
  let (mine, others) := s.marks.partition fun m => ofDie s d m.1
  mine.foldl reissueMark { s with marks := others }

/-- `FAULT_BUFFER_FLUSH` (R150): a write of FBTAIL. -/
def execFaultBufferFlush (s : State) : Host.Outcome State Fault Refusal :=
  if s.inp.die < 4 then .next (flush s s.inp.die (s.inp.n % 4096)) else .next s

/-- Whether a record is a duplicate of a page serviced in an earlier batch: its generation is older than the one that closed the batch, modulo
2^16 within 32 768 (R152). -/
def duplicate (s : State) (b : FaultBuf) (r : List Word) : Bool :=
  b.served.any fun e => samePage s (recordPage r) (e.1, e.2.1, e.2.2.1)
    && decide (1 ≤ (e.2.2.2.toNat + 2 ^ 16 - bits (r.getD 0 0) 48 16) % 2 ^ 16 ∧ (e.2.2.2.toNat + 2 ^ 16 - bits (r.getD 0 0) 48 16) % 2 ^ 16 ≤ 32768)

/-- An address at which firmware may write a page-table entry: aligned, in the HBM4 range (R135). -/
def tableAddr (a : Nat) : Bool := a % 8 == 0 && inHome 2 a

/-- The present entries of the page table at `t`, as the memory lists them. -/
def presentEntries (m : List Host.Cell) (t : Nat) : List Word :=
  (m.filter fun c => decide (t ≤ c.1 ∧ c.1 < t + 4096) && c.1 % 8 == 0 && bit (c.2.setWidth 64) 0).map fun c => readWord m c.1

/-- The page tables from one at level `lv` down: first address and size (Table 6.2). -/
def tablesUnder (m : List Host.Cell) : Nat → Nat → List (Nat × Nat)
  | 0, t => [(t, 256)]
  | lv + 1, t => (t, 4096) :: ((presentEntries m t).filter fun e => !bit e 1).flatMap fun e => tablesUnder m lv (bits e 8 40 * 256)

/-- The frames that the tables from one at level `lv` down map: first address and size. -/
def framesUnder (m : List Host.Cell) : Nat → Nat → List (Nat × Nat)
  | 0, t => ((presentEntries (m.filter fun c => decide (c.1 < t + 256)) t).filter fun e => bit e 1).map fun e => (bits e 8 40 * 256, 2 ^ 16)
  | lv + 1, t => (presentEntries m t).flatMap fun e => if bit e 1 then [(bits e 8 40 * 256, 2 ^ 21)] else framesUnder m lv (bits e 8 40 * 256)

/-- The root level and table of every paged object. -/
def pagedRoots (s : State) : List (Nat × Nat) :=
  s.ctxs.flatMap fun c => (c.2.objs.filter fun e => bit e.2.w0 63 && [2, 3, 4].contains (bits e.2.w0 57 3)).map fun e => (rootLevel (bits e.2.w0 0 52), e.2.ptr.toNat)

/-- The page tables of every object: first address and size. -/
def tables (s : State) : List (Nat × Nat) := ((pagedRoots s).flatMap fun r => tablesUnder s.mem r.1 r.2).dedup

/-- Whether a frame lies apart from a page table. -/
def apart (f t : Nat × Nat) : Bool := decide (f.1 + f.2 ≤ t.1 ∨ t.1 + t.2 ≤ f.1)

/-- Whether every page table lies in the HBM4 range and no object's page lies on one: the frames of tables are reserved for them (R135). -/
def tablesApart (s : State) : Bool :=
  let fs := ((pagedRoots s).flatMap fun r => framesUnder s.mem r.1 r.2).dedup
  (tables s).all fun t => inHome 2 t.1 && fs.all fun f => apart f t

/-- Firmware writes an 8-byte page-table entry and starts a shootdown: it is over when every write then in flight, which may have been translated under the
old entry, has landed: one that still waits behind another is translated when it goes on (R141). It writes none that would put a table outside the HBM4 range, or an
object's page on a table (R135). -/
def changeEntry (s : State) (a : Nat) (v : Word) : State :=
  let t := { s with
    mem := writeKeys s.mem (span a 8) (bytesOf 8 v.toNat)
    shoot := s.shoot ++ [(a, (s.posted.zipIdx.filter fun e => mayLand s e.1 e.2).map (·.1))] }
  if tablesApart s && !tablesApart t then s else t

/-- Write entries at the addresses before them, each with its shootdown (R138, R141); an address that is no place of a table gets none (R135). -/
def writeEntries (s : State) : List Word → State
  | a :: v :: r => writeEntries (if tableAddr a.toNat then changeEntry s a.toNat v else s) r
  | _ => s

/-- Whether every write translated under an entry that firmware has changed has performed (R141). -/
def shootDone (s : State) : Bool := s.shoot.all fun e => !(shooting s e.1)

/-- Firmware's writes of a page's data into a frame, under the key of the object that the event names, and of page-table entries: bytes at an address, and pairs
(address, entry). The data stand in the range of a home, off every page table (R135), and clear the poison of the granules that they cover (R113). -/
def firmwareService (s : State) (ws : List Word) (at' : Nat) (b : List Byte) : State :=
  let ks := span at' b.length
  let key := (s.ctx s.inp.ctx).bind fun x => keyOf x (x.objs.getD s.inp.idx Desc.zero)
  let framed := (inHome 2 at' && inHome 2 (at' + b.length)) || (inHome 3 at' && inHome 3 (at' + b.length)) || (inHome 4 at' && inHome 4 (at' + b.length))
  let framed := framed && (tables s).all fun t => apart (at', b.length) t
  let key := if inHome 3 at' then key else none
  writeEntries (if b.isEmpty || !framed then s else (s.rekey key (granules ks)).store ks b false true) ws

/-- Whether a page whose migration has failed is present in `t` and was not in `s`: firmware does not move it without the host (R156). -/
def movesFailed (s t : State) : Bool :=
  s.ctxs.any fun c => c.2.noMove.any fun p => !pagePresent s (c.1, p.1, p.2) && pagePresent t (c.1, p.1, p.2)

/-- A batch remembers the pages it made present, each by its first offset (R152). -/
def noteServed (s : State) (b : FaultBuf) (g : BitVec 16) (pgs : List (Nat × Nat × Nat)) : FaultBuf :=
  let add (l : List (Nat × Nat × Nat × BitVec 16)) (p : Nat × Nat × Nat) : List (Nat × Nat × Nat × BitVec 16) :=
    ((pageOf s p).1, (pageOf s p).2.1, (pageOf s p).2.2, g) :: l.filter fun e => !samePage s p (e.1, e.2.1, e.2.2.1)
  { b with served := pgs.foldl add b.served }

/-- `FAULT_SERVICE_BATCH` (R152, R153): the DFC makes pages present, and once the shootdowns of the entries it changed are complete (R141), it reads the
records from TAIL to HEAD, sends every agent named for a page that is there a retry (duplicates only that), and flushes. The event names an object (context,
slot) whose page's data come with it; a page whose migration has failed is moved only on a host instruction (`flag`, R156). -/
def execFaultServiceBatch (s : State) : Host.Outcome State Fault Refusal :=
  let d := s.inp.die
  if 4 ≤ d then .next s
  else
    let b := s.fault d
    let t := firmwareService s s.inp.words s.inp.off s.inp.bytes
    let s := if movesFailed s t && !s.inp.flag then s else t
    if !shootDone s then .next s
    else
    let fresh := ((b.recs.filter fun r => !duplicate s b r).map recordPage).filter (pageReady s)
    let s := s.setFault d (noteServed s b (b.gen + 1) fresh)
    let s := b.recs.foldl (fun s r =>
      if pageReady s (recordPage r) then sendRetry s (recordAgent (r.getD 2 0)) (recordPage r) else s) s
    .next (flush s d b.head.toNat)

/-- `FAULT_RETRY` (R153, R155): a retry for a page that is present, its entry's shootdown complete; ignored by an agent that no longer waits for it. -/
def execFaultRetry (s : State) : Host.Outcome State Fault Refusal :=
  let pg := (s.inp.ctx, s.inp.idx, s.inp.off)
  if pageReady s pg then .next (sendRetry s s.inp.agent pg) else .next s

/-- Whether a page belongs to an object of another device. -/
def pageRemote (s : State) (pg : Nat × Nat × Nat) : Bool := (s.ctx pg.1).any fun x => bits (x.objs.getD pg.2.1 Desc.zero).w0 57 3 == 5

/-- `REMOTE_RETRY_RELAY` (R147): a retry that a remote device sent over the link sideband reaches the slot parked with KIND REMOTE, or the hart that
stands at an element there. -/
def execRemoteRetryRelay (s : State) : Host.Outcome State Fault Refusal :=
  match s.inp.agent with
  | .slot c k =>
    match (s.slot c k).status with
    | .parked 5 _ none => .next (resumeSlot (s.setSlot c k { s.slot c k with status := .parked 5 true none }) c k)
    | _ => .next s
  | .hart d h => .next (resumeHart s d h (pageRemote s))
  | _ => .next s

/-- End what a hart's wait for a page stops, with ABSENT: the operation at the head of its FIFO, an ordered group, or a collective for its members here
(R121, R154). -/
def endStopped (s : State) (d h : Nat) : State :=
  let x := s.hart d h
  let s := s.setHart d h { x with stopped := none, mark := false }
  match x.why with
  | .head =>
    match x.fifo with
    | [] => s
    | k :: rest =>
      let t := s.setHart d h { s.hart d h with fifo := rest, lays := none }
      match readBlock s d h k with
      | .ok (b, u) => endKick (noteReads t (.hart d h) k.ctx u) d h k b 5 0 0
      | .error (_, u) => endKick (noteReads t (.hart d h) k.ctx u) d h k [] 5 0 0
  | .group r grp => shutGroup (endAll s d h (x.groups.flatMap fun g => if g.1 = r ∧ g.2.1 = grp then g.2.2 else []) 5 0 0) d h r grp
  | .coll r grp =>
    match x.members.find? fun c => c.kick.ctx == r && blkGrp c.block == grp with
    | none => s
    | some c =>
      let (mates, u) := match memberList s (.hart d h) c.kick c.block with
        | .ok (ms, u) => (membersHere s grp (s.devId.toNat, d, c.kick.ctx) ms, u)
        | .error (_, u) => ([], u)
      endMembers (noteReads s (.hart d h) r u) ((if mates.contains (d, h, c) then mates else (d, h, c) :: mates).map fun m => (m, 0, 0)) 5

/-- Refuse the kick whose check stands at a page, with ABSENT in KERR (R154; DESIGN CHOICE, log entry 81). -/
def refuseStopped (s : State) (d h : Nat) (pg : Nat × Nat × Nat) : State :=
  let s := s.setHart d h { s.hart d h with kickStop := none, mark := false }
  let here (p : Posted) : Option Word :=
    match p.eff with
    | .kick d' h' v =>
      match kickCheck s d h (kickOf p v) v with
      | .error (.page r slot off _ _, _) => if d' = d ∧ h' = h ∧ samePage s pg (r, slot, off) then some v else none
      | _ => none
    | _ => none
  match s.posted.find? fun p => (here p).isSome with
  | none => s
  | some p => refuseKick { s with posted := s.posted.erase p } d h (kickOf p ((here p).getD 0)) ((here p).getD 0) 5 none

/-- A page cannot be made present (R154): an error record to the host; slots stay parked and writes held; engine operations that wait for it end with
ABSENT (DEDUCED, log entry 43). -/
def pageUnavailable (s : State) (pg : Nat × Nat × Nat) : State :=
  let s := errorRecord s 11 2 (some pg.1) 0 1 pg.2.1 (pg.2.1 * 2 ^ 52 + pg.2.2)
  s.harts.foldl (fun s e =>
    let d := e.1 / 28
    let h := e.1 % 28
    let s := if (s.hart d h).stopped.any (samePage s pg) then endStopped s d h else s
    if (s.hart d h).kickStop.any (samePage s pg) then refuseStopped s d h pg else s) s

/-- `PAGE_UNAVAILABLE` (R154). -/
def execPageUnavailable (s : State) : Host.Outcome State Fault Refusal :=
  let pg := (s.inp.ctx, s.inp.idx, s.inp.off)
  if (s.ctx pg.1).isNone ∨ pagePresent s pg then .next s else .next (pageUnavailable s pg)

/-! ### Migration (R155, R156) -/

/-- Bytes `[src, src + n)` copied to `dst`. -/
def copyRange (m : List Host.Cell) (src dst n : Nat) : List Host.Cell :=
  (m.filter fun c => decide (src ≤ c.1 ∧ c.1 < src + n)).foldl (fun m c => writeByte m (c.1 - src + dst) c.2)
    (m.filter fun c => !decide (dst ≤ c.1 ∧ c.1 < dst + n))

/-- The leaf of an object page: physical address of the frame, entry address, level and entry, whatever its P (R139). -/
def leafOf (s : State) (pg : Nat × Nat × Nat) : Option (Nat × Nat × Nat × Word) :=
  match s.ctx pg.1 with
  | none => none
  | some x =>
    match walk s.mem (x.objs.getD pg.2.1 Desc.zero) pg.2.2 with
    | .page _ leafAt lvl leaf => some (bits leaf 8 40 * 256, leafAt, lvl, leaf)
    | .absent _ _ => none

/-- Answer the host's page-table writes whose shootdowns are complete (R141, R346). -/
def answerWaiting (s : State) : State :=
  let due (e : Nat × Nat) : Bool := !(s.shoot.any fun h => h.1 == e.2)
  (s.fw.waiting.filter due).foldl (fun s e => answerSeq s e.1 0 0) { s with fw := { s.fw with waiting := s.fw.waiting.filter fun e => !due e } }

/-- `PAGE_SHOOTDOWN_COMPLETE` (R141): every access translated under the old entry has performed; a host instruction that wrote the entry is answered. -/
def execPageShootdownComplete (s : State) : Host.Outcome State Fault Refusal :=
  match takeAt s.shoot s.inp.idx with
  | none => .next s
  | some (l, rest) => if l.2.any s.posted.contains then .next s else .next (answerWaiting { s with shoot := rest })

/-- The size of a page by its leaf's level. -/
def pageSize (lvl : Nat) : Nat := if lvl = 0 then 2 ^ 16 else 2 ^ 21

/-- Whether any granule of a frame is poisoned. -/
def framePoisoned (s : State) (a n : Nat) : Bool := s.poison.any fun g => decide (a / 16 ≤ g ∧ g < (a + n) / 16)

/-- The keys of the granules of a range, each as the granule that stood at `src` had it: a page moves with the keys it is held under (R44). -/
def moveKeys (x : NMap Nat) (src dst n : Nat) : NMap Nat :=
  let kept := x.filter fun e => !decide (dst / 16 ≤ e.1 ∧ e.1 < (dst + n) / 16)
  if inHome 3 dst then (x.filter fun e => decide (src / 16 ≤ e.1 ∧ e.1 < (src + n) / 16)).foldl (fun y e => y.put (e.1 - src / 16 + dst / 16) e.2) kept
  else kept

/-- The page at an offset of an object, as a failed migration is remembered: the slot and the page's first offset. -/
def movedPage (s : State) (pg : Nat × Nat × Nat) : Nat × Nat := (pageOf s pg).2

/-- `MIGRATION` (R155): first MIG is set; once that shootdown is over, the page is copied to the new frame (the event's word), the entry written with it
and MIG clear. Held writes go on by HELD_WRITE_RELEASE, parked atomics by FAULT_RETRY. A copy that would read poison does not end so. A page whose migration
has failed moves only on a host instruction (`flag`, R156). -/
def execMigration (s : State) : Host.Outcome State Fault Refusal :=
  let pg := (s.inp.ctx, s.inp.idx, s.inp.off)
  match leafOf s pg, s.ctx pg.1 with
  | some (frame, leafAt, lvl, leaf), some x =>
    let new := s.inp.word.toNat
    let n := pageSize lvl
    if x.noMove.contains (movedPage s pg) && !s.inp.flag then .next s
    else if !bit leaf 7 then .next (changeEntry s leafAt (leaf ||| 0x80))
    else if shooting s leafAt ∨ framePoisoned s frame n ∨ new % n ≠ 0 ∨ !inPartition x.ranges new n
      ∨ !inHome (bits (x.objs.getD pg.2.1 Desc.zero).w0 57 3) new then .next s
    else
      let s := { s with
        mem := copyRange s.mem frame new n
        xts := moveKeys s.xts frame new n
        poison := s.poison.filter fun g => !decide (new / 16 ≤ g ∧ g < (new + n) / 16) }
      .next (changeEntry s leafAt (word (fields [(7, leaf.toNat % 2 ^ 7), (1, 0), (40, new / 256), (16, 0)])))
  | _, _ => .next s

/-- The migration-failure record, and the page kept where it is until the host says otherwise (R156). -/
def migrationFailed (s : State) (x : Context) (pg : Nat × Nat × Nat) (bad : Nat) : State :=
  let s := s.onCtx pg.1 fun x => { x with noMove := movedPage s pg :: x.noMove.filter (· != movedPage s pg) }
  let home := bits (x.objs.getD pg.2.1 Desc.zero).w0 57 3
  errorRecord s 6 2 (some pg.1) 0 1 (fields [(16, bad), (3, home), (3, s.inp.n % 8), (1, b2n s.inp.flag)]) (pg.2.1 * 2 ^ 52 + pg.2.2)

/-- `MIGRATION_ABANDON` (R156): the old mapping stays and MIG is cleared, granules of the source read as uncorrectable are poisoned, and a migration-failure
record is written; a page that was being brought in, from a frame within the context's partitions, stays absent, and R154 applies. The event names the
granules (by number), the cause (`flag`: UNCORRECTABLE) and the destination's home. -/
def execMigrationAbandon (s : State) : Host.Outcome State Fault Refusal :=
  let pg := (s.inp.ctx, s.inp.idx, s.inp.off)
  match leafOf s pg, s.ctx pg.1 with
  | some (frame, leafAt, lvl, leaf), some x =>
    if !bit leaf 7 then .next s
    else
      let bad := ((s.inp.words.map fun w => w.toNat).filter fun g => decide (frame / 16 ≤ g ∧ g < (frame + pageSize lvl) / 16)).dedup
      .next (changeEntry (migrationFailed { s with poison := addAll s.poison bad } x pg bad.length) leafAt (leaf &&& ~~~(0x80 : Word)))
  | none, some x =>
    let bad := ((s.inp.words.map fun w => w.toNat).filter fun g => inPartition x.ranges (16 * g) 16).dedup
    .next (pageUnavailable (migrationFailed { s with poison := addAll s.poison bad } x pg bad.length) pg)
  | _, none => .next s

/-! ### Descriptors (R11, R18) -/

/-- The ranges that firmware adds to a context's partition map with an object of S (R140): those the event names, each within the ranges of another
context whose table holds the object with S. -/
def sharedRanges (s : State) (r : Nat) (d : Desc) : List (Nat × Nat) :=
  let rec go : List Word → List (Nat × Nat)
    | a :: e :: l => (a.toNat, e.toNat) :: go l
    | _ => []
  let owner (p : Nat × Nat) (c : Nat × Context) : Bool :=
    c.1 != r && inPartition c.2.ranges p.1 (p.2 - p.1)
      && c.2.objs.any fun e => bit e.2.w0 63 && bit e.2.w0 56 && bits e.2.w0 57 3 == bits d.w0 57 3 && e.2.ptr == d.ptr
  if bit d.w0 63 && bit d.w0 56 then (go s.inp.words).filter fun p => s.ctxs.any (owner p) else []

/-- Whether a scratchpad object lies in a cell of the context, or names an object with S of the context that has the cell (R14, R134). -/
def scratchAllowed (s : State) (x : Context) (d : Desc) : Bool :=
  let c := bits d.ptr 18 12
  x.cells.contains c || (bit d.w0 56 && s.ctxs.any fun y => y.2.cells.contains c &&
    y.2.objs.any fun e => bit e.2.w0 63 && bit e.2.w0 56 && bits e.2.w0 57 3 == 0 && e.2.ptr == d.ptr)

/-- Firmware's conditions on a new descriptor (R11, R14, R19, R30, R40, R44, R105, R134, R135): reserved bits zero; a window, or a range within its place and the
context's; a root table at its alignment in HBM4; an installed key; of an object of another device no more than its entry grants, which the event gives
(`word`: word 0 of entry RSLOT there); and an object that other contexts name only when it is shareable. -/
def descAllowed (s : State) (r : Nat) (x : Context) (d : Desc) : Bool :=
  let len := bits d.w0 0 52
  let rts := bits d.w0 52 5
  let clean := bits d.w0 60 3 == 0 && bits d.w2 8 56 == 0
  let root := inHome 2 d.ptr.toNat && d.ptr.toNat % (if rootLevel len = 0 then 256 else 4096) == 0
  let place := match bits d.w0 57 3 with
    | 0 =>
      if bit d.ptr 63 then len == 1792 && rts / 4 == 0 && bits d.ptr 2 61 == 0
      else decide (bits d.ptr 18 12 < Config.cells) && bits d.ptr 30 33 == 0 && decide (bits d.ptr 0 18 + len ≤ Config.regionBytes)
        && scratchAllowed s x d
    | 1 => decide (bits d.ptr 24 9 < Config.dies * Config.ranksPerDie) && bits d.ptr 33 31 == 0 && decide (bits d.ptr 0 24 + len ≤ Config.vaultBytes)
      && inPartition (x.ranges ++ sharedRanges s r d) (vaultKey (bits d.ptr 24 9) (bits d.ptr 0 24)) len
    | 3 => root && (x.keys.find (bits d.w2 0 8)).isSome
    | 5 => bits d.ptr 31 33 == 0 && decide (32 ≤ bits d.ptr 9 12) && bit s.inp.word 63 && bit s.inp.word 56 && decide (len ≤ bits s.inp.word 0 52)
      && rts &&& bits s.inp.word 52 5 == rts
    | 2 | 4 => root
    | _ => true
  let share := s.ctxs.all fun c => c.1 == r || c.2.objs.all fun e =>
    !(bit e.2.w0 63 && bits e.2.w0 57 3 == bits d.w0 57 3 && e.2.ptr == d.ptr) || (bit e.2.w0 56 && bit d.w0 56)
  clean && (!bit d.w0 63 || (place && (share || bits d.w0 57 3 == 0 && bit d.ptr 63 || bits d.w0 57 3 == 5)))

/-- Whether the assignments of a context's interface, which are configuration registers of it, are locked: CONFIG_LOCKED, RUN or ERROR (Table 17.2, R396). -/
def configLocked (s : State) (r : Nat) : Bool := (s.ctx r).any fun x => (s.iface x.fn).tdisp != 0

/-- A configuration write against a locked interface is rejected, and the interface moves to ERROR (R397). -/
def rejectConfig (s : State) (r : Nat) : State :=
  match s.ctx r with
  | some x => if (s.iface x.fn).tdisp = 0 then s else s.setIface x.fn { s.iface x.fn with tdisp := 3 }
  | none => s

/-- `DESCRIPTOR_UPDATE` (R18): on a host instruction, firmware writes the entry with V = 0 and sends a shootdown. An object assignment of a locked interface is
rejected (R396). -/
def execDescriptorUpdate (s : State) : Host.Outcome State Fault Refusal :=
  let r := s.inp.ctx
  let o := s.inp.idx
  match s.ctx r with
  | none => .next s
  | some x =>
    if configLocked s r then .next (rejectConfig s r)
    else if o < 32 ∨ 4096 ≤ o ∨ !descAllowed s r x s.inp.desc then .next s
    else
      let d := x.objs.getD o Desc.zero
      .next (s.setCtx r { x with objs := x.objs.put o { d with w0 := d.w0 &&& ~~~(1 <<< 63 : Word) } })

/-- A new entry of an object table, unless it would put a page table outside the HBM4 range or an object's page on one (R135). -/
def newDesc (s : State) (r o : Nat) (n : Desc) : State :=
  let add := sharedRanges s r n
  let t := s.onCtx r fun x => { x with shared := x.shared ++ add.filter (!x.shared.contains ·), objs := x.objs.put o n }
  if tablesApart s && !tablesApart t then s else t

/-- `DESCRIPTOR_SHOOTDOWN_COMPLETE` (R18): no cached copy stays, every access checked under the old descriptor has left its agent, and the new entry is
written with GEN incremented; with an object of S the ranges it adds (R140). An entry with V = 0 destroys the object, and releases the image it holds (R333). -/
def execDescriptorShootdownComplete (s : State) : Host.Outcome State Fault Refusal :=
  let r := s.inp.ctx
  let o := s.inp.idx
  match s.ctx r with
  | none => .next s
  | some x =>
    let d := x.objs.getD o Desc.zero
    if o < 32 ∨ 4096 ≤ o ∨ bit d.w0 63 ∨ !descAllowed s r x s.inp.desc then .next s
    else
      let n := s.inp.desc
      let s := x.cells.foldl (fun s c => s.setCell c { s.cell c with dcache := (s.cell c).dcache.filter fun p => p.1 ≠ o }) s
      let s := if bit n.w0 63 then s else { s with images := s.images.filter fun e => !(e.1 == r && bits e.2.1 52 12 == o) }
      .next (newDesc s r o { n with w3 := word ((bits d.w3 0 16 + 1) % 2 ^ 16) })

end Sys2Proof.Machine
end

