-- ==== Sys2Proof/Machine/Command.lean ====
section
/-! DEFINITION. Sarrun commands (R348 to R366): fetching from the ring and from buffers, faults, and the meaning of every command. A privileged
command is handed to the lead firmware core; what the service does stands with its subject. -/

namespace Sys2Proof.Machine

/-! ### Places in a queue's program -/

/-- Register cN of a queue. -/
def Queue.reg (q : Queue) (r : BitVec 4) : Word := q.c[r.toNat]?.getD 0
/-- Write cN. -/
def Queue.setReg (q : Queue) (r : BitVec 4) (v : Word) : Queue := { q with c := q.c.setIfInBounds r.toNat v }

/-- The entries of the ring not yet executed. -/
def Queue.pending (q : Queue) : Nat := (q.tail - q.head).toNat

/-- Whether a queue is runnable (R340); one that waits for an answer is not served meanwhile (R359). A C.LAUNCHALL that has sent a part of its messages
goes on (R348), and a command that waits where it stands is tried again. -/
def runnableQueue (q : Queue) : Bool :=
  q.map && q.state == 1 && (q.service.isNone || decide (0 < q.launched) || q.stalled.isSome) && !q.asking && (decide (0 < q.lv) || decide (0 < q.pending))

/-- Move a queue's position by `n` words at its level. -/
def Queue.move (q : Queue) (n : Nat) : Queue :=
  match q.bufs with
  | [] => { q with head := q.head + BitVec.ofNat 32 n }
  | (o, len, i) :: r => { q with bufs := (o, len, i + n) :: r }

/-- The index of the current command in its buffer; at level 0, 0. -/
def Queue.index (q : Queue) : Nat := match q.bufs with | [] => 0 | (_, _, i) :: _ => i

/-- Report a queue's fault to the host: queue, SER, LV, FCODE (R353). -/
def reportFault (s : State) (n : Nat) (q : Queue) : State :=
  { s with reports := s.reports ++ [[1, word n, word q.ser.toNat, word q.lv, word q.fcode]] }

/-- Queue `n` enters FAULT with FCODE `code`, its position unchanged (R353); `taken` commands have taken a serial. -/
def enterFault (s : State) (n code : Nat) (taken : BitVec 36) : State :=
  let q := { s.queue n with state := 4, fcode := code, service := none, answer := none, launched := 0, stalled := none, asking := false, fetched := [] }
  reportFault (s.setQueue n (bumpVersion n { q with ser := q.ser + taken })) n q

/-- A command of queue `n` faults (R353); its serial has been taken. -/
def faultQueue (s : State) (n code : Nat) : State := enterFault s n code 1

/-- At a command boundary, a stop or an unmapping that was asked for takes effect (R347, R366). -/
def boundary (q : Queue) : Queue :=
  let q : Queue := if q.stopReq then { q with state := if q.state = 1 then 3 else q.state, stopReq := false } else q
  if q.unmapReq then { q with map := false, unmapReq := false } else q

/-- Leave the buffers that have come to their end (R350): execution goes on after the C.IB that entered each; a call still pending at the end of a
buffer is BADFLOW, at which no command has started. -/
def leaveBuffers (s : State) (n : Nat) : Nat → State
  | 0 => s
  | fuel + 1 =>
    let q := s.queue n
    match q.bufs with
    | (_, len, i) :: r =>
      if i < len then s
      else if q.calls.any fun e => e.1 == q.lv then enterFault s n 5 0
      else leaveBuffers (s.setQueue n (Queue.move { q with bufs := r, lv := q.lv - 1 } 1)) n fuel
    | [] => s

/-- At a command boundary the engine writes HEAD and STATE to the owner when the queue has emptied, has stopped, waits no longer, or is unmapped (R341, R348). -/
def noteOwner (s : State) (n : Nat) (old : Queue) : State :=
  let q := s.queue n
  if q.state ≠ old.state ∨ q.map ≠ old.map ∨ (q.lv = 0 ∧ q.pending = 0) then s.setQueue n (bumpVersion n q) else s

/-- A command of `len` words completes: the position moves on, SER increments, and the boundary is passed (DEDUCED, log entry 29). -/
def complete (s : State) (n len : Nat) : State :=
  let old := s.queue n
  let q := Queue.move { old with
    ser := old.ser + 1, service := none, answer := none, launched := 0, stalled := none, state := if old.state = 2 then 1 else old.state } len
  noteOwner (leaveBuffers (s.setQueue n (boundary q)) n 4) n old

/-! ### Accesses of a command engine -/

/-- Why a command does not complete: a fault code (and where the checks of a frame refuse the access, its oref: R140), consumed poison (behind what the access
has left: entries updated, hits recorded; R142, R157), a request that the link switch discards for want of a route to a device (R400), a wait at its place, or the
departure of a request to another device. -/
inductive CHalt where
  | fault (code : Nat) (refused : Option Word)
  | poison (t : State)
  | lost (dev : Nat)
  | wait
  | ask
  deriving DecidableEq, Repr

/-- The view of a queue's orefs. -/
def queueView (s : State) (n : Nat) : View := viewOf s (.queue n)

/-- Check `n` bytes at an oref with rights (R337, Table 15.6). -/
def qCheck (s : State) (n : Nat) (o : Word) (len rts : Nat) : Except CHalt Target :=
  if bits o 0 52 % len ≠ 0 then .error (.fault 8 none)
  else
    match checkRef s (queueView s n) o len rts 0 with
    | .ok t => .ok t
    | .error (.trap 4 _ _ _ _) => .error (.fault 10 none)
    | .error _ => .error (.fault 9 none)

/-- Locate for a queue: an absent page faults, a migrating one makes a write wait (R349). -/
def qLocate (s : State) (n : Nat) (t : Target) (len : Nat) (write : Bool) : Except CHalt Located :=
  match locate s (queueView s n) t len write with
  | .ok l => .ok l
  | .error (.absent 1 _ _) => .error .wait
  | .error (.absent _ _ _) => .error (.fault 11 none)
  | .error (.refused off) => .error (.fault 10 (some (word (t.slot * 2 ^ 52 + off))))

/-- The answer of another device to a queue's request: there is no route to it, or it is not there yet, or its value; a refusal is RIGHTS, a lost request
POISON. -/
def qRemote (s : State) (n : Nat) (t : Target) : Except CHalt Unit :=
  if !routed s (bits t.desc.ptr 0 9) then .error (.lost (bits t.desc.ptr 0 9))
  else if (s.queue n).answer.isNone then .error .ask
  else match s.inp.n with
    | 0 => .ok ()
    | 1 => .error (.fault 10 none)
    | 2 => .error (.fault 11 none)
    | _ => .error (.fault 12 none)

/-- The watch-hit records of a queue's access: a load, a store, or both for an atomic. -/
def qHits (s : State) (n : Nat) (t : Target) (l : Located) (len : Nat) (rd wr : Bool) : State :=
  let r := (s.queue n).ctx
  if l.watched then watchRecords s (filterHits s r t.slot t.off len rd wr) r t.slot t.off (if rd then (if wr then 2 else 0) else 1) (.queue n) else s

/-- Read a doubleword for a queue. -/
def qRead (s : State) (n : Nat) (o : Word) (rts : Nat) : Except CHalt (Word × State) := do
  let t ← qCheck s n o 8 rts
  match t.home with
  | .window d => if t.off % 64 == 8 || t.off % 64 == 16 then .ok (windowRead s (s.queue n).ctx d t.off, s) else .error (.fault 10 none)
  | .remote => qRemote s n t; .ok (word (numOfBytes (s.inp.bytes.take 8)), s)
  | _ =>
    let l ← qLocate s n t 8 false
    let u := qHits (touchLeaves s l.leaves false) n t l 8 true false
    if s.poisoned l.keys then .error (.poison u) else .ok (word (numOfBytes (s.bytesAt l)), u)

/-- A store of a queue to another device is lost: the loss is recorded and the context contained, and the store is over (R52). -/
def qLost (s : State) (n : Nat) (o : Word) : State :=
  errorRecord (contain s (s.queue n).ctx) 9 1 (some (s.queue n).ctx) (s.queue n).eng 1 0 o.toNat

/-- The record of the link switch on a packet to a device that its routes do not reach (R400). -/
def noRoute (s : State) (r dev : Nat) : State := errorRecord s 3 1 (some r) 4 1 dev 0

/-- Write `b` for a queue at once. A store to a window is no plain write. -/
def qWrite (s : State) (n : Nat) (o : Word) (b : List Byte) : Except CHalt State := do
  let t ← qCheck s n o b.length 2
  match t.home with
  | .window _ => .error (.fault 10 none)
  | .remote => match qRemote s n t with
    | .error (.lost dev) => .ok (noRoute (qLost s n o) (s.queue n).ctx dev)
    | .error (.fault 12 _) => .ok (qLost s n o)
    | .error h => .error h
    | .ok () => .ok s
  | _ =>
    let l ← qLocate s n t b.length true
    .ok (qHits (writeAt s l b false false) n t l b.length false true)

/-- A read-modify-write of a doubleword for a queue, one action: `g` gives the new value. Answers the old value. -/
def qAtomic (s : State) (n : Nat) (o : Word) (op : Amo) (g : Word → Option Word) : Except CHalt (Word × State) := do
  let t ← qCheck s n o 8 11
  match t.home with
  | .window _ => .error (.fault 10 none)
  | .remote => qRemote s n t; .ok (word (numOfBytes (s.inp.bytes.take 8)), s)
  | _ =>
    if inHost t && !hostAtomic op then .error (.fault 10 none)
    else
      let l ← qLocate s n t 8 true
      if s.poisoned l.keys then .error (.poison (qHits (touchLeaves s l.leaves true) n t l 8 true true))
      else
        let m := word (numOfBytes (s.bytesAt l))
        match g m with
        | some x => .ok (m, qHits (writeAt s l (bytesOf 8 x.toNat) false false) n t l 8 true true)
        | none => .ok (m, qHits (touchLeaves s l.leaves true) n t l 8 true true)

/-! ### Running a command -/

/-- Engine of die `d`. -/
def State.engine (s : State) (d : Nat) : Engine := s.engines.getD d ⟨none, 0, 0⟩
/-- The state with the engine of die `d` replaced. -/
def State.setEngine (s : State) (d : Nat) (e : Engine) : State := { s with engines := s.engines.put d e }

/-- The engine gives up the queue it serves. -/
def dropServed (s : State) (d : Nat) : State :=
  match (s.engine d).serving with
  | some n => s.setEngine d ⟨none, 0, n⟩
  | none => s

/-- Queue `n` waits: the engine that serves it writes HEAD and STATE to the owner and turns to another queue (R348). -/
def endServing (s : State) (n : Nat) : State :=
  let s := s.setQueue n (bumpVersion n (s.queue n))
  if (s.engine (s.queue n).eng).serving = some n then dropServed s (s.queue n).eng else s

/-- Queue `n` waits with command `i` for an answer. -/
def serviceWait (s : State) (n : Nat) (i : Instr) (st : Nat) : State :=
  let q := s.queue n
  endServing (s.setQueue n { q with service := some i, state := st, answer := none, stalled := none, waitNs := if st = 2 then q.waitNs else 0 }) n

/-- Queue `n` waits where it stands, with command `i`, which has started (R348, R362, R363). -/
def stall (s : State) (n : Nat) (i : Instr) : State :=
  let q := s.queue n
  if q.stalled.isSome then (if (s.engine q.eng).serving = some n then dropServed s q.eng else s)
  else endServing (s.setQueue n { q with service := some i, stalled := some s.time }) n

/-- A command of the moving queue: its result, its fault, or its wait; elsewhere there is no command engine. -/
def command (i : Instr) (s : State) (g : Nat → Queue → Except CHalt State) : Host.Outcome State Fault Refusal :=
  match s.cur with
  | .queue n =>
    match g n (s.queue n) with
    | .ok t => .next t
    | .error (.fault code none) => .next (faultQueue s n code)
    | .error (.fault code (some o)) => .next (refuseAccess (faultQueue s n code) (s.queue n).ctx (s.queue n).eng o)
    | .error (.poison t) => .next (faultQueue t n 12)
    | .error (.lost dev) => .next (faultQueue (noRoute s (s.queue n).ctx dev) n 12)
    | .error .wait => .next (stall s n i)
    | .error .ask => .next (serviceWait s n i (s.queue n).state)
  | _ => .fault .noAgent

/-- A command that only writes a register (R354). -/
def registerForm (i : Instr) (ca : BitVec 4) (len : Nat) (s : State) (g : Queue → Word) : Host.Outcome State Fault Refusal :=
  command i s fun n q => .ok (complete (s.setQueue n (q.setReg ca (g q))) n len)

/-- The second operand of an ALU form (R351). -/
def aluOperand (q : Queue) (cc : BitVec 4) (i : BitVec 1) (imm : BitVec 32) : Word := if i = 1 then imm.signExtend 64 else q.reg cc

/-- C.NOP (R354). -/
def execCNop (s : State) : Host.Outcome State Fault Refusal := command .cNop s fun n _ => .ok (complete s n 1)
/-- C.MOVI (R354). -/
def execCMovi (ca : BitVec 4) (imm : BitVec 44) (s : State) : Host.Outcome State Fault Refusal :=
  registerForm (.cMovi ca imm) ca 1 s fun _ => imm.signExtend 64
/-- C.MOVW: the second word (R354). -/
def execCMovw (ca : BitVec 4) (w : BitVec 64) (s : State) : Host.Outcome State Fault Refusal := registerForm (.cMovw ca w) ca 2 s fun _ => w
/-- C.ADD (R354). -/
def execCAdd (ca cb cc : BitVec 4) (i : BitVec 1) (imm : BitVec 32) (s : State) : Host.Outcome State Fault Refusal :=
  registerForm (.cAdd ca cb cc i imm) ca 1 s fun q => q.reg cb + aluOperand q cc i imm
/-- C.SUB (R354). -/
def execCSub (ca cb cc : BitVec 4) (i : BitVec 1) (imm : BitVec 32) (s : State) : Host.Outcome State Fault Refusal :=
  registerForm (.cSub ca cb cc i imm) ca 1 s fun q => q.reg cb - aluOperand q cc i imm
/-- C.AND (R354). -/
def execCAnd (ca cb cc : BitVec 4) (i : BitVec 1) (imm : BitVec 32) (s : State) : Host.Outcome State Fault Refusal :=
  registerForm (.cAnd ca cb cc i imm) ca 1 s fun q => q.reg cb &&& aluOperand q cc i imm
/-- C.OR (R354). -/
def execCOr (ca cb cc : BitVec 4) (i : BitVec 1) (imm : BitVec 32) (s : State) : Host.Outcome State Fault Refusal :=
  registerForm (.cOr ca cb cc i imm) ca 1 s fun q => q.reg cb ||| aluOperand q cc i imm
/-- C.SHL: by y mod 64 (R354). -/
def execCShl (ca cb cc : BitVec 4) (i : BitVec 1) (imm : BitVec 32) (s : State) : Host.Outcome State Fault Refusal :=
  registerForm (.cShl ca cb cc i imm) ca 1 s fun q => q.reg cb <<< ((aluOperand q cc i imm).toNat % 64)
/-- C.SHR: logical, by y mod 64 (R354). -/
def execCShr (ca cb cc : BitVec 4) (i : BitVec 1) (imm : BitVec 32) (s : State) : Host.Outcome State Fault Refusal :=
  registerForm (.cShr ca cb cc i imm) ca 1 s fun q => q.reg cb >>> ((aluOperand q cc i imm).toNat % 64)

/-- The oref of C.LD and C.ST (R355). -/
def commandRef (base : Word) (imm : BitVec 32) : Word :=
  word (bits base 52 12 * 2 ^ 52 + ((Int.ofNat (bits base 0 52) + imm.toInt) % Int.ofNat (2 ^ 52)).toNat)

/-- C.LD (R355). -/
def execCLd (ca cb : BitVec 4) (imm : BitVec 32) (s : State) : Host.Outcome State Fault Refusal :=
  command (.cLd ca cb imm) s fun n q => do
    let (v, s) ← qRead s n (commandRef (q.reg cb) imm) 1
    .ok (complete (s.setQueue n ((s.queue n).setReg ca v)) n 1)

/-- A kick store of queue `n` to hart (d, h); `copy` marks that of C.COPY (R105, R359). -/
def queueKick (s : State) (n d h : Nat) (v : Word) (copy : Bool) : State :=
  { s with posted := s.posted ++ [⟨.queue n, (s.queue n).ctx, 0, 2, Desc.zero, .kick d h v, true, 0, 1, false, copy, 0, 0, false, false, []⟩] }

/-- Store a doubleword for command `i` of queue `n`; an aligned store to KICK is a kick, and the command waits until the hart has answered it (R105, R349). -/
def qStore (s : State) (n : Nat) (i : Instr) (o v : Word) : Except CHalt State := do
  let t ← qCheck s n o 8 2
  match t.home with
  | .window d =>
    if t.off % 64 ≠ 0 then .error (.fault 10 none)
    else .ok (queueKick (serviceWait s n i (s.queue n).state) n d (t.off / 64) v false)
  | _ =>
    let s ← qWrite s n o (bytesOf 8 v.toNat)
    .ok (complete s n 1)

/-- C.ST (R355). -/
def execCSt (ca cb : BitVec 4) (imm : BitVec 32) (s : State) : Host.Outcome State Fault Refusal :=
  command (.cSt ca cb imm) s fun n q => qStore s n (.cSt ca cb imm) (commandRef (q.reg cb) imm) (q.reg ca)

/-! ### Flow commands (R356, R357) -/

/-- The word `d` words from the current command, which its buffer must hold: BADFLOW at level 0, BADTGT outside, whether the target is taken or not (DEDUCED, log entry 28). -/
def flowTarget (q : Queue) (d : BitVec 20) : Except CHalt Nat :=
  match q.bufs with
  | [] => .error (.fault 5 none)
  | (_, len, i) :: _ =>
    let t := Int.ofNat i + d.toInt
    if q.lv = 0 then .error (.fault 5 none) else if t < 0 ∨ Int.ofNat len ≤ t then .error (.fault 6 none) else .ok t.toNat

/-- Go on at the word `t` of the current buffer. -/
def goTo (s : State) (n : Nat) (q : Queue) (t : Nat) : State :=
  match q.bufs with
  | [] => s
  | (o, len, _) :: r => noteOwner (s.setQueue n (boundary { q with bufs := (o, len, t) :: r, ser := q.ser + 1 })) n q

/-- A conditional branch (R356). -/
def branchCommand (i : Instr) (s : State) (imm : BitVec 20) (cond : Queue → Bool) : Host.Outcome State Fault Refusal :=
  command i s fun n q => do
    let t ← flowTarget q imm
    return if cond q then goTo s n q t else complete s n 1

/-- C.BEQ (R356). -/
def execCBeq (ca cb : BitVec 4) (imm : BitVec 20) (s : State) : Host.Outcome State Fault Refusal :=
  branchCommand (.cBeq ca cb imm) s imm fun q => q.reg ca == q.reg cb
/-- C.BNE (R356). -/
def execCBne (ca cb : BitVec 4) (imm : BitVec 20) (s : State) : Host.Outcome State Fault Refusal :=
  branchCommand (.cBne ca cb imm) s imm fun q => q.reg ca != q.reg cb
/-- C.BLT: signed (R356). -/
def execCBlt (ca cb : BitVec 4) (imm : BitVec 20) (s : State) : Host.Outcome State Fault Refusal :=
  branchCommand (.cBlt ca cb imm) s imm fun q => decide ((q.reg ca).toInt < (q.reg cb).toInt)
/-- C.BGE: signed (R356). -/
def execCBge (ca cb : BitVec 4) (imm : BitVec 20) (s : State) : Host.Outcome State Fault Refusal :=
  branchCommand (.cBge ca cb imm) s imm fun q => decide ((q.reg cb).toInt ≤ (q.reg ca).toInt)
/-- C.JMP (R356). -/
def execCJmp (imm : BitVec 20) (s : State) : Host.Outcome State Fault Refusal := branchCommand (.cJmp imm) s imm fun _ => true

/-- C.CALL: push (LV, index of the next word), then go to the target (R356). -/
def execCCall (imm : BitVec 20) (s : State) : Host.Outcome State Fault Refusal :=
  command (.cCall imm) s fun n q =>
    if q.lv = 0 then .error (.fault 5 none)
    else if 8 ≤ q.calls.length then .error (.fault 7 none)
    else return goTo s n { q with calls := (q.lv, q.index + 1) :: q.calls } (← flowTarget q imm)

/-- C.RET: pop the top entry and go on at its index (R356). -/
def execCRet (s : State) : Host.Outcome State Fault Refusal :=
  command .cRet s fun n q =>
    match q.bufs, q.calls with
    | (o, len, _) :: r, (lv, j) :: cs =>
      if lv ≠ q.lv then .error (.fault 5 none)
      else .ok (noteOwner (leaveBuffers (s.setQueue n (boundary { q with bufs := (o, len, j) :: r, calls := cs, ser := q.ser + 1 })) n 4) n q)
    | _, _ => .error (.fault 5 none)

/-- C.LOOP: decrement and branch while not zero (R356). -/
def execCLoop (ca : BitVec 4) (imm : BitVec 20) (s : State) : Host.Outcome State Fault Refusal :=
  command (.cLoop ca imm) s fun n q => do
    let t ← flowTarget q imm
    let v := q.reg ca - 1
    return if v ≠ 0 then goTo s n (q.setReg ca v) t else complete (s.setQueue n (q.setReg ca v)) n 1

/-- C.IB: enter a buffer (R357). HEAD, or the outer buffer's index, stays at the C.IB until the buffer ends. -/
def execCIb (ca cb : BitVec 4) (s : State) : Host.Outcome State Fault Refusal :=
  command (.cIb ca cb) s fun n q =>
    let len := (q.reg cb).toNat
    if q.lv = 4 then .error (.fault 4 none)
    else if len = 0 ∨ 2 ^ 20 < len then .error (.fault 2 none)
    else if bits (q.reg ca) 0 3 ≠ 0 then .error (.fault 8 none)
    else .ok (noteOwner (s.setQueue n (boundary { q with bufs := (q.reg ca, len, 0) :: q.bufs, lv := q.lv + 1, ser := q.ser + 1 })) n q)

/-! ### Work commands (R358 to R364) -/

/-- The payload of a launch: the oref, then n registers (R358). -/
def launchPayload (q : Queue) (ca cb : BitVec 4) (n : Nat) : List Word :=
  q.reg ca :: (List.range n).map fun i => q.c[cb.toNat + i]?.getD 0

/-- The CONTROL message of a launch to virtual PE `v` (R185, R358) (DEDUCED, log entry 30). -/
def launchMsg (qn : Nat) (q : Queue) (ch : BitVec 5) (pay : List Word) (v : Nat) : Msg :=
  ⟨word (fields [(4, 0), (4, pay.length), (3, 4), (5, ch.toNat), (24, qn), (24, v)]), pay, q.ser, 0, none, 0, qn, true, none, none⟩

/-- The grid capsule of a queue's context, when a launch names it: NOCAP otherwise (R358). -/
def launchCapsule (s : State) (q : Queue) (cap : BitVec 23) : Except CHalt (Context × Capsule) :=
  match s.ctx q.ctx with
  | none => .error (.fault 13 none)
  | some x =>
    if x.caps.has cap.toNat ∧ x.grid = cap.toNat then
      match s.caps.find cap.toNat with
      | some g => .ok (x, g)
      | none => .error (.fault 13 none)
    else .error (.fault 13 none)

/-- Send launch messages of a queue into the network. -/
def sendLaunches (s : State) (q : Queue) (ms : List (Nat × Msg)) : State :=
  ms.foldl (fun s m => sendPacket s ⟨s.devId.toNat, q.ctx, s.devId.toNat, q.ctx, m.1, 24, 0, m.2⟩) s

/-- C.LAUNCH (R358, R185). -/
def execCLaunch (ca cb : BitVec 4) (ch : BitVec 5) (k : BitVec 3) (cap : BitVec 23) (s : State) : Host.Outcome State Fault Refusal :=
  command (.cLaunch ca cb ch k cap) s fun n q => do
    let (x, g) ← launchCapsule s q cap
    let v := bits (q.reg ca) 0 52 / g.grain % x.fold.v
    .ok (complete (sendLaunches s q [(v, launchMsg n q ch (launchPayload q ca cb k.toNat) v)]) n 1)

/-- C.LAUNCHALL: to every virtual PE in increasing order, 64 messages for each command counted (R358, R348). -/
def execCLaunchall (ca cb : BitVec 4) (ch : BitVec 5) (k : BitVec 3) (cap : BitVec 23) (s : State) : Host.Outcome State Fault Refusal :=
  command (.cLaunchall ca cb ch k cap) s fun n q => do
    let (x, _) ← launchCapsule s q cap
    let m := min 64 (x.fold.v - q.launched)
    let pay := launchPayload q ca cb k.toNat
    let s := sendLaunches s q ((List.range m).map fun i => (q.launched + i, launchMsg n q ch pay (q.launched + i)))
    if q.launched + m < x.fold.v then
      .ok (s.setQueue n { s.queue n with launched := q.launched + m, service := some (.cLaunchall ca cb ch k cap) })
    else .ok (complete s n 1)

/-- C.COPY: kick copy hart `hart` of the engine's die, and wait for its answer (R359). -/
def execCCopy (ca hart : BitVec 4) (s : State) : Host.Outcome State Fault Refusal :=
  command (.cCopy ca hart) s fun n q =>
    if 2 ^ 16 ≤ (q.reg ca).toNat then .error (.fault 2 none)
    else .ok (queueKick (serviceWait s n (.cCopy ca hart) q.state) n q.eng hart.toNat (q.reg ca) true)

/-- The condition of C.WAITSEM (R360). -/
def semaphoreMet (cond : BitVec 2) (v w : Word) : Bool :=
  match cond.toNat with
  | 0 => decide (w.toNat ≤ v.toNat) | 1 => v == w | _ => v != w

/-- C.WAITSEM (R360): completes when the condition holds, with DEC taking w in the same action; else the queue waits. -/
def execCWaitsem (ca cb : BitVec 4) (cond : BitVec 2) (dec : BitVec 1) (sigq : BitVec 12) (sqv : BitVec 1) (s : State) :
    Host.Outcome State Fault Refusal :=
  command (.cWaitsem ca cb cond dec sigq sqv) s fun n q => do
    let w := q.reg cb
    let (v, s) ← if dec = 1 then qAtomic s n (q.reg ca) .cas fun v => if semaphoreMet cond v w then some (v - w) else none
      else qRead s n (q.reg ca) 1
    if semaphoreMet cond v w then .ok (complete s n 1)
    else if 3 ≤ q.state then .ok (s.setQueue n (leaveWait (s.queue n)))
    else if q.state = 2 then .ok (s.setQueue n { s.queue n with answer := none, stalled := none })
    else .ok (endServing (s.setQueue n { s.queue n with
      service := some (.cWaitsem ca cb cond dec sigq sqv), state := 2, answer := none, stalled := none, waitNs := 0 }) n)

/-- C.SIGSEM: add as one atomic, or store (R361). -/
def execCSigsem (ca cb : BitVec 4) (st : BitVec 1) (s : State) : Host.Outcome State Fault Refusal :=
  command (.cSigsem ca cb st) s fun n q => do
    if st = 1 then qStore s n (.cSigsem ca cb st) (q.reg ca) (q.reg cb)
    else
      let (_, s) ← qAtomic s n (q.reg ca) .add fun v => some (v + q.reg cb)
      .ok (complete s n 1)

/-- C.FENCE completes when no copy of the queue is in flight (R362); until then the queue stays READY and stands at it. -/
def execCFence (s : State) : Host.Outcome State Fault Refusal :=
  command .cFence s fun n q => if q.copies = 0 then .ok (complete s n 1) else .error .wait

/-- C.STAMP: TIME at the command's start, then SER and queue number (R363). -/
def execCStamp (ca : BitVec 4) (s : State) : Host.Outcome State Fault Refusal :=
  command (.cStamp ca) s fun n q => do
    let s ← qWrite s n (q.reg ca) (wordBytes [q.stalled.getD s.time, word (fields [(12, n), (36, q.ser.toNat)])])
    .ok (complete s n 1)

/-- C.INTR: an MSI-X vector of the function that owns the queue's context (R364). -/
def execCIntr (vec : BitVec 11) (s : State) : Host.Outcome State Fault Refusal :=
  command (.cIntr vec) s fun n q =>
    let fn := ((s.ctx q.ctx).map fun x => x.fn).getD 0
    if (s.iface fn).msix ≤ vec.toNat then .error (.fault 2 none) else .ok (complete (signal s fn vec.toNat) n 1)

/-! ### Privileged commands (R325, R365, R366) -/

/-- Why the service of a privileged command or a host instruction ends before its effect: a status with its value (Table 15.8), or a page that firmware has
still to make present, so that it is not over yet. -/
inductive SHalt where
  | status (code value : Nat)
  | later
  deriving DecidableEq, Repr

/-- The view under which firmware checks an oref of context `r`. -/
def serviceView (r : Nat) : View := ⟨some r, none, 0, false, true⟩

/-- CheckRef for firmware: a failure is BADOBJ with the cause (R365). A window is no object that holds data (DEDUCED, log entry 60). -/
def serviceCheck (s : State) (r : Nat) (o : Word) (n rts : Nat) : Except SHalt Target :=
  match checkRef s (serviceView r) o n rts 0 with
  | .ok t => match t.home with
    | .window _ => .error (.status 1 4)
    | .nowhere => if n = 0 then .ok t else .error (.status 1 4)
    | _ => .ok t
  | .error (.trap cause _ _ _ _) => .error (.status 1 cause)
  | .error _ => .error (.status 1 2)

/-- The keys of `n` bytes of an object; a page that is absent is made present first (R365). -/
def serviceKeys (s : State) (r : Nat) (t : Target) (n : Nat) : Except SHalt Located :=
  match locate s (serviceView r) t n false with
  | .ok l => .ok l
  | .error (.absent _ _ _) => .error .later
  | .error (.refused _) => .error (.status 1 4)

/-- Read `n` bytes at an oref; an object of another device answers with the event's bytes. -/
def serviceRead (s : State) (r : Nat) (o : Word) (n rts : Nat) : Except SHalt (List Byte) := do
  let t ← serviceCheck s r o n rts
  match t.home with
  | .remote => .ok (s.inp.bytes.take n)
  | _ =>
    let l ← serviceKeys s r t n
    .ok (s.bytesAt l)

/-- The doublewords of bytes. -/
def wordsOf : Nat → List Byte → List Word
  | 0, _ => []
  | n + 1, b => word (numOfBytes (b.take 8)) :: wordsOf n (b.drop 8)

/-- Read `n` doublewords at an oref. -/
def serviceWords (s : State) (r : Nat) (o : Word) (n rts : Nat) : Except SHalt (List Word) := do
  let b ← serviceRead s r o (8 * n) rts
  .ok (wordsOf n b)

/-- A field of `n` bytes at offset `a` of a byte string. -/
def fieldAt (b : List Byte) (a n : Nat) : Nat := numOfBytes ((b.drop a).take n)

/-- The 64 KiB pages of the object behind an oref that security core can copy now, up to 2^32 bytes, each with its bytes from the oref on (R325). -/
def copyPages (s : State) (r : Nat) (o : Word) : NMap (List Byte) :=
  match serviceCheck s r o 0 4 with
  | .error _ => []
  | .ok t =>
    if isRemoteHome t then []
    else
      let lo := bits o 0 52
      let hi := min (bits t.desc.w0 0 52) (lo + 2 ^ 32)
      ((List.range ((hi + 65535) / 65536)).drop (lo / 65536)).foldl (fun m p =>
        let a := max lo (65536 * p)
        let n := min hi (65536 * (p + 1)) - a
        match if n = 0 then none else (serviceRead s r (o + word (a - lo)) n 4).toOption with
        | some b => m.put p b
        | none => m) []

/-- `n` bytes at an oref as the copy of its object has them: those of a page not copied yet are copied now. -/
def readCopied (s : State) (r : Nat) (m : NMap (List Byte)) (o : Word) (n : Nat) : Except SHalt (List Byte) := do
  let t ← serviceCheck s r o n 4
  if isRemoteHome t then serviceRead s r o n 4
  else
    let lo := bits o 0 52
    ((List.range ((lo + n + 65535) / 65536)).drop (lo / 65536)).foldlM (fun b p => do
      let a := max lo (65536 * p)
      let len := min (lo + n) (65536 * (p + 1)) - a
      match m.find p with
      | some x => .ok (b ++ x.take len)
      | none =>
        let x ← serviceRead s r (o + word (a - lo)) len 4
        .ok (b ++ x)) []

/-- Step 1 of Table 14.3: the OLEN bytes of the code object that C.INSTALL names, copied; an object without X, or shorter than OLEN, is BADOBJ. -/
def copyObject (s : State) (r : Nat) (m : NMap (List Byte)) (o : Word) : Except SHalt (List Byte) := do
  let _ ← serviceCheck s r o 0 4
  let head ← readCopied s r m o 16
  let olen := fieldAt head 8 8
  if 2 ^ 32 < olen then .error (.status 1 0) else .ok ()
  match readCopied s r m o olen with
  | .error (.status 1 3) => .error (.status 1 0)
  | x => x


/-- A privileged command faults with PRIV on a queue without PRIV (R352). -/
def privileged (q : Queue) : Except CHalt Unit := if q.priv then .ok () else .error (.fault 3 none)

/-- Hand a privileged command to the lead: the queue is in WAIT until it has been served (`PRIVILEGED_COMMAND_COMPLETE`). Of the object that `copy` names the
security core copies every page now that is present; an absent one is copied as soon as the service finds it present (R325, R365) (DEDUCED, log entry 44). -/
def handOver (i : Instr) (s : State) (copy : Queue → Option Word := fun _ => none) : Host.Outcome State Fault Refusal :=
  command i s fun n q => do
    privileged q
    let b := ((copy q).map (copyPages s q.ctx)).getD []
    .ok (endServing (s.setQueue n { q with service := some i, state := 2, answer := none, result := none, waitNs := 0, sealed := b, installing := none }) n)

/-- C.INSTALL (R325, R365). -/
def execCInstall (ca cb cc dies : BitVec 4) (s : State) : Host.Outcome State Fault Refusal := 
  handOver (.cInstall ca cb cc dies) s fun q => some (q.reg ca)
/-- C.REBUILD (R332, R365). -/
def execCRebuild (ca cc : BitVec 4) (s : State) : Host.Outcome State Fault Refusal := handOver (.cRebuild ca cc) s
/-- C.DELETE (R333, R365). -/
def execCDelete (ca cc : BitVec 4) (s : State) : Host.Outcome State Fault Refusal := handOver (.cDelete ca cc) s
/-- C.STRIKE (R383, R365). -/
def execCStrike (ca cc : BitVec 4) (s : State) : Host.Outcome State Fault Refusal := handOver (.cStrike ca cc) s
/-- C.PITCH (R387, R365). -/
def execCPitch (ca cc : BitVec 4) (late : BitVec 1) (s : State) : Host.Outcome State Fault Refusal := handOver (.cPitch ca cc late) s
/-- C.SAVE (R376, R365). -/
def execCSave (ca cb cc : BitVec 4) (s : State) : Host.Outcome State Fault Refusal := handOver (.cSave ca cb cc) s
/-- C.RESTORE (R378, R365). -/
def execCRestore (ca cb cc : BitVec 4) (s : State) : Host.Outcome State Fault Refusal := handOver (.cRestore ca cb cc) s

/-- Abandon a C.WAITSEM: the queue stands at it again, READY; its serial was taken (R347). -/
def abandonWait (q : Queue) : Queue :=
  match q.service with
  | some (.cWaitsem _ _ _ _ _ _) => { leaveWait q with state := if q.state = 2 then 1 else q.state }
  | _ => q

/-- Stop a queue at its next command boundary (R366): at once when none of its commands is under way. -/
def haltQueue (q : Queue) : Queue :=
  if q.state = 0 ∨ 3 ≤ q.state then q
  else
    let q := abandonWait q
    if q.service.isSome ∨ 0 < q.launched then { q with stopReq := true } else { q with state := 3 }

/-- The record of queue `m` after a halt: one that is FREE, in STOP or in FAULT stays as it is (R366). -/
def halted (m : Nat) (q : Queue) : Queue := if q.state = 0 ∨ 3 ≤ q.state then q else bumpVersion m (haltQueue q)

/-- C.HALT (R366): the named queue may be the issuing one, whose boundary is after this command. -/
def execCHalt (ca : BitVec 4) (s : State) : Host.Outcome State Fault Refusal :=
  command (.cHalt ca) s fun n q => do
    privileged q
    let m := (q.reg ca).toNat
    if 4096 ≤ m then .error (.fault 2 none)
    else if m = n then .ok (complete (s.setQueue n { q with stopReq := true }) n 1)
    else .ok (complete (s.setQueue m (halted m (s.queue m))) n 1)

/-! ### Answers -/

/-- Whether a waiting command asked another device for something. -/
def asksRemote : Instr → Bool
  | .cLd _ _ _ => true
  | .cSt _ _ _ => true
  | .cWaitsem _ _ _ _ _ _ => true
  | .cSigsem _ _ _ => true
  | .cStamp _ => true
  | _ => false

/-- Run a memory command again, for an answer or a second look at a semaphore. -/
def rerun (i : Instr) (s : State) : State :=
  match (match i with
    | .cLd ca cb imm => execCLd ca cb imm s
    | .cSt ca cb imm => execCSt ca cb imm s
    | .cWaitsem ca cb cond dec sigq sqv => execCWaitsem ca cb cond dec sigq sqv s
    | .cSigsem ca cb st => execCSigsem ca cb st s
    | .cStamp ca => execCStamp ca s
    | _ => .next s) with
  | .next t => t
  | _ => s

/-- Whether queue `n` has a kick on its way or waiting at a hart. -/
def kickOut (s : State) (n : Nat) : Bool :=
  (s.posted.any fun p => p.agent == .queue n && isKick p) || s.harts.any fun e => e.2.waiting.any fun k => k.agent == .queue n

/-- The answer of another device reaches a queue: the words at its position, or what its command asked for. -/
def answerQueue (s : State) (n : Nat) : State :=
  let q := s.queue n
  if q.asking then
    let q := { q with asking := false }
    match s.inp.n with
    | 0 => s.setQueue n { q with fetched := [word (numOfBytes (s.inp.bytes.take 8)), word (numOfBytes ((s.inp.bytes.drop 8).take 8))] }
    | 1 => faultQueue (s.setQueue n q) n 10
    | 2 => faultQueue (s.setQueue n q) n 11
    | _ => faultQueue (s.setQueue n q) n 12
  else match q.service with
  | some i =>
    if asksRemote i && !kickOut s n && q.stalled.isNone then rerun i ({ s with cur := .queue n }.setQueue n { s.queue n with answer := some true }) else s
  | none => s

/-- `MEMORY_RESPONSE` (R233, R240): the response of a remote load or atomic reaches its agent; the access performs at this moment (DESIGN CHOICE, log entry 12).
The input holds a remote device's answer: 0 with bytes, 2 for ABSENT, 3 for a lost request. -/
def execMemoryResponse (s : State) : Host.Outcome State Fault Refusal :=
  match s.inp.agent with
  | .queue n => .next (answerQueue s n)
  | a => .next (answerAgent s a)

/-- `REMOTE_REFUSAL_RETURN` (R20): a remote device's refusal traps the load or atomic, or releases the count of the discarded store. -/
def execRemoteRefusalReturn (s : State) : Host.Outcome State Fault Refusal :=
  match s.inp.refused with
  | .access (.queue n) => .next (answerQueue { s with inp := { s.inp with n := 1 } } n)
  | .access a => .next (answerAgent { s with inp := { s.inp with n := 1 } } a)
  | .store i =>
    match takeAt s.posted i with
    | none => .next s
    | some (p, rest) => if toRemote p then .next (uncount { s with posted := rest } p) else .next s

/-- `COPY_KICK_ANSWER` (R359): the hart's answer to a kick reaches the command engine: C.COPY completes, with one copy more in flight since the hart
accepted it, or faults with RIGHTS; a C.ST or C.SIGSEM to KICK completes either way (R105). -/
def execCopyKickAnswer (s : State) : Host.Outcome State Fault Refusal :=
  let n := s.inp.queue
  let q := s.queue n
  match q.service, q.answer with
  | some (.cCopy _ _), some true => .next (complete s n 1)
  | some (.cCopy _ _), some false => .next (faultQueue s n 10)
  | some (.cSt _ _ _), some _ => if kickOut s n then .next s else .next (complete s n 1)
  | some (.cSigsem _ _ _), some _ => if kickOut s n then .next s else .next (complete s n 1)
  | _, _ => .next s

/-- `SEMAPHORE_RECHECK` (R360): the engine reads a waited semaphore again. -/
def execSemaphoreRecheck (s : State) : Host.Outcome State Fault Refusal :=
  let n := s.inp.queue
  let q := s.queue n
  match q.service with
  | some (.cWaitsem ca cb cond dec sigq sqv) =>
    if q.state = 2 ∧ q.map then .next (rerun (.cWaitsem ca cb cond dec sigq sqv) { s with cur := .queue n }) else .next s
  | _ => .next s

/-- `WAIT_REPORT_TIMEOUT` (R367): after WTO ms of waiting with SQV, a signaller that is unmapped or FREE is reported: queue, oref of S, SIGQ; and again
every WTO ms. -/
def execWaitReportTimeout (s : State) : Host.Outcome State Fault Refusal :=
  let n := s.inp.queue
  let q := s.queue n
  match q.service with
  | some (.cWaitsem ca _ _ _ sigq sqv) =>
    let g := s.queue sigq.toNat
    if q.state = 2 ∧ sqv = 1 ∧ q.wto ≠ 0 ∧ q.wto * 1000000 ≤ q.waitNs ∧ (!g.map ∨ g.state = 0) then
      .next (errorRecord (s.setQueue n { q with waitNs := 0 }) 11 2 (some q.ctx) q.eng 1 (fields [(12, n), (12, sigq.toNat)]) (q.reg ca).toNat)
    else .next s
  | _ => .next s

/-! ### The command engine (R348, R350) -/

/-- Read a command word of a queue: the ring's or the buffer's word `i` from the current one on; one whose offset would leave the offset field lies in no
object (BOUNDS). -/
def fetchWord (s : State) (n : Nat) (q : Queue) (i : Nat) : Except CHalt (Word × State) :=
  let (b, e) : Word × Nat := match q.bufs with
    | [] => (q.base, (q.head.toNat + i) % 2 ^ q.lsz)
    | (o, _, j) :: _ => (o, j + i)
  if 2 ^ 52 ≤ bits b 0 52 + 8 * e then .error (.fault 9 none)
  else
  let o := b + word (8 * e)
  match qCheck s n o 8 1 with
  | .error h => .error h
  | .ok t =>
    if isRemoteHome t then
      match q.fetched[i]? with
      | some w => .ok (w, s)
      | none => .error .ask
    else qRead s n o 1

/-- Whether there is a second word: before TAIL in the ring, before the end in a buffer (R350). -/
def hasSecond (q : Queue) : Bool :=
  match q.bufs with
  | [] => decide (1 < q.pending)
  | (_, len, j) :: _ => decide (j + 1 < len)

/-- Fetch and decode the current command of a queue: BADOP, BADFLD, a missing second word BADTGT, or the fault of the read (DEDUCED, log entry 28). -/
def fetchCommand (s : State) (n : Nat) : Except CHalt (Instr × State) := do
  let q := s.queue n
  let (w, s) ← fetchWord s n q 0
  let (w2, s) ←
    if bits w 56 8 = 2 then
      if hasSecond q then fetchWord s n q 1 else .error (.fault (if bits w 0 52 ≠ 0 then 2 else 6) none)
    else .ok (0, s)
  match decodeCommand w.toNat w2.toNat with
  | .error e => .error (.fault e none)
  | .ok i => if wellFormed i then .ok (i, s) else .error (.fault 2 none)

/-- Whether queue `n` can be served by the engine of die `d`. -/
def servable (s : State) (d n : Nat) : Bool := runnableQueue (s.queue n) && (s.queue n).eng == d && !s.stoppedAll

/-- The queue an engine picks: highest PRI, and among equals the first after the one it served last (R348). -/
def pickQueue (s : State) (d : Nat) : Option Nat :=
  let last := (s.engine d).last
  let ns := (s.queues.map (·.1)).filter (servable s d)
  let top := ns.foldl (fun p n => max p (s.queue n).pri) 0
  let ns := ns.filter fun n => (s.queue n).pri == top
  ((ns.filter (last < ·)) ++ (ns.filter (· ≤ last))).head?

/-- `COMMAND_ENGINE_SELECT` (R348): an engine that has finished with a queue picks the next. -/
def execCommandEngineSelect (s : State) : Host.Outcome State Fault Refusal :=
  let d := s.inp.die
  let e := s.engine d
  let busy := match e.serving with | some n => servable s d n && decide (e.served < 64) | none => false
  if busy then .next s
  else
    let s := dropServed s d
    match pickQueue s d with
    | some n => .next (s.setEngine d ⟨some n, 0, (s.engine d).last⟩)
    | none => .next s

/-- Everything before the meaning of an engine's next command: the command and the state it starts in, or how the turn ends. A stale replica is
fetched again from the owner (R341). -/
def engineTurn (s : State) (d : Nat) : Except State (Instr × State) :=
  let e := s.engine d
  match e.serving with
  | none => .error s
  | some n =>
    if !servable s d n then .error (dropServed s d)
    else if 64 ≤ e.served then .error (endServing s n)
    else
      let s := { s.setEngine d { e with served := if (s.queue n).stalled.isSome then e.served else e.served + 1 } with cur := .queue n }
      match (s.queue n).service with
      | some i => .ok (i, s)
      | none =>
      let s := leaveBuffers s n 4
      if !servable s d n then .error (dropServed s d)
      else match fetchCommand s n with
      | .ok (i, s) => .ok (i, s.setQueue n { s.queue n with fetched := [], stale := (s.queue n).stale.drop d })
      | .error .ask => .error (endServing (s.setQueue n { s.queue n with asking := true }) n)
      | .error (.fault code none) => .error (faultQueue s n code)
      | .error (.fault code (some o)) => .error (refuseAccess (faultQueue s n code) (s.queue n).ctx d o)
      | .error (.poison t) => .error (faultQueue t n 12)
      | .error (.lost dev) => .error (faultQueue (noRoute s (s.queue n).ctx dev) n 12)
      | .error .wait => .error s

end Sys2Proof.Machine
end

