-- ==== Sys2Proof/Machine/Merner.lean ====
section
/-! DEFINITION. The Merner form (R197 to R202, R416): the records of a capsule's list, and what installation checks of them. -/

namespace Sys2Proof.Machine

/-- A word of a list as a record (Table 8.7), or as the wide word of a CONST (`data`). -/
structure Record where
  opx : Nat
  s1 : Nat
  s2 : Nat
  s3 : Nat
  attr : Nat
  data : Bool
  deriving DecidableEq, Repr

/-- The records of a list; the word after a CONST with wide = 1 is data (Table 8.8). -/
def recordsOf : Bool → List Word → List Record
  | _, [] => []
  | true, _ :: ws => ⟨0, 0, 0, 0, 0, true⟩ :: recordsOf false ws
  | false, w :: ws =>
    let r : Record := ⟨bits w 0 10, bits w 10 12, bits w 22 12, bits w 34 12, bits w 46 18, false⟩
    r :: recordsOf (r.opx == 0x3F5 && bit w 63) ws

/-- What a record may hold: the width of its attribute field, which of S1, S2, S3 it has, and whether it produces a value. -/
structure Shape where
  attr : Nat
  src : Bool × Bool × Bool
  value : Bool
  deriving DecidableEq, Repr

/-- The shape of a vector record from its index: format V (R198, Table 8.2). VREDA, VREDX and VCMP do not read vd. -/
def vectorShape (opx : Nat) : Shape :=
  let two : Bool := opx ≤ 0x083 || (0x08F ≤ opx && opx ≤ 0x096) || 0x098 ≤ opx && opx != 0x09A
  ⟨15, (true, two, opx != 0x098 && opx != 0x09A && !(0x08D ≤ opx && opx ≤ 0x094)), true⟩

/-- The shape of a Kreral record (R198, R200); none for LUI and an index Table 8.2 does not assign. -/
def kreralShape (opx : Nat) : Option Shape :=
  let r (a : Nat) (x y z v : Bool) : Option Shape := some ⟨a, (x, y, z), v⟩
  if opx ≤ 0x014 then r 9 true true false true
  else if opx ≤ 0x017 then r 9 true false false true
  else if opx = 0x01B then r 9 true false false true
  else if opx ≤ 0x01F then r 9 true true false true
  else if opx ≤ 0x027 then r 14 true false false true
  else if opx = 0x028 then none
  else if opx = 0x029 then r 14 true false false true
  else if opx ≤ 0x02F then r 18 true true false false
  else if opx = 0x030 then r 18 false false false false
  else if opx = 0x031 then r 18 false false false true
  else if opx ≤ 0x033 then r 14 true false false true
  else if opx ≤ 0x035 then r 9 false false false false
  else if opx ≤ 0x03D then r 14 true false false true
  else if opx ≤ 0x041 then r 14 true true false false
  else if opx ≤ 0x043 then r 14 true false false true
  else if opx ≤ 0x045 then r 14 true true false false
  else if opx = 0x046 then r 18 false false false true
  else if opx = 0x047 then r 18 false true false false
  else if opx ≤ 0x05D then r 9 true true (opx == 0x051 || opx == 0x05C) true
  else if opx ≤ 0x05F then r 9 false false false false
  else if opx ≤ 0x061 then r 9 true false false true
  else if opx = 0x063 then r 9 true true true false
  else if opx ≤ 0x065 then r 9 true true false false
  else if opx = 0x066 then r 9 true false false true
  else if opx = 0x069 then r 9 true true false false
  else if opx ≤ 0x06B then r 9 true false false false
  else if opx = 0x06C then r 12 true false false false
  else if opx = 0x06D then r 12 false false false false
  else if opx = 0x06E then r 12 false false false true
  else if opx = 0x06F then r 12 true false false false
  else if opx = 0x070 then r 12 false false false true
  else if opx = 0x071 then r 9 true true false false
  else if opx = 0x072 then r 9 false false false true
  else if opx = 0x074 ∨ opx = 0x077 then r 14 true true false false
  else if opx ≤ 0x077 then r 14 true false false true
  else if opx = 0x079 ∨ opx = 0x07C then r 18 true true false false
  else if opx ≤ 0x07C then r 18 true false false true
  else if opx ≤ 0x0A3 then some (vectorShape opx)
  else if opx ≤ 0x0A5 then r 17 true false false false
  else if opx = 0x0A6 then r 9 true false false false
  else if opx = 0x0A7 then r 9 true false false true
  else if opx = 0x0A8 then r 9 true false false false
  else if opx ≤ 0x0AB then r 9 false false false false
  else if opx = 0x0AC then r 9 true false false true
  else if opx = 0x0AD then r 9 false false false false
  else if opx = 0x0AE then r 9 true false false true
  else if opx = 0x0AF then r 9 true true false false
  else if opx ≤ 0x0B1 then r 9 true false false false
  else if opx ≤ 0x0B4 then r 15 true false false false
  else if opx = 0x0B5 then r 12 false false false true
  else if opx ≤ 0x0B8 then r 12 true false false true
  else if opx = 0x0B9 then r 9 true true false true
  else if opx ≤ 0x0BD then r 9 false false false false
  else none

/-- The shape of a record; the structural ones are those of Table 8.8. -/
def shapeOf (r : Record) : Option Shape :=
  match r.opx with
  | 0x3F0 => some ⟨0, (false, false, false), false⟩
  | 0x3F1 => some ⟨0, (false, false, false), false⟩
  | 0x3F2 => some ⟨3, (true, true, false), false⟩
  | 0x3F3 => some ⟨0, (true, true, true), true⟩
  | 0x3F4 => some ⟨0, (true, false, false), false⟩
  | 0x3F5 => some ⟨18, (false, false, false), true⟩
  | 0x3F6 => some ⟨16, (false, false, false), false⟩
  | x => kreralShape x

/-- Whether a vector record's destination names a queue register: then it produces no value (Table 8.9). Of the flags [11:9] of format V, bit 9 is taken as
that of vd, 10 as va's and 11 as vb's (DESIGN CHOICE, log entry 79). -/
def queueDest (r : Record) : Bool :=
  (0x07D ≤ r.opx && r.opx ≤ 0x0A3 && r.attr.testBit 9) || ((r.opx == 0x046 || (0x078 ≤ r.opx && r.opx ≤ 0x07C)) && r.attr.testBit 14)

/-- Whether a record produces a value. -/
def Record.value (r : Record) : Bool := !r.data && !queueDest r && ((shapeOf r).map (·.value)).getD false

/-- Records of format B. -/
def Record.branch (r : Record) : Bool := !r.data && 0x02A ≤ r.opx && r.opx ≤ 0x02F
/-- Records of format J. -/
def Record.jump (r : Record) : Bool := !r.data && (r.opx == 0x030 || r.opx == 0x031)
/-- A record after which control does not go on to the next one: J, END, YIELD. -/
def Record.stops (r : Record) : Bool := !r.data && (r.opx == 0x030 || r.opx == 0x034 || r.opx == 0x035)
/-- The block number that a B or J record names (Table 8.9). -/
def Record.target (r : Record) : Nat := if r.branch then r.attr / 8 else r.attr
/-- A record that ends its block (R201). -/
def Record.ends (r : Record) : Bool := r.branch || r.jump || r.stops || (!r.data && r.opx == 0x3F2)

/-- A block of a list: the record number of its BLOCK record and of its last record, its number in its handler, the handler's record, the LOOP
records open around it, and whether it is a loop head. -/
structure Block where
  at' : Nat
  last : Nat
  num : Nat
  handler : Nat
  loops : List Nat
  head : Bool
  deriving DecidableEq, Repr

/-- The blocks of a list from record `n` on, in order: the open block, the handler, the next block number, the open loops, and whether a loop head
comes next. -/
def blocksFrom : List Record → Nat → Option Block → Nat → Nat → List Nat → Bool → List Block
  | [], _, cur, _, _, _, _ => cur.toList
  | r :: rs, n, cur, h, num, loops, head =>
    let grown := cur.map fun b => { b with last := n }
    if r.data then blocksFrom rs (n + 1) grown h num loops head
    else if r.opx = 0x3F6 then cur.toList ++ blocksFrom rs (n + 1) none n 0 [] false
    else if r.opx = 0x3F0 then cur.toList ++ blocksFrom rs (n + 1) (some ⟨n, n, num, h, loops, head⟩) h (num + 1) loops false
    else if r.opx = 0x3F1 then cur.toList ++ blocksFrom rs (n + 1) none h num (n :: loops) true
    else if r.opx = 0x3F2 then grown.toList ++ blocksFrom rs (n + 1) none h num loops.tail false
    else if r.ends then grown.toList ++ blocksFrom rs (n + 1) none h num loops head
    else blocksFrom rs (n + 1) grown h num loops head

/-! ### Formats and selectors (Tables 8.1, 8.2, 8.9) -/

/-- The formats of Table 8.1 as Table 8.9 lays their attributes out; `queue` is format R in MAJ 0x2C. -/
inductive Format where
  | reg | queue | imm | mem | branch | jump | vec | layout | pair | tile | csr
  deriving DecidableEq, Repr

/-- The rows of Table 8.2: first and last MAJ, format, lowest bit and width of the selector, and Base, which counts on over the MAJs of a row. -/
def opcodeRows : List (Nat × Nat × Format × Nat × Nat × Nat) :=
  [(0x00, 0x00, .reg, 23, 9, 0x000), (0x01, 0x01, .reg, 23, 9, 0x008), (0x02, 0x02, .reg, 23, 9, 0x00E), (0x03, 0x03, .reg, 23, 9, 0x015),
    (0x04, 0x04, .reg, 23, 9, 0x01A), (0x05, 0x0E, .imm, 0, 0, 0x020), (0x10, 0x10, .branch, 18, 3, 0x02A), (0x11, 0x12, .jump, 0, 0, 0x030),
    (0x13, 0x14, .imm, 0, 0, 0x032), (0x15, 0x15, .reg, 23, 9, 0x034), (0x18, 0x23, .mem, 0, 0, 0x036), (0x24, 0x24, .mem, 23, 2, 0x042),
    (0x25, 0x25, .layout, 29, 3, 0x046), (0x26, 0x26, .reg, 28, 4, 0x048), (0x27, 0x27, .reg, 28, 4, 0x053), (0x28, 0x28, .reg, 30, 2, 0x05E)]
  ++ [(0x29, 0x29, .reg, 29, 3, 0x060), (0x2A, 0x2A, .reg, 23, 9, 0x062), (0x2B, 0x2B, .reg, 23, 9, 0x067), (0x2C, 0x2C, .queue, 23, 9, 0x06C),
    (0x2D, 0x2D, .reg, 23, 9, 0x071), (0x30, 0x31, .mem, 0, 0, 0x073), (0x32, 0x32, .mem, 23, 2, 0x075), (0x33, 0x33, .mem, 23, 2, 0x077),
    (0x34, 0x34, .layout, 29, 3, 0x078), (0x35, 0x35, .vec, 26, 6, 0x07D), (0x36, 0x36, .vec, 26, 6, 0x086), (0x37, 0x37, .vec, 0, 0, 0x08C),
    (0x38, 0x38, .vec, 26, 6, 0x08D), (0x39, 0x39, .vec, 26, 4, 0x09B)]
  ++ [(0x50, 0x50, .pair, 28, 1, 0x0A4), (0x51, 0x51, .tile, 27, 5, 0x0A6), (0x52, 0x52, .pair, 28, 4, 0x0B2), (0x60, 0x60, .csr, 30, 2, 0x0B5),
    (0x61, 0x61, .reg, 23, 9, 0x0B9), (0x67, 0x67, .reg, 23, 9, 0x0BD)]

/-- Whether the attributes of a Kreral record repeat the selector of its form, where Table 8.9 holds those bits of the native word (R192, R200). -/
def selectorOk (r : Record) : Bool :=
  match (opcodeRows.filter fun e => e.2.2.2.2.2 ≤ r.opx).getLast? with
  | none => true
  | some (_, _, f, b, n, base) =>
    let here (at' : Nat) : Bool := r.attr / 2 ^ at' % 2 ^ n == r.opx - base
    match f with
    | .reg => here (b - 23)
    | .queue => here (b - 23)
    | .vec => n == 0 || here (b - 26)
    | .layout => here (b - 18)
    | .mem => n == 0 || here (b - 11)
    | .branch => here (b - 18)
    | _ => true

/-! ### Listings -/

/-- A list with its blocks, and what the manifest says of it: the handlers entered from other capsules, and the hints; and the list's words. -/
structure Listing where
  recs : List Record
  blocks : List Block
  entries : List Nat
  hints : List Byte
  words : List Word
  deriving DecidableEq, Repr

/-- Record `n` of a listing. -/
def Listing.item (l : Listing) (n : Nat) : Record := l.recs.getD n ⟨0x3FF, 0, 0, 0, 0, true⟩

/-- The block in which record `n` stands. -/
def Listing.blockAt (l : Listing) (n : Nat) : Option Block := l.blocks.find? fun b => b.at' ≤ n && n ≤ b.last

/-- The predecessors of a block, by the position of their last record (R201). -/
def Listing.preds (l : Listing) (b : Block) : List Block :=
  l.blocks.filter fun p =>
    p.handler == b.handler
      && ((p.num + 1 == b.num && !(l.item p.last).stops) || (((l.item p.last).branch || (l.item p.last).jump) && (l.item p.last).target == b.num))

/-- The dominators of each block, by BLOCK records: predecessors stand before a block, so one pass finds them (R201). -/
def Listing.dominators (l : Listing) : List (Nat × List Nat) :=
  l.blocks.foldl (fun acc b =>
    let of (p : Block) : List Nat := ((acc.find? fun e => e.1 == p.at').map (·.2)).getD []
    let ds : List Nat := match l.preds b with
      | [] => []
      | p :: ps => ps.foldl (fun d q => d.filter fun x => (of q).contains x) (of p)
    acc ++ [(b.at', b.at' :: ds)]) []

/-- Whether the block at `x` is block `b` or dominates it. -/
def dominates (doms : List (Nat × List Nat)) (x : Nat) (b : Block) : Bool :=
  ((doms.find? fun e => e.1 == b.at').map fun e => e.2.contains x).getD false

/-- Whether the record that source distance `d` of record `n` names is legal: it stands in the handler and produces a value (R201). -/
def Listing.names (l : Listing) (b : Block) (n d : Nat) : Bool := d ≤ n && b.handler < n - d && (l.item (n - d)).value

/-- A source of an ordinary record: its block, or one that dominates it. -/
def Listing.visible (l : Listing) (doms : List (Nat × List Nat)) (b : Block) (n d : Nat) : Bool :=
  l.names b n d && (l.blockAt (n - d)).any fun p => dominates doms p.at' b

/-- The MERGE records that stand at a block's head. -/
def Listing.merges (l : Listing) (b : Block) : List Nat := ((List.range (b.last - b.at')).map (b.at' + 1 + ·)).takeWhile fun n => (l.item n).opx == 0x3F3

/-- The CARRY records directly before record `n`. -/
def Listing.carries (l : Listing) (n : Nat) : List Nat :=
  (((List.range n).reverse.takeWhile fun m => !(l.item m).data && (l.item m).opx == 0x3F4)).reverse

/-- The loop head of the innermost loop around a block. -/
def Listing.loopHead (l : Listing) (b : Block) : Option Block :=
  match b.loops with
  | o :: _ => l.blocks.find? fun x => x.head && x.loops.head? == some o
  | [] => none

/-- Whether a MERGE without sources may stand at record `n`: an entry MERGE at the head of the first block of an exported handler or a stub, or a return
MERGE directly after a CALLX (R416). -/
def Listing.sourceless (l : Listing) (b : Block) (n : Nat) : Bool :=
  let before := (((List.range n).reverse.dropWhile fun m => (l.item m).opx == 0x3F3).head?).getD 0
  (before == b.at' && b.num == 0 && l.entries.contains b.handler) || (!(l.item before).data && (l.item before).opx == 0x033)

/-- The rules of a MERGE (R201, R416). -/
def Listing.mergeOk (l : Listing) (doms : List (Nat × List Nat)) (b : Block) (n : Nat) : Bool :=
  let r := l.item n
  let ds := [r.s1, r.s2, r.s3]
  if ds.all (· == 0) then l.sourceless b n
  else if !(l.merges b).contains n then false
  else
    let ps := l.preds b
    let here (p : Block) (d : Nat) : Bool :=
      d != 0 && l.names b n d && ((l.blockAt (n - d)).any fun x => x.at' == p.at') || l.visible doms b n d && d != 0
    if b.head then r.s2 == 0 && r.s3 == 0 && ps.any fun p => here p r.s1
    else (List.range 3).all fun i => match ps[i]? with
      | some p => here p (ds.getD i 0)
      | none => ds.getD i 0 == 0

/-- Whether record `n` is an entry MERGE hinted x1 (R416). -/
def Listing.entryLink (l : Listing) (n : Nat) : Bool :=
  let r := l.item n
  !r.data && r.opx == 0x3F3 && r.s1 == 0 && r.s2 == 0 && r.s3 == 0
    && ((l.blockAt n).any fun b => (l.merges b).contains n) && l.hints.getD n 0 == 0x81#8

/-- The link values among the records, in order, without the MERGEs of `bad` (R201). -/
def Listing.linksBut (l : Listing) (bad : List Nat) : List Bool :=
  (List.range l.recs.length).foldl (fun acc n =>
    let r := l.item n
    let of (d : Nat) : Bool := d == 0 || (d ≤ n && acc.getD (n - d) false)
    acc ++ [if r.data then false
      else if r.opx == 0x031 || r.opx == 0x032 || r.opx == 0x033 then true
      else if r.opx == 0x3F3 then l.entryLink n || (r.s1 != 0 && of r.s1 && of r.s2 && of r.s3 && !bad.contains n)
      else if r.opx == 0x3F4 then r.s1 != 0 && of r.s1
      else false]) []

/-- The MERGEs of loop heads that count as links although their CARRY is none. -/
def Listing.badLinks (l : Listing) (bad : List Nat) : List Nat :=
  let ls := l.linksBut bad
  (List.range l.recs.length).flatMap fun n =>
    if (l.item n).opx == 0x3F2 && !(l.item n).data then
      match (l.blockAt n).bind l.loopHead with
      | some h => ((l.merges h).zip (l.carries n)).filterMap fun p => if ls.getD p.1 false && !ls.getD p.2 false then some p.1 else none
      | none => []
    else []

/-- The link values (R201): a loop MERGE is one only if what comes back to it is. -/
def Listing.links (l : Listing) : List Bool :=
  l.linksBut ((List.range l.recs.length).foldl (fun bad _ => bad ++ l.badLinks bad) [])

/-- Whether a loop opened at record `n` is closed in its handler. -/
def closesLoop : List Record → Nat → Bool
  | [], _ => false
  | r :: rs, d =>
    if r.data then closesLoop rs d
    else if r.opx = 0x3F6 then false
    else if r.opx = 0x3F1 then closesLoop rs (d + 1)
    else if r.opx = 0x3F2 then if d = 0 then true else closesLoop rs (d - 1)
    else closesLoop rs d

/-- The target of a B or J record: a later block of the handler, outside every loop that does not hold the branch, and no loop head; a JAL's target is
reached by no fall-through (R201). -/
def Listing.targetOk (l : Listing) (b : Block) (n : Nat) : Bool :=
  let r := l.item n
  match l.blocks.find? fun x => x.handler == b.handler && x.num == r.target with
  | none => false
  | some t =>
    decide (n < t.at') && !t.head && t.loops.all b.loops.contains
      && (r.opx != 0x031 || !l.blocks.any fun p => p.handler == b.handler && p.num + 1 == t.num && !(l.item p.last).stops)

/-- Whether record `n` keeps R198 to R201. -/
def Listing.recordOk (l : Listing) (doms : List (Nat × List Nat)) (links : List Bool) (n : Nat) : Bool :=
  let r := l.item n
  if r.data then true
  else match shapeOf r with
  | none => false
  | some sh =>
    let (u1, u2, u3) := sh.src
    let fits := decide (r.attr < 2 ^ sh.attr) && (0x0BE ≤ r.opx || selectorOk r) && (u1 || r.s1 == 0) && (u2 || r.s2 == 0) && (u3 || r.s3 == 0)
    let next := l.item (n + 1)
    fits &&
    match r.opx with
    | 0x3F6 => next.opx == 0x3F0 && !next.data
    | 0x3F1 => next.opx == 0x3F0 && !next.data && closesLoop (l.recs.drop (n + 1)) 0 && (l.recs.take n).any (fun x => !x.data && x.opx == 0x3F6)
    | 0x3F0 =>
      match l.blockAt n with
      | none => false
      | some b =>
        let ps := l.preds b
        (l.recs.take n).any (fun x => !x.data && x.opx == 0x3F6) && decide (ps.length ≤ 3)
          && (!b.head || (ps.length == 1 && ps.all fun p => p.num + 1 == b.num))
    | _ =>
      match l.blockAt n with
      | none => false
      | some b =>
        let srcs := ([r.s1, r.s2, r.s3].filter (· != 0)).all (l.visible doms b n)
        match r.opx with
        | 0x3F3 => l.mergeOk doms b n
        | 0x3F4 => r.s1 != 0 && srcs && !next.data && (next.opx == 0x3F4 || next.opx == 0x3F2)
        | 0x3F2 =>
          srcs && decide (r.attr < 6) && !b.loops.isEmpty
            && (l.loopHead b).any fun h => (l.merges h).length == (l.carries n).length
        | 0x3F5 => r.attr < 2 ^ 17 || (l.recs[n + 1]?).isSome
        | _ =>
          srcs && (!(r.branch || r.jump) || l.targetOk b n) && (r.opx != 0x032 || (r.s1 != 0 && links.getD (n - r.s1) false))

/-- The first record of a list that breaks R198 to R201, or R416 for a capsule whose handlers call or are called across capsules. -/
def firstOffence (recs : List Record) (entries : List Nat) (hints : List Byte) : Option Nat :=
  let l : Listing := ⟨recs, blocksFrom recs 0 none 0 0 [] false, entries, hints, []⟩
  let doms := l.dominators
  let links := l.links
  let hinted := !entries.isEmpty || recs.any fun r => !r.data && r.opx == 0x033
  (List.range recs.length).find? fun n =>
    !(l.recordOk doms links n && (!hinted || !(l.item n).value || bit (hints.getD n 0) 7))

end Sys2Proof.Machine
end

