-- ==== Sys2Proof/Machine/Installer.lean ====
section
/-! DEFINITION. What the spec guarantees of every body that an installer derives from a Merner list (R196, R199 to R202, R326, R327, R416): the expansion
of each record, the order, the control flow and the data flow, the resume maps, and the register hints. A body that breaks one of these is none (DEDUCED, log entry 82). -/

namespace Sys2Proof.Machine

/-! ### Native words as operations with attributes (Tables 8.1, 8.2, 8.5, 8.9) -/

/-- The queue flags and the queue number of a format-V word of operation `op`: its vector fields of 16 to 23 name q0 to q7 (R191). -/
def queueFlags (op w : Nat) : Nat :=
  let d := if op = 0x098 ∨ op = 0x09A then 0 else field w 8 5
  let a := if op = 0x097 ∨ op = 0x099 ∨ op = 0x09A then 0 else field w 13 5
  let b := if op = 0x098 ∨ op = 0x099 then 0 else field w 18 5
  let q := if 16 ≤ d then d else if 16 ≤ a then a else b
  fields [(1, d / 16), (1, a / 16), (1, b / 16), (3, if 16 ≤ q then q else 0)]

/-- The attributes of a word (Table 8.9) but for a branch's target. -/
def attrOf (maj op w : Nat) : Format → Nat
  | .reg => field w 23 9
  | .queue => fields [(9, field w 23 9), (3, if op = 0x06E ∨ op = 0x070 then field w 13 5 else field w 8 5)]
  | .imm => field w 18 14
  | .mem => fields [(7, field w 25 7), (2, field w 18 2), (3, field w 20 3), (2, field w 23 2)]
  | .branch => field w 18 3
  | .jump => 0
  | .vec => fields [(6, field w 26 6), (3, field w 23 3), (6, queueFlags op w)]
  | .layout =>
    let d := field w 8 5
    fields [(6, field w 13 6), (2, field w 24 2), (3, field w 26 3), (3, field w 29 3), (1, d / 16), (3, if 16 ≤ d then d else 0)]
  | .pair => fields [(6, field w 11 6), (6, field w 17 6), (3, field w 8 3), (2, if maj = 0x50 then field w 30 2 else 0)]
  | .tile => field w 8 9
  | .csr => field w 18 12

/-- The operation index and the attributes of a 32-bit word. -/
def nativeOp (w : Nat) : Nat × Nat :=
  let maj := field w 1 7
  match opcodeRows.find? fun r => r.1 ≤ maj && maj ≤ r.2.1 with
  | some (lo, _, f, b, n, base) =>
    let op := base + (maj - lo) + field w b n
    (op, attrOf maj op w f)
  | none => (0x3FF, 0)

/-- A number of `n` bits as a signed one of `m` bits. -/
def widen (n m v : Nat) : Nat := if v < 2 ^ (n - 1) then v else v + 2 ^ m - 2 ^ n

/-- The 32-bit instruction that a 16-bit form expands to (Table 8.5). -/
def expansion (p : Nat) : Option Nat :=
  let a := field p 6 5
  let b := field p 11 5
  let r (maj rb fn : Nat) : Option Nat := some (fields [(1, 1), (7, maj), (5, a), (5, a), (5, rb), (9, fn)])
  let i (maj ra imm : Nat) : Option Nat := some (fields [(1, 1), (7, maj), (5, a), (5, ra), (14, imm)])
  let m (maj : Nat) : Option Nat := some (fields [(1, 1), (7, maj), (5, a), (5, b), (2, 0), (3, 3), (2, 0), (7, 0)])
  let z (cond : Nat) : Option Nat := some (fields [(1, 1), (7, 0x10), (5, a), (5, 0), (3, cond), (11, widen 5 11 b)])
  match field p 1 5 with
  | 1 => r 0x00 b 0 | 2 => r 0x00 b 1 | 3 => i 0x05 b 0
  | 4 => i 0x05 a (widen 5 14 b) | 5 => i 0x06 a (widen 5 14 b)
  | 6 => i 0x0A a b | 7 => i 0x0B a b | 8 => i 0x0C a b
  | 9 => r 0x00 b 2 | 10 => r 0x00 b 3 | 11 => r 0x00 b 4
  | 12 => m 0x1B | 13 => m 0x1A | 14 => m 0x23 | 15 => m 0x22
  | 16 => z 0 | 18 => z 1
  | 17 => some (fields [(1, 1), (7, 0x15), (24, 0)])
  | 19 => some (fields [(1, 1), (7, 0x11), (24, widen 10 24 (a + 32 * b))])
  | 20 => some (fields [(1, 1), (7, 0x13), (5, 0), (5, a), (14, 0)])
  | 21 => r 0x02 b 0
  | _ => none

/-- Whether some 16-bit form expands to exactly this word: its A and B are fields of the word. -/
def hasShort (w : Nat) : Bool :=
  (List.range 22).any fun op => [field w 8 5, field w 13 5].any fun a => [0, field w 13 5, field w 18 5, field w 21 5].any fun b =>
    expansion (fields [(1, 0), (5, op), (5, a), (5, b)]) == some w

/-! ### The expansion of a record (R326 items 1 and 4, R196) -/

/-- A native instruction of a body: where it stands, its length, itself, and its 32-bit word. -/
structure Native where
  at' : Nat
  len : Nat
  i : Instr
  w : Nat
  deriving DecidableEq, Repr

/-- The instruction at byte `p` of a body. -/
def nativeAt (b : List Byte) (p : Nat) : Option Native :=
  let w := codeAt b p 4
  let len := parcelLength w
  if b.length < p + len then none
  else match decodeKreral w with
    | .ok i => if wellFormed i then some ⟨p, len, i, if len = 4 then w else (expansion (w % 2 ^ 16)).getD 0⟩ else none
    | .error _ => none

/-- The instructions from `p` up to exactly `hi`. -/
def natives (b : List Byte) (hi : Nat) : Nat → Nat → Option (List Native)
  | 0, p => if p = hi then some [] else none
  | fuel + 1, p =>
    if p = hi then some []
    else match nativeAt b p with
      | some x => if hi < p + x.len then none else (natives b hi fuel (p + x.len)).map (x :: ·)
      | none => none

/-- Register-to-register operations: integer and reference forms, vector forms that name no queue register, and NOP. -/
def registerOp (op attr : Nat) : Bool := decide (op ≤ 0x029) || op == 0x0BD || (decide (0x07D ≤ op ∧ op ≤ 0x0A3) && attr / 2 ^ 9 % 8 == 0)

/-- Branches and J. -/
def steers (op : Nat) : Bool := decide (0x02A ≤ op ∧ op ≤ 0x030)

/-- Operations that only give a value: register-to-register ones may follow them in their record's expansion. -/
def onlyReads (op : Nat) : Bool :=
  decide (0x036 ≤ op ∧ op ≤ 0x03D) || [0x046, 0x066, 0x06E, 0x070, 0x072, 0x073, 0x078, 0x0AE, 0x0B5].contains op
    || decide (0x07D ≤ op ∧ op ≤ 0x0A3)

/-- Whether a record has native code of its own: a Kreral record, or an ENDLOOP. -/
def Record.hasCode (r : Record) : Bool := !r.data && (decide (r.opx < 0x0BE) || r.opx == 0x3F2)

/-! ### Control flow (R199, R201, R326) -/

/-- Where a taken branch or jump goes. -/
def Native.goal (x : Native) : Option Int :=
  let off (lo n : Nat) : Int := Int.ofNat x.at' + 2 * signed (field x.w lo n) n
  match field x.w 1 7 with
  | 0x10 => some (off 21 11) | 0x11 => some (off 8 24) | 0x12 => some (off 8 24) | _ => none

/-- Whether byte `e` is where control enters `t`, or a J outside every record's code, in the short form where one fits (R196), leads from it there. -/
def leads (b : Config.Body) (t : Nat) : Nat → Nat → Bool
  | 0, e => e == t
  | fuel + 1, e => e == t || (!(b.pos.any fun p => p.2.1 ≤ e && e < p.2.2) && match nativeAt b.bytes e with
    | some x => field x.w 1 7 == 0x11 && (x.len == 2 || !hasShort x.w) && (match x.goal with | some g => decide (0 ≤ g) && leads b t fuel g.toNat | none => false)
    | none => false)

/-- A list with a body: what the two together must satisfy. -/
structure Derivation where
  l : Listing
  body : Config.Body
  deriving DecidableEq, Repr

/-- The native range of record `n`. -/
def Derivation.range (d : Derivation) (n : Nat) : Option (Nat × Nat) := (d.body.pos.find? fun p => p.1 == n).map (·.2)

/-- The records at whose code control may enter a handler from record `n` on: past MERGE records, whose values an edge may carry, up to the first other
record that has code. -/
def Derivation.entryRecs (d : Derivation) (n : Nat) : List Nat :=
  let rest := ((List.range d.l.recs.length).drop n).takeWhile fun m => m == n || (d.l.item m).data || (d.l.item m).opx != 0x3F6
  let ranged := rest.filter fun m => (d.range m).isSome
  let soft (m : Nat) : Bool := decide (0x3F0 ≤ (d.l.item m).opx) && (d.l.item m).opx != 0x3F2
  (ranged.takeWhile soft) ++ ((ranged.dropWhile soft).head?).toList

/-- The BLOCK record that a B or J record names. -/
def Listing.targetRecord (l : Listing) (n : Nat) : Option Nat :=
  (l.blockAt n).bind fun b => (l.blocks.find? fun x => x.handler == b.handler && x.num == (l.item n).target).map (·.at')

/-- The BLOCK record of the loop head that an ENDLOOP goes back to. -/
def Listing.headRecord (l : Listing) (n : Nat) : Option Nat := ((l.blockAt n).bind l.loopHead).map (·.at')

/-! ### Liveness and resume maps (R327) -/

/-- A list of numbers, grown by what `f` gives of its members. -/
def growBy (f : Nat → List Nat) : Nat → List Nat → List Nat
  | 0, t => t
  | fuel + 1, t => growBy f fuel (t ++ ((t.flatMap f).filter fun n => !t.contains n).dedup)

/-- The CARRY whose value comes back to a MERGE of a loop head. -/
def Listing.backCarry (l : Listing) (m : Nat) : Option Nat :=
  match l.blockAt m with
  | some b =>
    if b.head then
      match (List.range l.recs.length).find? fun e => !(l.item e).data && (l.item e).opx == 0x3F2 && l.headRecord e == some b.at' with
      | some e => ((l.merges b).zip (l.carries e)).findSome? fun p => if p.1 = m then some p.2 else none
      | none => none
    else none
  | none => none

/-- The records that a MERGE or a CARRY passes on the value of. -/
def Listing.feeds (l : Listing) (m : Nat) : List Nat :=
  let r := l.item m
  if r.data then []
  else if r.opx = 0x3F3 then (([r.s1, r.s2, r.s3].filter (· != 0)).map (m - ·)) ++ (l.backCarry m).toList
  else if r.opx = 0x3F4 then [m - r.s1]
  else []

/-- The JAL records that a JALR may return to. -/
def Listing.returnsTo (l : Listing) (n : Nat) : List Nat :=
  (growBy l.feeds l.recs.length [n - (l.item n).s1]).filter fun m => !(l.item m).data && (l.item m).opx == 0x031

/-- The records that follow a record, each with the record that stands for the edge's predecessor. -/
def Listing.follows (l : Listing) (n : Nat) : List (Nat × Nat) :=
  let r := l.item n
  let next : List (Nat × Nat) :=
    if l.recs.length ≤ n + 1 || (!(l.item (n + 1)).data && (l.item (n + 1)).opx == 0x3F6) then [] else [(n, n + 1)]
  let jump (o : Option Nat) : List (Nat × Nat) := o.toList.map fun t => (n, t)
  if r.data then next
  else if r.branch then next ++ jump (l.targetRecord n)
  else if r.jump then jump (l.targetRecord n)
  else if r.stops then []
  else if r.opx = 0x032 then (l.returnsTo n).map fun j => (j, j + 1)
  else if r.opx = 0x3F2 then next ++ jump (l.headRecord n)
  else next

/-- The record whose value a MERGE record takes when control comes to its block behind record `via`. -/
def Listing.edgeSource (l : Listing) (via : Nat) (b : Block) (m : Nat) : Option Nat :=
  if b.head && (l.item via).opx == 0x3F2 then l.backCarry m
  else
    let from' := ((List.range (via + 1)).reverse.findSome? l.blockAt).map (·.at')
    match (l.preds b).findIdx? fun p => some p.at' == from' with
    | some i => (([(l.item m).s1, (l.item m).s2, (l.item m).s3].getD i 0 :: []).filter (· != 0)).head?.map (m - ·)
    | none => none

/-- The values that the MERGE records of a block read on the edge from record `via`. -/
def Listing.edgeReads (l : Listing) (via t : Nat) : List Nat :=
  match l.blocks.find? fun b => b.at' == t with
  | none => []
  | some b => (l.merges b).flatMap fun m => (l.edgeSource via b m).toList

/-- The values that a record itself reads. -/
def Listing.reads (l : Listing) (n : Nat) : List Nat :=
  let r := l.item n
  if r.data || r.opx == 0x3F3 then [] else ([r.s1, r.s2, r.s3].filter (· != 0)).map (n - ·)

/-- One pass over the values that are read at or after each record before they are produced again. -/
def Listing.livePass (l : Listing) (cur : List (List Nat)) : List (List Nat) :=
  (List.range l.recs.length).map fun n =>
    let out := (l.follows n).flatMap fun e => l.edgeReads e.1 e.2 ++ cur.getD e.2 []
    (l.reads n ++ out.filter (· != n)).dedup

/-- The values that are live at each record: a property of the list alone (R327). -/
def Listing.live (l : Listing) : List (List Nat) :=
  (List.range (l.recs.length + 1)).foldl (fun cur _ => l.livePass cur) (l.recs.map fun _ => [])

/-- The park points of R327. Every RPT record is one: LOAD stands in its sequence word, a value (DEDUCED, log entry 82). -/
def Record.parks (r : Record) : Bool :=
  let x := r.opx
  !r.data && (x == 0x3F6 || decide (0x032 ≤ x ∧ x ≤ 0x033) || decide (0x036 ≤ x ∧ x ≤ 0x03D) || decide (0x042 ≤ x ∧ x ≤ 0x043)
    || decide (0x048 ≤ x ∧ x ≤ 0x05D) || x == 0x06C || x == 0x06E || x == 0x071 || [0x073, 0x075, 0x076, 0x078, 0x07A, 0x07B].contains x
    || (decide (0x07D ≤ x ∧ x ≤ 0x0A3) && (r.attr.testBit 10 || r.attr.testBit 11)) || ((x == 0x079 || x == 0x07C) && r.attr.testBit 14)
    || decide (0x0A4 ≤ x ∧ x ≤ 0x0A8) || decide (0x0B0 ≤ x ∧ x ≤ 0x0B2) || x == 0x0B4)

/-- Whether record `n` of a list produces a vector value; a MERGE or CARRY has the kind of its first source. -/
def vectorValue (recs : List Record) : Nat → Nat → Bool
  | 0, _ => false
  | fuel + 1, n =>
    match recs[n]? with
    | none => false
    | some r =>
      let x := r.opx
      if r.data then false
      else if x = 0x3F3 ∨ x = 0x3F4 then r.s1 != 0 && r.s1 ≤ n && vectorValue recs fuel (n - r.s1)
      else (0x07D ≤ x && x ≤ 0x0A3 && x != 0x098 && x != 0x09A) || x == 0x046 || x == 0x073 || x == 0x075 || x == 0x076 || x == 0x078 || x == 0x07A
        || x == 0x07B || x == 0x0AE

/-- A place that can hold a value: a register of its file, or an offset in the spill frame of 4 KiB. -/
def placeFits (vec : Bool) : Config.Place → Bool
  | .scalar n => !vec && decide (1 ≤ n ∧ n < 32)
  | .vector n => vec && decide (n < 16)
  | .frame off => decide (off + (if vec then 64 else 8) ≤ 4096)

/-- The resume maps: one for each park point, with exactly the values live there, each in a place that can hold it and where its code expects it. -/
def Derivation.resumeOk (d : Derivation) (live : List (List Nat)) : Bool :=
  ((List.range d.l.recs.length).all fun n => !(d.l.item n).parks || d.body.resume.any fun e => e.1 == n)
  && d.body.resume.all fun e =>
    let r := d.l.item e.1
    let vals := live.getD e.1 []
    r.parks && (vals.all fun v => e.2.any fun p => p.1 == v) && e.2.all fun p =>
      vals.contains p.1 && placeFits (vectorValue d.l.recs p.1 p.1) p.2 && (r.opx == 0x3F6 || (d.body.maps.getD e.1 []).contains p)

/-! ### Register hints (R202, R326 item 3, R416) -/

/-- The register that a valid hint gives a value; the link of a JAL is in x1 whatever its hint. A hint of x0, or of the other file, names none.
DESIGN CHOICE (log entry 101): a hint with a reserved register file (2 or 3) names none either and is not refused. -/
def Listing.hintPlace (l : Listing) (n : Nat) : Option Config.Place :=
  let h := (l.hints.getD n 0).toNat
  let vec := vectorValue l.recs n n
  if !(l.item n).data && (l.item n).opx == 0x031 then some (.scalar 1)
  else if h < 128 then none
  else if h / 32 % 4 = 0 then (if vec || h % 32 == 0 then none else some (.scalar (h % 32)))
  else if h / 32 % 4 = 1 then (if vec && decide (h % 32 < 16) then some (.vector (h % 32)) else none)
  else none

/-- Whether the hint of a value meets another value's: both are live at some record. -/
def Listing.clashes (l : Listing) (live : List (List Nat)) (n : Nat) : Bool :=
  live.any fun t => t.contains n && t.any fun m => m != n && l.hintPlace m == l.hintPlace n

/-- Whether a list binds across capsules, so that every value stands where its hint names it (R416). -/
def Listing.bound (l : Listing) : Bool := !l.entries.isEmpty || l.recs.any fun r => !r.data && r.opx == 0x033

/-- Hints are honoured where the resume maps show it. -/
def Derivation.hintsOk (d : Derivation) (live : List (List Nat)) : Bool :=
  d.body.resume.all fun e => e.2.all fun p => match d.l.hintPlace p.1 with
    | some h => p.2 == h || (!d.l.bound && d.l.clashes live p.1)
    | none => true

/-- The handler in which record `n` stands. -/
def Listing.handlerOf (l : Listing) (n : Nat) : Option Nat :=
  (List.range (n + 1)).reverse.find? fun m => !(l.item m).data && (l.item m).opx == 0x3F6

/-- In a list that binds across capsules, a handler's code writes only registers that its hints name (R416). -/
def Derivation.writesOk (d : Derivation) : Bool :=
  !d.l.bound || d.body.pos.all fun p =>
    let named := (List.range d.l.recs.length).filterMap fun n => if d.l.handlerOf n == d.l.handlerOf p.1 then d.l.hintPlace n else none
    match natives d.body.bytes p.2.2 (p.2.2 - p.2.1) p.2.1 with
    | some xs => xs.all fun x =>
        ((scalarDest x.i).all fun r => r == 0 || named.contains (.scalar r.toNat))
          && (vectorDest x.i).all fun r => decide (16 ≤ r.toNat) || named.contains (.vector r.toNat)
    | none => false

/-! ### Data flow (R199, R200, R326 items 1, 4 and 5)

A body says where it keeps the values of the list when control enters the code of each record. From there the instructions of a record's code are followed
with symbols in place of values: the record's own operation, with its attributes and on its sources' values, gives the record's value; a copy passes a value on;
and on constants the integer instructions are the machine's own. Wherever control then goes, every value must stand where the code that it enters expects it. -/

/-- What is known of a place: the value of a record, or a constant. -/
inductive Sym where
  | value (n : Nat)
  | const (w : Word)
  deriving DecidableEq, Repr

/-- The value that a CONST record gives (Table 8.8). -/
def Listing.constant (l : Listing) (n : Nat) : Word :=
  let r := l.item n
  if r.attr / 2 ^ 17 = 1 then l.words.getD (n + 1) 0 else word (widen 17 64 (r.attr % 2 ^ 17))

/-- The value of a record: that of its source for a CARRY, and for an ADDI of 0, which a MOV stands for. -/
def Listing.sym (l : Listing) : Nat → Nat → Sym
  | 0, n => .value n
  | fuel + 1, n =>
    let r := l.item n
    if r.data then .value n
    else if r.opx = 0x3F5 then .const (l.constant n)
    else if r.opx = 0x3F4 ∨ (r.opx = 0x020 ∧ r.attr = 0) then if r.s1 = 0 then .const 0 else l.sym fuel (n - r.s1)
    else .value n

/-- Places with what is known of them. -/
abbrev Env := List (Config.Place × Sym)

/-- What is known of a place; x0 is zero. -/
def Env.get (e : Env) (p : Config.Place) : Option Sym :=
  if p = .scalar 0 then some (.const 0) else (e.find? fun x => x.1 == p).map (·.2)

/-- A place after a write of something known or unknown. -/
def Env.set (e : Env) (p : Config.Place) (v : Option Sym) : Env := (v.toList.map fun v => (p, v)) ++ e.filter fun x => x.1 != p

/-- The lowest bits of the register fields that sources S1, S2, S3 name (R198). -/
def sourceFields : Format → List Nat
  | .reg => [13, 18, 8] | .queue => [13, 18, 8] | .imm => [13] | .mem => [13, 8] | .branch => [8, 13] | .jump => [] | .vec => [13, 18, 8]
  | .layout => [19, 8] | .pair => [23] | .tile => [17, 22] | .csr => [13]

/-- The format of a word. -/
def formatOf (w : Nat) : Option Format := (opcodeRows.find? fun r => r.1 ≤ field w 1 7 && field w 1 7 ≤ r.2.1).map (·.2.2.1)

/-- Whether register field `v` holds the source at distance `s` of record `n`: x0 or a queue register for none, else a register of its file with its value. -/
def Derivation.holds (d : Derivation) (e : Env) (n s v : Nat) : Bool :=
  if s = 0 then v == 0 || 16 ≤ v
  else e.get (if vectorValue d.l.recs (n - s) (n - s) then .vector v else .scalar v) == some (d.l.sym d.l.recs.length (n - s))

/-- Whether an instruction is a record's own: its operation and attributes, on the values of its sources. -/
def Derivation.own (d : Derivation) (n : Nat) (e : Env) (x : Native) : Bool :=
  let r := d.l.item n
  !r.data && nativeOp x.w == (r.opx, if r.opx = 0x031 then 0 else r.attr) && match shapeOf r, formatOf x.w with
    | some sh, some f => ((sourceFields f).zip [(sh.src.1, r.s1), (sh.src.2.1, r.s2), (sh.src.2.2, r.s3)]).all fun y =>
        !y.2.1 || d.holds e n y.2.2 (field x.w y.1 5)
    | _, _ => false

/-- Integer and reference forms, and NOP. -/
def intOp (op : Nat) : Bool := decide (op ≤ 0x029) || op == 0x0BD

/-- Run an integer instruction of R204 to R208. -/
def runInteger (i : Instr) (s : State) : Host.Outcome State Fault Refusal :=
  match i with
  | .add rd ra rb => execAdd rd ra rb s
  | .sub rd ra rb => execSub rd ra rb s
  | .and rd ra rb => execAnd rd ra rb s
  | .or rd ra rb => execOr rd ra rb s
  | .xor rd ra rb => execXor rd ra rb s
  | .sll rd ra rb => execSll rd ra rb s
  | .srl rd ra rb => execSrl rd ra rb s
  | .sra rd ra rb => execSra rd ra rb s
  | .min rd ra rb => execMin rd ra rb s
  | .max rd ra rb => execMax rd ra rb s
  | .minu rd ra rb => execMinu rd ra rb s
  | .maxu rd ra rb => execMaxu rd ra rb s
  | .slt rd ra rb => execSlt rd ra rb s
  | .sltu rd ra rb => execSltu rd ra rb s
  | .mul rd ra rb => execMul rd ra rb s
  | .mulh rd ra rb => execMulh rd ra rb s
  | .mulhu rd ra rb => execMulhu rd ra rb s
  | .div rd ra rb => execDiv rd ra rb s
  | .divu rd ra rb => execDivu rd ra rb s
  | .rem rd ra rb => execRem rd ra rb s
  | .remu rd ra rb => execRemu rd ra rb s
  | .clz rd ra => execClz rd ra s
  | .ctz rd ra => execCtz rd ra s
  | .popc rd ra => execPopc rd ra s
  | .sext rd ra rb => execSext rd ra rb s
  | .zext rd ra rb => execZext rd ra rb s
  | .addi rd ra imm => execAddi rd ra imm s
  | .andi rd ra imm => execAndi rd ra imm s
  | .ori rd ra imm => execOri rd ra imm s
  | .xori rd ra imm => execXori rd ra imm s
  | .slti rd ra imm => execSlti rd ra imm s
  | .slli rd ra imm => execSlli rd ra imm s
  | .srli rd ra imm => execSrli rd ra imm s
  | .srai rd ra imm => execSrai rd ra imm s
  | .lui rd u => execLui rd u s
  | _ => .fault .noAgent

/-- An integer instruction on constants: what the machine's own instruction leaves in its destination. -/
def evalConst (i : Instr) (e : Env) : Option Word :=
  let x : Vector Word 32 := Vector.ofFn fun k : Fin 32 => match e.get (.scalar k.val) with | some (.const w) => w | _ => 0
  match runInteger i { State.reset.setSlot 0 0 { (State.reset.slot 0 0) with x := x } with cur := .slot 0 0 }, scalarDest i with
  | .next t, some rd => (t.slot 0 0).x[rd.toNat]?
  | _, _ => none

/-- What an instruction that is not a record's own puts into its destination, where that is known. -/
def given (e : Env) (x : Native) : Option Sym :=
  let (op, at') := nativeOp x.w
  let fixed (v : Nat) : Bool := match e.get (.scalar v) with | some (.const _) => true | _ => false
  if op = 0x020 ∧ at' = 0 then e.get (.scalar (field x.w 13 5))
  else if (op ≤ 0x019 ∧ fixed (field x.w 13 5) ∧ fixed (field x.w 18 5)) ∨ (0x020 ≤ op ∧ op ≤ 0x027 ∧ fixed (field x.w 13 5)) ∨ op = 0x028 then
    match decodeKreral x.w with
    | .ok i => (evalConst i e).map Sym.const
    | .error _ => none
  else none

/-- The destination of an instruction after it has put something there. -/
def Env.write (e : Env) (i : Instr) (v : Option Sym) : Env :=
  match scalarDest i, vectorDest i with
  | some r, _ => if r = 0 then e else e.set (.scalar r.toNat) v
  | none, some r => if 16 ≤ r.toNat then e else e.set (.vector r.toNat) v
  | none, none => e

/-- Follow the code of record `n`: what is known after it, and how often the record's own operation is there. Beside it only integer instructions may stand, and
they follow it only where it does no more than give a value. -/
def Derivation.follow (d : Derivation) (n : Nat) : Env → List Native → Option (Env × Nat)
  | e, [] => some (e, 0)
  | e, x :: xs =>
    if d.own n e x then
      if xs.isEmpty || onlyReads (d.l.item n).opx || intOp (d.l.item n).opx then
        (d.follow n (e.write x.i (some (d.l.sym d.l.recs.length n))) xs).map fun y => (y.1, y.2 + 1)
      else none
    else if intOp (nativeOp x.w).1 then d.follow n (e.write x.i (given e x)) xs
    else none

/-- What the value of record `v` is on the edge from record `via` to `t`: of a MERGE of a block that the edge enters, that of its source there. -/
def Listing.edgeSym (l : Listing) (via t : Nat) : Nat → Nat → Sym
  | 0, v => .value v
  | fuel + 1, v =>
    match l.blocks.find? fun b => t ≤ b.at' && (l.merges b).contains v with
    | none => l.sym l.recs.length v
    | some b =>
      match l.edgeSource (if l.blocks.any (fun c => t ≤ c.at' && c.at' < b.at') then b.at' - 1 else via) b v with
      | some m => if t ≤ m then l.edgeSym via t fuel m else l.sym l.recs.length m
      | none => .value v

/-- The places of values that a body's code expects at record `n`. -/
def Derivation.expects (d : Derivation) (n : Nat) : List (Nat × Config.Place) := d.body.maps.getD n []

/-- Whether control goes from byte `b`, behind record `via`, to record `t`, with every value where the code that it enters expects it. -/
def Derivation.edge (d : Derivation) (b : Int) (e : Env) (via t : Nat) : Bool :=
  decide (0 ≤ b) && (d.entryRecs t).any fun m =>
    ((d.range m).any fun r => leads d.body r.1 64 b.toNat) && (d.expects m).all fun p => e.get p.2 == some (d.l.edgeSym via t d.l.recs.length p.1)

/-- The same for the next record in order; there is none at the end of a handler. -/
def Derivation.on (d : Derivation) (b : Int) (e : Env) (n : Nat) : Bool := (d.entryRecs (n + 1)).isEmpty || d.edge b e n (n + 1)

/-- The turn of a branch or ENDLOOP: its condition on its sources, taken to where it names, or the opposite one taken to the next record. -/
def Derivation.turnOk (d : Derivation) (n : Nat) (e : Env) (x : Native) (other : Int) (t : Option Nat) : Bool :=
  let r := d.l.item n
  let go (b : Int) : Bool := t.any (d.edge b e n)
  let c := field x.w 18 3
  let g := x.goal.getD (-1)
  field x.w 1 7 == 0x10 && d.holds e n r.s1 (field x.w 8 5) && d.holds e n r.s2 (field x.w 13 5)
    && ((c == r.attr % 8 && go g && d.on other e n) || (c == Nat.xor (r.attr % 8) 1 && d.on g e n && go other))

/-- The MERGE records that stand directly after a CALLX take what their registers hold at the return (R416). -/
def Derivation.returned (d : Derivation) (n : Nat) (e : Env) : Env :=
  ((((List.range d.l.recs.length).drop (n + 1)).takeWhile fun m => !(d.l.item m).data && (d.l.item m).opx == 0x3F3)).foldl (fun e m =>
    match d.l.hintPlace m with | some p => e.set p (some (.value m)) | none => e) e

/-- The code of record `n` and where control goes from it: on to the next record in order, to the block it names, or both. -/
def Derivation.flowOk (d : Derivation) (n hi : Nat) (xs : List Native) : Bool :=
  let r := d.l.item n
  let code := xs.takeWhile fun x => !steers (nativeOp x.w).1
  let turns := xs.drop code.length
  let sure := ((d.expects n).map fun p => (p.2, d.l.sym d.l.recs.length p.1))
  (xs.all fun x => x.len == 2 || !hasShort x.w) && match d.follow n sure code with
  | none => false
  | some (e, owns) =>
    let h := Int.ofNat hi
    if r.branch || r.opx == 0x3F2 then
      let t := if r.branch then d.l.targetRecord n else d.l.headRecord n
      owns == 0 && match turns with
        | [x] => d.turnOk n e x h t
        | [x, y] => field y.w 1 7 == 0x11 && d.turnOk n e x (y.goal.getD (-1)) t
        | _ => false
    else if r.opx = 0x030 then
      owns == 0 && match turns with
        | [] => (d.l.targetRecord n).any (d.edge h e n)
        | [y] => field y.w 1 7 == 0x11 && (d.l.targetRecord n).any (d.edge (y.goal.getD (-1)) e n)
        | _ => false
    else
      turns.isEmpty && (owns == 1 || intOp r.opx || 0x0BE ≤ r.opx) &&
      if r.opx = 0x031 then
        ((code.getLast?).bind Native.goal).any (fun g => (d.l.targetRecord n).any (d.edge g e n)) && (d.entryRecs (n + 1)).any fun m =>
          (d.range m).any fun p => leads d.body p.1 64 hi
      else if r.opx = 0x032 then
        (d.l.returnsTo n).all fun j => (d.range j).any fun p => d.edge (Int.ofNat p.2) e j (j + 1)
      else if r.stops then true
      else d.on h (if r.opx = 0x033 then d.returned n e else e) n

/-- Where each handler's code begins: at the first record that has code, knowing only what an entry MERGE's register holds (R416). -/
def Derivation.beginsOk (d : Derivation) (h : Nat) : Bool :=
  match d.entryRecs h with
  | [] => false
  | m :: _ => (d.expects m).all fun p => d.l.hintPlace p.1 == some p.2 && (d.l.item p.1).opx == 0x3F3 && (d.l.item p.1).s1 == 0

/-- The position map and the code under it: ranges within the body, in the order of the records, that do not overlap, one for each record with code, each the
code of its record; what code expects is live there, or the value of a MERGE of its block. -/
def Derivation.codeOk (d : Derivation) (live : List (List Nat)) : Bool :=
  (d.body.pos.all fun p => decide (p.2.1 ≤ p.2.2 ∧ p.2.2 ≤ d.body.bytes.length) && !(d.l.item p.1).data && decide (p.1 < d.l.recs.length)
    && (match natives d.body.bytes p.2.2 (p.2.2 - p.2.1) p.2.1 with
      | some xs => d.flowOk p.1 p.2.2 xs
      | none => false)
    && (d.expects p.1).all fun v => (live.getD p.1 []).contains v.1
      || (decide (0x3F0 ≤ (d.l.item p.1).opx) && (d.l.blockAt p.1).any fun b => (d.l.merges b).contains v.1))
  && d.body.pos.Pairwise (fun p q => p.1 < q.1 ∧ (p.2.2 ≤ q.2.1 ∨ q.2.2 ≤ p.2.1))
  && (List.range d.l.recs.length).all fun n =>
    (!(d.l.item n).hasCode || (d.range n).isSome) && ((d.l.item n).data || (d.l.item n).opx != 0x3F6 || d.beginsOk n)

/-! ### The body of a list -/

/-- Whether a body is one that the spec's installer derives from a list. -/
def Derivation.ok (d : Derivation) : Bool :=
  let live := d.l.live
  d.codeOk live && d.resumeOk live && d.hintsOk live && d.writesOk

/-- The body that the installer of a build derives for a generation and a stepping (R326): the free value, where it is one that the spec allows. -/
def derive (l : Listing) (list : List Word) (ibh : BitVec 256) (gen step : BitVec 8) : Option Config.Body :=
  let b := Config.install ibh (gen.toNat * 256 + step.toNat) list l.hints
  if (Derivation.mk l b).ok then some b else none

/-- What `derive` gives is a body that the spec allows. -/
theorem derive_ok {l : Listing} {list : List Word} {ibh : BitVec 256} {gen step : BitVec 8} {b : Config.Body}
    (h : derive l list ibh gen step = some b) : (Derivation.mk l b).ok = true := by
  simp only [derive] at h
  split at h
  · next hk => cases h; exact hk
  · cases h

end Sys2Proof.Machine
end

