-- ==== Sys2Proof/Machine/Capsule.lean ====
section
/-! DEFINITION. Capsules (R322 to R334): the code object, installation, resume maps, page verification, rebuild, deletion and quarantine. -/

namespace Sys2Proof.Machine

/-! ### The code object (R322 to R324) -/

/-- The header of a code object, as its rules leave it (Table 14.1). -/
structure CodeHeader where
  olen : Nat
  moff : Nat
  mlen : Nat
  loff : Nat
  nword : Nat
  hoff : Nat
  npage : Nat
  key : Nat
  cver : Nat
  sigoff : Nat
  deriving DecidableEq, Repr

/-- Read a header and check its fields and the order of the parts (R322). -/
def codeHeader (b : List Byte) : Option CodeHeader :=
  let h (i lo n : Nat) : Nat := fieldAt b (8 * i) 8 / 2 ^ lo % 2 ^ n
  let x : CodeHeader := ⟨h 1 0 64, h 2 32 32, h 2 0 32, h 3 32 32, h 3 0 32, h 4 32 32, h 4 0 32, h 5 32 8, h 5 0 32, h 6 32 32⟩
  if h 0 0 32 = 0x4B524E4D ∧ h 0 32 32 = 1 ∧ x.olen % 8 = 0 ∧ x.olen ≤ 2 ^ 32 ∧ x.moff % 8 = 0 ∧ x.loff % 4096 = 0 ∧ 1 ≤ x.nword ∧ x.nword ≤ 2 ^ 24
      ∧ x.hoff % 8 = 0 ∧ x.npage = (x.nword + 511) / 512 ∧ h 5 40 24 = 0 ∧ x.sigoff + 132 = x.olen ∧ h 6 0 32 = 0
      ∧ ((List.range 9).all fun i => h (7 + i) 0 64 == 0)
      ∧ 128 ≤ x.moff ∧ x.moff + x.mlen ≤ x.loff ∧ x.loff + 8 * x.nword ≤ x.hoff ∧ x.hoff + 64 * x.npage ≤ x.sigoff then some x
  else none

/-- The sections of a manifest, by tag; none for a manifest that R324 refuses. -/
def sectionsOf : Nat → List Byte → List (Nat × List Byte) → Option (List (Nat × List Byte))
  | 0, _, _ => none
  | fuel + 1, b, acc =>
    let tag := fieldAt b 6 2
    let len := fieldAt b 0 6
    if b.length < 8 then none
    else if tag = 0 then some acc
    else if b.length < 8 + len then none
    else
      let rest := b.drop (8 + (len + 7) / 8 * 8)
      if 1 ≤ tag ∧ tag ≤ 9 then
        if acc.any fun e => e.1 == tag then none else sectionsOf fuel rest (acc ++ [(tag, (b.drop 8).take len)])
      else if tag / 2 ^ 15 = 1 then sectionsOf fuel rest acc
      else none

/-- The entries of `n` bytes of a section. -/
def entriesOf (n : Nat) (b : List Byte) : List Nat := (List.range (b.length / n)).map fun i => fieldAt b (n * i) n

/-- The portable side of a capsule from its manifest and its list; none for BADOBJ (Table 14.2). -/
def manifestOf (b : List Byte) (list : List Word) (recs : List Record) : Option Capsule :=
  match sectionsOf (b.length / 8 + 1) b [] with
  | none => none
  | some secs =>
    let sec (t : Nat) : List Byte := ((secs.find? fun e => e.1 == t).map (·.2)).getD []
    let has (t : Nat) : Bool := secs.any fun e => e.1 == t
    let g := sec 1
    let v := fieldAt g 0 8
    let x := fieldAt g 8 4
    let y := fieldAt g 12 4
    let z := fieldAt g 16 4
    let need := fieldAt (sec 2) 0 8
    let regions := (entriesOf 8 (sec 3)).map fun e => (e / 2 ^ 60, e % 2 ^ 60)
    let grain := fieldAt (sec 4) 0 8
    let bars := (entriesOf 4 (sec 5)).map fun e => (e / 2 ^ 16 % 256, e % 2 ^ 16)
    let hints := sec 9
    let round (n : Nat) : Nat := (n + 767) / 768 * 768
    if has 1 && has 2 && has 4 && has 6 && g.length == 20 && decide (1 ≤ v ∧ v ≤ 2 ^ 24)
        && ((x == 0 && y == 0 && z == 0) || (z == 0 && x * y == v) || (z != 0 && x * y * z == v))
        && (sec 2).length == 8 && (sec 3).length % 8 == 0 && decide (regions.length ≤ 16)
        && decide ((regions.map fun e => round e.2).sum ≤ round need)
        && (sec 4).length == 8 && decide (1 ≤ grain ∧ grain ≤ 2 ^ 32) && (sec 5).length % 4 == 0 && bars.all (fun e => e.2 != 0)
        && (sec 6).length % 8 == 0 && (sec 7).length % 4 == 0 && (sec 8).length % 4 == 0
        && (!has 9 || (hints.length == list.length && (recs.zip hints).all fun e => e.1.value || e.2 == 0)) then
      some {
        state := 0, body := ⟨[], [], [], []⟩, gen := 0, step := 0, ibh := 0, grid := (v, x, y, z), need := need, regions := regions, grain := grain
        barriers := bars
        handlers := (entriesOf 8 (sec 6)).foldl (fun m e => NMap.put m (e / 2 ^ 48) (e % 2 ^ 32)) []
        exports := entriesOf 4 (sec 7), stubs := entriesOf 4 (sec 8), hints := hints, list := list, hashes := [], digest := 0
        manifest := b, dies := 0, seals := [], stuck := false }
    else none

/-- The first record that HANDLERS, EXPORTS or STUBS breaks a rule with: every HANDLER record stands once, under its own index (R324). -/
def handlersOffence (b : List Byte) (x : Capsule) (recs : List Record) : Option Nat :=
  let rows := (((sectionsOf (b.length / 8 + 1) b []).getD []).find? fun e => e.1 == 6).map fun e => entriesOf 8 e.2
  let rows := rows.getD []
  let isH (n : Nat) : Bool := (recs[n]?).any fun r => !r.data && r.opx == 0x3F6
  let named := rows.find? fun e => !(isH (e % 2 ^ 32) && ((recs[e % 2 ^ 32]?).any fun r => r.attr == e / 2 ^ 48))
  let missing := (List.range recs.length).find? fun n => isH n && (rows.filter fun e => e % 2 ^ 32 == n).length != 1
  match named, missing, (x.exports ++ x.stubs).find? fun n => !isH n with
  | some e, _, _ => some (e % 2 ^ 32)
  | _, some n, _ => some n
  | _, _, o => o

/-- The 4 096-byte Merner pages of a list, the last one padded with zero (R323). -/
def mernerPages (list : List Word) : List (List Byte) :=
  (List.range ((list.length + 511) / 512)).map fun p =>
    let b := wordBytes ((list.drop (512 * p)).take 512)
    b ++ List.replicate (4096 - b.length) 0

/-- A 64-byte value as a vector. -/
def vecAt (b : List Byte) (a : Nat) : Vec := BitVec.ofNat 512 (fieldAt b a 64)

/-! ### Installation (R325, R326) -/

/-- The lowest free capsule identifier. -/
def freeIdent (s : State) : Option Nat :=
  (List.range (s.caps.length + 2)).find? fun n => n != 0 && decide (n < 2 ^ 23) && (s.caps.find n).isNone

/-- Steps 1 to 5 of Table 14.3 on the bytes of an object: the capsule without a body, or the status of the first step that fails (DEDUCED, log entry 44). -/
def checkCode (b : List Byte) : Except SHalt Capsule :=
  match codeHeader b with
  | none => .error (.status 1 0)
  | some h =>
    let digest := Config.sha512 (b.take h.sigoff)
    let list := wordsOf h.nword (b.drop h.loff)
    let recs := recordsOf false list
    let hashes := (List.range h.npage).map fun p => vecAt b (h.hoff + 64 * p)
    if !Config.ecdsaVerify h.key digest ((b.drop h.sigoff).take 132) || decide (h.cver < Config.versionFloor h.key) then .error (.status 2 0)
    else if (mernerPages list).map Config.sha512 ≠ hashes then .error (.status 3 0)
    else
      let man := (b.drop h.moff).take h.mlen
      match manifestOf man list recs with
      | none => .error (.status 1 0)
      | some x =>
        match firstOffence recs (x.exports ++ x.stubs) x.hints with
        | some n => .error (.status 4 n)
        | none =>
          match handlersOffence man x recs with
          | some n => .error (.status 4 n)
          | none => .ok { x with hashes := hashes, digest := digest }

/-- The listing of a capsule. -/
def listingOf (x : Capsule) : Listing :=
  let recs := recordsOf false x.list
  ⟨recs, blocksFrom recs 0 none 0 0 [] false, x.exports ++ x.stubs, x.hints, x.list⟩

/-- The body tag as bytes (Table 14.6). -/
def tagBytes (x : Capsule) : List Byte := bytesOf 40 (fields [(8, x.step.toNat), (8, x.gen.toNat), (48, 0), (256, x.ibh.toNat)])

/-- Body page `p`, padded with zero. -/
def bodyPage (x : Capsule) (p : Nat) : List Byte :=
  let b := (x.body.bytes.drop (4096 * p)).take 4096
  b ++ List.replicate (4096 - b.length) 0

/-- The seal value of the page bytes `b` as body page `p` of capsule `id` (Formula (14.1)); identifier and page number are 4 bytes each (DESIGN CHOICE,
log entry 83). -/
def sealValue (s : State) (x : Capsule) (id p : Nat) (b : List Byte) : Vec :=
  Config.hmacSha512 (Config.freeKey s.sec.kseal) (bytesOf 4 id ++ bytesOf 4 p ++ tagBytes x ++ b)

/-- A capsule with a body under the running firmware (R326), its pages sealed (R328); none when the installer has none to give. -/
def withBody (s : State) (id : Nat) (x : Capsule) : Option Capsule :=
  (derive (listingOf x) x.list s.fw.ibh s.fw.gen s.fw.step).map fun b =>
    let x := { x with state := 1, gen := s.fw.gen, step := s.fw.step, ibh := s.fw.ibh, body := b, stuck := false }
    { x with seals := (List.range ((b.bytes.length + 4095) / 4096)).map fun p => sealValue s x id p (bodyPage x p) }

/-- Steps 1 to 6 of Table 14.3 for a C.INSTALL of queue `n`: the capsule is INSTALLING under its identifier, or the status of the step that fails. Every
step reads the copy of the object, of which the pages then present were copied when the command was accepted. -/
def beginInstall (s : State) (n : Nat) (o want : Word) (dies : BitVec 4) : Except SHalt State := do
  let q := s.queue n
  let b ← copyObject s q.ctx q.sealed o
  let x ← checkCode b
  let id ← (if want = 0 then (match freeIdent s with | some n => .ok n | none => .error (.status 6 0))
    else if 2 ^ 23 ≤ want.toNat then .error (.status 6 0)
    else if (s.caps.find want.toNat).isSome then .error (.status 5 0)
    else .ok want.toNat : Except SHalt Nat)
  .ok ({ s with caps := s.caps.put id { x with state := 0, dies := dies } }.setQueue n { q with sealed := [], installing := some id })

/-- Steps 7 and 8: the body is derived and sealed, and the capsule SEALED; NOSPACE, which leaves no capsule, where the installer has no body to give or, as
the event's flag says, the body area or a code store is full. -/
def endInstall (s : State) (id : Nat) : State × Nat × Nat :=
  match s.caps.find id with
  | none => (s, 7, 0)
  | some x =>
    match if s.inp.flag then none else withBody s id x with
    | some y => ({ s with caps := s.caps.put id y }, 0, id)
    | none => ({ s with caps := s.caps.del id }, 7, 0)

/-! ### Resume maps (R327) -/

/-- The value at a place of a slot. -/
def readPlace (l : Slot) (vec : Bool) : Config.Place → Vec
  | .scalar n => (if n = 0 then 0 else l.x[n]?.getD 0).setWidth 512
  | .vector n => l.v[n]?.getD 0
  | .frame off => BitVec.ofNat 512 (fieldAt l.frame off (if vec then 64 else 8))

/-- Bytes written at an offset of a spill frame of 4 KiB. -/
def writeFrame (f : List Byte) (off : Nat) (b : List Byte) : List Byte :=
  let f := f ++ List.replicate (4096 - f.length) 0
  f.take off ++ b ++ f.drop (off + b.length)

/-- Write a value into a place of a slot. -/
def writePlace (l : Slot) (vec : Bool) (x : Vec) : Config.Place → Slot
  | .scalar n => if n = 0 then l else { l with x := l.x.setIfInBounds n (x.setWidth 64) }
  | .vector n => { l with v := l.v.setIfInBounds n x }
  | .frame off => { l with frame := writeFrame l.frame off (bytesOf (if vec then 64 else 8) x.toNat) }

/-- The HANDLER record at which a slot stands that parked with 0x12 at its activation's start (R330). -/
def startRecord (s : State) (l : Slot) : Option Nat :=
  if l.atStart && l.status.onVoid then l.act.bind fun a => (s.caps.find l.cap).bind fun x => x.handlers.find a.h.hidx.toNat else none

/-- The record a slot stands at: inside a repetition instance the RPT record (R327). -/
def parkRecord (s : State) (l : Slot) : Nat :=
  match l.seq.run, startRecord s l with
  | some r, _ => r.record
  | none, some n => n
  | none, none => recordAt s l.cap l.pc

/-- The places of values at a record: its resume map, or, where a slot's scalar code stands at no park point, what the body's code expects there (R291; DESIGN CHOICE,
log entry 85). -/
def mapAt (x : Capsule) (rec : Nat) : List (Nat × Config.Place) := (x.body.resume.find rec).getD (x.body.maps.getD rec [])

/-- The park points whose live values a slot holds: its own, and those of the calls its link values return to (R215; DEDUCED, log entry 23). `look` gives the value
of a record at a park point of a capsule. -/
def frames (s : State) (look : Nat → Nat → Nat → Vec) : Nat → Nat → Nat → List (Nat × Nat)
  | 0, _, _ => []
  | fuel + 1, cap, rec =>
    match s.caps.find cap with
    | none => [(cap, rec)]
    | some x =>
      let links := (listingOf x).links
      let back := (mapAt x rec).filterMap fun e =>
        let v := (look cap rec e.1).setWidth 64
        if links.getD e.1 false && bit v 63 && (bits v 40 23 != cap || bits v 0 32 != rec) then some (bits v 40 23, bits v 0 32) else none
      (cap, rec) :: back.flatMap fun e => frames s look fuel e.1 e.2

/-- The value of record `n` of capsule `cap` in a slot, by the resume maps of some park points. -/
def valueOf (s : State) (l : Slot) (cap n rec : Nat) : Option Vec :=
  match s.caps.find cap with
  | none => none
  | some x => ((mapAt x rec).find? fun e => e.1 == n).map fun e => readPlace l (vectorValue (recordsOf false x.list) n n) e.2

/-- The live values of a parked slot, by the record that produced them (R327). -/
def liveValues (s : State) (l : Slot) (rec : Nat) : List (Nat × Nat × Vec) :=
  let own (cap r : Nat) : List (Nat × Nat × Vec) := match s.caps.find cap with
    | none => []
    | some x => (mapAt x r).filterMap fun e => (valueOf s l cap e.1 r).map fun v => (cap, e.1, v)
  let look (cap r n : Nat) : Vec := (valueOf s l cap n r).getD 0
  ((frames s look 16 l.cap rec).dedup.flatMap fun f => own f.1 f.2).dedup

/-- Put live values into the places that the resume maps of the current bodies give (R327); a constant of the list is known without. -/
def placeValues (s : State) (l : Slot) (cap rec : Nat) (vals : List (Nat × Nat × Vec)) : Slot :=
  let known (c n : Nat) : Vec := match (s.caps.find c).map fun x => (listingOf x).sym x.list.length n with
    | some (.const w) => w.setWidth 512
    | _ => 0
  let look (c n : Nat) : Vec := ((vals.find? fun e => e.1 == c && e.2.1 == n).map fun e => e.2.2).getD (known c n)
  (frames s (fun c _ n => look c n) 16 cap rec).dedup.reverse.foldl (fun l f =>
    match s.caps.find f.1 with
    | none => l
    | some x => (mapAt x f.2).foldl (fun l e => writePlace l (vectorValue (recordsOf false x.list) e.1 e.1) (look f.1 e.1) e.2) l) l

/-- The record of the scalar code of a slot whose sequencer runs: it goes on beside the instances (R291). -/
def scalarRecord (s : State) (l : Slot) : Option Nat := if l.seq.run.isSome then some (recordAt s l.cap l.pc) else none

/-- The values that a save writes of a slot: those live at its park point, and those of its scalar code. -/
def savedValues (s : State) (l : Slot) (scalar : Option Nat) : List (Nat × Nat × Vec) :=
  (liveValues s l (parkRecord s l) ++ (scalar.map (liveValues s l)).getD []).dedup

/-- Carry a slot from the old bodies (in `s`) to the new ones (in `t`), as a save and a restore would (R332); inside a repetition instance its values are those
of the RPT record's maps. -/
def carrySlot (s t : State) (cap : Nat) (l : Slot) : Slot :=
  let here := parkRecord s l
  let vals := savedValues s l (scalarRecord s l)
  if l.cap = cap ∨ vals.any fun e => e.1 == cap then
    let moveTo (c n p : Nat) : Nat := if c = cap then ((t.caps.find c).map fun x => entryOf x n).getD p else p
    let move (c p : Nat) : Nat := moveTo c (recordAt s c p) p
    let pc := match startRecord s l with | some n => moveTo l.cap n l.pc | none => move l.cap l.pc
    let l := (scalarRecord s l).toList.foldl (fun l n => placeValues t l l.cap n vals) (placeValues t l l.cap here vals)
    { l with pc := pc, mq := l.mq.map fun m => { m with pc := move m.cap m.pc } }
  else l

/-- A captured instruction in the current body: that of its record (R286). -/
def RepSlot.rederive (s : State) (e : RepSlot) : RepSlot :=
  match s.caps.find e.cap with
  | none => RepSlot.nop
  | some x => match decodeAt s x.body.bytes (entryOf x e.record) with
    | .ok (i, _) => { e with i := i }
    | .error _ => RepSlot.nop

/-! ### Pages (R328, R329) and quarantine (R334) -/

/-- The pages of a capsule leave every code store. -/
def dropPages (s : State) (cap : Nat) : State :=
  { s with codeStore := s.codeStore.map fun p => (p.1, p.2.filter fun k => k / 2 ^ 20 ≠ cap) }

/-- Quarantine a capsule (R334): state QUARANTINED device-wide, its contexts contained with one error record each, and the integrity report (Table 14.9).
Its running activations raise 0x0F at their next fetch. -/
def quarantine (s : State) (cap kind page aid : Nat) : State :=
  match s.caps.find cap with
  | none => s
  | some x =>
    let rs := (s.ctxs.filter fun c => c.2.caps.has cap).map (·.1)
    let s := dropPages { s with caps := s.caps.put cap { x with state := 4 } } cap
    let s := rs.foldl (fun s r => containWithRecord s r 0 cap page) s
    let w0 := fields [(24, page), (8, kind), (9, 0), (23, cap)]
    let w2 := fields [(10, rs.length), (6, 0), (14, aid), (34, 0)]
    { s with reports := s.reports ++ [[2, word w0, s.time, word w2] ++ (List.range 8).map fun i => x.digest.extractLsb' (64 * i) 64] }

/-- The page of the last parcel of a slot's instruction. -/
def lastPage (s : State) (l : Slot) : Nat :=
  match s.caps.find l.cap with
  | some x => (l.pc + lengthAt x.body.bytes l.pc - 1) / 4096
  | none => l.pc / 4096

/-- The capsules and pages that the slots of a die are executing: those of both parcels of their instructions. -/
def executing (s : State) (d key : Nat) : Bool :=
  (s.cells.filter fun p => dieOfCell p.1 == d).any fun p => (List.range 4).any fun k =>
    let l := p.2.slot k
    l.status == .running && (pageKey l.cap (l.pc / 4096) == key || pageKey l.cap (lastPage s l) == key)

/-- Whether a running slot of die `d` fetches from page `p` of a capsule: the page that it waits for, which a capture may have named (R288), the page of its
instruction, or, once that is stored, the page of the second parcel (R188, R329). -/
def fetching (s : State) (d cap p : Nat) : Bool :=
  (s.cells.filter fun e => dieOfCell e.1 == d).any fun e => (List.range 4).any fun k =>
    let l := e.2.slot k
    l.status == .running && (l.wait == .code cap p
      || (l.cap == cap && (l.pc / 4096 == p || (pageStored s d cap (l.pc / 4096) && lastPage s l == p))))

/-- A code store with one page more, first: when it was full (`full`), the least recently fetched page that no slot is executing leaves it (R329). -/
def storePage (s : State) (d key : Nat) (full : Bool) : State :=
  let t := s.codeStore.getD d []
  let t := if full then (match (t.reverse.find? fun k => !executing s d k) with | some k => t.filter (· != k) | none => t) else t
  { s with codeStore := s.codeStore.put d (key :: t) }

/-- `CODE_PAGE_VERIFY` (R329): the verifier reads the page that a fetch needs, recomputes Formula (14.1) and compares the sealed value; a page that passes enters
the die's code store. It is the page as sealed, or, with the event's flag, the bytes that the body area holds instead; the event's `sel` says that the
store was full. A page that fails quarantines its capsule; the event names the slot that fetches (DEDUCED, log entry 45). Only a die that C.INSTALL named
receives the body (R325; DESIGN CHOICE, log entry 84). -/
def execCodePageVerify (s : State) : Host.Outcome State Fault Refusal :=
  let d := s.inp.die
  let p := s.inp.idx
  match s.caps.find s.inp.cap with
  | none => .next s
  | some x =>
    if 4 ≤ d ∨ x.state ≠ 1 ∨ x.body.bytes.length ≤ 4096 * p ∨ x.dies.getLsbD d = false ∨ pageStored s d s.inp.cap p ∨ !fetching s d s.inp.cap p then .next s
    else
      let b := if s.inp.flag then s.inp.bytes else bodyPage x p
      if x.seals[p]? == some (sealValue s x s.inp.cap p b) then .next (storePage s d (pageKey s.inp.cap p) s.inp.sel.isSome)
      else .next (quarantine s s.inp.cap 1 p (4 * s.inp.cell + s.inp.slot))

/-! ### Rebuild and firmware activation (R330 to R332) -/

/-- The queues that wait for the rebuild of a capsule get its status. -/
def rebuildAnswers (s : State) (cap code : Nat) : State :=
  { s with queues := s.queues.map fun p =>
      match p.2.service with
      | some (.cRebuild ca _) => if (p.2.reg ca).toNat = cap then (p.1, { p.2 with result := some (code, 0) }) else p
      | _ => p }

/-- Retry the slots that wait with 0x12 in contexts that hold a capsule (R332). -/
def retryVoid (s : State) (cap : Nat) : State :=
  s.cells.foldl (fun s p =>
    if ((s.cell p.1).ctx.bind s.ctx).any fun x => x.caps.has cap then
      (List.range 4).foldl (fun s k => match (s.slot p.1 k).status with
        | .parked 18 _ pg => resumeSlot (s.setSlot p.1 k { s.slot p.1 k with status := .parked 18 true pg }) p.1 k
        | _ => s) s
    else s) s

/-- The rebuilt capsule `x` becomes SEALED; the slots that hold values of it are carried to the new body, captured instructions of it are derived again (R286), and
the slots that wait resume (R332). -/
def sealRebuilt (s : State) (cap : Nat) (x : Capsule) : State :=
  let t := { s with caps := s.caps.put cap x }
  let t := { t with cells := t.cells.map fun p =>
    (p.1, { p.2 with
      slots := p.2.slots.map fun l => if l.act.isSome then carrySlot s t cap l else l
      repBuf := p.2.repBuf.map fun e => if e.cap = cap then e.rederive t else e }) }
  retryVoid (rebuildAnswers t cap 0) cap

/-- `REBUILD_COMPLETE` (R332, R334): the event's number says how: 0 a new body, 1 NOSPACE (VOID again, reported to the host, and so without a body to give; nothing
further happens until the host acts), 2 a Merner page whose digest does not match (the event's index). -/
def execRebuildComplete (s : State) : Host.Outcome State Fault Refusal :=
  let cap := s.inp.cap
  match s.caps.find cap with
  | none => .next s
  | some x =>
    if x.state ≠ 3 then .next s
    else if s.inp.n = 2 ∨ (mernerPages x.list).map Config.sha512 ≠ x.hashes then .next (rebuildAnswers (quarantine s cap 2 s.inp.idx 0) cap 9)
    else match if s.inp.n = 1 then none else withBody s cap x with
      | some y => .next (sealRebuilt s cap y)
      | none =>
        let s := { s with caps := s.caps.put cap { x with state := 2, stuck := true }, reports := s.reports ++ [[4, word cap, 7]] }
        .next (rebuildAnswers s cap 7)

/-- Whether a slot counts as running for a firmware activation: it executes or waits, or its stream is open (R332). -/
def countsRunning (l : Slot) : Bool :=
  match l.status with
  | .running => true
  | .stream _ => true
  | _ => false

/-- Whether a C.INSTALL is in service. -/
def installs (q : Queue) : Bool := match q.service with | some (.cInstall _ _ _ _) => true | _ => false

/-- `FIRMWARE_ACTIVATION` (R104, R332): new firmware (its installer build, and the engine harts' microcode when the event gives some) is refused while an activation
runs, and waits for installations and rebuilds in progress; it makes every SEALED capsule VOID and empties the code stores. -/
def execFirmwareActivation (s : State) : Host.Outcome State Fault Refusal :=
  if s.cells.any fun p => p.2.slots.any countsRunning then .next { s with reports := s.reports ++ [[3, word s.inp.off, 8, 0]] }
  else if (s.caps.any fun p => p.2.state == 3 || p.2.state == 0) || s.queues.any fun p => installs p.2 then .next s
  else
    .next { s with
      fw := { s.fw with ibh := s.inp.bits, micro := if s.inp.bytes.isEmpty then s.fw.micro else s.inp.bytes }
      caps := s.caps.map fun p => if p.2.state = 1 then (p.1, { p.2 with state := 2 }) else p
      codeStore := []
      reports := s.reports ++ [[3, word s.inp.off, 0, 0]] }

/-- The service of C.REBUILD (R332): done at once for a SEALED capsule, after its installation for an INSTALLING one; else the rebuild is begun, and the command waits
for it. -/
def rebuildService (s : State) (id : Word) : Except SHalt State :=
  match s.caps.find id.toNat with
  | none => .error (.status 10 0)
  | some x =>
    if x.state = 1 then .error (.status 0 0)
    else if x.state = 4 then .error (.status 9 0)
    else if x.state = 0 then .error .later
    else .ok (beginRebuild { s with caps := s.caps.put id.toNat { x with stuck := false } } id.toNat)

/-- The service of C.DELETE (R333). -/
def deleteService (s : State) (id : Word) : Except SHalt State :=
  let cap := id.toNat
  match s.caps.find cap with
  | none => .error (.status 10 0)
  | some x =>
    let used := (s.ctxs.any fun c => c.2.caps.has cap) || (s.cells.any fun p => p.2.slots.any fun l => l.act.isSome && l.cap == cap)
      || s.images.any fun e => (e.2.2.find cap).isSome
    if x.state = 0 ∨ x.state = 3 ∨ used then .error (.status 8 0)
    else .ok (dropPages { s with caps := s.caps.del cap } cap)

end Sys2Proof.Machine
end

