-- ==== Sys2Proof/Machine/Save.lean ====
section
/-! DEFINITION. Save images (R372 to R375, R439) and saving (R376, R377, R380): the bytes of an image, the sections of a context, quiescence, writing and
abandonment, and the state a cell is in when it is given or taken (R172). -/

namespace Sys2Proof.Machine

/-! ### Message records (R375) -/

/-- A doubleword's bytes. -/
def dword (n : Nat) : List Byte := bytesOf 8 n

/-- A message record (Table 16.6): destination, arrival ordinal and ingress port, and when it reached the link switch. -/
def msgRecord (m : Msg) (dctx ddev arr inport : Nat) (tsw : Word) : List Byte :=
  let pay := (List.range 8).flatMap fun i => dword (m.pay.getD i 0).toNat
  dword m.hdr.toNat ++ pay ++ dword m.ser.toNat ++ dword m.enq.toNat ++ dword m.aflg.toNat
    ++ dword (fields [(9, ddev), (10, dctx), (5, inport), (8, 0), (32, arr)]) ++ dword tsw.toNat ++ dword 0 ++ dword 0

/-- The record of a message that an image holds, with the ingress port and the time at the link switch of one that came in over a link (R375). -/
def imageRecord (m : Msg) (dctx ddev : Nat) : List Byte := msgRecord m dctx ddev 0 ((m.via.map (·.1)).getD 24) ((m.via.map (·.2)).getD 0)

/-- The message that a record holds: a CONTROL message came from a queue (R185). -/
def msgOf (b : List Byte) : Msg :=
  let w := wordsOf 16 b
  let h := w.getD 0 0
  let port := bits (w.getD 12 0) 19 5
  ⟨h, ((w.drop 1).take 8).take (min (msgLen h) 8), (w.getD 9 0).setWidth 36, w.getD 10 0, none, (w.getD 11 0).setWidth 5, bits h 16 24, msgKind h == 4, none,
    if port < 24 then some (port, w.getD 13 0) else none⟩

/-- The records of a byte string. -/
def recordList (b : List Byte) : List (List Byte) := (List.range (b.length / 128)).map fun i => (b.drop (128 * i)).take 128

/-- A header with another destination virtual PE. -/
def toVpe (h : Word) (v : Nat) : Word := word (fields [(40, bits h 0 40), (24, v)])

/-- The records of a buffered or released message: one for each receiver, which DEST names by its virtual PE in a multicast's records too (DESIGN CHOICE, log
entry 85). -/
def outRecords (o : OutMsg) : List Byte :=
  o.dests.flatMap fun d =>
    let m := if d.2.2.2.isSome then { o.msg with hdr := toVpe o.msg.hdr d.2.2.1, aflg := o.msg.aflg ||| 8 } else o.msg
    imageRecord { m with via := none } d.2.1 d.1

/-! ### Items (R439) -/

/-- An item: header, payload, padding to a multiple of 8. -/
def item (id idx : Nat) (b : List Byte) : List Byte :=
  dword (fields [(32, b.length), (16, idx), (16, id)]) ++ b ++ List.replicate ((8 - b.length % 8) % 8) 0

/-- The items of a section: ITEM, INDEX and payload. -/
def itemsOf : Nat → List Byte → List (Nat × Nat × List Byte)
  | 0, _ => []
  | fuel + 1, b =>
    if b.length < 8 then []
    else
      let len := fieldAt b 0 4
      (fieldAt b 6 2, fieldAt b 4 2, (b.drop 8).take len) :: itemsOf fuel (b.drop (8 + (len + 7) / 8 * 8))

/-- CTX (Table 16.12). -/
def ctxSection (s : State) (x : Context) : List Byte :=
  (x.caps.zipIdx.flatMap fun (e : Nat × Nat) =>
    item 0x101 e.2 (dword (fields [(23, e.1), (40, 0), (1, b2n (e.1 == x.grid))]) ++ bytesOf 64 (((s.caps.find e.1).map fun (c : Capsule) => c.digest).getD 0).toNat))
  ++ item 0x102 0 ((List.range 64).flatMap fun l => bytesOf 64 (x.lays.getD l 0).toNat)
  ++ item 0x103 0 (dword x.flags.toNat)
  ++ item 0x104 0 (dword x.fold.v ++ dword x.fold.p ++ dword x.fold.n ++ dword x.fold.f)

/-- BARR: 256 barrier words, then the arrival records of the mailbox (R380). -/
def barrierSection (x : Context) : List Byte :=
  ((List.range 256).flatMap fun b =>
    let e := x.barrier b
    dword (fields [(16, 0), (16, e.n.toNat), (16, e.a.toNat), (16, e.ph.toNat)]))
  ++ x.mailbox.flatMap fun a => dword (fields [(8, a.2), (40, 0), (16, a.1.toNat)])

/-- Bits as bytes, the lowest first. -/
def bitBytes (l : List Bool) : List Byte :=
  (List.range ((l.length + 7) / 8)).map fun i => BitVec.ofNat 8 (fields (((l.drop (8 * i)).take 8).map fun b => (1, b2n b)))

/-- The regions of the grid capsule with their offsets in a span. -/
def regionSpans (s : State) (x : Context) : List (Nat × Nat × Nat) :=
  match gridCapsule s x with
  | none => []
  | some g => (List.range 16).filterMap fun n => (regionAt g.regions n 0).map fun e => (n, e.1, e.2)

/-- VPE. -/
def vpeSection (s : State) (r v : Nat) (x : Context) : List Byte :=
  let p := x.vpe v
  let c := hostCell x v
  let base := v / x.fold.p * x.fold.n
  ((regionSpans s x).flatMap fun e =>
    let a := scratchKey c (base + e.2.1)
    item 0x301 e.1 (readKeys s.mem (span a e.2.2) ++ bitBytes ((List.range ((e.2.2 + 15) / 16)).map fun i => s.full.has (a / 16 + i))))
  ++ item 0x302 0 (dword p.mis.toNat ++ dword p.misv.toNat)
  ++ item 0x303 0 (dword p.flg.toNat)
  ++ item 0x304 0 (dword (fields [(32, p.cmask.toNat), (32, p.amask.toNat)]))
  ++ (List.range 32).flatMap fun ch => match p.queues.getD ch [] with
    | [] => []
    | q => item 0x305 ch (q.flatMap fun m => imageRecord m r s.devId.toNat)

/-- A handler table entry as two doublewords, NENT as zero (Table 7.4). -/
def handlerBytes (h : Handler) : List Byte :=
  dword (fields [(32, h.tb.toNat), (4, h.slen.toNat), (4, h.srb.toNat), (3, h.sq.toNat), (1, b2n h.sbd), (1, b2n h.stl), (1, b2n h.rep),
    (2, h.role.toNat), (16, h.hidx.toNat)]) ++ dword (b2n h.bnd)

/-- The entry that two doublewords hold. -/
def handlerFrom (b : List Byte) : Handler :=
  let w := word (fieldAt b 0 8)
  ⟨w.extractLsb' 48 16, w.extractLsb' 46 2, bit w 45, bit w 44, bit w 43, w.extractLsb' 40 3, w.extractLsb' 36 4, w.extractLsb' 32 4, w.setWidth 32, 0,
    fieldAt b 8 8 % 2 == 1⟩

/-- CELL. -/
def cellSection (s : State) (x : Context) (c : Nat) : List Byte :=
  let cl := s.cell c
  item 0x401 0 (readKeys s.mem (span (accKey c 0) Config.accBytes))
  ++ item 0x402 0 (cl.rowSums.toList.flatMap fun v => bytesOf 128 v.toNat)
  ++ item 0x403 0 ((cl.ovfc.toList.flatMap fun v => dword v.toNat) ++ dword cl.agel.toNat)
  ++ item 0x404 0 (cl.handlers.toList.flatMap handlerBytes)
  ++ item 0x405 0 (cl.repBuf.toList.flatMap fun e =>
      dword (fields [(32, e.record), (9, 0), (23, e.cap)]) ++ dword (bits e.word 9 47 * 2 ^ 9) ++ dword (e.x.getD 0 0).toNat ++ dword (e.x.getD 1 0).toNat)
  ++ item 0x406 0 ((List.range (8 * x.fold.f)).flatMap fun i => dword (cl.freeCnt.getD (i % 8 * 64 + i / 8) 0))
  ++ (if cl.outbound.isEmpty then [] else item 0x407 0 (cl.outbound.flatMap outRecords))

/-! ### Slots (R374) -/

/-- A slot that a save writes: parked, or serving a stream. -/
def savedSlot (l : Slot) : Bool :=
  match l.status with
  | .parked _ _ _ => true
  | .stream _ => true
  | _ => false

/-- A portable position as a doubleword. -/
def portable (cap rec : Nat) : List Byte := dword (fields [(32, rec), (9, 0), (23, cap)])

/-- The sequencer in POSITION; [62] and [31:0] of its word W5 say that the slot's scalar code stands at a record, and at which (R291; DESIGN CHOICE, log entry 85). -/
def sequencerBytes (q : Sequencer) (scalar : Option Nat) : List Byte :=
  let seq (o : Option Sequence) : List Byte := match o with
    | some r => dword r.word.toNat ++ dword r.count
    | none => dword 0 ++ dword 0
  dword (match q.run with | some r => fields [(32, r.j), (4, r.bslot), (27, 0), (1, 1)] | none => 0) ++ seq q.run
    ++ dword (fields [(32, scalar.getD 0), (30, 0), (1, b2n scalar.isSome), (1, b2n q.wait.isSome)]) ++ seq q.wait

/-- SLOT (Table 16.12). -/
def slotSection (s : State) (r c k : Nat) : List Byte :=
  let l := s.slot c k
  match l.act with
  | none => []
  | some a =>
    let here := parkRecord s l
    let src := match l.status with | .stream n => some n | _ => streamOf s r l
    let pos := dword (fields [(24, a.vpe), (5, a.ch), (1, b2n src.isSome), (1, b2n a.stolen)])
    let row := if l.staging.isEmpty then l.mrpRow else 0
    let csr : List Nat := [l.csr.fmta.toNat, l.csr.fmtb.toNat, l.csr.cbmode.toNat, l.csr.sclp.toNat, l.csr.zpp.toNat, l.csr.rm.toNat, l.csr.gmask.toNat,
      l.csr.mtrapen.toNat, fields [(9, row), (54, 0), (1, b2n l.mrpV)], l.fcause.toNat, l.foref.toNat, l.fcoord.toNat, l.tbud]
    let queue (q : QReg) : List Byte := match q.mode with
      | .stream => dword (2 + 4 * q.ents.length) ++ bytesOf 64 q.pat.toNat ++ dword q.popped
      | m => dword (fields [(2, b2n (m == .bound)), (3, q.ents.length)]) ++ q.ents.flatMap fun e => bytesOf 64 e.val.toNat
    let gang := match l.gang with
      | .joining t g _ => fields [(2, 1), (6, 0), (8, g.toNat), (8, 0), (8, 0), (32, t.toNat)]
      | .joined t g o _ _ => fields [(2, 2), (6, 0), (8, g.toNat), (8, o), (8, 0), (32, t.toNat)]
      | _ => 0
    let matrix := ((s.caps.find l.cap).bind fun x => (recordsOf false x.list)[here]?).any fun m => !m.data && decide (0x0A4 ≤ m.opx ∧ m.opx ≤ 0x0B4)
    let scalar := if src.isSome then none else scalarRecord s l
    let seq : Sequencer := { l.seq with run := l.seq.run.map fun q =>
      if src.isSome && q.bslot == (seqRange q.word).1 then { q with j := (l.q[a.h.sq.toNat]?.getD QReg.empty).popped } else q }
    item 0x501 0 (portable l.cap here ++ pos ++ sequencerBytes seq scalar)
    ++ item 0x502 0 (imageRecord a.msg r s.devId.toNat)
    ++ item 0x503 0 ((savedValues s l scalar).flatMap fun e => portable e.1 e.2.1 ++ bytesOf 64 e.2.2.toNat)
    ++ item 0x504 0 (csr.flatMap dword)
    ++ item 0x505 0 ((l.cb.toList.flatMap fun v => bytesOf 32 v.toNat) ++ (l.k.toList.flatMap fun v => bytesOf 4 v.toNat) ++ dword l.vl)
    ++ (l.q.toList.zipIdx.flatMap fun e => item 0x506 e.2 (queue e.1))
    ++ item 0x507 0 (dword (match l.ticket with | some (b, p) => fields [(8, b), (24, 0), (16, p.toNat), (15, 0), (1, 1)] | none => 0))
    ++ (if l.sends.isEmpty then [] else item 0x508 0 (l.sends.flatMap outRecords))
    ++ item 0x509 0 (dword l.shadow.raised.toNat ++ dword l.shadow.cleared.toNat ++ l.shadow.ovf.toList.flatMap fun e =>
        dword (match e.1 with | some v => v.toNat + 2 ^ 32 | none => 0) ++ dword e.2)
    ++ item 0x50A 0 ((if matrix then portable l.cap here else []) ++ l.mq.flatMap fun m => portable m.cap (recordAt s m.cap m.pc))
    ++ item 0x50B 0 (dword gang)

/-! ### Engines and held writes -/

/-- An agent as an image names it: a cell by its index in the context, so that a restore can map it through its cell list (R81, R374; DEDUCED, log
entry 85). -/
def savedAgent (x : Context) : Agent → Agent
  | .slot c k => .slot (x.cells.idxOf c) k
  | a => a

/-- The contributor of a kick: the layout of word 2 of Table 6.8, with its virtual PE; bit 0 marks a C.COPY (DESIGN CHOICE, log entry 85). -/
def contributorWord (x : Context) (k : Kick) : Nat :=
  let a := agentField (savedAgent x k.agent)
  fields [(1, b2n k.queue.isSome), (15, 0), (14, a.2), (2, a.1), (8, 0), (24, k.vpe)]

/-- ENGINE: open groups, contributions that wait for a group to close, each as a group of its own, and unfinished collective members of a context. -/
def engineSection (s : State) (r : Nat) (x : Context) : List Byte :=
  (s.harts.flatMap fun e => ((e.2.groups.filter fun g => g.1 == r) ++ ((e.2.late.filter fun m => m.kick.ctx == r).map fun m => (r, blkGrp m.block, [m]))).flatMap fun g =>
    let block (b : List Word) : List Byte := (List.range 8).flatMap fun i => dword (b.getD i 0).toNat
    item 0x701 (e.1 / 28) (dword g.2.1 ++ block ((g.2.2.head?.map (·.block)).getD []) ++ g.2.2.flatMap fun m => dword (contributorWord x m.kick) ++ block m.block))
  ++ s.harts.flatMap fun e => (e.2.members.filter fun m => m.kick.ctx == r).flatMap fun m =>
    item 0x702 (e.1 / 28) (dword (contributorWord x m.kick) ++ (List.range 8).flatMap fun i => dword (m.block.getD i 0).toNat)

/-- A hart without the groups and collective members of a context, and without their wait for a page. -/
def dropEntered (r : Nat) (h : Hart) : Hart :=
  let mine : Bool := match h.why with | .head => false | .group r' _ => r' == r | .coll r' _ => r' == r
  { h with
    groups := h.groups.filter fun g => g.1 != r, late := h.late.filter fun m => m.kick.ctx != r, members := h.members.filter fun m => m.kick.ctx != r
    stopped := if mine then none else h.stopped, why := if mine then .head else h.why, mark := h.mark && !mine }

/-- What a held write writes: oref and bytes, one item for each element, and of an element narrower than a byte its lowest bit in [2:0] and its width in [5:3], zero
for whole bytes. Table 16.12 has bytes only: the part stands in [49:44] of W1 (DESIGN CHOICE, log entry 85). -/
def heldItems : Effect → List (Word × List Byte × Nat)
  | .bytes o b _ => [(o, b, 0)]
  | .pieces l _ => l.map fun p => (p.o, bytesOf (elemBytes p.len) (p.val * 2 ^ p.lo), if p.len < 8 then p.lo + 8 * p.len else 0)
  | _ => []

/-- HELD: held writes of a context in arrival order. -/
def heldSection (s : State) (r : Nat) (x : Context) : List Byte :=
  (s.held.filter fun p => p.ctx == r).flatMap fun p =>
    let a := agentField (savedAgent x p.agent)
    (heldItems p.eff).flatMap fun e =>
      item 0x801 0 (dword e.1.toNat ++ dword (fields [(16, bits p.desc.w3 0 16), (4, p.acc), (2, a.1), (14, a.2), (7, e.2.1.length), (1, 0), (6, e.2.2)]) ++ e.2.1)

/-! ### The image -/

/-- A section to write: type, index, and its bytes; none when the save has no such content. -/
abbrev Section := Nat × Nat × Option (List Byte)

/-- A present section, or an absent one. -/
def presentIf (c : Bool) (b : List Byte) : Option (List Byte) := if c then some b else none

/-- The messages of a cell's spill ring and its extension, and behind them those that the network holds for it (R56, R57), which a restore puts into the ring: they
have been spilled then (R252). -/
def spilledAt (s : State) (c : Nat) : List Msg := (s.cell c).spill.map (·.2.2) ++ (s.cell c).netHeld.map fun e => flagMsg e.msg 4

/-- The sections of a context in the order of Table 16.5, with the strike's sections (DEDUCED, log entry 53). -/
def sectionList (s : State) (r : Nat) (x : Context) (strike : Option (List Byte × List Byte)) : List Section :=
  let cells := x.cells.zipIdx
  [(1, 0, some (ctxSection s x)), (2, 0, some (barrierSection x))]
  ++ (List.range x.fold.v).map (fun v => (3, v, some (vpeSection s r v x)))
  ++ cells.map (fun e => (4, e.2, some (cellSection s x e.1)))
  ++ cells.flatMap (fun e => ((List.range 4).filter fun k => savedSlot (s.slot e.1 k)).map fun k => (5, 4 * e.2 + k, some (slotSection s r e.1 k)))
  ++ cells.map (fun e => (6, e.2, presentIf (!(spilledAt s e.1).isEmpty) ((spilledAt s e.1).flatMap fun m => imageRecord m r s.devId.toNat)))
  ++ [(7, 0, presentIf (!(engineSection s r x).isEmpty) (engineSection s r x)), (8, 0, presentIf (!(heldSection s r x).isEmpty) (heldSection s r x)),
      (9, 0, strike.map (·.1)), (10, 0, strike.map (·.2))]

/-- The length of an image. -/
def imageLength (secs : List Section) : Nat := 64 + 32 * secs.length + (secs.map fun e => (e.2.2.map List.length).getD 0).sum

/-- The section entries from offset `off` on, and the bytes after them: sections past `room`, and once one does not fit all later ones, are INCOMPLETE and
hold nothing; `cut` makes all of them so (R372, R377). -/
def layOut (room : Nat) : List Section → Nat → Bool → List Byte × List Byte
  | [], _, _ => ([], [])
  | (ty, ix, none) :: r, off, cut =>
    let (e, b) := layOut room r off cut
    (dword (fields [(24, ix), (30, 0), (2, 0), (8, ty)]) ++ dword off ++ dword 0 ++ dword 0 ++ e, b)
  | (ty, ix, some c) :: r, off, cut =>
    let cut := cut || decide (room < off + c.length)
    let c := if cut then [] else c
    let (e, b) := layOut room r (off + c.length) cut
    (dword (fields [(24, ix), (30, 0), (2, if cut then 2 else 1), (8, ty)]) ++ dword off ++ dword c.length ++ dword 0 ++ e, c ++ b)

/-- The bytes of an image in an object with `room` bytes (R372 to R377): index block, then the sections. `status` 1 is ABANDONED; an object too short for the
index block gets the header alone. -/
def imageBytes (s : State) (r : Nat) (x : Context) (v : Saving) (room status : Nat) (secs : List Section) (cut : Bool) : List Byte :=
  let secs := if room < 64 + 32 * secs.length then [] else secs
  let n := secs.length
  let (ents, body) := layOut room secs (64 + 32 * n) cut
  let len := 64 + 32 * n + body.length
  dword (0x47535651 + 2 ^ 32) ++ dword len
    ++ dword (fields [(19, 0), (9, s.devId.toNat), (10, r), (2, status), (8, v.kind), (16, n)])
    ++ dword (fields [(32, x.cells.length), (32, v.job)]) ++ dword (fields [(40, 0), (24, x.fold.v)])
    ++ dword v.start.toNat ++ dword s.time.toNat ++ dword 0 ++ ents ++ body

/-! ### Giving and taking cells (R172) -/

/-- Memory without the local places of a cell, so that they read as zero. -/
def clearLocal (s : State) (c : Nat) : State :=
  let keep (k : Nat) : Bool := !(decide (scratchKey c 0 ≤ k ∧ k < scratchKey c 0 + 2 ^ 18) || decide (accKey c 0 ≤ k ∧ k < accKey c 0 + 2 ^ 15))
  { s with
    mem := s.mem.filter fun e => keep e.1
    full := s.full.filter fun g => keep (16 * g)
    poison := s.poison.filter fun g => keep (16 * g) }

/-- A cell in the state in which firmware gives or has taken it. -/
def wipeCell (s : State) (c : Nat) : State := { clearLocal s c with cells := s.cells.put c Cell.reset }

/-- Take the cells of a context back (R172, R376), with the counts on their way to them, once their mailbox stands in an image. -/
def takeCells (s : State) (r : Nat) : State :=
  match s.ctx r with
  | none => s
  | some x =>
    let s := x.cells.foldl wipeCell { s with mcReturns := s.mcReturns.filter fun e => !x.cells.contains e.1 }
    s.setCtx r { x with cells := [], mailbox := [], vpes := [], barriers := if x.unloaded then x.barriers else [], setN := [] }

/-! ### Saving (R376, R377) -/

/-- Stop a context for a save or a strike (R376 step 1): its cells get a pre-emption request and its queues stop at their next boundary. -/
def stopContext (s : State) (r : Nat) (x : Context) : State :=
  let s := x.cells.foldl (fun s c => endStalls (s.setCell c { s.cell c with preempt := true }) c true) s
  { s with queues := s.queues.map fun p => if p.2.ctx = r then (p.1, halted p.1 p.2) else p }

/-- Whether no kick of a context is on its way or unfinished; those entered in a group count as complete (R122). -/
def kicksDone (s : State) (r : Nat) : Bool :=
  s.harts.all (fun e => (e.2.fifo ++ e.2.waiting).all fun k => k.ctx != r) && s.posted.all fun p => p.ctx != r || !isKick p

/-- Whether a context stands still (R376 step 2): every slot is free, parked or serving a stream, with its matrix instructions done, no kick is unfinished, and every posted write has performed
or is held. -/
def quiet (s : State) (r : Nat) (x : Context) : Bool :=
  (x.cells.all fun c => (List.range 4).all fun k =>
    let l := s.slot c k
    (match l.status with | .running => false | .free => true | _ => l.mq.all fun m => match m.i with | .mgang _ _ => true | _ => false) && l.pend.isNone)
  && kicksDone s r && s.posted.all fun p => p.ctx != r

/-- Bytes of the object that an oref names from its offset on. -/
def roomOf (x : Context) (o : Word) : Nat := bits ((x.objs.getD (bits o 52 12) Desc.zero).w0) 0 52 - bits o 0 52

/-- Hold an image under its object, with the capsules it refers to; an earlier image there is released (R333). -/
def holdImage (s : State) (r : Nat) (o : Word) (x : Context) : State :=
  let caps : NMap Vec := x.caps.map fun c => (c, ((s.caps.find c).map (·.digest)).getD 0)
  { s with images := (s.images.filter fun e => !(e.1 == r && bits e.2.1 52 12 == bits o 52 12)) ++ [(r, o, caps)] }

/-- The context whose object holds the image of a save: the queue's, or the job's. -/
def imageCtx (s : State) (v : Saving) (r : Nat) : Nat :=
  match v.queue with
  | some q => if v.kind = 2 then ((s.jobs.find v.job).map (·.ctx)).getD r else (s.queue q).ctx
  | none => ((s.jobs.find v.job).map (·.ctx)).getD r

/-- Firmware writes bytes at an oref of context `r`, where it can. -/
def serviceWrite (s : State) (r : Nat) (o : Word) (b : List Byte) : State :=
  match serviceCheck s r o b.length 2 with
  | .error _ => s
  | .ok t => match serviceKeys s r t b.length with
    | .ok l => writeAt s l b false false
    | .error _ => s

/-- Whether firmware can write bytes at an oref of context `r` now, or never will: no page of them is absent (R365). -/
def writable (s : State) (r : Nat) (o : Word) (n : Nat) : Bool :=
  match serviceCheck s r o n 2 with
  | .error _ => true
  | .ok t => match serviceKeys s r t n with
    | .error .later => false
    | _ => true

/-- A save ends: the waiting queue gets OK with the number of bytes (R377); a strike's queue waits for the members. -/
def saveEnds (s : State) (v : Saving) (n : Nat) : State :=
  if v.kind = 2 then s
  else match v.queue with
    | some q => s.setQueue q { s.queue q with result := some (0, n) }
    | none => s

/-- Abandon a save or strike (R377): the image says so, the context is contained and keeps its cells, and a record names it. `done`: sections already
complete stay VALID as far as they fit. -/
def abandonSave (s : State) (r : Nat) (x : Context) (v : Saving) (secs : List Section) (done : Bool) : State :=
  let ic := imageCtx s v r
  let room := ((s.ctx ic).map fun y => roomOf y v.image).getD 0
  let b := imageBytes s r x v room 1 secs (!done)
  let s := holdImage (serviceWrite s ic v.image b) ic v.image x
  let s := containWithRecord s r 0 0 0
  saveEnds (s.onCtx r fun x => { x with saving := none }) v b.length

/-- Whether the image of a context can be written now: no page of its object that it needs is absent (R365). -/
def imageRoom (s : State) (r : Nat) (x : Context) (v : Saving) (strike : Option (List Byte × List Byte)) : Bool :=
  let ic := imageCtx s v r
  writable s ic v.image (min (imageLength (sectionList s r x strike)) (((s.ctx ic).map fun y => roomOf y v.image).getD 0))

/-- Write the image and free the cells (R376 steps 4 and 5), or abandon the save when a section does not fit. -/
def writeImage (s : State) (r : Nat) (x : Context) (v : Saving) (strike : Option (List Byte × List Byte)) : State × Bool :=
  let secs := sectionList s r x strike
  let ic := imageCtx s v r
  let room := ((s.ctx ic).map fun y => roomOf y v.image).getD 0
  if room < imageLength secs then (abandonSave s r x v secs true, false)
  else
    let b := imageBytes s r x v room 0 secs false
    let s := holdImage (serviceWrite s ic v.image b) ic v.image x
    let s : State := { s with
      held := s.held.filter fun p => p.ctx != r
      harts := s.harts.map fun e => (e.1, dropEntered r e.2) }
    let s := takeCells s r
    (saveEnds (s.onCtx r fun x => { x with saving := none }) v b.length, true)

/-- The most bytes that a SLOT section takes: its items, with a live value in each register and each doubleword of the frame, and 16 sends to 8 receivers each. -/
def slotBound : Nat := 8 * 20 + 64 + 128 + 72 * (31 + 16 + 512) + 104 + 168 + 8 * 264 + 8 + 16 * 8 * 128 + 144 + 8 * 17 + 8

/-- An upper bound of a context's image, from its fold and tables (R376): every section at its largest, but for held writes, spill entries, engine operations and
mailbox arrivals, which are counted as they stand (DESIGN CHOICE, log entry 55). -/
def imageBound (s : State) (r : Nat) (x : Context) : Nat :=
  let vpe (v : Nat) : Nat := (vpeSection s r v { x with vpes := [] }).length + 32 * 8 + 128 / x.fold.f * 128
  let cell (c : Nat) : Nat := (cellSection (s.setCell c { s.cell c with outbound := [] }) x c).length + 8 + 4 * 16 * 8 * 128
  let secs := 6 + x.fold.v + 6 * x.cells.length
  64 + 32 * secs + (ctxSection s x).length + (barrierSection x).length + ((List.range x.fold.v).map vpe).sum + (x.cells.map cell).sum
    + 4 * x.cells.length * slotBound + (x.cells.map fun c => 128 * (spilledAt s c).length).sum + (engineSection s r x).length + (heldSection s r x).length

/-- Begin a save of context `r` into an object of the queue's context (R376): NOCTX, a bad object, or NOSPACE by the bound of its image (DEDUCED, log entry 55). -/
def saveService (s : State) (q : Nat) (rw o : Word) : Except SHalt State := do
  let qc := (s.queue q).ctx
  let r := rw.toNat
  match s.ctx r with
  | none => .error (.status 13 0)
  | some x =>
    if x.cells.isEmpty ∨ x.saving.isSome then .error (.status 13 0)
    else
      let _ ← serviceCheck s qc o 0 2
      let room := ((s.ctx qc).map fun y => roomOf y o).getD 0
      if room < imageBound s r x then .error (.status 7 0)
      else
        let _ ← serviceCheck s qc o 64 2
        let v : Saving := ⟨o, some q, if x.contained then 3 else 1, 0, s.time⟩
        .ok (stopContext (holdImage (s.setCtx r { x with saving := some v }) qc o x) r x)

/-- `SAVE_QUIESCE_COMPLETE` (R376 steps 3 to 5, R380): the context stands still, its barriers are unloaded, and the image is written. With the event's flag
only the barriers are unloaded: arrivals that still cross go to the mailbox before the image is written. Firmware first makes absent pages of the image's object
present, by the entries that the event gives (R365). -/
def execSaveQuiesceComplete (s : State) : Host.Outcome State Fault Refusal :=
  let r := s.inp.ctx
  match s.ctx r with
  | none => .next s
  | some x =>
    match x.saving with
    | none => .next s
    | some v =>
      if v.kind = 2 ∨ !quiet s r x then .next s
      else
        let x := { x with unloaded := true }
        let s := s.setCtx r x
        let s := firmwareService s s.inp.words 0 []
        if s.inp.flag ∨ !shootDone s ∨ !imageRoom s r x v none then .next s else .next (writeImage s r x v none).1

/-- `SET_SAVE_LIMIT` (R377): from 1 to 65 535 ms. -/
def execSetSaveLimit (s : State) : Host.Outcome State Fault Refusal :=
  if 1 ≤ s.inp.n ∧ s.inp.n ≤ 65535 then byHost s ({ s with saveLimit := s.inp.n }, 0, 0) else byHost s (s, 12, 0)

end Sys2Proof.Machine
end

