-- ==== Sys2Proof/Machine/Restore.lean ====
section
/-! DEFINITION. Restoring a context from a save image (R378, R379, R132, R440), and giving cells to a context (R172). -/

namespace Sys2Proof.Machine

/-! ### Reading an image -/

/-- A section of an image as read: type, state, index, bytes. -/
structure ImageSection where
  type : Nat
  state : Nat
  idx : Nat
  bytes : List Byte
  deriving DecidableEq, Repr

/-- A save image as read (Table 16.3). -/
structure Image where
  kind : Nat
  status : Nat
  job : Nat
  p : Nat
  v : Nat
  secs : List ImageSection
  deriving DecidableEq, Repr

/-- Read a save image; none when the bytes hold none: MAGIC, FORMVER, ILEN, or a section outside ILEN (R378). -/
def imageOf (b : List Byte) : Option Image :=
  let len := fieldAt b 8 8
  let w2 := fieldAt b 16 8
  let n := w2 / 2 ^ 48
  if b.length < 64 ∨ fieldAt b 0 4 ≠ 0x47535651 ∨ fieldAt b 4 4 ≠ 1 ∨ b.length < len ∨ len < 64 + 32 * n then none
  else
    let secs := (List.range n).map fun i =>
      let e := 64 + 32 * i
      let w := fieldAt b e 8
      (w / 2 ^ 56, w / 2 ^ 54 % 4, w % 2 ^ 24, fieldAt b (e + 8) 8, fieldAt b (e + 16) 8)
    if secs.any fun s => decide (len < s.2.2.2.1 + s.2.2.2.2) then none
    else some ⟨w2 / 2 ^ 40 % 2 ^ 8, w2 / 2 ^ 38 % 4, fieldAt b 28 4, fieldAt b 24 4, fieldAt b 32 8 / 2 ^ 40,
      secs.map fun s => ⟨s.1, s.2.1, s.2.2.1, (b.drop s.2.2.2.1).take s.2.2.2.2⟩⟩

/-- The items of a section. -/
def ImageSection.items (e : ImageSection) : List (Nat × Nat × List Byte) := itemsOf (e.bytes.length / 8 + 1) e.bytes

/-- The payload of an item; empty when it is left out. -/
def payloadOf (l : List (Nat × Nat × List Byte)) (id idx : Nat) : List Byte := ((l.find? fun e => e.1 == id && e.2.1 == idx).map (·.2.2)).getD []

/-- The sections of a type. -/
def Image.of (m : Image) (type : Nat) : List ImageSection := m.secs.filter fun e => e.type == type

/-- The items of the CTX section. -/
def Image.ctx (m : Image) : List (Nat × Nat × List Byte) := (m.of 1).flatMap ImageSection.items

/-- The capsules an image names: identifier, whether it is the grid capsule, digest. -/
def Image.capsules (m : Image) : List (Nat × Bool × Vec) :=
  (m.ctx.filter fun e => e.1 == 0x101).map fun e => (fieldAt e.2.2 0 8 % 2 ^ 23, fieldAt e.2.2 0 8 / 2 ^ 63 == 1, vecAt e.2.2 8)

/-- The fold of an image on `p` cells: V and N' as its FOLD item has them. -/
def Image.fold (m : Image) (p : Nat) : Fold :=
  let f := payloadOf m.ctx 0x104 0
  let v := fieldAt f 0 8
  ⟨v, p, fieldAt f 16 8, (v + p - 1) / p⟩

/-! ### Cells for a context (R164, R165, R172) -/

/-- Whether a cell is in use. -/
def cellTaken (s : State) (c : Nat) : Bool := (s.cell c).ctx.isSome

/-- A fold that R165 allows. -/
def foldFits (f : Fold) : Bool := decide (f.f ≤ 64 ∧ f.f * f.n ≤ Config.regionBytes)

/-- Whether an image's fold is that of the grid capsule it names: its virtual PEs, and its need rounded up (R10, R165, R166) (DEDUCED, log entry 86). -/
def foldNamed (s : State) (m : Image) (f : Fold) : Bool :=
  match (m.capsules.find? fun c => c.2.1).bind fun c => s.caps.find c.1 with
  | some g => f.v == g.grid.1 && f.n == (g.need + 767) / 768 * 768 && m.v == f.v
  | none => f.v == 0 && f.n == 0

/-- Whether a cell's rank may hold context state: not in IS3 (R401). -/
def cellPowered (s : State) (c : Nat) : Bool := s.power.idle.getD (rankOfCell c) 0 != 3

/-- Give free cells to a context (R172), with free-slot counters at the share (R130). -/
def giveCells (s : State) (r : Nat) (cells : List Nat) (f : Fold) : State :=
  let counters : NMap Nat := ((List.range 8).flatMap fun k => (List.range f.f).map fun h => (k * 64 + h, 128 / f.f))
  let s := cells.foldl (fun s c =>
    let s := wipeCell s c
    s.setCell c { s.cell c with ctx := some r, freeCnt := counters }) s
  s.onCtx r fun x => { x with cells := cells, fold := f }

/-! ### Checks (R378) -/

/-- The target and the cells of a cell list, or NOFIT. -/
def cellList (ws : List Word) : Except SHalt (Nat × List Nat) :=
  let w0 := ws.getD 0 0
  let n := bits w0 16 12
  let cs := (ws.drop 1).take n
  let ns := cs.map fun w => w.toNat
  if n < 1 ∨ 3072 < n ∨ bits w0 10 6 ≠ 0 ∨ bits w0 28 36 ≠ 0 ∨ cs.any (fun w => bits w 12 52 != 0) ∨ ns.any (fun c => decide (3071 < c))
      ∨ (ns.zip ns.tail).any (fun e => decide (e.2 ≤ e.1)) then .error (.status 11 0)
  else .ok (bits w0 0 10, ns)

/-- The handler table in a saved CELL section. -/
def savedHandlers (e : ImageSection) : List Byte := payloadOf e.items 0x404 0

/-- The conditions of R379 for a fold on another number of cells. -/
def refoldOk (m : Image) : Bool :=
  let hs := (m.of 4).map savedHandlers
  hs.all (· == hs.headD []) && (m.of 5).isEmpty
    && (m.of 3).all fun e => decide (fieldAt (payloadOf e.items 0x302 0) 0 8 < 2 ^ 63)

/-- The checks of a restore in the order of R378: image, cell list, capsules, completeness, target, cells, fold, refold, room (DEDUCED,
log entry 54). A capsule that is still INSTALLING is not there yet (R331), and a cell whose rank is in IS3 fits no context (R401). -/
def restoreChecks (s : State) (b : List Byte) (ws : List Word) : Except SHalt (Image × Nat × List Nat) := do
  let m ← match imageOf b with
    | some m => .ok m
    | none => .error (.status 1 0)
  let (r, cells) ← cellList ws
  if m.capsules.any fun c => match s.caps.find c.1 with
    | some x => x.state == 5 || x.state == 0 || x.digest != c.2.2
    | none => true then .error (.status 10 0) else .ok ()
  if m.status ≠ 0 ∨ m.secs.any fun e => e.state == 2 then .error (.status 11 0) else .ok ()
  match s.ctx r with
  | none => .error (.status 11 0)
  | some x => if x.cells.isEmpty then .ok () else .error (.status 11 0)
  if cells.any (cellTaken s) then .error (.status 8 0) else .ok ()
  if !foldFits (m.fold cells.length) || !foldNamed s m (m.fold cells.length) || !cells.all (cellPowered s) then .error (.status 11 0) else .ok ()
  if cells.length ≠ m.p ∧ !refoldOk m then .error (.status 11 0) else .ok ()
  if s.inp.flag then .error (.status 7 0) else .ok ()
  .ok (m, r, cells)

/-! ### Writing the state -/

/-- The context part of a restore: capsules, layouts, flag word (step 1). Its host restarts a contained context so (R405). -/
def restoreCtx (x : Context) (m : Image) : Context :=
  let lays := payloadOf m.ctx 0x102 0
  { x with
    caps := addAll [] (m.capsules.map (·.1))
    grid := ((m.capsules.find? fun c => c.2.1).map (·.1)).getD 0
    lays := (List.range 64).map fun l => (l, vecAt lays (64 * l))
    flags := BitVec.ofNat 6 (fieldAt (payloadOf m.ctx 0x103 0) 0 8)
    contained := false }

/-- A copy that a multicast made has its counter at the cell that sent it (R132). Its record names only SRC: taken to be the cell that hosts SRC (DESIGN CHOICE,
log entry 87). -/
def copySender (x : Context) (m : Msg) : Msg := if bit m.aflg 3 then { m with mcell := some (hostCell x m.src) } else m

/-- The messages of a section's records. -/
def messagesOf (x : Context) (b : List Byte) : List Msg := (recordList b).map fun r => copySender x (msgOf r)

/-- A virtual PE as a VPE section holds it. -/
def restoreVpe (x : Context) (l : List (Nat × Nat × List Byte)) : Vpe :=
  let mis := payloadOf l 0x302 0
  let masks := fieldAt (payloadOf l 0x304 0) 0 8
  let qs : NMap (List Msg) := (l.filter fun e => e.1 == 0x305).map fun e => (e.2.1, messagesOf x e.2.2)
  { Vpe.reset with
    mis := word (fieldAt mis 0 8) &&& 0x8000FF00FFFFFFFF, misv := word (fieldAt mis 8 8) &&& 0x1FFFFFFFF, flg := BitVec.ofNat 6 (fieldAt (payloadOf l 0x303 0) 0 8)
    cmask := BitVec.ofNat 32 (masks % 2 ^ 32), amask := BitVec.ofNat 32 (masks / 2 ^ 32)
    queues := qs, used := (qs.map fun q => q.2.length).sum }

/-- Write the named regions of a virtual PE with their full/empty bits. -/
def restoreRegions (s : State) (x : Context) (v : Nat) (l : List (Nat × Nat × List Byte)) : State :=
  (regionSpans s x).foldl (fun s e =>
    let b := payloadOf l 0x301 e.1
    let a := scratchKey (hostCell x v) (v / x.fold.p * x.fold.n + e.2.1)
    let n := (e.2.2 + 15) / 16
    let bitsOf := b.drop e.2.2
    { s with
      mem := writeKeys s.mem (span a e.2.2) b
      full := addAll s.full (((List.range n).filter fun i => bit (bitsOf.getD (i / 8) 0) (i % 8)).map fun i => a / 16 + i) }) s

/-- The message that a record of an outbound list or a send buffer holds, with its receiver. A multicast copy draws on its receiver's counter (R130), and its
header holds the hosted ordinal again. A GRANT's header does not name its sender, `src` (R249). -/
def outgoing (x : Context) (src : Nat) (r : List Byte) : OutMsg :=
  let m := msgOf r
  let m := if msgKind m.hdr = 5 then { m with src := src } else m
  let w := fieldAt r 96 8
  let v := msgDest m.hdr
  let h := v / x.fold.p
  if bit m.aflg 3 then
    ⟨{ m with hdr := toVpe m.hdr h, aflg := m.aflg &&& ~~~8 }, [(w % 2 ^ 9, w / 2 ^ 9 % 2 ^ 10, v, some (indexInRank (hostCell x v), h))], false⟩
  else ⟨m, [(w % 2 ^ 9, w / 2 ^ 9 % 2 ^ 10, v, none)], false⟩

/-- Whether two records are of one SENDM: the same send of the same activation, and both multicast copies. -/
def sameSend (a b : OutMsg) : Bool :=
  a.msg.ser == b.msg.ser && a.msg.hdr == b.msg.hdr && (a.dests ++ b.dests).all fun d => d.2.2.2.isSome

/-- The messages of an outbound list or a send buffer: the records of one SENDM are one send (R170). -/
def outgoingList (x : Context) (src : Nat) (b : List Byte) : List OutMsg :=
  (recordList b).foldl (fun acc r =>
    let o := outgoing x src r
    match acc.getLast? with
    | some p => if sameSend p o then acc.dropLast ++ [{ p with dests := p.dests ++ o.dests }] else acc ++ [o]
    | none => [o]) []

/-- A repetition-buffer slot from its 32 bytes: the instruction is that of the record in the current body (R286). -/
def restoreRep (s : State) (b : List Byte) : RepSlot :=
  let w := word (fieldAt b 0 8)
  RepSlot.rederive s ⟨.nop 0 0 0, [word (fieldAt b 16 8), word (fieldAt b 24 8)], word (fieldAt b 8 8), bits w 41 23, bits w 0 32⟩

/-- Write the cell-scoped state of a CELL section; on another number of cells only the handler table and the outbound list (R379). -/
def restoreCell (s : State) (x : Context) (same : Bool) (c : Nat) (l : List (Nat × Nat × List Byte)) : State :=
  let hs := payloadOf l 0x404 0
  let cl := s.cell c
  let cl : Cell := { cl with
    handlers := Vector.ofFn fun i => handlerFrom ((hs.drop (16 * i.val)).take 16)
    outbound := cl.outbound ++ outgoingList x anySource (payloadOf l 0x407 0) }
  if !same then s.setCell c cl
  else
    let rs := payloadOf l 0x402 0
    let ov := payloadOf l 0x403 0
    let rb := payloadOf l 0x405 0
    let cl : Cell := { cl with
      rowSums := Vector.ofFn fun i => BitVec.ofNat 1024 (fieldAt rs (128 * i.val) 128)
      ovfc := Vector.ofFn fun i => BitVec.ofNat 32 (fieldAt ov (8 * i.val) 8)
      agel := BitVec.ofNat 16 (fieldAt ov 64 8)
      repBuf := Vector.ofFn fun i => restoreRep s ((rb.drop (32 * i.val)).take 32) }
    let s := s.setCell c cl
    { s with mem := writeKeys s.mem (span (accKey c 0) Config.accBytes) (payloadOf l 0x401 0) }

/-- Replay a barrier mailbox: each arrival as BARA applies it (R380). -/
def replay (s : State) (r : Nat) (l : List Nat) : State := l.foldl (fun s b => (barrierArrive s r b).2) s

/-- Load the barriers, with the arrival counts that the host has set since, and replay the image's mailbox, and after it what the context received since
(R246, step 4). -/
def restoreBarriers (s : State) (r : Nat) (x : Context) (m : Image) : State :=
  let b := (m.of 2).flatMap (·.bytes)
  let bars : NMap Barrier := (List.range 256).filterMap fun i =>
    let w := word (fieldAt b (8 * i) 8)
    let n := (x.setN.find i).map (BitVec.ofNat 16)
    if w = 0 ∧ n = none then none else some (i, ⟨w.extractLsb' 48 16, w.extractLsb' 32 16, n.getD (w.extractLsb' 16 16)⟩)
  let late := x.mailbox.map (·.2)
  let own := (List.range ((b.length - 2048) / 8)).map fun i => fieldAt b (2048 + 8 * i) 1
  replay (s.onCtx r fun x => { x with barriers := bars, unloaded := false, mailbox := [], setN := [] }) r (own ++ late)

/-- An agent that an image names, on the new cells. -/
def restoredAgent (x : Context) : Agent → Agent
  | .slot i k => .slot (x.cells.getD i 0) k
  | a => a

/-- A contribution of a group or a collective, from its doubleword and block (R117): an activation whose virtual PE another cell hosts was stolen. The
layout entries are those of the restored table (R27; DESIGN CHOICE, log entry 85). -/
def restoreKick (s : State) (r : Nat) (x : Context) (b : List Byte) : Contribution :=
  let w := word (fieldAt b 0 8)
  let a := restoredAgent x (recordAgent w)
  let stolen : Bool := match a with | .slot c _ => hostCell x (bits w 40 24) != c | _ => false
  let q : Option Nat := match a with | .queue q => if bit w 0 then some q else none | _ => none
  let k : Kick := ⟨r, a, bits w 40 24, stolen, 0, none, q⟩
  let blk := wordsOf 8 (b.drop 8)
  ⟨k, blk, blockLays s (kickView s k) blk, none⟩

/-- Reissue a held write in its agent's order, as its image does not say what orders it: behind every earlier write of its agent, before every later access,
and counted at a slot (R81; DESIGN CHOICE, log entry 85). -/
def reissueHeld (s : State) (r : Nat) (x : Context) (b : List Byte) : State :=
  let o := word (fieldAt b 0 8)
  let w := word (fieldAt b 8 8)
  let a := restoredAgent x (recordAgent (word (fields [(16, 0), (14, bits w 22 14), (2, bits w 20 2)])))
  let d := x.objs.getD (bits o 52 12) Desc.zero
  let data := (b.drop 16).take (bits w 36 7)
  let eff : Effect := if bits w 47 3 = 0 then .bytes o data false
    else .pieces [⟨o, bits w 44 3, bits w 47 3, numOfBytes data / 2 ^ bits w 44 3 % 2 ^ bits w 47 3, 0, false⟩] false
  let cls := if bits d.w0 57 3 = 3 ∨ bits d.w0 57 3 = 2 then 1 else 2
  let slot : Bool := match a with | .slot _ _ => true | _ => false
  let e := s.epochs.getD (agentIndex a) 0
  let p : Posted := ⟨a, r, 0, cls, d, eff, true, e, bits w 16 4, slot, false, 0, 0, false, false, []⟩
  let s := { s with
    posted := s.posted ++ [p], epochs := ((s.epochs.put (agentIndex a) (e + 1)).put (writeFence a) (e + 1)).put (readFence a) (e + 1) }
  if slot then bump s a cls true else s

/-- Reopen groups and collectives on a collective hart of their die, hart 24 + GRP mod 4 (R117), and the held writes in their order (step 5). -/
def restoreEngines (s : State) (r : Nat) (x : Context) (m : Image) : State :=
  let es := (m.of 7).flatMap ImageSection.items
  let s := es.foldl (fun s e =>
    let d := e.2.1
    if e.1 = 0x701 then
      ((List.range ((e.2.2.length - 72) / 72)).map fun i => restoreKick s r x (e.2.2.drop (72 + 72 * i))).foldl
        (fun s c => joinGroup s d (24 + blkGrp c.block % 4) c) s
    else if e.1 = 0x702 then
      let k := restoreKick s r x e.2.2
      let ch := 24 + blkGrp k.block % 4
      let h := s.hart d ch
      s.setHart d ch { h with members := h.members ++ [k] }
    else s) s
  ((m.of 8).flatMap ImageSection.items).foldl (fun s e => if e.1 = 0x801 then reissueHeld s r x e.2.2 else s) s

/-- A sequence from its word and count. -/
def restoreSeq (b : List Byte) (vl slot j cap rec : Nat) : Sequence := ⟨word (fieldAt b 0 8), fieldAt b 8 8, vl, slot, j, cap, rec⟩

/-- The queue register that a QREG item holds; a stream reads its pattern again from the entries popped (R129), and a bound queue has had `n` entries
popped (R180, R292). -/
def restoreQueue (s : State) (v : View) (n : Nat) (b : List Byte) : QReg :=
  let w := fieldAt b 0 8
  if w % 4 = 2 then
    let p := vecAt b 8
    let n := fieldAt b 72 8
    ⟨.stream, [], p, layoutEntry s v (bits (patWord p 7) 0 6), n, n, []⟩
  else
    ⟨if w % 4 = 1 then .bound else .plain, (List.range (w / 4 % 8)).map fun i => QEntry.of (vecAt b (8 + 64 * i)), 0, 0, if w % 4 = 1 then n else 0, 0, []⟩

/-- The gang state of a SLOT section: mode, mask, ordinal, tag (DEDUCED, log entry 24). -/
def savedGang (e : ImageSection) : Nat × Nat × Nat × Nat :=
  let w := fieldAt (payloadOf e.items 0x50B 0) 0 8
  (w % 4, w / 2 ^ 8 % 2 ^ 8, w / 2 ^ 16 % 2 ^ 8, w / 2 ^ 32)

/-- Of some numbers, the greatest below `n`. -/
def below (n : Nat) (l : List Nat) : Option Nat := (l.filter fun i => decide (i < n)).max?
/-- Of some numbers, the least above `n`. -/
def above (n : Nat) (l : List Nat) : Option Nat := (l.filter fun i => decide (n < i)).min?

/-- The new cells of a gang, by the ordinals of its members: a member's cell index from its SLOT section, else counted from the own one (R374; log
entry 24). A context's cells rise, so that of the members with one tag and mask in several ranks those of the own one are the nearest, the lower ordinals below it and the
higher ones above it. -/
def gangCells (m : Image) (cells : List Nat) (own : Nat) (g : Nat × Nat × Nat × Nat) : List Nat :=
  (List.range (((List.range 8).filter fun i => g.2.1.testBit i).length)).map fun o =>
    let es := ((m.of 5).filter fun e => let h := savedGang e; h.1 != 0 && h.2.1 == g.2.1 && h.2.2.2 == g.2.2.2 && h.2.2.1 == o).map fun e => e.idx / 4
    let i := if o = g.2.2.1 then some own else if o < g.2.2.1 then below own es else above own es
    cells.getD (i.getD (own + o - g.2.2.1)) 0

/-- Whether an instance of the running repetition before the next one has popped a queue register. -/
def hasPopped (x : Cell) (r : Sequence) (q : Nat) : Bool :=
  (List.range r.bslot).any fun i => decide ((seqRange r.word).1 ≤ i) && (queueUse (x.repBuf[i]?.getD RepSlot.nop).i).any fun e => e.1 == q && e.2.1

/-- Write a parked or stream slot back: fixed state first, then its live values through the resume map of the current body (step 6). Its activation keeps its
share entry (R145), and the serial that its buffered sends carry. A section whose INDEX names no cell of the list, for which R378 has no refusal, is ignored
(DESIGN CHOICE, log entry 91). An image holds no handler table entry of an activation: it finishes under the restored table's current one (R175; DESIGN CHOICE,
log entry 98). A slot that stood at its HANDLER record stands before its first instruction again (R330). -/
def restoreSlot (s : State) (r : Nat) (m : Image) (cells : List Nat) (e : ImageSection) : State :=
  match s.ctx r, cells[e.idx / 4]? with
  | none, _ => s
  | _, none => s
  | some x, some c =>
    let l := e.items
    let k := e.idx % 4
    let pos := payloadOf l 0x501 0
    let w0 := word (fieldAt pos 0 8)
    let w1 := fieldAt pos 8 8
    let cap := bits w0 41 23
    let here := bits w0 0 32
    let vpe := w1 % 2 ^ 24
    let ch := w1 / 2 ^ 24 % 32
    let stream := w1.testBit 29
    let stolen := w1.testBit 30
    let msg := copySender x (msgOf (payloadOf l 0x502 0))
    let sends := outgoingList x vpe (payloadOf l 0x508 0)
    let csr (i : Nat) : Nat := fieldAt (payloadOf l 0x504 0) (8 * i) 8
    let regs := payloadOf l 0x505 0
    let w2 := word (fieldAt pos 16 8)
    let vl := fieldAt regs 160 8
    let run : Option Sequence := if bit w2 63 then some (restoreSeq (pos.drop 24) vl (bits w2 32 4) (bits w2 0 32) cap here) else none
    let wait : Option Sequence := if fieldAt pos 40 8 / 2 ^ 63 = 1 then some (restoreSeq (pos.drop 48) vl (fieldAt pos 48 8 % 16) 0 cap here) else none
    let owner := hostCell x vpe
    let a : Activation := ⟨vpe, ch, msg, (s.cell owner).handler ch, owner, stolen, if stolen then 0 else vpe / x.fold.p, x.dbgctl, s.time,
      ((sends.head?).map fun o => o.msg.ser).getD s.serial, 0, 0, 0⟩
    let s := if sends.isEmpty then { s with serial := s.serial + 1 } else s
    let v : View := ⟨some r, some c, a.hord, !stolen, false⟩
    let live := payloadOf l 0x503 0
    let vals := (List.range (live.length / 72)).map fun i =>
      let w := word (fieldAt live (72 * i) 8)
      (bits w 41 23, bits w 0 32, vecAt live (72 * i + 8))
    let t := fieldAt (payloadOf l 0x507 0) 0 8
    let sh := payloadOf l 0x509 0
    let popped (q : Nat) : Nat := bits w2 0 32 + b2n (run.any fun t => hasPopped (s.cell c) t q)
    let qs : List QReg := (List.range 8).map fun i => restoreQueue s v (popped i) (payloadOf l 0x506 i)
    let body := s.caps.find cap
    let captured := match (wait.orElse fun _ => run).map fun q => q.word with
      | some w => if bit w 8 then (seqRange w).2 else 0
      | none => 0
    let isRpt := (body.bind fun b => (recordsOf false b.list)[here]?).any fun q => !q.data && q.opx == 0x071
    let w5 := fieldAt pos 40 8
    let scalar : Option Nat := if run.isSome && w5.testBit 62 then some (w5 % 2 ^ 32) else none
    let pc := (body.map fun b => entryOf b (scalar.getD (if run.isSome && isRpt then here + 1 + captured else here))).getD 0
    let starts : Bool := run.isNone && body.any fun b => b.handlers.find a.h.hidx.toNat == some here
    let cause := csr 9 % 2 ^ 8
    let slot : Slot := { (s.slot c k).freed with
      status := if stream && cause != 5 && cause != 18 then .stream msg.src else .parked cause true none
      act := some a, cap := cap, pc := pc
      x := Vector.replicate 32 0, v := Vector.replicate 16 0, vl := vl
      q := Vector.ofFn fun i => qs.getD i.val QReg.empty
      cb := Vector.ofFn fun i => BitVec.ofNat 256 (fieldAt regs (32 * i.val) 32)
      k := Vector.ofFn fun i => BitVec.ofNat 32 (fieldAt regs (128 + 4 * i.val) 4)
      csr := ⟨BitVec.ofNat 5 (csr 0), BitVec.ofNat 5 (csr 1), BitVec.ofNat 8 (csr 2), word (csr 3), word (csr 4), BitVec.ofNat 2 (csr 5),
        BitVec.ofNat 8 (csr 6), BitVec.ofNat 2 (csr 7)⟩
      mrpV := csr 8 / 2 ^ 63 == 1, mrpRow := csr 8 % 2 ^ 9
      fcause := word (csr 9 % 2 ^ 32), foref := word (csr 10), fcoord := word (csr 11), tbud := csr 12 % 2 ^ 33, atStart := starts
      ticket := if t / 2 ^ 63 = 1 then some (t % 2 ^ 8, BitVec.ofNat 16 (t / 2 ^ 32)) else none
      sends := sends
      shadow := ⟨BitVec.ofNat 6 (fieldAt sh 0 8), BitVec.ofNat 6 (fieldAt sh 8 8), Vector.ofFn fun i =>
        let w := fieldAt sh (16 + 16 * i.val) 8
        (if w.testBit 32 then some (BitVec.ofNat 32 w) else none, fieldAt sh (24 + 16 * i.val) 8)⟩
      seq := ⟨run, wait, 0⟩ }
    let slot := scalar.toList.foldl (fun l n => placeValues s l cap n vals) (placeValues s slot cap here vals)
    let g := savedGang e
    let s := s.onVpe r vpe fun p =>
      { p with busy := if stream then p.busy else p.busy.add ch, streams := if stream then p.streams.put ch msg.src else p.streams
               used := if stream then p.used else p.used + 1 }
    if g.1 = 0 then s.setSlot c k slot
    else
      let gs := gangCells m cells (e.idx / 4) g
      let tag := BitVec.ofNat 32 g.2.2.2
      let mask : BitVec 8 := gs.foldl (fun b c' => b ||| (1#8 <<< (c' % 8))) 0
      let slot : Slot := { slot with csr := { slot.csr with gmask := mask } }
      if gs.any fun c' => rankOfCell c' != rankOfCell c then takeTrap { s.setSlot c k slot with cur := .slot c k } 10 0 0 0
      else
        let op : MatOp := ⟨.mgang 0 0, word tag.toNat, slot.csr, [], slot.x, slot.taint, cap, pc, slot.seq, none, true, false, .mgang 0 0⟩
        s.setSlot c k { slot with gang := .joining tag mask 0, mq := [op] }

/-- A cell whose outbound list is counted against its counters, from the head on as far as they allow (R132); what stands behind waits for them as R130 has it. -/
def payListed (cl : Cell) : Cell :=
  let (cl, l, _) := cl.outbound.foldl (fun (y : Cell × List OutMsg × Bool) m =>
    if y.2.2 && countersReady y.1 m then (drawCounters y.1 m, y.2.1 ++ [{ m with paid := true }], true) else (y.1, y.2.1 ++ [{ m with paid := false }], false)) (cl, [], true)
  { cl with outbound := l }

/-- The free-slot counters of a cell by R132: the share less its copies held in queues, rings and its outbound list (DEDUCED, log entry 87: a listed copy that the
share does not cover is counted when it leaves, so that counters and list keep R130 exact, R133). -/
def recount (s : State) (r : Nat) (c : Nat) : State :=
  match s.ctx r with
  | none => s
  | some x =>
    let own (m : Msg) : Bool := m.mcell == some c
    let waiting := x.vpes.flatMap fun p => (p.2.queues.flatMap fun q => q.2.filter own).map fun _ => p.1
    let running := x.cells.flatMap fun d => (List.range 4).flatMap fun k => match (s.slot d k).act with
      | some a => if own a.msg then [a.vpe] else []
      | none => []
    let spilled := x.cells.flatMap fun d => ((s.cell d).spill.filter fun e => own e.2.2).map (·.1)
    let keys := (waiting ++ running ++ spilled).filterMap fun v =>
      if rankOfCell (hostCell x v) = rankOfCell c then some (counterIndex x (hostCell x v) v) else none
    s.setCell c (payListed { s.cell c with freeCnt := (s.cell c).freeCnt.map fun e => (e.1, 128 / x.fold.f - (keys.filter (· == e.1)).length) })

/-- The state with the next activation serial above every one that the buffered and released messages of an image carry (R167; log entry 65). -/
def raiseSerial (s : State) (m : Image) : State :=
  let recs (l : List (Nat × Nat × List Byte)) : List (List Byte) := (l.filter fun e => e.1 == 0x508 || e.1 == 0x407 || e.1 == 0x305 || e.1 == 0x502).flatMap fun e => recordList e.2.2
  let plain := (m.of 6 ++ m.of 9).flatMap fun e => recordList e.bytes
  let top := (((m.of 3 ++ m.of 4 ++ m.of 5).flatMap fun e => recs e.items) ++ plain).foldl (fun t b => max t (fieldAt b 72 8 % 2 ^ 36 + 1)) s.serial.toNat
  { s with serial := BitVec.ofNat 36 top }

/-- Write an image into a context's new cells (R378 steps 1 to 7). The messages in the arrival area of the context that gets the cells are delivered, those of another
context stay with it (R440; DEDUCED, log entry 54). -/
def applyImage (s : State) (r : Nat) (m : Image) (cells : List Nat) : State :=
  match s.ctx r with
  | none => s
  | some old =>
    let same := cells.length == m.p
    let s := raiseSerial (giveCells (s.setCtx r (restoreCtx old m)) r cells (m.fold cells.length)) m
    match s.ctx r with
    | none => s
    | some x =>
      let s := (m.of 3).foldl (fun s e =>
        restoreRegions (s.onCtx r fun y => { y with vpes := y.vpes.put e.idx (restoreVpe x e.items) }) x e.idx e.items) s
      let s := (m.of 4).foldl (fun s e => restoreCell s x same (cells.getD (e.idx % cells.length) 0) e.items) s
      let s := if same then s else cells.foldl (fun s c => s.setCell c { s.cell c with handlers := (s.cell (cells.headD 0)).handlers }) s
      let s := (m.of 6).foldl (fun s e => (messagesOf x e.bytes).foldl (fun s g =>
        let v := if bit g.aflg 3 then bits g.hdr 40 6 * m.p + e.idx else msgDest g.hdr
        let c := hostCell x v
        s.setCell c { s.cell c with spill := (s.cell c).spill ++ [(v, bits g.hdr 11 5, g)] }) s) s
      let s := x.arrived.foldl (fun s p => match s.ctx r with | some y => placeMsg s r y p | none => s) (s.onCtx r fun y => { y with arrived := [] })
      let s := restoreBarriers s r x m
      let s := restoreEngines s r x m
      let s := (m.of 5).foldl (fun s e => restoreSlot s r m cells e) s
      cells.foldl (fun s c => recount s r c) s

/-- Release the cells (R378 step 8): retried slots resume, and the arrivals that port buffers hold for the context are delivered (R440). -/
def releaseCells (s : State) (r : Nat) : State :=
  match s.ctx r with
  | none => s
  | some x =>
    let s := emptyIngress s fun p => p.ddev == s.devId.toNat && p.dctx == r
    x.cells.foldl resumeCell s

/-- The service of C.RESTORE (R378): the context restored, or the status of the first condition that fails. Only C.PITCH resumes a detached context (R398): it is no
target here (NOFIT; DESIGN CHOICE, log entry 61). -/
def restoreService (s : State) (q : Nat) (io co : Word) : Except SHalt (State × Nat) := do
  let qc := (s.queue q).ctx
  let head ← serviceRead s qc io 16 1
  let room := ((s.ctx qc).map fun y => roomOf y io).getD 0
  let len := fieldAt head 8 8
  let b ← if room < len then .error (.status 1 0) else serviceRead s qc io (max 64 len) 1
  let w0 ← serviceWords s qc co 1 1
  let n := bits (w0.getD 0 0) 16 12
  let ws ← serviceWords s qc co (1 + n) 1
  let (m, r, cells) ← restoreChecks s b ws
  if (s.ctx r).any fun x => x.detached then .error (.status 11 0) else .ok ()
  .ok (releaseCells (applyImage s r m cells) r, r)

end Sys2Proof.Machine
end

