-- ==== Sys2Proof/Machine/Strike.lean ====
section
/-! DEFINITION. Jobs, the strike and the pitch (R381 to R388), and messages that arrive over links (R382, R383, R386, R400, R442). -/

namespace Sys2Proof.Machine

/-! ### Answers to other members -/

/-- A report over the link sideband on a job: 0 struck, 1 absent, 2 re-injected, 3 refused with a status, 4 a strike and 5 a pitch passed on, 6 the watchdog has
expired, 7 the check before a pitch passed, 8 every member's check passed and the pitch goes on. (DESIGN CHOICE, log entry 59.) -/
def sideband (s : State) (job kind status : Nat) : State := { s with reports := s.reports ++ [[5, word job, word kind, word status]] }

/-! ### Jobs (R381, R382) -/

/-- The context of a job on this device. -/
def jobCtx (s : State) (j : Job) : Nat := ((j.members.find? fun e => e.1 == s.devId.toNat).map (·.2)).getD 0

/-- A job packet: its source or destination is the job's context on a member (R382). -/
def jobPacket (j : Job) (p : Packet) : Bool := j.members.contains (p.sdev, p.sctx) || j.members.contains (p.ddev, p.dctx)

/-- Change a job. -/
def State.onJob (s : State) (n : Nat) (g : Job → Job) : State :=
  match s.jobs.find n with
  | some j => { s with jobs := s.jobs.put n (g j) }
  | none => s

/-- The members that the route table places behind a port. -/
def behind (s : State) (j : Job) (port : Nat) : List Nat :=
  (j.members.map (·.1)).filter fun d => d != s.devId.toNat && s.routes.find d == some port

/-- The job-facing ports: the route table reaches a member over the port, or its partner is one (R382). -/
def facing (s : State) (j : Job) : List Nat :=
  (List.range Config.ports).filter fun p =>
    !(behind s j p).isEmpty || ((s.port p).up && j.members.any fun m => m.1 == (s.port p).partner && m.1 != s.devId.toNat)

/-- The job by which firmware stops a detached context without a registered descriptor (R398): its number is no JOBID, and it has no descriptor (log entry 61). -/
def ownJob (r : Nat) : Nat := 2 ^ 32 + r

/-- Whether a job's context stands stopped by a hot reset, or on its way there: no image is due, and no peg is waited for (R398). -/
def resetStop (s : State) (j : Job) : Bool :=
  decide (1 ≤ j.phase ∧ j.phase ≤ 4) && (s.ctx (jobCtx s j)).any fun x => x.detached && x.saving.isNone

/-- Every peg that a port's ingress waits for has arrived (R383, R386). -/
def portPegged (s : State) (j : Job) (port : Nat) : Bool := !resetStop s j && (behind s j port).all fun d => j.pegs.contains (port, d)

/-- Every job-facing ingress port has its pegs (Table 16.8, DONE). -/
def allPegged (s : State) (j : Job) : Bool := ((s.routes.map (·.2)).dedup).all (portPegged s j)

/-- The words of a job descriptor and its members, or the first failing word (R381). -/
def descriptorOf (s : State) (r : Nat) (o : Word) : Except SHalt Job := do
  let bad (i : Nat) : SHalt := .status 1 i
  let ws ← match serviceWords s r o 8 2 with
    | .error (.status _ _) => .error (bad 0)
    | x => x
  let w (i : Nat) : Word := ws.getD i 0
  let n := bits (w 0) 0 10
  let check (i : Nat) (o : Word) (len : Nat) : Except SHalt Unit := match serviceCheck s r o len 2 with
    | .ok _ => .ok ()
    | .error .later => .error .later
    | .error _ => .error (bad i)
  if bits (w 0) 10 22 ≠ 0 ∨ bits (w 0) 32 32 = 0 ∨ n = 0 ∨ 512 < n then .error (bad 0) else .ok ()
  check 1 (w 1) (8 * n)
  check 2 (w 2) 64
  check 3 (w 3) 64
  check 4 (w 4) 64
  check 5 (w 5) 8
  if w 6 ≠ 0 then .error (bad 6) else .ok ()
  if w 7 ≠ 0 then .error (bad 7) else .ok ()
  let ms ← serviceWords s r (w 1) n 2
  .ok { ctx := r, oref := o, members := ms.map fun m => (bits m 0 9, bits m 9 10), image := w 2, sweepA := w 3, lateA := w 4, cellList := w 5
        phase := 0, pegs := [], swept := [], arr := [], reports := [], queue := none, accept := false, gate := true, struck := false }

/-- `REGISTER_JOB` (R381): the descriptor at an oref of a context of the registering function is registered under its JOBID. -/
def execRegisterJob (s : State) : Host.Outcome State Fault Refusal :=
  let r := s.inp.ctx
  let s := if takesHost s then firmwareService s s.inp.words 0 [] else s
  if !((s.ctx r).all fun x => x.fn == s.inp.fn) then byHost s (s, 1, 0)
  else match descriptorOf s r s.inp.word with
  | .error .later => .next s
  | .error (.status c v) => byHost s (s, c, v)
  | .ok j =>
    let id := (match serviceWords s r s.inp.word 1 2 with | .ok ws => bits (ws.getD 0 0) 32 32 | .error _ => 0)
    if !(j.members.any fun e => e.1 == s.devId.toNat) then byHost s (s, 12, 0)
    else if (s.jobs.find id).isSome then byHost s (s, 5, 0)
    else byHost s (({ s with jobs := s.jobs.put id j } : State).onCtx (jobCtx s j) fun x => { x with job := some id }, 0, 0)

/-- `UNREGISTER_JOB` (R381): BUSY during a strike or a pitch of the job. -/
def execUnregisterJob (s : State) : Host.Outcome State Fault Refusal :=
  match s.jobs.find s.inp.job with
  | none => byHost s (s, 0, 0)
  | some j =>
    if (1 ≤ j.phase ∧ j.phase ≤ 4) ∨ 6 ≤ j.phase ∨ j.queue.isSome ∨ 2 ^ 32 ≤ s.inp.job then byHost s (s, 8, 0)
    else byHost s ({ s.onCtx (jobCtx s j) fun x => { x with job := none } with jobs := s.jobs.del s.inp.job }, 0, 0)

/-! ### Sweep and late areas (Table 16.7) -/

/-- The records an area has room for. -/
def recordRoom (s : State) (r : Nat) (o : Word) : Nat := ((s.ctx r).map fun x => (roomOf x o - 64) / 128).getD 0

/-- The first word of an area: records counted, packets discarded. -/
def areaHead (s : State) (r : Nat) (o : Word) : Nat × Nat :=
  match serviceWords s r o 1 2 with
  | .ok ws => (bits (ws.getD 0 0) 0 32, bits (ws.getD 0 0) 32 32)
  | .error _ => (0, 0)

/-- The records of an area. -/
def areaRecords (s : State) (r : Nat) (o : Word) : List Byte :=
  match serviceRead s r (o + 64) (128 * (areaHead s r o).1) 2 with
  | .ok b => b
  | .error _ => []

/-- Whether an area can be written with `n` records, and its present ones read: no page of them is absent (R365). -/
def areaReady (s : State) (r : Nat) (o : Word) (n : Nat) : Bool :=
  writable s r o 64 && writable s r o (min (64 + 128 * max n (areaHead s r o).1) (((s.ctx r).map fun x => roomOf x o).getD 0))

/-- Write an area: its header and its records from record `i` on. -/
def areaWrite (s : State) (r : Nat) (o : Word) (n disc i : Nat) (b : List Byte) : State :=
  serviceWrite (serviceWrite s r o (dword (fields [(32, n), (32, min disc (2 ^ 32 - 1))]))) r (o + word (64 + 128 * i)) b

/-- Whether a packet's record comes before another's: by ingress port, then by ordinal (R384). -/
def sweptBefore (a b : Nat × Packet) : Bool := a.2.inport < b.2.inport || (a.2.inport == b.2.inport && a.1 ≤ b.1)

/-- Insert a swept packet in sweep order. -/
def insertSwept (e : Nat × Packet) : List (Nat × Packet) → List (Nat × Packet)
  | [] => [e]
  | f :: r => if sweptBefore f e then f :: insertSwept e r else e :: f :: r

/-- A message record of a packet in a sweep or late area: no enqueue stamp, its ordinal and ingress port (Table 16.6). -/
def packetRecord (p : Packet) (arr : Nat) : List Byte :=
  msgRecord { p.msg with enq := 0, hdr := toVpe p.msg.hdr p.dvpe } p.dctx p.ddev arr p.inport p.tsw

/-- The records of packets swept, in sweep order. -/
def sweptBytes (l : List (Nat × Packet)) : List Byte := l.flatMap fun e => packetRecord e.2 e.1

/-- Whether a job has areas: firmware's own job keeps the packets swept itself (log entry 61). -/
def hasAreas (j : Job) : Bool := j.oref != 0

/-- The records in a job's sweep area. -/
def sweepRecords (s : State) (j : Job) : List Byte := if hasAreas j then areaRecords s j.ctx j.sweepA else sweptBytes j.swept

/-- Sweep a job packet: its record stands in its place in the sweep area (R383, R384). None when the area is full, or a page of it is absent. -/
def sweepPacket (s : State) (n : Nat) (p : Packet) : Option State :=
  match s.jobs.find n with
  | none => none
  | some j =>
    if hasAreas j && (decide (recordRoom s j.ctx j.sweepA ≤ j.swept.length) || !areaReady s j.ctx j.sweepA (j.swept.length + 1)) then none
    else
      let k := j.arr.getD p.inport 0
      let l := insertSwept (k, p) j.swept
      let s := s.onJob n fun j => { j with swept := l, arr := j.arr.put p.inport (k + 1) }
      some (if hasAreas j then areaWrite s j.ctx j.sweepA l.length 0 0 (sweptBytes l) else s)

/-! ### Arrivals (R53, R383, R400) -/

/-- The job that a packet belongs to. -/
def jobOf (s : State) (p : Packet) : Option (Nat × Job) := s.jobs.find? fun e => jobPacket e.2 p

/-- A job packet that a port takes before its pegs during a strike is swept, in the order of the port: behind one of the same ingress port that a buffer still holds,
and while the sweep area has no room, it stays in the ingress buffer (R383 to R385). -/
def sweepIngress (s : State) (n : Nat) (p : Packet) : State :=
  let mine (q : Packet) : Bool := q.inport == p.inport && (jobOf s q).any fun e => e.1 == n
  if s.ports.any fun e => e.2.ingress.any mine || e.2.egress.any mine then keepIngress s p
  else (sweepPacket s n p).getD (keepIngress s p)

/-- `MESSAGE_ARRIVAL` (R53): a message of the network inside the device, in the order of its triple, or one that a link port passes on: delivered, forwarded,
during a strike of its job swept while pegs of its port are still to come (R383), during a pitch held in the ingress buffer until this device's own records are
delivered (R388). A job packet behind all pegs is `LATE_PACKET`. -/
def execMessageArrival (s : State) : Host.Outcome State Fault Refusal :=
  match s.inp.arrival with
  | .net i =>
    match takeAt s.net i with
    | none => .next s
    | some (p, rest) => if (s.net.take i).any (sameTriple p) then .next s else .next (arriveFrom s { s with net := rest } p)
  | .link port p =>
    if !(s.port port).up then .next s
    else
      let q := { p with inport := port, tsw := s.time, msg := { p.msg with enq := 0, ret := none } }
      match jobOf s q with
      | some (n, j) =>
        if j.phase = 6 then .next (keepIngress s q)
        else if 3 ≤ j.phase ∧ portPegged s j port ∧ (j.phase ≤ 4 ∨ j.struck) then .next s
        else if j.phase = 3 ∨ j.phase = 4 then .next (sweepIngress s n q)
        else .next (linkDeliver s q)
      | none => .next (linkDeliver s q)

/-! ### The strike (R383 to R386) -/

/-- Empty the areas of a job. -/
def clearAreas (s : State) (j : Job) : State :=
  if hasAreas j then areaWrite (areaWrite s j.ctx j.sweepA 0 0 0 []) j.ctx j.lateA 0 0 0 [] else s

/-- Whether what a job's areas hold waits for a pitch: it stands struck, or stopped by a hot reset. -/
def holdsRecords (s : State) (j : Job) : Bool := j.struck || resetStop s j

/-- A job enters HALT, with empty areas (DEDUCED, log entry 56) unless they hold packets that wait for a pitch. -/
def startHalt (s : State) (n : Nat) (j : Job) (q : Option Nat) : State :=
  let keep := holdsRecords s j
  let s := if j.struck then s else clearAreas s j
  let s := if keep && !j.struck && hasAreas j && !j.swept.isEmpty then areaWrite s j.ctx j.sweepA j.swept.length 0 0 (sweptBytes j.swept) else s
  s.onJob n fun j => { j with
    phase := 1, swept := if keep then j.swept else [], arr := if keep then j.arr else [], reports := [], queue := q
    pegs := if j.phase = 5 then [] else j.pegs, struck := false }

/-- Begin HALT for a job on this device (Table 16.8): steps 1 and 2 of R376, and the watchdog from now on. -/
def beginHalt (s : State) (n : Nat) (j : Job) (x : Context) (q : Option Nat) : State :=
  let r := jobCtx s j
  let s := startHalt s n j q
  let v : Saving := ⟨j.image, q, 2, n, s.time⟩
  stopContext (holdImage (s.setCtx r { x with saving := some v }) j.ctx j.image x) r x

/-- The context of a job on this device, when it and the context of its descriptor are resident (R383). -/
def jobHere (s : State) (j : Job) : Option Context := if (s.ctx j.ctx).isSome then s.ctx (jobCtx s j) else none

/-- Whether a strike of a job may begin: no other strike or pitch of it is under way, and its context is not being saved. -/
def mayStrike (s : State) (j : Job) (x : Context) : Bool := (j.phase == 0 || j.phase == 5 || resetStop s j) && x.saving.isNone

/-- Whether the areas of a job, where it has them, can be written. -/
def areasReady (s : State) (j : Job) : Bool := !hasAreas j || (areaReady s j.ctx j.sweepA j.swept.length && areaReady s j.ctx j.lateA 0)

/-- An absent member (R383): it saves nothing, sends a peg on every link port at once, and answers absent. -/
def strikeAbsent (s : State) (n : Nat) : State :=
  let ports := (List.range Config.ports).filter fun p => (s.port p).up
  sideband { s with reports := s.reports ++ ports.map fun p => [6, word n, word p] } n 1 0

/-- `STRIKE_REQUEST` (R383): a member receives the strike over the sideband. Firmware makes absent pages of its areas present, by the entries that the event
gives. -/
def execStrikeRequest (s : State) : Host.Outcome State Fault Refusal :=
  let n := s.inp.job
  match s.jobs.find n with
  | none => .next (strikeAbsent s n)
  | some j =>
    match jobHere s j with
    | none => .next (strikeAbsent s n)
    | some x =>
      if !mayStrike s j x then .next s
      else
        let s := firmwareService s s.inp.words 0 []
        if shootDone s && areasReady s j then .next (beginHalt s n j x none) else .next s

/-- The registered job that an oref names in a queue's context, and the descriptor's orefs checked with right W (R365, R381). -/
def namedJob (s : State) (qc : Nat) (o : Word) : Except SHalt (Option (Nat × Job)) := do
  let _ ← serviceCheck s qc o 64 2
  match s.jobs.find? fun e => hasAreas e.2 && e.2.ctx == qc && e.2.oref == o with
  | none => .ok none
  | some e =>
    let _ ← serviceCheck s qc e.2.image 64 2
    let _ ← serviceCheck s qc e.2.sweepA 64 2
    let _ ← serviceCheck s qc e.2.lateA 64 2
    let _ ← serviceCheck s qc e.2.cellList 8 2
    .ok (some e)

/-- The service of C.STRIKE (R383, R365): the named descriptor's job begins HALT here, and the strike goes to the other members; while another strike or a pitch of
the job is under way the service waits (DEDUCED, log entry 56). -/
def strikeService (s : State) (q : Nat) (o : Word) : Except SHalt State := do
  match ← namedJob s (s.queue q).ctx o with
  | none => .error (.status 13 s.devId.toNat)
  | some (n, j) =>
    match jobHere s j with
    | none => .error (.status 13 s.devId.toNat)
    | some x =>
      if mayStrike s j x && areasReady s j then .ok (sideband (beginHalt s n j x (some q)) n 4 0) else .error .later

/-- `STRIKE_HALT_COMPLETE` (Table 16.8): every slot of the job is free or parked or keeps its stream, and its kicks are settled; DRAIN begins. -/
def execStrikeHaltComplete (s : State) : Host.Outcome State Fault Refusal :=
  let n := s.inp.job
  match s.jobs.find n with
  | none => .next s
  | some j =>
    match s.ctx (jobCtx s j) with
    | none => .next s
    | some x =>
      let still := (x.cells.all fun c => (List.range 4).all fun k => match (s.slot c k).status with | .running => false | _ => true)
        && kicksDone s (jobCtx s j)
      if j.phase = 1 ∧ still then .next (s.onJob n fun j => { j with phase := 2 }) else .next s

/-- `STRIKE_DRAIN_COMPLETE` (Table 16.8): no job packet remains on the compute dies; arrivals held at a spill ring without room have reached it and are saved
with it (R56). Each job-facing egress port has its peg behind its job packets. -/
def execStrikeDrainComplete (s : State) : Host.Outcome State Fault Refusal :=
  let n := s.inp.job
  match s.jobs.find n with
  | none => .next s
  | some j =>
    if j.phase = 2 ∧ !(s.net.any (jobPacket j)) then .next (s.onJob n fun j => { j with phase := 3 }) else .next s

/-- Whether every member of a job has reported re-injected. -/
def allReinjected (j : Job) : Bool := j.members.all fun m => j.reports.contains (m.1, .reinjected)

/-- Whether a member has answered the check before a pitch (R387). -/
def checkAnswered (j : Job) (d : Nat) : Bool :=
  j.reports.any fun e => e.1 == d && match e.2 with | .passed | .refused _ => true | _ => false

/-- The status of a strike whose members have all answered or of which one's watchdog has expired, or of a pitch that a member refuses, once every member has
answered its check, or that all have carried out; none while answers are missing (R383, R385, R387). -/
def jobVerdict (j : Job) : Option (Nat × Nat) :=
  let least (l : List Nat) : Nat := l.foldl min 512
  if 1 ≤ j.phase ∧ j.phase ≤ 5 then
    let absent := (j.reports.filter fun e => e.2 == .absent).map (·.1)
    if (j.reports.any fun e => e.2 == .expired) || j.members.all fun m => j.reports.any fun e => e.1 == m.1 then
      some (if absent.isEmpty then (0, 0) else (13, least absent))
    else none
  else
    let refusals := j.reports.filterMap fun e => match e.2 with | .refused c => some (e.1, c) | _ => none
    let hard := (refusals.filter fun e => e.2 == 12).map (·.1)
    if j.phase = 6 ∧ !(j.members.all fun m => checkAnswered j m.1) then none
    else if !hard.isEmpty then some (12, least hard)
    else if !refusals.isEmpty then
      let d := least (refusals.map (·.1))
      some (((refusals.find? fun e => e.1 == d).map (·.2)).getD 12, d)
    else if (j.phase = 7 ∨ j.phase = 0) ∧ allReinjected j then some (0, 0)
    else none

/-- A job back where it stood before a pitch: struck, or not. -/
def backToStand (j : Job) : Job := { j with phase := if j.phase = 6 then (if j.struck then 5 else 0) else j.phase }

/-- Give the waiting command of a job its status. The initiator of a pitch that is refused tells every member so: it has their answers, and they go back to where they
stood. -/
def jobAnswer (s : State) (n : Nat) : State :=
  match s.jobs.find n with
  | none => s
  | some j =>
    match j.queue, jobVerdict j with
    | some q, some v =>
      let s := s.setQueue q { s.queue q with result := some v }
      let s := if 6 ≤ j.phase ∧ v.1 ≠ 0 then sideband s n 3 v.1 else s
      s.onJob n fun j => { backToStand j with queue := none }
    | _, _ => s

/-- DONE (Table 16.8): with every peg arrived and no job packet left in a port buffer (R385), the image is written with the SWEEP and LATE sections, once no page that
this needs is absent (R365), and the device reports struck. -/
def strikeDone (s : State) (n : Nat) : State :=
  match s.jobs.find n with
  | none => s
  | some j =>
    let r := jobCtx s j
    match s.ctx r with
    | none => s
    | some x =>
      match x.saving with
      | none => s
      | some v =>
        let sections := some (areaRecords s j.ctx j.sweepA, areaRecords s j.ctx j.lateA ++ dword (areaHead s j.ctx j.lateA).2)
        if j.phase ≠ 4 ∨ !allPegged s j ∨ !quiet s r x ∨ (s.ports.any fun e => e.2.ingress.any (jobPacket j)) ∨ !areasReady s j ∨ !imageRoom s r x v sections then s
        else
          let x := { x with unloaded := true }
          let s := s.setCtx r x
          let (s, _) := writeImage s r x v sections
          sideband (s.onJob n fun j => { j with phase := 5, struck := true, reports := j.reports ++ [(s.devId.toNat, .struck)] }) n 0 0

/-- Insert a packet of an egress buffer by the time at which it reached the link switch, behind those of the same time. -/
def insertByTime (e : Nat × Packet) : List (Nat × Packet) → List (Nat × Packet)
  | [] => [e]
  | f :: r => if e.2.tsw.toNat < f.2.tsw.toNat then e :: f :: r else f :: insertByTime e r

/-- The job packets of one ingress port (24: of this device) that egress buffers hold, each with the buffer's port, in the order of their arrival (R384). -/
def inEgress (s : State) (j : Job) (i : Nat) : List (Nat × Packet) :=
  ((List.range Config.ports).flatMap fun p => ((s.port p).egress.filter fun q => jobPacket j q && q.inport == i).map fun q => (p, q)).foldl
    (fun l e => insertByTime e l) []

/-- Sweep packets of egress buffers, as far as the area has room. -/
def sweepEgress (n : Nat) : State → List (Nat × Packet) → State
  | s, [] => s
  | s, (p, q) :: r =>
    match sweepPacket s n q with
    | some t => sweepEgress n (t.setPort p { t.port p with egress := (t.port p).egress.erase q }) r
    | none => s

/-- Sweep packets of the ingress buffer of port `p`, as far as the area has room. -/
def sweepBuffer (n p : Nat) : State → List Packet → State
  | s, [] => s
  | s, q :: r =>
    match sweepPacket s n q with
    | some t => sweepBuffer n p (t.setPort p { t.port p with ingress := (t.port p).ingress.erase q }) r
    | none => s

/-- Sweep the job packets that came in over port `i`, or for 24 from this device, in the order of their arrival: those that have gone on to an egress buffer, and behind
them those that still stand in the ingress buffer (R384). -/
def sweepPort (n : Nat) (j : Job) (s : State) (i : Nat) : State :=
  let s := sweepEgress n s (inEgress s j i)
  if i < Config.ports && (inEgress s j i).isEmpty then sweepBuffer n i s ((s.port i).ingress.filter (jobPacket j)) else s

/-- Whether no port buffer holds a job packet. -/
def buffersClear (s : State) (j : Job) : Bool :=
  (List.range Config.ports).all fun p => !((s.port p).egress.any (jobPacket j) || (s.port p).ingress.any (jobPacket j))

/-- `STRIKE_SWEEP_COMPLETE` (Table 16.8, R384, R385): job packets in ingress buffers and ahead of the pegs in egress ports are removed and swept; once every
buffer is clear of them the pegs are sent, none in the stop of a hot reset (R398). With every peg arrived the device is DONE. Firmware makes absent pages of the areas
and of the image present, by the entries that the event gives (R365). -/
def execStrikeSweepComplete (s : State) : Host.Outcome State Fault Refusal :=
  let n := s.inp.job
  match s.jobs.find n with
  | none => .next s
  | some j =>
    if j.phase ≠ 3 ∧ j.phase ≠ 4 then .next s
    else
      let s := firmwareService s s.inp.words 0 []
      let s := if shootDone s then (List.range (Config.ports + 1)).foldl (sweepPort n j) s else s
      if !shootDone s ∨ !buffersClear s j then .next s
      else if j.phase = 4 then .next (jobAnswer (strikeDone s n) n)
      else
        let pegs := if resetStop s j then [] else facing s j
        let s : State := { s with reports := s.reports ++ pegs.map fun p => [6, word n, word p] }
        .next (jobAnswer (strikeDone (s.onJob n fun j => { j with phase := 4 }) n) n)

/-- `SWEEP_PEG_ARRIVAL` (R383): a peg of a member arrives on a port; a device that is no member ignores it. The last peg makes the device DONE. -/
def execSweepPegArrival (s : State) : Host.Outcome State Fault Refusal :=
  let n := s.inp.job
  match s.jobs.find n with
  | none => .next s
  | some j =>
    if j.pegs.contains (s.inp.port, s.inp.dev) then .next s
    else .next (jobAnswer (strikeDone (s.onJob n fun j => { j with pegs := j.pegs ++ [(s.inp.port, s.inp.dev)] }) n) n)

/-- `LATE_PACKET` (R386): a job packet behind all pegs of its port joins the late area, or is discarded and counted when that is full; a device-class event
of cause 0x11 names job, port and source. It stays on the link while a page of the area is absent, which the entries that the event gives make present (R365). -/
def execLatePacket (s : State) : Host.Outcome State Fault Refusal :=
  let n := s.inp.job
  match s.jobs.find n with
  | none => .next s
  | some j =>
    let port := s.inp.port
    let p := { s.inp.pkt with inport := port, tsw := s.time }
    if j.phase < 3 ∨ 5 < j.phase ∨ (j.phase = 5 ∧ !j.struck) ∨ !jobPacket j p ∨ !portPegged s j port ∨ !(s.port port).up then .next s
    else
    let s := firmwareService s s.inp.words 0 []
    let (k, disc) := areaHead s j.ctx j.lateA
    if !shootDone s ∨ !areaReady s j.ctx j.lateA (k + 1) then .next s
    else
      let s := errorRecord s 8 2 none (4 + port / 12) 1 (fields [(5, port), (27, 0), (32, n)]) (fields [(9, p.sdev), (10, p.sctx), (8, 0x11)])
      if recordRoom s j.ctx j.lateA ≤ k then .next (areaWrite s j.ctx j.lateA k (disc + 1) k [])
      else
        let a := j.arr.getD port 0
        let s := s.onJob n fun j => { j with arr := j.arr.put port (a + 1) }
        .next (areaWrite s j.ctx j.lateA (k + 1) disc k (packetRecord p a))

/-! ### The pitch (R387, R388) -/

/-- Whether the host has taken the steps of R398 before a pitch of a detached context: SPDM, attestation, and the interface locked again. -/
def reattested (s : State) (x : Context) : Bool :=
  let t := (s.iface x.fn).tdisp
  s.sec.spdm && s.sec.attested && (t == 1 || t == 2)

/-- The outcome of a member's check before a pitch: image, target and cells, or its refusal (R387, R398): NOCTX where the job's context is not resident. -/
def pitchCheck (s : State) (j : Job) (acceptLate : Bool) : Except SHalt (Image × Nat × List Nat) := do
  match jobHere s j with
  | none => .error (.status 13 0)
  | some x => if x.detached && !reattested s x then .error (.status 12 0) else .ok ()
  if areasReady s j then .ok () else .error .later
  let head ← serviceRead s j.ctx j.image 24 1
  let len := fieldAt head 8 8
  let room := ((s.ctx j.ctx).map fun y => roomOf y j.image).getD 0
  let b ← if room < len then .error (.status 1 0) else serviceRead s j.ctx j.image (max 64 len) 1
  let (k, disc) := areaHead s j.ctx j.lateA
  if ((imageOf b).any fun m => m.status != 0) ∨ (k ≠ 0 ∧ !acceptLate) ∨ disc ≠ 0 then .error (.status 12 0) else .ok ()
  let w0 ← serviceWords s j.ctx j.cellList 1 1
  let ws ← serviceWords s j.ctx j.cellList (1 + bits (w0.getD 0 0) 16 12) 1
  restoreChecks s b ws

/-- A refusal of a member: an error record that names its status, and the answer (R387). -/
def pitchRefused (s : State) (n code : Nat) : State :=
  sideband (errorRecord s 11 2 none 0 1 code n) n 3 code

/-- Re-inject records: those for this device go to their input buffers, the others into the link switch (R387). -/
def reinject (s : State) (b : List Byte) : State :=
  (recordList b).foldl (fun s r =>
    let m := msgOf r
    let w := fieldAt r 96 8
    let p : Packet := ⟨s.devId.toNat, w / 2 ^ 9 % 2 ^ 10, w % 2 ^ 9, w / 2 ^ 9 % 2 ^ 10, msgDest m.hdr, w / 2 ^ 19 % 32, word (fieldAt r 104 8), { m with enq := 0 }⟩
    linkDeliver s p) s

/-- A member's steps 1 to 4: the image is restored with the gate shut, sweep and late records are re-injected, the job packets that arrived meanwhile follow port by port (R388), and it reports so. -/
def pitchHere (s : State) (n : Nat) (j : Job) (m : Image) (r : Nat) (cells : List Nat) : State :=
  let s := s.onJob n fun j => { j with gate := false }
  let s := (applyImage s r m cells).onCtx r fun x => { x with job := some n, detached := false }
  let s := reinject s (areaRecords s j.ctx j.sweepA)
  let s := emptyIngress (reinject s (areaRecords s j.ctx j.lateA)) (jobPacket j)
  let s := clearAreas s j
  sideband (s.onJob n fun j => { j with phase := 7, swept := [], arr := [], pegs := [], struck := false, reports := j.reports ++ [(s.devId.toNat, .reinjected)] }) n 2 0

/-- The pitch gate opens when every member has reported re-injected: the cells start activations (R387 step 5). -/
def openGate (s : State) (n : Nat) : State :=
  match s.jobs.find n with
  | none => s
  | some j =>
    if j.phase = 7 ∧ allReinjected j then releaseCells (s.onJob n fun j => { j with gate := true, phase := 0 }) (jobCtx s j) else s

/-- Whether a member whose check passed may restore: the initiator once every member's check has passed, and another member at the initiator's word (R387; DEDUCED,
log entry 56). -/
def mayPitch (j : Job) : Bool := j.queue.isNone || j.members.all fun m => j.reports.contains (m.1, .passed)

/-- `PITCH_REQUEST` (R387): a member receives the pitch and checks (number 0; the flag is accept-late), and at the initiator's word that no member refuses (another number)
it restores and re-injects, the initiator passing that word on. While a member of the job is absent it refuses (R383). -/
def execPitchRequest (s : State) : Host.Outcome State Fault Refusal :=
  let n := s.inp.job
  match s.jobs.find n with
  | none => .next (pitchRefused s n 13)
  | some j =>
    if s.inp.n = 0 then
      if j.reports.any fun e => e.2 == .absent then .next (pitchRefused s n 13)
      else if !(j.phase = 0 ∨ j.phase = 5 ∨ (j.phase = 6 ∧ j.queue.isNone)) then .next s
      else match pitchCheck s j s.inp.flag with
        | .error .later => .next s
        | .error (.status c _) => .next (pitchRefused (s.onJob n backToStand) n c)
        | .ok _ => .next (sideband (s.onJob n fun j => { j with phase := 6, accept := s.inp.flag, reports := [(s.devId.toNat, .passed)] }) n 7 0)
    else if j.phase = 6 ∧ mayPitch j then
      match pitchCheck s j j.accept with
      | .ok (m, r, cells) =>
        let s := if j.queue.isSome then sideband s n 8 0 else s
        .next (jobAnswer (openGate (pitchHere s n j m r cells) n) n)
      | .error .later => .next s
      | .error (.status c _) => .next (jobAnswer (pitchRefused (s.onJob n fun j => { j with reports := j.reports ++ [(s.devId.toNat, .refused c)] }) n c) n)
    else .next s

/-- The context that a C.PITCH lets go on where it stands: a detached one that has kept its cells, named by a registered descriptor; without one, by the queue's own
context, or by its number in place of an oref (R398; DESIGN CHOICE, log entry 61). -/
def keptContext (s : State) (qc : Nat) (o : Word) (job : Option (Nat × Job)) : Option (Nat × Context) :=
  let r := match job with
    | some e => jobCtx s e.2
    | none => if o.toNat < 1024 then o.toNat else qc
  (s.ctx r).bind fun x => if x.detached && !x.cells.isEmpty then some (r, x) else none

/-- Whether the stop of a hot reset is still under way for a context. -/
def stillStopping (s : State) (x : Context) : Bool :=
  x.saving.isSome || (x.job.bind s.jobs.find).any fun j => decide (1 ≤ j.phase ∧ j.phase ≤ 3)

/-- The service of C.PITCH (R387, R365): NOCTX for an unregistered job or while a member is absent; otherwise the pitch is passed on to every member, and behind it this
member's own check is answered, a refusal with its error record. A detached context that has kept its cells goes on where it stands (status 0) once SPDM is
re-established, the device attested and the interface locked again (R398). While a strike or another pitch of the job is under way the service waits. -/
def pitchService (s : State) (q : Nat) (o : Word) (late : Bool) : Except SHalt State := do
  let qc := (s.queue q).ctx
  let job ← if o.toNat < 1024 then .ok none else namedJob s qc o
  match keptContext s qc o job with
  | some (_, x) =>
    if !reattested s x then .error (.status 12 s.devId.toNat)
    else if stillStopping s x then .error .later
    else .error (.status 0 0)
  | none =>
    match job with
    | none => .error (.status 13 s.devId.toNat)
    | some (n, j) =>
      if (j.reports.any fun e => e.2 == .absent) || (jobHere s j).isNone then .error (.status 13 s.devId.toNat)
      else if j.phase ≠ 0 ∧ j.phase ≠ 5 then .error .later
      else
        let begin' (e : Report) : State :=
          sideband (s.onJob n fun j => { j with phase := 6, accept := late, reports := [(s.devId.toNat, e)], queue := some q }) n 5 (b2n late)
        match pitchCheck s j late with
        | .error .later => .error .later
        | .error (.status c _) => .ok (jobAnswer (pitchRefused (begin' (.refused c)) n c) n)
        | .ok _ => .ok (sideband (begin' .passed) n 7 0)

/-! ### The stop of a hot reset (R398) -/

/-- A protected context enters the HALT of a hot reset, on this device only: under its registered job, or one of firmware's own (log entry 61). -/
def resetHalt (s : State) (r : Nat) (x : Context) : State :=
  if x.saving.isSome ∨ x.cells.isEmpty then s
  else
    match x.job with
    | some n => s.onJob n fun j => if 6 ≤ j.phase ∨ j.struck then j else { j with phase := 1, swept := [], arr := [], pegs := [], reports := [] }
    | none =>
      let j : Job := {
        ctx := r, oref := 0, members := [(s.devId.toNat, r)], image := 0, sweepA := 0, lateA := 0, cellList := 0, phase := 1, pegs := [], swept := []
        arr := [], reports := [], queue := none, accept := false, gate := true, struck := false }
      { s with jobs := s.jobs.put (ownJob r) j }.onCtx r fun x => { x with job := some (ownJob r) }

/-- A detached context with its cells goes on after the host's steps of R398: the packets swept are re-injected, those in port buffers follow, and the cells are
released. -/
def reattach (s : State) (r : Nat) : State :=
  match s.ctx r with
  | none => s
  | some x =>
    let job := x.job.bind fun n => (s.jobs.find n).map fun j => (n, j)
    let s := s.setCtx r { x with detached := false }
    let s := match job with
      | none => s
      | some (n, j) =>
        let s := s.onJob n fun j => { j with phase := 0, swept := [], arr := [], pegs := [], reports := [] }
        let s := if hasAreas j then s else ({ s with jobs := s.jobs.del n }).onCtx r fun x => { x with job := none }
        emptyIngress (reinject s (sweptBytes j.swept)) (jobPacket j)
    releaseCells (x.cells.foldl (fun s c => s.setCell c { s.cell c with preempt := false }) s) r

/-! ### Members' reports -/

/-- `MEMBER_REPORT` (R383, R387): a member's report reaches this device. -/
def execMemberReport (s : State) : Host.Outcome State Fault Refusal :=
  let n := s.inp.job
  match s.jobs.find n with
  | none => .next s
  | some j =>
    if !(j.members.any fun m => m.1 == s.inp.dev) ∨ j.reports.contains (s.inp.dev, s.inp.report) then .next s
    else
      let s := s.onJob n fun j => { j with reports := j.reports ++ [(s.inp.dev, s.inp.report)] }
      let s := match s.inp.report with
        | .refused _ => s.onJob n fun j => if j.queue.isNone then backToStand j else j
        | _ => s
      .next (jobAnswer (openGate s n) n)

/-- `SAVE_WATCHDOG_EXPIRY` (R377, R385): SAVE_LIMIT ms after its start, a save or strike is abandoned. No section of the image has been begun before it is written,
so every one due is INCOMPLETE. The other members of a strike are told, and its command completes. Absent pages that the image's index needs are made present first, by the
entries that the event gives (R365). -/
def execSaveWatchdogExpiry (s : State) : Host.Outcome State Fault Refusal :=
  let r := s.inp.ctx
  match s.ctx r with
  | none => .next s
  | some x =>
    match x.saving with
    | none => .next s
    | some v =>
      if (s.time - v.start).toNat < s.saveLimit * 1000000 then .next s
      else
        let s := firmwareService s s.inp.words 0 []
        let secs := sectionList s r x (if v.kind = 2 then some ([], []) else none)
        let ic := imageCtx s v r
        if !shootDone s ∨ !writable s ic v.image (min (64 + 32 * secs.length) (((s.ctx ic).map fun y => roomOf y v.image).getD 0)) then .next s
        else
        let s := abandonSave s r x v secs false
        if v.kind = 2 then
          .next (jobAnswer (sideband (s.onJob v.job fun j => { j with phase := 5, struck := true, reports := j.reports ++ [(s.devId.toNat, .expired)] }) v.job 6 0) v.job)
        else .next s

/-! ### Links (R400, R442) -/

/-- A link goes down (R400): the packets in its retry buffer are lost with a link record, and contain their sending contexts, and one that names this device its receiving
context; the messages that follow find the port down. The event's words name the contexts of this device to which messages in the partner's retry buffer were lost. -/
def dropLink (s : State) (port : Nat) : State :=
  let p := s.port port
  let s := errorRecord (s.setPort port { p with up := false, fails := 0, egress := [] }) 3 2 none (4 + port / 12) 1 port 0
  p.egress.foldl (fun s k =>
    let s := if k.sdev = s.devId.toNat ∧ 24 ≤ k.inport then containWithRecord s k.sctx (4 + port / 12) port 0 else s
    if k.ddev = s.devId.toNat then containWithRecord s k.dctx (4 + port / 12) port 0 else s)
    (s.inp.words.foldl (fun s r => containWithRecord s r.toNat (4 + port / 12) port 0) s)

/-- `LINK_DOWN` (R400). A lost posted store or request ends by `POSTED_STORE_LOSS` or its response. -/
def execLinkDown (s : State) : Host.Outcome State Fault Refusal :=
  if (s.port s.inp.port).up then .next (dropLink s s.inp.port) else .next s

/-- `FLIT_REPLAY` (R400): the flits of a port's next packet pass their CRC (the event's flag), and it has left; or a replay has failed, and after 8 in a row
the link goes down. -/
def execFlitReplay (s : State) : Host.Outcome State Fault Refusal :=
  let p := s.port s.inp.port
  if !p.up then .next s
  else if s.inp.flag then .next (s.setPort s.inp.port { p with fails := 0, egress := p.egress.drop 1 })
  else if p.fails + 1 < 8 then .next (s.setPort s.inp.port { p with fails := p.fails + 1 })
  else .next (dropLink s s.inp.port)

/-- `UNDELIVERABLE_MESSAGE` (R442): a message from a link for a context that is not resident, or a virtual PE not below V, is refused. Job packets in a strike of their
job and contexts without cells have their own rules. -/
def execUndeliverableMessage (s : State) : Host.Outcome State Fault Refusal :=
  let p := s.inp.pkt
  let striking : Bool := (jobOf s p).any fun e => e.2.phase == 3 || e.2.phase == 4 || (e.2.phase == 5 && e.2.struck)
  let bad : Bool := match s.ctx p.dctx with
    | none => true
    | some x => !x.cells.isEmpty && decide (x.fold.v ≤ p.dvpe)
  if p.ddev = s.devId.toNat ∧ (s.port s.inp.port).up = true ∧ bad = true ∧ striking = false then .next (refuseMessage s { p with inport := s.inp.port })
  else .next s

/-- `UNDELIVERABLE_REFUSAL` (R442): the sending device's record names the sending context, which is not contained. -/
def execUndeliverableRefusal (s : State) : Host.Outcome State Fault Refusal :=
  let p := s.inp.pkt
  .next (errorRecord s 13 2 (some p.sctx) 4 1 (fields [(9, p.sdev), (10, p.dctx), (21, 0), (24, p.dvpe)]) 0)

end Sys2Proof.Machine
end

