-- ==== Sys2Proof/Machine/Privileged.lean ====
section
/-! DEFINITION. The lead firmware core's service of privileged commands (R365), one request after another, and what ends it. -/

namespace Sys2Proof.Machine

/-- The status word of a privileged command (R365): STATUS in [63:56], VALUE in [31:0]. -/
def statusWord (code value : Nat) : Word := word (fields [(32, value), (24, 0), (8, code)])

/-- A privileged command of queue `n` ends: c[cc] gets its status word, and the queue becomes READY (R365). -/
def endService (s : State) (n : Nat) (cc : BitVec 4) (code value : Nat) : State :=
  complete (s.setQueue n ({ s.queue n with result := none }.setReg cc (statusWord code value))) n 1

/-- A service goes on: its result comes later. -/
def serviceRuns (s : State) (n : Nat) : State := s.setQueue n { s.queue n with answer := some true }

/-- The register that takes the status word of a privileged command. -/
def statusReg : Instr → Option (BitVec 4)
  | .cInstall _ _ cc _ => some cc
  | .cRebuild _ cc => some cc
  | .cDelete _ cc => some cc
  | .cStrike _ cc => some cc
  | .cPitch _ cc _ => some cc
  | .cSave _ _ cc => some cc
  | .cRestore _ _ cc => some cc
  | _ => none

/-- Serve the privileged command of queue `n`: it ends with OK, goes on, or is refused with a status before any state is changed (R365). -/
def serve (s : State) (n : Nat) (q : Queue) : Instr → Except SHalt State
  | .cInstall ca cb cc dies =>
    match q.installing with
    | none => beginInstall s n (q.reg ca) (q.reg cb) dies
    | some id =>
      let (s, code, value) := endInstall s id
      .ok (endService (s.setQueue n { q with installing := none }) n cc code value)
  | .cRebuild ca _ => (rebuildService s (q.reg ca)).map (serviceRuns · n)
  | .cDelete ca cc => (deleteService s (q.reg ca)).map (endService · n cc 0 0)
  | .cStrike ca _ => (strikeService s n (q.reg ca)).map (serviceRuns · n)
  | .cPitch ca _ late => (pitchService s n (q.reg ca) (late == 1)).map (serviceRuns · n)
  | .cSave ca cb _ => (saveService s n (q.reg ca) (q.reg cb)).map (serviceRuns · n)
  | .cRestore ca cb cc => do
    let (s, r) ← restoreService s n (q.reg ca) (q.reg cb)
    .ok (endService s n cc 0 r)
  | _ => .error .later

/-- What the lead does for a refused command besides its status: the C.PITCH of a detached context that keeps its cells ends with OK and lets it go on
(R398), and one refused for it has its error record (R387). -/
def afterStatus (s : State) (q : Queue) (code : Nat) : Instr → State
  | .cPitch ca _ _ =>
    let job := s.jobs.find? fun e => hasAreas e.2 && e.2.ctx == q.ctx && e.2.oref == q.reg ca
    match keptContext s q.ctx (q.reg ca) job with
    | some (r, _) => if code = 0 then reattach s r else if code = 12 then errorRecord s 11 2 none 0 1 code ((job.map (·.1)).getD (ownJob r)) else s
    | none => s
  | _ => s

/-- `PRIVILEGED_COMMAND_COMPLETE` (R365): the lead serves the privileged command of a queue. Pages that the command needs are made present first, by the
entries that the event gives, and their shootdowns are waited for (R141). A command whose service goes on ends once its result is there; C.INSTALL ends at a
second event, its capsule INSTALLING between them (R325). -/
def execPrivilegedCommandComplete (s : State) : Host.Outcome State Fault Refusal :=
  let n := s.inp.queue
  let q := s.queue n
  match q.service with
  | none => .next s
  | some i =>
    match statusReg i with
    | none => .next s
    | some cc =>
      if !leadActs s then .next s
      else match q.result with
        | some (code, value) => .next (endService s n cc code value)
        | none =>
          if q.answer.isSome then .next s
          else
            let s := firmwareService s s.inp.words 0 []
            if !shootDone s then .next s
            else match serve s n q i with
            | .ok t => .next t
            | .error .later => .next s
            | .error (.status code value) => .next (endService (afterStatus s q code i) n cc code value)

end Sys2Proof.Machine
end

