-- ==== Sys2Proof/Machine/Host.lean ====
section
/-! DEFINITION. What the host asks of firmware and of the security core (R11, R44, R45, R136, R157, R159, R165, R166, R171 to R177, R183, R246, R309, R333,
R364, R391, R404, R408, R411), queues as the host sees them (R337 to R347, R353, R366), and the lease of the lead (R344, R345). -/

namespace Sys2Proof.Machine

/-! ### Queue records (R341 to R343) -/

/-- The serial of the next command: the one under way has taken its own (Table 15.1). -/
def nextSer (q : Queue) : BitVec 36 := if q.service.isSome || q.asking then q.ser + 1 else q.ser

/-- The eight words of a queue record (Table 15.1). -/
def recordWords (q : Queue) : List Word :=
  [q.base, word (fields [(32, q.head.toNat), (32, q.tail.toNat)]),
    word (fields [(30, 0), (8, q.fcode), (2, q.eng), (1, b2n q.map), (10, q.ctx), (1, b2n q.priv), (4, q.pri), (3, q.state), (5, q.lsz)]),
    word (q.version.toNat * 2 ^ 32), word ((nextSer q).toNat * 2 ^ 28), word q.frame, word q.wto, 0]

/-- The owner answers an update request, or refuses it with the status and, when its VERSION has changed, the current record (R341, R342). -/
def answerUpdate (s : State) (n code : Nat) : State :=
  { s with reports := s.reports ++ [[8, word n, word code, word (s.queue n).version.toNat] ++ if code = 14 then recordWords (s.queue n) else []] }

/-- A TAIL that lies beyond the ring is refused with BADTAIL, and the queue is in FAULT; else it is written (R343) (DEDUCED, log entry 46). -/
def writeTail (s : State) (n : Nat) (t : BitVec 32) : State :=
  let q := s.queue n
  if 2 ^ q.lsz < (t - q.head).toNat then
    let q := { leaveWait q with state := 4, fcode := 14 }
    reportFault (s.setQueue n (bumpVersion n q)) n q
  else s.setQueue n (bumpVersion n { q with tail := t })

/-- Whether a context is detached, and accepts nothing from the host (R398). -/
def isDetached (s : State) (r : Nat) : Bool := (s.ctx r).any fun x => x.detached

/-- Whether a write of a function to a doorbell waits: an earlier write of the function has not performed, and it does not carry Relaxed Ordering, which the event's
flag says (row 11 of Table 3.6, R343). -/
def doorbellWaits (s : State) : Bool := !s.inp.flag && (s.posted ++ s.held).any fun p => p.agent == .host s.inp.fn && !cleans p

/-- `DOORBELL` (R343): the host writes TAIL. A FREE queue ignores it (R340). -/
def execDoorbell (s : State) : Host.Outcome State Fault Refusal :=
  let n := s.inp.queue
  let q := s.queue n
  if q.state = 0 ∨ isDetached s q.ctx ∨ doorbellWaits s then .next s else .next (writeTail s n (s.inp.word.setWidth 32))

/-- A queue is unmapped at its next command boundary: at once when none of its commands is under way; a C.WAITSEM is abandoned (R347). -/
def unmapQueue (q : Queue) : Queue :=
  let q := abandonWait q
  if q.service.isSome ∨ 0 < q.launched then { q with unmapReq := true } else { q with map := false }

/-- The fields of an update, written into a record; an unmapping takes effect at the next command boundary (R347). -/
def updateFields (q : Queue) (u : QUpdate) : Queue :=
  let q := { q with
    base := u.base.getD q.base, tail := u.tail.getD q.tail, lsz := u.lsz.getD q.lsz, pri := u.pri.getD q.pri, wto := u.wto.getD q.wto
    priv := u.priv.getD q.priv, ctx := u.ctx.getD q.ctx }
  match u.map with
  | none => q
  | some none => if q.map then unmapQueue q else q
  | some (some d) => { q with map := true, eng := d, unmapReq := false }

/-- The values of an update lie in the ranges of their fields (Table 15.1); RCTX names a resident context, and only the physical function's driver makes a
queue privileged (R337). -/
def updateInRange (s : State) (u : QUpdate) : Bool :=
  (u.ctx.all fun r => (s.ctx r).isSome) && !(u.priv == some true && s.inp.fn != 0) &&
  (u.lsz.all fun l => decide (6 ≤ l ∧ l ≤ 20)) && (u.pri.all fun p => decide (p ≤ 15)) && (u.wto.all fun w => decide (w < 2 ^ 16))
    && (match u.map with | some (some d) => decide (d < 4) | _ => true)

/-- Whether an update moves the queue of an interface's context, or one to it, while the interface's configuration is locked (R396). -/
def movesLocked (s : State) (q : Queue) (u : QUpdate) : Bool := u.ctx.any fun r => r != q.ctx && (configLocked s q.ctx || configLocked s r)

/-- `QREC_UPDATE` (R341, R342, R345): the owner applies a request wholly, or refuses it: CHANGED for another VERSION, STALE for an older epoch, REFUSED for values out
of range, of a detached context (R398), or against a locked interface, which goes to ERROR (R396). A TAIL beyond the ring puts the queue in FAULT (R343). -/
def execQrecUpdate (s : State) : Host.Outcome State Fault Refusal :=
  let n := s.inp.queue
  let q := s.queue n
  let u := s.inp.upd
  if (u.epoch.any fun e => decide (e < s.fw.epoch)) then .next (answerUpdate s n 15)
  else if (u.version.any fun v => v != q.version.toNat) then .next (answerUpdate s n 14)
  else if !updateInRange s u ∨ isDetached s q.ctx then .next (answerUpdate s n 12)
  else if movesLocked s q u then .next (answerUpdate (rejectConfig (rejectConfig s q.ctx) (u.ctx.getD q.ctx)) n 12)
  else if q.state ≠ 0 ∧ 2 ^ (u.lsz.getD q.lsz) < (u.tail.getD q.tail - q.head).toNat then
    let q := { leaveWait q with state := 4, fcode := 14 }
    .next (answerUpdate (reportFault (s.setQueue n (bumpVersion n q)) n q) n 12)
  else .next (answerUpdate (s.setQueue n (bumpVersion n (updateFields q u))) n 0)

/-- `REPLICA_INVALIDATE` (R341): a die other than the owner marks its replica stale. -/
def execReplicaInvalidate (s : State) : Host.Outcome State Fault Refusal :=
  let n := s.inp.queue
  let d := s.inp.die
  if 6 ≤ d ∨ d = n % 4 then .next s else .next (s.setQueue n { s.queue n with stale := NSet.add (s.queue n).stale d })

/-! ### Mapping (R346, R347) -/

/-- The queues mapped to the engine of a die. -/
def mappedTo (s : State) (d : Nat) : Nat := (s.queues.filter fun e => e.2.map && e.2.eng == d).length

/-- The engine that the lead picks: the die the host names, or for any die one with room, the event's if it has some. -/
def pickEngine (s : State) (want : Option Nat) (mine : Nat) : Option Nat :=
  let room (d : Nat) : Bool := decide (d < 4) && decide (mappedTo s d < 128)
  match want with
  | some d => if room d then some d else none
  | none => (mine :: List.range 4).find? room

/-- `MAP_QUEUE` (R346): the lead maps a queue; one that is mapped as asked counts as done, and is no longer to be unmapped; an engine with 128 queues is NOROOM (here
status 16). -/
def execMapQueue (s : State) : Host.Outcome State Fault Refusal :=
  let n := s.inp.queue
  let q := s.queue n
  if q.state = 0 ∨ 4096 ≤ n then byHost s (s, 12, 0)
  else if q.map then
    if s.inp.sel.all (· == q.eng) then byHost s (if q.unmapReq then s.setQueue n (bumpVersion n { q with unmapReq := false }) else s, 0, q.eng)
    else byHost s (s, 8, q.eng)
  else match pickEngine s s.inp.sel s.inp.die with
    | none => byHost s (s, 16, 0)
    | some d => byHost s (s.setQueue n (bumpVersion n { q with map := true, eng := d, unmapReq := false }), 0, d)

/-- `UNMAP_QUEUE` (R347): at the next command boundary; a C.WAITSEM is abandoned. -/
def execUnmapQueue (s : State) : Host.Outcome State Fault Refusal :=
  let n := s.inp.queue
  let q := s.queue n
  if !q.map then byHost s (s, 0, 0) else byHost s (s.setQueue n (bumpVersion n (unmapQueue q)), 0, 0)

/-- The number of words of the command that a queue stands at; no command for a refused TAIL. -/
def standingWords (s : State) (n : Nat) : Nat :=
  let q := s.queue n
  if q.fcode = 14 then 0
  else
    let two : Bool := match fetchWord s n q 0 with
      | .ok (w, _) => bits w 56 8 == 2
      | .error _ => false
    if two && hasSecond q then 2 else 1

/-- Whether a command of a queue goes on at another agent: a privileged one in service, or a C.COPY whose kick has no answer yet. -/
def underWay (q : Queue) : Bool := (q.service.bind statusReg).isSome || q.asking

/-- `QUEUE_FAULT_RECOVERY` (R353): a faulted queue resumes at its command, skips it, or is reset, which waits for a command that goes on at another agent
(DEDUCED, log entry 46). -/
def execQueueFaultRecovery (s : State) : Host.Outcome State Fault Refusal :=
  let n := s.inp.queue
  let q := s.queue n
  if q.state ≠ 4 then byHost s (s, 0, 0)
  else if isDetached s q.ctx then byHost s (s, 12, 0)
  else
    let free := bumpVersion n { q with state := if (q.service.bind statusReg).isSome then 2 else 1, fcode := 0 }
    match s.inp.how with
    | .resume => byHost s (s.setQueue n free, 0, 0)
    | .skip => byHost s (leaveBuffers (s.setQueue n (Queue.move free (standingWords s n))) n 4, 0, 0)
    | .reset =>
      if underWay q then .next s
      else byHost s (s.setQueue n { free with
        lv := 0, bufs := [], calls := [], c := Vector.replicate 16 0, head := q.tail, service := none, answer := none, launched := 0 }, 0, 0)

/-- `QUEUE_RESUME` (R366): a queue in STOP becomes READY, or goes on waiting for a privileged command still in service; one of a detached context stays (R398). -/
def execQueueResume (s : State) : Host.Outcome State Fault Refusal :=
  let n := s.inp.queue
  let q := s.queue n
  if q.state ≠ 3 then byHost s (s, 0, 0)
  else if isDetached s q.ctx then byHost s (s, 12, 0)
  else
    let q := leaveWait q
    let waits : Bool := (q.service.bind statusReg).isSome
    byHost s (s.setQueue n (bumpVersion n { q with state := if waits then 2 else 1 }), 0, 0)

/-! ### The lease (R344, R345) -/

/-- The DFCs that live. -/
def liveDfcs (s : State) : List Nat := (List.range Config.dfcs).filter fun d => (s.dfc d).alive

/-- A renewal reaches every DFC: each restarts its timer, and a takeover in its wait is cancelled, also by a renewal of a lead that has stopped acting (R344, R345). -/
def renew (s : State) : State :=
  { s with
    dfcs := s.dfcs.map fun e => (e.1, { e.2 with lease := 0, lapsed := false })
    fw := { s.fw with renewal := false, sinceRenewal := if leadActs s then 0 else s.fw.sinceRenewal } }

/-- `LEASE_RENEWAL` (R344): the lead sends its epoch to every other DFC. By the event's number, 0: it is sent and arrives; 1: it is sent, and is on its way; else: the one
on its way arrives. -/
def execLeaseRenewal (s : State) : Host.Outcome State Fault Refusal :=
  let sends : Bool := leadActs s && s.fw.lead.any fun l => (s.dfc l).alive
  match s.inp.n with
  | 0 => if sends then .next (renew s) else .next s
  | 1 => if sends then .next { s with fw := { s.fw with renewal := true } } else .next s
  | _ => if s.fw.renewal then .next (renew s) else .next s

/-- `LEASE_LAPSE` (R345): a follower's timer has run 10 ms without a renewal; its wait begins. -/
def execLeaseLapse (s : State) : Host.Outcome State Fault Refusal :=
  let d := s.inp.die
  let x := s.dfc d
  if x.alive ∧ s.fw.lead ≠ some d ∧ s.fw.former ≠ some d ∧ x.lapsed = false ∧ leasePeriod ≤ x.lease ∧ d < Config.dfcs then
    .next (raiseEvent (s.setDfc d { x with lapsed := true, lease := 0 }) d 4)
  else .next s

/-- `LEAD_TAKEOVER` (R345): after a further lease period the live follower of the lowest number raises the epoch and becomes lead. A lead that has stopped acting is
none; it follows the new one. -/
def execLeadTakeover (s : State) : Host.Outcome State Fault Refusal :=
  let d := s.inp.die
  let x := s.dfc d
  let first : Bool := ((liveDfcs s).filter fun e => s.fw.lead != some e && s.fw.former != some e).head? == some d
  if first = true ∧ x.lapsed = true ∧ leasePeriod ≤ x.lease then
    let s := s.setDfc d { x with lapsed := false, lease := 0 }
    .next { s with fw := { s.fw with lead := some d, epoch := s.fw.epoch + 1, sinceRenewal := 0, former := none, renewal := false } }
  else .next s

/-- `LEAD_LEASE_EXPIRY` (R344): a lead that has not completed a renewal for 10 ms stops acting as lead. -/
def execLeadLeaseExpiry (s : State) : Host.Outcome State Fault Refusal :=
  if leasePeriod ≤ s.fw.sinceRenewal ∧ s.fw.lead.isSome then .next { s with fw := { s.fw with lead := none, former := s.fw.lead } } else .next s

/-! ### Contexts (R136, R164 to R166, R172, R391) -/

/-- Insert a number into a rising list. -/
def sortNats (l : List Nat) : List Nat := addAll [] l

/-- A host driver's choices that the spec's sizes allow (R54, R56, R140, R146, R440). -/
def specAllowed (x : CtxSpec) : Bool :=
  let ring := x.spillEntries * 128
  decide (2 ^ 16 ≤ ring ∧ ring ≤ 2 ^ 20 ∧ 2 ^ (Nat.log2 ring) = ring) && decide (x.extEntries * 128 ≤ 2 ^ 26)
    && decide (2 ^ 16 ≤ x.holdBytes ∧ x.holdBytes ≤ 2 ^ 24) && decide (2 ^ 16 ≤ x.arriveEntries * 128 ∧ x.arriveEntries * 128 ≤ 2 ^ 26)
    && decide (x.parts.length ≤ 64) && decide (x.fn < 64)

/-- The record of a new context: every table entry zero (R11), no capsule, no cell yet. -/
def newContext (x : CtxSpec) : Context where
  fn := x.fn
  cells := []
  parts := x.parts
  shared := []
  objs := []
  lays := []
  grants := []
  keys := []
  flags := 0
  dbgctl := 0
  caps := []
  grid := 0
  fold := ⟨0, x.cells.length, 0, 1⟩
  barriers := []
  unloaded := false
  mailbox := []
  vpes := []
  spillEntries := x.spillEntries
  extEntries := x.extEntries
  holdBytes := x.holdBytes
  arriveEntries := x.arriveEntries
  arrived := []
  report := x.report
  reportVec := x.reportVec
  reports := []
  reportLost := 0
  service := x.service
  serviced := []
  trace := x.trace
  blocks := x.blocks
  contained := false
  detached := false
  saving := none
  job := none
  noMove := []
  setN := []
  exchange := []

/-- `CREATE_CONTEXT` (R136, R172): BUSY for a number or a cell in use, REFUSED for sizes the spec excludes, in recovery (R393), and for a cell whose rank is in IS3
(R401). -/
def execCreateContext (s : State) : Host.Outcome State Fault Refusal :=
  let r := s.inp.ctx
  let x := s.inp.spec
  if s.sec.recovery ∨ 1024 ≤ r ∨ !specAllowed x ∨ x.cells.any (fun c => decide (Config.cells ≤ c) || !cellPowered s c) then byHost s (s, 12, 0)
  else if (s.ctx r).isSome ∨ x.cells.any (cellTaken s) then byHost s (s, 8, 0)
  else
    let cells := sortNats x.cells
    byHost s (giveCells (s.setCtx r (newContext x)) r cells ⟨0, cells.length, 0, 1⟩, 0, r)

/-- The fold of a capsule's grid on the cells of a context (Formula (7.2), R165). -/
def foldOf (g : Capsule) (p : Nat) : Fold :=
  let v := g.grid.1
  ⟨v, p, (g.need + 767) / 768 * 768, (v + p - 1) / p⟩

/-- Load a capsule into a context (R165, R166, R246): NOCAP, QUAR, NOFIT, or REFUSED for a second grid capsule (DEDUCED, log entry 63). -/
def loadCapsule (s : State) (r cap : Nat) (grid : Bool) : State × Nat :=
  match s.ctx r, s.caps.find cap with
  | none, _ => (s, 13)
  | _, none => (s, 10)
  | some x, some g =>
    if g.state = 4 then (s, 9)
    else if g.state = 0 then (s, 10)
    else if grid then
      if x.grid = cap then (s, 0)
      else if x.grid ≠ 0 then (s, 12)
      else if x.cells.isEmpty ∨ !foldFits (foldOf g x.cells.length) then (s, 11)
      else
        let s := giveCells s r x.cells (foldOf g x.cells.length)
        (s.onCtx r fun x => { x with caps := x.caps.add cap, grid := cap, vpes := [], barriers := g.barriers.foldl (fun m b => NMap.put m b.1 ⟨0, 0, BitVec.ofNat 16 b.2⟩) [] }, 0)
    else (s.setCtx r { x with caps := x.caps.add cap }, 0)

/-- Take a library capsule out of a context: BUSY while an activation is in it, REFUSED for the grid capsule (R166). -/
def unloadCapsule (s : State) (r cap : Nat) : State × Nat :=
  match s.ctx r with
  | none => (s, 13)
  | some x =>
    if x.grid = cap then (s, 12)
    else if x.cells.any fun c => (s.cell c).slots.any fun l => l.act.isSome && l.cap == cap then (s, 8)
    else (s.setCtx r { x with caps := x.caps.drop cap }, 0)

/-- The first `n` posted writes of a context perform in the order in which they left; its others are dropped (R102). -/
def landFirst (s : State) (r : Nat) : Nat → State
  | 0 => { s with posted := s.posted.filter fun p => p.ctx != r }
  | n + 1 =>
    match s.posted.findIdx? fun p => p.ctx == r && !isKick p with
    | none => { s with posted := s.posted.filter fun p => p.ctx != r }
    | some i => match takeAt s.posted i with
      | some (p, rest) => landFirst (landWrite { s with posted := rest } p) r n
      | none => s

/-- A hart without the kicks, the running operation, the groups and the refusals of a context, and without its waits for a page (R122). -/
def clearHart (r : Nat) (h : Hart) : Hart :=
  let h := dropEntered r h
  let mine : Bool := (match h.why with | .head => true | _ => false) && (h.fifo.head?).any fun k => k.ctx == r
  let kick : Bool := h.kickStop.any fun k => k.1 == r
  { h with
    fifo := h.fifo.filter fun k => k.ctx != r
    waiting := h.waiting.filter fun k => k.ctx != r
    kerr := h.kerr.del r
    stopped := if mine then none else h.stopped
    lays := if mine then none else h.lays
    mark := h.mark && !mine && !kick
    kickStop := if kick then none else h.kickStop }

/-- The record of a queue that is FREE again: its VERSION counts on (R341). -/
def freedQueue (n : Nat) (q : Queue) : Queue := bumpVersion n { Queue.reset with version := q.version }

/-- Take a context's cells and discard what it holds: arrivals still on their way or held (R440), input buffers, spill rings, slots, barriers, the arrival area, its engine operations and its queues, with a
capsule that one of them was installing; a write still in flight counts for no slot any more (R46); a queue that waits for its save gets NOCTX (R391, R440). -/
def discardContext (s : State) (r : Nat) (x : Context) : State :=
  let s := x.cells.foldl wipeCell s
  let s : State := { s with
    harts := s.harts.map fun e => (e.1, clearHart r e.2)
    arrivals := s.arrivals.filter fun e => e.1 != r
    mcReturns := s.mcReturns.filter fun e => !x.cells.contains e.1
    images := s.images.filter fun e => e.1 != r
    held := s.held.map fun p => if p.ctx = r then { p with counted := false } else p
    caps := s.caps.filter fun e => !(e.2.state == 0 && s.queues.any fun q => q.2.ctx == r && q.2.installing == some e.1)
    net := s.net.filter fun p => !(p.ddev == s.devId.toNat && p.dctx == r)
    ports := s.ports.map fun e => (e.1, { e.2 with ingress := e.2.ingress.filter fun p => !(p.ddev == s.devId.toNat && p.dctx == r) })
    jobs := s.jobs.del (ownJob r)
    queues := s.queues.map fun e => if e.2.ctx = r ∧ e.2.state ≠ 0 then (e.1, freedQueue e.1 e.2) else e }
  let s := match x.saving.bind fun v => v.queue with
    | some q => if (s.queue q).service.isSome then s.setQueue q { s.queue q with result := some (13, 0) } else s
    | none => s
  s.setCtx r { x with cells := [], vpes := [], barriers := [], setN := [], mailbox := [], arrived := [], exchange := [], saving := none, contained := true, fold := ⟨0, 0, 0, 1⟩ }

/-- Kill or destroy a context (R102, R391): its first `n` remote stores perform, the rest is dropped; its state is discarded, and its number is free once
the writes held for it have performed (DEDUCED, log entry 47). -/
def killContext (s : State) (r n : Nat) : State × Bool :=
  match s.ctx r with
  | none => (s, true)
  | some x =>
    let s := landFirst s r n
    let s := discardContext s r ((s.ctx r).getD x)
    if s.held.any fun p => p.ctx == r then (s, false) else ({ s with ctxs := s.ctxs.del r }, true)

/-- `KILL_CONTEXT` (R391): the event's number says how many of the context's remote stores had passed the network interface. While writes are held for it the
host repeats the instruction. -/
def execKillContext (s : State) : Host.Outcome State Fault Refusal :=
  let (t, done) := killContext s s.inp.ctx s.inp.n
  if done then byHost s (t, 0, 0) else if takesHost s then .next t else .next s

/-! ### Other host instructions (R346) -/

/-- Write the handler table of every cell of a context when it is loaded: no slot of it is in use (R173). -/
def bindHandler (s : State) (r ch : Nat) (w : Word) : State × Nat :=
  match s.ctx r with
  | none => (s, 13)
  | some x =>
    let h : Handler := { handlerFrom (bytesOf 8 w.toNat) with bnd := true }
    let known : Bool := (gridCapsule s x).any fun g => (g.handlers.find h.hidx.toNat).isSome
    let still : Bool := x.cells.all fun c => (s.cell c).slots.all fun l => decide (l.status = .free)
    if 32 ≤ ch ∨ known = false ∨ still = false ∨ h.role = 3 then (s, 12)
    else (x.cells.foldl (fun s c => s.setCell c { s.cell c with handlers := (s.cell c).handlers.setIfInBounds ch h }) s, 0)

/-- Whether a queue stands as a host asks for it: then it has been created by an instruction whose answer was lost (R346). -/
def createdSo (q : Queue) (r : Nat) (base : Word) (lsz pri wto : Nat) (priv : Bool) : Bool :=
  q.state != 0 && q.base == base && q.lsz == lsz && q.pri == pri && q.wto == wto && q.priv == priv && q.ctx == r && q.head == 0 && q.tail == 0 && !q.map

/-- Create a queue, FREE before (R337 to R339): a privileged one only for the physical function. Its frame is zero; the frame's address is a free value. A queue
assignment of a locked interface is rejected (R396). -/
def createQueue (s : State) (q r : Nat) (base : Word) (lsz pri wto : Nat) (priv : Bool) : State × Nat :=
  if 4096 ≤ q ∨ lsz < 6 ∨ 20 < lsz ∨ 15 < pri ∨ 2 ^ 16 ≤ wto ∨ (priv ∧ s.inp.fn ≠ 0) then (s, 12)
  else if (s.ctx r).isNone then (s, 13)
  else if createdSo (s.queue q) r base lsz pri wto priv then (s, 0)
  else if configLocked s r then (rejectConfig s r, 12)
  else if (s.queue q).state ≠ 0 then (s, 8)
  else
    let (n, s) := takeFresh s
    (s.setQueue q { Queue.reset with
      base := base, lsz := lsz, state := 1, pri := pri, priv := priv, ctx := r, wto := wto, version := (s.queue q).version + 1, stale := replicas q
      frame := (Config.freeWord n).toNat % 2 ^ 48 }, 0)

/-- Free a queue: BUSY while it is mapped or one of its commands is under way. -/
def destroyQueue (s : State) (q : Nat) : State × Nat :=
  let x := s.queue q
  if x.state = 0 then (s, 0)
  else if configLocked s x.ctx then (rejectConfig s x.ctx, 12)
  else if x.map ∨ x.service.isSome ∨ x.asking then (s, 8)
  else (s.setQueue q (freedQueue q x), 0)

/-- Send the pending vectors of a function that are neither masked nor held by a disabled MSI-X (R364). -/
def sendPending (s : State) (f : Nat) : State :=
  let i := s.iface f
  if i.off then s
  else
    let ready := i.pending.filter fun v => !i.masked.has v
    { s.setIface f { i with pending := i.pending.filter i.masked.has } with msi := s.msi ++ ready.map fun v => (f, v) }

/-- Mask or unmask a vector; an unmasked one that is pending is sent (R364). -/
def maskVector (s : State) (f v : Nat) (m : Bool) : State :=
  let i := s.iface f
  sendPending (s.setIface f { i with masked := if m then i.masked.add v else i.masked.drop v }) f

/-- Firmware writes a page-table entry for the host and starts a shootdown; the instruction is answered once that is complete (R135, R138, R141): at once only where
nothing is written. -/
def writePte (s : State) (a : Nat) (v : Word) : Host.Outcome State Fault Refusal :=
  let t := changeEntry s a v
  if s.fw.waiting.any fun e => e.1 == s.inp.off then .next s
  else if tableAddr a && t != s then .next { t with fw := { t.fw with waiting := t.fw.waiting ++ [(s.inp.off, a)] } }
  else byHost s (s, 12, 0)

/-- Whether a context belongs to the function that asks, or there is none (R336). -/
def grantedTo (s : State) (r : Nat) : Bool := (s.ctx r).all fun x => x.fn == s.inp.fn

/-- The view of virtual PE `v` of a context hosted on cell `c`. -/
def debugView (x : Context) (r c v : Nat) : View := ⟨some r, some c, v / x.fold.p, true, true⟩

/-- Whether an access reaches bytes of this device, and no window and no other device. -/
def inMemory (t : Target) : Bool :=
  match t.home with
  | .window _ => false
  | .remote => false
  | .nowhere => false
  | _ => true

/-- A byte of a region or object of a context, read by firmware; an object of another device, or an engine window, is refused (R336, R411; DESIGN CHOICE, log
entry 88). -/
def debugRead (s : State) (r : Nat) (o : Word) : State × Nat × Nat :=
  match s.ctx r with
  | none => (s, 13, 0)
  | some x =>
    let v := debugView x r (hostCell x s.inp.vpe) s.inp.vpe
    match checkRef s v o 1 0 0 with
    | .error _ => (s, 1, 0)
    | .ok t =>
      if !inMemory t then (s, 12, 0)
      else match locate s v t 1 false with
      | .error _ => (s, 1, 0)
      | .ok l => (s, 0, numOfBytes (s.bytesAt l))

/-- A byte of a named region or object written by firmware while cell `c` of the context is stopped (R411). -/
def debugWrite (s : State) (r c : Nat) (o : Word) (b : Byte) : State × Nat :=
  match s.ctx r with
  | none => (s, 13)
  | some x =>
    let v := debugView x r c s.inp.vpe
    let stopped : Bool := match (s.cell c).stop with | .stopped _ => true | _ => false
    if stopped = false ∨ (s.cell c).ctx ≠ some r then (s, 8)
    else match checkRef s v o 1 2 0 with
      | .error _ => (s, 1)
      | .ok t =>
        if !inMemory t then (s, 12)
        else match locate s v t 1 true with
        | .error _ => (s, 1)
        | .ok l => (writeAt s l [b] false false, 0)

/-- What a debugger reads of a capsule that its context has loaded (R336): view 0 word `i` of the Merner copy, 1 byte `i` of the manifest, 2 the native byte range of
record `i`, its first byte and the one behind it, 3 value `i % 2^16` live at park point `i / 2^16`: its record and its place (DESIGN CHOICE, log entry 88). -/
def readCode (s : State) (r cap view i : Nat) : Nat × Nat :=
  match s.ctx r, s.caps.find cap with
  | some x, some b =>
    if !x.caps.has cap then (12, 0)
    else match view with
      | 0 => (0, (b.list.getD i 0).toNat)
      | 1 => (0, (b.manifest.getD i 0).toNat)
      | 2 => match b.body.pos.find? fun e => e.1 == i with
        | some e => (0, e.2.1 + 2 ^ 32 * e.2.2)
        | none => (1, 0)
      | 3 => match (b.body.resume.getD (i / 65536) [])[i % 65536]? with
        | some (rec, .scalar n) => (0, rec + 2 ^ 32 * n)
        | some (rec, .vector n) => (0, rec + 2 ^ 32 * (n + 2 ^ 12))
        | some (rec, .frame off) => (0, rec + 2 ^ 32 * (off + 2 ^ 13))
        | none => (1, 0)
      | _ => (12, 0)
  | none, _ => (13, 0)
  | _, none => (10, 0)

/-- What a debugger reads of the architectural state of a context (R336): of slot `k` of its cell `c`, view 0 register x[i], 1 word `i % 8` of vector register
`i / 8`, 2 CSR `i`, 3 word `i % 4` of codebook `i / 4`, 4 MITER operand `i`, 5 word `i % 8` of entry `i / 8 % 8` of queue register `i / 64`; and view 16 + n, word
`i` of section n of the image that a save would write (DESIGN CHOICE, log entry 88). -/
def readState (s : State) (r c k view i : Nat) : Nat × Nat :=
  match s.ctx r with
  | none => (13, 0)
  | some x =>
    let l := s.slot c k
    if 16 ≤ view then
      match (sectionList s r x none)[view - 16]? with
      | some (_, _, some b) => (0, fieldAt b (8 * i) 8)
      | _ => (1, 0)
    else if !x.cells.contains c ∨ 4 ≤ k then (12, 0)
    else match view with
      | 0 => (0, (if i = 0 then 0 else l.x[i]?.getD 0).toNat)
      | 1 => (0, bits (l.v[i / 8]?.getD 0) (64 * (i % 8)) 64)
      | 2 => match cellCsr { s with cur := .slot c k } c i with
        | some w => (0, w.toNat)
        | none => (1, 0)
      | 3 => (0, bits (l.cb[i / 4]?.getD 0) (64 * (i % 4)) 64)
      | 4 => (0, (l.k[i]?.getD 0).toNat)
      | 5 => match ((l.q[i / 64]?.getD QReg.empty).ents)[i / 8 % 8]? with
        | some e => (0, bits e.val (64 * (i % 8)) 64)
        | none => (1, 0)
      | _ => (12, 0)

/-- What a host instruction without a row of its own does: the state, its status and its value. -/
def hostOp (s : State) : HostOp → State × Nat × Nat
  | .loadCapsule r cap grid => let (t, c) := loadCapsule s r cap grid; (t, c, 0)
  | .unloadCapsule r cap => let (t, c) := unloadCapsule s r cap; (t, c, 0)
  | .destroyContext r => let (t, done) := killContext s r s.inp.n; (t, if done then 0 else 8, 0)
  | .writeLayout r l v => if (s.ctx r).isNone ∨ 64 ≤ l then (s, 13, 0) else (s.onCtx r fun x => { x with lays := x.lays.put l v }, 0, 0)
  | .setBarrier r b n =>
    match s.ctx r with
    | none => (s, 13, 0)
    | some x =>
      if x.cells.isEmpty ∧ x.unloaded ∧ b < 256 ∧ 1 ≤ n ∧ n < 2 ^ 16 then
        let y : Barrier := { (x.barriers.getD b ⟨0, 0, 0⟩) with n := BitVec.ofNat 16 n }
        (s.setCtx r { x with barriers := x.barriers.put b y, setN := x.setN.put b n }, 0, 0)
      else (s, 12, 0)
  | .createQueue q r base lsz pri wto priv => let (t, c) := createQueue s q r base lsz pri wto priv; (t, c, 0)
  | .destroyQueue q => let (t, c) := destroyQueue s q; (t, c, 0)
  | .stopQueue q => (s.setQueue q (halted q (s.queue q)), 0, 0)
  | .configMsix f n => if f < 64 ∧ 1 ≤ n ∧ n ≤ 2048 then (s.setIface f { s.iface f with msix := n }, 0, 0) else (s, 12, 0)
  | .maskVector f v m => (maskVector s f v m, 0, 0)
  | .setErrorLog r o v =>
    if s.inp.fn ≠ 0 then (s, 12, 0)
    else if (s.ctx r).isNone then (s, 13, 0)
    else ({ s with errRing := some (r, o, v) }, 0, 0)
  | .writePte _ _ => (s, 0, 0)
  | .stopCells r =>
    match s.ctx r with
    | none => (s, 13, 0)
    | some x => (x.cells.foldl (fun s c => requestStop s c 0) s, 0, 0)
  | .readByte r o => if grantedTo s r then debugRead s r o else (s, 12, 0)
  | .writeByte r c o b => if grantedTo s r then (let (t, n) := debugWrite s r c o b; (t, n, 0)) else (s, 12, 0)
  | .bindHandler r ch w => let (t, c) := bindHandler s r ch w; (t, c, 0)
  | .enableMsix f on =>
    let s := s.setIface f { s.iface f with off := !on }
    (if on then sendPending s f else s, 0, 0)
  | .readCode r cap view i => (s, if grantedTo s r then readCode s r cap view i else (12, 0))
  | .readState r c k view i => (s, if grantedTo s r then readState s r c k view i else (12, 0))
  | .readMsix f => (s, if f < 64 then (0, (s.iface f).msix - 1) else (12, 0))
  | .writeFlash _ _ => (s, 12, 0)

/-- In recovery the physical function rewrites a slot of boot flash, A (0) or B (1), and no lead takes part in it (R393). The attempts count from zero for
the new image, so that the next reset boots it (DESIGN CHOICE, log entry 102). -/
def writeFlash (s : State) (slot : Nat) (image : Config.BootImage) : State :=
  { s with sec := { s.sec with flash := s.sec.flash.put slot image, attempts := 0, other := false } }

/-- `HOST_INSTRUCTION` (R346): the lead carries out and answers a sequenced instruction once; an instruction already answered counts as done. -/
def execHostInstruction (s : State) : Host.Outcome State Fault Refusal :=
  match s.inp.op with
  | .writeFlash slot image =>
    if s.sec.recovery ∧ s.inp.fn = 0 ∧ slot < 2 ∧ !s.fw.answered.has s.inp.off then .next (answerHost (writeFlash s slot image) 0 0) else byHost s (s, 12, 0)
  | .writePte a v => if takesHost s then writePte s a v else .next s
  | op => byHost s (hostOp s op)

/-- `AMASK_CLEAR` (R174, R183): the channel's AMASK bit is cleared, and the head message is kept (the event's flag) or discarded. -/
def execAmaskClear (s : State) : Host.Outcome State Fault Refusal :=
  let r := s.inp.ctx
  let v := s.inp.vpe
  let ch := s.inp.chan
  let p := ((s.ctx r).map fun x => x.vpe v).getD Vpe.reset
  if 32 ≤ ch ∨ !bit p.amask ch then byHost s (s, 0, 0)
  else
    let t := s.onVpe r v fun p => { p with amask := p.amask &&& ~~~(1#32 <<< ch), ages := p.ages.put ch 0 }
    match s.inp.flag, p.queues.getD ch [] with
    | false, m :: rest => byHost s (freeEntries (t.onVpe r v fun p => { p with queues := p.queues.put ch rest }) r v [m], 0, 0)
    | _, _ => byHost s (t, 0, 0)

/-- Whether a C.RESTORE in service, or a pitch under way, reads the image of an object (R333). -/
def imageRead (s : State) (r slot : Nat) : Bool :=
  (s.jobs.any fun j => j.2.phase == 6 && j.2.ctx == r && bits j.2.image 52 12 == slot)
    || s.queues.any fun e => e.2.ctx == r && match e.2.service with
      | some (.cRestore ca _ _) => bits (e.2.reg ca) 52 12 == slot
      | some (.cPitch ca _ _) => s.jobs.any fun j => j.2.ctx == r && j.2.oref == e.2.reg ca && bits j.2.image 52 12 == slot
      | _ => false

/-- `RELEASE_IMAGE` (R333): the held image of an object is released; BUSY while a restore or a pitch reads it. -/
def execReleaseImage (s : State) : Host.Outcome State Fault Refusal :=
  let r := s.inp.ctx
  let slot := bits s.inp.word 52 12
  if imageRead s r slot then byHost s (s, 8, 0)
  else byHost s ({ s with images := s.images.filter fun e => !(e.1 == r && bits e.2.1 52 12 == slot) }, 0, 0)

/-! ### Debug and rank registers that firmware writes on host instruction -/

/-- A word without its reserved bits: those of the mask. -/
def keepBits (w mask : Word) : Word := w &&& mask

/-- `WRITE_WATCH_FILTER` (R157, Table 6.12). -/
def execWriteWatchFilter (s : State) : Host.Outcome State Fault Refusal :=
  let w (i : Nat) : Word := s.inp.words.getD i 0
  if 16 ≤ s.inp.idx then byHost s (s, 12, 0)
  else
    let f : List Word := [keepBits (w 0) 0xE003FFFFF0000000, keepBits (w 1) 0x000FFFFFFFFFFFFF, keepBits (w 2) 0x000FFFFFFFFFFFFF, 0]
    byHost s ({ s with filters := s.filters.put s.inp.idx f }, 0, 0)

/-- The bits of WCMPn that are not reserved (Table 6.13). -/
def wcmpMask (n : Nat) : Word :=
  match n with
  | 0 => 0xE03FFFF00003FFFF | 1 => 0xE000000000001FFF | 2 => 0x800000000000007F | _ => 0xE000000000000007

/-- `WRITE_WATCH_COMPARATOR` (R159, Table 6.13). -/
def execWriteWatchComparator (s : State) : Host.Outcome State Fault Refusal :=
  let c := s.inp.cell
  if 4 ≤ s.inp.idx ∨ Config.cells ≤ c then byHost s (s, 12, 0)
  else byHost s (s.setCell c { s.cell c with wcmp := (s.cell c).wcmp.setIfInBounds s.inp.idx (keepBits s.inp.word (wcmpMask s.inp.idx)) }, 0, 0)

/-- `WRITE_SLOT_TABLE` (R309, Table 13.4): it takes effect at the next frame start, and so is kept with the frame of its write. -/
def execWriteSlotTable (s : State) : Host.Outcome State Fault Refusal :=
  let g := s.inp.die * Config.ranksPerDie + s.inp.rank
  let keep : BitVec 256 := BitVec.ofNat 256 (fields ((List.range 16).map fun _ => (16, 0x83FF)))
  if 4 ≤ s.inp.die ∨ Config.ranksPerDie ≤ s.inp.rank then byHost s (s, 12, 0)
  else byHost s ({ s with slotNext := s.slotNext.put g (s.clkOf s.inp.die / 4096, s.inp.bits &&& keep) }, 0, 0)

/-- `WRITE_AGEL` (R177, Table 7.5): a value below 64 is taken as 64 where the limit is used. -/
def execWriteAgel (s : State) : Host.Outcome State Fault Refusal :=
  let c := s.inp.cell
  if Config.cells ≤ c then byHost s (s, 12, 0) else byHost s (s.setCell c { s.cell c with agel := s.inp.word.setWidth 16 }, 0, 0)

/-- `WRITE_DBGCTL` (R408, Table 18.1): used from the next activation start on. -/
def execWriteDbgctl (s : State) : Host.Outcome State Fault Refusal :=
  byHost s (s.onCtx s.inp.ctx fun x => { x with dbgctl := keepBits s.inp.word 0xFFFFFF000000FF83 }, 0, 0)

/-! ### The security core (R44, R171) -/

/-- `GRANT_TABLE_WRITE` (R171): the security core grants an endpoint (device, context, virtual PE) under an entry, or revokes it (DEDUCED, log entry 38). A grant of a
locked interface is rejected (R396), but for one that comes over the attested SPDM session, as after a hot reset, where the host grants endpoints again behind the
lock (R398; log entry 48). -/
def execGrantTableWrite (s : State) : Host.Outcome State Fault Refusal :=
  if 256 ≤ s.inp.idx then .next s
  else if configLocked s s.inp.ctx && !(s.sec.spdm && s.sec.attested) then .next (rejectConfig s s.inp.ctx)
  else .next (s.onCtx s.inp.ctx fun x =>
    { x with grants := match s.inp.grant with | some g => x.grants.put s.inp.idx g | none => x.grants.del s.inp.idx })

/-- `CXL_KEY_INSTALL` (R44): a new key of a context's key set is generated and installed, or retired (the event's flag) once no descriptor names it. -/
def execCxlKeyInstall (s : State) : Host.Outcome State Fault Refusal :=
  let k := s.inp.idx
  if 256 ≤ k then .next s
  else if s.inp.flag then
    .next (s.onCtx s.inp.ctx fun x =>
      if x.objs.any fun e => bit e.2.w0 63 && bits e.2.w0 57 3 == 3 && bits e.2.w2 0 8 == k then x else { x with keys := x.keys.del k })
  else
    let (n, s) := takeFresh s
    .next (s.onCtx s.inp.ctx fun x => { x with keys := x.keys.put k n })

/-! ### Accesses of the host (R45, R396, R398) -/

/-- Whether a function may reach the objects of a context now: its interface is not locked, or runs over IDE, and the context is not detached (Table 17.2) (DEDUCED, log entry 48). -/
def hostMayAccess (s : State) (f : Nat) (x : Context) : Bool :=
  let t := (s.iface f).tdisp
  x.fn == f && !x.detached && !s.sec.recovery && (t == 0 || (t == 2 && s.sec.ide.has f))

/-- An access of the host to an engine window: a kick, or a load of STAT or HINFO (R105, R107). -/
def hostWindow (s : State) (a : Agent) (r d : Nat) (t : Target) (acc : Nat) : ExtAccess → State
  | .write b =>
    if b.length = 8 ∧ t.off % 64 = 0 then
      answer { s with posted := s.posted ++ [⟨a, r, 0, 2, Desc.zero, .kick d (t.off / 64) (word (numOfBytes b)), true, 0, acc, false, false, 0, 0, false, false, []⟩] } 0 []
    else answer s 1 []
  | .read n => if n = 8 ∧ (t.off % 64 = 8 ∨ t.off % 64 = 16) then answer s 0 (bytesOf 8 (windowRead s r d t.off).toNat) else answer s 1 []
  | .atomic _ _ _ _ => answer s 1 []

/-- `HOST_MEMORY_REQUEST` (R45): a read, write or atomic of the host through an object of a context; it waits for the host's own earlier writes that it must not
pass, which the event's flag says when it carries Relaxed Ordering (Table 3.6) (DEDUCED, log entry 64). An interface in ERROR answers Completer Abort (5; Table 17.2). -/
def execHostMemoryRequest (s : State) : Host.Outcome State Fault Refusal :=
  let r := s.inp.ctx
  let o := s.inp.word
  let a : Agent := .host s.inp.fn
  let (n, rts) := extNeed s.inp.access
  match s.ctx r with
  | none => .next (answer s 1 [])
  | some x =>
    if (s.iface s.inp.fn).tdisp = 3 then .next (answer s 5 [])
    else if !hostMayAccess s s.inp.fn x ∨ bits o 52 12 < 32 then .next (answer s 1 [])
    else
      match checkRef s ⟨some r, none, 0, false, true⟩ o n rts (extAcc true s.inp.access) with
      | .error _ => .next (answer s 1 [])
      | .ok t =>
        match t.home with
        | .window d => if extWaits s a t n s.inp.flag then .next s else .next (hostWindow s a r d t (extAcc true s.inp.access) s.inp.access)
        | .remote => .next (answer s 1 [])
        | _ => if extWaits s a t n s.inp.flag then .next s else if extAtomicOk t s.inp.access then .next (extPerform s a r t o s.inp.access true) else .next (answer s 1 [])

end Sys2Proof.Machine
end

