-- ==== Sys2Proof/Machine/Debug.lean ====
section
/-! DEFINITION. Debug stops and samples (R409 to R412). -/

namespace Sys2Proof.Machine

/-- `DEBUG_STOP_REQUEST` (R409): a host instruction that names a cell of a context. -/
def execDebugStopRequest (s : State) : Host.Outcome State Fault Refusal :=
  let c := s.inp.cell
  if (s.cell c).ctx.isNone then byHost s (s, 12, 0) else byHost s (requestStop s c 0, 0, 0)

/-- The source of a stop as Table 18.3 codes it: an EBRK's source carries its k above the code. -/
def stopCode (src : Nat) : Nat := src % 4

/-- The trace record of a landed stop (Tables 18.2, 18.3): it names the activation that asked for the stop by a hit or an EBRK (R407), and for one that the host asked
for the cell and its context alone (DEDUCED, log entry 50). -/
def stopRecord (s : State) (c r src : Nat) (x : Context) : List Word :=
  match (s.cell c).stopBy with
  | [w0, w1, w2, w3, w5, w6, w7] => [w0, w1, w2, w3 + word (stopCode src * 2 ^ 32), s.time, w5, w6, w7]
  | _ => [word (fields [(24, 0), (3, 0), (5, 0), (10, r), (2, 0), (12, c), (8, 7)]), 0, word (fields [(32, 0), (9, 0), (23, x.grid)]),
    word (fields [(32, 0), (32, stopCode src)]), s.time, 0, 0, 0]

/-- Whether a slot runs no activation: it is free, parked, or serves a stream between its opening and its closing. -/
def runsNone (l : Slot) : Bool :=
  match l.status with
  | .running => false
  | _ => true

/-- `STOP_LANDS` (R409, R410): no slot of the cell runs an activation; the record is written whatever TMASK holds, and signalled on the report vector.
The cell keeps the source, with an EBRK's k (R228). -/
def execStopLands (s : State) : Host.Outcome State Fault Refusal :=
  let c := s.inp.cell
  match (s.cell c).stop, (s.cell c).ctx with
  | .stopping src, some r =>
    match s.ctx r with
    | none => .next s
    | some x =>
      if (s.cell c).slots.all runsNone then
        let s := traceWrite (s.setCell c { s.cell c with stop := .stopped src, stopBy := [] }) x (stopRecord s c r src x)
        .next (signal s x.fn x.reportVec)
      else .next s
  | _, _ => .next s

/-- `DEBUG_RESUME` (R411): the cell returns to normal selection, and its retried slots resume. -/
def execDebugResume (s : State) : Host.Outcome State Fault Refusal :=
  let c := s.inp.cell
  match (s.cell c).stop with
  | .stopped _ => byHost s (resumeCell (s.setCell c { s.cell c with stop := .no }) c, 0, 0)
  | _ => byHost s (s, 12, 0)

/-- `DEBUG_STEP` (R411): the cell lets one activation start, or one retried slot go on, and stops again when it ends. -/
def execDebugStep (s : State) : Host.Outcome State Fault Refusal :=
  let c := s.inp.cell
  match (s.cell c).stop with
  | .stopped _ => byHost s (resumeCell (s.setCell c { s.cell c with stop := .stepping }) c, 0, 0)
  | _ => byHost s (s, 12, 0)

/-- The sample period in us that an activation started under (Table 18.1). -/
def samplePeriod (a : Activation) : Nat := bits a.dbg 40 24

/-- `TRACE_SAMPLE` (R412): a SAMPLE record for each slot of the cell that runs an activation with a sample period, once that period has passed since the slot's last. -/
def execTraceSample (s : State) : Host.Outcome State Fault Refusal :=
  let c := s.inp.cell
  .next ((List.range 4).foldl (fun s k =>
    let l := s.slot c k
    match l.status, l.act with
    | .running, some a =>
      if samplePeriod a = 0 ∨ s.time.toNat < (s.cell c).sampled.getD k 0 + 1000 * samplePeriod a then s
      else traceRecord (s.setCell c { s.cell c with sampled := (s.cell c).sampled.put k s.time.toNat }) c k 9 0 (placeOf s c l) 0
    | _, _ => s) s)

end Sys2Proof.Machine
end

