-- ==== Sys2Proof/Machine/Device.lean ====
section
/-! DEFINITION. Reset, boot, measurement and trust (R392 to R399), power (R401, R402), errors (R403 to R405), events of a die firmware core (R229), and
registers without a row of their own (R3). -/

namespace Sys2Proof.Machine

/-! ### Reset and boot (R392 to R394, R399) -/

/-- Whether a key lies in host memory (R135), which a device reset leaves alone. -/
def hostKey (k : Nat) : Bool := decide (2 ^ 47 ≤ k ∧ k < 2 ^ 48)

/-- Whether a key lies in the CXL tier (R135), which is not scrubbed: its bytes stay under keys that are gone (R58). -/
def cxlKey (k : Nat) : Bool := decide (0x100000000000 ≤ k ∧ k < 0x140000000000)

/-- `DEVICE_WARM_RESET` (R399, R58): every context, key, queue and mapping is discarded, memory is scrubbed; host memory, the CXL tier, boot flash, the retained storage and
fuses of the security core, the device's identity and route tables, and what the host has been sent stay (DEDUCED, log entries 57 and 58). Kseal is new. -/
def execDeviceWarmReset (s : State) : Host.Outcome State Fault Refusal :=
  let z := State.reset
  .next { z with
    sched := s.sched
    inp := s.inp
    fresh := s.fresh + 1
    serial := s.serial
    devId := s.devId
    mem := s.mem.filter fun e => hostKey e.1 || cxlKey e.1
    xts := s.xts
    poison := s.poison.filter fun g => hostKey (16 * g) || cxlKey (16 * g)
    routes := s.routes
    ports := s.ports.map fun p => (p.1, { p.2 with fails := 0, egress := [], ingress := [] })
    msi := s.msi
    reports := s.reports
    answers := s.answers
    sec := { z.sec with slotB := s.sec.slotB, attempts := s.sec.attempts, other := s.sec.other, floor := s.sec.floor, kseal := s.fresh, flash := s.sec.flash }
    fw := { z.fw with gen := s.fw.gen, step := s.fw.step, ibh := s.fw.ibh, micro := s.fw.micro } }

/-- Extend measurement `n` with a digest (R392). -/
def extend (m : NMap Vec) (n : Nat) (d : Vec) : NMap Vec :=
  m.put n (Config.sha512 (bytesOf 64 (m.getD n 0).toNat ++ bytesOf 64 d.toNat))

/-- The image in a slot of boot flash: what the physical function has written there, or the image delivered (R392; log entry 102). -/
def imageIn (x : Security) (slot : Nat) : Config.BootImage := (x.flash.find slot).getD (Config.flashImage slot)

/-- The slot that retained storage names as current: A (0) or B (1). -/
def currentSlot (x : Security) : Nat := b2n x.slotB

/-- The digest of an image that its signature covers: all of it but the signature (DESIGN CHOICE, log entry 102). -/
def imageDigest (m : Config.BootImage) : Vec :=
  Config.sha512 (m.core ++ m.dfc ++ m.micro ++ bytesOf 32 m.ibh.toNat ++ m.config ++ bytesOf 8 m.version)

/-- The digest of a boot-path event: the slots that it names (DESIGN CHOICE, log entry 102). -/
def slotEvent (slots : List Nat) : Vec := Config.sha512 (slots.map (BitVec.ofNat 8))

/-- The choice of a slot at boot (R392 step 1, R393): after three failures the other slot, with a fallback event in MEAS1 that names both, or recovery when that one
has failed three times too. -/
def chooseSlot (x : Security) : Security :=
  if x.attempts < 3 then x
  else if x.other then { x with recovery := true }
  else { x with slotB := !x.slotB, attempts := 0, other := true, meas := extend x.meas 1 (slotEvent [currentSlot x, 1 - currentSlot x]) }

/-- What each measurement register is extended with at a boot (Table 17.1): of what has no digest of its own, the SHA-512 of its bytes (DESIGN CHOICE, log
entry 102). -/
def measured (x : Security) (m : Config.BootImage) : List Vec :=
  [Config.sha512 m.core, slotEvent [currentSlot x], Config.sha512 m.dfc, Config.sha512 m.micro, Config.sha512 (bytesOf 32 m.ibh.toNat), Config.sha512 m.config,
    Config.sha512 (bytesOf 8 x.floor ++ Config.fuses 0), Config.sha512 (Config.fuses 1)]

/-- The image of the current slot passes its checks: the signature over its digest, and its security version (R392 steps 2 and 3, R394). -/
def imageGood (x : Security) (m : Config.BootImage) : Bool := Config.bootVerify (imageDigest m) m.sig && decide (x.floor ≤ m.version)

/-- A good image is measured and loaded (R392 steps 4 and 5). -/
def loadImage (s : State) (x : Security) (m : Config.BootImage) : State :=
  { s with
    sec := { x with meas := (measured x m).zipIdx.foldl (fun y e => extend y e.2 e.1) x.meas }
    fw := { s.fw with ibh := m.ibh, micro := m.micro }
    dfcs := (List.range Config.dfcs).map fun i => (i, { Dfc.reset with code := m.dfc }) }

/-- A bad image loads nothing: no die firmware core lives. -/
def failBoot (s : State) (x : Security) : State :=
  { s with sec := x, dfcs := (List.range Config.dfcs).map fun i => (i, { Dfc.reset with alive := false }), fw := { s.fw with lead := none } }

/-- `BOOT` (R392, R393): the security core chooses a slot, counts the attempt, and checks, measures and loads the image in boot flash. It runs once after a reset. -/
def execBoot (s : State) : Host.Outcome State Fault Refusal :=
  if s.sec.recovery ∨ !s.sec.meas.isEmpty then .next s
  else
    let x := chooseSlot s.sec
    if x.recovery then .next { s with sec := x }
    else
      let x := { x with attempts := x.attempts + 1 }
      let m := imageIn x (currentSlot x)
      .next (if imageGood x m then loadImage s x m else failBoot s x)

/-- `FIRMWARE_READY` (R393): the lead reports that firmware is ready, and the attempt counter clears. -/
def execFirmwareReady (s : State) : Host.Outcome State Fault Refusal :=
  if s.fw.lead.isNone then .next s else .next { s with sec := { s.sec with attempts := 0, other := false } }

/-- `RAISE_SECURITY_FLOOR` (R394): a fuse write through an authenticated SPDM session; the floor never falls. -/
def execRaiseSecurityFloor (s : State) : Host.Outcome State Fault Refusal :=
  if s.sec.spdm then .next { s with sec := { s.sec with floor := max s.sec.floor s.inp.n } } else .next s

/-- The security core answers an SPDM request; in a session its answer is sealed under the session's secret (R395; log entry 103). -/
def spdmReply (s : State) (b : List Byte) : State :=
  match s.sec.spdm, s.sec.secret with
  | true, some k =>
    let (n, s) := takeFresh s
    answer s 0 (Config.sealTraffic k n b)
  | _, _ => answer s 0 b

/-- A measurement block: MEAS0 to MEAS7 at indices 1 to 8 (R395). -/
def measurementBlock (s : State) (n : Nat) : List Byte := bytesOf 64 (s.sec.meas.getD (n - 1) 0).toNat

/-- A measurement answered inside a session attests the device. -/
def attest (s : State) : State := { s with sec := { s.sec with attested := s.sec.attested || s.sec.spdm } }

/-- `SPDM_REQUEST` (R395): the certificate chain of slot 0; a key exchange, answered with the device's share and a signature over both shares; a session, which begins
after an exchange, or its end; a measurement block (index 1 to 8), plain or signed with the identity key over the requester's nonce; or an IDE key delivered inside a
session. -/
def execSpdmRequest (s : State) : Host.Outcome State Fault Refusal :=
  match s.inp.spdm with
  | .certificate => .next (spdmReply s Config.certificates)
  | .keyExchange share =>
    let (n, s) := takeFresh s
    let own := Config.ecdheShare n
    .next (spdmReply { s with sec := { s.sec with secret := some (Config.ecdheSecret n share) } } (own ++ Config.identitySign (Config.sha512 (share ++ own))))
  | .session => if s.sec.secret.isSome then .next { s with sec := { s.sec with spdm := true } } else .next (answer s 1 [])
  | .endSession => .next { s with sec := { s.sec with spdm := false, secret := none } }
  | .measure n => if n < 1 ∨ 8 < n then .next (answer s 1 []) else .next (attest (spdmReply s (measurementBlock s n)))
  | .signed n nonce =>
    if n < 1 ∨ 8 < n then .next (answer s 1 [])
    else
      let b := measurementBlock s n
      .next (attest (spdmReply s (b ++ Config.identitySign (Config.sha512 (nonce ++ b)))))
  | .ideKey f => if s.sec.spdm ∧ f < 64 then .next { s with sec := { s.sec with ide := s.sec.ide.add f } } else .next s

/-! ### The host interface (R396 to R398) -/

/-- In recovery the host interface exposes only the physical function (R393). -/
def hidden (s : State) (f : Nat) : Bool := s.sec.recovery && f != 0

/-- Set the state of an interface. -/
def setTdisp (s : State) (f t : Nat) : State := s.setIface f { s.iface f with tdisp := t }

/-- `LOCK_INTERFACE` (R397). -/
def execLockInterface (s : State) : Host.Outcome State Fault Refusal :=
  if (s.iface s.inp.fn).tdisp = 0 ∧ !hidden s s.inp.fn then .next (setTdisp s s.inp.fn 1) else .next s

/-- `START_INTERFACE` (Table 17.2). -/
def execStartInterface (s : State) : Host.Outcome State Fault Refusal :=
  if (s.iface s.inp.fn).tdisp = 1 ∧ !hidden s s.inp.fn then .next (setTdisp s s.inp.fn 2) else .next s

/-- `STOP_INTERFACE` (R397): from every state to CONFIG_UNLOCKED. -/
def execStopInterface (s : State) : Host.Outcome State Fault Refusal :=
  if hidden s s.inp.fn then .next s else .next (setTdisp s s.inp.fn 0)

/-- `CONFIG_WRITE` (R397): accepted while unlocked; else rejected, and the interface is in ERROR. -/
def execConfigWrite (s : State) : Host.Outcome State Fault Refusal :=
  let f := s.inp.fn
  if hidden s f then .next s
  else if (s.iface f).tdisp = 0 then .next (s.setIface f { s.iface f with regs := (s.iface f).regs.put s.inp.reg s.inp.word })
  else .next (setTdisp s f 3)

/-- `IDE_INTEGRITY_FAILURE` (Table 17.2). -/
def execIdeIntegrityFailure (s : State) : Host.Outcome State Fault Refusal :=
  if (s.iface s.inp.fn).tdisp = 0 then .next s else .next (setTdisp s s.inp.fn 3)

/-- The effect of a hot reset on one context (R398): a protected one is detached and its cells and queues are stopped, and where it keeps its cells the phases HALT,
DRAIN and SWEEP begin; another is contained with a record. -/
def hotResetContext (s : State) (r : Nat) (x : Context) : State :=
  let t := (s.iface x.fn).tdisp
  if t = 1 ∨ t = 2 then
    let x := { x with detached := true }
    resetHalt (stopContext (s.setCtx r x) r x) r x
  else errorRecord (contain s r) 4 1 (some r) 4 1 0 0

/-- `PCIE_HOT_RESET` (R398) (DEDUCED, log entry 61). -/
def execPcieHotReset (s : State) : Host.Outcome State Fault Refusal :=
  let t := s.ctxs.foldl (fun s e => hotResetContext s e.1 e.2) s
  .next { t with
    ifaces := t.ifaces.map fun e => (e.1, { e.2 with tdisp := 0 })
    sec := { t.sec with spdm := false, attested := false, ide := [], secret := none } }

/-! ### Power (R401, R402) -/

/-- The cells of a rank. -/
def rankCells (g : Nat) : List Nat := (List.range Config.cellsPerRank).map fun i => Config.cellsPerRank * g + i

/-- `SET_PERFORMANCE_STATE` (R401): it loses no state; the device leaves a trip state so (R402). -/
def execSetPerformanceState (s : State) : Host.Outcome State Fault Refusal :=
  let d := s.inp.die
  if 4 ≤ d ∨ 7 < s.inp.n then .next s
  else .next { s with power := { s.power with ps := s.power.ps.put d s.inp.n, tripped := s.power.tripped.drop d } }

/-- Put a rank into IS1 to IS3, or begin its exit to IS0 (R401); in IS3 its scratchpads and accumulator regions are lost (R58). -/
def enterIdle (s : State) (g i : Nat) : State :=
  if i = 0 then
    if s.power.idle.getD g 0 = 0 then s else { s with power := { s.power with exiting := s.power.exiting.add g } }
  else
    let s := if i = 3 then (rankCells g).foldl clearLocal s else s
    { s with power := { s.power with idle := s.power.idle.put g i, exiting := s.power.exiting.drop g } }

/-- `SET_IDLE_STATE` (R401): IS3 for a rank that holds context state is refused with an error record. -/
def execSetIdleState (s : State) : Host.Outcome State Fault Refusal :=
  let g := s.inp.die * Config.ranksPerDie + s.inp.rank
  if 4 ≤ s.inp.die ∨ Config.ranksPerDie ≤ s.inp.rank ∨ 3 < s.inp.n then .next s
  else if s.inp.n = 3 ∧ (rankCells g).any (cellTaken s) then .next (errorRecord s 11 2 none s.inp.die 1 g 0)
  else .next (enterIdle { s with power := { s.power with tripped := s.power.tripped.drop s.inp.die } } g s.inp.n)

/-- `IDLE_STATE_EXIT` (R401): a rank on its way back is in IS0. -/
def execIdleStateExit (s : State) : Host.Outcome State Fault Refusal :=
  let g := s.inp.die * Config.ranksPerDie + s.inp.rank
  if s.power.exiting.has g then
    .next { s with power := { s.power with idle := s.power.idle.put g 0, exiting := s.power.exiting.drop g } }
  else .next s

/-- `SET_TRIP_STATE` (R402): IS3 cannot be named, and the command is refused. -/
def execSetTripState (s : State) : Host.Outcome State Fault Refusal :=
  if 4 ≤ s.inp.die ∨ 7 < s.inp.n ∨ 2 < s.inp.idx then .next s
  else .next { s with power := { s.power with trip := s.power.trip.put s.inp.die (s.inp.n, s.inp.idx) } }

/-- `THERMAL_TRIP` (R402): the die enters its trip state, PS7 with IS1 where the host has set none, and the device writes an error record. -/
def execThermalTrip (s : State) : Host.Outcome State Fault Refusal :=
  let d := s.inp.die
  if 4 ≤ d then .next s
  else
    let (ps, i) := s.power.trip.getD d (7, 1)
    let ranks := (List.range Config.ranksPerDie).map fun k => Config.ranksPerDie * d + k
    let p := { s.power with
      ps := s.power.ps.put d ps, idle := ranks.foldl (fun m g => NMap.put m g i) s.power.idle
      exiting := s.power.exiting.filter fun g => g / Config.ranksPerDie != d, tripped := s.power.tripped.add d }
    .next (errorRecord { s with power := p } 7 2 none d 1 s.inp.idx 0)

/-! ### Errors (R403 to R405) -/

/-- The TYPE of an error in memory, by its place (Table 17.4). -/
def placeType (k : Nat) : Nat :=
  if 2 ^ 48 ≤ k then 1 else if k < 0xC000000000 then 2 else if cxlKey k then 5 else 4

/-- The effect of a severity on what a record names (R405). -/
def severityEffect (s : State) (sev : Nat) (r : Option Nat) : State :=
  match sev, r with
  | 1, some r => contain s r
  | 3, _ => { s with
      stoppedAll := true
      queues := s.queues.map fun e => if e.2.state = 1 ∨ e.2.state = 2 then (e.1, bumpVersion e.1 { leaveWait e.2 with state := 3 }) else e }
  | _, _ => s

/-- `UNCORRECTABLE_ERROR` (R403 to R405): the granule of the address is poisoned and a record written, of the event's severity (CONTAINED, DEVICE or STOPPED). A record
that names a context locates the error by the oref that the event gives, another by the address (Table 17.4). -/
def execUncorrectableError (s : State) : Host.Outcome State Fault Refusal :=
  let k := s.inp.off
  let sev := if s.inp.n = 0 ∨ 3 < s.inp.n then 2 else s.inp.n
  let r := s.inp.sel
  let s := severityEffect { s with poison := s.poison.add (granule k) } sev r
  .next (errorRecord s (placeType k) sev r s.inp.die 1 1 (if r.isSome then s.inp.word.toNat else k))

/-- `CORRECTED_ERROR_REPORT` (R403): a unit's count of errors corrected in the last millisecond; the event gives the record's TYPE, 1 to 5. -/
def execCorrectedErrorReport (s : State) : Host.Outcome State Fault Refusal :=
  if s.inp.n = 0 ∨ s.inp.reg < 1 ∨ 5 < s.inp.reg then .next s
  else
    let s : State := { s with corrected := s.corrected.put s.inp.idx (s.corrected.getD s.inp.idx 0 + s.inp.n) }
    .next (errorRecord s s.inp.reg 0 none s.inp.die s.inp.n s.inp.idx 0)

/-! ### Firmware core events and plain registers -/

/-- The number of the lowest set bit of an event mask. -/
def lowBit (w : BitVec 8) : Nat := ((List.range 8).find? (bit w)).getD 0

/-- `DFC_EVENT` (R229, R230): an event becomes pending at a DFC. With IE set it enters its handler at once, behind a WFE it was stalled in; with IE clear it
ends that stall. -/
def execDfcEvent (s : State) : Host.Outcome State Fault Refusal :=
  let d := s.inp.die
  if Config.dfcs ≤ d ∨ 8 ≤ s.inp.n then .next s
  else
    let s := raiseEvent s d s.inp.n
    let x := s.dfc d
    if !x.alive ∨ x.pend.isSome then .next s
    else if x.ie then .next (dfcTrap s d true (lowBit x.devent) (if x.wfe then x.pc + 4 else x.pc))
    else if x.wfe then .next (s.setDfc d { x with wfe := false, pc := x.pc + 4 })
    else .next s

/-- `REGISTER_WRITE` (R3): a register without a row of its own is written: FBSTAT clears LOST by a 1; the others are read-only. -/
def execRegisterWrite (s : State) : Host.Outcome State Fault Refusal :=
  match s.inp.rid with
  | .fbstat d => if bit s.inp.word 0 then .next (s.setFault d { s.fault d with lost := false }) else .next s
  | _ => .next s

end Sys2Proof.Machine
end

