-- ==== Sys2Proof/Machine/MatrixEvents.lean ====
section
/-! DEFINITION. The matrix pipeline's events (R294, R309 to R319): dispatch, completion, MITER iterations, gangs and slot tables. -/

namespace Sys2Proof.Machine

/-! ### The slot table (R309) -/

/-- Entry `n` of a slot table: the context it names, if valid (Table 13.4). -/
def slotEntry (t : BitVec 256) (n : Nat) : Option Nat := if bit t (16 * n + 15) then some (bits t (16 * n) 10) else none

/-- The context that owns the current slot of a rank's frame: frames of 4 096 clk of its die count from device warm reset. -/
def beatOwner (s : State) (rank : Nat) : Option Nat := slotEntry (s.slotTables.getD rank 0) (s.clkOf (rank / 96) % 4096 / 256)

/-- The clk among the first `x` since warm reset that lie in slots of a context under one table. -/
def ownedBefore (t : BitVec 256) (r x : Nat) : Nat :=
  let own := (List.range 16).filter fun n => slotEntry t n == some r
  x / 4096 * (256 * own.length) + (own.map fun n => min 256 (x % 4096 - 256 * n)).sum

/-- The clk of the next `n` that a rank spends in slots of a context; a table written in an earlier frame or in this one takes effect at the next frame
start (R309). -/
def ownClk (s : State) (rank r n : Nat) : Nat :=
  let t := s.slotTables.getD rank 0
  let now := s.clkOf (rank / 96)
  let b := (now / 4096 + 1) * 4096
  match s.slotNext.find rank with
  | some (_, t') =>
    if b < now + n then ownedBefore t r b - ownedBefore t r now + (ownedBefore t' r (now + n) - ownedBefore t' r b)
    else ownedBefore t r (now + n) - ownedBefore t r now
  | none => ownedBefore t r (now + n) - ownedBefore t r now

/-- The own-slot time of a cell in the next `n` clk. -/
def ownTime (s : State) (c n : Nat) : Nat :=
  match (s.cell c).ctx with
  | some r => ownClk s (rankOfCell c) r n
  | none => 0

/-- Whether a context has any entry in a rank's slot table. -/
def hasEntry (s : State) (rank r : Nat) : Bool := (List.range 16).any fun n => slotEntry (s.slotTables.getD rank 0) n == some r

/-- Whether the current slot belongs to the context of cell `c`. -/
def ownsBeat (s : State) (c : Nat) : Bool :=
  match (s.cell c).ctx with
  | some r => beatOwner s (rankOfCell c) == some r
  | none => false

/-! ### Dispatch (R294) -/

/-- Whether a cell has a slot that is joining or in gang mode, other than slot `k` (R310). -/
def otherGang (s : State) (c k : Nat) : Bool :=
  (List.range 4).any fun j => j != k && decide ((s.slot c j).gang ≠ .none)

/-- Whether the head of a slot's queue can be taken by the array: the wait of MMA and MMAZ, which comes before their elements, is met (R301), and a
joining waits until no other slot of the cell is joining or in gang mode. -/
def headReady (s : State) (c k : Nat) : Bool :=
  match (s.slot c k).mq with
  | [] => false
  | m :: _ =>
    let t := { s with cur := .slot c k }
    isActive (s.slot c k).status && !readFenced t
      && (match m.i with
        | .mma _ _ _ _ w => (match waitField t w with | .ok _ => true | .error _ => false)
        | .mmaz _ _ _ _ w => (match waitField t w with | .ok _ => true | .error _ => false)
        | _ => true)
      && (match m.i with | .mgang _ _ => m.x == 0 || !otherGang s c k | _ => true)

/-- The slot whose instruction the array of a cell runs. -/
def arraySlot (s : State) (c : Nat) : Option Nat := (List.range 4).find? fun k => ((s.slot c k).mq.head?.map (·.onArray)).getD false

/-- Change the head of a slot's matrix queue. -/
def onHead (s : State) (c k : Nat) (g : MatOp → MatOp) : State :=
  let l := s.slot c k
  match l.mq with
  | [] => s
  | m :: r => s.setSlot c k { l with mq := g m :: r }

/-- The head completes: it leaves the queue, and MRP and the staging area are clear (R148). -/
def popHead (s : State) (c k : Nat) : State :=
  let l := s.slot c k
  s.setSlot c k { l with mq := l.mq.drop 1, mrpV := false, mrpRow := 0, staging := [] }

/-- The head ends in a halt: a wait leaves it on the array, marked where it is for a descriptor (R16); a trap or park discards what was issued past it and is taken at the matrix
instruction, and a park records the rows it keeps (R148, R294). -/
def settleHead (s : State) (c k : Nat) : Halt → State
  | .after t h => settleHead t c k h
  | .wait (.descriptor o) => waitFor { s with cur := .slot c k } (.descriptor o)
  | .park cause kind acc ref coord page lvl record =>
    let s := { rewind (s.setSlot c k { s.slot c k with mrpV := true }) c k with cur := .slot c k }
    takePark s cause kind acc ref coord page lvl record
  | h => if h.takes then settle (rewind { s with cur := .slot c k } c k) h else { s with cur := .slot c k }

/-- Masked cells of the rank of cell `c`. -/
def maskedCells (c : Nat) (g : BitVec 8) : List Nat := ((List.range 8).filter (bit g)).map fun i => 8 * rankOfCell c + i

/-- Start a join on the array (R310): 0x0A for a masked cell of another context or none, 0x0B without an entry in the slot table, 0x0A at both
cells where another masked cell joins with a different mask or tag. -/
def startJoin (s : State) (c k : Nat) (m : MatOp) : State :=
  let r := (s.cell c).ctx
  let g := m.csr.gmask
  let tag := BitVec.ofNat 32 (bits m.x 0 32)
  if (maskedCells c g).any fun c' => (s.cell c').ctx != r then settleHead s c k (trapOf 10)
  else if !((r.map (hasEntry s (rankOfCell c))).getD false) then settleHead s c k (trapOf 11)
  else
    let bad := (maskedCells c g).filter fun c' => c' != c && (List.range 4).any fun k' =>
      match (s.slot c' k').gang with
      | .joining tag' g' _ => tag' != tag || g' != g
      | _ => false
    if bad.isEmpty then s.setSlot c k { s.slot c k with gang := .joining tag g 0 }
    else
      bad.foldl (fun s c' => (List.range 4).foldl (fun s k' =>
        match (s.slot c' k').gang with
        | .joining _ _ _ => settleHead s c' k' (trapOf 10)
        | _ => s) s) (settleHead s c k (trapOf 10))

/-- `MATRIX_DISPATCH` (R294): the free array takes the first ready head in the order of R176. A leave completes at once; a join starts. -/
def execMatrixDispatch (s : State) : Host.Outcome State Fault Refusal :=
  let c := s.inp.cell
  if (arraySlot s c).isSome then .next s
  else
    match leastBy (slotKey s c) ((List.range 4).filter (headReady s c)) with
    | none => .next s
    | some k =>
      let s := onHead s c k fun m => { m with onArray := true }
      let l := s.slot c k
      let s := if l.mrpV then s else s.setSlot c k { l with mrpRow := 0, staging := [] }
      match (s.slot c k).mq.head? with
      | some m =>
        match m.i with
        | .mgang _ rb =>
          if m.x = 0 then
            let s := popHead (s.setSlot c k { s.slot c k with gang := .none }) c k
            .next (setX { s with cur := .slot c k } rb 0)
          else .next (startJoin s c k m)
        | _ => .next s
      | none => .next s

/-! ### Rendezvous (R311) -/

/-- Whether an instruction is ganged in gang mode. -/
def isGanged : Instr → Bool
  | .mma _ _ _ _ _ => true
  | .mmaz _ _ _ _ _ => true
  | .mpoly _ _ _ _ => true
  | .miter _ _ _ _ _ _ => true
  | _ => false

/-- Whether every participant of the gang of (c, k) stands at a ganged instruction on its array. -/
def allArrived (s : State) (c k : Nat) : Bool :=
  let ps := gangOf s c k
  decide (ps.length = maskCount (gangMask (s.slot c k))) && ps.all fun p =>
    match (s.slot p.1 p.2).mq with
    | m :: _ => m.onArray && isGanged m.i
    | [] => false

/-- Whether two instructions agree (R311): form, fields, scalar values, FMTA, FMTB and CBMODE. -/
def agree (a b : MatOp) : Bool :=
  a.form == b.form && a.x == b.x && a.csr.fmta == b.csr.fmta && a.csr.fmtb == b.csr.fmtb && a.csr.cbmode == b.csr.cbmode

/-- What stands in the way of the instruction at the head of (c, k) for its gang; none when it may run for all participants. -/
inductive Meet where
  | go | wait | broken | disagree
  deriving DecidableEq, Repr

/-- The rendezvous of a gang. -/
def meeting (s : State) (c k : Nat) : Meet :=
  match (s.slot c k).gang with
  | .broken _ => .broken
  | .joined _ _ _ _ _ =>
    if !(allArrived s c k && ownsBeat s c) then .wait
    else
      let ms := (gangOf s c k).filterMap fun p => (s.slot p.1 p.2).mq.head?
      match ms with
      | m :: r => if r.all (agree m) then .go else .disagree
      | [] => .wait
  | _ => .go

/-- Take a trap at every participant. -/
def trapAll (s : State) (ps : List (Nat × Nat)) (h : Halt) : State := ps.foldl (fun s p => settleHead s p.1 p.2 h) s

/-- Load the operands of every participant, or the first halt among them with where it arose. -/
def prepareAll : List (Nat × Nat) → State → Except (State × Halt × (Nat × Nat)) State
  | [], s => .ok s
  | p :: ps, s =>
    let s := { s with cur := .slot p.1 p.2 }
    match (s.slot p.1 p.2).mq with
    | [] => prepareAll ps s
    | m :: _ =>
      match prepare m s p.1 with
      | .error (s, h) => .error (s, h, p)
      | .ok s => prepareAll ps s

/-- A ganged instruction has met: the count goes on and the waiting clock starts anew. -/
def metAll (s : State) (ps : List (Nat × Nat)) : State :=
  ps.foldl (fun s p =>
    let l := s.slot p.1 p.2
    match l.gang with
    | .joined tag mask ord n _ => s.setSlot p.1 p.2 { l with gang := .joined tag mask ord (n + 1) 0 }
    | _ => s) s

/-- The heads of every participant complete. -/
def popAll (s : State) (ps : List (Nat × Nat)) : State := metAll (ps.foldl (fun s p => popHead s p.1 p.2) s) ps

/-- Whether an instruction runs for all participants of a gang together. -/
def together (s : State) (c k : Nat) (i : Instr) : Bool := inGang (s.slot c k) && isGanged i

/-- Run MMA, MMAZ or MPOLY on the array of (c, k), for its whole gang when there is one. Each participant's own checks come before those of the gang (R301
steps 4 and 5). -/
def runJoint (s : State) (c k : Nat) (m : MatOp) : State :=
  let own := prepareAll [(c, k)] s
  match own with
  | .error (s, h, _) => settleHead s c k h
  | .ok s =>
    match meeting s c k with
    | .broken => settleHead s c k (trapOf 10)
    | .disagree =>
      match prepareAll (gangOf s c k) s with
      | .error (s, h, p) => settleHead s p.1 p.2 h
      | .ok s => trapAll s (gangOf s c k) (trapOf 10)
    | .wait => s
    | .go =>
      let ps := gangOf s c k
      match prepareAll ps s with
      | .error (s, h, p) => settleHead s p.1 p.2 h
      | .ok s =>
        match m.i with
        | .mma ad la lb _ _ => popAll (mmaAll s ps false ad la lb) ps
        | .mmaz ad la lb _ _ => popAll (mmaAll s ps true ad la lb) ps
        | .mpoly ad aa ab _ => popAll (mpolyAll s ps m ad aa ab) ps
        | _ => s

/-- `MATRIX_INSTRUCTION_COMPLETE` (R294): the instruction on the array takes effect, or halts. MITER ends through `MITER_ITERATION`, a join
through `GANG_JOIN_COMPLETE`. -/
def execMatrixInstructionComplete (s : State) : Host.Outcome State Fault Refusal :=
  let c := s.inp.cell
  match arraySlot s c with
  | none => .next s
  | some k =>
    let s := { s with cur := .slot c k }
    match (s.slot c k).mq with
    | [] => .next s
    | m :: _ =>
      match m.i with
      | .mgang _ _ => .next s
      | .miter _ _ _ _ _ _ => .next s
      | .mma _ _ _ _ _ => .next (runJoint s c k m)
      | .mmaz _ _ _ _ _ => .next (runJoint s c k m)
      | .mpoly _ _ _ _ => .next (runJoint s c k m)
      | _ =>
        match runLocal s c m with
        | .ok s => .next (popHead s c k)
        | .error (s, h) => .next (settleHead s c k h)

/-! ### MITER -/

/-- Clear MIS.LIVE of a participant (R315). -/
def clearLive (s : State) (p : Nat × Nat) : State :=
  let s := { s with cur := .slot p.1 p.2 }
  setMis s (s.mis.1 &&& ~~~(word (2 ^ 63))) s.mis.2

/-- A MITER ends at a participant (R316 to R318): the result is written, or a trap taken, or the result written and the activation yields. -/
def miterEnd (s : State) (p : Nat × Nat) (rb : BitVec 5) (ec why count : Nat) : State :=
  let s := if ec = 3 then s else clearLive s p
  let s := { s with cur := .slot p.1 p.2 }
  let res := iterResult ec why count
  let trap := s.me.csr.mtrapen
  if ec = 2 ∧ bit trap 0 then settleHead s p.1 p.2 (.trap 12 res 0 0 false)
  else if ec = 1 ∧ bit trap 1 then settleHead s p.1 p.2 (.trap 13 res 0 0 false)
  else
    let s := setX (popHead s p.1 p.2) rb res
    if ec = 3 then yieldActivation s p.1 p.2 else s

/-- Poison in the tiles that MITER reads, and its tile comparators, at each participant before its first iteration (R160, R403): the first that halts,
with where. -/
def miterChecks (n : Nat) : List (Nat × Nat) → State → Except (Halt × (Nat × Nat)) State
  | [], s => .ok s
  | p :: ps, s =>
    let s := { s with cur := .slot p.1 p.2 }
    let head : Option Instr := (s.slot p.1 p.2).mq.head?.map fun m => m.i
    match head with
    | some (.miter ad aa md _ _ _) =>
      let rd := slabTiles n ad.toNat ++ if md = 1 then slabTiles n aa.toNat else []
      let r : Except Halt State := do
        rd.forM (tileClean s p.1)
        tileComparators s p.1 (rd.map allRows) ((slabTiles n ad.toNat).map allRows)
      match r with
      | .error h => .error (h, p)
      | .ok s => miterChecks n ps s
    | _ => miterChecks n ps s

/-- `MITER_ITERATION` (R315): one turn of the loop for the MITER on the array of a cell, for its whole gang when there is one. -/
def execMiterIteration (s : State) : Host.Outcome State Fault Refusal :=
  let c := s.inp.cell
  match arraySlot s c with
  | none => .next s
  | some k =>
    let s := { s with cur := .slot c k }
    match (s.slot c k).mq with
    | [] => .next s
    | m :: _ =>
      match m.i with
      | .miter ad aa md fb _ rb =>
        match meeting s c k with
        | .broken => .next (settleHead s c k (trapOf 10))
        | .disagree =>
          match if m.begun then .ok s else miterChecks (gangOf s c k).length (gangOf s c k) s with
          | .error (h, p) => .next (settleHead s p.1 p.2 h)
          | .ok s => .next (trapAll s (gangOf s c k) (trapOf 10))
        | .wait => .next s
        | .go =>
          let ps := gangOf s c k
          match if m.begun then .ok s else miterChecks ps.length ps s with
          | .error (h, p) => .next (settleHead s p.1 p.2 h)
          | .ok s =>
            let (s, count, r) := miterTurn s ps m ad aa md fb
            match r with
            | .more => .next (ps.foldl (fun s p => onHead s p.1 p.2 fun m => { m with begun := true }) s)
            | .done e w => .next (ps.foldl (fun s p => miterEnd s p rb e w count) (metAll s ps))
      | _ => .next s

/-! ### Gang joins and time limits -/

/-- The joining slot of a cell with a tag and mask. -/
def joinSlot (s : State) (c : Nat) (tag : BitVec 32) (mask : BitVec 8) : Option Nat :=
  (List.range 4).find? fun k =>
    match (s.slot c k).gang with
    | .joining t g _ => t == tag && g == mask
    | _ => false

/-- `GANG_JOIN_COMPLETE` (R310): within a slot of the context, every masked cell has a slot joining with the mask and tag of the join on
this cell's array: all enter gang mode with their ordinals. A slot restored as joining resumes its parked
instruction then (R374). -/
def execGangJoinComplete (s : State) : Host.Outcome State Fault Refusal :=
  let c := s.inp.cell
  match arraySlot s c with
  | none => .next s
  | some k =>
    match (s.slot c k).gang with
    | .joining tag mask _ =>
      let cs := maskedCells c mask
      let ks := cs.filterMap fun c' => (joinSlot s c' tag mask).map fun k' => (c', k')
      if ks.length = cs.length ∧ ownsBeat s c then
        .next ((ks.zipIdx).foldl (fun s p =>
          let l := s.slot p.1.1 p.1.2
          match l.mq with
          | m :: r =>
            match l.status with
            | .parked _ true _ =>
              s.setSlot p.1.1 p.1.2 { l with gang := .joined tag mask p.2 0 0, mq := r, status := .running }
            | _ =>
              let s := s.setSlot p.1.1 p.1.2 { l with gang := .joined tag mask p.2 0 0 }
              let s := popHead s p.1.1 p.1.2
              match m.i with
              | .mgang _ rb => setX { s with cur := .slot p.1.1 p.1.2 } rb (word p.2)
              | _ => s
          | [] => s) s)
      else .next s
    | _ => .next s

/-- `GANG_TIMEOUT` (R310, R311): a join or a rendezvous is not complete after 16 384 clk of own-slot time: 0x0B at those waiting. -/
def execGangTimeout (s : State) : Host.Outcome State Fault Refusal :=
  let c := s.inp.cell
  match arraySlot s c with
  | none => .next s
  | some k =>
    match (s.slot c k).gang with
    | .joining _ _ clk =>
      if 16384 ≤ clk then
        .next (settleHead (s.setSlot c k { s.slot c k with gang := .none }) c k (trapOf 11))
      else .next s
    | .joined _ _ _ _ clk =>
      if 16384 ≤ clk ∧ !allArrived s c k then
        let ps := (gangOf s c k).filter fun p => match (s.slot p.1 p.2).mq with
          | m :: _ => m.onArray && isGanged m.i
          | [] => false
        .next (trapAll s ps (trapOf 11))
      else .next s
    | _ => .next s

/-- `SLOT_TABLE_FRAME_START` (R309): at a frame start of a rank, a slot table written in an earlier frame takes effect. -/
def execSlotTableFrameStart (s : State) : Host.Outcome State Fault Refusal :=
  let g := 96 * s.inp.die + s.inp.rank
  match s.slotNext.find g with
  | some (f, t) =>
    if s.clkOf s.inp.die % 4096 = 0 ∧ f < s.clkOf s.inp.die / 4096 then .next { s with slotTables := s.slotTables.put g t, slotNext := s.slotNext.del g } else .next s
  | none => .next s

end Sys2Proof.Machine
end

