-- ==== Sys2Proof/Machine/Turn.lean ====
section
/-! DEFINITION. Turns (DESIGN CHOICE, log entry 1): which agent moves next, what a slot, a die firmware core and passing time do, and which rows of the
opcode table are device events. -/

namespace Sys2Proof.Machine

/-! ### Passing time -/

/-- The clock of a cell's rank is gated, or its power is on its way back (R401): its slots issue nothing and its clocks stand still (DEDUCED, log entry 49). -/
def rankGated (s : State) (c : Nat) : Bool := s.power.idle.getD (rankOfCell c) 0 != 0 || s.power.exiting.has (rankOfCell c)

/-- The parts of a slot that `clk` cycles and `ns` nanoseconds change: turn budget, age, time parked, and the clocks of a join or a rendezvous, which
count the `own` cycles in slots of its context (R176, R183, R310, R311, R413). -/
def elapseSlot (own clk ns : Nat) (l : Slot) : Slot :=
  let l : Slot := if budgetCounts l then { l with tbud := l.tbud - clk } else l
  let l : Slot := if l.act.isSome then { l with age := l.age + clk } else l
  let l : Slot := match l.status with
    | .parked _ _ _ => { l with act := l.act.map fun a => { a with parked := a.parked + ns } }
    | _ => l
  match l.gang with
  | .joining t g n => { l with gang := .joining t g (n + own) }
  | .joined t g o n m =>
    if (match l.mq with | m :: _ => m.onArray && isGanged m.i | [] => false) then { l with gang := .joined t g o n (m + own) } else l
  | _ => l

/-- The cycles that the clock of a cell counts while `clk` cycles of PS0 pass: those of its die (R401). -/
def cellClk (s : State) (c clk : Nat) : Nat := if rankGated s c then 0 else s.clkIn (dieOfCell c) clk

/-- A cell after time has passed: its slots, its idle clock (R181), and the slot time of free slots (R413). -/
def elapseCell (s : State) (c clk ns : Nat) (x : Cell) : Cell :=
  if x.ctx.isNone then x
  else
    let clk := cellClk s c clk
    let own := if rankGated s c then 0 else ownTime s c clk
    let free := freeSlots x
    let found := (free.filter x.searching.has).length
    let idle := !free.isEmpty && (runnablePairs s c).isEmpty && mayStart s c
    { x with
      slots := x.slots.map (elapseSlot own clk ns)
      idleClk := if idle then x.idleClk + clk else 0
      acct := { x.acct with
        search := held64 (x.acct.search.toNat + found * ns)
        idle := held64 (x.acct.idle.toNat + (free.length - found) * ns) } }

/-- The ages of the runnable pairs of a cell's context, which stand still while the cell is stopped (R177, R410). -/
def elapseAges (s : State) (c clk : Nat) : State :=
  match (s.cell c).ctx with
  | none => s
  | some r =>
    if (match (s.cell c).stop with | .stopped _ => true | _ => false) || rankGated s c then s
    else
      let n := s.clkIn (dieOfCell c) clk
      (runnablePairs s c).foldl (fun s q => s.onVpe r q.1 fun p => { p with ages := p.ages.put q.2 (p.ages.getD q.2 0 + n) }) s

/-- The slot tables written in an earlier frame take effect (R309). -/
def startFrames (s : State) : State :=
  let (due, later) := s.slotNext.partition fun e => e.2.1 < s.clkOf (e.1 / Config.ranksPerDie) / 4096
  { s with slotTables := due.foldl (fun m e => NMap.put m e.1 e.2.2) s.slotTables, slotNext := later }

/-- The slots whose budget passes zero within `clk` cycles (R183). -/
def expiring (s : State) (clk : Nat) : List (Nat × Nat) :=
  s.cells.flatMap fun p => ((List.range 4).filter fun k =>
    budgetCounts (s.slot p.1 k) && (s.slot p.1 k).act.isSome && decide ((s.slot p.1 k).tbud < cellClk s p.1 clk)).map fun k => (p.1, k)

/-- `clk` cycles of PS0, of which each die counts those of its performance state (R401), and `ns` nanoseconds pass on the whole device: TIME, budgets, ages, frames, the waits of queues (R367), and the lease timers
(R344). An activation whose budget passes zero is aborted (R183). -/
def elapse (s : State) (clk ns : Nat) : State :=
  let s := startFrames s
  let out := expiring s clk
  let s : State := s.cells.foldl (fun s p => elapseAges s p.1 clk) s
  let s : State := { s with cells := s.cells.map fun p => (p.1, elapseCell s p.1 clk ns p.2) }
  let s : State := { s with
    clk := (List.range Config.dies).foldl (fun m d => NMap.put m d (m.getD d 0 + clk * (8 - s.power.ps.getD d 0))) s.clk
    time := s.time + word ns
    queues := s.queues.map fun p => (p.1, if p.2.state = 2 then { p.2 with waitNs := p.2.waitNs + ns } else p.2)
    dfcs := s.dfcs.map fun p => (p.1, { p.2 with lease := p.2.lease + ns })
    fw := { s.fw with sinceRenewal := s.fw.sinceRenewal + ns } }
  out.foldl (fun s p => expireBudget s p.1 p.2) (startFrames s)

/-! ### Agents -/

/-- Whether a slot issues an instruction in its turn: it runs, no response is outstanding, and no sequence of a stream owns it (R179). -/
def canIssue (l : Slot) : Bool := decide (l.status = .running) && l.pend.isNone

/-- Everything before the meaning of a slot's next instruction: the instruction and the state it starts in, or how the turn ends; its next clk passes the end of
a budget used up (R183). -/
def slotTurn (s : State) (c k : Nat) : Except State (Instr × State) :=
  let s := { s with cur := .slot c k }
  if !canIssue (s.slot c k) || rankGated s c then .error s
  else if budgetOut (s.slot c k) then .error (expireBudget s c k)
  else
    match ready s with
    | .ok r => .ok r
    | .error h => .error (settle s h)

/-- The first `n` of a list, the least under a key first. -/
def risingBy (key : Nat → List Nat) : Nat → List Nat → List Nat
  | 0, _ => []
  | n + 1, l =>
    match leastBy key l with
    | none => []
    | some k => k :: risingBy key n (l.filter (· != k))

/-- The slots of a cell among which its pipeline chooses, in the order of R176. -/
def candidates (s : State) (c : Nat) : List Nat :=
  if rankGated s c then [] else risingBy (slotKey s c) 4 ((List.range 4).filter fun k => canIssue (s.slot c k))

/-- The slots that may issue when slot `k` is named: those before it in the order of R176 go first if they are ready. -/
def slotOrder (s : State) (c k : Nat) : List Nat :=
  let l := candidates s c
  if l.contains k then l.takeWhile (· != k) ++ [k] else [k]

/-- Whether a slot's turn has shown that it was not ready to issue: it stands at its instruction, in a wait that is no outstanding response. -/
def notReady (s : State) (c k : Nat) : Bool :=
  decide ((s.slot c k).status = .running) && decide ((s.slot c k).wait ≠ .none ∧ (s.slot c k).wait ≠ .response)

/-- Everything before the meaning of a DFC's next instruction: with IE set, a pending event traps first (R229, R230). -/
def dfcTurn (s : State) (d : Nat) : Except State (Instr × State) :=
  let s := { s with cur := .dfc d }
  let x := s.dfc d
  if !x.alive || x.pend.isSome then .error s
  else if x.ie && x.devent != 0 then .error (dfcTrap s d true (lowBit x.devent) (if x.wfe then x.pc + 4 else x.pc))
  else
    match ready s with
    | .ok r => .ok r
    | .error h => .error (settle s h)

/-- The row of the opcode table is a device event: it has no encoding. -/
def isEvent (i : Instr) : Bool := (encodeFields i).isEmpty

/-! ### The next turn (DESIGN CHOICE, log entry 1) -/

/-- The turn that an agent's own progress asks for when nothing is scheduled: what it waits for happens, else it issues. -/
def ownTurn (s : State) (a : Agent) : Turn :=
  match a with
  | .slot c k =>
    let l := s.slot c k
    let at' : Input := { cell := c, slot := k, die := dieOfCell c }
    if l.pend.isSome then .event .memoryResponse { at' with agent := a }
    else if l.wait ≠ .none ∧ (s.posted.any fun p => p.agent == a) then
      .event .postedStoreAck { at' with idx := s.posted.findIdx fun p => p.agent == a }
    else match l.wait with
      | .code cap p => if pageStored s (dieOfCell c) cap p then .agent a else .event .codePageVerify { at' with cap := cap, idx := p }
      | .matrix =>
        if l.mq.isEmpty then .agent a
        else if (arraySlot s c).isSome then .event .matrixInstructionComplete at'
        else .event .matrixDispatch at'
      | .sequencer => if l.seq.run.isNone then .agent a else .event .rptInstanceIssue at'
      | .descriptor o => .event .descriptorCacheFill { at' with idx := o }
      | .outbound => if (s.cell c).outbound.isEmpty then .agent a else .event .outboundListDrain at'
      | _ => .agent a
  | .dfc d =>
    let l := s.dfc d
    if l.pend.isSome then .event .memoryResponse { agent := a }
    else if l.wait ≠ .none ∧ (s.posted.any fun p => p.agent == a) then
      .event .postedStoreAck { idx := s.posted.findIdx fun p => p.agent == a }
    else .agent a
  | .queue q =>
    let x := s.queue q
    match x.service with
    | some i =>
      if (statusReg i).isSome then .event .privilegedCommandComplete { queue := q }
      else match i with
        | .cWaitsem _ _ _ _ _ _ => .event .semaphoreRecheck { queue := q }
        | .cCopy _ _ => .event .copyKickAnswer { queue := q }
        | _ => .event .memoryResponse { agent := a }
    | none =>
      if x.asking then .event .memoryResponse { agent := a }
      else if (s.engine x.eng).serving = some q then .engine x.eng
      else .event .commandEngineSelect { die := x.eng }
  | _ => .elapse 1 1

/-- The next turn and the state without it: the first one scheduled, else what the agent in focus does. -/
def nextTurn (s : State) : Turn × State :=
  match s.sched with
  | t :: r => (t, { s with sched := r })
  | [] => (ownTurn s s.focus, s)

end Sys2Proof.Machine
end

