-- ==== Sys2Proof/Machine/Boot.lean ====
section
/-! DEFINITION. The least a machine needs to run one given instruction: a context with one cell and one capsule whose code is that
instruction, a die firmware core with that code, or a queue with that command (DESIGN CHOICE, log entry 16). -/

namespace Sys2Proof.Machine

/-- A capsule whose body is the given code, one record long, sealed under the running firmware. -/
def bootCapsule (s : State) (b : List Byte) : Capsule where
  state := 1
  body := ⟨b, [(0, 0, b.length)], [], []⟩
  gen := s.fw.gen
  step := s.fw.step
  ibh := s.fw.ibh
  grid := (1, 0, 0, 0)
  need := 0
  regions := []
  grain := 1
  barriers := []
  handlers := [(0, 0)]
  exports := []
  stubs := []
  hints := []
  list := []
  hashes := []
  digest := 0
  manifest := []
  dies := 15
  seals := []
  stuck := false

/-- A context of function 0 with cells and capsules, holding nothing. -/
def emptyContext : Context where
  fn := 0
  cells := []
  parts := []
  shared := []
  objs := []
  lays := []
  grants := []
  keys := []
  flags := 0
  dbgctl := 0
  caps := []
  grid := 0
  fold := ⟨1, 1, 0, 1⟩
  barriers := []
  unloaded := false
  mailbox := []
  vpes := []
  spillEntries := 512
  extEntries := 0
  holdBytes := 65536
  arriveEntries := 0
  arrived := []
  report := 0
  reportVec := 0
  reports := []
  reportLost := 0
  service := 0
  serviced := []
  trace := 0
  blocks := []
  contained := false
  detached := false
  saving := none
  job := none
  noMove := []
  setN := []
  exchange := []

/-- A message without words. -/
def Msg.empty : Msg := ⟨0, [], 0, 0, none, 0, 0, false, none, none⟩

/-- The activation that runs the given code. -/
def bootActivation : Activation where
  vpe := 0
  ch := 0
  msg := Msg.empty
  h := Handler.zero
  owner := 0
  stolen := false
  hord := 0
  dbg := 0
  deq := 0
  serial := 0
  parked := 0
  mis := 0
  misv := 0

/-- Slot 0 of cell 0 runs the code `b` and moves next. -/
def bootSlot (s : State) (b : List Byte) : State :=
  let x := { emptyContext with cells := [0], caps := [1], grid := 1 }
  let c := s.cell 0
  let l := { (c.slot 0).freed with status := .running, act := some bootActivation, cap := 1, pc := 0, tbud := 2 ^ 32 }
  { s with
    sched := [.agent (.slot 0 0)]
    focus := .slot 0 0
    caps := s.caps.put 1 (bootCapsule s b)
    codeStore := s.codeStore.put 0 (2 ^ 20 :: s.codeStore.getD 0 [])
    ctxs := s.ctxs.put 0 ((s.ctx 0).getD x)
    cells := s.cells.put 0 ({ c with ctx := some 0 }.setSlot 0 l) }

/-- DFC 0 runs the code `b` and moves next. -/
def bootDfc (s : State) (b : List Byte) : State :=
  { s with
    sched := [.agent (.dfc 0)]
    focus := .dfc 0
    dfcs := s.dfcs.put 0 { s.dfc 0 with code := b, pc := 0, wfe := false, pend := none, ie := false, alive := true } }

/-- An object of one ring in the vault of rank 0: 64 words, all rights. -/
def bootRing : Desc := ⟨word (fields [(52, 512), (5, 31), (3, 1), (3, 0), (1, 1)]), 0, 0, 0⟩

/-- Queue 0, privileged and mapped to die 0, stands at the command word `w`, and its engine serves it next. -/
def bootQueue (s : State) (w : Nat) : State :=
  let x := (s.ctx 0).getD emptyContext
  { s with
    sched := [.engine 0]
    focus := .queue 0
    mem := writeKeys s.mem (span (vaultKey 0 0) 16) (bytesOf 16 w)
    ctxs := s.ctxs.put 0 { x with objs := x.objs.put 32 bootRing }
    queues := s.queues.put 0 { Queue.reset with base := word (32 * 2 ^ 52), tail := 2, lsz := 6, state := 1, priv := true, map := true }
    engines := s.engines.put 0 ⟨some 0, 0, 0⟩ }

end Sys2Proof.Machine
end

