-- ==== Sys2Proof/Machine/Dispatch.lean ====
section
/-! DEFINITION. The dispatch: one arm per constructor of `Instr`, each one call of its meaning. -/

namespace Sys2Proof.Machine

/-- What an instruction, a command or a device event does. -/
def exec (i : Instr) (s : State) : Host.Outcome State Fault Refusal :=
  match i with
  | .add rd ra rb => Sys2Proof.Machine.execAdd rd ra rb s
  | .sub rd ra rb => Sys2Proof.Machine.execSub rd ra rb s
  | .and rd ra rb => Sys2Proof.Machine.execAnd rd ra rb s
  | .or rd ra rb => Sys2Proof.Machine.execOr rd ra rb s
  | .xor rd ra rb => Sys2Proof.Machine.execXor rd ra rb s
  | .sll rd ra rb => Sys2Proof.Machine.execSll rd ra rb s
  | .srl rd ra rb => Sys2Proof.Machine.execSrl rd ra rb s
  | .sra rd ra rb => Sys2Proof.Machine.execSra rd ra rb s
  | .min rd ra rb => Sys2Proof.Machine.execMin rd ra rb s
  | .max rd ra rb => Sys2Proof.Machine.execMax rd ra rb s
  | .minu rd ra rb => Sys2Proof.Machine.execMinu rd ra rb s
  | .maxu rd ra rb => Sys2Proof.Machine.execMaxu rd ra rb s
  | .slt rd ra rb => Sys2Proof.Machine.execSlt rd ra rb s
  | .sltu rd ra rb => Sys2Proof.Machine.execSltu rd ra rb s
  | .mul rd ra rb => Sys2Proof.Machine.execMul rd ra rb s
  | .mulh rd ra rb => Sys2Proof.Machine.execMulh rd ra rb s
  | .mulhu rd ra rb => Sys2Proof.Machine.execMulhu rd ra rb s
  | .div rd ra rb => Sys2Proof.Machine.execDiv rd ra rb s
  | .divu rd ra rb => Sys2Proof.Machine.execDivu rd ra rb s
  | .rem rd ra rb => Sys2Proof.Machine.execRem rd ra rb s
  | .remu rd ra rb => Sys2Proof.Machine.execRemu rd ra rb s
  | .clz rd ra => Sys2Proof.Machine.execClz rd ra s
  | .ctz rd ra => Sys2Proof.Machine.execCtz rd ra s
  | .popc rd ra => Sys2Proof.Machine.execPopc rd ra s
  | .sext rd ra rb => Sys2Proof.Machine.execSext rd ra rb s
  | .zext rd ra rb => Sys2Proof.Machine.execZext rd ra rb s
  | .oadd rd ra rb => Sys2Proof.Machine.execOadd rd ra rb s
  | .oslot rd ra => Sys2Proof.Machine.execOslot rd ra s
  | .ochk rd ra rb => Sys2Proof.Machine.execOchk rd ra rb s
  | .omake rd ra rb => Sys2Proof.Machine.execOmake rd ra rb s
  | .pack2 rd ra rb => Sys2Proof.Machine.execPack2 rd ra rb s
  | .pack4 rd ra rb => Sys2Proof.Machine.execPack4 rd ra rb s
  | .addi rd ra imm => Sys2Proof.Machine.execAddi rd ra imm s
  | .andi rd ra imm => Sys2Proof.Machine.execAndi rd ra imm s
  | .ori rd ra imm => Sys2Proof.Machine.execOri rd ra imm s
  | .xori rd ra imm => Sys2Proof.Machine.execXori rd ra imm s
  | .slti rd ra imm => Sys2Proof.Machine.execSlti rd ra imm s
  | .slli rd ra imm => Sys2Proof.Machine.execSlli rd ra imm s
  | .srli rd ra imm => Sys2Proof.Machine.execSrli rd ra imm s
  | .srai rd ra imm => Sys2Proof.Machine.execSrai rd ra imm s
  | .lui rd u => Sys2Proof.Machine.execLui rd u s
  | .auic rd ra k cd => Sys2Proof.Machine.execAuic rd ra k cd s
  | .beq ra rb off => Sys2Proof.Machine.execBeq ra rb off s
  | .bne ra rb off => Sys2Proof.Machine.execBne ra rb off s
  | .blt ra rb off => Sys2Proof.Machine.execBlt ra rb off s
  | .bge ra rb off => Sys2Proof.Machine.execBge ra rb off s
  | .bltu ra rb off => Sys2Proof.Machine.execBltu ra rb off s
  | .bgeu ra rb off => Sys2Proof.Machine.execBgeu ra rb off s
  | .j off => Sys2Proof.Machine.execJ off s
  | .jal off => Sys2Proof.Machine.execJal off s
  | .jalr rd ra imm => Sys2Proof.Machine.execJalr rd ra imm s
  | .callx rd ra imm => Sys2Proof.Machine.execCallx rd ra imm s
  | .lb rt ra w sc ord imm => Sys2Proof.Machine.execLb rt ra w sc ord imm s
  | .lh rt ra w sc ord imm => Sys2Proof.Machine.execLh rt ra w sc ord imm s
  | .lw rt ra w sc ord imm => Sys2Proof.Machine.execLw rt ra w sc ord imm s
  | .ld rt ra w sc ord imm => Sys2Proof.Machine.execLd rt ra w sc ord imm s
  | .lbu rt ra w sc ord imm => Sys2Proof.Machine.execLbu rt ra w sc ord imm s
  | .lhu rt ra w sc ord imm => Sys2Proof.Machine.execLhu rt ra w sc ord imm s
  | .lwu rt ra w sc ord imm => Sys2Proof.Machine.execLwu rt ra w sc ord imm s
  | .ldcn rt ra w sc ord imm => Sys2Proof.Machine.execLdcn rt ra w sc ord imm s
  | .sb rt ra w sc ord imm => Sys2Proof.Machine.execSb rt ra w sc ord imm s
  | .sh rt ra w sc ord imm => Sys2Proof.Machine.execSh rt ra w sc ord imm s
  | .sw rt ra w sc ord imm => Sys2Proof.Machine.execSw rt ra w sc ord imm s
  | .sd rt ra w sc ord imm => Sys2Proof.Machine.execSd rt ra w sc ord imm s
  | .ldf rt ra w sc imm => Sys2Proof.Machine.execLdf rt ra w sc imm s
  | .ldfC rt ra w sc imm => Sys2Proof.Machine.execLdfC rt ra w sc imm s
  | .stf rt ra w sc imm => Sys2Proof.Machine.execStf rt ra w sc imm s
  | .feclr rt ra w sc imm => Sys2Proof.Machine.execFeclr rt ra w sc imm s
  | .layr vd lay w sc => Sys2Proof.Machine.execLayr vd lay w sc s
  | .layw vd lay w sc => Sys2Proof.Machine.execLayw vd lay w sc s
  | .amoaddW rd ra rb sc ord => Sys2Proof.Machine.execAmoaddW rd ra rb sc ord s
  | .amoandW rd ra rb sc ord => Sys2Proof.Machine.execAmoandW rd ra rb sc ord s
  | .amoorW rd ra rb sc ord => Sys2Proof.Machine.execAmoorW rd ra rb sc ord s
  | .amoxorW rd ra rb sc ord => Sys2Proof.Machine.execAmoxorW rd ra rb sc ord s
  | .amominW rd ra rb sc ord => Sys2Proof.Machine.execAmominW rd ra rb sc ord s
  | .amomaxW rd ra rb sc ord => Sys2Proof.Machine.execAmomaxW rd ra rb sc ord s
  | .amominuW rd ra rb sc ord => Sys2Proof.Machine.execAmominuW rd ra rb sc ord s
  | .amomaxuW rd ra rb sc ord => Sys2Proof.Machine.execAmomaxuW rd ra rb sc ord s
  | .amoswpW rd ra rb sc ord => Sys2Proof.Machine.execAmoswpW rd ra rb sc ord s
  | .amocasW rd ra rb sc ord => Sys2Proof.Machine.execAmocasW rd ra rb sc ord s
  | .amofaddW rd ra rb sc ord => Sys2Proof.Machine.execAmofaddW rd ra rb sc ord s
  | .amoaddD rd ra rb sc ord => Sys2Proof.Machine.execAmoaddD rd ra rb sc ord s
  | .amoandD rd ra rb sc ord => Sys2Proof.Machine.execAmoandD rd ra rb sc ord s
  | .amoorD rd ra rb sc ord => Sys2Proof.Machine.execAmoorD rd ra rb sc ord s
  | .amoxorD rd ra rb sc ord => Sys2Proof.Machine.execAmoxorD rd ra rb sc ord s
  | .amominD rd ra rb sc ord => Sys2Proof.Machine.execAmominD rd ra rb sc ord s
  | .amomaxD rd ra rb sc ord => Sys2Proof.Machine.execAmomaxD rd ra rb sc ord s
  | .amominuD rd ra rb sc ord => Sys2Proof.Machine.execAmominuD rd ra rb sc ord s
  | .amomaxuD rd ra rb sc ord => Sys2Proof.Machine.execAmomaxuD rd ra rb sc ord s
  | .amoswpD rd ra rb sc ord => Sys2Proof.Machine.execAmoswpD rd ra rb sc ord s
  | .amocasD rd ra rb sc ord => Sys2Proof.Machine.execAmocasD rd ra rb sc ord s
  | .amofaddD rd ra rb sc ord => Sys2Proof.Machine.execAmofaddD rd ra rb sc ord s
  | .fence sc sw sr pw pr => Sys2Proof.Machine.execFence sc sw sr pw pr s
  | .waitc cn cm cv => Sys2Proof.Machine.execWaitc cn cm cv s
  | .bara rd ra sc => Sys2Proof.Machine.execBara rd ra sc s
  | .barw rd ra sc => Sys2Proof.Machine.execBarw rd ra sc s
  | .send ra vb => Sys2Proof.Machine.execSend ra vb s
  | .sendm vd ra rb => Sys2Proof.Machine.execSendm vd ra rb s
  | .sends ra vb => Sys2Proof.Machine.execSends ra vb s
  | .sende ra vb => Sys2Proof.Machine.execSende ra vb s
  | .msgld rd ra => Sys2Proof.Machine.execMsgld rd ra s
  | .bind ra => Sys2Proof.Machine.execBind ra s
  | .unbind ra => Sys2Proof.Machine.execUnbind ra s
  | .sbind ra rb => Sys2Proof.Machine.execSbind ra rb s
  | .chmask ra => Sys2Proof.Machine.execChmask ra s
  | .chunmask ra => Sys2Proof.Machine.execChunmask ra s
  | .qstream q ra => Sys2Proof.Machine.execQstream q ra s
  | .qrel q => Sys2Proof.Machine.execQrel q s
  | .qpop rd q => Sys2Proof.Machine.execQpop rd q s
  | .qpush q ra => Sys2Proof.Machine.execQpush q ra s
  | .qstat rd q => Sys2Proof.Machine.execQstat rd q s
  | .rpt ra rb => Sys2Proof.Machine.execRpt ra rb s
  | .rptw rd => Sys2Proof.Machine.execRptw rd s
  | .vld rt ra w sc ord imm => Sys2Proof.Machine.execVld rt ra w sc ord imm s
  | .vst rt ra w sc ord imm => Sys2Proof.Machine.execVst rt ra w sc ord imm s
  | .vldf rt ra w sc imm => Sys2Proof.Machine.execVldf rt ra w sc imm s
  | .vldfC rt ra w sc imm => Sys2Proof.Machine.execVldfC rt ra w sc imm s
  | .vstf rt ra w sc imm => Sys2Proof.Machine.execVstf rt ra w sc imm s
  | .vldL vd lay rc w sc => Sys2Proof.Machine.execVldL vd lay rc w sc s
  | .vstL vd lay rc w sc => Sys2Proof.Machine.execVstL vd lay rc w sc s
  | .vldfL vd lay rc w sc => Sys2Proof.Machine.execVldfL vd lay rc w sc s
  | .vldfCL vd lay rc w sc => Sys2Proof.Machine.execVldfCL vd lay rc w sc s
  | .vstfL vd lay rc w sc => Sys2Proof.Machine.execVstfL vd lay rc w sc s
  | .vadd vd va vb m => Sys2Proof.Machine.execVadd vd va vb m s
  | .vsub vd va vb m => Sys2Proof.Machine.execVsub vd va vb m s
  | .vmul vd va vb m => Sys2Proof.Machine.execVmul vd va vb m s
  | .vfma vd va vb m => Sys2Proof.Machine.execVfma vd va vb m s
  | .vfms vd va vb m => Sys2Proof.Machine.execVfms vd va vb m s
  | .vmax vd va vb m => Sys2Proof.Machine.execVmax vd va vb m s
  | .vmin vd va vb m => Sys2Proof.Machine.execVmin vd va vb m s
  | .vabs vd va m => Sys2Proof.Machine.execVabs vd va m s
  | .vneg vd va m => Sys2Proof.Machine.execVneg vd va m s
  | .vrcp vd va m => Sys2Proof.Machine.execVrcp vd va m s
  | .vrsq vd va m => Sys2Proof.Machine.execVrsq vd va m s
  | .vexp vd va m => Sys2Proof.Machine.execVexp vd va m s
  | .vlog vd va m => Sys2Proof.Machine.execVlog vd va m s
  | .vsigm vd va m => Sys2Proof.Machine.execVsigm vd va m s
  | .vtanh vd va m => Sys2Proof.Machine.execVtanh vd va m s
  | .vcvt vd va p f => Sys2Proof.Machine.execVcvt vd va p f s
  | .vreda vd va m => Sys2Proof.Machine.execVreda vd va m s
  | .vredx vd va m => Sys2Proof.Machine.execVredx vd va m s
  | .vcmpEq vd va vb m => Sys2Proof.Machine.execVcmpEq vd va vb m s
  | .vcmpNe vd va vb m => Sys2Proof.Machine.execVcmpNe vd va vb m s
  | .vcmpLt vd va vb m => Sys2Proof.Machine.execVcmpLt vd va vb m s
  | .vcmpLe vd va vb m => Sys2Proof.Machine.execVcmpLe vd va vb m s
  | .vcmpGt vd va vb m => Sys2Proof.Machine.execVcmpGt vd va vb m s
  | .vcmpGe vd va vb m => Sys2Proof.Machine.execVcmpGe vd va vb m s
  | .vsel vd va vb k => Sys2Proof.Machine.execVsel vd va vb k s
  | .vperm vd va vb m => Sys2Proof.Machine.execVperm vd va vb m s
  | .vbcst vd ra m => Sys2Proof.Machine.execVbcst vd ra m s
  | .vmvx rd va rb => Sys2Proof.Machine.execVmvx rd va rb s
  | .vmvs vd ra rb => Sys2Proof.Machine.execVmvs vd ra rb s
  | .vsetl rd ra => Sys2Proof.Machine.execVsetl rd ra s
  | .viadd vd va vb m e => Sys2Proof.Machine.execViadd vd va vb m e s
  | .visub vd va vb m e => Sys2Proof.Machine.execVisub vd va vb m e s
  | .vimul vd va vb m e => Sys2Proof.Machine.execVimul vd va vb m e s
  | .viand vd va vb m e => Sys2Proof.Machine.execViand vd va vb m e s
  | .vior vd va vb m e => Sys2Proof.Machine.execVior vd va vb m e s
  | .vixor vd va vb m e => Sys2Proof.Machine.execVixor vd va vb m e s
  | .visll vd va vb m e => Sys2Proof.Machine.execVisll vd va vb m e s
  | .visrl vd va vb m e => Sys2Proof.Machine.execVisrl vd va vb m e s
  | .visra vd va vb m e => Sys2Proof.Machine.execVisra vd va vb m e s
  | .mma ad la lb rc w => Sys2Proof.Machine.execMma ad la lb rc w s
  | .mmaz ad la lb rc w => Sys2Proof.Machine.execMmaz ad la lb rc w s
  | .mpoly ad aa ab ra => Sys2Proof.Machine.execMpoly ad aa ab ra s
  | .miter ad aa md fb ra rb => Sys2Proof.Machine.execMiter ad aa md fb ra rb s
  | .mscz ad w ra => Sys2Proof.Machine.execMscz ad w ra s
  | .mcvt ad aa ab => Sys2Proof.Machine.execMcvt ad aa ab s
  | .mtrn ad aa => Sys2Proof.Machine.execMtrn ad aa s
  | .mzero ad => Sys2Proof.Machine.execMzero ad s
  | .mgang ra rb => Sys2Proof.Machine.execMgang ra rb s
  | .mrdr ad ab ra rb => Sys2Proof.Machine.execMrdr ad ab ra rb s
  | .mwrr ad ra rb => Sys2Proof.Machine.execMwrr ad ra rb s
  | .cbld n w ra => Sys2Proof.Machine.execCbld n w ra s
  | .kld w ra => Sys2Proof.Machine.execKld w ra s
  | .mld ad la w sc rc => Sys2Proof.Machine.execMld ad la w sc rc s
  | .mst ad la w sc rc => Sys2Proof.Machine.execMst ad la w sc rc s
  | .mldb ad la w sc rc => Sys2Proof.Machine.execMldb ad la w sc rc s
  | .csrr rd csr => Sys2Proof.Machine.execCsrr rd csr s
  | .csrw rd ra csr => Sys2Proof.Machine.execCsrw rd ra csr s
  | .csrs rd ra csr => Sys2Proof.Machine.execCsrs rd ra csr s
  | .csrc rd ra csr => Sys2Proof.Machine.execCsrc rd ra csr s
  | .ecall rd ra rb => Sys2Proof.Machine.execEcall rd ra rb s
  | .ebrk k => Sys2Proof.Machine.execEbrk k s
  | .nop rd ra rb => Sys2Proof.Machine.execNop rd ra rb s
  | .add16 ra rb => Sys2Proof.Machine.execAdd16 ra rb s
  | .sub16 ra rb => Sys2Proof.Machine.execSub16 ra rb s
  | .mov16 ra rb => Sys2Proof.Machine.execMov16 ra rb s
  | .addi16 ra imm => Sys2Proof.Machine.execAddi16 ra imm s
  | .andi16 ra imm => Sys2Proof.Machine.execAndi16 ra imm s
  | .slli16 ra imm => Sys2Proof.Machine.execSlli16 ra imm s
  | .srli16 ra imm => Sys2Proof.Machine.execSrli16 ra imm s
  | .srai16 ra imm => Sys2Proof.Machine.execSrai16 ra imm s
  | .and16 ra rb => Sys2Proof.Machine.execAnd16 ra rb s
  | .or16 ra rb => Sys2Proof.Machine.execOr16 ra rb s
  | .xor16 ra rb => Sys2Proof.Machine.execXor16 ra rb s
  | .ld16 ra rb => Sys2Proof.Machine.execLd16 ra rb s
  | .lw16 ra rb => Sys2Proof.Machine.execLw16 ra rb s
  | .sd16 ra rb => Sys2Proof.Machine.execSd16 ra rb s
  | .sw16 ra rb => Sys2Proof.Machine.execSw16 ra rb s
  | .beqz16 ra off => Sys2Proof.Machine.execBeqz16 ra off s
  | .bnez16 ra off => Sys2Proof.Machine.execBnez16 ra off s
  | .j16 off => Sys2Proof.Machine.execJ16 off s
  | .jr16 ra rb => Sys2Proof.Machine.execJr16 ra rb s
  | .mul16 ra rb => Sys2Proof.Machine.execMul16 ra rb s
  | .cMovi ca imm => Sys2Proof.Machine.execCMovi ca imm s
  | .cMovw ca word => Sys2Proof.Machine.execCMovw ca word s
  | .cAdd ca cb cc i0 imm => Sys2Proof.Machine.execCAdd ca cb cc i0 imm s
  | .cSub ca cb cc i0 imm => Sys2Proof.Machine.execCSub ca cb cc i0 imm s
  | .cAnd ca cb cc i0 imm => Sys2Proof.Machine.execCAnd ca cb cc i0 imm s
  | .cOr ca cb cc i0 imm => Sys2Proof.Machine.execCOr ca cb cc i0 imm s
  | .cShl ca cb cc i0 imm => Sys2Proof.Machine.execCShl ca cb cc i0 imm s
  | .cShr ca cb cc i0 imm => Sys2Proof.Machine.execCShr ca cb cc i0 imm s
  | .cLd ca cb imm => Sys2Proof.Machine.execCLd ca cb imm s
  | .cSt ca cb imm => Sys2Proof.Machine.execCSt ca cb imm s
  | .cBeq ca cb imm => Sys2Proof.Machine.execCBeq ca cb imm s
  | .cBne ca cb imm => Sys2Proof.Machine.execCBne ca cb imm s
  | .cBlt ca cb imm => Sys2Proof.Machine.execCBlt ca cb imm s
  | .cBge ca cb imm => Sys2Proof.Machine.execCBge ca cb imm s
  | .cJmp imm => Sys2Proof.Machine.execCJmp imm s
  | .cCall imm => Sys2Proof.Machine.execCCall imm s
  | .cLoop ca imm => Sys2Proof.Machine.execCLoop ca imm s
  | .cIb ca cb => Sys2Proof.Machine.execCIb ca cb s
  | .cLaunch ca cb ch n cap => Sys2Proof.Machine.execCLaunch ca cb ch n cap s
  | .cLaunchall ca cb ch n cap => Sys2Proof.Machine.execCLaunchall ca cb ch n cap s
  | .cCopy ca hart => Sys2Proof.Machine.execCCopy ca hart s
  | .cWaitsem ca cb cond dec sigq sqv => Sys2Proof.Machine.execCWaitsem ca cb cond dec sigq sqv s
  | .cSigsem ca cb st => Sys2Proof.Machine.execCSigsem ca cb st s
  | .cStamp ca => Sys2Proof.Machine.execCStamp ca s
  | .cIntr vec => Sys2Proof.Machine.execCIntr vec s
  | .cInstall ca cb cc dies => Sys2Proof.Machine.execCInstall ca cb cc dies s
  | .cRebuild ca cc => Sys2Proof.Machine.execCRebuild ca cc s
  | .cDelete ca cc => Sys2Proof.Machine.execCDelete ca cc s
  | .cStrike ca cc => Sys2Proof.Machine.execCStrike ca cc s
  | .cPitch ca cc late => Sys2Proof.Machine.execCPitch ca cc late s
  | .cSave ca cb cc => Sys2Proof.Machine.execCSave ca cb cc s
  | .cRestore ca cb cc => Sys2Proof.Machine.execCRestore ca cb cc s
  | .cHalt ca => Sys2Proof.Machine.execCHalt ca s
  | .endAct => Sys2Proof.Machine.execEndAct s
  | .yieldAct => Sys2Proof.Machine.execYieldAct s
  | .mwait => Sys2Proof.Machine.execMwait s
  | .sret => Sys2Proof.Machine.execSret s
  | .wfe => Sys2Proof.Machine.execWfe s
  | .end16 => Sys2Proof.Machine.execEnd16 s
  | .cNop => Sys2Proof.Machine.execCNop s
  | .cRet => Sys2Proof.Machine.execCRet s
  | .cFence => Sys2Proof.Machine.execCFence s
  | .messageArrival => Sys2Proof.Machine.execMessageArrival s
  | .spillToBufferMove => Sys2Proof.Machine.execSpillToBufferMove s
  | .spillOverflowExtension => Sys2Proof.Machine.execSpillOverflowExtension s
  | .outboundListDrain => Sys2Proof.Machine.execOutboundListDrain s
  | .multicastSlotReturn => Sys2Proof.Machine.execMulticastSlotReturn s
  | .activationStart => Sys2Proof.Machine.execActivationStart s
  | .agePromotion => Sys2Proof.Machine.execAgePromotion s
  | .stealAttempt => Sys2Proof.Machine.execStealAttempt s
  | .turnBudgetExpiry => Sys2Proof.Machine.execTurnBudgetExpiry s
  | .preemptionRequest => Sys2Proof.Machine.execPreemptionRequest s
  | .streamOpen => Sys2Proof.Machine.execStreamOpen s
  | .streamClose => Sys2Proof.Machine.execStreamClose s
  | .streamSlotBudgetExpiry => Sys2Proof.Machine.execStreamSlotBudgetExpiry s
  | .streamRefillRequest => Sys2Proof.Machine.execStreamRefillRequest s
  | .streamRefillReturn => Sys2Proof.Machine.execStreamRefillReturn s
  | .rptInstanceIssue => Sys2Proof.Machine.execRptInstanceIssue s
  | .matrixDispatch => Sys2Proof.Machine.execMatrixDispatch s
  | .matrixInstructionComplete => Sys2Proof.Machine.execMatrixInstructionComplete s
  | .miterIteration => Sys2Proof.Machine.execMiterIteration s
  | .gangJoinComplete => Sys2Proof.Machine.execGangJoinComplete s
  | .gangTimeout => Sys2Proof.Machine.execGangTimeout s
  | .slotTableFrameStart => Sys2Proof.Machine.execSlotTableFrameStart s
  | .counterWaitEnd => Sys2Proof.Machine.execCounterWaitEnd s
  | .postedStoreAck => Sys2Proof.Machine.execPostedStoreAck s
  | .postedStoreLoss => Sys2Proof.Machine.execPostedStoreLoss s
  | .memoryResponse => Sys2Proof.Machine.execMemoryResponse s
  | .descriptorCacheFill => Sys2Proof.Machine.execDescriptorCacheFill s
  | .inboundRemoteAccess => Sys2Proof.Machine.execInboundRemoteAccess s
  | .remoteRefusalReturn => Sys2Proof.Machine.execRemoteRefusalReturn s
  | .fullEmptyWake => Sys2Proof.Machine.execFullEmptyWake s
  | .queueWaitWake => Sys2Proof.Machine.execQueueWaitWake s
  | .barrierArrival => Sys2Proof.Machine.execBarrierArrival s
  | .ecallHandover => Sys2Proof.Machine.execEcallHandover s
  | .engineKick => Sys2Proof.Machine.execEngineKick s
  | .kickAccept => Sys2Proof.Machine.execKickAccept s
  | .engineNop => Sys2Proof.Machine.execEngineNop s
  | .engineCopy => Sys2Proof.Machine.execEngineCopy s
  | .engineReduce => Sys2Proof.Machine.execEngineReduce s
  | .engineGather => Sys2Proof.Machine.execEngineGather s
  | .engineScatter => Sys2Proof.Machine.execEngineScatter s
  | .engineAllreduce => Sys2Proof.Machine.execEngineAllreduce s
  | .engineAllgather => Sys2Proof.Machine.execEngineAllgather s
  | .engineReducescatter => Sys2Proof.Machine.execEngineReducescatter s
  | .reduceGroupComplete => Sys2Proof.Machine.execReduceGroupComplete s
  | .copyKickAnswer => Sys2Proof.Machine.execCopyKickAnswer s
  | .faultBufferFlush => Sys2Proof.Machine.execFaultBufferFlush s
  | .faultServiceBatch => Sys2Proof.Machine.execFaultServiceBatch s
  | .faultRetry => Sys2Proof.Machine.execFaultRetry s
  | .remoteRetryRelay => Sys2Proof.Machine.execRemoteRetryRelay s
  | .heldWriteRelease => Sys2Proof.Machine.execHeldWriteRelease s
  | .pageUnavailable => Sys2Proof.Machine.execPageUnavailable s
  | .migration => Sys2Proof.Machine.execMigration s
  | .migrationAbandon => Sys2Proof.Machine.execMigrationAbandon s
  | .pageShootdownComplete => Sys2Proof.Machine.execPageShootdownComplete s
  | .descriptorUpdate => Sys2Proof.Machine.execDescriptorUpdate s
  | .descriptorShootdownComplete => Sys2Proof.Machine.execDescriptorShootdownComplete s
  | .codePageVerify => Sys2Proof.Machine.execCodePageVerify s
  | .rebuildComplete => Sys2Proof.Machine.execRebuildComplete s
  | .firmwareActivation => Sys2Proof.Machine.execFirmwareActivation s
  | .privilegedCommandComplete => Sys2Proof.Machine.execPrivilegedCommandComplete s
  | .doorbell => Sys2Proof.Machine.execDoorbell s
  | .qrecUpdate => Sys2Proof.Machine.execQrecUpdate s
  | .replicaInvalidate => Sys2Proof.Machine.execReplicaInvalidate s
  | .commandEngineSelect => Sys2Proof.Machine.execCommandEngineSelect s
  | .semaphoreRecheck => Sys2Proof.Machine.execSemaphoreRecheck s
  | .waitReportTimeout => Sys2Proof.Machine.execWaitReportTimeout s
  | .leaseRenewal => Sys2Proof.Machine.execLeaseRenewal s
  | .leaseLapse => Sys2Proof.Machine.execLeaseLapse s
  | .leadTakeover => Sys2Proof.Machine.execLeadTakeover s
  | .hostInstruction => Sys2Proof.Machine.execHostInstruction s
  | .mapQueue => Sys2Proof.Machine.execMapQueue s
  | .unmapQueue => Sys2Proof.Machine.execUnmapQueue s
  | .queueFaultRecovery => Sys2Proof.Machine.execQueueFaultRecovery s
  | .queueResume => Sys2Proof.Machine.execQueueResume s
  | .amaskClear => Sys2Proof.Machine.execAmaskClear s
  | .releaseImage => Sys2Proof.Machine.execReleaseImage s
  | .registerJob => Sys2Proof.Machine.execRegisterJob s
  | .unregisterJob => Sys2Proof.Machine.execUnregisterJob s
  | .createContext => Sys2Proof.Machine.execCreateContext s
  | .killContext => Sys2Proof.Machine.execKillContext s
  | .setSaveLimit => Sys2Proof.Machine.execSetSaveLimit s
  | .writeWatchFilter => Sys2Proof.Machine.execWriteWatchFilter s
  | .writeWatchComparator => Sys2Proof.Machine.execWriteWatchComparator s
  | .writeSlotTable => Sys2Proof.Machine.execWriteSlotTable s
  | .writeAgel => Sys2Proof.Machine.execWriteAgel s
  | .writeDbgctl => Sys2Proof.Machine.execWriteDbgctl s
  | .grantTableWrite => Sys2Proof.Machine.execGrantTableWrite s
  | .cxlKeyInstall => Sys2Proof.Machine.execCxlKeyInstall s
  | .hostMemoryRequest => Sys2Proof.Machine.execHostMemoryRequest s
  | .debugStopRequest => Sys2Proof.Machine.execDebugStopRequest s
  | .stopLands => Sys2Proof.Machine.execStopLands s
  | .debugResume => Sys2Proof.Machine.execDebugResume s
  | .debugStep => Sys2Proof.Machine.execDebugStep s
  | .traceSample => Sys2Proof.Machine.execTraceSample s
  | .saveQuiesceComplete => Sys2Proof.Machine.execSaveQuiesceComplete s
  | .saveWatchdogExpiry => Sys2Proof.Machine.execSaveWatchdogExpiry s
  | .strikeRequest => Sys2Proof.Machine.execStrikeRequest s
  | .strikeHaltComplete => Sys2Proof.Machine.execStrikeHaltComplete s
  | .strikeDrainComplete => Sys2Proof.Machine.execStrikeDrainComplete s
  | .strikeSweepComplete => Sys2Proof.Machine.execStrikeSweepComplete s
  | .sweepPegArrival => Sys2Proof.Machine.execSweepPegArrival s
  | .latePacket => Sys2Proof.Machine.execLatePacket s
  | .memberReport => Sys2Proof.Machine.execMemberReport s
  | .pitchRequest => Sys2Proof.Machine.execPitchRequest s
  | .flitReplay => Sys2Proof.Machine.execFlitReplay s
  | .linkDown => Sys2Proof.Machine.execLinkDown s
  | .undeliverableMessage => Sys2Proof.Machine.execUndeliverableMessage s
  | .undeliverableRefusal => Sys2Proof.Machine.execUndeliverableRefusal s
  | .deviceWarmReset => Sys2Proof.Machine.execDeviceWarmReset s
  | .boot => Sys2Proof.Machine.execBoot s
  | .firmwareReady => Sys2Proof.Machine.execFirmwareReady s
  | .pcieHotReset => Sys2Proof.Machine.execPcieHotReset s
  | .spdmRequest => Sys2Proof.Machine.execSpdmRequest s
  | .raiseSecurityFloor => Sys2Proof.Machine.execRaiseSecurityFloor s
  | .lockInterface => Sys2Proof.Machine.execLockInterface s
  | .startInterface => Sys2Proof.Machine.execStartInterface s
  | .stopInterface => Sys2Proof.Machine.execStopInterface s
  | .configWrite => Sys2Proof.Machine.execConfigWrite s
  | .ideIntegrityFailure => Sys2Proof.Machine.execIdeIntegrityFailure s
  | .setPerformanceState => Sys2Proof.Machine.execSetPerformanceState s
  | .setIdleState => Sys2Proof.Machine.execSetIdleState s
  | .setTripState => Sys2Proof.Machine.execSetTripState s
  | .thermalTrip => Sys2Proof.Machine.execThermalTrip s
  | .uncorrectableError => Sys2Proof.Machine.execUncorrectableError s
  | .correctedErrorReport => Sys2Proof.Machine.execCorrectedErrorReport s
  | .dfcEvent => Sys2Proof.Machine.execDfcEvent s
  | .registerWrite => Sys2Proof.Machine.execRegisterWrite s
  | .leadLeaseExpiry => Sys2Proof.Machine.execLeadLeaseExpiry s
  | .idleStateExit => Sys2Proof.Machine.execIdleStateExit s

end Sys2Proof.Machine
end

