-- ==== Sys2Proof/Machine/Step.lean ====
section
/-! DEFINITION. One step: the turn of the agent that moves next. -/

namespace Sys2Proof.Machine

/-- A slot's turn: its next instruction, or how the turn ends. -/
def slotStep (s : State) (c k : Nat) : Host.Outcome State Fault Refusal :=
  match slotTurn s c k with
  | .ok (i, u) => exec i u
  | .error u => .next u

/-- The clock of a cell: of the slots in the order of R176, the first that is ready to issue has its turn; one that is not ready notes what it waits for. -/
def cellStep (c : Nat) : List Nat → State → Host.Outcome State Fault Refusal
  | [], s => .next s
  | k :: r, s =>
    match slotStep s c k with
    | .next t => if notReady t c k then cellStep c r t else .next t
    | o => o

/-- One step: an instruction of a slot, unless a slot before it in the order of R176 is ready, or of a DFC, a command, a device event, or passing time (DESIGN CHOICE, log
entry 1). -/
def step (s : State) : Host.Outcome State Fault Refusal :=
  match nextTurn s with
  | (.agent (.slot c k), t) => cellStep c (slotOrder t c k) t
  | (.cell c, t) => cellStep c (candidates t c) t
  | (.agent (.dfc d), t) =>
    match dfcTurn t d with
    | .ok (i, u) => exec i u
    | .error u => .next u
  | (.agent _, t) => .next t
  | (.engine d, t) =>
    match engineTurn t d with
    | .ok (i, u) => exec i u
    | .error u => .next u
  | (.event i x, t) => if isEvent i then exec i { t with inp := x, cur := .idle } else .next t
  | (.elapse clk ns, t) => .next (elapse t clk ns)

/-- The state with the given word placed where the next step fetches (DESIGN CHOICE, log entry 16). -/
def State.withFetchWord (s : State) (nbits w : Nat) : State :=
  if 64 ≤ nbits then bootQueue s w
  else match decodeTableWord nbits w with
  | some .sret => bootDfc s (bytesOf 4 w)
  | some .wfe => bootDfc s (bytesOf 4 w)
  | _ => bootSlot s (bytesOf 4 w)

end Sys2Proof.Machine
end

