-- ==== Sys2Proof/Laws/Decode.lean ====
section
/-! SUPPORT. Fields of packed words: what a decoder reads where an encoder has put it. -/

namespace Sys2Proof.Laws

/-- The lowest field of a packed word is its first value. -/
@[simp] theorem field_pack_zero (n v : Nat) (r : List (Nat × Nat)) : field (pack ((n, v) :: r)) 0 n = v % 2 ^ n := by
  simp [field, pack]

/-- A field above the first value is a field of the rest. -/
theorem field_pack_skip (n v lo len : Nat) (r : List (Nat × Nat)) (h : n ≤ lo) :
    field (pack ((n, v) :: r)) lo len = field (pack r) (lo - n) len := by
  obtain ⟨k, rfl⟩ := Nat.exists_eq_add_of_le h
  have p : 0 < 2 ^ n := by positivity
  simp [field, pack, pow_add, ← Nat.div_div_eq_div_mul, Nat.add_mul_div_left _ _ p, Nat.div_eq_of_lt (Nat.mod_lt v p)]

/-- The lowest field of a packed word as a bit vector. -/
@[simp] theorem f_pack_zero {n : Nat} (v : BitVec n) (r : List (Nat × Nat)) (h : n = n) :
    f (n := n) (pack ((n, v.toNat) :: r)) 0 n h = v := by
  simp [f]

/-- A field above the first value, as a bit vector. -/
theorem f_pack_skip {m : Nat} (n v lo len : Nat) (r : List (Nat × Nat)) (h : m = len) (h' : n ≤ lo) :
    f (n := m) (pack ((n, v) :: r)) lo len h = f (pack r) (lo - n) len h := by
  simp [f, field_pack_skip _ _ _ _ _ h']

/-- A field that covers the first value and goes on is that value and a field of the rest. -/
theorem field_pack_span (n v len : Nat) (r : List (Nat × Nat)) (h : n < len) :
    field (pack ((n, v) :: r)) 0 len = v % 2 ^ n + 2 ^ n * field (pack r) 0 (len - n) := by
  obtain ⟨k, rfl⟩ := Nat.exists_eq_add_of_lt h
  have e : n + (k + 1) - n = k + 1 := by omega
  have a : v % 2 ^ n < 2 ^ n := Nat.mod_lt _ (by positivity)
  simp only [field, pack, pow_zero, Nat.div_one, e, Nat.add_assoc, pow_add 2 n (k + 1), Nat.mod_mul, Nat.add_mul_mod_self_left, Nat.mod_mod]
  rw [Nat.add_mul_div_left _ _ (by positivity), Nat.div_eq_of_lt a, Nat.zero_add]

/-- A field inside the first value is a field of that value. -/
theorem field_pack_inside (n v len lo : Nat) (r : List (Nat × Nat)) (h : lo + len ≤ n) :
    field (pack ((n, v) :: r)) lo len = field v lo len := by
  obtain ⟨k, rfl⟩ := Nat.exists_eq_add_of_le h
  simp only [field, pack, pow_add, Nat.mul_assoc]
  rw [← Nat.mod_mul_right_div_self, ← Nat.mod_mul_right_div_self]
  congr 1
  rw [← Nat.mul_assoc, ← Nat.mul_assoc (2 ^ lo) (2 ^ len), Nat.add_mod, Nat.mul_mod_right, Nat.add_zero, Nat.mod_mod, Nat.mod_mul_right_mod]

/-- A packed word has as many bits as its fields. -/
theorem pack_lt (l : List (Nat × Nat)) : pack l < 2 ^ (l.map (·.1)).sum := by
  induction l with
  | nil => simp [pack]
  | cons a r ih =>
    have h : a.2 % 2 ^ a.1 < 2 ^ a.1 := Nat.mod_lt _ (by positivity)
    have e : 2 ^ a.1 * (pack r + 1) ≤ 2 ^ a.1 * 2 ^ (r.map (·.1)).sum := Nat.mul_le_mul_left _ ih
    simp only [pack, List.map_cons, List.sum_cons, pow_add]
    calc _ < 2 ^ a.1 + 2 ^ a.1 * pack r := by omega
      _ ≤ _ := by rw [Nat.mul_add] at e; omega

/-- A packed word followed by another. -/
theorem pack_append (l r : List (Nat × Nat)) : pack (l ++ r) = pack l + 2 ^ (l.map (·.1)).sum * pack r := by
  induction l with
  | nil => simp [pack]
  | cons a t ih => simp [pack, ih, pow_add, Nat.mul_add, Nat.mul_assoc, Nat.add_assoc]

end Sys2Proof.Laws
end

