-- ==== Sys2Proof/Laws/PerInstr.lean ====
section
/-! SUPPORT. The round trip of decoding, instruction by instruction: every well-formed instruction is decoded from the word that the encoding tables give
it. -/

set_option linter.unusedSimpArgs false
set_option Elab.async false

namespace Sys2Proof.Laws

/-- Decoding the encoding of a well-formed instruction gives it back. A device event has no encoding. -/
def RoundTrip.Statement (i : Instr) : Prop := wellFormed i = true → encodeFields i ≠ [] → decodeTableWord (encodeBits i) (encode i) = some i

/-- A 32-bit instruction's round trip, from its packed fields. -/
theorem roundTrip32 (i : Instr) (l : List (Nat × Nat)) (hl : encodeFields i = l) (h1 : field (pack l) 0 1 = 1) (hb : (l.map (·.1)).sum = 32)
    (hd : wellFormed i = true → decode32 (pack l) = .ok i) : RoundTrip.Statement i := by
  intro w _
  have b : encodeBits i = 32 := by simp [encodeBits, hl, hb]
  have o : pack l % 2 = 1 := by simpa [field] using h1
  have lt : pack l % 2 ^ 32 = pack l := Nat.mod_eq_of_lt (hb ▸ pack_lt l)
  have e : encode i = pack l := by simp [encode, hl]
  simp only [b, e]
  show (if parcelLength (pack l) * 8 = 32 then (decodeKreral (pack l)).toOption else none) = some i
  simp only [parcelLength, decodeKreral, o, lt, hd w, if_true, Except.toOption]

/-- A 16-bit instruction's round trip, from its packed fields. -/
theorem roundTrip16 (i : Instr) (l : List (Nat × Nat)) (hl : encodeFields i = l) (h1 : field (pack l) 0 1 = 0) (hb : (l.map (·.1)).sum = 16)
    (hd : wellFormed i = true → decode16 (pack l) = .ok i) : RoundTrip.Statement i := by
  intro w _
  have b : encodeBits i = 16 := by simp [encodeBits, hl, hb]
  have o : pack l % 2 = 0 := by simpa [field] using h1
  have e : encode i = pack l := by simp [encode, hl]
  simp only [b, e]
  show (if parcelLength (pack l) * 8 = 16 then (decodeKreral (pack l)).toOption else none) = some i
  have lt : pack l % 2 ^ 16 = pack l := Nat.mod_eq_of_lt (hb ▸ pack_lt l)
  have q : decodeKreral (pack l) = .ok i := by rw [decodeKreral, if_neg (by omega), lt, hd w]
  simp only [parcelLength, o, q, Except.toOption, if_neg (show ¬ (0 = 1) by decide), if_true]

/-- A command's round trip, from its packed fields. -/
theorem roundTrip64 (i : Instr) (l : List (Nat × Nat)) (hl : encodeFields i = l) (hb : (l.map (·.1)).sum = 64)
    (hd : wellFormed i = true → decodeCommand (pack l) 0 = .ok i) : RoundTrip.Statement i := by
  intro w _
  have b : encodeBits i = 64 := by simp [encodeBits, hl, hb]
  have p : pack l < 2 ^ 64 := hb ▸ pack_lt l
  have e : encode i = pack l := by simp [encode, hl]
  simp only [b, e]
  have d : pack l / 2 ^ 64 % 2 ^ 64 = 0 := by rw [Nat.div_eq_of_lt p, Nat.zero_mod]
  have m : pack l % 2 ^ 64 = pack l := Nat.mod_eq_of_lt p
  show (decodeCommand (pack l % 2 ^ 64) (pack l / 2 ^ 64 % 2 ^ 64)).toOption = some i
  rw [d, m, hd w, Except.toOption]

/-- The round trip of a command followed by a literal word, from its packed fields. -/
theorem roundTrip128 (i : Instr) (l : List (Nat × Nat)) (v : BitVec 64) (hl : encodeFields i = l ++ [(64, v.toNat)]) (hb : (l.map (·.1)).sum = 64)
    (hd : decodeCommand (pack l) v.toNat = .ok i) : RoundTrip.Statement i := by
  intro w _
  have b : encodeBits i = 128 := by simp [encodeBits, hl, hb]
  have p : pack l < 2 ^ 64 := hb ▸ pack_lt l
  have e : encode i = pack l + 2 ^ 64 * v.toNat := by
    simp [encode, hl, pack_append, hb, pack]; exact v.isLt
  have m : (pack l + 2 ^ 64 * v.toNat) % 2 ^ 64 = pack l := by rw [Nat.add_mul_mod_self_left, Nat.mod_eq_of_lt p]
  have d : (pack l + 2 ^ 64 * v.toNat) / 2 ^ 64 % 2 ^ 64 = v.toNat := by
    rw [Nat.add_mul_div_left _ _ (by positivity), Nat.div_eq_of_lt p, Nat.zero_add, Nat.mod_eq_of_lt v.isLt]
  rw [b, e, decodeTableWord, m, d, hd]
  rfl

/-- The major field of a 32-bit instruction. -/
theorem field_maj (v : Nat) (r : List (Nat × Nat)) : field (pack ((1, 1) :: (7, v) :: r)) 1 7 = v % 2 ^ 7 :=
  (field_pack_skip 1 1 1 7 _ (by decide)).trans (field_pack_zero 7 v r)

/-- A device event has no encoding. -/
theorem roundTripEvent (i : Instr) (h : encodeFields i = []) : RoundTrip.Statement i := fun _ n => absurd h n

theorem decode32_00 (w : Nat) (h : field w 1 7 = 0x00) : decode32 w = (decodeMaj00 w) := by rw [decode32, h]; rfl
theorem decode32_01 (w : Nat) (h : field w 1 7 = 0x01) : decode32 w = (decodeMaj01 w) := by rw [decode32, h]; rfl
theorem decode32_02 (w : Nat) (h : field w 1 7 = 0x02) : decode32 w = (decodeMaj02 w) := by rw [decode32, h]; rfl
theorem decode32_03 (w : Nat) (h : field w 1 7 = 0x03) : decode32 w = (decodeMaj03 w) := by rw [decode32, h]; rfl
theorem decode32_04 (w : Nat) (h : field w 1 7 = 0x04) : decode32 w = (decodeMaj04 w) := by rw [decode32, h]; rfl
theorem decode32_05 (w : Nat) (h : field w 1 7 = 0x05) : decode32 w = (.ok (.addi (f w 8 5) (f w 13 5) (f w 18 14))) := by rw [decode32, h]; rfl
theorem decode32_06 (w : Nat) (h : field w 1 7 = 0x06) : decode32 w = (.ok (.andi (f w 8 5) (f w 13 5) (f w 18 14))) := by rw [decode32, h]; rfl
theorem decode32_07 (w : Nat) (h : field w 1 7 = 0x07) : decode32 w = (.ok (.ori (f w 8 5) (f w 13 5) (f w 18 14))) := by rw [decode32, h]; rfl
theorem decode32_08 (w : Nat) (h : field w 1 7 = 0x08) : decode32 w = (.ok (.xori (f w 8 5) (f w 13 5) (f w 18 14))) := by rw [decode32, h]; rfl
theorem decode32_09 (w : Nat) (h : field w 1 7 = 0x09) : decode32 w = (.ok (.slti (f w 8 5) (f w 13 5) (f w 18 14))) := by rw [decode32, h]; rfl
theorem decode32_0a (w : Nat) (h : field w 1 7 = 0x0a) : decode32 w = (mbz [field w 24 8] (.slli (f w 8 5) (f w 13 5) (f w 18 6))) := by rw [decode32, h]; rfl
theorem decode32_0b (w : Nat) (h : field w 1 7 = 0x0b) : decode32 w = (mbz [field w 24 8] (.srli (f w 8 5) (f w 13 5) (f w 18 6))) := by rw [decode32, h]; rfl
theorem decode32_0c (w : Nat) (h : field w 1 7 = 0x0c) : decode32 w = (mbz [field w 24 8] (.srai (f w 8 5) (f w 13 5) (f w 18 6))) := by rw [decode32, h]; rfl
theorem decode32_0d (w : Nat) (h : field w 1 7 = 0x0d) : decode32 w = (.ok (.lui (f w 8 5) (BitVec.ofNat 19 (field w 13 5 * 2 ^ 14 + field w 18 14)))) := by rw [decode32, h]; rfl
theorem decode32_0e (w : Nat) (h : field w 1 7 = 0x0e) : decode32 w = (.ok (.auic (f w 8 5) (f w 13 5) (f w 18 12) (f w 30 2))) := by rw [decode32, h]; rfl
theorem decode32_10 (w : Nat) (h : field w 1 7 = 0x10) : decode32 w = (decodeMaj10 w) := by rw [decode32, h]; rfl
theorem decode32_11 (w : Nat) (h : field w 1 7 = 0x11) : decode32 w = (.ok (.j (f w 8 24))) := by rw [decode32, h]; rfl
theorem decode32_12 (w : Nat) (h : field w 1 7 = 0x12) : decode32 w = (.ok (.jal (f w 8 24))) := by rw [decode32, h]; rfl
theorem decode32_13 (w : Nat) (h : field w 1 7 = 0x13) : decode32 w = (.ok (.jalr (f w 8 5) (f w 13 5) (f w 18 14))) := by rw [decode32, h]; rfl
theorem decode32_14 (w : Nat) (h : field w 1 7 = 0x14) : decode32 w = (.ok (.callx (f w 8 5) (f w 13 5) (f w 18 14))) := by rw [decode32, h]; rfl
theorem decode32_15 (w : Nat) (h : field w 1 7 = 0x15) : decode32 w = (decodeMaj15 w) := by rw [decode32, h]; rfl
theorem decode32_18 (w : Nat) (h : field w 1 7 = 0x18) : decode32 w = (.ok (.lb (f w 8 5) (f w 13 5) (f w 18 2) (f w 20 3) (f w 23 2) (f w 25 7))) := by rw [decode32, h]; rfl
theorem decode32_19 (w : Nat) (h : field w 1 7 = 0x19) : decode32 w = (.ok (.lh (f w 8 5) (f w 13 5) (f w 18 2) (f w 20 3) (f w 23 2) (f w 25 7))) := by rw [decode32, h]; rfl
theorem decode32_1a (w : Nat) (h : field w 1 7 = 0x1a) : decode32 w = (.ok (.lw (f w 8 5) (f w 13 5) (f w 18 2) (f w 20 3) (f w 23 2) (f w 25 7))) := by rw [decode32, h]; rfl
theorem decode32_1b (w : Nat) (h : field w 1 7 = 0x1b) : decode32 w = (.ok (.ld (f w 8 5) (f w 13 5) (f w 18 2) (f w 20 3) (f w 23 2) (f w 25 7))) := by rw [decode32, h]; rfl
theorem decode32_1c (w : Nat) (h : field w 1 7 = 0x1c) : decode32 w = (.ok (.lbu (f w 8 5) (f w 13 5) (f w 18 2) (f w 20 3) (f w 23 2) (f w 25 7))) := by rw [decode32, h]; rfl
theorem decode32_1d (w : Nat) (h : field w 1 7 = 0x1d) : decode32 w = (.ok (.lhu (f w 8 5) (f w 13 5) (f w 18 2) (f w 20 3) (f w 23 2) (f w 25 7))) := by rw [decode32, h]; rfl
theorem decode32_1e (w : Nat) (h : field w 1 7 = 0x1e) : decode32 w = (.ok (.lwu (f w 8 5) (f w 13 5) (f w 18 2) (f w 20 3) (f w 23 2) (f w 25 7))) := by rw [decode32, h]; rfl
theorem decode32_1f (w : Nat) (h : field w 1 7 = 0x1f) : decode32 w = (.ok (.ldcn (f w 8 5) (f w 13 5) (f w 18 2) (f w 20 3) (f w 23 2) (f w 25 7))) := by rw [decode32, h]; rfl
theorem decode32_20 (w : Nat) (h : field w 1 7 = 0x20) : decode32 w = (.ok (.sb (f w 8 5) (f w 13 5) (f w 18 2) (f w 20 3) (f w 23 2) (f w 25 7))) := by rw [decode32, h]; rfl
theorem decode32_21 (w : Nat) (h : field w 1 7 = 0x21) : decode32 w = (.ok (.sh (f w 8 5) (f w 13 5) (f w 18 2) (f w 20 3) (f w 23 2) (f w 25 7))) := by rw [decode32, h]; rfl
theorem decode32_22 (w : Nat) (h : field w 1 7 = 0x22) : decode32 w = (.ok (.sw (f w 8 5) (f w 13 5) (f w 18 2) (f w 20 3) (f w 23 2) (f w 25 7))) := by rw [decode32, h]; rfl
theorem decode32_23 (w : Nat) (h : field w 1 7 = 0x23) : decode32 w = (.ok (.sd (f w 8 5) (f w 13 5) (f w 18 2) (f w 20 3) (f w 23 2) (f w 25 7))) := by rw [decode32, h]; rfl
theorem decode32_24 (w : Nat) (h : field w 1 7 = 0x24) : decode32 w = (decodeMaj24 w) := by rw [decode32, h]; rfl
theorem decode32_25 (w : Nat) (h : field w 1 7 = 0x25) : decode32 w = (decodeMaj25 w) := by rw [decode32, h]; rfl
theorem decode32_26 (w : Nat) (h : field w 1 7 = 0x26) : decode32 w = (decodeMaj26 w) := by rw [decode32, h]; rfl
theorem decode32_27 (w : Nat) (h : field w 1 7 = 0x27) : decode32 w = (decodeMaj27 w) := by rw [decode32, h]; rfl
theorem decode32_28 (w : Nat) (h : field w 1 7 = 0x28) : decode32 w = (decodeMaj28 w) := by rw [decode32, h]; rfl
theorem decode32_29 (w : Nat) (h : field w 1 7 = 0x29) : decode32 w = (decodeMaj29 w) := by rw [decode32, h]; rfl
theorem decode32_2a (w : Nat) (h : field w 1 7 = 0x2a) : decode32 w = (decodeMaj2a w) := by rw [decode32, h]; rfl
theorem decode32_2b (w : Nat) (h : field w 1 7 = 0x2b) : decode32 w = (decodeMaj2b w) := by rw [decode32, h]; rfl
theorem decode32_2c (w : Nat) (h : field w 1 7 = 0x2c) : decode32 w = (decodeMaj2c w) := by rw [decode32, h]; rfl
theorem decode32_2d (w : Nat) (h : field w 1 7 = 0x2d) : decode32 w = (decodeMaj2d w) := by rw [decode32, h]; rfl
theorem decode32_30 (w : Nat) (h : field w 1 7 = 0x30) : decode32 w = (.ok (.vld (f w 8 5) (f w 13 5) (f w 18 2) (f w 20 3) (f w 23 2) (f w 25 7))) := by rw [decode32, h]; rfl
theorem decode32_31 (w : Nat) (h : field w 1 7 = 0x31) : decode32 w = (.ok (.vst (f w 8 5) (f w 13 5) (f w 18 2) (f w 20 3) (f w 23 2) (f w 25 7))) := by rw [decode32, h]; rfl
theorem decode32_32 (w : Nat) (h : field w 1 7 = 0x32) : decode32 w = (decodeMaj32 w) := by rw [decode32, h]; rfl
theorem decode32_33 (w : Nat) (h : field w 1 7 = 0x33) : decode32 w = (decodeMaj33 w) := by rw [decode32, h]; rfl
theorem decode32_34 (w : Nat) (h : field w 1 7 = 0x34) : decode32 w = (decodeMaj34 w) := by rw [decode32, h]; rfl
theorem decode32_35 (w : Nat) (h : field w 1 7 = 0x35) : decode32 w = (decodeMaj35 w) := by rw [decode32, h]; rfl
theorem decode32_36 (w : Nat) (h : field w 1 7 = 0x36) : decode32 w = (decodeMaj36 w) := by rw [decode32, h]; rfl
theorem decode32_37 (w : Nat) (h : field w 1 7 = 0x37) : decode32 w = (if field w 26 3 = field w 29 3 then .error 1 else mbz [field w 18 5, field w 25 1] (.vcvt (f w 8 5) (f w 13 5) (f w 23 2) (f w 26 6))) := by rw [decode32, h]; rfl
theorem decode32_38 (w : Nat) (h : field w 1 7 = 0x38) : decode32 w = (decodeMaj38 w) := by rw [decode32, h]; rfl
theorem decode32_39 (w : Nat) (h : field w 1 7 = 0x39) : decode32 w = (decodeMaj39 w) := by rw [decode32, h]; rfl
theorem decode32_50 (w : Nat) (h : field w 1 7 = 0x50) : decode32 w = (decodeMaj50 w) := by rw [decode32, h]; rfl
theorem decode32_51 (w : Nat) (h : field w 1 7 = 0x51) : decode32 w = (decodeMaj51 w) := by rw [decode32, h]; rfl
theorem decode32_52 (w : Nat) (h : field w 1 7 = 0x52) : decode32 w = (decodeMaj52 w) := by rw [decode32, h]; rfl
theorem decode32_60 (w : Nat) (h : field w 1 7 = 0x60) : decode32 w = (decodeMaj60 w) := by rw [decode32, h]; rfl
theorem decode32_61 (w : Nat) (h : field w 1 7 = 0x61) : decode32 w = (decodeMaj61 w) := by rw [decode32, h]; rfl
theorem decode32_67 (w : Nat) (h : field w 1 7 = 0x67) : decode32 w = (decodeMaj67 w) := by rw [decode32, h]; rfl

theorem RoundTrip.add (rd : BitVec 5) (ra : BitVec 5) (rb : BitVec 5) : Statement (.add rd ra rb) := by
  refine roundTrip32 _ [(1, 1), (7, 0), (5, rd.toNat), (5, ra.toNat), (5, rb.toNat), (9, 0)] rfl (field_pack_zero _ _ _) rfl fun h => ?_
  refine (decode32_00 _ (field_maj _ _)).trans ?_
  simp only [decodeMaj00, field_pack_skip, f_pack_skip, field_pack_zero, f_pack_zero, Nat.reduceLeDiff, Nat.reduceSub, Nat.reducePow, Nat.reduceMod]

theorem RoundTrip.sub (rd : BitVec 5) (ra : BitVec 5) (rb : BitVec 5) : Statement (.sub rd ra rb) := by
  refine roundTrip32 _ [(1, 1), (7, 0), (5, rd.toNat), (5, ra.toNat), (5, rb.toNat), (9, 1)] rfl (field_pack_zero _ _ _) rfl fun h => ?_
  refine (decode32_00 _ (field_maj _ _)).trans ?_
  simp only [decodeMaj00, field_pack_skip, f_pack_skip, field_pack_zero, f_pack_zero, Nat.reduceLeDiff, Nat.reduceSub, Nat.reducePow, Nat.reduceMod]

theorem RoundTrip.and (rd : BitVec 5) (ra : BitVec 5) (rb : BitVec 5) : Statement (.and rd ra rb) := by
  refine roundTrip32 _ [(1, 1), (7, 0), (5, rd.toNat), (5, ra.toNat), (5, rb.toNat), (9, 2)] rfl (field_pack_zero _ _ _) rfl fun h => ?_
  refine (decode32_00 _ (field_maj _ _)).trans ?_
  simp only [decodeMaj00, field_pack_skip, f_pack_skip, field_pack_zero, f_pack_zero, Nat.reduceLeDiff, Nat.reduceSub, Nat.reducePow, Nat.reduceMod]

theorem RoundTrip.or (rd : BitVec 5) (ra : BitVec 5) (rb : BitVec 5) : Statement (.or rd ra rb) := by
  refine roundTrip32 _ [(1, 1), (7, 0), (5, rd.toNat), (5, ra.toNat), (5, rb.toNat), (9, 3)] rfl (field_pack_zero _ _ _) rfl fun h => ?_
  refine (decode32_00 _ (field_maj _ _)).trans ?_
  simp only [decodeMaj00, field_pack_skip, f_pack_skip, field_pack_zero, f_pack_zero, Nat.reduceLeDiff, Nat.reduceSub, Nat.reducePow, Nat.reduceMod]

theorem RoundTrip.xor (rd : BitVec 5) (ra : BitVec 5) (rb : BitVec 5) : Statement (.xor rd ra rb) := by
  refine roundTrip32 _ [(1, 1), (7, 0), (5, rd.toNat), (5, ra.toNat), (5, rb.toNat), (9, 4)] rfl (field_pack_zero _ _ _) rfl fun h => ?_
  refine (decode32_00 _ (field_maj _ _)).trans ?_
  simp only [decodeMaj00, field_pack_skip, f_pack_skip, field_pack_zero, f_pack_zero, Nat.reduceLeDiff, Nat.reduceSub, Nat.reducePow, Nat.reduceMod]

theorem RoundTrip.sll (rd : BitVec 5) (ra : BitVec 5) (rb : BitVec 5) : Statement (.sll rd ra rb) := by
  refine roundTrip32 _ [(1, 1), (7, 0), (5, rd.toNat), (5, ra.toNat), (5, rb.toNat), (9, 5)] rfl (field_pack_zero _ _ _) rfl fun h => ?_
  refine (decode32_00 _ (field_maj _ _)).trans ?_
  simp only [decodeMaj00, field_pack_skip, f_pack_skip, field_pack_zero, f_pack_zero, Nat.reduceLeDiff, Nat.reduceSub, Nat.reducePow, Nat.reduceMod]

theorem RoundTrip.srl (rd : BitVec 5) (ra : BitVec 5) (rb : BitVec 5) : Statement (.srl rd ra rb) := by
  refine roundTrip32 _ [(1, 1), (7, 0), (5, rd.toNat), (5, ra.toNat), (5, rb.toNat), (9, 6)] rfl (field_pack_zero _ _ _) rfl fun h => ?_
  refine (decode32_00 _ (field_maj _ _)).trans ?_
  simp only [decodeMaj00, field_pack_skip, f_pack_skip, field_pack_zero, f_pack_zero, Nat.reduceLeDiff, Nat.reduceSub, Nat.reducePow, Nat.reduceMod]

theorem RoundTrip.sra (rd : BitVec 5) (ra : BitVec 5) (rb : BitVec 5) : Statement (.sra rd ra rb) := by
  refine roundTrip32 _ [(1, 1), (7, 0), (5, rd.toNat), (5, ra.toNat), (5, rb.toNat), (9, 7)] rfl (field_pack_zero _ _ _) rfl fun h => ?_
  refine (decode32_00 _ (field_maj _ _)).trans ?_
  simp only [decodeMaj00, field_pack_skip, f_pack_skip, field_pack_zero, f_pack_zero, Nat.reduceLeDiff, Nat.reduceSub, Nat.reducePow, Nat.reduceMod]

theorem RoundTrip.min (rd : BitVec 5) (ra : BitVec 5) (rb : BitVec 5) : Statement (.min rd ra rb) := by
  refine roundTrip32 _ [(1, 1), (7, 1), (5, rd.toNat), (5, ra.toNat), (5, rb.toNat), (9, 0)] rfl (field_pack_zero _ _ _) rfl fun h => ?_
  refine (decode32_01 _ (field_maj _ _)).trans ?_
  simp only [decodeMaj01, field_pack_skip, f_pack_skip, field_pack_zero, f_pack_zero, Nat.reduceLeDiff, Nat.reduceSub, Nat.reducePow, Nat.reduceMod]

theorem RoundTrip.max (rd : BitVec 5) (ra : BitVec 5) (rb : BitVec 5) : Statement (.max rd ra rb) := by
  refine roundTrip32 _ [(1, 1), (7, 1), (5, rd.toNat), (5, ra.toNat), (5, rb.toNat), (9, 1)] rfl (field_pack_zero _ _ _) rfl fun h => ?_
  refine (decode32_01 _ (field_maj _ _)).trans ?_
  simp only [decodeMaj01, field_pack_skip, f_pack_skip, field_pack_zero, f_pack_zero, Nat.reduceLeDiff, Nat.reduceSub, Nat.reducePow, Nat.reduceMod]

theorem RoundTrip.minu (rd : BitVec 5) (ra : BitVec 5) (rb : BitVec 5) : Statement (.minu rd ra rb) := by
  refine roundTrip32 _ [(1, 1), (7, 1), (5, rd.toNat), (5, ra.toNat), (5, rb.toNat), (9, 2)] rfl (field_pack_zero _ _ _) rfl fun h => ?_
  refine (decode32_01 _ (field_maj _ _)).trans ?_
  simp only [decodeMaj01, field_pack_skip, f_pack_skip, field_pack_zero, f_pack_zero, Nat.reduceLeDiff, Nat.reduceSub, Nat.reducePow, Nat.reduceMod]

theorem RoundTrip.maxu (rd : BitVec 5) (ra : BitVec 5) (rb : BitVec 5) : Statement (.maxu rd ra rb) := by
  refine roundTrip32 _ [(1, 1), (7, 1), (5, rd.toNat), (5, ra.toNat), (5, rb.toNat), (9, 3)] rfl (field_pack_zero _ _ _) rfl fun h => ?_
  refine (decode32_01 _ (field_maj _ _)).trans ?_
  simp only [decodeMaj01, field_pack_skip, f_pack_skip, field_pack_zero, f_pack_zero, Nat.reduceLeDiff, Nat.reduceSub, Nat.reducePow, Nat.reduceMod]

theorem RoundTrip.slt (rd : BitVec 5) (ra : BitVec 5) (rb : BitVec 5) : Statement (.slt rd ra rb) := by
  refine roundTrip32 _ [(1, 1), (7, 1), (5, rd.toNat), (5, ra.toNat), (5, rb.toNat), (9, 4)] rfl (field_pack_zero _ _ _) rfl fun h => ?_
  refine (decode32_01 _ (field_maj _ _)).trans ?_
  simp only [decodeMaj01, field_pack_skip, f_pack_skip, field_pack_zero, f_pack_zero, Nat.reduceLeDiff, Nat.reduceSub, Nat.reducePow, Nat.reduceMod]

theorem RoundTrip.sltu (rd : BitVec 5) (ra : BitVec 5) (rb : BitVec 5) : Statement (.sltu rd ra rb) := by
  refine roundTrip32 _ [(1, 1), (7, 1), (5, rd.toNat), (5, ra.toNat), (5, rb.toNat), (9, 5)] rfl (field_pack_zero _ _ _) rfl fun h => ?_
  refine (decode32_01 _ (field_maj _ _)).trans ?_
  simp only [decodeMaj01, field_pack_skip, f_pack_skip, field_pack_zero, f_pack_zero, Nat.reduceLeDiff, Nat.reduceSub, Nat.reducePow, Nat.reduceMod]

theorem RoundTrip.mul (rd : BitVec 5) (ra : BitVec 5) (rb : BitVec 5) : Statement (.mul rd ra rb) := by
  refine roundTrip32 _ [(1, 1), (7, 2), (5, rd.toNat), (5, ra.toNat), (5, rb.toNat), (9, 0)] rfl (field_pack_zero _ _ _) rfl fun h => ?_
  refine (decode32_02 _ (field_maj _ _)).trans ?_
  simp only [decodeMaj02, field_pack_skip, f_pack_skip, field_pack_zero, f_pack_zero, Nat.reduceLeDiff, Nat.reduceSub, Nat.reducePow, Nat.reduceMod]

theorem RoundTrip.mulh (rd : BitVec 5) (ra : BitVec 5) (rb : BitVec 5) : Statement (.mulh rd ra rb) := by
  refine roundTrip32 _ [(1, 1), (7, 2), (5, rd.toNat), (5, ra.toNat), (5, rb.toNat), (9, 1)] rfl (field_pack_zero _ _ _) rfl fun h => ?_
  refine (decode32_02 _ (field_maj _ _)).trans ?_
  simp only [decodeMaj02, field_pack_skip, f_pack_skip, field_pack_zero, f_pack_zero, Nat.reduceLeDiff, Nat.reduceSub, Nat.reducePow, Nat.reduceMod]

theorem RoundTrip.mulhu (rd : BitVec 5) (ra : BitVec 5) (rb : BitVec 5) : Statement (.mulhu rd ra rb) := by
  refine roundTrip32 _ [(1, 1), (7, 2), (5, rd.toNat), (5, ra.toNat), (5, rb.toNat), (9, 2)] rfl (field_pack_zero _ _ _) rfl fun h => ?_
  refine (decode32_02 _ (field_maj _ _)).trans ?_
  simp only [decodeMaj02, field_pack_skip, f_pack_skip, field_pack_zero, f_pack_zero, Nat.reduceLeDiff, Nat.reduceSub, Nat.reducePow, Nat.reduceMod]

theorem RoundTrip.div (rd : BitVec 5) (ra : BitVec 5) (rb : BitVec 5) : Statement (.div rd ra rb) := by
  refine roundTrip32 _ [(1, 1), (7, 2), (5, rd.toNat), (5, ra.toNat), (5, rb.toNat), (9, 3)] rfl (field_pack_zero _ _ _) rfl fun h => ?_
  refine (decode32_02 _ (field_maj _ _)).trans ?_
  simp only [decodeMaj02, field_pack_skip, f_pack_skip, field_pack_zero, f_pack_zero, Nat.reduceLeDiff, Nat.reduceSub, Nat.reducePow, Nat.reduceMod]

theorem RoundTrip.divu (rd : BitVec 5) (ra : BitVec 5) (rb : BitVec 5) : Statement (.divu rd ra rb) := by
  refine roundTrip32 _ [(1, 1), (7, 2), (5, rd.toNat), (5, ra.toNat), (5, rb.toNat), (9, 4)] rfl (field_pack_zero _ _ _) rfl fun h => ?_
  refine (decode32_02 _ (field_maj _ _)).trans ?_
  simp only [decodeMaj02, field_pack_skip, f_pack_skip, field_pack_zero, f_pack_zero, Nat.reduceLeDiff, Nat.reduceSub, Nat.reducePow, Nat.reduceMod]

theorem RoundTrip.rem (rd : BitVec 5) (ra : BitVec 5) (rb : BitVec 5) : Statement (.rem rd ra rb) := by
  refine roundTrip32 _ [(1, 1), (7, 2), (5, rd.toNat), (5, ra.toNat), (5, rb.toNat), (9, 5)] rfl (field_pack_zero _ _ _) rfl fun h => ?_
  refine (decode32_02 _ (field_maj _ _)).trans ?_
  simp only [decodeMaj02, field_pack_skip, f_pack_skip, field_pack_zero, f_pack_zero, Nat.reduceLeDiff, Nat.reduceSub, Nat.reducePow, Nat.reduceMod]

theorem RoundTrip.remu (rd : BitVec 5) (ra : BitVec 5) (rb : BitVec 5) : Statement (.remu rd ra rb) := by
  refine roundTrip32 _ [(1, 1), (7, 2), (5, rd.toNat), (5, ra.toNat), (5, rb.toNat), (9, 6)] rfl (field_pack_zero _ _ _) rfl fun h => ?_
  refine (decode32_02 _ (field_maj _ _)).trans ?_
  simp only [decodeMaj02, field_pack_skip, f_pack_skip, field_pack_zero, f_pack_zero, Nat.reduceLeDiff, Nat.reduceSub, Nat.reducePow, Nat.reduceMod]

theorem RoundTrip.clz (rd : BitVec 5) (ra : BitVec 5) : Statement (.clz rd ra) := by
  refine roundTrip32 _ [(1, 1), (7, 3), (5, rd.toNat), (5, ra.toNat), (5, 0), (9, 0)] rfl (field_pack_zero _ _ _) rfl fun h => ?_
  refine (decode32_03 _ (field_maj _ _)).trans ?_
  simp only [decodeMaj03, mbz, field_pack_skip, f_pack_skip, field_pack_zero, f_pack_zero, Nat.reduceLeDiff, Nat.reduceSub, Nat.reducePow, Nat.reduceMod, List.all_cons, List.all_nil, Nat.zero_mod, BEq.rfl, Bool.and_self, if_true]

theorem RoundTrip.ctz (rd : BitVec 5) (ra : BitVec 5) : Statement (.ctz rd ra) := by
  refine roundTrip32 _ [(1, 1), (7, 3), (5, rd.toNat), (5, ra.toNat), (5, 0), (9, 1)] rfl (field_pack_zero _ _ _) rfl fun h => ?_
  refine (decode32_03 _ (field_maj _ _)).trans ?_
  simp only [decodeMaj03, mbz, field_pack_skip, f_pack_skip, field_pack_zero, f_pack_zero, Nat.reduceLeDiff, Nat.reduceSub, Nat.reducePow, Nat.reduceMod, List.all_cons, List.all_nil, Nat.zero_mod, BEq.rfl, Bool.and_self, if_true]

theorem RoundTrip.popc (rd : BitVec 5) (ra : BitVec 5) : Statement (.popc rd ra) := by
  refine roundTrip32 _ [(1, 1), (7, 3), (5, rd.toNat), (5, ra.toNat), (5, 0), (9, 2)] rfl (field_pack_zero _ _ _) rfl fun h => ?_
  refine (decode32_03 _ (field_maj _ _)).trans ?_
  simp only [decodeMaj03, mbz, field_pack_skip, f_pack_skip, field_pack_zero, f_pack_zero, Nat.reduceLeDiff, Nat.reduceSub, Nat.reducePow, Nat.reduceMod, List.all_cons, List.all_nil, Nat.zero_mod, BEq.rfl, Bool.and_self, if_true]

theorem RoundTrip.sext (rd : BitVec 5) (ra : BitVec 5) (rb : BitVec 5) : Statement (.sext rd ra rb) := by
  refine roundTrip32 _ [(1, 1), (7, 3), (5, rd.toNat), (5, ra.toNat), (5, rb.toNat), (9, 3)] rfl (field_pack_zero _ _ _) rfl fun h => ?_
  refine (decode32_03 _ (field_maj _ _)).trans ?_
  simp only [decodeMaj03, field_pack_skip, f_pack_skip, field_pack_zero, f_pack_zero, Nat.reduceLeDiff, Nat.reduceSub, Nat.reducePow, Nat.reduceMod]

theorem RoundTrip.zext (rd : BitVec 5) (ra : BitVec 5) (rb : BitVec 5) : Statement (.zext rd ra rb) := by
  refine roundTrip32 _ [(1, 1), (7, 3), (5, rd.toNat), (5, ra.toNat), (5, rb.toNat), (9, 4)] rfl (field_pack_zero _ _ _) rfl fun h => ?_
  refine (decode32_03 _ (field_maj _ _)).trans ?_
  simp only [decodeMaj03, field_pack_skip, f_pack_skip, field_pack_zero, f_pack_zero, Nat.reduceLeDiff, Nat.reduceSub, Nat.reducePow, Nat.reduceMod]

theorem RoundTrip.oadd (rd : BitVec 5) (ra : BitVec 5) (rb : BitVec 5) : Statement (.oadd rd ra rb) := by
  refine roundTrip32 _ [(1, 1), (7, 4), (5, rd.toNat), (5, ra.toNat), (5, rb.toNat), (9, 0)] rfl (field_pack_zero _ _ _) rfl fun h => ?_
  refine (decode32_04 _ (field_maj _ _)).trans ?_
  simp only [decodeMaj04, field_pack_skip, f_pack_skip, field_pack_zero, f_pack_zero, Nat.reduceLeDiff, Nat.reduceSub, Nat.reducePow, Nat.reduceMod]

theorem RoundTrip.oslot (rd : BitVec 5) (ra : BitVec 5) : Statement (.oslot rd ra) := by
  refine roundTrip32 _ [(1, 1), (7, 4), (5, rd.toNat), (5, ra.toNat), (5, 0), (9, 1)] rfl (field_pack_zero _ _ _) rfl fun h => ?_
  refine (decode32_04 _ (field_maj _ _)).trans ?_
  simp only [decodeMaj04, mbz, field_pack_skip, f_pack_skip, field_pack_zero, f_pack_zero, Nat.reduceLeDiff, Nat.reduceSub, Nat.reducePow, Nat.reduceMod, List.all_cons, List.all_nil, Nat.zero_mod, BEq.rfl, Bool.and_self, if_true]

theorem RoundTrip.ochk (rd : BitVec 5) (ra : BitVec 5) (rb : BitVec 5) : Statement (.ochk rd ra rb) := by
  refine roundTrip32 _ [(1, 1), (7, 4), (5, rd.toNat), (5, ra.toNat), (5, rb.toNat), (9, 2)] rfl (field_pack_zero _ _ _) rfl fun h => ?_
  refine (decode32_04 _ (field_maj _ _)).trans ?_
  simp only [decodeMaj04, field_pack_skip, f_pack_skip, field_pack_zero, f_pack_zero, Nat.reduceLeDiff, Nat.reduceSub, Nat.reducePow, Nat.reduceMod]

theorem RoundTrip.omake (rd : BitVec 5) (ra : BitVec 5) (rb : BitVec 5) : Statement (.omake rd ra rb) := by
  refine roundTrip32 _ [(1, 1), (7, 4), (5, rd.toNat), (5, ra.toNat), (5, rb.toNat), (9, 3)] rfl (field_pack_zero _ _ _) rfl fun h => ?_
  refine (decode32_04 _ (field_maj _ _)).trans ?_
  simp only [decodeMaj04, field_pack_skip, f_pack_skip, field_pack_zero, f_pack_zero, Nat.reduceLeDiff, Nat.reduceSub, Nat.reducePow, Nat.reduceMod]

theorem RoundTrip.pack2 (rd : BitVec 5) (ra : BitVec 5) (rb : BitVec 5) : Statement (.pack2 rd ra rb) := by
  refine roundTrip32 _ [(1, 1), (7, 4), (5, rd.toNat), (5, ra.toNat), (5, rb.toNat), (9, 4)] rfl (field_pack_zero _ _ _) rfl fun h => ?_
  refine (decode32_04 _ (field_maj _ _)).trans ?_
  simp only [decodeMaj04, field_pack_skip, f_pack_skip, field_pack_zero, f_pack_zero, Nat.reduceLeDiff, Nat.reduceSub, Nat.reducePow, Nat.reduceMod]

theorem RoundTrip.pack4 (rd : BitVec 5) (ra : BitVec 5) (rb : BitVec 5) : Statement (.pack4 rd ra rb) := by
  refine roundTrip32 _ [(1, 1), (7, 4), (5, rd.toNat), (5, ra.toNat), (5, rb.toNat), (9, 5)] rfl (field_pack_zero _ _ _) rfl fun h => ?_
  refine (decode32_04 _ (field_maj _ _)).trans ?_
  simp only [decodeMaj04, field_pack_skip, f_pack_skip, field_pack_zero, f_pack_zero, Nat.reduceLeDiff, Nat.reduceSub, Nat.reducePow, Nat.reduceMod]

theorem RoundTrip.addi (rd : BitVec 5) (ra : BitVec 5) (imm : BitVec 14) : Statement (.addi rd ra imm) := by
  refine roundTrip32 _ [(1, 1), (7, 5), (5, rd.toNat), (5, ra.toNat), (14, imm.toNat)] rfl (field_pack_zero _ _ _) rfl fun h => ?_
  refine (decode32_05 _ (field_maj _ _)).trans ?_
  simp only [field_pack_skip, f_pack_skip, field_pack_zero, f_pack_zero, Nat.reduceLeDiff, Nat.reduceSub, Nat.reducePow, Nat.reduceMod]

theorem RoundTrip.andi (rd : BitVec 5) (ra : BitVec 5) (imm : BitVec 14) : Statement (.andi rd ra imm) := by
  refine roundTrip32 _ [(1, 1), (7, 6), (5, rd.toNat), (5, ra.toNat), (14, imm.toNat)] rfl (field_pack_zero _ _ _) rfl fun h => ?_
  refine (decode32_06 _ (field_maj _ _)).trans ?_
  simp only [field_pack_skip, f_pack_skip, field_pack_zero, f_pack_zero, Nat.reduceLeDiff, Nat.reduceSub, Nat.reducePow, Nat.reduceMod]

theorem RoundTrip.ori (rd : BitVec 5) (ra : BitVec 5) (imm : BitVec 14) : Statement (.ori rd ra imm) := by
  refine roundTrip32 _ [(1, 1), (7, 7), (5, rd.toNat), (5, ra.toNat), (14, imm.toNat)] rfl (field_pack_zero _ _ _) rfl fun h => ?_
  refine (decode32_07 _ (field_maj _ _)).trans ?_
  simp only [field_pack_skip, f_pack_skip, field_pack_zero, f_pack_zero, Nat.reduceLeDiff, Nat.reduceSub, Nat.reducePow, Nat.reduceMod]

theorem RoundTrip.xori (rd : BitVec 5) (ra : BitVec 5) (imm : BitVec 14) : Statement (.xori rd ra imm) := by
  refine roundTrip32 _ [(1, 1), (7, 8), (5, rd.toNat), (5, ra.toNat), (14, imm.toNat)] rfl (field_pack_zero _ _ _) rfl fun h => ?_
  refine (decode32_08 _ (field_maj _ _)).trans ?_
  simp only [field_pack_skip, f_pack_skip, field_pack_zero, f_pack_zero, Nat.reduceLeDiff, Nat.reduceSub, Nat.reducePow, Nat.reduceMod]

theorem RoundTrip.slti (rd : BitVec 5) (ra : BitVec 5) (imm : BitVec 14) : Statement (.slti rd ra imm) := by
  refine roundTrip32 _ [(1, 1), (7, 9), (5, rd.toNat), (5, ra.toNat), (14, imm.toNat)] rfl (field_pack_zero _ _ _) rfl fun h => ?_
  refine (decode32_09 _ (field_maj _ _)).trans ?_
  simp only [field_pack_skip, f_pack_skip, field_pack_zero, f_pack_zero, Nat.reduceLeDiff, Nat.reduceSub, Nat.reducePow, Nat.reduceMod]

theorem RoundTrip.slli (rd : BitVec 5) (ra : BitVec 5) (imm : BitVec 6) : Statement (.slli rd ra imm) := by
  refine roundTrip32 _ [(1, 1), (7, 0xa), (5, rd.toNat), (5, ra.toNat), (6, imm.toNat), (8, 0)] rfl (field_pack_zero _ _ _) rfl fun h => ?_
  refine (decode32_0a _ (field_maj _ _)).trans ?_
  simp only [mbz, field_pack_skip, f_pack_skip, field_pack_zero, f_pack_zero, Nat.reduceLeDiff, Nat.reduceSub, Nat.reducePow, Nat.reduceMod, List.all_cons, List.all_nil, Nat.zero_mod, BEq.rfl, Bool.and_self, if_true]

theorem RoundTrip.srli (rd : BitVec 5) (ra : BitVec 5) (imm : BitVec 6) : Statement (.srli rd ra imm) := by
  refine roundTrip32 _ [(1, 1), (7, 0xb), (5, rd.toNat), (5, ra.toNat), (6, imm.toNat), (8, 0)] rfl (field_pack_zero _ _ _) rfl fun h => ?_
  refine (decode32_0b _ (field_maj _ _)).trans ?_
  simp only [mbz, field_pack_skip, f_pack_skip, field_pack_zero, f_pack_zero, Nat.reduceLeDiff, Nat.reduceSub, Nat.reducePow, Nat.reduceMod, List.all_cons, List.all_nil, Nat.zero_mod, BEq.rfl, Bool.and_self, if_true]

theorem RoundTrip.srai (rd : BitVec 5) (ra : BitVec 5) (imm : BitVec 6) : Statement (.srai rd ra imm) := by
  refine roundTrip32 _ [(1, 1), (7, 0xc), (5, rd.toNat), (5, ra.toNat), (6, imm.toNat), (8, 0)] rfl (field_pack_zero _ _ _) rfl fun h => ?_
  refine (decode32_0c _ (field_maj _ _)).trans ?_
  simp only [mbz, field_pack_skip, f_pack_skip, field_pack_zero, f_pack_zero, Nat.reduceLeDiff, Nat.reduceSub, Nat.reducePow, Nat.reduceMod, List.all_cons, List.all_nil, Nat.zero_mod, BEq.rfl, Bool.and_self, if_true]

theorem RoundTrip.lui (rd : BitVec 5) (u : BitVec 19) : Statement (.lui rd u) := by
  refine roundTrip32 _ [(1, 1), (7, 0x0d), (5, rd.toNat), (5, u.toNat / 2 ^ 14), (14, u.toNat % 2 ^ 14)] rfl (field_pack_zero _ _ _) rfl fun h => ?_
  refine (decode32_0d _ (field_maj _ _)).trans ?_
  simp [field_pack_skip, f_pack_skip]
  exact BitVec.eq_of_toNat_eq (by simp; omega)

theorem RoundTrip.auic (rd : BitVec 5) (ra : BitVec 5) (k : BitVec 12) (cd : BitVec 2) : Statement (.auic rd ra k cd) := by
  refine roundTrip32 _ [(1, 1), (7, 0xe), (5, rd.toNat), (5, ra.toNat), (12, k.toNat), (2, cd.toNat)] rfl (field_pack_zero _ _ _) rfl fun h => ?_
  refine (decode32_0e _ (field_maj _ _)).trans ?_
  simp only [field_pack_skip, f_pack_skip, field_pack_zero, f_pack_zero, Nat.reduceLeDiff, Nat.reduceSub, Nat.reducePow, Nat.reduceMod]

theorem RoundTrip.beq (ra : BitVec 5) (rb : BitVec 5) (off : BitVec 11) : Statement (.beq ra rb off) := by
  refine roundTrip32 _ [(1, 1), (7, 0x10), (5, ra.toNat), (5, rb.toNat), (3, 0), (11, off.toNat)] rfl (field_pack_zero _ _ _) rfl fun h => ?_
  refine (decode32_10 _ (field_maj _ _)).trans ?_
  simp only [decodeMaj10, field_pack_skip, f_pack_skip, field_pack_zero, f_pack_zero, Nat.reduceLeDiff, Nat.reduceSub, Nat.reducePow, Nat.reduceMod]

theorem RoundTrip.bne (ra : BitVec 5) (rb : BitVec 5) (off : BitVec 11) : Statement (.bne ra rb off) := by
  refine roundTrip32 _ [(1, 1), (7, 0x10), (5, ra.toNat), (5, rb.toNat), (3, 1), (11, off.toNat)] rfl (field_pack_zero _ _ _) rfl fun h => ?_
  refine (decode32_10 _ (field_maj _ _)).trans ?_
  simp only [decodeMaj10, field_pack_skip, f_pack_skip, field_pack_zero, f_pack_zero, Nat.reduceLeDiff, Nat.reduceSub, Nat.reducePow, Nat.reduceMod]

theorem RoundTrip.blt (ra : BitVec 5) (rb : BitVec 5) (off : BitVec 11) : Statement (.blt ra rb off) := by
  refine roundTrip32 _ [(1, 1), (7, 0x10), (5, ra.toNat), (5, rb.toNat), (3, 2), (11, off.toNat)] rfl (field_pack_zero _ _ _) rfl fun h => ?_
  refine (decode32_10 _ (field_maj _ _)).trans ?_
  simp only [decodeMaj10, field_pack_skip, f_pack_skip, field_pack_zero, f_pack_zero, Nat.reduceLeDiff, Nat.reduceSub, Nat.reducePow, Nat.reduceMod]

theorem RoundTrip.bge (ra : BitVec 5) (rb : BitVec 5) (off : BitVec 11) : Statement (.bge ra rb off) := by
  refine roundTrip32 _ [(1, 1), (7, 0x10), (5, ra.toNat), (5, rb.toNat), (3, 3), (11, off.toNat)] rfl (field_pack_zero _ _ _) rfl fun h => ?_
  refine (decode32_10 _ (field_maj _ _)).trans ?_
  simp only [decodeMaj10, field_pack_skip, f_pack_skip, field_pack_zero, f_pack_zero, Nat.reduceLeDiff, Nat.reduceSub, Nat.reducePow, Nat.reduceMod]

theorem RoundTrip.bltu (ra : BitVec 5) (rb : BitVec 5) (off : BitVec 11) : Statement (.bltu ra rb off) := by
  refine roundTrip32 _ [(1, 1), (7, 0x10), (5, ra.toNat), (5, rb.toNat), (3, 4), (11, off.toNat)] rfl (field_pack_zero _ _ _) rfl fun h => ?_
  refine (decode32_10 _ (field_maj _ _)).trans ?_
  simp only [decodeMaj10, field_pack_skip, f_pack_skip, field_pack_zero, f_pack_zero, Nat.reduceLeDiff, Nat.reduceSub, Nat.reducePow, Nat.reduceMod]

theorem RoundTrip.bgeu (ra : BitVec 5) (rb : BitVec 5) (off : BitVec 11) : Statement (.bgeu ra rb off) := by
  refine roundTrip32 _ [(1, 1), (7, 0x10), (5, ra.toNat), (5, rb.toNat), (3, 5), (11, off.toNat)] rfl (field_pack_zero _ _ _) rfl fun h => ?_
  refine (decode32_10 _ (field_maj _ _)).trans ?_
  simp only [decodeMaj10, field_pack_skip, f_pack_skip, field_pack_zero, f_pack_zero, Nat.reduceLeDiff, Nat.reduceSub, Nat.reducePow, Nat.reduceMod]

theorem RoundTrip.j (off : BitVec 24) : Statement (.j off) := by
  refine roundTrip32 _ [(1, 1), (7, 0x11), (24, off.toNat)] rfl (field_pack_zero _ _ _) rfl fun h => ?_
  refine (decode32_11 _ (field_maj _ _)).trans ?_
  simp only [field_pack_skip, f_pack_skip, field_pack_zero, f_pack_zero, Nat.reduceLeDiff, Nat.reduceSub, Nat.reducePow, Nat.reduceMod]

theorem RoundTrip.jal (off : BitVec 24) : Statement (.jal off) := by
  refine roundTrip32 _ [(1, 1), (7, 0x12), (24, off.toNat)] rfl (field_pack_zero _ _ _) rfl fun h => ?_
  refine (decode32_12 _ (field_maj _ _)).trans ?_
  simp only [field_pack_skip, f_pack_skip, field_pack_zero, f_pack_zero, Nat.reduceLeDiff, Nat.reduceSub, Nat.reducePow, Nat.reduceMod]

theorem RoundTrip.jalr (rd : BitVec 5) (ra : BitVec 5) (imm : BitVec 14) : Statement (.jalr rd ra imm) := by
  refine roundTrip32 _ [(1, 1), (7, 0x13), (5, rd.toNat), (5, ra.toNat), (14, imm.toNat)] rfl (field_pack_zero _ _ _) rfl fun h => ?_
  refine (decode32_13 _ (field_maj _ _)).trans ?_
  simp only [field_pack_skip, f_pack_skip, field_pack_zero, f_pack_zero, Nat.reduceLeDiff, Nat.reduceSub, Nat.reducePow, Nat.reduceMod]

theorem RoundTrip.callx (rd : BitVec 5) (ra : BitVec 5) (imm : BitVec 14) : Statement (.callx rd ra imm) := by
  refine roundTrip32 _ [(1, 1), (7, 0x14), (5, rd.toNat), (5, ra.toNat), (14, imm.toNat)] rfl (field_pack_zero _ _ _) rfl fun h => ?_
  refine (decode32_14 _ (field_maj _ _)).trans ?_
  simp only [field_pack_skip, f_pack_skip, field_pack_zero, f_pack_zero, Nat.reduceLeDiff, Nat.reduceSub, Nat.reducePow, Nat.reduceMod]

theorem RoundTrip.endAct : Statement (.endAct) := by
  refine roundTrip32 _ [(1, 1), (7, 0x15), (15, 0), (9, 0)] rfl (field_pack_zero _ _ _) rfl fun h => ?_
  refine (decode32_15 _ (field_maj _ _)).trans ?_
  simp only [decodeMaj15, mbz, field_pack_skip, field_pack_zero, Nat.reduceLeDiff, Nat.reduceSub, Nat.reducePow, Nat.reduceMod, List.all_cons, List.all_nil, Nat.zero_mod, BEq.rfl, Bool.and_self, if_true]

theorem RoundTrip.yieldAct : Statement (.yieldAct) := by
  refine roundTrip32 _ [(1, 1), (7, 0x15), (15, 0), (9, 1)] rfl (field_pack_zero _ _ _) rfl fun h => ?_
  refine (decode32_15 _ (field_maj _ _)).trans ?_
  simp only [decodeMaj15, mbz, field_pack_skip, field_pack_zero, Nat.reduceLeDiff, Nat.reduceSub, Nat.reducePow, Nat.reduceMod, List.all_cons, List.all_nil, Nat.zero_mod, BEq.rfl, Bool.and_self, if_true]

theorem RoundTrip.lb (rt : BitVec 5) (ra : BitVec 5) (w : BitVec 2) (sc : BitVec 3) (ord : BitVec 2) (imm : BitVec 7) : Statement (.lb rt ra w sc ord imm) := by
  refine roundTrip32 _ [(1, 1), (7, 0x18), (5, rt.toNat), (5, ra.toNat), (2, w.toNat), (3, sc.toNat), (2, ord.toNat), (7, imm.toNat)] rfl (field_pack_zero _ _ _) rfl fun h => ?_
  refine (decode32_18 _ (field_maj _ _)).trans ?_
  simp only [field_pack_skip, f_pack_skip, field_pack_zero, f_pack_zero, Nat.reduceLeDiff, Nat.reduceSub, Nat.reducePow, Nat.reduceMod]

theorem RoundTrip.lh (rt : BitVec 5) (ra : BitVec 5) (w : BitVec 2) (sc : BitVec 3) (ord : BitVec 2) (imm : BitVec 7) : Statement (.lh rt ra w sc ord imm) := by
  refine roundTrip32 _ [(1, 1), (7, 0x19), (5, rt.toNat), (5, ra.toNat), (2, w.toNat), (3, sc.toNat), (2, ord.toNat), (7, imm.toNat)] rfl (field_pack_zero _ _ _) rfl fun h => ?_
  refine (decode32_19 _ (field_maj _ _)).trans ?_
  simp only [field_pack_skip, f_pack_skip, field_pack_zero, f_pack_zero, Nat.reduceLeDiff, Nat.reduceSub, Nat.reducePow, Nat.reduceMod]

theorem RoundTrip.lw (rt : BitVec 5) (ra : BitVec 5) (w : BitVec 2) (sc : BitVec 3) (ord : BitVec 2) (imm : BitVec 7) : Statement (.lw rt ra w sc ord imm) := by
  refine roundTrip32 _ [(1, 1), (7, 0x1a), (5, rt.toNat), (5, ra.toNat), (2, w.toNat), (3, sc.toNat), (2, ord.toNat), (7, imm.toNat)] rfl (field_pack_zero _ _ _) rfl fun h => ?_
  refine (decode32_1a _ (field_maj _ _)).trans ?_
  simp only [field_pack_skip, f_pack_skip, field_pack_zero, f_pack_zero, Nat.reduceLeDiff, Nat.reduceSub, Nat.reducePow, Nat.reduceMod]

theorem RoundTrip.ld (rt : BitVec 5) (ra : BitVec 5) (w : BitVec 2) (sc : BitVec 3) (ord : BitVec 2) (imm : BitVec 7) : Statement (.ld rt ra w sc ord imm) := by
  refine roundTrip32 _ [(1, 1), (7, 0x1b), (5, rt.toNat), (5, ra.toNat), (2, w.toNat), (3, sc.toNat), (2, ord.toNat), (7, imm.toNat)] rfl (field_pack_zero _ _ _) rfl fun h => ?_
  refine (decode32_1b _ (field_maj _ _)).trans ?_
  simp only [field_pack_skip, f_pack_skip, field_pack_zero, f_pack_zero, Nat.reduceLeDiff, Nat.reduceSub, Nat.reducePow, Nat.reduceMod]

theorem RoundTrip.lbu (rt : BitVec 5) (ra : BitVec 5) (w : BitVec 2) (sc : BitVec 3) (ord : BitVec 2) (imm : BitVec 7) : Statement (.lbu rt ra w sc ord imm) := by
  refine roundTrip32 _ [(1, 1), (7, 0x1c), (5, rt.toNat), (5, ra.toNat), (2, w.toNat), (3, sc.toNat), (2, ord.toNat), (7, imm.toNat)] rfl (field_pack_zero _ _ _) rfl fun h => ?_
  refine (decode32_1c _ (field_maj _ _)).trans ?_
  simp only [field_pack_skip, f_pack_skip, field_pack_zero, f_pack_zero, Nat.reduceLeDiff, Nat.reduceSub, Nat.reducePow, Nat.reduceMod]

theorem RoundTrip.lhu (rt : BitVec 5) (ra : BitVec 5) (w : BitVec 2) (sc : BitVec 3) (ord : BitVec 2) (imm : BitVec 7) : Statement (.lhu rt ra w sc ord imm) := by
  refine roundTrip32 _ [(1, 1), (7, 0x1d), (5, rt.toNat), (5, ra.toNat), (2, w.toNat), (3, sc.toNat), (2, ord.toNat), (7, imm.toNat)] rfl (field_pack_zero _ _ _) rfl fun h => ?_
  refine (decode32_1d _ (field_maj _ _)).trans ?_
  simp only [field_pack_skip, f_pack_skip, field_pack_zero, f_pack_zero, Nat.reduceLeDiff, Nat.reduceSub, Nat.reducePow, Nat.reduceMod]

theorem RoundTrip.lwu (rt : BitVec 5) (ra : BitVec 5) (w : BitVec 2) (sc : BitVec 3) (ord : BitVec 2) (imm : BitVec 7) : Statement (.lwu rt ra w sc ord imm) := by
  refine roundTrip32 _ [(1, 1), (7, 0x1e), (5, rt.toNat), (5, ra.toNat), (2, w.toNat), (3, sc.toNat), (2, ord.toNat), (7, imm.toNat)] rfl (field_pack_zero _ _ _) rfl fun h => ?_
  refine (decode32_1e _ (field_maj _ _)).trans ?_
  simp only [field_pack_skip, f_pack_skip, field_pack_zero, f_pack_zero, Nat.reduceLeDiff, Nat.reduceSub, Nat.reducePow, Nat.reduceMod]

theorem RoundTrip.ldcn (rt : BitVec 5) (ra : BitVec 5) (w : BitVec 2) (sc : BitVec 3) (ord : BitVec 2) (imm : BitVec 7) : Statement (.ldcn rt ra w sc ord imm) := by
  refine roundTrip32 _ [(1, 1), (7, 0x1f), (5, rt.toNat), (5, ra.toNat), (2, w.toNat), (3, sc.toNat), (2, ord.toNat), (7, imm.toNat)] rfl (field_pack_zero _ _ _) rfl fun h => ?_
  refine (decode32_1f _ (field_maj _ _)).trans ?_
  simp only [field_pack_skip, f_pack_skip, field_pack_zero, f_pack_zero, Nat.reduceLeDiff, Nat.reduceSub, Nat.reducePow, Nat.reduceMod]

theorem RoundTrip.sb (rt : BitVec 5) (ra : BitVec 5) (w : BitVec 2) (sc : BitVec 3) (ord : BitVec 2) (imm : BitVec 7) : Statement (.sb rt ra w sc ord imm) := by
  refine roundTrip32 _ [(1, 1), (7, 0x20), (5, rt.toNat), (5, ra.toNat), (2, w.toNat), (3, sc.toNat), (2, ord.toNat), (7, imm.toNat)] rfl (field_pack_zero _ _ _) rfl fun h => ?_
  refine (decode32_20 _ (field_maj _ _)).trans ?_
  simp only [field_pack_skip, f_pack_skip, field_pack_zero, f_pack_zero, Nat.reduceLeDiff, Nat.reduceSub, Nat.reducePow, Nat.reduceMod]

theorem RoundTrip.sh (rt : BitVec 5) (ra : BitVec 5) (w : BitVec 2) (sc : BitVec 3) (ord : BitVec 2) (imm : BitVec 7) : Statement (.sh rt ra w sc ord imm) := by
  refine roundTrip32 _ [(1, 1), (7, 0x21), (5, rt.toNat), (5, ra.toNat), (2, w.toNat), (3, sc.toNat), (2, ord.toNat), (7, imm.toNat)] rfl (field_pack_zero _ _ _) rfl fun h => ?_
  refine (decode32_21 _ (field_maj _ _)).trans ?_
  simp only [field_pack_skip, f_pack_skip, field_pack_zero, f_pack_zero, Nat.reduceLeDiff, Nat.reduceSub, Nat.reducePow, Nat.reduceMod]

theorem RoundTrip.sw (rt : BitVec 5) (ra : BitVec 5) (w : BitVec 2) (sc : BitVec 3) (ord : BitVec 2) (imm : BitVec 7) : Statement (.sw rt ra w sc ord imm) := by
  refine roundTrip32 _ [(1, 1), (7, 0x22), (5, rt.toNat), (5, ra.toNat), (2, w.toNat), (3, sc.toNat), (2, ord.toNat), (7, imm.toNat)] rfl (field_pack_zero _ _ _) rfl fun h => ?_
  refine (decode32_22 _ (field_maj _ _)).trans ?_
  simp only [field_pack_skip, f_pack_skip, field_pack_zero, f_pack_zero, Nat.reduceLeDiff, Nat.reduceSub, Nat.reducePow, Nat.reduceMod]

theorem RoundTrip.sd (rt : BitVec 5) (ra : BitVec 5) (w : BitVec 2) (sc : BitVec 3) (ord : BitVec 2) (imm : BitVec 7) : Statement (.sd rt ra w sc ord imm) := by
  refine roundTrip32 _ [(1, 1), (7, 0x23), (5, rt.toNat), (5, ra.toNat), (2, w.toNat), (3, sc.toNat), (2, ord.toNat), (7, imm.toNat)] rfl (field_pack_zero _ _ _) rfl fun h => ?_
  refine (decode32_23 _ (field_maj _ _)).trans ?_
  simp only [field_pack_skip, f_pack_skip, field_pack_zero, f_pack_zero, Nat.reduceLeDiff, Nat.reduceSub, Nat.reducePow, Nat.reduceMod]

theorem RoundTrip.ldf (rt : BitVec 5) (ra : BitVec 5) (w : BitVec 2) (sc : BitVec 3) (imm : BitVec 7) : Statement (.ldf rt ra w sc imm) := by
  refine roundTrip32 _ [(1, 1), (7, 0x24), (5, rt.toNat), (5, ra.toNat), (2, w.toNat), (3, sc.toNat), (2, 0), (7, imm.toNat)] rfl (field_pack_zero _ _ _) rfl fun h => ?_
  refine (decode32_24 _ (field_maj _ _)).trans ?_
  simp only [decodeMaj24, field_pack_skip, f_pack_skip, field_pack_zero, f_pack_zero, Nat.reduceLeDiff, Nat.reduceSub, Nat.reducePow, Nat.reduceMod]

theorem RoundTrip.ldfC (rt : BitVec 5) (ra : BitVec 5) (w : BitVec 2) (sc : BitVec 3) (imm : BitVec 7) : Statement (.ldfC rt ra w sc imm) := by
  refine roundTrip32 _ [(1, 1), (7, 0x24), (5, rt.toNat), (5, ra.toNat), (2, w.toNat), (3, sc.toNat), (2, 1), (7, imm.toNat)] rfl (field_pack_zero _ _ _) rfl fun h => ?_
  refine (decode32_24 _ (field_maj _ _)).trans ?_
  simp only [decodeMaj24, field_pack_skip, f_pack_skip, field_pack_zero, f_pack_zero, Nat.reduceLeDiff, Nat.reduceSub, Nat.reducePow, Nat.reduceMod]

theorem RoundTrip.stf (rt : BitVec 5) (ra : BitVec 5) (w : BitVec 2) (sc : BitVec 3) (imm : BitVec 7) : Statement (.stf rt ra w sc imm) := by
  refine roundTrip32 _ [(1, 1), (7, 0x24), (5, rt.toNat), (5, ra.toNat), (2, w.toNat), (3, sc.toNat), (2, 2), (7, imm.toNat)] rfl (field_pack_zero _ _ _) rfl fun h => ?_
  refine (decode32_24 _ (field_maj _ _)).trans ?_
  simp only [decodeMaj24, field_pack_skip, f_pack_skip, field_pack_zero, f_pack_zero, Nat.reduceLeDiff, Nat.reduceSub, Nat.reducePow, Nat.reduceMod]

theorem RoundTrip.feclr (rt : BitVec 5) (ra : BitVec 5) (w : BitVec 2) (sc : BitVec 3) (imm : BitVec 7) : Statement (.feclr rt ra w sc imm) := by
  refine roundTrip32 _ [(1, 1), (7, 0x24), (5, rt.toNat), (5, ra.toNat), (2, w.toNat), (3, sc.toNat), (2, 3), (7, imm.toNat)] rfl (field_pack_zero _ _ _) rfl fun h => ?_
  refine (decode32_24 _ (field_maj _ _)).trans ?_
  simp only [decodeMaj24, field_pack_skip, f_pack_skip, field_pack_zero, f_pack_zero, Nat.reduceLeDiff, Nat.reduceSub, Nat.reducePow, Nat.reduceMod]

theorem RoundTrip.layr (vd : BitVec 5) (lay : BitVec 6) (w : BitVec 2) (sc : BitVec 3) : Statement (.layr vd lay w sc) := by
  refine roundTrip32 _ [(1, 1), (7, 0x25), (5, vd.toNat), (6, lay.toNat), (5, 0), (2, w.toNat), (3, sc.toNat), (3, 0)] rfl (field_pack_zero _ _ _) rfl fun h => ?_
  refine (decode32_25 _ (field_maj _ _)).trans ?_
  simp only [decodeMaj25, mbz, field_pack_skip, f_pack_skip, field_pack_zero, f_pack_zero, Nat.reduceLeDiff, Nat.reduceSub, Nat.reducePow, Nat.reduceMod, List.all_cons, List.all_nil, Nat.zero_mod, BEq.rfl, Bool.and_self, if_true]

theorem RoundTrip.layw (vd : BitVec 5) (lay : BitVec 6) (w : BitVec 2) (sc : BitVec 3) : Statement (.layw vd lay w sc) := by
  refine roundTrip32 _ [(1, 1), (7, 0x25), (5, vd.toNat), (6, lay.toNat), (5, 0), (2, w.toNat), (3, sc.toNat), (3, 1)] rfl (field_pack_zero _ _ _) rfl fun h => ?_
  refine (decode32_25 _ (field_maj _ _)).trans ?_
  simp only [decodeMaj25, mbz, field_pack_skip, f_pack_skip, field_pack_zero, f_pack_zero, Nat.reduceLeDiff, Nat.reduceSub, Nat.reducePow, Nat.reduceMod, List.all_cons, List.all_nil, Nat.zero_mod, BEq.rfl, Bool.and_self, if_true]

theorem RoundTrip.amoaddW (rd : BitVec 5) (ra : BitVec 5) (rb : BitVec 5) (sc : BitVec 3) (ord : BitVec 2) : Statement (.amoaddW rd ra rb sc ord) := by
  refine roundTrip32 _ [(1, 1), (7, 0x26), (5, rd.toNat), (5, ra.toNat), (5, rb.toNat), (3, sc.toNat), (2, ord.toNat), (4, 0)] rfl (field_pack_zero _ _ _) rfl fun h => ?_
  refine (decode32_26 _ (field_maj _ _)).trans ?_
  simp only [decodeMaj26, field_pack_skip, f_pack_skip, field_pack_zero, f_pack_zero, Nat.reduceLeDiff, Nat.reduceSub, Nat.reducePow, Nat.reduceMod]

theorem RoundTrip.amoandW (rd : BitVec 5) (ra : BitVec 5) (rb : BitVec 5) (sc : BitVec 3) (ord : BitVec 2) : Statement (.amoandW rd ra rb sc ord) := by
  refine roundTrip32 _ [(1, 1), (7, 0x26), (5, rd.toNat), (5, ra.toNat), (5, rb.toNat), (3, sc.toNat), (2, ord.toNat), (4, 1)] rfl (field_pack_zero _ _ _) rfl fun h => ?_
  refine (decode32_26 _ (field_maj _ _)).trans ?_
  simp only [decodeMaj26, field_pack_skip, f_pack_skip, field_pack_zero, f_pack_zero, Nat.reduceLeDiff, Nat.reduceSub, Nat.reducePow, Nat.reduceMod]

theorem RoundTrip.amoorW (rd : BitVec 5) (ra : BitVec 5) (rb : BitVec 5) (sc : BitVec 3) (ord : BitVec 2) : Statement (.amoorW rd ra rb sc ord) := by
  refine roundTrip32 _ [(1, 1), (7, 0x26), (5, rd.toNat), (5, ra.toNat), (5, rb.toNat), (3, sc.toNat), (2, ord.toNat), (4, 2)] rfl (field_pack_zero _ _ _) rfl fun h => ?_
  refine (decode32_26 _ (field_maj _ _)).trans ?_
  simp only [decodeMaj26, field_pack_skip, f_pack_skip, field_pack_zero, f_pack_zero, Nat.reduceLeDiff, Nat.reduceSub, Nat.reducePow, Nat.reduceMod]

theorem RoundTrip.amoxorW (rd : BitVec 5) (ra : BitVec 5) (rb : BitVec 5) (sc : BitVec 3) (ord : BitVec 2) : Statement (.amoxorW rd ra rb sc ord) := by
  refine roundTrip32 _ [(1, 1), (7, 0x26), (5, rd.toNat), (5, ra.toNat), (5, rb.toNat), (3, sc.toNat), (2, ord.toNat), (4, 3)] rfl (field_pack_zero _ _ _) rfl fun h => ?_
  refine (decode32_26 _ (field_maj _ _)).trans ?_
  simp only [decodeMaj26, field_pack_skip, f_pack_skip, field_pack_zero, f_pack_zero, Nat.reduceLeDiff, Nat.reduceSub, Nat.reducePow, Nat.reduceMod]

theorem RoundTrip.amominW (rd : BitVec 5) (ra : BitVec 5) (rb : BitVec 5) (sc : BitVec 3) (ord : BitVec 2) : Statement (.amominW rd ra rb sc ord) := by
  refine roundTrip32 _ [(1, 1), (7, 0x26), (5, rd.toNat), (5, ra.toNat), (5, rb.toNat), (3, sc.toNat), (2, ord.toNat), (4, 4)] rfl (field_pack_zero _ _ _) rfl fun h => ?_
  refine (decode32_26 _ (field_maj _ _)).trans ?_
  simp only [decodeMaj26, field_pack_skip, f_pack_skip, field_pack_zero, f_pack_zero, Nat.reduceLeDiff, Nat.reduceSub, Nat.reducePow, Nat.reduceMod]

theorem RoundTrip.amomaxW (rd : BitVec 5) (ra : BitVec 5) (rb : BitVec 5) (sc : BitVec 3) (ord : BitVec 2) : Statement (.amomaxW rd ra rb sc ord) := by
  refine roundTrip32 _ [(1, 1), (7, 0x26), (5, rd.toNat), (5, ra.toNat), (5, rb.toNat), (3, sc.toNat), (2, ord.toNat), (4, 5)] rfl (field_pack_zero _ _ _) rfl fun h => ?_
  refine (decode32_26 _ (field_maj _ _)).trans ?_
  simp only [decodeMaj26, field_pack_skip, f_pack_skip, field_pack_zero, f_pack_zero, Nat.reduceLeDiff, Nat.reduceSub, Nat.reducePow, Nat.reduceMod]

theorem RoundTrip.amominuW (rd : BitVec 5) (ra : BitVec 5) (rb : BitVec 5) (sc : BitVec 3) (ord : BitVec 2) : Statement (.amominuW rd ra rb sc ord) := by
  refine roundTrip32 _ [(1, 1), (7, 0x26), (5, rd.toNat), (5, ra.toNat), (5, rb.toNat), (3, sc.toNat), (2, ord.toNat), (4, 6)] rfl (field_pack_zero _ _ _) rfl fun h => ?_
  refine (decode32_26 _ (field_maj _ _)).trans ?_
  simp only [decodeMaj26, field_pack_skip, f_pack_skip, field_pack_zero, f_pack_zero, Nat.reduceLeDiff, Nat.reduceSub, Nat.reducePow, Nat.reduceMod]

theorem RoundTrip.amomaxuW (rd : BitVec 5) (ra : BitVec 5) (rb : BitVec 5) (sc : BitVec 3) (ord : BitVec 2) : Statement (.amomaxuW rd ra rb sc ord) := by
  refine roundTrip32 _ [(1, 1), (7, 0x26), (5, rd.toNat), (5, ra.toNat), (5, rb.toNat), (3, sc.toNat), (2, ord.toNat), (4, 7)] rfl (field_pack_zero _ _ _) rfl fun h => ?_
  refine (decode32_26 _ (field_maj _ _)).trans ?_
  simp only [decodeMaj26, field_pack_skip, f_pack_skip, field_pack_zero, f_pack_zero, Nat.reduceLeDiff, Nat.reduceSub, Nat.reducePow, Nat.reduceMod]

theorem RoundTrip.amoswpW (rd : BitVec 5) (ra : BitVec 5) (rb : BitVec 5) (sc : BitVec 3) (ord : BitVec 2) : Statement (.amoswpW rd ra rb sc ord) := by
  refine roundTrip32 _ [(1, 1), (7, 0x26), (5, rd.toNat), (5, ra.toNat), (5, rb.toNat), (3, sc.toNat), (2, ord.toNat), (4, 8)] rfl (field_pack_zero _ _ _) rfl fun h => ?_
  refine (decode32_26 _ (field_maj _ _)).trans ?_
  simp only [decodeMaj26, field_pack_skip, f_pack_skip, field_pack_zero, f_pack_zero, Nat.reduceLeDiff, Nat.reduceSub, Nat.reducePow, Nat.reduceMod]

theorem RoundTrip.amocasW (rd : BitVec 5) (ra : BitVec 5) (rb : BitVec 5) (sc : BitVec 3) (ord : BitVec 2) : Statement (.amocasW rd ra rb sc ord) := by
  refine roundTrip32 _ [(1, 1), (7, 0x26), (5, rd.toNat), (5, ra.toNat), (5, rb.toNat), (3, sc.toNat), (2, ord.toNat), (4, 9)] rfl (field_pack_zero _ _ _) rfl fun h => ?_
  refine (decode32_26 _ (field_maj _ _)).trans ?_
  simp only [decodeMaj26, field_pack_skip, f_pack_skip, field_pack_zero, f_pack_zero, Nat.reduceLeDiff, Nat.reduceSub, Nat.reducePow, Nat.reduceMod]

theorem RoundTrip.amofaddW (rd : BitVec 5) (ra : BitVec 5) (rb : BitVec 5) (sc : BitVec 3) (ord : BitVec 2) : Statement (.amofaddW rd ra rb sc ord) := by
  refine roundTrip32 _ [(1, 1), (7, 0x26), (5, rd.toNat), (5, ra.toNat), (5, rb.toNat), (3, sc.toNat), (2, ord.toNat), (4, 0xa)] rfl (field_pack_zero _ _ _) rfl fun h => ?_
  refine (decode32_26 _ (field_maj _ _)).trans ?_
  simp only [decodeMaj26, field_pack_skip, f_pack_skip, field_pack_zero, f_pack_zero, Nat.reduceLeDiff, Nat.reduceSub, Nat.reducePow, Nat.reduceMod]

theorem RoundTrip.amoaddD (rd : BitVec 5) (ra : BitVec 5) (rb : BitVec 5) (sc : BitVec 3) (ord : BitVec 2) : Statement (.amoaddD rd ra rb sc ord) := by
  refine roundTrip32 _ [(1, 1), (7, 0x27), (5, rd.toNat), (5, ra.toNat), (5, rb.toNat), (3, sc.toNat), (2, ord.toNat), (4, 0)] rfl (field_pack_zero _ _ _) rfl fun h => ?_
  refine (decode32_27 _ (field_maj _ _)).trans ?_
  simp only [decodeMaj27, field_pack_skip, f_pack_skip, field_pack_zero, f_pack_zero, Nat.reduceLeDiff, Nat.reduceSub, Nat.reducePow, Nat.reduceMod]

theorem RoundTrip.amoandD (rd : BitVec 5) (ra : BitVec 5) (rb : BitVec 5) (sc : BitVec 3) (ord : BitVec 2) : Statement (.amoandD rd ra rb sc ord) := by
  refine roundTrip32 _ [(1, 1), (7, 0x27), (5, rd.toNat), (5, ra.toNat), (5, rb.toNat), (3, sc.toNat), (2, ord.toNat), (4, 1)] rfl (field_pack_zero _ _ _) rfl fun h => ?_
  refine (decode32_27 _ (field_maj _ _)).trans ?_
  simp only [decodeMaj27, field_pack_skip, f_pack_skip, field_pack_zero, f_pack_zero, Nat.reduceLeDiff, Nat.reduceSub, Nat.reducePow, Nat.reduceMod]

theorem RoundTrip.amoorD (rd : BitVec 5) (ra : BitVec 5) (rb : BitVec 5) (sc : BitVec 3) (ord : BitVec 2) : Statement (.amoorD rd ra rb sc ord) := by
  refine roundTrip32 _ [(1, 1), (7, 0x27), (5, rd.toNat), (5, ra.toNat), (5, rb.toNat), (3, sc.toNat), (2, ord.toNat), (4, 2)] rfl (field_pack_zero _ _ _) rfl fun h => ?_
  refine (decode32_27 _ (field_maj _ _)).trans ?_
  simp only [decodeMaj27, field_pack_skip, f_pack_skip, field_pack_zero, f_pack_zero, Nat.reduceLeDiff, Nat.reduceSub, Nat.reducePow, Nat.reduceMod]

theorem RoundTrip.amoxorD (rd : BitVec 5) (ra : BitVec 5) (rb : BitVec 5) (sc : BitVec 3) (ord : BitVec 2) : Statement (.amoxorD rd ra rb sc ord) := by
  refine roundTrip32 _ [(1, 1), (7, 0x27), (5, rd.toNat), (5, ra.toNat), (5, rb.toNat), (3, sc.toNat), (2, ord.toNat), (4, 3)] rfl (field_pack_zero _ _ _) rfl fun h => ?_
  refine (decode32_27 _ (field_maj _ _)).trans ?_
  simp only [decodeMaj27, field_pack_skip, f_pack_skip, field_pack_zero, f_pack_zero, Nat.reduceLeDiff, Nat.reduceSub, Nat.reducePow, Nat.reduceMod]

theorem RoundTrip.amominD (rd : BitVec 5) (ra : BitVec 5) (rb : BitVec 5) (sc : BitVec 3) (ord : BitVec 2) : Statement (.amominD rd ra rb sc ord) := by
  refine roundTrip32 _ [(1, 1), (7, 0x27), (5, rd.toNat), (5, ra.toNat), (5, rb.toNat), (3, sc.toNat), (2, ord.toNat), (4, 4)] rfl (field_pack_zero _ _ _) rfl fun h => ?_
  refine (decode32_27 _ (field_maj _ _)).trans ?_
  simp only [decodeMaj27, field_pack_skip, f_pack_skip, field_pack_zero, f_pack_zero, Nat.reduceLeDiff, Nat.reduceSub, Nat.reducePow, Nat.reduceMod]

theorem RoundTrip.amomaxD (rd : BitVec 5) (ra : BitVec 5) (rb : BitVec 5) (sc : BitVec 3) (ord : BitVec 2) : Statement (.amomaxD rd ra rb sc ord) := by
  refine roundTrip32 _ [(1, 1), (7, 0x27), (5, rd.toNat), (5, ra.toNat), (5, rb.toNat), (3, sc.toNat), (2, ord.toNat), (4, 5)] rfl (field_pack_zero _ _ _) rfl fun h => ?_
  refine (decode32_27 _ (field_maj _ _)).trans ?_
  simp only [decodeMaj27, field_pack_skip, f_pack_skip, field_pack_zero, f_pack_zero, Nat.reduceLeDiff, Nat.reduceSub, Nat.reducePow, Nat.reduceMod]

theorem RoundTrip.amominuD (rd : BitVec 5) (ra : BitVec 5) (rb : BitVec 5) (sc : BitVec 3) (ord : BitVec 2) : Statement (.amominuD rd ra rb sc ord) := by
  refine roundTrip32 _ [(1, 1), (7, 0x27), (5, rd.toNat), (5, ra.toNat), (5, rb.toNat), (3, sc.toNat), (2, ord.toNat), (4, 6)] rfl (field_pack_zero _ _ _) rfl fun h => ?_
  refine (decode32_27 _ (field_maj _ _)).trans ?_
  simp only [decodeMaj27, field_pack_skip, f_pack_skip, field_pack_zero, f_pack_zero, Nat.reduceLeDiff, Nat.reduceSub, Nat.reducePow, Nat.reduceMod]

theorem RoundTrip.amomaxuD (rd : BitVec 5) (ra : BitVec 5) (rb : BitVec 5) (sc : BitVec 3) (ord : BitVec 2) : Statement (.amomaxuD rd ra rb sc ord) := by
  refine roundTrip32 _ [(1, 1), (7, 0x27), (5, rd.toNat), (5, ra.toNat), (5, rb.toNat), (3, sc.toNat), (2, ord.toNat), (4, 7)] rfl (field_pack_zero _ _ _) rfl fun h => ?_
  refine (decode32_27 _ (field_maj _ _)).trans ?_
  simp only [decodeMaj27, field_pack_skip, f_pack_skip, field_pack_zero, f_pack_zero, Nat.reduceLeDiff, Nat.reduceSub, Nat.reducePow, Nat.reduceMod]

theorem RoundTrip.amoswpD (rd : BitVec 5) (ra : BitVec 5) (rb : BitVec 5) (sc : BitVec 3) (ord : BitVec 2) : Statement (.amoswpD rd ra rb sc ord) := by
  refine roundTrip32 _ [(1, 1), (7, 0x27), (5, rd.toNat), (5, ra.toNat), (5, rb.toNat), (3, sc.toNat), (2, ord.toNat), (4, 8)] rfl (field_pack_zero _ _ _) rfl fun h => ?_
  refine (decode32_27 _ (field_maj _ _)).trans ?_
  simp only [decodeMaj27, field_pack_skip, f_pack_skip, field_pack_zero, f_pack_zero, Nat.reduceLeDiff, Nat.reduceSub, Nat.reducePow, Nat.reduceMod]

theorem RoundTrip.amocasD (rd : BitVec 5) (ra : BitVec 5) (rb : BitVec 5) (sc : BitVec 3) (ord : BitVec 2) : Statement (.amocasD rd ra rb sc ord) := by
  refine roundTrip32 _ [(1, 1), (7, 0x27), (5, rd.toNat), (5, ra.toNat), (5, rb.toNat), (3, sc.toNat), (2, ord.toNat), (4, 9)] rfl (field_pack_zero _ _ _) rfl fun h => ?_
  refine (decode32_27 _ (field_maj _ _)).trans ?_
  simp only [decodeMaj27, field_pack_skip, f_pack_skip, field_pack_zero, f_pack_zero, Nat.reduceLeDiff, Nat.reduceSub, Nat.reducePow, Nat.reduceMod]

theorem RoundTrip.amofaddD (rd : BitVec 5) (ra : BitVec 5) (rb : BitVec 5) (sc : BitVec 3) (ord : BitVec 2) : Statement (.amofaddD rd ra rb sc ord) := by
  refine roundTrip32 _ [(1, 1), (7, 0x27), (5, rd.toNat), (5, ra.toNat), (5, rb.toNat), (3, sc.toNat), (2, ord.toNat), (4, 0xa)] rfl (field_pack_zero _ _ _) rfl fun h => ?_
  refine (decode32_27 _ (field_maj _ _)).trans ?_
  simp only [decodeMaj27, field_pack_skip, f_pack_skip, field_pack_zero, f_pack_zero, Nat.reduceLeDiff, Nat.reduceSub, Nat.reducePow, Nat.reduceMod]

theorem RoundTrip.fence (sc : BitVec 3) (sw : BitVec 1) (sr : BitVec 1) (pw : BitVec 1) (pr : BitVec 1) : Statement (.fence sc sw sr pw pr) := by
  refine roundTrip32 _ [(1, 1), (7, 0x28), (15, 0), (3, sc.toNat), (1, sw.toNat), (1, sr.toNat), (1, pw.toNat), (1, pr.toNat), (2, 0)] rfl (field_pack_zero _ _ _) rfl fun h => ?_
  refine (decode32_28 _ (field_maj _ _)).trans ?_
  simp only [decodeMaj28, mbz, field_pack_skip, f_pack_skip, field_pack_zero, f_pack_zero, Nat.reduceLeDiff, Nat.reduceSub, Nat.reducePow, Nat.reduceMod, List.all_cons, List.all_nil, Nat.zero_mod, BEq.rfl, Bool.and_self, if_true]

theorem RoundTrip.waitc (cn : BitVec 1) (cm : BitVec 1) (cv : BitVec 1) : Statement (.waitc cn cm cv) := by
  refine roundTrip32 _ [(1, 1), (7, 0x28), (19, 0), (1, cn.toNat), (1, cm.toNat), (1, cv.toNat), (2, 1)] rfl (field_pack_zero _ _ _) rfl fun h => ?_
  refine (decode32_28 _ (field_maj _ _)).trans ?_
  simp only [decodeMaj28, mbz, field_pack_skip, f_pack_skip, field_pack_zero, f_pack_zero, Nat.reduceLeDiff, Nat.reduceSub, Nat.reducePow, Nat.reduceMod, List.all_cons, List.all_nil, Nat.zero_mod, BEq.rfl, Bool.and_self, if_true]

theorem RoundTrip.bara (rd : BitVec 5) (ra : BitVec 5) (sc : BitVec 3) : Statement (.bara rd ra sc) := by
  refine roundTrip32 _ [(1, 1), (7, 0x29), (5, rd.toNat), (5, ra.toNat), (5, 0), (3, sc.toNat), (3, 0), (3, 0)] rfl (field_pack_zero _ _ _) rfl fun h => ?_
  refine (decode32_29 _ (field_maj _ _)).trans ?_
  simp only [decodeMaj29, mbz, field_pack_skip, f_pack_skip, field_pack_zero, f_pack_zero, Nat.reduceLeDiff, Nat.reduceSub, Nat.reducePow, Nat.reduceMod, List.all_cons, List.all_nil, Nat.zero_mod, BEq.rfl, Bool.and_self, if_true]

theorem RoundTrip.barw (rd : BitVec 5) (ra : BitVec 5) (sc : BitVec 3) : Statement (.barw rd ra sc) := by
  refine roundTrip32 _ [(1, 1), (7, 0x29), (5, rd.toNat), (5, ra.toNat), (5, 0), (3, sc.toNat), (3, 0), (3, 1)] rfl (field_pack_zero _ _ _) rfl fun h => ?_
  refine (decode32_29 _ (field_maj _ _)).trans ?_
  simp only [decodeMaj29, mbz, field_pack_skip, f_pack_skip, field_pack_zero, f_pack_zero, Nat.reduceLeDiff, Nat.reduceSub, Nat.reducePow, Nat.reduceMod, List.all_cons, List.all_nil, Nat.zero_mod, BEq.rfl, Bool.and_self, if_true]

theorem RoundTrip.send (ra : BitVec 5) (vb : BitVec 5) : Statement (.send ra vb) := by
  refine roundTrip32 _ [(1, 1), (7, 0x2a), (5, 0), (5, ra.toNat), (5, vb.toNat), (9, 0)] rfl (field_pack_zero _ _ _) rfl fun h => ?_
  refine (decode32_2a _ (field_maj _ _)).trans ?_
  simp only [decodeMaj2a, mbz, field_pack_skip, f_pack_skip, field_pack_zero, f_pack_zero, Nat.reduceLeDiff, Nat.reduceSub, Nat.reducePow, Nat.reduceMod, List.all_cons, List.all_nil, Nat.zero_mod, BEq.rfl, Bool.and_self, if_true]

theorem RoundTrip.sendm (vd : BitVec 5) (ra : BitVec 5) (rb : BitVec 5) : Statement (.sendm vd ra rb) := by
  refine roundTrip32 _ [(1, 1), (7, 0x2a), (5, vd.toNat), (5, ra.toNat), (5, rb.toNat), (9, 1)] rfl (field_pack_zero _ _ _) rfl fun h => ?_
  refine (decode32_2a _ (field_maj _ _)).trans ?_
  simp only [decodeMaj2a, field_pack_skip, f_pack_skip, field_pack_zero, f_pack_zero, Nat.reduceLeDiff, Nat.reduceSub, Nat.reducePow, Nat.reduceMod]

theorem RoundTrip.sends (ra : BitVec 5) (vb : BitVec 5) : Statement (.sends ra vb) := by
  refine roundTrip32 _ [(1, 1), (7, 0x2a), (5, 0), (5, ra.toNat), (5, vb.toNat), (9, 2)] rfl (field_pack_zero _ _ _) rfl fun h => ?_
  refine (decode32_2a _ (field_maj _ _)).trans ?_
  simp only [decodeMaj2a, mbz, field_pack_skip, f_pack_skip, field_pack_zero, f_pack_zero, Nat.reduceLeDiff, Nat.reduceSub, Nat.reducePow, Nat.reduceMod, List.all_cons, List.all_nil, Nat.zero_mod, BEq.rfl, Bool.and_self, if_true]

theorem RoundTrip.sende (ra : BitVec 5) (vb : BitVec 5) : Statement (.sende ra vb) := by
  refine roundTrip32 _ [(1, 1), (7, 0x2a), (5, 0), (5, ra.toNat), (5, vb.toNat), (9, 3)] rfl (field_pack_zero _ _ _) rfl fun h => ?_
  refine (decode32_2a _ (field_maj _ _)).trans ?_
  simp only [decodeMaj2a, mbz, field_pack_skip, f_pack_skip, field_pack_zero, f_pack_zero, Nat.reduceLeDiff, Nat.reduceSub, Nat.reducePow, Nat.reduceMod, List.all_cons, List.all_nil, Nat.zero_mod, BEq.rfl, Bool.and_self, if_true]

theorem RoundTrip.msgld (rd : BitVec 5) (ra : BitVec 5) : Statement (.msgld rd ra) := by
  refine roundTrip32 _ [(1, 1), (7, 0x2a), (5, rd.toNat), (5, ra.toNat), (5, 0), (9, 4)] rfl (field_pack_zero _ _ _) rfl fun h => ?_
  refine (decode32_2a _ (field_maj _ _)).trans ?_
  simp only [decodeMaj2a, mbz, field_pack_skip, f_pack_skip, field_pack_zero, f_pack_zero, Nat.reduceLeDiff, Nat.reduceSub, Nat.reducePow, Nat.reduceMod, List.all_cons, List.all_nil, Nat.zero_mod, BEq.rfl, Bool.and_self, if_true]

theorem RoundTrip.bind (ra : BitVec 5) : Statement (.bind ra) := by
  refine roundTrip32 _ [(1, 1), (7, 0x2b), (5, 0), (5, ra.toNat), (5, 0), (9, 0)] rfl (field_pack_zero _ _ _) rfl fun h => ?_
  refine (decode32_2b _ (field_maj _ _)).trans ?_
  simp only [decodeMaj2b, mbz, field_pack_skip, f_pack_skip, field_pack_zero, f_pack_zero, Nat.reduceLeDiff, Nat.reduceSub, Nat.reducePow, Nat.reduceMod, List.all_cons, List.all_nil, Nat.zero_mod, BEq.rfl, Bool.and_self, if_true]

theorem RoundTrip.unbind (ra : BitVec 5) : Statement (.unbind ra) := by
  refine roundTrip32 _ [(1, 1), (7, 0x2b), (5, 0), (5, ra.toNat), (5, 0), (9, 1)] rfl (field_pack_zero _ _ _) rfl fun h => ?_
  refine (decode32_2b _ (field_maj _ _)).trans ?_
  simp only [decodeMaj2b, mbz, field_pack_skip, f_pack_skip, field_pack_zero, f_pack_zero, Nat.reduceLeDiff, Nat.reduceSub, Nat.reducePow, Nat.reduceMod, List.all_cons, List.all_nil, Nat.zero_mod, BEq.rfl, Bool.and_self, if_true]

theorem RoundTrip.sbind (ra : BitVec 5) (rb : BitVec 5) : Statement (.sbind ra rb) := by
  refine roundTrip32 _ [(1, 1), (7, 0x2b), (5, 0), (5, ra.toNat), (5, rb.toNat), (9, 2)] rfl (field_pack_zero _ _ _) rfl fun h => ?_
  refine (decode32_2b _ (field_maj _ _)).trans ?_
  simp only [decodeMaj2b, mbz, field_pack_skip, f_pack_skip, field_pack_zero, f_pack_zero, Nat.reduceLeDiff, Nat.reduceSub, Nat.reducePow, Nat.reduceMod, List.all_cons, List.all_nil, Nat.zero_mod, BEq.rfl, Bool.and_self, if_true]

theorem RoundTrip.chmask (ra : BitVec 5) : Statement (.chmask ra) := by
  refine roundTrip32 _ [(1, 1), (7, 0x2b), (5, 0), (5, ra.toNat), (5, 0), (9, 3)] rfl (field_pack_zero _ _ _) rfl fun h => ?_
  refine (decode32_2b _ (field_maj _ _)).trans ?_
  simp only [decodeMaj2b, mbz, field_pack_skip, f_pack_skip, field_pack_zero, f_pack_zero, Nat.reduceLeDiff, Nat.reduceSub, Nat.reducePow, Nat.reduceMod, List.all_cons, List.all_nil, Nat.zero_mod, BEq.rfl, Bool.and_self, if_true]

theorem RoundTrip.chunmask (ra : BitVec 5) : Statement (.chunmask ra) := by
  refine roundTrip32 _ [(1, 1), (7, 0x2b), (5, 0), (5, ra.toNat), (5, 0), (9, 4)] rfl (field_pack_zero _ _ _) rfl fun h => ?_
  refine (decode32_2b _ (field_maj _ _)).trans ?_
  simp only [decodeMaj2b, mbz, field_pack_skip, f_pack_skip, field_pack_zero, f_pack_zero, Nat.reduceLeDiff, Nat.reduceSub, Nat.reducePow, Nat.reduceMod, List.all_cons, List.all_nil, Nat.zero_mod, BEq.rfl, Bool.and_self, if_true]

theorem RoundTrip.qstream (q : BitVec 5) (ra : BitVec 5) : Statement (.qstream q ra) := by
  refine roundTrip32 _ [(1, 1), (7, 0x2c), (5, q.toNat), (5, ra.toNat), (5, 0), (9, 0)] rfl (field_pack_zero _ _ _) rfl fun h => ?_
  refine (decode32_2c _ (field_maj _ _)).trans ?_
  simp only [decodeMaj2c, mbz, field_pack_skip, f_pack_skip, field_pack_zero, f_pack_zero, Nat.reduceLeDiff, Nat.reduceSub, Nat.reducePow, Nat.reduceMod, List.all_cons, List.all_nil, Nat.zero_mod, BEq.rfl, Bool.and_self, if_true]

theorem RoundTrip.qrel (q : BitVec 5) : Statement (.qrel q) := by
  refine roundTrip32 _ [(1, 1), (7, 0x2c), (5, q.toNat), (10, 0), (9, 1)] rfl (field_pack_zero _ _ _) rfl fun h => ?_
  refine (decode32_2c _ (field_maj _ _)).trans ?_
  simp only [decodeMaj2c, mbz, field_pack_skip, f_pack_skip, field_pack_zero, f_pack_zero, Nat.reduceLeDiff, Nat.reduceSub, Nat.reducePow, Nat.reduceMod, List.all_cons, List.all_nil, Nat.zero_mod, BEq.rfl, Bool.and_self, if_true]

theorem RoundTrip.qpop (rd : BitVec 5) (q : BitVec 5) : Statement (.qpop rd q) := by
  refine roundTrip32 _ [(1, 1), (7, 0x2c), (5, rd.toNat), (5, q.toNat), (5, 0), (9, 2)] rfl (field_pack_zero _ _ _) rfl fun h => ?_
  refine (decode32_2c _ (field_maj _ _)).trans ?_
  simp only [decodeMaj2c, mbz, field_pack_skip, f_pack_skip, field_pack_zero, f_pack_zero, Nat.reduceLeDiff, Nat.reduceSub, Nat.reducePow, Nat.reduceMod, List.all_cons, List.all_nil, Nat.zero_mod, BEq.rfl, Bool.and_self, if_true]

theorem RoundTrip.qpush (q : BitVec 5) (ra : BitVec 5) : Statement (.qpush q ra) := by
  refine roundTrip32 _ [(1, 1), (7, 0x2c), (5, q.toNat), (5, ra.toNat), (5, 0), (9, 3)] rfl (field_pack_zero _ _ _) rfl fun h => ?_
  refine (decode32_2c _ (field_maj _ _)).trans ?_
  simp only [decodeMaj2c, mbz, field_pack_skip, f_pack_skip, field_pack_zero, f_pack_zero, Nat.reduceLeDiff, Nat.reduceSub, Nat.reducePow, Nat.reduceMod, List.all_cons, List.all_nil, Nat.zero_mod, BEq.rfl, Bool.and_self, if_true]

theorem RoundTrip.qstat (rd : BitVec 5) (q : BitVec 5) : Statement (.qstat rd q) := by
  refine roundTrip32 _ [(1, 1), (7, 0x2c), (5, rd.toNat), (5, q.toNat), (5, 0), (9, 4)] rfl (field_pack_zero _ _ _) rfl fun h => ?_
  refine (decode32_2c _ (field_maj _ _)).trans ?_
  simp only [decodeMaj2c, mbz, field_pack_skip, f_pack_skip, field_pack_zero, f_pack_zero, Nat.reduceLeDiff, Nat.reduceSub, Nat.reducePow, Nat.reduceMod, List.all_cons, List.all_nil, Nat.zero_mod, BEq.rfl, Bool.and_self, if_true]

theorem RoundTrip.rpt (ra : BitVec 5) (rb : BitVec 5) : Statement (.rpt ra rb) := by
  refine roundTrip32 _ [(1, 1), (7, 0x2d), (5, 0), (5, ra.toNat), (5, rb.toNat), (9, 0)] rfl (field_pack_zero _ _ _) rfl fun h => ?_
  refine (decode32_2d _ (field_maj _ _)).trans ?_
  simp only [decodeMaj2d, mbz, field_pack_skip, f_pack_skip, field_pack_zero, f_pack_zero, Nat.reduceLeDiff, Nat.reduceSub, Nat.reducePow, Nat.reduceMod, List.all_cons, List.all_nil, Nat.zero_mod, BEq.rfl, Bool.and_self, if_true]

theorem RoundTrip.rptw (rd : BitVec 5) : Statement (.rptw rd) := by
  refine roundTrip32 _ [(1, 1), (7, 0x2d), (5, rd.toNat), (10, 0), (9, 1)] rfl (field_pack_zero _ _ _) rfl fun h => ?_
  refine (decode32_2d _ (field_maj _ _)).trans ?_
  simp only [decodeMaj2d, mbz, field_pack_skip, f_pack_skip, field_pack_zero, f_pack_zero, Nat.reduceLeDiff, Nat.reduceSub, Nat.reducePow, Nat.reduceMod, List.all_cons, List.all_nil, Nat.zero_mod, BEq.rfl, Bool.and_self, if_true]

theorem RoundTrip.vld (rt : BitVec 5) (ra : BitVec 5) (w : BitVec 2) (sc : BitVec 3) (ord : BitVec 2) (imm : BitVec 7) : Statement (.vld rt ra w sc ord imm) := by
  refine roundTrip32 _ [(1, 1), (7, 0x30), (5, rt.toNat), (5, ra.toNat), (2, w.toNat), (3, sc.toNat), (2, ord.toNat), (7, imm.toNat)] rfl (field_pack_zero _ _ _) rfl fun h => ?_
  refine (decode32_30 _ (field_maj _ _)).trans ?_
  simp only [field_pack_skip, f_pack_skip, field_pack_zero, f_pack_zero, Nat.reduceLeDiff, Nat.reduceSub, Nat.reducePow, Nat.reduceMod]

theorem RoundTrip.vst (rt : BitVec 5) (ra : BitVec 5) (w : BitVec 2) (sc : BitVec 3) (ord : BitVec 2) (imm : BitVec 7) : Statement (.vst rt ra w sc ord imm) := by
  refine roundTrip32 _ [(1, 1), (7, 0x31), (5, rt.toNat), (5, ra.toNat), (2, w.toNat), (3, sc.toNat), (2, ord.toNat), (7, imm.toNat)] rfl (field_pack_zero _ _ _) rfl fun h => ?_
  refine (decode32_31 _ (field_maj _ _)).trans ?_
  simp only [field_pack_skip, f_pack_skip, field_pack_zero, f_pack_zero, Nat.reduceLeDiff, Nat.reduceSub, Nat.reducePow, Nat.reduceMod]

theorem RoundTrip.vldf (rt : BitVec 5) (ra : BitVec 5) (w : BitVec 2) (sc : BitVec 3) (imm : BitVec 7) : Statement (.vldf rt ra w sc imm) := by
  refine roundTrip32 _ [(1, 1), (7, 0x32), (5, rt.toNat), (5, ra.toNat), (2, w.toNat), (3, sc.toNat), (2, 0), (7, imm.toNat)] rfl (field_pack_zero _ _ _) rfl fun h => ?_
  refine (decode32_32 _ (field_maj _ _)).trans ?_
  simp only [decodeMaj32, field_pack_skip, f_pack_skip, field_pack_zero, f_pack_zero, Nat.reduceLeDiff, Nat.reduceSub, Nat.reducePow, Nat.reduceMod]

theorem RoundTrip.vldfC (rt : BitVec 5) (ra : BitVec 5) (w : BitVec 2) (sc : BitVec 3) (imm : BitVec 7) : Statement (.vldfC rt ra w sc imm) := by
  refine roundTrip32 _ [(1, 1), (7, 0x32), (5, rt.toNat), (5, ra.toNat), (2, w.toNat), (3, sc.toNat), (2, 1), (7, imm.toNat)] rfl (field_pack_zero _ _ _) rfl fun h => ?_
  refine (decode32_32 _ (field_maj _ _)).trans ?_
  simp only [decodeMaj32, field_pack_skip, f_pack_skip, field_pack_zero, f_pack_zero, Nat.reduceLeDiff, Nat.reduceSub, Nat.reducePow, Nat.reduceMod]

theorem RoundTrip.vstf (rt : BitVec 5) (ra : BitVec 5) (w : BitVec 2) (sc : BitVec 3) (imm : BitVec 7) : Statement (.vstf rt ra w sc imm) := by
  refine roundTrip32 _ [(1, 1), (7, 0x33), (5, rt.toNat), (5, ra.toNat), (2, w.toNat), (3, sc.toNat), (2, 0), (7, imm.toNat)] rfl (field_pack_zero _ _ _) rfl fun h => ?_
  refine (decode32_33 _ (field_maj _ _)).trans ?_
  simp only [decodeMaj33, field_pack_skip, f_pack_skip, field_pack_zero, f_pack_zero, Nat.reduceLeDiff, Nat.reduceSub, Nat.reducePow, Nat.reduceMod]

theorem RoundTrip.vldL (vd : BitVec 5) (lay : BitVec 6) (rc : BitVec 5) (w : BitVec 2) (sc : BitVec 3) : Statement (.vldL vd lay rc w sc) := by
  refine roundTrip32 _ [(1, 1), (7, 0x34), (5, vd.toNat), (6, lay.toNat), (5, rc.toNat), (2, w.toNat), (3, sc.toNat), (3, 0)] rfl (field_pack_zero _ _ _) rfl fun h => ?_
  refine (decode32_34 _ (field_maj _ _)).trans ?_
  simp only [decodeMaj34, field_pack_skip, f_pack_skip, field_pack_zero, f_pack_zero, Nat.reduceLeDiff, Nat.reduceSub, Nat.reducePow, Nat.reduceMod]

theorem RoundTrip.vstL (vd : BitVec 5) (lay : BitVec 6) (rc : BitVec 5) (w : BitVec 2) (sc : BitVec 3) : Statement (.vstL vd lay rc w sc) := by
  refine roundTrip32 _ [(1, 1), (7, 0x34), (5, vd.toNat), (6, lay.toNat), (5, rc.toNat), (2, w.toNat), (3, sc.toNat), (3, 1)] rfl (field_pack_zero _ _ _) rfl fun h => ?_
  refine (decode32_34 _ (field_maj _ _)).trans ?_
  simp only [decodeMaj34, field_pack_skip, f_pack_skip, field_pack_zero, f_pack_zero, Nat.reduceLeDiff, Nat.reduceSub, Nat.reducePow, Nat.reduceMod]

theorem RoundTrip.vldfL (vd : BitVec 5) (lay : BitVec 6) (rc : BitVec 5) (w : BitVec 2) (sc : BitVec 3) : Statement (.vldfL vd lay rc w sc) := by
  refine roundTrip32 _ [(1, 1), (7, 0x34), (5, vd.toNat), (6, lay.toNat), (5, rc.toNat), (2, w.toNat), (3, sc.toNat), (3, 2)] rfl (field_pack_zero _ _ _) rfl fun h => ?_
  refine (decode32_34 _ (field_maj _ _)).trans ?_
  simp only [decodeMaj34, field_pack_skip, f_pack_skip, field_pack_zero, f_pack_zero, Nat.reduceLeDiff, Nat.reduceSub, Nat.reducePow, Nat.reduceMod]

theorem RoundTrip.vldfCL (vd : BitVec 5) (lay : BitVec 6) (rc : BitVec 5) (w : BitVec 2) (sc : BitVec 3) : Statement (.vldfCL vd lay rc w sc) := by
  refine roundTrip32 _ [(1, 1), (7, 0x34), (5, vd.toNat), (6, lay.toNat), (5, rc.toNat), (2, w.toNat), (3, sc.toNat), (3, 3)] rfl (field_pack_zero _ _ _) rfl fun h => ?_
  refine (decode32_34 _ (field_maj _ _)).trans ?_
  simp only [decodeMaj34, field_pack_skip, f_pack_skip, field_pack_zero, f_pack_zero, Nat.reduceLeDiff, Nat.reduceSub, Nat.reducePow, Nat.reduceMod]

theorem RoundTrip.vstfL (vd : BitVec 5) (lay : BitVec 6) (rc : BitVec 5) (w : BitVec 2) (sc : BitVec 3) : Statement (.vstfL vd lay rc w sc) := by
  refine roundTrip32 _ [(1, 1), (7, 0x34), (5, vd.toNat), (6, lay.toNat), (5, rc.toNat), (2, w.toNat), (3, sc.toNat), (3, 4)] rfl (field_pack_zero _ _ _) rfl fun h => ?_
  refine (decode32_34 _ (field_maj _ _)).trans ?_
  simp only [decodeMaj34, field_pack_skip, f_pack_skip, field_pack_zero, f_pack_zero, Nat.reduceLeDiff, Nat.reduceSub, Nat.reducePow, Nat.reduceMod]

theorem RoundTrip.vadd (vd : BitVec 5) (va : BitVec 5) (vb : BitVec 5) (m : BitVec 3) : Statement (.vadd vd va vb m) := by
  refine roundTrip32 _ [(1, 1), (7, 0x35), (5, vd.toNat), (5, va.toNat), (5, vb.toNat), (3, m.toNat), (6, 0)] rfl (field_pack_zero _ _ _) rfl fun h => ?_
  refine (decode32_35 _ (field_maj _ _)).trans ?_
  simp only [decodeMaj35, field_pack_skip, f_pack_skip, field_pack_zero, f_pack_zero, Nat.reduceLeDiff, Nat.reduceSub, Nat.reducePow, Nat.reduceMod]

theorem RoundTrip.vsub (vd : BitVec 5) (va : BitVec 5) (vb : BitVec 5) (m : BitVec 3) : Statement (.vsub vd va vb m) := by
  refine roundTrip32 _ [(1, 1), (7, 0x35), (5, vd.toNat), (5, va.toNat), (5, vb.toNat), (3, m.toNat), (6, 1)] rfl (field_pack_zero _ _ _) rfl fun h => ?_
  refine (decode32_35 _ (field_maj _ _)).trans ?_
  simp only [decodeMaj35, field_pack_skip, f_pack_skip, field_pack_zero, f_pack_zero, Nat.reduceLeDiff, Nat.reduceSub, Nat.reducePow, Nat.reduceMod]

theorem RoundTrip.vmul (vd : BitVec 5) (va : BitVec 5) (vb : BitVec 5) (m : BitVec 3) : Statement (.vmul vd va vb m) := by
  refine roundTrip32 _ [(1, 1), (7, 0x35), (5, vd.toNat), (5, va.toNat), (5, vb.toNat), (3, m.toNat), (6, 2)] rfl (field_pack_zero _ _ _) rfl fun h => ?_
  refine (decode32_35 _ (field_maj _ _)).trans ?_
  simp only [decodeMaj35, field_pack_skip, f_pack_skip, field_pack_zero, f_pack_zero, Nat.reduceLeDiff, Nat.reduceSub, Nat.reducePow, Nat.reduceMod]

theorem RoundTrip.vfma (vd : BitVec 5) (va : BitVec 5) (vb : BitVec 5) (m : BitVec 3) : Statement (.vfma vd va vb m) := by
  refine roundTrip32 _ [(1, 1), (7, 0x35), (5, vd.toNat), (5, va.toNat), (5, vb.toNat), (3, m.toNat), (6, 3)] rfl (field_pack_zero _ _ _) rfl fun h => ?_
  refine (decode32_35 _ (field_maj _ _)).trans ?_
  simp only [decodeMaj35, field_pack_skip, f_pack_skip, field_pack_zero, f_pack_zero, Nat.reduceLeDiff, Nat.reduceSub, Nat.reducePow, Nat.reduceMod]

theorem RoundTrip.vfms (vd : BitVec 5) (va : BitVec 5) (vb : BitVec 5) (m : BitVec 3) : Statement (.vfms vd va vb m) := by
  refine roundTrip32 _ [(1, 1), (7, 0x35), (5, vd.toNat), (5, va.toNat), (5, vb.toNat), (3, m.toNat), (6, 4)] rfl (field_pack_zero _ _ _) rfl fun h => ?_
  refine (decode32_35 _ (field_maj _ _)).trans ?_
  simp only [decodeMaj35, field_pack_skip, f_pack_skip, field_pack_zero, f_pack_zero, Nat.reduceLeDiff, Nat.reduceSub, Nat.reducePow, Nat.reduceMod]

theorem RoundTrip.vmax (vd : BitVec 5) (va : BitVec 5) (vb : BitVec 5) (m : BitVec 3) : Statement (.vmax vd va vb m) := by
  refine roundTrip32 _ [(1, 1), (7, 0x35), (5, vd.toNat), (5, va.toNat), (5, vb.toNat), (3, m.toNat), (6, 5)] rfl (field_pack_zero _ _ _) rfl fun h => ?_
  refine (decode32_35 _ (field_maj _ _)).trans ?_
  simp only [decodeMaj35, field_pack_skip, f_pack_skip, field_pack_zero, f_pack_zero, Nat.reduceLeDiff, Nat.reduceSub, Nat.reducePow, Nat.reduceMod]

theorem RoundTrip.vmin (vd : BitVec 5) (va : BitVec 5) (vb : BitVec 5) (m : BitVec 3) : Statement (.vmin vd va vb m) := by
  refine roundTrip32 _ [(1, 1), (7, 0x35), (5, vd.toNat), (5, va.toNat), (5, vb.toNat), (3, m.toNat), (6, 6)] rfl (field_pack_zero _ _ _) rfl fun h => ?_
  refine (decode32_35 _ (field_maj _ _)).trans ?_
  simp only [decodeMaj35, field_pack_skip, f_pack_skip, field_pack_zero, f_pack_zero, Nat.reduceLeDiff, Nat.reduceSub, Nat.reducePow, Nat.reduceMod]

theorem RoundTrip.vabs (vd : BitVec 5) (va : BitVec 5) (m : BitVec 3) : Statement (.vabs vd va m) := by
  refine roundTrip32 _ [(1, 1), (7, 0x35), (5, vd.toNat), (5, va.toNat), (5, 0), (3, m.toNat), (6, 7)] rfl (field_pack_zero _ _ _) rfl fun h => ?_
  refine (decode32_35 _ (field_maj _ _)).trans ?_
  simp only [decodeMaj35, mbz, field_pack_skip, f_pack_skip, field_pack_zero, f_pack_zero, Nat.reduceLeDiff, Nat.reduceSub, Nat.reducePow, Nat.reduceMod, List.all_cons, List.all_nil, Nat.zero_mod, BEq.rfl, Bool.and_self, if_true]

theorem RoundTrip.vneg (vd : BitVec 5) (va : BitVec 5) (m : BitVec 3) : Statement (.vneg vd va m) := by
  refine roundTrip32 _ [(1, 1), (7, 0x35), (5, vd.toNat), (5, va.toNat), (5, 0), (3, m.toNat), (6, 8)] rfl (field_pack_zero _ _ _) rfl fun h => ?_
  refine (decode32_35 _ (field_maj _ _)).trans ?_
  simp only [decodeMaj35, mbz, field_pack_skip, f_pack_skip, field_pack_zero, f_pack_zero, Nat.reduceLeDiff, Nat.reduceSub, Nat.reducePow, Nat.reduceMod, List.all_cons, List.all_nil, Nat.zero_mod, BEq.rfl, Bool.and_self, if_true]

theorem RoundTrip.vrcp (vd : BitVec 5) (va : BitVec 5) (m : BitVec 3) : Statement (.vrcp vd va m) := by
  refine roundTrip32 _ [(1, 1), (7, 0x36), (5, vd.toNat), (5, va.toNat), (5, 0), (3, m.toNat), (6, 0)] rfl (field_pack_zero _ _ _) rfl fun h => ?_
  refine (decode32_36 _ (field_maj _ _)).trans ?_
  simp only [decodeMaj36, mbz, field_pack_skip, f_pack_skip, field_pack_zero, f_pack_zero, Nat.reduceLeDiff, Nat.reduceSub, Nat.reducePow, Nat.reduceMod, List.all_cons, List.all_nil, Nat.zero_mod, BEq.rfl, Bool.and_self, if_true]

theorem RoundTrip.vrsq (vd : BitVec 5) (va : BitVec 5) (m : BitVec 3) : Statement (.vrsq vd va m) := by
  refine roundTrip32 _ [(1, 1), (7, 0x36), (5, vd.toNat), (5, va.toNat), (5, 0), (3, m.toNat), (6, 1)] rfl (field_pack_zero _ _ _) rfl fun h => ?_
  refine (decode32_36 _ (field_maj _ _)).trans ?_
  simp only [decodeMaj36, mbz, field_pack_skip, f_pack_skip, field_pack_zero, f_pack_zero, Nat.reduceLeDiff, Nat.reduceSub, Nat.reducePow, Nat.reduceMod, List.all_cons, List.all_nil, Nat.zero_mod, BEq.rfl, Bool.and_self, if_true]

theorem RoundTrip.vexp (vd : BitVec 5) (va : BitVec 5) (m : BitVec 3) : Statement (.vexp vd va m) := by
  refine roundTrip32 _ [(1, 1), (7, 0x36), (5, vd.toNat), (5, va.toNat), (5, 0), (3, m.toNat), (6, 2)] rfl (field_pack_zero _ _ _) rfl fun h => ?_
  refine (decode32_36 _ (field_maj _ _)).trans ?_
  simp only [decodeMaj36, mbz, field_pack_skip, f_pack_skip, field_pack_zero, f_pack_zero, Nat.reduceLeDiff, Nat.reduceSub, Nat.reducePow, Nat.reduceMod, List.all_cons, List.all_nil, Nat.zero_mod, BEq.rfl, Bool.and_self, if_true]

theorem RoundTrip.vlog (vd : BitVec 5) (va : BitVec 5) (m : BitVec 3) : Statement (.vlog vd va m) := by
  refine roundTrip32 _ [(1, 1), (7, 0x36), (5, vd.toNat), (5, va.toNat), (5, 0), (3, m.toNat), (6, 3)] rfl (field_pack_zero _ _ _) rfl fun h => ?_
  refine (decode32_36 _ (field_maj _ _)).trans ?_
  simp only [decodeMaj36, mbz, field_pack_skip, f_pack_skip, field_pack_zero, f_pack_zero, Nat.reduceLeDiff, Nat.reduceSub, Nat.reducePow, Nat.reduceMod, List.all_cons, List.all_nil, Nat.zero_mod, BEq.rfl, Bool.and_self, if_true]

theorem RoundTrip.vsigm (vd : BitVec 5) (va : BitVec 5) (m : BitVec 3) : Statement (.vsigm vd va m) := by
  refine roundTrip32 _ [(1, 1), (7, 0x36), (5, vd.toNat), (5, va.toNat), (5, 0), (3, m.toNat), (6, 4)] rfl (field_pack_zero _ _ _) rfl fun h => ?_
  refine (decode32_36 _ (field_maj _ _)).trans ?_
  simp only [decodeMaj36, mbz, field_pack_skip, f_pack_skip, field_pack_zero, f_pack_zero, Nat.reduceLeDiff, Nat.reduceSub, Nat.reducePow, Nat.reduceMod, List.all_cons, List.all_nil, Nat.zero_mod, BEq.rfl, Bool.and_self, if_true]

theorem RoundTrip.vtanh (vd : BitVec 5) (va : BitVec 5) (m : BitVec 3) : Statement (.vtanh vd va m) := by
  refine roundTrip32 _ [(1, 1), (7, 0x36), (5, vd.toNat), (5, va.toNat), (5, 0), (3, m.toNat), (6, 5)] rfl (field_pack_zero _ _ _) rfl fun h => ?_
  refine (decode32_36 _ (field_maj _ _)).trans ?_
  simp only [decodeMaj36, mbz, field_pack_skip, f_pack_skip, field_pack_zero, f_pack_zero, Nat.reduceLeDiff, Nat.reduceSub, Nat.reducePow, Nat.reduceMod, List.all_cons, List.all_nil, Nat.zero_mod, BEq.rfl, Bool.and_self, if_true]

theorem RoundTrip.vcvt (vd : BitVec 5) (va : BitVec 5) (p : BitVec 2) (f : BitVec 6) : Statement (.vcvt vd va p f) := by
  refine roundTrip32 _ [(1, 1), (7, 0x37), (5, vd.toNat), (5, va.toNat), (5, 0), (2, p.toNat), (1, 0), (6, f.toNat)] rfl (field_pack_zero _ _ _) rfl fun h => ?_
  refine (decode32_37 _ (field_maj _ _)).trans ?_
  have lt : f.toNat < 64 := f.isLt
  simp [wellFormed, conversionPart] at h
  simp [mbz, field_pack_skip, f_pack_skip]
  simp [field, pack]
  revert h lt
  generalize f.toNat = a
  intro h lt
  have := lt.2.1
  rw [Nat.mod_eq_of_lt h, Nat.mod_eq_of_lt (by omega : a / 8 < 8)]
  omega

theorem RoundTrip.vreda (vd : BitVec 5) (va : BitVec 5) (m : BitVec 3) : Statement (.vreda vd va m) := by
  refine roundTrip32 _ [(1, 1), (7, 0x38), (5, vd.toNat), (5, va.toNat), (5, 0), (3, m.toNat), (6, 0)] rfl (field_pack_zero _ _ _) rfl fun h => ?_
  refine (decode32_38 _ (field_maj _ _)).trans ?_
  simp only [decodeMaj38, mbz, field_pack_skip, f_pack_skip, field_pack_zero, f_pack_zero, Nat.reduceLeDiff, Nat.reduceSub, Nat.reducePow, Nat.reduceMod, List.all_cons, List.all_nil, Nat.zero_mod, BEq.rfl, Bool.and_self, if_true]

theorem RoundTrip.vredx (vd : BitVec 5) (va : BitVec 5) (m : BitVec 3) : Statement (.vredx vd va m) := by
  refine roundTrip32 _ [(1, 1), (7, 0x38), (5, vd.toNat), (5, va.toNat), (5, 0), (3, m.toNat), (6, 1)] rfl (field_pack_zero _ _ _) rfl fun h => ?_
  refine (decode32_38 _ (field_maj _ _)).trans ?_
  simp only [decodeMaj38, mbz, field_pack_skip, f_pack_skip, field_pack_zero, f_pack_zero, Nat.reduceLeDiff, Nat.reduceSub, Nat.reducePow, Nat.reduceMod, List.all_cons, List.all_nil, Nat.zero_mod, BEq.rfl, Bool.and_self, if_true]

theorem RoundTrip.vcmpEq (vd : BitVec 5) (va : BitVec 5) (vb : BitVec 5) (m : BitVec 3) : Statement (.vcmpEq vd va vb m) := by
  refine roundTrip32 _ [(1, 1), (7, 0x38), (5, vd.toNat), (5, va.toNat), (5, vb.toNat), (3, m.toNat), (6, 2)] rfl (field_pack_zero _ _ _) rfl fun h => ?_
  refine (decode32_38 _ (field_maj _ _)).trans ?_
  simp only [decodeMaj38, field_pack_skip, f_pack_skip, field_pack_zero, f_pack_zero, Nat.reduceLeDiff, Nat.reduceSub, Nat.reducePow, Nat.reduceMod]

theorem RoundTrip.vcmpNe (vd : BitVec 5) (va : BitVec 5) (vb : BitVec 5) (m : BitVec 3) : Statement (.vcmpNe vd va vb m) := by
  refine roundTrip32 _ [(1, 1), (7, 0x38), (5, vd.toNat), (5, va.toNat), (5, vb.toNat), (3, m.toNat), (6, 3)] rfl (field_pack_zero _ _ _) rfl fun h => ?_
  refine (decode32_38 _ (field_maj _ _)).trans ?_
  simp only [decodeMaj38, field_pack_skip, f_pack_skip, field_pack_zero, f_pack_zero, Nat.reduceLeDiff, Nat.reduceSub, Nat.reducePow, Nat.reduceMod]

theorem RoundTrip.vcmpLt (vd : BitVec 5) (va : BitVec 5) (vb : BitVec 5) (m : BitVec 3) : Statement (.vcmpLt vd va vb m) := by
  refine roundTrip32 _ [(1, 1), (7, 0x38), (5, vd.toNat), (5, va.toNat), (5, vb.toNat), (3, m.toNat), (6, 4)] rfl (field_pack_zero _ _ _) rfl fun h => ?_
  refine (decode32_38 _ (field_maj _ _)).trans ?_
  simp only [decodeMaj38, field_pack_skip, f_pack_skip, field_pack_zero, f_pack_zero, Nat.reduceLeDiff, Nat.reduceSub, Nat.reducePow, Nat.reduceMod]

theorem RoundTrip.vcmpLe (vd : BitVec 5) (va : BitVec 5) (vb : BitVec 5) (m : BitVec 3) : Statement (.vcmpLe vd va vb m) := by
  refine roundTrip32 _ [(1, 1), (7, 0x38), (5, vd.toNat), (5, va.toNat), (5, vb.toNat), (3, m.toNat), (6, 5)] rfl (field_pack_zero _ _ _) rfl fun h => ?_
  refine (decode32_38 _ (field_maj _ _)).trans ?_
  simp only [decodeMaj38, field_pack_skip, f_pack_skip, field_pack_zero, f_pack_zero, Nat.reduceLeDiff, Nat.reduceSub, Nat.reducePow, Nat.reduceMod]

theorem RoundTrip.vcmpGt (vd : BitVec 5) (va : BitVec 5) (vb : BitVec 5) (m : BitVec 3) : Statement (.vcmpGt vd va vb m) := by
  refine roundTrip32 _ [(1, 1), (7, 0x38), (5, vd.toNat), (5, va.toNat), (5, vb.toNat), (3, m.toNat), (6, 6)] rfl (field_pack_zero _ _ _) rfl fun h => ?_
  refine (decode32_38 _ (field_maj _ _)).trans ?_
  simp only [decodeMaj38, field_pack_skip, f_pack_skip, field_pack_zero, f_pack_zero, Nat.reduceLeDiff, Nat.reduceSub, Nat.reducePow, Nat.reduceMod]

theorem RoundTrip.vcmpGe (vd : BitVec 5) (va : BitVec 5) (vb : BitVec 5) (m : BitVec 3) : Statement (.vcmpGe vd va vb m) := by
  refine roundTrip32 _ [(1, 1), (7, 0x38), (5, vd.toNat), (5, va.toNat), (5, vb.toNat), (3, m.toNat), (6, 7)] rfl (field_pack_zero _ _ _) rfl fun h => ?_
  refine (decode32_38 _ (field_maj _ _)).trans ?_
  simp only [decodeMaj38, field_pack_skip, f_pack_skip, field_pack_zero, f_pack_zero, Nat.reduceLeDiff, Nat.reduceSub, Nat.reducePow, Nat.reduceMod]

theorem RoundTrip.vsel (vd : BitVec 5) (va : BitVec 5) (vb : BitVec 5) (k : BitVec 3) : Statement (.vsel vd va vb k) := by
  refine roundTrip32 _ [(1, 1), (7, 0x38), (5, vd.toNat), (5, va.toNat), (5, vb.toNat), (3, k.toNat), (6, 8)] rfl (field_pack_zero _ _ _) rfl fun h => ?_
  refine (decode32_38 _ (field_maj _ _)).trans ?_
  simp only [decodeMaj38, field_pack_skip, f_pack_skip, field_pack_zero, f_pack_zero, Nat.reduceLeDiff, Nat.reduceSub, Nat.reducePow, Nat.reduceMod]

theorem RoundTrip.vperm (vd : BitVec 5) (va : BitVec 5) (vb : BitVec 5) (m : BitVec 3) : Statement (.vperm vd va vb m) := by
  refine roundTrip32 _ [(1, 1), (7, 0x38), (5, vd.toNat), (5, va.toNat), (5, vb.toNat), (3, m.toNat), (6, 9)] rfl (field_pack_zero _ _ _) rfl fun h => ?_
  refine (decode32_38 _ (field_maj _ _)).trans ?_
  simp only [decodeMaj38, field_pack_skip, f_pack_skip, field_pack_zero, f_pack_zero, Nat.reduceLeDiff, Nat.reduceSub, Nat.reducePow, Nat.reduceMod]

theorem RoundTrip.vbcst (vd : BitVec 5) (ra : BitVec 5) (m : BitVec 3) : Statement (.vbcst vd ra m) := by
  refine roundTrip32 _ [(1, 1), (7, 0x38), (5, vd.toNat), (5, ra.toNat), (5, 0), (3, m.toNat), (6, 0xa)] rfl (field_pack_zero _ _ _) rfl fun h => ?_
  refine (decode32_38 _ (field_maj _ _)).trans ?_
  simp only [decodeMaj38, mbz, field_pack_skip, f_pack_skip, field_pack_zero, f_pack_zero, Nat.reduceLeDiff, Nat.reduceSub, Nat.reducePow, Nat.reduceMod, List.all_cons, List.all_nil, Nat.zero_mod, BEq.rfl, Bool.and_self, if_true]

theorem RoundTrip.vmvx (rd : BitVec 5) (va : BitVec 5) (rb : BitVec 5) : Statement (.vmvx rd va rb) := by
  refine roundTrip32 _ [(1, 1), (7, 0x38), (5, rd.toNat), (5, va.toNat), (5, rb.toNat), (3, 0), (6, 0xb)] rfl (field_pack_zero _ _ _) rfl fun h => ?_
  refine (decode32_38 _ (field_maj _ _)).trans ?_
  simp only [decodeMaj38, mbz, field_pack_skip, f_pack_skip, field_pack_zero, f_pack_zero, Nat.reduceLeDiff, Nat.reduceSub, Nat.reducePow, Nat.reduceMod, List.all_cons, List.all_nil, Nat.zero_mod, BEq.rfl, Bool.and_self, if_true]

theorem RoundTrip.vmvs (vd : BitVec 5) (ra : BitVec 5) (rb : BitVec 5) : Statement (.vmvs vd ra rb) := by
  refine roundTrip32 _ [(1, 1), (7, 0x38), (5, vd.toNat), (5, ra.toNat), (5, rb.toNat), (3, 0), (6, 0xc)] rfl (field_pack_zero _ _ _) rfl fun h => ?_
  refine (decode32_38 _ (field_maj _ _)).trans ?_
  simp only [decodeMaj38, mbz, field_pack_skip, f_pack_skip, field_pack_zero, f_pack_zero, Nat.reduceLeDiff, Nat.reduceSub, Nat.reducePow, Nat.reduceMod, List.all_cons, List.all_nil, Nat.zero_mod, BEq.rfl, Bool.and_self, if_true]

theorem RoundTrip.vsetl (rd : BitVec 5) (ra : BitVec 5) : Statement (.vsetl rd ra) := by
  refine roundTrip32 _ [(1, 1), (7, 0x38), (5, rd.toNat), (5, ra.toNat), (8, 0), (6, 0xd)] rfl (field_pack_zero _ _ _) rfl fun h => ?_
  refine (decode32_38 _ (field_maj _ _)).trans ?_
  simp only [decodeMaj38, mbz, field_pack_skip, f_pack_skip, field_pack_zero, f_pack_zero, Nat.reduceLeDiff, Nat.reduceSub, Nat.reducePow, Nat.reduceMod, List.all_cons, List.all_nil, Nat.zero_mod, BEq.rfl, Bool.and_self, if_true]

theorem RoundTrip.viadd (vd : BitVec 5) (va : BitVec 5) (vb : BitVec 5) (m : BitVec 3) (e : BitVec 2) : Statement (.viadd vd va vb m e) := by
  refine roundTrip32 _ [(1, 1), (7, 0x39), (5, vd.toNat), (5, va.toNat), (5, vb.toNat), (3, m.toNat), (4, 0), (2, e.toNat)] rfl (field_pack_zero _ _ _) rfl fun h => ?_
  refine (decode32_39 _ (field_maj _ _)).trans ?_
  simp only [decodeMaj39, field_pack_skip, f_pack_skip, field_pack_zero, f_pack_zero, Nat.reduceLeDiff, Nat.reduceSub, Nat.reducePow, Nat.reduceMod]

theorem RoundTrip.visub (vd : BitVec 5) (va : BitVec 5) (vb : BitVec 5) (m : BitVec 3) (e : BitVec 2) : Statement (.visub vd va vb m e) := by
  refine roundTrip32 _ [(1, 1), (7, 0x39), (5, vd.toNat), (5, va.toNat), (5, vb.toNat), (3, m.toNat), (4, 1), (2, e.toNat)] rfl (field_pack_zero _ _ _) rfl fun h => ?_
  refine (decode32_39 _ (field_maj _ _)).trans ?_
  simp only [decodeMaj39, field_pack_skip, f_pack_skip, field_pack_zero, f_pack_zero, Nat.reduceLeDiff, Nat.reduceSub, Nat.reducePow, Nat.reduceMod]

theorem RoundTrip.vimul (vd : BitVec 5) (va : BitVec 5) (vb : BitVec 5) (m : BitVec 3) (e : BitVec 2) : Statement (.vimul vd va vb m e) := by
  refine roundTrip32 _ [(1, 1), (7, 0x39), (5, vd.toNat), (5, va.toNat), (5, vb.toNat), (3, m.toNat), (4, 2), (2, e.toNat)] rfl (field_pack_zero _ _ _) rfl fun h => ?_
  refine (decode32_39 _ (field_maj _ _)).trans ?_
  simp only [decodeMaj39, field_pack_skip, f_pack_skip, field_pack_zero, f_pack_zero, Nat.reduceLeDiff, Nat.reduceSub, Nat.reducePow, Nat.reduceMod]

theorem RoundTrip.viand (vd : BitVec 5) (va : BitVec 5) (vb : BitVec 5) (m : BitVec 3) (e : BitVec 2) : Statement (.viand vd va vb m e) := by
  refine roundTrip32 _ [(1, 1), (7, 0x39), (5, vd.toNat), (5, va.toNat), (5, vb.toNat), (3, m.toNat), (4, 3), (2, e.toNat)] rfl (field_pack_zero _ _ _) rfl fun h => ?_
  refine (decode32_39 _ (field_maj _ _)).trans ?_
  simp only [decodeMaj39, field_pack_skip, f_pack_skip, field_pack_zero, f_pack_zero, Nat.reduceLeDiff, Nat.reduceSub, Nat.reducePow, Nat.reduceMod]

theorem RoundTrip.vior (vd : BitVec 5) (va : BitVec 5) (vb : BitVec 5) (m : BitVec 3) (e : BitVec 2) : Statement (.vior vd va vb m e) := by
  refine roundTrip32 _ [(1, 1), (7, 0x39), (5, vd.toNat), (5, va.toNat), (5, vb.toNat), (3, m.toNat), (4, 4), (2, e.toNat)] rfl (field_pack_zero _ _ _) rfl fun h => ?_
  refine (decode32_39 _ (field_maj _ _)).trans ?_
  simp only [decodeMaj39, field_pack_skip, f_pack_skip, field_pack_zero, f_pack_zero, Nat.reduceLeDiff, Nat.reduceSub, Nat.reducePow, Nat.reduceMod]

theorem RoundTrip.vixor (vd : BitVec 5) (va : BitVec 5) (vb : BitVec 5) (m : BitVec 3) (e : BitVec 2) : Statement (.vixor vd va vb m e) := by
  refine roundTrip32 _ [(1, 1), (7, 0x39), (5, vd.toNat), (5, va.toNat), (5, vb.toNat), (3, m.toNat), (4, 5), (2, e.toNat)] rfl (field_pack_zero _ _ _) rfl fun h => ?_
  refine (decode32_39 _ (field_maj _ _)).trans ?_
  simp only [decodeMaj39, field_pack_skip, f_pack_skip, field_pack_zero, f_pack_zero, Nat.reduceLeDiff, Nat.reduceSub, Nat.reducePow, Nat.reduceMod]

theorem RoundTrip.visll (vd : BitVec 5) (va : BitVec 5) (vb : BitVec 5) (m : BitVec 3) (e : BitVec 2) : Statement (.visll vd va vb m e) := by
  refine roundTrip32 _ [(1, 1), (7, 0x39), (5, vd.toNat), (5, va.toNat), (5, vb.toNat), (3, m.toNat), (4, 6), (2, e.toNat)] rfl (field_pack_zero _ _ _) rfl fun h => ?_
  refine (decode32_39 _ (field_maj _ _)).trans ?_
  simp only [decodeMaj39, field_pack_skip, f_pack_skip, field_pack_zero, f_pack_zero, Nat.reduceLeDiff, Nat.reduceSub, Nat.reducePow, Nat.reduceMod]

theorem RoundTrip.visrl (vd : BitVec 5) (va : BitVec 5) (vb : BitVec 5) (m : BitVec 3) (e : BitVec 2) : Statement (.visrl vd va vb m e) := by
  refine roundTrip32 _ [(1, 1), (7, 0x39), (5, vd.toNat), (5, va.toNat), (5, vb.toNat), (3, m.toNat), (4, 7), (2, e.toNat)] rfl (field_pack_zero _ _ _) rfl fun h => ?_
  refine (decode32_39 _ (field_maj _ _)).trans ?_
  simp only [decodeMaj39, field_pack_skip, f_pack_skip, field_pack_zero, f_pack_zero, Nat.reduceLeDiff, Nat.reduceSub, Nat.reducePow, Nat.reduceMod]

theorem RoundTrip.visra (vd : BitVec 5) (va : BitVec 5) (vb : BitVec 5) (m : BitVec 3) (e : BitVec 2) : Statement (.visra vd va vb m e) := by
  refine roundTrip32 _ [(1, 1), (7, 0x39), (5, vd.toNat), (5, va.toNat), (5, vb.toNat), (3, m.toNat), (4, 8), (2, e.toNat)] rfl (field_pack_zero _ _ _) rfl fun h => ?_
  refine (decode32_39 _ (field_maj _ _)).trans ?_
  simp only [decodeMaj39, field_pack_skip, f_pack_skip, field_pack_zero, f_pack_zero, Nat.reduceLeDiff, Nat.reduceSub, Nat.reducePow, Nat.reduceMod]

theorem RoundTrip.mma (ad : BitVec 3) (la : BitVec 6) (lb : BitVec 6) (rc : BitVec 5) (w : BitVec 2) : Statement (.mma ad la lb rc w) := by
  refine roundTrip32 _ [(1, 1), (7, 0x50), (3, ad.toNat), (6, la.toNat), (6, lb.toNat), (5, rc.toNat), (2, 0), (2, w.toNat)] rfl (field_pack_zero _ _ _) rfl fun h => ?_
  refine (decode32_50 _ (field_maj _ _)).trans ?_
  simp only [decodeMaj50, field_pack_skip, f_pack_skip, field_pack_zero, f_pack_zero, Nat.reduceLeDiff, Nat.reduceSub, Nat.reducePow, Nat.reduceMod]

theorem RoundTrip.mmaz (ad : BitVec 3) (la : BitVec 6) (lb : BitVec 6) (rc : BitVec 5) (w : BitVec 2) : Statement (.mmaz ad la lb rc w) := by
  refine roundTrip32 _ [(1, 1), (7, 0x50), (3, ad.toNat), (6, la.toNat), (6, lb.toNat), (5, rc.toNat), (2, 1), (2, w.toNat)] rfl (field_pack_zero _ _ _) rfl fun h => ?_
  refine (decode32_50 _ (field_maj _ _)).trans ?_
  simp only [decodeMaj50, field_pack_skip, f_pack_skip, field_pack_zero, f_pack_zero, Nat.reduceLeDiff, Nat.reduceSub, Nat.reducePow, Nat.reduceMod]

theorem RoundTrip.mpoly (ad : BitVec 3) (aa : BitVec 3) (ab : BitVec 3) (ra : BitVec 5) : Statement (.mpoly ad aa ab ra) := by
  refine roundTrip32 _ [(1, 1), (7, 0x51), (3, ad.toNat), (3, aa.toNat), (3, ab.toNat), (5, ra.toNat), (5, 0), (5, 0)] rfl (field_pack_zero _ _ _) rfl fun h => ?_
  refine (decode32_51 _ (field_maj _ _)).trans ?_
  simp only [decodeMaj51, mbz, field_pack_skip, f_pack_skip, field_pack_zero, f_pack_zero, Nat.reduceLeDiff, Nat.reduceSub, Nat.reducePow, Nat.reduceMod, List.all_cons, List.all_nil, Nat.zero_mod, BEq.rfl, Bool.and_self, if_true]

theorem RoundTrip.miter (ad : BitVec 3) (aa : BitVec 3) (md : BitVec 1) (fb : BitVec 1) (ra : BitVec 5) (rb : BitVec 5) : Statement (.miter ad aa md fb ra rb) := by
  refine roundTrip32 _ [(1, 1), (7, 0x51), (3, ad.toNat), (3, aa.toNat), (1, md.toNat), (1, fb.toNat), (1, 0), (5, ra.toNat), (5, rb.toNat), (5, 1)] rfl (field_pack_zero _ _ _) rfl fun h => ?_
  refine (decode32_51 _ (field_maj _ _)).trans ?_
  simp only [decodeMaj51, mbz, field_pack_skip, f_pack_skip, field_pack_zero, f_pack_zero, Nat.reduceLeDiff, Nat.reduceSub, Nat.reducePow, Nat.reduceMod, List.all_cons, List.all_nil, Nat.zero_mod, BEq.rfl, Bool.and_self, if_true]

theorem RoundTrip.mscz (ad : BitVec 3) (w : BitVec 2) (ra : BitVec 5) : Statement (.mscz ad w ra) := by
  refine roundTrip32 _ [(1, 1), (7, 0x51), (3, ad.toNat), (3, 0), (2, w.toNat), (1, 0), (5, ra.toNat), (5, 0), (5, 2)] rfl (field_pack_zero _ _ _) rfl fun h => ?_
  refine (decode32_51 _ (field_maj _ _)).trans ?_
  simp only [decodeMaj51, mbz, field_pack_skip, f_pack_skip, field_pack_zero, f_pack_zero, Nat.reduceLeDiff, Nat.reduceSub, Nat.reducePow, Nat.reduceMod, List.all_cons, List.all_nil, Nat.zero_mod, BEq.rfl, Bool.and_self, if_true]

theorem RoundTrip.mcvt (ad : BitVec 3) (aa : BitVec 3) (ab : BitVec 3) : Statement (.mcvt ad aa ab) := by
  refine roundTrip32 _ [(1, 1), (7, 0x51), (3, ad.toNat), (3, aa.toNat), (3, ab.toNat), (10, 0), (5, 3)] rfl (field_pack_zero _ _ _) rfl fun h => ?_
  refine (decode32_51 _ (field_maj _ _)).trans ?_
  simp only [decodeMaj51, mbz, field_pack_skip, f_pack_skip, field_pack_zero, f_pack_zero, Nat.reduceLeDiff, Nat.reduceSub, Nat.reducePow, Nat.reduceMod, List.all_cons, List.all_nil, Nat.zero_mod, BEq.rfl, Bool.and_self, if_true]

theorem RoundTrip.mtrn (ad : BitVec 3) (aa : BitVec 3) : Statement (.mtrn ad aa) := by
  refine roundTrip32 _ [(1, 1), (7, 0x51), (3, ad.toNat), (3, aa.toNat), (13, 0), (5, 4)] rfl (field_pack_zero _ _ _) rfl fun h => ?_
  refine (decode32_51 _ (field_maj _ _)).trans ?_
  simp only [decodeMaj51, mbz, field_pack_skip, f_pack_skip, field_pack_zero, f_pack_zero, Nat.reduceLeDiff, Nat.reduceSub, Nat.reducePow, Nat.reduceMod, List.all_cons, List.all_nil, Nat.zero_mod, BEq.rfl, Bool.and_self, if_true]

theorem RoundTrip.mzero (ad : BitVec 3) : Statement (.mzero ad) := by
  refine roundTrip32 _ [(1, 1), (7, 0x51), (3, ad.toNat), (16, 0), (5, 5)] rfl (field_pack_zero _ _ _) rfl fun h => ?_
  refine (decode32_51 _ (field_maj _ _)).trans ?_
  simp only [decodeMaj51, mbz, field_pack_skip, f_pack_skip, field_pack_zero, f_pack_zero, Nat.reduceLeDiff, Nat.reduceSub, Nat.reducePow, Nat.reduceMod, List.all_cons, List.all_nil, Nat.zero_mod, BEq.rfl, Bool.and_self, if_true]

theorem RoundTrip.mgang (ra : BitVec 5) (rb : BitVec 5) : Statement (.mgang ra rb) := by
  refine roundTrip32 _ [(1, 1), (7, 0x51), (9, 0), (5, ra.toNat), (5, rb.toNat), (5, 6)] rfl (field_pack_zero _ _ _) rfl fun h => ?_
  refine (decode32_51 _ (field_maj _ _)).trans ?_
  simp only [decodeMaj51, mbz, field_pack_skip, f_pack_skip, field_pack_zero, f_pack_zero, Nat.reduceLeDiff, Nat.reduceSub, Nat.reducePow, Nat.reduceMod, List.all_cons, List.all_nil, Nat.zero_mod, BEq.rfl, Bool.and_self, if_true]

theorem RoundTrip.mwait : Statement (.mwait) := by
  refine roundTrip32 _ [(1, 1), (7, 0x51), (19, 0), (5, 7)] rfl (field_pack_zero _ _ _) rfl fun h => ?_
  refine (decode32_51 _ (field_maj _ _)).trans ?_
  simp only [decodeMaj51, mbz, field_pack_skip, field_pack_zero, Nat.reduceLeDiff, Nat.reduceSub, Nat.reducePow, Nat.reduceMod, List.all_cons, List.all_nil, Nat.zero_mod, BEq.rfl, Bool.and_self, if_true]

theorem RoundTrip.mrdr (ad : BitVec 3) (ab : BitVec 3) (ra : BitVec 5) (rb : BitVec 5) : Statement (.mrdr ad ab ra rb) := by
  refine roundTrip32 _ [(1, 1), (7, 0x51), (3, ad.toNat), (3, 0), (3, ab.toNat), (5, ra.toNat), (5, rb.toNat), (5, 8)] rfl (field_pack_zero _ _ _) rfl fun h => ?_
  refine (decode32_51 _ (field_maj _ _)).trans ?_
  simp only [decodeMaj51, mbz, field_pack_skip, f_pack_skip, field_pack_zero, f_pack_zero, Nat.reduceLeDiff, Nat.reduceSub, Nat.reducePow, Nat.reduceMod, List.all_cons, List.all_nil, Nat.zero_mod, BEq.rfl, Bool.and_self, if_true]

theorem RoundTrip.mwrr (ad : BitVec 3) (ra : BitVec 5) (rb : BitVec 5) : Statement (.mwrr ad ra rb) := by
  refine roundTrip32 _ [(1, 1), (7, 0x51), (3, ad.toNat), (6, 0), (5, ra.toNat), (5, rb.toNat), (5, 9)] rfl (field_pack_zero _ _ _) rfl fun h => ?_
  refine (decode32_51 _ (field_maj _ _)).trans ?_
  simp only [decodeMaj51, mbz, field_pack_skip, f_pack_skip, field_pack_zero, f_pack_zero, Nat.reduceLeDiff, Nat.reduceSub, Nat.reducePow, Nat.reduceMod, List.all_cons, List.all_nil, Nat.zero_mod, BEq.rfl, Bool.and_self, if_true]

theorem RoundTrip.cbld (n : BitVec 2) (w : BitVec 2) (ra : BitVec 5) : Statement (.cbld n w ra) := by
  refine roundTrip32 _ [(1, 1), (7, 0x51), (2, n.toNat), (4, 0), (2, w.toNat), (1, 0), (5, ra.toNat), (5, 0), (5, 0xa)] rfl (field_pack_zero _ _ _) rfl fun h => ?_
  refine (decode32_51 _ (field_maj _ _)).trans ?_
  simp only [decodeMaj51, mbz, field_pack_skip, f_pack_skip, field_pack_zero, f_pack_zero, Nat.reduceLeDiff, Nat.reduceSub, Nat.reducePow, Nat.reduceMod, List.all_cons, List.all_nil, Nat.zero_mod, BEq.rfl, Bool.and_self, if_true]

theorem RoundTrip.kld (w : BitVec 2) (ra : BitVec 5) : Statement (.kld w ra) := by
  refine roundTrip32 _ [(1, 1), (7, 0x51), (6, 0), (2, w.toNat), (1, 0), (5, ra.toNat), (5, 0), (5, 0xb)] rfl (field_pack_zero _ _ _) rfl fun h => ?_
  refine (decode32_51 _ (field_maj _ _)).trans ?_
  simp only [decodeMaj51, mbz, field_pack_skip, f_pack_skip, field_pack_zero, f_pack_zero, Nat.reduceLeDiff, Nat.reduceSub, Nat.reducePow, Nat.reduceMod, List.all_cons, List.all_nil, Nat.zero_mod, BEq.rfl, Bool.and_self, if_true]

theorem RoundTrip.mld (ad : BitVec 3) (la : BitVec 6) (w : BitVec 2) (sc : BitVec 3) (rc : BitVec 5) : Statement (.mld ad la w sc rc) := by
  refine roundTrip32 _ [(1, 1), (7, 0x52), (3, ad.toNat), (6, la.toNat), (2, w.toNat), (3, sc.toNat), (1, 0), (5, rc.toNat), (4, 0)] rfl (field_pack_zero _ _ _) rfl fun h => ?_
  refine (decode32_52 _ (field_maj _ _)).trans ?_
  simp only [decodeMaj52, mbz, field_pack_skip, f_pack_skip, field_pack_zero, f_pack_zero, Nat.reduceLeDiff, Nat.reduceSub, Nat.reducePow, Nat.reduceMod, List.all_cons, List.all_nil, Nat.zero_mod, BEq.rfl, Bool.and_self, if_true]

theorem RoundTrip.mst (ad : BitVec 3) (la : BitVec 6) (w : BitVec 2) (sc : BitVec 3) (rc : BitVec 5) : Statement (.mst ad la w sc rc) := by
  refine roundTrip32 _ [(1, 1), (7, 0x52), (3, ad.toNat), (6, la.toNat), (2, w.toNat), (3, sc.toNat), (1, 0), (5, rc.toNat), (4, 1)] rfl (field_pack_zero _ _ _) rfl fun h => ?_
  refine (decode32_52 _ (field_maj _ _)).trans ?_
  simp only [decodeMaj52, mbz, field_pack_skip, f_pack_skip, field_pack_zero, f_pack_zero, Nat.reduceLeDiff, Nat.reduceSub, Nat.reducePow, Nat.reduceMod, List.all_cons, List.all_nil, Nat.zero_mod, BEq.rfl, Bool.and_self, if_true]

theorem RoundTrip.mldb (ad : BitVec 3) (la : BitVec 6) (w : BitVec 2) (sc : BitVec 3) (rc : BitVec 5) : Statement (.mldb ad la w sc rc) := by
  refine roundTrip32 _ [(1, 1), (7, 0x52), (3, ad.toNat), (6, la.toNat), (2, w.toNat), (3, sc.toNat), (1, 0), (5, rc.toNat), (4, 2)] rfl (field_pack_zero _ _ _) rfl fun h => ?_
  refine (decode32_52 _ (field_maj _ _)).trans ?_
  simp only [decodeMaj52, mbz, field_pack_skip, f_pack_skip, field_pack_zero, f_pack_zero, Nat.reduceLeDiff, Nat.reduceSub, Nat.reducePow, Nat.reduceMod, List.all_cons, List.all_nil, Nat.zero_mod, BEq.rfl, Bool.and_self, if_true]

theorem RoundTrip.csrr (rd : BitVec 5) (csr : BitVec 12) : Statement (.csrr rd csr) := by
  refine roundTrip32 _ [(1, 1), (7, 0x60), (5, rd.toNat), (5, 0), (12, csr.toNat), (2, 0)] rfl (field_pack_zero _ _ _) rfl fun h => ?_
  refine (decode32_60 _ (field_maj _ _)).trans ?_
  simp only [decodeMaj60, mbz, field_pack_skip, f_pack_skip, field_pack_zero, f_pack_zero, Nat.reduceLeDiff, Nat.reduceSub, Nat.reducePow, Nat.reduceMod, List.all_cons, List.all_nil, Nat.zero_mod, BEq.rfl, Bool.and_self, if_true]

theorem RoundTrip.csrw (rd : BitVec 5) (ra : BitVec 5) (csr : BitVec 12) : Statement (.csrw rd ra csr) := by
  refine roundTrip32 _ [(1, 1), (7, 0x60), (5, rd.toNat), (5, ra.toNat), (12, csr.toNat), (2, 1)] rfl (field_pack_zero _ _ _) rfl fun h => ?_
  refine (decode32_60 _ (field_maj _ _)).trans ?_
  simp only [decodeMaj60, field_pack_skip, f_pack_skip, field_pack_zero, f_pack_zero, Nat.reduceLeDiff, Nat.reduceSub, Nat.reducePow, Nat.reduceMod]

theorem RoundTrip.csrs (rd : BitVec 5) (ra : BitVec 5) (csr : BitVec 12) : Statement (.csrs rd ra csr) := by
  refine roundTrip32 _ [(1, 1), (7, 0x60), (5, rd.toNat), (5, ra.toNat), (12, csr.toNat), (2, 2)] rfl (field_pack_zero _ _ _) rfl fun h => ?_
  refine (decode32_60 _ (field_maj _ _)).trans ?_
  simp only [decodeMaj60, field_pack_skip, f_pack_skip, field_pack_zero, f_pack_zero, Nat.reduceLeDiff, Nat.reduceSub, Nat.reducePow, Nat.reduceMod]

theorem RoundTrip.csrc (rd : BitVec 5) (ra : BitVec 5) (csr : BitVec 12) : Statement (.csrc rd ra csr) := by
  refine roundTrip32 _ [(1, 1), (7, 0x60), (5, rd.toNat), (5, ra.toNat), (12, csr.toNat), (2, 3)] rfl (field_pack_zero _ _ _) rfl fun h => ?_
  refine (decode32_60 _ (field_maj _ _)).trans ?_
  simp only [decodeMaj60, field_pack_skip, f_pack_skip, field_pack_zero, f_pack_zero, Nat.reduceLeDiff, Nat.reduceSub, Nat.reducePow, Nat.reduceMod]

theorem RoundTrip.ecall (rd : BitVec 5) (ra : BitVec 5) (rb : BitVec 5) : Statement (.ecall rd ra rb) := by
  refine roundTrip32 _ [(1, 1), (7, 0x61), (5, rd.toNat), (5, ra.toNat), (5, rb.toNat), (9, 0)] rfl (field_pack_zero _ _ _) rfl fun h => ?_
  refine (decode32_61 _ (field_maj _ _)).trans ?_
  simp only [decodeMaj61, field_pack_skip, f_pack_skip, field_pack_zero, f_pack_zero, Nat.reduceLeDiff, Nat.reduceSub, Nat.reducePow, Nat.reduceMod]

theorem RoundTrip.ebrk (k : BitVec 15) : Statement (.ebrk k) := by
  refine roundTrip32 _ [(1, 1), (7, 0x61), (15, k.toNat), (9, 1)] rfl (field_pack_zero _ _ _) rfl fun h => ?_
  refine (decode32_61 _ (field_maj _ _)).trans ?_
  simp only [decodeMaj61, field_pack_skip, f_pack_skip, field_pack_zero, f_pack_zero, Nat.reduceLeDiff, Nat.reduceSub, Nat.reducePow, Nat.reduceMod]

theorem RoundTrip.sret : Statement (.sret) := by
  refine roundTrip32 _ [(1, 1), (7, 0x61), (15, 0), (9, 2)] rfl (field_pack_zero _ _ _) rfl fun h => ?_
  refine (decode32_61 _ (field_maj _ _)).trans ?_
  simp only [decodeMaj61, mbz, field_pack_skip, field_pack_zero, Nat.reduceLeDiff, Nat.reduceSub, Nat.reducePow, Nat.reduceMod, List.all_cons, List.all_nil, Nat.zero_mod, BEq.rfl, Bool.and_self, if_true]

theorem RoundTrip.wfe : Statement (.wfe) := by
  refine roundTrip32 _ [(1, 1), (7, 0x61), (15, 0), (9, 3)] rfl (field_pack_zero _ _ _) rfl fun h => ?_
  refine (decode32_61 _ (field_maj _ _)).trans ?_
  simp only [decodeMaj61, mbz, field_pack_skip, field_pack_zero, Nat.reduceLeDiff, Nat.reduceSub, Nat.reducePow, Nat.reduceMod, List.all_cons, List.all_nil, Nat.zero_mod, BEq.rfl, Bool.and_self, if_true]

theorem RoundTrip.nop (rd : BitVec 5) (ra : BitVec 5) (rb : BitVec 5) : Statement (.nop rd ra rb) := by
  refine roundTrip32 _ [(1, 1), (7, 0x67), (5, rd.toNat), (5, ra.toNat), (5, rb.toNat), (9, 0)] rfl (field_pack_zero _ _ _) rfl fun h => ?_
  refine (decode32_67 _ (field_maj _ _)).trans ?_
  simp only [decodeMaj67, field_pack_skip, f_pack_skip, field_pack_zero, f_pack_zero, Nat.reduceLeDiff, Nat.reduceSub, Nat.reducePow, Nat.reduceMod]

theorem RoundTrip.add16 (ra : BitVec 5) (rb : BitVec 5) : Statement (.add16 ra rb) := by
  refine roundTrip16 _ [(1, 0), (5, 1), (5, ra.toNat), (5, rb.toNat)] rfl (field_pack_zero _ _ _) rfl fun h => ?_
  simp only [decode16, field_pack_skip, f_pack_skip, field_pack_zero, f_pack_zero, Nat.reduceLeDiff, Nat.reduceSub, Nat.reducePow, Nat.reduceMod]

theorem RoundTrip.sub16 (ra : BitVec 5) (rb : BitVec 5) : Statement (.sub16 ra rb) := by
  refine roundTrip16 _ [(1, 0), (5, 2), (5, ra.toNat), (5, rb.toNat)] rfl (field_pack_zero _ _ _) rfl fun h => ?_
  simp only [decode16, field_pack_skip, f_pack_skip, field_pack_zero, f_pack_zero, Nat.reduceLeDiff, Nat.reduceSub, Nat.reducePow, Nat.reduceMod]

theorem RoundTrip.mov16 (ra : BitVec 5) (rb : BitVec 5) : Statement (.mov16 ra rb) := by
  refine roundTrip16 _ [(1, 0), (5, 3), (5, ra.toNat), (5, rb.toNat)] rfl (field_pack_zero _ _ _) rfl fun h => ?_
  simp only [decode16, field_pack_skip, f_pack_skip, field_pack_zero, f_pack_zero, Nat.reduceLeDiff, Nat.reduceSub, Nat.reducePow, Nat.reduceMod]

theorem RoundTrip.addi16 (ra : BitVec 5) (imm : BitVec 5) : Statement (.addi16 ra imm) := by
  refine roundTrip16 _ [(1, 0), (5, 4), (5, ra.toNat), (5, imm.toNat)] rfl (field_pack_zero _ _ _) rfl fun h => ?_
  simp only [decode16, field_pack_skip, f_pack_skip, field_pack_zero, f_pack_zero, Nat.reduceLeDiff, Nat.reduceSub, Nat.reducePow, Nat.reduceMod]

theorem RoundTrip.andi16 (ra : BitVec 5) (imm : BitVec 5) : Statement (.andi16 ra imm) := by
  refine roundTrip16 _ [(1, 0), (5, 5), (5, ra.toNat), (5, imm.toNat)] rfl (field_pack_zero _ _ _) rfl fun h => ?_
  simp only [decode16, field_pack_skip, f_pack_skip, field_pack_zero, f_pack_zero, Nat.reduceLeDiff, Nat.reduceSub, Nat.reducePow, Nat.reduceMod]

theorem RoundTrip.slli16 (ra : BitVec 5) (imm : BitVec 5) : Statement (.slli16 ra imm) := by
  refine roundTrip16 _ [(1, 0), (5, 6), (5, ra.toNat), (5, imm.toNat)] rfl (field_pack_zero _ _ _) rfl fun h => ?_
  simp only [decode16, field_pack_skip, f_pack_skip, field_pack_zero, f_pack_zero, Nat.reduceLeDiff, Nat.reduceSub, Nat.reducePow, Nat.reduceMod]

theorem RoundTrip.srli16 (ra : BitVec 5) (imm : BitVec 5) : Statement (.srli16 ra imm) := by
  refine roundTrip16 _ [(1, 0), (5, 7), (5, ra.toNat), (5, imm.toNat)] rfl (field_pack_zero _ _ _) rfl fun h => ?_
  simp only [decode16, field_pack_skip, f_pack_skip, field_pack_zero, f_pack_zero, Nat.reduceLeDiff, Nat.reduceSub, Nat.reducePow, Nat.reduceMod]

theorem RoundTrip.srai16 (ra : BitVec 5) (imm : BitVec 5) : Statement (.srai16 ra imm) := by
  refine roundTrip16 _ [(1, 0), (5, 8), (5, ra.toNat), (5, imm.toNat)] rfl (field_pack_zero _ _ _) rfl fun h => ?_
  simp only [decode16, field_pack_skip, f_pack_skip, field_pack_zero, f_pack_zero, Nat.reduceLeDiff, Nat.reduceSub, Nat.reducePow, Nat.reduceMod]

theorem RoundTrip.and16 (ra : BitVec 5) (rb : BitVec 5) : Statement (.and16 ra rb) := by
  refine roundTrip16 _ [(1, 0), (5, 9), (5, ra.toNat), (5, rb.toNat)] rfl (field_pack_zero _ _ _) rfl fun h => ?_
  simp only [decode16, field_pack_skip, f_pack_skip, field_pack_zero, f_pack_zero, Nat.reduceLeDiff, Nat.reduceSub, Nat.reducePow, Nat.reduceMod]

theorem RoundTrip.or16 (ra : BitVec 5) (rb : BitVec 5) : Statement (.or16 ra rb) := by
  refine roundTrip16 _ [(1, 0), (5, 0xa), (5, ra.toNat), (5, rb.toNat)] rfl (field_pack_zero _ _ _) rfl fun h => ?_
  simp only [decode16, field_pack_skip, f_pack_skip, field_pack_zero, f_pack_zero, Nat.reduceLeDiff, Nat.reduceSub, Nat.reducePow, Nat.reduceMod]

theorem RoundTrip.xor16 (ra : BitVec 5) (rb : BitVec 5) : Statement (.xor16 ra rb) := by
  refine roundTrip16 _ [(1, 0), (5, 0xb), (5, ra.toNat), (5, rb.toNat)] rfl (field_pack_zero _ _ _) rfl fun h => ?_
  simp only [decode16, field_pack_skip, f_pack_skip, field_pack_zero, f_pack_zero, Nat.reduceLeDiff, Nat.reduceSub, Nat.reducePow, Nat.reduceMod]

theorem RoundTrip.ld16 (ra : BitVec 5) (rb : BitVec 5) : Statement (.ld16 ra rb) := by
  refine roundTrip16 _ [(1, 0), (5, 0xc), (5, ra.toNat), (5, rb.toNat)] rfl (field_pack_zero _ _ _) rfl fun h => ?_
  simp only [decode16, field_pack_skip, f_pack_skip, field_pack_zero, f_pack_zero, Nat.reduceLeDiff, Nat.reduceSub, Nat.reducePow, Nat.reduceMod]

theorem RoundTrip.lw16 (ra : BitVec 5) (rb : BitVec 5) : Statement (.lw16 ra rb) := by
  refine roundTrip16 _ [(1, 0), (5, 0xd), (5, ra.toNat), (5, rb.toNat)] rfl (field_pack_zero _ _ _) rfl fun h => ?_
  simp only [decode16, field_pack_skip, f_pack_skip, field_pack_zero, f_pack_zero, Nat.reduceLeDiff, Nat.reduceSub, Nat.reducePow, Nat.reduceMod]

theorem RoundTrip.sd16 (ra : BitVec 5) (rb : BitVec 5) : Statement (.sd16 ra rb) := by
  refine roundTrip16 _ [(1, 0), (5, 0xe), (5, ra.toNat), (5, rb.toNat)] rfl (field_pack_zero _ _ _) rfl fun h => ?_
  simp only [decode16, field_pack_skip, f_pack_skip, field_pack_zero, f_pack_zero, Nat.reduceLeDiff, Nat.reduceSub, Nat.reducePow, Nat.reduceMod]

theorem RoundTrip.sw16 (ra : BitVec 5) (rb : BitVec 5) : Statement (.sw16 ra rb) := by
  refine roundTrip16 _ [(1, 0), (5, 0xf), (5, ra.toNat), (5, rb.toNat)] rfl (field_pack_zero _ _ _) rfl fun h => ?_
  simp only [decode16, field_pack_skip, f_pack_skip, field_pack_zero, f_pack_zero, Nat.reduceLeDiff, Nat.reduceSub, Nat.reducePow, Nat.reduceMod]

theorem RoundTrip.beqz16 (ra : BitVec 5) (off : BitVec 5) : Statement (.beqz16 ra off) := by
  refine roundTrip16 _ [(1, 0), (5, 0x10), (5, ra.toNat), (5, off.toNat)] rfl (field_pack_zero _ _ _) rfl fun h => ?_
  simp only [decode16, field_pack_skip, f_pack_skip, field_pack_zero, f_pack_zero, Nat.reduceLeDiff, Nat.reduceSub, Nat.reducePow, Nat.reduceMod]

theorem RoundTrip.end16 : Statement (.end16) := by
  refine roundTrip16 _ [(1, 0), (5, 0x11), (10, 0)] rfl (field_pack_zero _ _ _) rfl fun h => ?_
  simp only [decode16, mbz, field_pack_skip, field_pack_zero, Nat.reduceLeDiff, Nat.reduceSub, Nat.reducePow, Nat.reduceMod, List.all_cons, List.all_nil, Nat.zero_mod, BEq.rfl, Bool.and_self, if_true]

theorem RoundTrip.bnez16 (ra : BitVec 5) (off : BitVec 5) : Statement (.bnez16 ra off) := by
  refine roundTrip16 _ [(1, 0), (5, 0x12), (5, ra.toNat), (5, off.toNat)] rfl (field_pack_zero _ _ _) rfl fun h => ?_
  simp only [decode16, field_pack_skip, f_pack_skip, field_pack_zero, f_pack_zero, Nat.reduceLeDiff, Nat.reduceSub, Nat.reducePow, Nat.reduceMod]

theorem RoundTrip.j16 (off : BitVec 10) : Statement (.j16 off) := by
  refine roundTrip16 _ [(1, 0), (5, 0x13), (10, off.toNat)] rfl (field_pack_zero _ _ _) rfl fun h => ?_
  simp only [decode16, field_pack_skip, f_pack_skip, field_pack_zero, f_pack_zero, Nat.reduceLeDiff, Nat.reduceSub, Nat.reducePow, Nat.reduceMod]

theorem RoundTrip.jr16 (ra : BitVec 5) (rb : BitVec 5) : Statement (.jr16 ra rb) := by
  refine roundTrip16 _ [(1, 0), (5, 0x14), (5, ra.toNat), (5, rb.toNat)] rfl (field_pack_zero _ _ _) rfl fun h => ?_
  simp only [decode16, field_pack_skip, f_pack_skip, field_pack_zero, f_pack_zero, Nat.reduceLeDiff, Nat.reduceSub, Nat.reducePow, Nat.reduceMod]

theorem RoundTrip.mul16 (ra : BitVec 5) (rb : BitVec 5) : Statement (.mul16 ra rb) := by
  refine roundTrip16 _ [(1, 0), (5, 0x15), (5, ra.toNat), (5, rb.toNat)] rfl (field_pack_zero _ _ _) rfl fun h => ?_
  simp only [decode16, field_pack_skip, f_pack_skip, field_pack_zero, f_pack_zero, Nat.reduceLeDiff, Nat.reduceSub, Nat.reducePow, Nat.reduceMod]

theorem RoundTrip.cNop : Statement (.cNop) := by
  refine roundTrip64 _ [(44, 0), (4, 0), (4, 0), (4, 0), (8, 0x00)] rfl rfl fun h => ?_
  simp only [decodeCommand, field_pack_skip, Nat.reduceLeDiff, Nat.reduceSub, field_pack_zero, Nat.reducePow, Nat.reduceMod]
  simp_all [unread, field_pack_skip, f_pack_skip, field_pack_span, wellFormed]

theorem RoundTrip.cMovi (ca : BitVec 4) (imm : BitVec 44) : Statement (.cMovi ca imm) := by
  refine roundTrip64 _ [(44, imm.toNat), (4, 0), (4, 0), (4, ca.toNat), (8, 0x01)] rfl rfl fun h => ?_
  simp only [decodeCommand, field_pack_skip, Nat.reduceLeDiff, Nat.reduceSub, field_pack_zero, Nat.reducePow, Nat.reduceMod]
  simp_all [unread, field_pack_skip, f_pack_skip, field_pack_span, wellFormed]

theorem RoundTrip.cMovw (ca : BitVec 4) (word : BitVec 64) : Statement (.cMovw ca word) := by
  refine roundTrip128 _ [(44, 0), (4, 0), (4, 0), (4, ca.toNat), (8, 0x02)] word rfl rfl ?_
  simp only [decodeCommand, field_pack_skip, Nat.reduceLeDiff, Nat.reduceSub, field_pack_zero, Nat.reducePow, Nat.reduceMod]
  simp [unread, field_pack_skip, f_pack_skip, field_pack_span]

theorem RoundTrip.cAdd (ca : BitVec 4) (cb : BitVec 4) (cc : BitVec 4) (i : BitVec 1) (imm : BitVec 32) : Statement (.cAdd ca cb cc i imm) := by
  refine roundTrip64 _ [(32, imm.toNat), (11, 0), (1, i.toNat), (4, cc.toNat), (4, cb.toNat), (4, ca.toNat), (8, 0x03)] rfl rfl fun h => ?_
  simp only [decodeCommand, field_pack_skip, Nat.reduceLeDiff, Nat.reduceSub, field_pack_zero, Nat.reducePow, Nat.reduceMod]
  obtain rfl | rfl : i = 0#1 ∨ i = 1#1 := by
    rw [← BitVec.toNat_inj, ← BitVec.toNat_inj]; have := i.isLt; simp; omega
  all_goals
    simp [wellFormed] at h
    subst h
    simp [unread, aluCommand, f, field_pack_skip, field_pack_span]
    simp [← BitVec.toNat_inj]
    omega

theorem RoundTrip.cSub (ca : BitVec 4) (cb : BitVec 4) (cc : BitVec 4) (i : BitVec 1) (imm : BitVec 32) : Statement (.cSub ca cb cc i imm) := by
  refine roundTrip64 _ [(32, imm.toNat), (11, 0), (1, i.toNat), (4, cc.toNat), (4, cb.toNat), (4, ca.toNat), (8, 0x04)] rfl rfl fun h => ?_
  simp only [decodeCommand, field_pack_skip, Nat.reduceLeDiff, Nat.reduceSub, field_pack_zero, Nat.reducePow, Nat.reduceMod]
  obtain rfl | rfl : i = 0#1 ∨ i = 1#1 := by
    rw [← BitVec.toNat_inj, ← BitVec.toNat_inj]; have := i.isLt; simp; omega
  all_goals
    simp [wellFormed] at h
    subst h
    simp [unread, aluCommand, f, field_pack_skip, field_pack_span]
    simp [← BitVec.toNat_inj]
    omega

theorem RoundTrip.cAnd (ca : BitVec 4) (cb : BitVec 4) (cc : BitVec 4) (i : BitVec 1) (imm : BitVec 32) : Statement (.cAnd ca cb cc i imm) := by
  refine roundTrip64 _ [(32, imm.toNat), (11, 0), (1, i.toNat), (4, cc.toNat), (4, cb.toNat), (4, ca.toNat), (8, 0x05)] rfl rfl fun h => ?_
  simp only [decodeCommand, field_pack_skip, Nat.reduceLeDiff, Nat.reduceSub, field_pack_zero, Nat.reducePow, Nat.reduceMod]
  obtain rfl | rfl : i = 0#1 ∨ i = 1#1 := by
    rw [← BitVec.toNat_inj, ← BitVec.toNat_inj]; have := i.isLt; simp; omega
  all_goals
    simp [wellFormed] at h
    subst h
    simp [unread, aluCommand, f, field_pack_skip, field_pack_span]
    simp [← BitVec.toNat_inj]
    omega

theorem RoundTrip.cOr (ca : BitVec 4) (cb : BitVec 4) (cc : BitVec 4) (i : BitVec 1) (imm : BitVec 32) : Statement (.cOr ca cb cc i imm) := by
  refine roundTrip64 _ [(32, imm.toNat), (11, 0), (1, i.toNat), (4, cc.toNat), (4, cb.toNat), (4, ca.toNat), (8, 0x06)] rfl rfl fun h => ?_
  simp only [decodeCommand, field_pack_skip, Nat.reduceLeDiff, Nat.reduceSub, field_pack_zero, Nat.reducePow, Nat.reduceMod]
  obtain rfl | rfl : i = 0#1 ∨ i = 1#1 := by
    rw [← BitVec.toNat_inj, ← BitVec.toNat_inj]; have := i.isLt; simp; omega
  all_goals
    simp [wellFormed] at h
    subst h
    simp [unread, aluCommand, f, field_pack_skip, field_pack_span]
    simp [← BitVec.toNat_inj]
    omega

theorem RoundTrip.cShl (ca : BitVec 4) (cb : BitVec 4) (cc : BitVec 4) (i : BitVec 1) (imm : BitVec 32) : Statement (.cShl ca cb cc i imm) := by
  refine roundTrip64 _ [(32, imm.toNat), (11, 0), (1, i.toNat), (4, cc.toNat), (4, cb.toNat), (4, ca.toNat), (8, 0x07)] rfl rfl fun h => ?_
  simp only [decodeCommand, field_pack_skip, Nat.reduceLeDiff, Nat.reduceSub, field_pack_zero, Nat.reducePow, Nat.reduceMod]
  obtain rfl | rfl : i = 0#1 ∨ i = 1#1 := by
    rw [← BitVec.toNat_inj, ← BitVec.toNat_inj]; have := i.isLt; simp; omega
  all_goals
    simp [wellFormed] at h
    subst h
    simp [unread, aluCommand, f, field_pack_skip, field_pack_span]
    simp [← BitVec.toNat_inj]
    omega

theorem RoundTrip.cShr (ca : BitVec 4) (cb : BitVec 4) (cc : BitVec 4) (i : BitVec 1) (imm : BitVec 32) : Statement (.cShr ca cb cc i imm) := by
  refine roundTrip64 _ [(32, imm.toNat), (11, 0), (1, i.toNat), (4, cc.toNat), (4, cb.toNat), (4, ca.toNat), (8, 0x08)] rfl rfl fun h => ?_
  simp only [decodeCommand, field_pack_skip, Nat.reduceLeDiff, Nat.reduceSub, field_pack_zero, Nat.reducePow, Nat.reduceMod]
  obtain rfl | rfl : i = 0#1 ∨ i = 1#1 := by
    rw [← BitVec.toNat_inj, ← BitVec.toNat_inj]; have := i.isLt; simp; omega
  all_goals
    simp [wellFormed] at h
    subst h
    simp [unread, aluCommand, f, field_pack_skip, field_pack_span]
    simp [← BitVec.toNat_inj]
    omega

theorem RoundTrip.cLd (ca : BitVec 4) (cb : BitVec 4) (imm : BitVec 32) : Statement (.cLd ca cb imm) := by
  refine roundTrip64 _ [(32, imm.toNat), (12, 0), (4, 0), (4, cb.toNat), (4, ca.toNat), (8, 0x09)] rfl rfl fun h => ?_
  simp only [decodeCommand, field_pack_skip, Nat.reduceLeDiff, Nat.reduceSub, field_pack_zero, Nat.reducePow, Nat.reduceMod]
  simp_all [unread, field_pack_skip, f_pack_skip, field_pack_span, wellFormed]

theorem RoundTrip.cSt (ca : BitVec 4) (cb : BitVec 4) (imm : BitVec 32) : Statement (.cSt ca cb imm) := by
  refine roundTrip64 _ [(32, imm.toNat), (12, 0), (4, 0), (4, cb.toNat), (4, ca.toNat), (8, 0x0a)] rfl rfl fun h => ?_
  simp only [decodeCommand, field_pack_skip, Nat.reduceLeDiff, Nat.reduceSub, field_pack_zero, Nat.reducePow, Nat.reduceMod]
  simp_all [unread, field_pack_skip, f_pack_skip, field_pack_span, wellFormed]

theorem RoundTrip.cBeq (ca : BitVec 4) (cb : BitVec 4) (imm : BitVec 20) : Statement (.cBeq ca cb imm) := by
  refine roundTrip64 _ [(20, imm.toNat), (24, 0), (4, 0), (4, cb.toNat), (4, ca.toNat), (8, 0x10)] rfl rfl fun h => ?_
  simp only [decodeCommand, field_pack_skip, Nat.reduceLeDiff, Nat.reduceSub, field_pack_zero, Nat.reducePow, Nat.reduceMod]
  simp_all [unread, field_pack_skip, f_pack_skip, field_pack_span, wellFormed]

theorem RoundTrip.cBne (ca : BitVec 4) (cb : BitVec 4) (imm : BitVec 20) : Statement (.cBne ca cb imm) := by
  refine roundTrip64 _ [(20, imm.toNat), (24, 0), (4, 0), (4, cb.toNat), (4, ca.toNat), (8, 0x11)] rfl rfl fun h => ?_
  simp only [decodeCommand, field_pack_skip, Nat.reduceLeDiff, Nat.reduceSub, field_pack_zero, Nat.reducePow, Nat.reduceMod]
  simp_all [unread, field_pack_skip, f_pack_skip, field_pack_span, wellFormed]

theorem RoundTrip.cBlt (ca : BitVec 4) (cb : BitVec 4) (imm : BitVec 20) : Statement (.cBlt ca cb imm) := by
  refine roundTrip64 _ [(20, imm.toNat), (24, 0), (4, 0), (4, cb.toNat), (4, ca.toNat), (8, 0x12)] rfl rfl fun h => ?_
  simp only [decodeCommand, field_pack_skip, Nat.reduceLeDiff, Nat.reduceSub, field_pack_zero, Nat.reducePow, Nat.reduceMod]
  simp_all [unread, field_pack_skip, f_pack_skip, field_pack_span, wellFormed]

theorem RoundTrip.cBge (ca : BitVec 4) (cb : BitVec 4) (imm : BitVec 20) : Statement (.cBge ca cb imm) := by
  refine roundTrip64 _ [(20, imm.toNat), (24, 0), (4, 0), (4, cb.toNat), (4, ca.toNat), (8, 0x13)] rfl rfl fun h => ?_
  simp only [decodeCommand, field_pack_skip, Nat.reduceLeDiff, Nat.reduceSub, field_pack_zero, Nat.reducePow, Nat.reduceMod]
  simp_all [unread, field_pack_skip, f_pack_skip, field_pack_span, wellFormed]

theorem RoundTrip.cJmp (imm : BitVec 20) : Statement (.cJmp imm) := by
  refine roundTrip64 _ [(20, imm.toNat), (24, 0), (4, 0), (4, 0), (4, 0), (8, 0x14)] rfl rfl fun h => ?_
  simp only [decodeCommand, field_pack_skip, Nat.reduceLeDiff, Nat.reduceSub, field_pack_zero, Nat.reducePow, Nat.reduceMod]
  simp_all [unread, field_pack_skip, f_pack_skip, field_pack_span, wellFormed]

theorem RoundTrip.cCall (imm : BitVec 20) : Statement (.cCall imm) := by
  refine roundTrip64 _ [(20, imm.toNat), (24, 0), (4, 0), (4, 0), (4, 0), (8, 0x15)] rfl rfl fun h => ?_
  simp only [decodeCommand, field_pack_skip, Nat.reduceLeDiff, Nat.reduceSub, field_pack_zero, Nat.reducePow, Nat.reduceMod]
  simp_all [unread, field_pack_skip, f_pack_skip, field_pack_span, wellFormed]

theorem RoundTrip.cRet : Statement (.cRet) := by
  refine roundTrip64 _ [(44, 0), (4, 0), (4, 0), (4, 0), (8, 0x16)] rfl rfl fun h => ?_
  simp only [decodeCommand, field_pack_skip, Nat.reduceLeDiff, Nat.reduceSub, field_pack_zero, Nat.reducePow, Nat.reduceMod]
  simp_all [unread, field_pack_skip, f_pack_skip, field_pack_span, wellFormed]

theorem RoundTrip.cLoop (ca : BitVec 4) (imm : BitVec 20) : Statement (.cLoop ca imm) := by
  refine roundTrip64 _ [(20, imm.toNat), (24, 0), (4, 0), (4, 0), (4, ca.toNat), (8, 0x17)] rfl rfl fun h => ?_
  simp only [decodeCommand, field_pack_skip, Nat.reduceLeDiff, Nat.reduceSub, field_pack_zero, Nat.reducePow, Nat.reduceMod]
  simp_all [unread, field_pack_skip, f_pack_skip, field_pack_span, wellFormed]

theorem RoundTrip.cIb (ca : BitVec 4) (cb : BitVec 4) : Statement (.cIb ca cb) := by
  refine roundTrip64 _ [(44, 0), (4, 0), (4, cb.toNat), (4, ca.toNat), (8, 0x18)] rfl rfl fun h => ?_
  simp only [decodeCommand, field_pack_skip, Nat.reduceLeDiff, Nat.reduceSub, field_pack_zero, Nat.reducePow, Nat.reduceMod]
  simp_all [unread, field_pack_skip, f_pack_skip, field_pack_span, wellFormed]

theorem RoundTrip.cLaunch (ca : BitVec 4) (cb : BitVec 4) (ch : BitVec 5) (n : BitVec 3) (cap : BitVec 23) : Statement (.cLaunch ca cb ch n cap) := by
  refine roundTrip64 _ [(5, ch.toNat), (3, n.toNat), (23, cap.toNat), (13, 0), (4, 0), (4, cb.toNat), (4, ca.toNat), (8, 0x20)] rfl rfl fun h => ?_
  simp only [decodeCommand, field_pack_skip, Nat.reduceLeDiff, Nat.reduceSub, field_pack_zero, Nat.reducePow, Nat.reduceMod]
  simp_all [unread, field_pack_skip, f_pack_skip, field_pack_span, wellFormed]

theorem RoundTrip.cLaunchall (ca : BitVec 4) (cb : BitVec 4) (ch : BitVec 5) (n : BitVec 3) (cap : BitVec 23) : Statement (.cLaunchall ca cb ch n cap) := by
  refine roundTrip64 _ [(5, ch.toNat), (3, n.toNat), (23, cap.toNat), (13, 0), (4, 0), (4, cb.toNat), (4, ca.toNat), (8, 0x21)] rfl rfl fun h => ?_
  simp only [decodeCommand, field_pack_skip, Nat.reduceLeDiff, Nat.reduceSub, field_pack_zero, Nat.reducePow, Nat.reduceMod]
  simp_all [unread, field_pack_skip, f_pack_skip, field_pack_span, wellFormed]

theorem RoundTrip.cCopy (ca : BitVec 4) (hart : BitVec 4) : Statement (.cCopy ca hart) := by
  refine roundTrip64 _ [(4, hart.toNat), (40, 0), (4, 0), (4, 0), (4, ca.toNat), (8, 0x22)] rfl rfl fun h => ?_
  simp only [decodeCommand, field_pack_skip, Nat.reduceLeDiff, Nat.reduceSub, field_pack_zero, Nat.reducePow, Nat.reduceMod]
  simp_all [unread, field_pack_skip, f_pack_skip, field_pack_span, wellFormed]

theorem RoundTrip.cWaitsem (ca : BitVec 4) (cb : BitVec 4) (cond : BitVec 2) (dec : BitVec 1) (sigq : BitVec 12) (sqv : BitVec 1) : Statement (.cWaitsem ca cb cond dec sigq sqv) := by
  refine roundTrip64 _ [(2, cond.toNat), (1, dec.toNat), (12, sigq.toNat), (1, sqv.toNat), (28, 0), (4, 0), (4, cb.toNat), (4, ca.toNat), (8, 0x28)] rfl rfl fun h => ?_
  simp only [decodeCommand, field_pack_skip, Nat.reduceLeDiff, Nat.reduceSub, field_pack_zero, Nat.reducePow, Nat.reduceMod]
  simp_all [unread, field_pack_skip, f_pack_skip, field_pack_span, wellFormed]

theorem RoundTrip.cSigsem (ca : BitVec 4) (cb : BitVec 4) (st : BitVec 1) : Statement (.cSigsem ca cb st) := by
  refine roundTrip64 _ [(1, st.toNat), (43, 0), (4, 0), (4, cb.toNat), (4, ca.toNat), (8, 0x29)] rfl rfl fun h => ?_
  simp only [decodeCommand, field_pack_skip, Nat.reduceLeDiff, Nat.reduceSub, field_pack_zero, Nat.reducePow, Nat.reduceMod]
  simp_all [unread, field_pack_skip, f_pack_skip, field_pack_span, wellFormed]

theorem RoundTrip.cFence : Statement (.cFence) := by
  refine roundTrip64 _ [(44, 0), (4, 0), (4, 0), (4, 0), (8, 0x2a)] rfl rfl fun h => ?_
  simp only [decodeCommand, field_pack_skip, Nat.reduceLeDiff, Nat.reduceSub, field_pack_zero, Nat.reducePow, Nat.reduceMod]
  simp_all [unread, field_pack_skip, f_pack_skip, field_pack_span, wellFormed]

theorem RoundTrip.cStamp (ca : BitVec 4) : Statement (.cStamp ca) := by
  refine roundTrip64 _ [(44, 0), (4, 0), (4, 0), (4, ca.toNat), (8, 0x2b)] rfl rfl fun h => ?_
  simp only [decodeCommand, field_pack_skip, Nat.reduceLeDiff, Nat.reduceSub, field_pack_zero, Nat.reducePow, Nat.reduceMod]
  simp_all [unread, field_pack_skip, f_pack_skip, field_pack_span, wellFormed]

theorem RoundTrip.cIntr (vec : BitVec 11) : Statement (.cIntr vec) := by
  refine roundTrip64 _ [(11, vec.toNat), (33, 0), (4, 0), (4, 0), (4, 0), (8, 0x2c)] rfl rfl fun h => ?_
  simp only [decodeCommand, field_pack_skip, Nat.reduceLeDiff, Nat.reduceSub, field_pack_zero, Nat.reducePow, Nat.reduceMod]
  simp_all [unread, field_pack_skip, f_pack_skip, field_pack_span, wellFormed]

theorem RoundTrip.cInstall (ca : BitVec 4) (cb : BitVec 4) (cc : BitVec 4) (dies : BitVec 4) : Statement (.cInstall ca cb cc dies) := by
  refine roundTrip64 _ [(4, dies.toNat), (40, 0), (4, cc.toNat), (4, cb.toNat), (4, ca.toNat), (8, 0x40)] rfl rfl fun h => ?_
  simp only [decodeCommand, field_pack_skip, Nat.reduceLeDiff, Nat.reduceSub, field_pack_zero, Nat.reducePow, Nat.reduceMod]
  simp_all [unread, field_pack_skip, f_pack_skip, field_pack_span, wellFormed]

theorem RoundTrip.cRebuild (ca : BitVec 4) (cc : BitVec 4) : Statement (.cRebuild ca cc) := by
  refine roundTrip64 _ [(44, 0), (4, cc.toNat), (4, 0), (4, ca.toNat), (8, 0x41)] rfl rfl fun h => ?_
  simp only [decodeCommand, field_pack_skip, Nat.reduceLeDiff, Nat.reduceSub, field_pack_zero, Nat.reducePow, Nat.reduceMod]
  simp_all [unread, field_pack_skip, f_pack_skip, field_pack_span, wellFormed]

theorem RoundTrip.cDelete (ca : BitVec 4) (cc : BitVec 4) : Statement (.cDelete ca cc) := by
  refine roundTrip64 _ [(44, 0), (4, cc.toNat), (4, 0), (4, ca.toNat), (8, 0x42)] rfl rfl fun h => ?_
  simp only [decodeCommand, field_pack_skip, Nat.reduceLeDiff, Nat.reduceSub, field_pack_zero, Nat.reducePow, Nat.reduceMod]
  simp_all [unread, field_pack_skip, f_pack_skip, field_pack_span, wellFormed]

theorem RoundTrip.cStrike (ca : BitVec 4) (cc : BitVec 4) : Statement (.cStrike ca cc) := by
  refine roundTrip64 _ [(44, 0), (4, cc.toNat), (4, 0), (4, ca.toNat), (8, 0x43)] rfl rfl fun h => ?_
  simp only [decodeCommand, field_pack_skip, Nat.reduceLeDiff, Nat.reduceSub, field_pack_zero, Nat.reducePow, Nat.reduceMod]
  simp_all [unread, field_pack_skip, f_pack_skip, field_pack_span, wellFormed]

theorem RoundTrip.cPitch (ca : BitVec 4) (cc : BitVec 4) (late : BitVec 1) : Statement (.cPitch ca cc late) := by
  refine roundTrip64 _ [(1, late.toNat), (43, 0), (4, cc.toNat), (4, 0), (4, ca.toNat), (8, 0x44)] rfl rfl fun h => ?_
  simp only [decodeCommand, field_pack_skip, Nat.reduceLeDiff, Nat.reduceSub, field_pack_zero, Nat.reducePow, Nat.reduceMod]
  simp_all [unread, field_pack_skip, f_pack_skip, field_pack_span, wellFormed]

theorem RoundTrip.cSave (ca : BitVec 4) (cb : BitVec 4) (cc : BitVec 4) : Statement (.cSave ca cb cc) := by
  refine roundTrip64 _ [(44, 0), (4, cc.toNat), (4, cb.toNat), (4, ca.toNat), (8, 0x45)] rfl rfl fun h => ?_
  simp only [decodeCommand, field_pack_skip, Nat.reduceLeDiff, Nat.reduceSub, field_pack_zero, Nat.reducePow, Nat.reduceMod]
  simp_all [unread, field_pack_skip, f_pack_skip, field_pack_span, wellFormed]

theorem RoundTrip.cRestore (ca : BitVec 4) (cb : BitVec 4) (cc : BitVec 4) : Statement (.cRestore ca cb cc) := by
  refine roundTrip64 _ [(44, 0), (4, cc.toNat), (4, cb.toNat), (4, ca.toNat), (8, 0x46)] rfl rfl fun h => ?_
  simp only [decodeCommand, field_pack_skip, Nat.reduceLeDiff, Nat.reduceSub, field_pack_zero, Nat.reducePow, Nat.reduceMod]
  simp_all [unread, field_pack_skip, f_pack_skip, field_pack_span, wellFormed]

theorem RoundTrip.cHalt (ca : BitVec 4) : Statement (.cHalt ca) := by
  refine roundTrip64 _ [(44, 0), (4, 0), (4, 0), (4, ca.toNat), (8, 0x47)] rfl rfl fun h => ?_
  simp only [decodeCommand, field_pack_skip, Nat.reduceLeDiff, Nat.reduceSub, field_pack_zero, Nat.reducePow, Nat.reduceMod]
  simp_all [unread, field_pack_skip, f_pack_skip, field_pack_span, wellFormed]

theorem RoundTrip.messageArrival : Statement .messageArrival := roundTripEvent _ rfl
theorem RoundTrip.spillToBufferMove : Statement .spillToBufferMove := roundTripEvent _ rfl
theorem RoundTrip.spillOverflowExtension : Statement .spillOverflowExtension := roundTripEvent _ rfl
theorem RoundTrip.outboundListDrain : Statement .outboundListDrain := roundTripEvent _ rfl
theorem RoundTrip.multicastSlotReturn : Statement .multicastSlotReturn := roundTripEvent _ rfl
theorem RoundTrip.activationStart : Statement .activationStart := roundTripEvent _ rfl
theorem RoundTrip.agePromotion : Statement .agePromotion := roundTripEvent _ rfl
theorem RoundTrip.stealAttempt : Statement .stealAttempt := roundTripEvent _ rfl
theorem RoundTrip.turnBudgetExpiry : Statement .turnBudgetExpiry := roundTripEvent _ rfl
theorem RoundTrip.preemptionRequest : Statement .preemptionRequest := roundTripEvent _ rfl
theorem RoundTrip.streamOpen : Statement .streamOpen := roundTripEvent _ rfl
theorem RoundTrip.streamClose : Statement .streamClose := roundTripEvent _ rfl
theorem RoundTrip.streamSlotBudgetExpiry : Statement .streamSlotBudgetExpiry := roundTripEvent _ rfl
theorem RoundTrip.streamRefillRequest : Statement .streamRefillRequest := roundTripEvent _ rfl
theorem RoundTrip.streamRefillReturn : Statement .streamRefillReturn := roundTripEvent _ rfl
theorem RoundTrip.rptInstanceIssue : Statement .rptInstanceIssue := roundTripEvent _ rfl
theorem RoundTrip.matrixDispatch : Statement .matrixDispatch := roundTripEvent _ rfl
theorem RoundTrip.matrixInstructionComplete : Statement .matrixInstructionComplete := roundTripEvent _ rfl
theorem RoundTrip.miterIteration : Statement .miterIteration := roundTripEvent _ rfl
theorem RoundTrip.gangJoinComplete : Statement .gangJoinComplete := roundTripEvent _ rfl
theorem RoundTrip.gangTimeout : Statement .gangTimeout := roundTripEvent _ rfl
theorem RoundTrip.slotTableFrameStart : Statement .slotTableFrameStart := roundTripEvent _ rfl
theorem RoundTrip.counterWaitEnd : Statement .counterWaitEnd := roundTripEvent _ rfl
theorem RoundTrip.postedStoreAck : Statement .postedStoreAck := roundTripEvent _ rfl
theorem RoundTrip.postedStoreLoss : Statement .postedStoreLoss := roundTripEvent _ rfl
theorem RoundTrip.memoryResponse : Statement .memoryResponse := roundTripEvent _ rfl
theorem RoundTrip.descriptorCacheFill : Statement .descriptorCacheFill := roundTripEvent _ rfl
theorem RoundTrip.inboundRemoteAccess : Statement .inboundRemoteAccess := roundTripEvent _ rfl
theorem RoundTrip.remoteRefusalReturn : Statement .remoteRefusalReturn := roundTripEvent _ rfl
theorem RoundTrip.fullEmptyWake : Statement .fullEmptyWake := roundTripEvent _ rfl
theorem RoundTrip.queueWaitWake : Statement .queueWaitWake := roundTripEvent _ rfl
theorem RoundTrip.barrierArrival : Statement .barrierArrival := roundTripEvent _ rfl
theorem RoundTrip.ecallHandover : Statement .ecallHandover := roundTripEvent _ rfl
theorem RoundTrip.engineKick : Statement .engineKick := roundTripEvent _ rfl
theorem RoundTrip.kickAccept : Statement .kickAccept := roundTripEvent _ rfl
theorem RoundTrip.engineNop : Statement .engineNop := roundTripEvent _ rfl
theorem RoundTrip.engineCopy : Statement .engineCopy := roundTripEvent _ rfl
theorem RoundTrip.engineReduce : Statement .engineReduce := roundTripEvent _ rfl
theorem RoundTrip.engineGather : Statement .engineGather := roundTripEvent _ rfl
theorem RoundTrip.engineScatter : Statement .engineScatter := roundTripEvent _ rfl
theorem RoundTrip.engineAllreduce : Statement .engineAllreduce := roundTripEvent _ rfl
theorem RoundTrip.engineAllgather : Statement .engineAllgather := roundTripEvent _ rfl
theorem RoundTrip.engineReducescatter : Statement .engineReducescatter := roundTripEvent _ rfl
theorem RoundTrip.reduceGroupComplete : Statement .reduceGroupComplete := roundTripEvent _ rfl
theorem RoundTrip.copyKickAnswer : Statement .copyKickAnswer := roundTripEvent _ rfl
theorem RoundTrip.faultBufferFlush : Statement .faultBufferFlush := roundTripEvent _ rfl
theorem RoundTrip.faultServiceBatch : Statement .faultServiceBatch := roundTripEvent _ rfl
theorem RoundTrip.faultRetry : Statement .faultRetry := roundTripEvent _ rfl
theorem RoundTrip.remoteRetryRelay : Statement .remoteRetryRelay := roundTripEvent _ rfl
theorem RoundTrip.heldWriteRelease : Statement .heldWriteRelease := roundTripEvent _ rfl
theorem RoundTrip.pageUnavailable : Statement .pageUnavailable := roundTripEvent _ rfl
theorem RoundTrip.migration : Statement .migration := roundTripEvent _ rfl
theorem RoundTrip.migrationAbandon : Statement .migrationAbandon := roundTripEvent _ rfl
theorem RoundTrip.pageShootdownComplete : Statement .pageShootdownComplete := roundTripEvent _ rfl
theorem RoundTrip.descriptorUpdate : Statement .descriptorUpdate := roundTripEvent _ rfl
theorem RoundTrip.descriptorShootdownComplete : Statement .descriptorShootdownComplete := roundTripEvent _ rfl
theorem RoundTrip.codePageVerify : Statement .codePageVerify := roundTripEvent _ rfl
theorem RoundTrip.rebuildComplete : Statement .rebuildComplete := roundTripEvent _ rfl
theorem RoundTrip.firmwareActivation : Statement .firmwareActivation := roundTripEvent _ rfl
theorem RoundTrip.privilegedCommandComplete : Statement .privilegedCommandComplete := roundTripEvent _ rfl
theorem RoundTrip.doorbell : Statement .doorbell := roundTripEvent _ rfl
theorem RoundTrip.qrecUpdate : Statement .qrecUpdate := roundTripEvent _ rfl
theorem RoundTrip.replicaInvalidate : Statement .replicaInvalidate := roundTripEvent _ rfl
theorem RoundTrip.commandEngineSelect : Statement .commandEngineSelect := roundTripEvent _ rfl
theorem RoundTrip.semaphoreRecheck : Statement .semaphoreRecheck := roundTripEvent _ rfl
theorem RoundTrip.waitReportTimeout : Statement .waitReportTimeout := roundTripEvent _ rfl
theorem RoundTrip.leaseRenewal : Statement .leaseRenewal := roundTripEvent _ rfl
theorem RoundTrip.leaseLapse : Statement .leaseLapse := roundTripEvent _ rfl
theorem RoundTrip.leadTakeover : Statement .leadTakeover := roundTripEvent _ rfl
theorem RoundTrip.hostInstruction : Statement .hostInstruction := roundTripEvent _ rfl
theorem RoundTrip.mapQueue : Statement .mapQueue := roundTripEvent _ rfl
theorem RoundTrip.unmapQueue : Statement .unmapQueue := roundTripEvent _ rfl
theorem RoundTrip.queueFaultRecovery : Statement .queueFaultRecovery := roundTripEvent _ rfl
theorem RoundTrip.queueResume : Statement .queueResume := roundTripEvent _ rfl
theorem RoundTrip.amaskClear : Statement .amaskClear := roundTripEvent _ rfl
theorem RoundTrip.releaseImage : Statement .releaseImage := roundTripEvent _ rfl
theorem RoundTrip.registerJob : Statement .registerJob := roundTripEvent _ rfl
theorem RoundTrip.unregisterJob : Statement .unregisterJob := roundTripEvent _ rfl
theorem RoundTrip.createContext : Statement .createContext := roundTripEvent _ rfl
theorem RoundTrip.killContext : Statement .killContext := roundTripEvent _ rfl
theorem RoundTrip.setSaveLimit : Statement .setSaveLimit := roundTripEvent _ rfl
theorem RoundTrip.writeWatchFilter : Statement .writeWatchFilter := roundTripEvent _ rfl
theorem RoundTrip.writeWatchComparator : Statement .writeWatchComparator := roundTripEvent _ rfl
theorem RoundTrip.writeSlotTable : Statement .writeSlotTable := roundTripEvent _ rfl
theorem RoundTrip.writeAgel : Statement .writeAgel := roundTripEvent _ rfl
theorem RoundTrip.writeDbgctl : Statement .writeDbgctl := roundTripEvent _ rfl
theorem RoundTrip.grantTableWrite : Statement .grantTableWrite := roundTripEvent _ rfl
theorem RoundTrip.cxlKeyInstall : Statement .cxlKeyInstall := roundTripEvent _ rfl
theorem RoundTrip.hostMemoryRequest : Statement .hostMemoryRequest := roundTripEvent _ rfl
theorem RoundTrip.debugStopRequest : Statement .debugStopRequest := roundTripEvent _ rfl
theorem RoundTrip.stopLands : Statement .stopLands := roundTripEvent _ rfl
theorem RoundTrip.debugResume : Statement .debugResume := roundTripEvent _ rfl
theorem RoundTrip.debugStep : Statement .debugStep := roundTripEvent _ rfl
theorem RoundTrip.traceSample : Statement .traceSample := roundTripEvent _ rfl
theorem RoundTrip.saveQuiesceComplete : Statement .saveQuiesceComplete := roundTripEvent _ rfl
theorem RoundTrip.saveWatchdogExpiry : Statement .saveWatchdogExpiry := roundTripEvent _ rfl
theorem RoundTrip.strikeRequest : Statement .strikeRequest := roundTripEvent _ rfl
theorem RoundTrip.strikeHaltComplete : Statement .strikeHaltComplete := roundTripEvent _ rfl
theorem RoundTrip.strikeDrainComplete : Statement .strikeDrainComplete := roundTripEvent _ rfl
theorem RoundTrip.strikeSweepComplete : Statement .strikeSweepComplete := roundTripEvent _ rfl
theorem RoundTrip.sweepPegArrival : Statement .sweepPegArrival := roundTripEvent _ rfl
theorem RoundTrip.latePacket : Statement .latePacket := roundTripEvent _ rfl
theorem RoundTrip.memberReport : Statement .memberReport := roundTripEvent _ rfl
theorem RoundTrip.pitchRequest : Statement .pitchRequest := roundTripEvent _ rfl
theorem RoundTrip.flitReplay : Statement .flitReplay := roundTripEvent _ rfl
theorem RoundTrip.linkDown : Statement .linkDown := roundTripEvent _ rfl
theorem RoundTrip.undeliverableMessage : Statement .undeliverableMessage := roundTripEvent _ rfl
theorem RoundTrip.undeliverableRefusal : Statement .undeliverableRefusal := roundTripEvent _ rfl
theorem RoundTrip.deviceWarmReset : Statement .deviceWarmReset := roundTripEvent _ rfl
theorem RoundTrip.boot : Statement .boot := roundTripEvent _ rfl
theorem RoundTrip.firmwareReady : Statement .firmwareReady := roundTripEvent _ rfl
theorem RoundTrip.pcieHotReset : Statement .pcieHotReset := roundTripEvent _ rfl
theorem RoundTrip.spdmRequest : Statement .spdmRequest := roundTripEvent _ rfl
theorem RoundTrip.raiseSecurityFloor : Statement .raiseSecurityFloor := roundTripEvent _ rfl
theorem RoundTrip.lockInterface : Statement .lockInterface := roundTripEvent _ rfl
theorem RoundTrip.startInterface : Statement .startInterface := roundTripEvent _ rfl
theorem RoundTrip.stopInterface : Statement .stopInterface := roundTripEvent _ rfl
theorem RoundTrip.configWrite : Statement .configWrite := roundTripEvent _ rfl
theorem RoundTrip.ideIntegrityFailure : Statement .ideIntegrityFailure := roundTripEvent _ rfl
theorem RoundTrip.setPerformanceState : Statement .setPerformanceState := roundTripEvent _ rfl
theorem RoundTrip.setIdleState : Statement .setIdleState := roundTripEvent _ rfl
theorem RoundTrip.setTripState : Statement .setTripState := roundTripEvent _ rfl
theorem RoundTrip.thermalTrip : Statement .thermalTrip := roundTripEvent _ rfl
theorem RoundTrip.uncorrectableError : Statement .uncorrectableError := roundTripEvent _ rfl
theorem RoundTrip.correctedErrorReport : Statement .correctedErrorReport := roundTripEvent _ rfl
theorem RoundTrip.dfcEvent : Statement .dfcEvent := roundTripEvent _ rfl
theorem RoundTrip.registerWrite : Statement .registerWrite := roundTripEvent _ rfl
theorem RoundTrip.leadLeaseExpiry : Statement .leadLeaseExpiry := roundTripEvent _ rfl
theorem RoundTrip.idleStateExit : Statement .idleStateExit := roundTripEvent _ rfl

end Sys2Proof.Laws
end

