-- ==== Sys2Proof/Certificates/Slice0/Obligations.lean ====
section
/-! DEFINITION. The statements for the provers: what the rules of spec/ say the QV9 does, as propositions about the model. The definitions
before a statement only name, in the spec's terms, what the statement speaks of. -/

open Sys2Proof Sys2Proof.Machine

namespace Sys2Proof.Machine

/-! ### What the statements speak of -/

/-- A slot of a cell is the agent that moves. -/
def OnCell (s : State) : Prop := ∃ c k, s.cur = .slot c k ∧ k < 4

/-- A slot of a cell or a die firmware core is the agent that moves. -/
def OnCore (s : State) : Prop := OnCell s ∨ ∃ d, s.cur = .dfc d

/-- Every byte of memory reads as before. -/
def SameMemory (s t : State) : Prop := ∀ a, readByte t.mem a = readByte s.mem a

/-- What lies past an instruction of `len` bytes: a repetition instance has no place in the instruction stream (R288), and a die
firmware core's address has 64 bits. -/
def pcAfter (s : State) (len : Nat) : Nat :=
  match s.cur with
  | .slot c k => if (s.slot c k).rep.isSome then (s.slot c k).pc else (s.slot c k).pc + len
  | .dfc d => ((s.dfc d).pc + word len).toNat
  | _ => 0

/-- A slot without its marks of a wait and of an access that has begun, which are the model's own. -/
def Slot.unmarked (l : Slot) : Slot := { l with wait := .none, pend := none, lay := none, repLay := none, atStart := false }

/-- Nothing but the scalar registers, their taints and the program counter of the moving agent differs, its marks of a wait apart, which are clear. -/
def OnlyRegisters (s t : State) : Prop :=
  match s.cur with
  | .slot c k => ∃ l x tn pc, t = s.setSlot c k l ∧ l.wait = .none ∧ l.pend = none
      ∧ l.unmarked = { (s.slot c k).unmarked with x := x, taint := tn, pc := pc }
  | .dfc d => ∃ x tn pc, t = s.setDfc d { s.dfc d with x := x, taint := tn, pc := pc, wait := .none, pend := none }
  | _ => False

/-- Nothing but the moving slot differs, its marks of a wait apart, which are clear; of the slot only what `part` takes from the new one, and the rest is the old one's. -/
def OnlyOfSlot (s t : State) (part : Slot → Slot → Slot) : Prop :=
  match s.cur with
  | .slot c k => ∃ l, t = s.setSlot c k l ∧ l.wait = .none ∧ l.pend = none ∧ l.unmarked = part l.unmarked (s.slot c k).unmarked
  | _ => False

/-- x[rd] holds `v` with taint `tn`, where x0 takes nothing (R191); every other register and taint is as it was. -/
def Writes (s t : State) (rd : BitVec 5) (v : Word) (tn : Bool) : Prop :=
  ∀ r, getX t r = (if r = rd ∧ r ≠ 0 then v else getX s r) ∧ tainted t r = (if r = rd ∧ r ≠ 0 then tn else tainted s r)

/-- A completed instruction of `len` bytes that does nothing but write x[rd]. -/
def WritesOnly (s t : State) (len : Nat) (rd : BitVec 5) (v : Word) (tn : Bool) : Prop :=
  Writes s t rd v tn ∧ getPc t = pcAfter s len ∧ OnlyRegisters s t ∧ SameMemory s t

/-- A 64-bit word from a truth value. -/
def truth (p : Prop) [Decidable p] : Word := if p then 1 else 0

/-- A coordinate register with coordinate `d` moved by `k`, modulo 2^16 and with no carry (Formula (9.4)). -/
def coordMoved (a : Word) (d : BitVec 2) (k : BitVec 12) : Word :=
  let at' (j : Nat) : Nat := if j = d.toNat then ((Int.ofNat (coordOf a j) + k.toInt) % 65536).toNat else coordOf a j
  word (at' 0 + at' 1 * 2 ^ 16 + at' 2 * 2 ^ 32 + at' 3 * 2 ^ 48)

/-- The forms of MAJ 0x00 to 0x0E and their 16-bit spellings, as Tables 8.5, 9.1 and 9.3 to 9.5 give them: length, destination, sources,
and the value written. -/
def computes (s : State) : Instr → Option (Nat × BitVec 5 × List (BitVec 5) × Word)
  | .add rd ra rb => some (4, rd, [ra, rb], getX s ra + getX s rb)
  | .sub rd ra rb => some (4, rd, [ra, rb], getX s ra - getX s rb)
  | .and rd ra rb => some (4, rd, [ra, rb], getX s ra &&& getX s rb)
  | .or rd ra rb => some (4, rd, [ra, rb], getX s ra ||| getX s rb)
  | .xor rd ra rb => some (4, rd, [ra, rb], getX s ra ^^^ getX s rb)
  | .sll rd ra rb => some (4, rd, [ra, rb], getX s ra <<< ((getX s rb).toNat % 64))
  | .srl rd ra rb => some (4, rd, [ra, rb], getX s ra >>> ((getX s rb).toNat % 64))
  | .sra rd ra rb => some (4, rd, [ra, rb], (getX s ra).sshiftRight ((getX s rb).toNat % 64))
  | .min rd ra rb => some (4, rd, [ra, rb], if (getX s ra).toInt ≤ (getX s rb).toInt then getX s ra else getX s rb)
  | .max rd ra rb => some (4, rd, [ra, rb], if (getX s ra).toInt ≤ (getX s rb).toInt then getX s rb else getX s ra)
  | .minu rd ra rb => some (4, rd, [ra, rb], if (getX s ra).toNat ≤ (getX s rb).toNat then getX s ra else getX s rb)
  | .maxu rd ra rb => some (4, rd, [ra, rb], if (getX s ra).toNat ≤ (getX s rb).toNat then getX s rb else getX s ra)
  | .slt rd ra rb => some (4, rd, [ra, rb], truth ((getX s ra).toInt < (getX s rb).toInt))
  | .sltu rd ra rb => some (4, rd, [ra, rb], truth ((getX s ra).toNat < (getX s rb).toNat))
  | .mul rd ra rb => some (4, rd, [ra, rb], getX s ra * getX s rb)
  | .mulh rd ra rb => some (4, rd, [ra, rb], BitVec.ofInt 64 ((getX s ra).toInt * (getX s rb).toInt / 2 ^ 64))
  | .mulhu rd ra rb => some (4, rd, [ra, rb], BitVec.ofNat 64 ((getX s ra).toNat * (getX s rb).toNat / 2 ^ 64))
  | .div rd ra rb => some (4, rd, [ra, rb],
      if getX s rb = 0 then -1 else BitVec.ofInt 64 ((getX s ra).toInt.tdiv (getX s rb).toInt))
  | .divu rd ra rb => some (4, rd, [ra, rb],
      if getX s rb = 0 then -1 else BitVec.ofNat 64 ((getX s ra).toNat / (getX s rb).toNat))
  | .rem rd ra rb => some (4, rd, [ra, rb],
      if getX s rb = 0 then getX s ra else BitVec.ofInt 64 ((getX s ra).toInt.tmod (getX s rb).toInt))
  | .remu rd ra rb => some (4, rd, [ra, rb],
      if getX s rb = 0 then getX s ra else BitVec.ofNat 64 ((getX s ra).toNat % (getX s rb).toNat))
  | .clz rd ra => some (4, rd, [ra], word (leadingZeros (getX s ra) 64))
  | .ctz rd ra => some (4, rd, [ra], word (trailingZeros (getX s ra) 0 64))
  | .popc rd ra => some (4, rd, [ra], word (popCount (getX s ra)))
  | .sext rd ra rb => some (4, rd, [ra, rb], sext64 (getX s ra) (getX s rb))
  | .zext rd ra rb => some (4, rd, [ra, rb], zext64 (getX s ra) (getX s rb))
  | .oadd rd ra rb => some (4, rd, [ra, rb],
      word (bits (getX s ra) 52 12 * 2 ^ 52 + (bits (getX s ra) 0 52 + (getX s rb).toNat) % 2 ^ 52))
  | .oslot rd ra => some (4, rd, [ra], getX s ra >>> 52)
  | .omake rd ra rb => some (4, rd, [ra, rb], word (bits (getX s ra) 0 12 * 2 ^ 52 + bits (getX s rb) 0 52))
  | .pack2 rd ra rb => some (4, rd, [ra, rb], word (min (getX s rb).toNat 65535 * 2 ^ 16 + min (getX s ra).toNat 65535))
  | .pack4 rd ra rb => some (4, rd, [ra, rb], word
      (min (bits (getX s rb) 32 32) 65535 * 2 ^ 48 + min (bits (getX s rb) 0 32) 65535 * 2 ^ 32
        + min (bits (getX s ra) 32 32) 65535 * 2 ^ 16 + min (bits (getX s ra) 0 32) 65535))
  | .addi rd ra imm => some (4, rd, [ra], getX s ra + imm.signExtend 64)
  | .andi rd ra imm => some (4, rd, [ra], getX s ra &&& imm.signExtend 64)
  | .ori rd ra imm => some (4, rd, [ra], getX s ra ||| imm.signExtend 64)
  | .xori rd ra imm => some (4, rd, [ra], getX s ra ^^^ imm.signExtend 64)
  | .slti rd ra imm => some (4, rd, [ra], truth ((getX s ra).toInt < imm.toInt))
  | .slli rd ra imm => some (4, rd, [ra], getX s ra <<< imm.toNat)
  | .srli rd ra imm => some (4, rd, [ra], getX s ra >>> imm.toNat)
  | .srai rd ra imm => some (4, rd, [ra], (getX s ra).sshiftRight imm.toNat)
  | .lui rd u => some (4, rd, [], BitVec.ofInt 64 (u.toInt * 2 ^ 14))
  | .auic rd ra k cd => some (4, rd, [ra], coordMoved (getX s ra) cd k)
  | .add16 ra rb => some (2, ra, [ra, rb], getX s ra + getX s rb)
  | .sub16 ra rb => some (2, ra, [ra, rb], getX s ra - getX s rb)
  | .mov16 ra rb => some (2, ra, [rb], getX s rb)
  | .addi16 ra imm => some (2, ra, [ra], getX s ra + imm.signExtend 64)
  | .andi16 ra imm => some (2, ra, [ra], getX s ra &&& imm.signExtend 64)
  | .slli16 ra imm => some (2, ra, [ra], getX s ra <<< imm.toNat)
  | .srli16 ra imm => some (2, ra, [ra], getX s ra >>> imm.toNat)
  | .srai16 ra imm => some (2, ra, [ra], (getX s ra).sshiftRight imm.toNat)
  | .and16 ra rb => some (2, ra, [ra, rb], getX s ra &&& getX s rb)
  | .or16 ra rb => some (2, ra, [ra, rb], getX s ra ||| getX s rb)
  | .xor16 ra rb => some (2, ra, [ra, rb], getX s ra ^^^ getX s rb)
  | .mul16 ra rb => some (2, ra, [ra, rb], getX s ra * getX s rb)
  | _ => none

end Sys2Proof.Machine

/-- R203 to R210, R212 and R196: every computing form but OCHK completes, on a cell and on a die firmware core, writes the value of its table into its
destination alone, with the union of its sources' taints (R67), and accesses no memory. -/
def Sys2Proof.Machine.ComputingFormsResultResults : Prop :=
  ∀ s i len rd src v, OnCore s → computes s i = some (len, rd, src, v) →
    ∃ t, exec i s = .next t ∧ WritesOnly s t len rd v (src.any (tainted s))

namespace Sys2Proof.Machine

/-- The state once an access has used its descriptor: the entry is the most recently used of the cell's descriptor cache (R16). -/
def reached (s : State) (t : Target) : State := useDesc s (viewOf s s.cur) t

end Sys2Proof.Machine

/-- R211, R16, Table 9.5: OCHK writes what the oref resolves to into rd: OK when offset + n does not exceed LEN, the rights and LEN; 0 for the slots 17 to 31; where the cell's
descriptor cache does not hold the slot's entry, it stalls until it does. It raises no trap and accesses no memory. -/
def Sys2Proof.Machine.OchkResult : Prop :=
  ∀ s rd ra rb, OnCore s →
    let o := getX s ra
    (∀ t, resolve s (viewOf s s.cur) o = .ok t →
      ∃ u, exec (.ochk rd ra rb) s = .next u
        ∧ Writes s u rd (word (t.len % 2 ^ 52 + t.rights % 32 * 2 ^ 52 + if t.off + (getX s rb).toNat ≤ t.len then 2 ^ 63 else 0)) (tainted s ra || tainted s rb)
        ∧ getPc u = pcAfter s 4 ∧ OnlyRegisters (reached s t) u ∧ SameMemory s u) ∧
    (17 ≤ bits o 52 12 → bits o 52 12 < 32 →
      ∃ u, exec (.ochk rd ra rb) s = .next u ∧ WritesOnly s u 4 rd 0 (tainted s ra || tainted s rb)) ∧
    (32 ≤ bits o 52 12 → cacheMiss s (viewOf s s.cur) (bits o 52 12) = true →
      exec (.ochk rd ra rb) s = .next (waitFor s (.descriptor (bits o 52 12))))

namespace Sys2Proof.Machine

/-! ### Control flow -/

/-- No scalar register and no taint differs. -/
def SameRegisters (s t : State) : Prop := ∀ r, getX t r = getX s r ∧ tainted t r = tainted s r

/-- The branch and jump forms without a link (R213, R196): length, whether the comparison holds, and the offset in parcels. -/
def branches (s : State) : Instr → Option (Nat × Bool × Int)
  | .beq ra rb off => some (4, getX s ra = getX s rb, off.toInt)
  | .bne ra rb off => some (4, getX s ra ≠ getX s rb, off.toInt)
  | .blt ra rb off => some (4, (getX s ra).toInt < (getX s rb).toInt, off.toInt)
  | .bge ra rb off => some (4, (getX s ra).toInt ≥ (getX s rb).toInt, off.toInt)
  | .bltu ra rb off => some (4, (getX s ra).toNat < (getX s rb).toNat, off.toInt)
  | .bgeu ra rb off => some (4, (getX s ra).toNat ≥ (getX s rb).toNat, off.toInt)
  | .j off => some (4, true, off.toInt)
  | .beqz16 ra off => some (2, getX s ra = 0, off.toInt)
  | .bnez16 ra off => some (2, getX s ra ≠ 0, off.toInt)
  | .j16 off => some (2, true, off.toInt)
  | _ => none

/-- The program counter after a jump to byte `p`: a die firmware core's has 64 bits. -/
def landing (s : State) (p : Int) : Nat :=
  match s.cur with
  | .dfc _ => p.toNat % 2 ^ 64
  | _ => p.toNat

/-- The return token that the moving slot's jump makes, or a die firmware core's return address (R215, Table 9.7). -/
def linkOf (s : State) (len : Nat) : Word :=
  match s.cur with
  | .slot c k => 1#1 ++ BitVec.ofNat 23 (s.slot c k).cap ++ 0#8 ++ BitVec.ofNat 32 (recordAt s (s.slot c k).cap (s.slot c k).pc)
  | .dfc d => (s.dfc d).pc + word len
  | _ => 0

/-- Nothing but the scalar registers, their taints, the capsule and the program counter of the moving slot differs. -/
def OnlyRegistersAndPlace (s t : State) : Prop :=
  match s.cur with
  | .slot c k => ∃ l x tn cap pc, t = s.setSlot c k l ∧ l.wait = .none ∧ l.pend = none
      ∧ l.unmarked = { (s.slot c k).unmarked with x := x, taint := tn, cap := cap, pc := pc }
  | .dfc d => ∃ x tn pc, t = s.setDfc d { s.dfc d with x := x, taint := tn, pc := pc, wait := .none, pend := none }
  | _ => False

/-- The two spellings of JALR with the destination, source, immediate and length they stand for (R215, R196). -/
def jumpRegister : Instr → Option (BitVec 5 × BitVec 5 × BitVec 14 × Nat)
  | .jalr rd ra imm => some (rd, ra, imm, 4)
  | .jr16 ra rb => if rb = 0 then some (0, ra, 0, 2) else none
  | _ => none

/-- The return map of a capsule: record `n` is a JAL, CALLX or JALR record, not the data of a CONST record, and its code ends before byte `p` (R215). -/
def ReturnsTo (x : Capsule) (n p : Nat) : Prop :=
  (∃ w, x.list[n]? = some w ∧ bits w 0 10 ∈ [0x31, 0x32, 0x33]) ∧ isWide false x.list n = false ∧ ∃ e, x.body.pos.find? (fun e => e.1 = n) = some e ∧ p = e.2.2

end Sys2Proof.Machine

/-- R213, R196: a conditional branch whose comparison fails goes on past itself; one whose comparison holds, and every J, goes to pc + 2 x
offset when the target is an instruction of the executing body; no register and no byte of memory differs. -/
def Sys2Proof.Machine.BranchesGoToTheirTarget : Prop :=
  ∀ s i len (taken : Bool) off, OnCore s → branches s i = some (len, taken, off) →
    (taken = true → validTarget s (Int.ofNat (getPc s) + 2 * off) = true) →
    ∃ t, exec i s = .next t ∧ getPc t = (if taken then landing s (Int.ofNat (getPc s) + 2 * off) else pcAfter s len)
      ∧ SameRegisters s t ∧ OnlyRegisters s t ∧ SameMemory s t

/-- R214: a taken branch, J or JAL whose target is outside the code of the executing body, or no start of an instruction, raises 0x01 at
the branch: a slot's activation aborts, and a die firmware core enters its handler with the branch's address saved. -/
def Sys2Proof.Machine.BadTargetTraps : Prop :=
  ∀ s i len off, OnCore s → s.provisional = false →
    (branches s i = some (len, true, off) ∨ ∃ o : BitVec 24, i = .jal o ∧ off = o.toInt) →
    validTarget s (Int.ofNat (getPc s) + 2 * off) = false →
    (∀ c k, s.cur = .slot c k → exec i s = .next (abortActivation s c k 1 1 0 0)) ∧
    (∀ d, s.cur = .dfc d → exec i s = .next (dfcTrap s d false 1 (s.dfc d).pc))

/-- R213, R215: JAL writes its link into x1 and jumps as J does. -/
def Sys2Proof.Machine.JumpAndLink : Prop :=
  ∀ s (off : BitVec 24), OnCore s → validTarget s (Int.ofNat (getPc s) + 2 * off.toInt) = true →
    ∃ t, exec (.jal off) s = .next t ∧ Writes s t 1 (linkOf s 4) false ∧ getPc t = landing s (Int.ofNat (getPc s) + 2 * off.toInt)
      ∧ OnlyRegisters s t ∧ SameMemory s t

/-- R215: on a cell, JALR and JR through a return token of a capsule loaded into the context go to the code that follows the record the
token names, and JALR leaves a token of its own; on a die firmware core they go to x[ra] + 2 x imm. -/
def Sys2Proof.Machine.JumpThroughRegister : Prop :=
  ∀ s i rd ra imm len, jumpRegister i = some (rd, ra, imm, len) →
    (∀ c k x r ctx p, s.cur = .slot c k → k < 4 → imm = 0 →
      bits (getX s ra) 63 1 = 1 → bits (getX s ra) 32 8 = 0 →
      (s.cell c).ctx = some r → s.ctx r = some ctx → ctx.caps.has (bits (getX s ra) 40 23) = true →
      s.caps.find (bits (getX s ra) 40 23) = some x → x.state = 1 → ReturnsTo x (bits (getX s ra) 0 32) p →
      ∃ t, exec i s = .next t ∧ Writes s t rd (linkOf s len) false ∧ (t.slot c k).cap = bits (getX s ra) 40 23 ∧ getPc t = p
        ∧ OnlyRegistersAndPlace s t ∧ SameMemory s t) ∧
    (∀ d, s.cur = .dfc d → validTarget s (Int.ofNat (getX s ra + 2 * imm.signExtend 64).toNat) = true →
      ∃ t, exec i s = .next t ∧ Writes s t rd (linkOf s len) false ∧ (t.dfc d).pc = getX s ra + 2 * imm.signExtend 64
        ∧ OnlyRegisters s t ∧ SameMemory s t)

namespace Sys2Proof.Machine

/-! ### Memory accesses of a core -/

/-- The wait field is met: W = 0, or the counter it names is zero (R49). -/
def WaitMet (s : State) (w : BitVec 2) : Prop := w = 0 ∨ counter s (w.toNat - 1) = 0

/-- The bytes of an access to a place of the moving slot's own cell: its scratchpad, or its accumulator region (R28, Table 2.1). -/
def OwnBytes (s : State) (t : Target) (n : Nat) (ks : List Nat) : Prop :=
  ∃ c k, s.cur = .slot c k ∧ ((t.home = .scratch c ∧ ks = span (scratchKey c (t.base + t.off)) n)
    ∨ (t.home = .accum c ∧ ks = span (accKey c t.off) n))

/-- The reference leads to a vault or to a paged home. -/
def InMemory (t : Target) : Prop := (∃ g, t.home = .vault g) ∨ ∃ h, t.home = .paged h

/-- No fence holds the reads of the moving agent back, and none of its releases an acquire (R244, R85). -/
def MayRead (s : State) (acq : Bool) : Prop := readFenced s = false ∧ acquireHeld s acq = false

/-- An access may read, and no write of its agent to its bytes or its vault is on its way (R46, R41). -/
def NothingBefore (s : State) (t : Target) (n : Nat) (acq : Bool) (ks : List Nat) : Prop :=
  MayRead s acq ∧ overlaps (outstanding s) s.cur t.desc t.slot t.off n = false ∧ mayOverlap s s.cur ks = false ∧ vaultBusy s s.cur t = false

/-- A read of `n` bytes at a checked reference, an acquire or not, delivers `b`, and sets A on the leaf entries `leaves` (R231, R142): at once at the own cell;
elsewhere when its response is there. No comparator or filter watches it, and no granule of it is poisoned. -/
inductive Delivers (s : State) (t : Target) (n : Nat) (w : BitVec 2) (acq : Bool) : List Byte → List Nat → Prop
  | own (ks : List Nat) (place : OwnBytes s t n ks) (unwatched : localMatch s t n true false = false) (met : WaitMet s w)
      (open_ : MayRead s acq) (clean : s.poisoned ks = false) : Delivers s t n w acq (readKeys s.mem ks) []
  | memory (l : Located) (place : InMemory t) (found : locate s (viewOf s s.cur) t n false = .ok l) (unwatched : l.watched = false)
      (met : WaitMet s w) (before : NothingBefore s t n acq l.keys) (clean : s.poisoned l.keys = false) (here : s.answered = true) :
      Delivers s t n w acq (s.bytesAt l) l.leaves
  | window (d : Nat) (place : t.home = .window d) (met : WaitMet s w) (before : NothingBefore s t n acq []) (here : s.answered = true) :
      Delivers s t n w acq (bytesOf 8 (windowRead s ((viewOf s s.cur).ctx.getD 0) d t.off).toNat) []
  | device (place : t.home = .remote) (met : WaitMet s w) (before : NothingBefore s t n acq []) (here : s.answered = true)
      (route : routed s (bits t.desc.ptr 0 9) = true) (answer : s.inp.n = 0) :
      Delivers s t n w acq ((s.inp.bytes ++ List.replicate n 0).take n) []

/-- The state with A, or A and D, set on leaf entries (R142). -/
def used (s : State) (leaves : List Nat) (write : Bool) : State := touchLeaves s leaves write

/-- The loads of Table 10.1 and their 16-bit forms: length, bytes, whether sign extended, whether the destination is tainted (LDCN, R234), rt,
ra, W, whether an acquire, and the immediate. -/
def loads : Instr → Option (Nat × Nat × Bool × Bool × BitVec 5 × BitVec 5 × BitVec 2 × Bool × BitVec 7)
  | .lb rt ra w _ ord imm => some (4, 1, true, false, rt, ra, w, ord == 1, imm)
  | .lh rt ra w _ ord imm => some (4, 2, true, false, rt, ra, w, ord == 1, imm)
  | .lw rt ra w _ ord imm => some (4, 4, true, false, rt, ra, w, ord == 1, imm)
  | .ld rt ra w _ ord imm => some (4, 8, false, false, rt, ra, w, ord == 1, imm)
  | .lbu rt ra w _ ord imm => some (4, 1, false, false, rt, ra, w, ord == 1, imm)
  | .lhu rt ra w _ ord imm => some (4, 2, false, false, rt, ra, w, ord == 1, imm)
  | .lwu rt ra w _ ord imm => some (4, 4, false, false, rt, ra, w, ord == 1, imm)
  | .ldcn rt ra w _ ord imm => some (4, 8, false, true, rt, ra, w, ord == 1, imm)
  | .ld16 ra rb => some (2, 8, false, false, ra, rb, 0, false, 0)
  | .lw16 ra rb => some (2, 4, true, false, ra, rb, 0, false, 0)
  | _ => none

/-- The stores of Table 10.1 and their 16-bit forms: length, bytes, rt, ra, W, whether a release, and the immediate. -/
def stores : Instr → Option (Nat × Nat × BitVec 5 × BitVec 5 × BitVec 2 × Bool × BitVec 7)
  | .sb rt ra w _ ord imm => some (4, 1, rt, ra, w, ord == 2, imm)
  | .sh rt ra w _ ord imm => some (4, 2, rt, ra, w, ord == 2, imm)
  | .sw rt ra w _ ord imm => some (4, 4, rt, ra, w, ord == 2, imm)
  | .sd rt ra w _ ord imm => some (4, 8, rt, ra, w, ord == 2, imm)
  | .sd16 ra rb => some (2, 8, ra, rb, 0, false, 0)
  | .sw16 ra rb => some (2, 4, ra, rb, 0, false, 0)
  | _ => none

/-- The oref of an M-format access: the offset moved by the scaled immediate, modulo 2^52 (Formula (10.2)). -/
def accessRef (s : State) (ra : BitVec 5) (imm : BitVec 7) (scale : Nat) : Word :=
  word (bits (getX s ra) 52 12 * 2 ^ 52 + ((Int.ofNat (bits (getX s ra) 0 52) + imm.toInt * Int.ofNat scale) % 2 ^ 52).toNat)

/-- The value of `n` little-endian bytes, sign extended from its top bit or not. -/
def extended (n : Nat) (sgn : Bool) (b : List Byte) : Word :=
  if sgn then (BitVec.ofNat (8 * n) (numOfBytes b)).signExtend 64 else BitVec.ofNat 64 (numOfBytes b)

/-- A write at once to `ks`: not held back by a fence or its own release (R244, R70), not watched, its wait field met. -/
def StoresNow (s : State) (t : Target) (n : Nat) (w : BitVec 2) (rel : Bool) (ks : List Nat) : Prop :=
  OwnBytes s t n ks ∧ localMatch s t n false true = false ∧ WaitMet s w ∧ writeFenced s rel = false

/-- `t` is `s` with the bytes `b` stored at the keys `ks`, and every other byte of memory as it was. -/
def Stored (s t : State) (ks : List Nat) (b : List Byte) : Prop :=
  readKeys t.mem ks = b ∧ ∀ a, a ∉ ks → readByte t.mem a = readByte s.mem a

/-- A posted write of the moving agent (R46): its effect, whether a release, its access kind, and the post class of its reference. -/
def PostedAs (s u : State) (t : Target) (eff : Effect) (rel : Bool) (acc : Nat) : Prop :=
  ∃ p : Posted, u.posted = s.posted ++ [p] ∧ p.agent = s.cur ∧ p.ctx = (viewOf s s.cur).ctx.getD 0 ∧ p.eff = eff ∧ p.rel = rel ∧ p.acc = acc
    ∧ p.cls = postClass t ∧ p.counted = true
    ∧ ∀ c < 3, counter u c = counter s c + (if c = postClass t then 1 else 0)

end Sys2Proof.Machine

/-- R232, R234, R231, R196: a load whose reference is checked and whose bytes are delivered writes them into rt, sign or zero extended, tainted by
LDCN alone; nothing else differs, but for the A bits of the page-table entries used and the place of the descriptor's entry in the cell's cache (R16). -/
def Sys2Proof.Machine.LoadForms : Prop :=
  ∀ s i len n sgn tn rt ra w acq imm t b leaves, OnCore s → loads i = some (len, n, sgn, tn, rt, ra, w, acq, imm) →
    checkRef s (viewOf s s.cur) (accessRef s ra imm n) n 1 0 = .ok t → windowRule t n false = true → Delivers s t n w acq b leaves →
    ∃ u, exec i s = .next u ∧ Writes s u rt (extended n sgn b) tn ∧ getPc u = pcAfter s len
      ∧ OnlyRegisters (used (reached s t) leaves false) u ∧ ∀ a, a ∉ leaves → readByte u.mem a = readByte s.mem a

/-- R231, R46: a load from a vault, a page, an engine window or another device whose wait field is met and behind which no write of its agent to the place is on its way
sends its request and stays at its place until the response arrives; it has no other effect. -/
def Sys2Proof.Machine.RemoteLoadWaits : Prop :=
  ∀ s i len n sgn tn rt ra w acq imm t l, OnCore s → loads i = some (len, n, sgn, tn, rt, ra, w, acq, imm) →
    checkRef s (viewOf s s.cur) (accessRef s ra imm n) n 1 0 = .ok t → windowRule t n false = true →
    (InMemory t ∨ (∃ d, t.home = .window d) ∨ t.home = .remote) → locate s (viewOf s s.cur) t n false = .ok l → WaitMet s w → NothingBefore s t n acq l.keys →
    s.answered = false → exec i s = .next (awaitResponse s i)

/-- R232, R233: a store to the own cell writes the low bytes of x[rt] there, little-endian, and changes no other byte, no register, no
full/empty and no poison bit. -/
def Sys2Proof.Machine.LocalStores : Prop :=
  ∀ s i len n rt ra w rel imm t ks, OnCore s → stores i = some (len, n, rt, ra, w, rel, imm) →
    checkRef s (viewOf s s.cur) (accessRef s ra imm n) n 2 1 = .ok t → StoresNow s t n w rel ks →
    ∃ u, exec i s = .next u ∧ Stored s u ks (bytesOf n (getX s rt).toNat) ∧ SameRegisters s u ∧ getPc u = pcAfter s len
      ∧ OnlyRegisters { reached s t with mem := u.mem } u ∧ u.full = s.full ∧ u.poison = s.poison

/-- R46, R105, R233: a store anywhere else leaves as a posted store, counted in the class of its place, when its counter has room; memory is not yet
changed, nothing else of its slot differs, and a store into an engine window is a kick and a release. -/
def Sys2Proof.Machine.PostedStores : Prop :=
  ∀ s i len n rt ra w rel imm t, OnCore s → stores i = some (len, n, rt, ra, w, rel, imm) →
    checkRef s (viewOf s s.cur) (accessRef s ra imm n) n 2 1 = .ok t → windowRule t n true = true → isLocal (viewOf s s.cur) t = false →
    WaitMet s w → counter s (postClass t) < 4095 →
    ∃ u, exec i s = .next u ∧ SameRegisters s u ∧ SameMemory s u ∧ getPc u = pcAfter s len
      ∧ (OnCell s → OnlyOfSlot { reached s t with posted := u.posted } u fun l o => { o with pcv := l.pcv, pcm := l.pcm, pcn := l.pcn, pc := l.pc })
      ∧ ((∀ d, t.home ≠ .window d) → PostedAs s u t (.bytes (accessRef s ra imm n) (bytesOf n (getX s rt).toNat) false) rel 1)
      ∧ (∀ d, t.home = .window d → PostedAs s u t (.kick d (t.off / 64) (getX s rt)) true 1)

/-- R15, R231: a load or store whose reference fails a check takes that check's trap at its place, in the order slot 0x02, bounds 0x03, rights
0x04, and has no other effect: a slot's activation aborts with FOREF the first byte that fails the check, the access kind in FCAUSE (R144); a die firmware core
enters its handler. -/
def Sys2Proof.Machine.AccessChecks : Prop :=
  ∀ s i n ra imm rts acc, OnCore s → s.provisional = false →
    ((∃ len sgn tn rt w acq, loads i = some (len, n, sgn, tn, rt, ra, w, acq, imm) ∧ rts = 1 ∧ acc = 0) ∨
      ∃ len rt w rel, stores i = some (len, n, rt, ra, w, rel, imm) ∧ rts = 2 ∧ acc = 1) →
    let o := accessRef s ra imm n
    ∀ cause ref, ((resolve s (viewOf s s.cur) o = .error (.trap 2 o 0 0 false) ∧ cause = 2 ∧ ref = o) ∨
        ∃ t, resolve s (viewOf s s.cur) o = .ok t ∧
          ((t.len < t.off + n ∧ cause = 3 ∧ ref = word (bits o 52 12 * 2 ^ 52 + max (bits o 0 52) t.len)) ∨
            (t.off + n ≤ t.len ∧ t.rights &&& rts ≠ rts ∧ cause = 4 ∧ ref = o))) →
      (∀ c k, s.cur = .slot c k → exec i s = .next (abortActivation s c k cause (fcauseOf cause 0 acc 0) ref 0)) ∧
      (∀ d, s.cur = .dfc d → exec i s = .next (dfcTrap s d false cause (s.dfc d).pc))

/-- R235, R35: LDF reads eight bytes of the own scratchpad whose granules are full, when no earlier waiter is served first, and leaves them full; LDF.c empties them; no other register, byte or
full/empty bit differs. -/
def Sys2Proof.Machine.FullEmptyLoads : Prop :=
  ∀ s c k rt ra w sc imm t ks, s.cur = .slot c k → k < 4 →
    t.home = .scratch c → ks = span (scratchKey c (t.base + t.off)) 8 → t.off % 8 = 0 →
    localMatch s t 8 true false = false → WaitMet s w → MayRead s true → s.poisoned ks = false →
    (∀ g ∈ granules ks, s.full.has g = true) → myTurn s (granules ks) = true →
    (checkRef s (viewOf s s.cur) (accessRef s ra imm 8) 8 1 0 = .ok t →
      ∃ u, exec (.ldf rt ra w sc imm) s = .next u ∧ Writes s u rt (extended 8 false (readKeys s.mem ks)) false ∧ getPc u = pcAfter s 4
        ∧ SameMemory s u ∧ OnlyRegisters (reached s t) u) ∧
    (checkRef s (viewOf s s.cur) (accessRef s ra imm 8) 8 3 0 = .ok t →
      ∃ u, exec (.ldfC rt ra w sc imm) s = .next u ∧ Writes s u rt (extended 8 false (readKeys s.mem ks)) false ∧ getPc u = pcAfter s 4
        ∧ SameMemory s u ∧ OnlyRegisters { reached s t with full := u.full } u
        ∧ ∀ g, u.full.has g = (s.full.has g && decide (g ∉ granules ks)))

/-- R235, R35: a load of the full/empty forms waits while any granule it reads is empty, or while a slot that comes before it is served first, and has no effect. -/
def Sys2Proof.Machine.FullEmptyLoadWaits : Prop :=
  ∀ s c k rt ra w sc imm t ks, s.cur = .slot c k → k < 4 →
    t.home = .scratch c → ks = span (scratchKey c (t.base + t.off)) 8 → t.off % 8 = 0 →
    localMatch s t 8 true false = false → WaitMet s w → MayRead s true →
    ((∃ g ∈ granules ks, s.full.has g = false) ∨ myTurn s (granules ks) = false) →
    (checkRef s (viewOf s s.cur) (accessRef s ra imm 8) 8 1 0 = .ok t →
      exec (.ldf rt ra w sc imm) s = .next (waitFor s (.fullEmpty (granules ks)))) ∧
    (checkRef s (viewOf s s.cur) (accessRef s ra imm 8) 8 3 0 = .ok t →
      exec (.ldfC rt ra w sc imm) s = .next (waitFor s (.fullEmpty (granules ks))))

/-- R235, R236: STF stores eight bytes as a release into a scratchpad and makes their granules full, at once in the own cell and as a posted
store in another; FECLR empties x[rt] granules of the own scratchpad. -/
def Sys2Proof.Machine.FullEmptyWrites : Prop :=
  ∀ s rt ra w sc imm, OnCore s →
    (∀ t ks, checkRef s (viewOf s s.cur) (accessRef s ra imm 8) 8 2 1 = .ok t → (∃ c, t.home = .scratch c) → t.off % 8 = 0 →
      StoresNow s t 8 w true ks →
      ∃ u, exec (.stf rt ra w sc imm) s = .next u ∧ Stored s u ks (bytesOf 8 (getX s rt).toNat) ∧ SameRegisters s u
        ∧ getPc u = pcAfter s 4 ∧ OnlyRegisters { reached s t with mem := u.mem, full := u.full } u
        ∧ ∀ g, u.full.has g = (s.full.has g || decide (g ∈ granules ks))) ∧
    (∀ t, checkRef s (viewOf s s.cur) (accessRef s ra imm 8) 8 2 1 = .ok t → (∃ c, t.home = .scratch c) → t.off % 8 = 0 →
      isLocal (viewOf s s.cur) t = false → WaitMet s w → counter s (postClass t) < 4095 →
      ∃ u, exec (.stf rt ra w sc imm) s = .next u ∧ SameRegisters s u ∧ SameMemory s u ∧ getPc u = pcAfter s 4
        ∧ PostedAs s u t (.bytes (accessRef s ra imm 8) (bytesOf 8 (getX s rt).toNat) true) true 1) ∧
    (∀ t c k, s.cur = .slot c k → 0 < (getX s rt).toNat → checkRef s (viewOf s s.cur) (accessRef s ra imm 16) (16 * (getX s rt).toNat) 2 1 = .ok t →
      t.home = .scratch c → (t.base + t.off) % 16 = 0 → localMatch s t (16 * (getX s rt).toNat) false true = false → WaitMet s w →
      writeFenced s false = false →
      ∃ u, exec (.feclr rt ra w sc imm) s = .next u ∧ SameRegisters s u ∧ SameMemory s u ∧ getPc u = pcAfter s 4
        ∧ OnlyRegisters { reached s t with full := u.full } u
        ∧ ∀ g, u.full.has g = (s.full.has g &&
          !decide (scratchKey c (t.base + t.off) / 16 ≤ g ∧ g < scratchKey c (t.base + t.off) / 16 + (getX s rt).toNat))) ∧
    (getX s rt = 0 → exec (.feclr rt ra w sc imm) s = .next (retire s 4))

/-- R237, R238: LAYR reads a layout entry as a remote load, and LAYW leaves as a store of class M; the entry changes when the store performs. Neither has another effect. -/
def Sys2Proof.Machine.LayoutTableForms : Prop :=
  ∀ s c k vd lay w sc, s.cur = .slot c k → k < 4 → WaitMet s w →
    (readFenced s = false → (∀ p ∈ outstanding s, ∀ v, p.eff ≠ .layout lay.toNat v) →
      (s.answered = true → ∃ u, exec (.layr vd lay w sc) s = .next u
        ∧ getV u vd.toNat = (if vd.toNat < 16 then layoutEntry s (viewOf s s.cur) lay.toNat else 0)
        ∧ (∀ r, r ≠ vd.toNat → getV u r = getV s r) ∧ SameRegisters s u ∧ SameMemory s u ∧ getPc u = pcAfter s 4
        ∧ OnlyOfSlot s u fun l o => { o with v := l.v, pc := l.pc }) ∧
      (s.answered = false → exec (.layr vd lay w sc) s = .next (awaitResponse s (.layr vd lay w sc)))) ∧
    (counter s 1 < 4095 → ∃ u, exec (.layw vd lay w sc) s = .next u ∧ SameRegisters s u ∧ SameMemory s u ∧ getPc u = pcAfter s 4
      ∧ PostedAs s u layoutTarget (.layout lay.toNat (getV s vd.toNat)) false 1
      ∧ OnlyOfSlot { s with posted := u.posted } u fun l o => { o with pcm := l.pcm, pc := l.pc })

namespace Sys2Proof.Machine

/-! ### Atomics, fences and barriers -/

/-- The atomics of Table 10.4: operation, bytes, rd, ra, rb and ORD. -/
def atomics : Instr → Option (Amo × Nat × BitVec 5 × BitVec 5 × BitVec 5 × BitVec 2)
  | .amoaddW rd ra rb _ ord => some (.add, 4, rd, ra, rb, ord)
  | .amoandW rd ra rb _ ord => some (.and, 4, rd, ra, rb, ord)
  | .amoorW rd ra rb _ ord => some (.or, 4, rd, ra, rb, ord)
  | .amoxorW rd ra rb _ ord => some (.xor, 4, rd, ra, rb, ord)
  | .amominW rd ra rb _ ord => some (.min, 4, rd, ra, rb, ord)
  | .amomaxW rd ra rb _ ord => some (.max, 4, rd, ra, rb, ord)
  | .amominuW rd ra rb _ ord => some (.minu, 4, rd, ra, rb, ord)
  | .amomaxuW rd ra rb _ ord => some (.maxu, 4, rd, ra, rb, ord)
  | .amoswpW rd ra rb _ ord => some (.swp, 4, rd, ra, rb, ord)
  | .amocasW rd ra rb _ ord => some (.cas, 4, rd, ra, rb, ord)
  | .amofaddW rd ra rb _ ord => some (.fadd, 4, rd, ra, rb, ord)
  | .amoaddD rd ra rb _ ord => some (.add, 8, rd, ra, rb, ord)
  | .amoandD rd ra rb _ ord => some (.and, 8, rd, ra, rb, ord)
  | .amoorD rd ra rb _ ord => some (.or, 8, rd, ra, rb, ord)
  | .amoxorD rd ra rb _ ord => some (.xor, 8, rd, ra, rb, ord)
  | .amominD rd ra rb _ ord => some (.min, 8, rd, ra, rb, ord)
  | .amomaxD rd ra rb _ ord => some (.max, 8, rd, ra, rb, ord)
  | .amominuD rd ra rb _ ord => some (.minu, 8, rd, ra, rb, ord)
  | .amomaxuD rd ra rb _ ord => some (.maxu, 8, rd, ra, rb, ord)
  | .amoswpD rd ra rb _ ord => some (.swp, 8, rd, ra, rb, ord)
  | .amocasD rd ra rb _ ord => some (.cas, 8, rd, ra, rb, ord)
  | .amofaddD rd ra rb _ ord => some (.fadd, 8, rd, ra, rb, ord)
  | _ => none

/-- An atomic of `n` bytes, a release or an acquire or neither, may perform now at a place (R231, R240, R244): the own cell at once, any other
place when its response is there, its counter is zero and no write of the agent to its bytes is on its way; the host has completed it (R243). -/
inductive Performs (s : State) (t : Target) (n : Nat) (rel acq : Bool) : Located → Prop
  | own (ks : List Nat) (place : OwnBytes s t n ks) (unwatched : localMatch s t n true true = false) (open_ : MayRead s acq)
      (free : writeFenced s rel = false) (clean : s.poisoned ks = false) : Performs s t n rel acq ⟨ks, [], false, none⟩
  | memory (l : Located) (place : InMemory t) (found : locate s (viewOf s s.cur) t n true = .ok l) (unwatched : l.watched = false)
      (zero : counter s (postClass t) = 0) (free : writeFenced s rel = false) (before : NothingBefore s t n acq l.keys)
      (clean : s.poisoned l.keys = false) (here : s.answered = true) (done : inHost t = true → s.inp.n ≠ 1) : Performs s t n rel acq l

/-- `t` is `s` with `b` written at a located place: the bytes there hold `b`; every other byte that an access under the place's key reads is as it was, and
so is memory but for the granules brought under that key (R44) and the A and D bits of the leaf entries used (R142). -/
def StoredAt (s t : State) (l : Located) (b : List Byte) : Prop :=
  (∀ (j a : Nat), l.keys[j]? = some a → a ∉ l.leaves → b[j]? = some (readUnder t l.key a)) ∧
  (∀ a, a ∉ l.keys → granule a ∉ granules l.leaves → readUnder t l.key a = readUnder s l.key a) ∧
  ∀ a, a ∉ l.keys → a ∉ l.leaves → (l.key = none ∨ granule a ∉ granules l.keys) → readByte t.mem a = readByte s.mem a

/-- The new value of Table 10.4 for operands of `n` bytes, where the operation is no AMOCAS and no AMOFADD. -/
def newValue (op : Amo) (n : Nat) (m b : BitVec (8 * n)) : BitVec (8 * n) :=
  match op with
  | .add => m + b
  | .and => m &&& b
  | .or => m ||| b
  | .xor => m ^^^ b
  | .min => if m.toInt ≤ b.toInt then m else b
  | .max => if m.toInt ≤ b.toInt then b else m
  | .minu => if m.toNat ≤ b.toNat then m else b
  | .maxu => if m.toNat ≤ b.toNat then b else m
  | .swp => b
  | .cas => b
  | .fadd => m

/-- The barrier that x[ra] names for the moving slot of cell `c` in context `r` (R247). -/
def NamesBarrier (s : State) (c r b : Nat) (x : Context) (ra : BitVec 5) : Prop :=
  (s.cell c).ctx = some r ∧ s.ctx r = some x ∧ b < 256 ∧ getX s ra = word b ∧ (x.barrier b).n ≠ 0

end Sys2Proof.Machine

/-- R239 to R242, R194: an atomic whose reference is checked, aligned and ready answers the old value sign extended in rd, writes the new value where
Table 10.4 says one is written, adds the flags of AMOFADD to the activation's shadow, and changes nothing else but the keys of the granules written (R44), the leaf entries' A and D bits and the place of the
descriptor's entry in the cell's cache (R16). -/
def Sys2Proof.Machine.AtomicFormsResults : Prop :=
  ∀ s i op n rd ra rb ord t l, OnCore s → atomics i = some (op, n, rd, ra, rb, ord) →
    checkRef s (viewOf s s.cur) (getX s ra) n 11 2 = .ok t → t.off % n = 0 → (inHost t = true → op = .add ∨ op = .swp ∨ op = .cas) →
    Performs s t n (ord == 2 || ord == 3) (ord == 1 || ord == 3) l →
    let m := numOfBytes (s.bytesAt l)
    let new := amoNew op n m (getX s rb).toNat (getX s rd).toNat
    ∃ u, exec i s = .next u ∧ Writes s u rd (extended n true (s.bytesAt l)) false ∧ getPc u = pcAfter s 4
      ∧ (∀ v, new.1 = some v → StoredAt s u l (bytesOf n v))
      ∧ (new.1 = none → ∀ a, a ∉ l.leaves → readByte u.mem a = readByte s.mem a)
      ∧ (OnCell s → u.me.shadow.raised = s.me.shadow.raised ||| new.2
          ∧ OnlyOfSlot { reached s t with mem := u.mem, xts := u.xts } u fun l o => { o with x := l.x, taint := l.taint, shadow := l.shadow, pc := l.pc })
      ∧ (∀ d, s.cur = .dfc d → OnlyRegisters { reached s t with mem := u.mem, xts := u.xts } u) ∧ u.full = s.full

/-- R239, R242, R20: an atomic on an object of another device that has answered delivers the old value that device sent into rd, with the flags of AMOFADD
computed from it, and changes no byte of this device's memory and nothing else of its agent. -/
def Sys2Proof.Machine.AtomicAtAnotherDevice : Prop :=
  ∀ s i op n rd ra rb ord t, OnCore s → atomics i = some (op, n, rd, ra, rb, ord) →
    checkRef s (viewOf s s.cur) (getX s ra) n 11 2 = .ok t → t.off % n = 0 → t.home = .remote → counter s 2 = 0 →
    writeFenced s (ord == 2 || ord == 3) = false → NothingBefore s t n (ord == 1 || ord == 3) [] → s.answered = true →
    routed s (bits t.desc.ptr 0 9) = true → s.inp.n = 0 →
    let b := (s.inp.bytes ++ List.replicate n 0).take n
    ∃ u, exec i s = .next u ∧ Writes s u rd (extended n true b) false ∧ getPc u = pcAfter s 4 ∧ SameMemory s u ∧ u.full = s.full
      ∧ (OnCell s → u.me.shadow.raised = s.me.shadow.raised ||| (amoNew op n (numOfBytes b) (getX s rb).toNat (getX s rd).toNat).2
          ∧ OnlyOfSlot (reached s t) u fun l o => { o with x := l.x, taint := l.taint, shadow := l.shadow, pc := l.pc })
      ∧ (∀ d, s.cur = .dfc d → OnlyRegisters (reached s t) u)

/-- Table 10.4, R240, R241: the new value of every operation but AMOFADD, on the 4-byte and the 8-byte operands; AMOCAS writes its operand when the old
value equals the expected one, and nothing otherwise. -/
def Sys2Proof.Machine.AtomicOperations : Prop :=
  ∀ op n m b e, (n = 4 ∨ n = 8) → m < 2 ^ (8 * n) → op ≠ .fadd →
    (amoNew op n m b e).1 = (if op = .cas ∧ BitVec.ofNat (8 * n) m ≠ BitVec.ofNat (8 * n) e then none
      else some (newValue op n (BitVec.ofNat (8 * n) m) (BitVec.ofNat (8 * n) b)).toNat)
    ∧ (amoNew op n m b e).2 = 0

/-- R239, R243, R105: an atomic that is not aligned raises 0x06; one on host memory that PCIe does not carry, and one on an engine window, raises 0x02; each
at its place and without effect. -/
def Sys2Proof.Machine.AtomicTraps : Prop :=
  ∀ s i op n rd ra rb ord t c k, s.cur = .slot c k → k < 4 → s.provisional = false → atomics i = some (op, n, rd, ra, rb, ord) →
    checkRef s (viewOf s s.cur) (getX s ra) n 11 2 = .ok t →
    (t.off % n ≠ 0 → exec i s = .next (abortActivation s c k 6 (fcauseOf 6 0 2 0) (getX s ra) 0)) ∧
    (t.off % n = 0 → (inHost t = true ∧ op ≠ .add ∧ op ≠ .swp ∧ op ≠ .cas) ∨ (inHost t = false ∧ ∃ d, t.home = .window d) →
      exec i s = .next (abortActivation s c k 2 (fcauseOf 2 0 2 0) (getX s ra) 0))

/-- R244 and log entry 12: FENCE moves on at once and changes no register and no byte. One that names earlier writes ends an epoch of its agent's writes; where it also
names later writes, or later reads, those are held back while a write of that epoch is on its way, and an access outside its sets is not (R77). -/
def Sys2Proof.Machine.FenceOrders : Prop :=
  ∀ s sc sw sr pw pr, OnCore s →
    ∃ u, exec (.fence sc sw sr pw pr) s = .next u ∧ SameRegisters s u ∧ SameMemory s u ∧ getPc u = pcAfter s 4 ∧ OnlyRegisters { s with epochs := u.epochs } u
      ∧ (pw = 0 → ∀ a, u.epochs.getD a 0 = s.epochs.getD a 0)
      ∧ (pw = 1 → u.epochs.getD (agentIndex s.cur) 0 = s.epochs.getD (agentIndex s.cur) 0 + 1)
      ∧ (sr = 0 → u.epochs.getD (readFence s.cur) 0 = s.epochs.getD (readFence s.cur) 0)
      ∧ (sw = 0 → u.epochs.getD (writeFence s.cur) 0 = s.epochs.getD (writeFence s.cur) 0)
      ∧ (pw = 1 → sr = 1 → (∃ p ∈ outstanding s, p.epoch ≤ s.epochs.getD (agentIndex s.cur) 0) → readFenced u = true)
      ∧ (pw = 1 → sw = 1 → (∃ p ∈ outstanding s, p.epoch ≤ s.epochs.getD (agentIndex s.cur) 0) → writeFenced u false = true)

/-- R245: WAITC completes when every counter it names is zero, and otherwise stalls; it has no other effect. -/
def Sys2Proof.Machine.CounterWait : Prop :=
  ∀ s (cn cm cv : BitVec 1), OnCore s →
    ((cv = 1 → counter s 0 = 0) ∧ (cm = 1 → counter s 1 = 0) ∧ (cn = 1 → counter s 2 = 0) →
      ∃ u, exec (.waitc cn cm cv) s = .next u ∧ SameRegisters s u ∧ SameMemory s u ∧ getPc u = pcAfter s 4 ∧ OnlyRegisters s u) ∧
    ((cv = 1 ∧ counter s 0 ≠ 0) ∨ (cm = 1 ∧ counter s 1 ≠ 0) ∨ (cn = 1 ∧ counter s 2 ≠ 0) →
      exec (.waitc cn cm cv) s = .next (waitFor s .counter))

/-- R246, R247: BARA counts one arrival in the current phase, puts that phase into rd and the ticket, and the N-th arrival completes the phase; an arrival
from another die than the barrier's counts when its answer is there. -/
def Sys2Proof.Machine.BarrierArrival : Prop :=
  ∀ s c k r b x rd ra sc, s.cur = .slot c k → k < 4 → NamesBarrier s c r b x ra → writeFenced s true = false →
    (s.answered = true ∨ dieOfCell c = barrierDie x) →
    let e := x.barrier b
    ∃ u y, exec (.bara rd ra sc) s = .next u ∧ Writes s u rd (e.ph.setWidth 64) false ∧ getPc u = pcAfter s 4 ∧ SameMemory s u
      ∧ (u.slot c k).ticket = some (b, e.ph) ∧ u.ctx r = some y
      ∧ y.barrier b = (if e.a + 1 = e.n then ⟨e.ph + 1, 0, e.n⟩ else ⟨e.ph, e.a + 1, e.n⟩)
      ∧ (∀ b', b' ≠ b → y.barrier b' = x.barrier b') ∧ y = { x with barriers := y.barriers }
      ∧ (e.a + 1 ≠ e.n → OnlyOfSlot (s.setCtx r y) u fun l o => { o with x := l.x, taint := l.taint, ticket := l.ticket, pc := l.pc })
      ∧ (e.a + 1 = e.n → u = { s.setCtx r y with cells := u.cells } ∧ ∀ c' k', k' < 4 → (c', k') ≠ (c, k) →
          u.slot c' k' = { s.slot c' k' with barw := (u.slot c' k').barw, wait := (u.slot c' k').wait })
      ∧ let l := (u.slot c k).unmarked
        l = { (s.slot c k).unmarked with x := l.x, taint := l.taint, ticket := l.ticket, barw := l.barw, pc := l.pc }

/-- R247: BARW of a phase completed 1 to 32 767 completions ago returns it in rd, the phase being that of its ticket for the barrier, else the current one;
otherwise it waits for that phase; a BARW that waits returns once its phase has completed. -/
def Sys2Proof.Machine.BarrierWait : Prop :=
  ∀ s c k r b x rd ra sc, s.cur = .slot c k → k < 4 → NamesBarrier s c r b x ra →
    let e := x.barrier b
    let p := match (s.slot c k).ticket with | some (b', q) => if b' = b then q else e.ph | none => e.ph
    ((s.slot c k).barw = none → 1 ≤ (e.ph - p).toNat → (e.ph - p).toNat ≤ 32767 →
      ∃ u, exec (.barw rd ra sc) s = .next u ∧ Writes s u rd (p.setWidth 64) false ∧ getPc u = pcAfter s 4 ∧ SameMemory s u ∧ OnlyRegisters s u) ∧
    ((s.slot c k).barw = none → ¬(1 ≤ (e.ph - p).toNat ∧ (e.ph - p).toNat ≤ 32767) →
      exec (.barw rd ra sc) s = .next (s.setSlot c k { s.slot c k with barw := some (b, p, false), wait := .barrier })) ∧
    (∀ q, (s.slot c k).barw = some (b, q, true) →
      ∃ u, exec (.barw rd ra sc) s = .next u ∧ Writes s u rd (q.setWidth 64) false ∧ getPc u = pcAfter s 4 ∧ (u.slot c k).barw = none ∧ SameMemory s u
        ∧ OnlyOfSlot s u fun l o => { o with x := l.x, taint := l.taint, barw := l.barw, pc := l.pc })

namespace Sys2Proof.Machine

/-! ### Messages, binding and queue registers -/

/-- The moving slot runs activation `a` in context `r`, whose record is `x`. -/
def Running (s : State) (c k r : Nat) (a : Activation) (x : Context) : Prop :=
  s.cur = .slot c k ∧ k < 4 ∧ (s.slot c k).act = some a ∧ (s.cell c).ctx = some r ∧ s.ctx r = some x

/-- The unicast send forms with the message kinds they accept (Table 10.5): header and payload registers, and the kinds. -/
def sends : Instr → Option (BitVec 5 × BitVec 5 × List Nat)
  | .send ra vb => some (ra, vb, [0, 5])
  | .sends ra vb => some (ra, vb, [1, 2])
  | .sende ra vb => some (ra, vb, [3])
  | _ => none

/-- The checks of R249 that every send passes: a buffer place, a length of at most 8, a kind of the form, and no payload on a STREAM-START. -/
def Sendable (l : Slot) (h : Word) (kinds : List Nat) : Prop :=
  l.sends.length < 16 ∧ bits h 4 4 ≤ 8 ∧ bits h 8 3 ∈ kinds ∧ (bits h 8 3 = 1 → bits h 4 4 = 0)

/-- One more message stands in the slot's send buffer: header `h` with IDX the send's index and DEST and SRC as given, the low LEN doublewords of `v`,
the activation's serial, and these receivers; nothing else of the slot but its place differs (R249). -/
def Buffered (s u : State) (c k : Nat) (a : Activation) (h : Word) (dest src : Nat) (v : Vec)
    (receivers : List (Nat × Nat × Nat × Option (Nat × Nat))) : Prop :=
  ∃ m : OutMsg, (u.slot c k).sends = (s.slot c k).sends ++ [m] ∧ m.dests = receivers ∧ m.msg.ser = a.serial
    ∧ bits m.msg.hdr 0 4 = (s.slot c k).sends.length ∧ bits m.msg.hdr 4 12 = bits h 4 12
    ∧ bits m.msg.hdr 16 24 = src % 2 ^ 24 ∧ bits m.msg.hdr 40 24 = dest % 2 ^ 24
    ∧ m.msg.pay = (List.range (bits h 4 4)).map (fun i => v.extractLsb' (64 * i) 64)
    ∧ OnlyOfSlot s u fun l o => { o with sends := l.sends, pc := l.pc }

/-- The cells of the rank of cell `c` that a multicast mask names. -/
def multicastCells (m : Word) : List Nat := (List.range 8).filter fun j => m.getLsbD j

/-- The bind word's fields that BIND writes (Table 10.7), with NENT from the installer's map. -/
def Bound (h : Handler) (w : Word) (nent : Nat) : Prop :=
  h.hidx.toNat = bits w 16 16 ∧ h.role.toNat = bits w 14 2 ∧ h.rep = w.getLsbD 13 ∧ h.stl = w.getLsbD 12 ∧ h.tb.toNat = bits w 32 32
    ∧ h.nent = nent ∧ h.bnd = true

/-- The other entries of the cell's handler table are as they were. -/
def OtherHandlers (s u : State) (c ch : Nat) : Prop := ∀ j, j ≠ ch → (u.cell c).handler j = (s.cell c).handler j

/-- Nothing but entry `ch` of the cell's handler table and the place of the moving slot differs. -/
def OnlyHandler (s u : State) (c ch : Nat) : Prop := OnlyRegisters (s.setCell c ((s.cell c).setHandler ch ((u.cell c).handler ch))) u

/-- Of the context records only that of `r`, and of it only the ages of pairs and the marks of aged pairs (R177), and CMASK of virtual PE `own`, differ. -/
def OnlyAges (s u : State) (r : Nat) (x : Context) (own : Option Nat) : Prop :=
  (∀ r', r' ≠ r → u.ctx r' = s.ctx r') ∧ ∃ y, u.ctx r = some y ∧ y = { x with vpes := y.vpes } ∧ ∀ v,
    y.vpe v = { x.vpe v with ages := (y.vpe v).ages, promoted := (y.vpe v).promoted, cmask := if own = some v then (y.vpe v).cmask else (x.vpe v).cmask }

/-- Queue register `q` of the moving slot after an instruction, every other one as before. -/
def QueueIs (s u : State) (q : Nat) (r : QReg) : Prop := getQ u q = r ∧ ∀ j, j ≠ q → getQ u j = getQ s j

end Sys2Proof.Machine

/-- R249, R168, R170, R171: SEND, SENDS and SENDE put one message into the send buffer, for the virtual PE the header names or the one its grant was resolved
to, and change no register and no byte. -/
def Sys2Proof.Machine.SendForms : Prop :=
  ∀ s c k r a x i ra vb kinds, Running s c k r a x → sends i = some (ra, vb, kinds) → vb.toNat < 16 → Sendable (s.slot c k) (getX s ra) kinds →
    (bits (getX s ra) 8 3 ≠ 5 → bits (getX s ra) 40 24 < x.fold.v →
      ∃ u, exec i s = .next u ∧ Buffered s u c k a (getX s ra) (bits (getX s ra) 40 24) a.vpe (getV s vb.toNat)
          [(s.devId.toNat, r, bits (getX s ra) 40 24, none)]
        ∧ SameRegisters s u ∧ SameMemory s u ∧ getPc u = pcAfter s 4) ∧
    (∀ dev ctx vpe, bits (getX s ra) 8 3 = 5 → bits (getX s ra) 48 16 = 0 → x.grants.find (bits (getX s ra) 40 8) = some (dev, ctx, vpe) →
      ∃ u, exec i s = .next u ∧ Buffered s u c k a (getX s ra) vpe 0 (getV s vb.toNat) [(dev, ctx, vpe, none)]
        ∧ SameRegisters s u ∧ SameMemory s u ∧ getPc u = pcAfter s 4)

/-- R250: SENDM puts one message with one receiver for each cell of the rank in its mask, each the virtual PE c_k + ordinal x P of the context. -/
def Sys2Proof.Machine.MulticastSend : Prop :=
  ∀ s c k r a x vd ra rb, Running s c k r a x → vd.toNat < 16 → Sendable (s.slot c k) (getX s rb) [0] →
    getX s ra ≠ 0 → bits (getX s ra) 8 56 = 0 → bits (getX s rb) 46 18 = 0 →
    (∀ j ∈ multicastCells (getX s ra), 8 * rankOfCell c + j ∈ x.cells ∧
      x.cells.idxOf (8 * rankOfCell c + j) + bits (getX s rb) 40 6 * x.fold.p < x.fold.v) →
    ∃ u, exec (.sendm vd ra rb) s = .next u ∧ Buffered s u c k a (getX s rb) (bits (getX s rb) 40 24) a.vpe (getV s vd.toNat)
        ((multicastCells (getX s ra)).map fun j => (s.devId.toNat, r,
          x.cells.idxOf (8 * rankOfCell c + j) + bits (getX s rb) 40 6 * x.fold.p, some (j, bits (getX s rb) 40 6)))
      ∧ SameRegisters s u ∧ SameMemory s u ∧ getPc u = pcAfter s 4

/-- R168, R170, R249: a send that finds the 16 buffer places taken raises 0x09; one with LEN above 8 or a kind its form does not accept, 0x02; one whose DEST
is not below V, 0x10; none has another effect. -/
def Sys2Proof.Machine.SendChecks : Prop :=
  ∀ s c k r a x i ra vb kinds, Running s c k r a x → s.provisional = false → sends i = some (ra, vb, kinds) →
    let h := getX s ra
    let full := 16 ≤ (s.slot c k).sends.length
    (full → exec i s = .next (abortActivation s c k 9 9 0 0)) ∧
    (¬full → (8 < bits h 4 4 ∨ bits h 8 3 ∉ kinds ∨ (bits h 8 3 = 1 ∧ bits h 4 4 ≠ 0)) → exec i s = .next (abortActivation s c k 2 2 0 0)) ∧
    (Sendable (s.slot c k) h kinds → bits h 8 3 ≠ 5 → x.fold.v ≤ bits h 40 24 → exec i s = .next (abortActivation s c k 16 16 0 0))

/-- R251, R252: MSGLD reads the header (0), a payload word (1 to LEN) or the arrival word (15) of the triggering message. -/
def Sys2Proof.Machine.MessageLoad : Prop :=
  ∀ s c k r a x rd ra, Running s c k r a x →
    let i := (getX s ra).toNat
    (i = 0 → ∃ u, exec (.msgld rd ra) s = .next u ∧ WritesOnly s u 4 rd a.msg.hdr false) ∧
    (1 ≤ i → i ≤ bits a.msg.hdr 4 4 → i ≠ 15 → ∃ u, exec (.msgld rd ra) s = .next u ∧ WritesOnly s u 4 rd (a.msg.pay.getD (i - 1) 0) false) ∧
    (i = 15 →
      ∃ u, exec (.msgld rd ra) s = .next u ∧ WritesOnly s u 4 rd ((a.msg.aflg ||| (if a.stolen then 4#5 else 0#5)).setWidth 64) false) ∧
    (bits a.msg.hdr 4 4 < i → i ≠ 15 → s.provisional = false → exec (.msgld rd ra) s = .next (abortActivation s c k 3 3 0 0))

/-- R253 to R256: BIND and SBIND write one entry of the cell's handler table, UNBIND clears its BND and SBD, and CHMASK and CHUNMASK change CMASK of the own virtual
PE and never AMASK; nothing else differs but the ages of pairs that are no longer runnable (R177). In a stolen activation each raises 0x02. -/
def Sys2Proof.Machine.BindingForms : Prop :=
  ∀ s c k r a x ra rb, Running s c k r a x →
    let w := getX s ra
    let st := getX s rb
    let ch := bits w 0 5
    (a.stolen = false → ∀ nent, bits w 5 7 = 0 → bits w 14 2 ≠ 3 → handlerEntry s x (bits w 16 16) = some nent →
      (∃ u, exec (.bind ra) s = .next u ∧ Bound ((u.cell c).handler ch) w nent ∧ ((u.cell c).handler ch).sbd = false ∧ OtherHandlers s u c ch
        ∧ SameRegisters s u ∧ SameMemory s u ∧ getPc u = pcAfter s 4 ∧ OnlyHandler s u c ch) ∧
      (bits st 11 53 = 0 → bits st 3 4 + bits st 7 4 ≤ 15 →
        ∃ u, exec (.sbind ra rb) s = .next u ∧ Bound ((u.cell c).handler ch) w nent ∧ ((u.cell c).handler ch).sbd = true
          ∧ ((u.cell c).handler ch).sq.toNat = bits st 0 3 ∧ ((u.cell c).handler ch).srb.toNat = bits st 3 4
          ∧ ((u.cell c).handler ch).slen.toNat = bits st 7 4 ∧ OtherHandlers s u c ch ∧ SameRegisters s u ∧ SameMemory s u
          ∧ getPc u = pcAfter s 4 ∧ OnlyHandler s u c ch)) ∧
    (a.stolen = false → bits w 5 59 = 0 →
      ∃ u, exec (.unbind ra) s = .next u ∧ (u.cell c).handler ch = { (s.cell c).handler ch with bnd := false, sbd := false }
        ∧ OtherHandlers s u c ch ∧ SameRegisters s u ∧ SameMemory s u ∧ getPc u = pcAfter s 4
        ∧ OnlyHandler { s with ctxs := u.ctxs } u c ch ∧ OnlyAges s u r x none) ∧
    (a.stolen = false → bits w 32 32 = 0 →
      (∃ u y, exec (.chmask ra) s = .next u ∧ u.ctx r = some y ∧ (y.vpe a.vpe).cmask = (x.vpe a.vpe).cmask ||| w.setWidth 32
        ∧ (y.vpe a.vpe).amask = (x.vpe a.vpe).amask ∧ SameRegisters s u ∧ SameMemory s u ∧ getPc u = pcAfter s 4
        ∧ OnlyRegisters { s with ctxs := u.ctxs } u ∧ OnlyAges s u r x (some a.vpe)) ∧
      (∃ u y, exec (.chunmask ra) s = .next u ∧ u.ctx r = some y ∧ (y.vpe a.vpe).cmask = (x.vpe a.vpe).cmask &&& ~~~(w.setWidth 32)
        ∧ (y.vpe a.vpe).amask = (x.vpe a.vpe).amask ∧ SameRegisters s u ∧ SameMemory s u ∧ getPc u = pcAfter s 4
        ∧ OnlyRegisters { s with ctxs := u.ctxs } u ∧ OnlyAges s u r x (some a.vpe))) ∧
    (a.stolen = true → s.provisional = false →
      ∀ i ∈ [Instr.bind ra, Instr.sbind ra rb, Instr.unbind ra, Instr.chmask ra, Instr.chunmask ra], exec i s = .next (abortActivation s c k 2 2 0 0))

/-- R257, R124: QREL empties a queue register into plain mode; QPUSH appends an entry to a plain register that holds fewer than four; QPOP takes the
head entry, whose low 64 bits go into rd; QSTAT reports and changes nothing; QSTREAM reads its 64-byte pattern and puts the register in stream mode, once no
LAYW of its slot to the layout is on its way (R73) and the layout's descriptor stands in the cell's cache (R16). -/
def Sys2Proof.Machine.QueueFormsResults : Prop :=
  ∀ s c k, s.cur = .slot c k → k < 4 →
    (∀ q : BitVec 5, q.toNat < 8 →
      (∃ u, exec (.qrel q) s = .next u ∧ QueueIs s u q.toNat QReg.empty ∧ SameRegisters s u ∧ SameMemory s u ∧ getPc u = pcAfter s 4
        ∧ OnlyOfSlot s u fun l o => { o with q := l.q, pc := l.pc }) ∧
      (∀ ra, (getQ s q.toNat).mode = .plain → (getQ s q.toNat).ents.length < 4 →
        ∃ u, exec (.qpush q ra) s = .next u ∧ SameRegisters s u ∧ SameMemory s u ∧ getPc u = pcAfter s 4
          ∧ QueueIs s u q.toNat { getQ s q.toNat with ents := (getQ s q.toNat).ents ++ [QEntry.of ((getX s ra).setWidth 512)] }
          ∧ OnlyOfSlot s u fun l o => { o with q := l.q, pc := l.pc }) ∧
      (∀ rd e rest, (getQ s q.toNat).ents = e :: rest → ((getQ s q.toNat).mode = .stream → e.bad = 0) →
        ∃ u, exec (.qpop rd q) s = .next u ∧ Writes s u rd (e.val.extractLsb' 0 64) false ∧ SameMemory s u ∧ getPc u = pcAfter s 4
          ∧ (getQ u q.toNat).ents = rest ∧ (getQ u q.toNat).mode = (getQ s q.toNat).mode ∧ (∀ j, j ≠ q.toNat → getQ u j = getQ s j)
          ∧ OnlyOfSlot s u fun l o => { o with x := l.x, taint := l.taint, q := l.q, pc := l.pc }) ∧
      (∀ rd, ∃ u v, exec (.qstat rd q) s = .next u ∧ WritesOnly s u 4 rd v false
          ∧ bits v 0 3 = (getQ s q.toNat).ents.length % 8 ∧ (bits v 4 2 = 0 ↔ (getQ s q.toNat).mode = .plain)
          ∧ (bits v 4 2 = 2 ↔ (getQ s q.toNat).mode = .stream)
          ∧ bits v 7 1 = (match (getQ s q.toNat).ents with | e :: _ => if e.bad = 0 then 0 else 1 | [] => 0)
          ∧ bits v 32 32 = (if (getQ s q.toNat).mode = .stream then
              min (patCount (getQ s q.toNat).pat - (getQ s q.toNat).popped) 0xFFFFFFFF else 0)) ∧
      (∀ ra t b leaves, checkRef s (viewOf s s.cur) (getX s ra) 64 1 0 = .ok t → t.off % 8 = 0 → windowRule t 64 false = true →
        Delivers s t 64 0 false b leaves → patternLegal (used (reached s t) leaves false) (viewOf s s.cur) (getQ s q.toNat) (BitVec.ofNat 512 (numOfBytes b)) = true →
        layoutPosted s (bits (patWord (BitVec.ofNat 512 (numOfBytes b)) 7) 0 6) = false →
        layoutReady s (viewOf s s.cur) (layoutEntry s (viewOf s s.cur) (bits (patWord (BitVec.ofNat 512 (numOfBytes b)) 7) 0 6)) = .ok () →
        ∃ u, exec (.qstream q ra) s = .next u ∧ (getQ u q.toNat).mode = .stream ∧ (getQ u q.toNat).ents = [] ∧ (getQ u q.toNat).popped = 0
          ∧ (getQ u q.toNat).pat = BitVec.ofNat 512 (numOfBytes b)
          ∧ (getQ u q.toNat).lay = layoutEntry s (viewOf s s.cur) (bits (patWord (BitVec.ofNat 512 (numOfBytes b)) 7) 0 6) ∧ SameRegisters s u ∧ getPc u = pcAfter s 4
          ∧ ∀ a, a ∉ leaves → readByte u.mem a = readByte s.mem a))

/-- R127, R257: a pop of an empty register waits, one past the end of a stream's pattern raises 0x14, and a push waits while four entries are held and raises 0x02
outside plain mode. -/
def Sys2Proof.Machine.QueueLimits : Prop :=
  ∀ s c k, s.cur = .slot c k → k < 4 → s.provisional = false → ∀ rd ra (q : BitVec 5),
    let r := getQ s q.toNat
    (r.ents = [] → (r.mode = .stream → r.popped ≠ patCount r.pat) → exec (.qpop rd q) s = .next (waitFor s .queue)) ∧
    (r.ents = [] → r.mode = .stream → r.popped = patCount r.pat →
      exec (.qpop rd q) s = .next (abortActivation s c k 20 (fcauseOf 20 0 5 0) 0 (word r.popped))) ∧
    (r.mode = .plain → 4 ≤ r.ents.length → exec (.qpush q ra) s = .next (waitFor s .queue)) ∧
    (r.mode ≠ .plain → exec (.qpush q ra) s = .next (abortActivation s c k 2 2 0 0))

namespace Sys2Proof.Machine

/-! ### CSRs, service requests and die firmware cores -/

/-- The CSR forms that write: destination, source, CSR number, and the value written from the old value and x[ra] (R221). -/
def csrWrites (old x : Word) : Instr → Option (BitVec 5 × BitVec 5 × BitVec 12 × Word)
  | .csrw rd ra n => some (rd, ra, n, x)
  | .csrs rd ra n => some (rd, ra, n, old ||| x)
  | .csrc rd ra n => some (rd, ra, n, old &&& ~~~x)
  | _ => none

/-- What a cell's CSR reads as after the value `v` has been applied to it field by field (R3, Tables 9.12 to 9.14): RW fields take it, LIVE of MIS is
write-one-to-clear, RSV fields read as zero, and a CSR of RO fields keeps its value. -/
def cellCsrAfter (n : Nat) (old v : Word) : Word :=
  if n = 0x100 ∨ n = 0x101 then v &&& 0x1F
  else if n = 0x102 ∨ n = 0x122 then v &&& 0xFF
  else if n = 0x103 ∨ n = 0x104 then v
  else if n = 0x110 then (if v.getLsbD 63 then old &&& 0x7FFFFFFFFFFFFFFF else old)
  else if 0x118 ≤ n ∧ n ≤ 0x11F then v &&& 0xFFFFFFFF
  else if n = 0x120 then v &&& 0x3F
  else if n = 0x121 ∨ n = 0x123 then v &&& 3
  else old

/-- What a die firmware core's CSR reads as after a write (Table 9.15): DEVENT is write-one-to-clear. -/
def dfcCsrAfter (n : Nat) (old v : Word) : Word :=
  if n = 0x800 then v &&& 3
  else if n = 0x801 ∨ n = 0x805 then v
  else if n = 0x803 then v &&& 0xFFFFFFFFFFFFFFFC
  else if n = 0x804 then old &&& ~~~v
  else old

/-- The numbers of the cell CSRs (Table 9.11). -/
def cellCsrs : List Nat :=
  [0x100, 0x101, 0x102, 0x103, 0x104, 0x110, 0x111, 0x112, 0x118, 0x119, 0x11A, 0x11B, 0x11C, 0x11D, 0x11E, 0x11F, 0x120, 0x121, 0x122, 0x123, 0x130,
    0x131, 0x140, 0x141, 0x142, 0x143, 0x150, 0x151, 0x152, 0x160, 0x161, 0x162, 0xC00]

/-- The numbers of a die firmware core's CSRs (R229, R230). -/
def dfcCsrs : List Nat := [0x800, 0x801, 0x802, 0x803, 0x804, 0x805, 0xC00]

end Sys2Proof.Machine

/-- R221, R223: CSRR reads a CSR that the map lists for its agent into rd and changes nothing else. -/
def Sys2Proof.Machine.CsrRead : Prop :=
  ∀ s rd (n : BitVec 12), OnCore s →
    ((∃ c k, s.cur = .slot c k ∧ n.toNat ∈ cellCsrs) ∨ (∃ d, s.cur = .dfc d ∧ n.toNat ∈ dfcCsrs)) →
    ∃ old u, readCsr s n.toNat = some old ∧ exec (.csrr rd n) s = .next u ∧ WritesOnly s u 4 rd old false

/-- R221 to R226, R3: CSRW, CSRS and CSRC put the old value into rd and apply the written value to the fields of the CSR; FLG and OVFC through the activation's
shadow; no other CSR, no byte of memory and nothing else of the agent differs, but that MIS stands with the virtual PE or with the stolen activation (R182). -/
def Sys2Proof.Machine.CsrWrites : Prop :=
  ∀ s i rd ra (n : BitVec 12) old v, readCsr s n.toNat = some old → csrWrites old (getX s ra) i = some (rd, ra, n, v) →
    (∀ c k, s.cur = .slot c k → k < 4 →
      ∃ u, exec i s = .next u ∧ Writes s u rd old false ∧ readCsr u n.toNat = some (cellCsrAfter n.toNat old v) ∧ getPc u = pcAfter s 4
        ∧ SameMemory s u ∧ (∀ m, m ≠ n.toNat → readCsr u m = readCsr s m)
        ∧ OnlyOfSlot { s with ctxs := u.ctxs } u (fun l o => { o with x := l.x, taint := l.taint, csr := l.csr, act := l.act, shadow := l.shadow, pc := l.pc })
        ∧ (n ≠ 0x110 → u.ctxs = s.ctxs ∧ (u.slot c k).act = (s.slot c k).act)) ∧
    (∀ d, s.cur = .dfc d →
      ∃ u, exec i s = .next u ∧ Writes s u rd old false ∧ readCsr u n.toNat = some (dfcCsrAfter n.toNat old v) ∧ getPc u = pcAfter s 4
        ∧ SameMemory s u ∧ (∀ m, m ≠ n.toNat → readCsr u m = readCsr s m) ∧ u = s.setDfc d (u.dfc d))

/-- R221, R223, R230: a CSR number that the map does not list for the executing agent raises 0x01. -/
def Sys2Proof.Machine.CsrUnlisted : Prop :=
  ∀ s c k rd ra (n : BitVec 12), s.cur = .slot c k → k < 4 → s.provisional = false → n.toNat ∉ cellCsrs →
    ∀ i ∈ [Instr.csrr rd n, Instr.csrw rd ra n, Instr.csrs rd ra n, Instr.csrc rd ra n], exec i s = .next (abortActivation s c k 1 1 0 0)

/-- R227: ECALL with a code below 0x8000 posts one service record and waits; once the record has been handed over it puts 0 into rd and completes. -/
def Sys2Proof.Machine.ServiceRequest : Prop :=
  ∀ s c k r a x rd ra rb, Running s c k r a x → (getX s ra).toNat < 0x8000 →
    (s.answered = true → ∃ u, exec (.ecall rd ra rb) s = .next u ∧ WritesOnly s u 4 rd 0 false) ∧
    (s.answered = false → writeFenced s true = false → (s.cell c).records.length < 8 →
      ∃ u w, exec (.ecall rd ra rb) s = .next u ∧ (u.cell c).records = (s.cell c).records ++ [w]
        ∧ w = [word (k + 4 * (a.serial.toNat % 2 ^ 36)), word r, word a.vpe, msgId a, word (recordAt s (s.slot c k).cap (s.slot c k).pc), getX s ra, getX s rb, s.time]
        ∧ (u.slot c k).pend = some (.ecall rd ra rb) ∧ SameRegisters s u ∧ SameMemory s u ∧ getPc u = getPc s) ∧
    (s.answered = false → writeFenced s true = false → 8 ≤ (s.cell c).records.length →
      exec (.ecall rd ra rb) s = .next (waitFor s .record))

/-- R228: EBRK does nothing while debug stops are not enabled; with stops enabled it aborts a replayable activation in precise mode with 0x0E and FOREF k, and otherwise
goes on, having asked for a stop of its cell that will name its activation (R407, R409). -/
def Sys2Proof.Machine.Breakpoint : Prop :=
  ∀ s c k r a x (n : BitVec 15), Running s c k r a x →
    (a.dbg.getLsbD 0 = false → ∃ u, exec (.ebrk n) s = .next u ∧ SameRegisters s u ∧ SameMemory s u ∧ getPc u = pcAfter s 4 ∧ OnlyRegisters s u) ∧
    (a.dbg.getLsbD 0 = true → a.dbg.getLsbD 1 = true → a.h.rep = true → s.provisional = false →
      ∃ u, exec (.ebrk n) s = .next u ∧ (u.slot c k).status = .free ∧ (u.slot c k).foref = n.setWidth 64 ∧ bits (u.slot c k).fcause 0 8 = 14) ∧
    (a.dbg.getLsbD 0 = true → (a.dbg.getLsbD 1 = false ∨ a.h.rep = false) →
      ∃ u, exec (.ebrk n) s = .next u ∧ SameRegisters s u ∧ SameMemory s u ∧ getPc u = pcAfter s 4
        ∧ (u.slot c k).act = some a
        ∧ ((s.cell c).stop = .no → (u.cell c).stop = .stopping (3 + 4 * n.toNat) ∧ (u.cell c).stopBy = activationName s c k))

/-- R229: a die firmware core takes a trap by saving the address in DEPC, writing DCAUSE, PIE := IE, IE := 0, and going on at DTVEC; nothing else differs. -/
def Sys2Proof.Machine.FirmwareTrapEntry : Prop :=
  ∀ s d evt cause depc, cause < 256 →
    let u := dfcTrap s d evt cause depc
    let x := s.dfc d
    let y := u.dfc d
    y.depc = depc ∧ y.evt = evt ∧ y.cause.toNat = cause ∧ y.pie = x.ie ∧ y.ie = false ∧ y.pc = x.dtvec ∧ y.x = x.x ∧ y.dtvec = x.dtvec
      ∧ y.devent = x.devent ∧ y.dscratch = x.dscratch ∧ (∀ e, e ≠ d → u.dfc e = s.dfc e) ∧ SameMemory s u ∧ u = s.setDfc d y

/-- R230: SRET sets pc := DEPC and IE := PIE; WFE goes on at once when an event is pending and stalls while none is; the event that ends its stall lets it go on at the next
instruction, or, when IE is 1, traps there; one word stands for each, so that their register fields are zero; a cell raises 0x01 for either. -/
def Obligations.FirmwareForms : Prop :=
  (∀ s d, s.cur = .dfc d →
    (∃ u, exec .sret s = .next u ∧ (u.dfc d).pc = (s.dfc d).depc ∧ (u.dfc d).ie = (s.dfc d).pie ∧ (u.dfc d).pie = (s.dfc d).pie
      ∧ SameRegisters s u ∧ SameMemory s u) ∧
    ((s.dfc d).devent ≠ 0 → ∃ u, exec .wfe s = .next u ∧ (u.dfc d).pc = (s.dfc d).pc + 4 ∧ (u.dfc d).wfe = false ∧ SameRegisters s u ∧ SameMemory s u) ∧
    ((s.dfc d).devent = 0 → ∃ u, exec .wfe s = .next u ∧ (u.dfc d).pc = (s.dfc d).pc ∧ (u.dfc d).wfe = true ∧ SameRegisters s u ∧ SameMemory s u)) ∧
  (∀ s d, s.inp.die = d → d < 6 → s.inp.n < 8 → (s.dfc d).alive = true → (s.dfc d).pend = none → (s.dfc d).wfe = true →
    ∃ u, exec .dfcEvent s = .next u ∧ (u.dfc d).wfe = false ∧ (u.dfc d).devent ≠ 0 ∧
      if (s.dfc d).ie then (u.dfc d).pc = (s.dfc d).dtvec ∧ (u.dfc d).depc = (s.dfc d).pc + 4 ∧ (u.dfc d).ie = false
      else (u.dfc d).pc = (s.dfc d).pc + 4) ∧
  (∀ s d r, s.sched = .agent (.dfc d) :: r → (s.dfc d).alive = true → (s.dfc d).pend = none → (s.dfc d).ie = true → (s.dfc d).devent ≠ 0 →
    ∃ u, step s = .next u ∧ (u.dfc d).pc = (s.dfc d).dtvec ∧ (u.dfc d).ie = false ∧ (u.dfc d).pie = true
      ∧ (u.dfc d).depc = (if (s.dfc d).wfe then (s.dfc d).pc + 4 else (s.dfc d).pc)) ∧
  (∀ w < 2 ^ 32, (decodeTableWord 32 w = some .sret ↔ w = 0x010000C3) ∧ (decodeTableWord 32 w = some .wfe ↔ w = 0x018000C3)) ∧
  (∀ s c k, s.cur = .slot c k → k < 4 → s.provisional = false →
    exec .sret s = .next (abortActivation s c k 1 1 0 0) ∧ exec .wfe s = .next (abortActivation s c k 1 1 0 0))

/-- R48, Table 2.4: CSRs 0x160, 0x161 and 0x162 read as the slot's counts of posted stores of class V, M and N, and a write to one changes no count. -/
def Obligations.PostedCounterRegisters : Prop :=
  ∀ s c k rd ra, s.cur = .slot c k → k < 4 →
    (∃ u, exec (.csrr rd 0x160) s = .next u ∧ WritesOnly s u 4 rd (word (s.slot c k).pcv) false) ∧
    (∃ u, exec (.csrr rd 0x161) s = .next u ∧ WritesOnly s u 4 rd (word (s.slot c k).pcm) false) ∧
    (∃ u, exec (.csrr rd 0x162) s = .next u ∧ WritesOnly s u 4 rd (word (s.slot c k).pcn) false) ∧
    (∀ n : BitVec 12, n = 0x160 ∨ n = 0x161 ∨ n = 0x162 → ∀ i ∈ [Instr.csrw rd ra n, Instr.csrs rd ra n, Instr.csrc rd ra n],
      ∃ u, exec i s = .next u ∧ (u.slot c k).pcv = (s.slot c k).pcv ∧ (u.slot c k).pcm = (s.slot c k).pcm ∧ (u.slot c k).pcn = (s.slot c k).pcn)

/-- R195: NOP changes nothing but the program counter, whatever its register fields hold. -/
def Sys2Proof.Machine.NopDoesNothing : Prop :=
  ∀ s rd ra rb, OnCore s → ∃ u, exec (.nop rd ra rb) s = .next u ∧ SameRegisters s u ∧ SameMemory s u ∧ getPc u = pcAfter s 4 ∧ OnlyRegisters s u

namespace Sys2Proof.Machine

/-- The native byte at which record `n` of a capsule is entered, or the next record that has code (R217, R327). -/
def EntersAt (x : Capsule) (n p : Nat) : Prop := ∃ e, x.body.pos.find? (fun e => n ≤ e.1) = some e ∧ p = e.2.1

end Sys2Proof.Machine

/-- R216, R217: CALLX reads its linkage entry with right X; a bound entry takes it into the named function of a loaded capsule, an unbound one into the resolver stub of
its own with the entry's oref in x31; it leaves a return token in rd. -/
def Sys2Proof.Machine.CallThroughLinkage : Prop :=
  ∀ s c k r ctx rd ra (imm : BitVec 14) t b leaves x n p, s.cur = .slot c k → k < 4 → (s.cell c).ctx = some r → s.ctx r = some ctx →
    let o := word (bits (getX s ra) 52 12 * 2 ^ 52 + ((Int.ofNat (bits (getX s ra) 0 52) + 8 * imm.toInt) % 2 ^ 52).toNat)
    let e := word (numOfBytes b)
    let bound := e.getLsbD 63
    let cap := if bound then bits e 40 23 else (s.slot c k).cap
    o.toNat % 8 = 0 → checkRef s (viewOf s s.cur) o 8 4 0 = .ok t → windowRule t 8 false = true → Delivers s t 8 0 true b leaves →
    ctx.caps.has cap = true → s.caps.find cap = some x → x.state = 1 →
    (if bound then x.exports[bits e 16 24]? else x.stubs[bits e 0 16]?) = some n → EntersAt x n p →
    (bound = false → registerMatch s 0 31 = false) →
    ∃ u, exec (.callx rd ra imm) s = .next u ∧ (u.slot c k).cap = cap ∧ getPc u = p
      ∧ (∀ q, getX u q = if q = rd ∧ q ≠ 0 then linkOf s 4 else if bound = false ∧ q = 31 then o else getX s q)
      ∧ OnlyRegistersAndPlace (used (reached s t) leaves false) u ∧ ∀ a, a ∉ leaves → readByte u.mem a = readByte s.mem a

/-- R330, R217, R215, Table 16.1: CALLX, JALR and JR into a capsule whose body is VOID or being rebuilt park the slot with 0x12 at the instruction, and the first such park begins the
rebuild, unless the last rebuild found no space (R332). -/
def Sys2Proof.Machine.VoidBodyParks : Prop :=
  ∀ s c k r ctx x cap, s.cur = .slot c k → k < 4 → s.provisional = false → (s.cell c).ctx = some r → s.ctx r = some ctx →
    ctx.caps.has cap = true → s.caps.find cap = some x → (x.state = 2 ∨ x.state = 3) →
    let parks (i : Instr) : Prop :=
      ∃ u y, exec i s = .next u ∧ (u.slot c k).status = .parked 18 false none ∧ (u.slot c k).pc = (s.slot c k).pc ∧ (u.slot c k).x = (s.slot c k).x
        ∧ bits (u.slot c k).fcause 0 8 = 18 ∧ u.caps.find cap = some y ∧ y.state = if x.stuck then x.state else 3
    (∀ i rd ra len, jumpRegister i = some (rd, ra, 0, len) → bits (getX s ra) 63 1 = 1 → bits (getX s ra) 32 8 = 0 → bits (getX s ra) 40 23 = cap →
      (∃ w, x.list[bits (getX s ra) 0 32]? = some w ∧ bits w 0 10 ∈ [0x31, 0x32, 0x33]) → isWide false x.list (bits (getX s ra) 0 32) = false → parks i) ∧
    (∀ rd ra (imm : BitVec 14) t b leaves,
      let o := word (bits (getX s ra) 52 12 * 2 ^ 52 + ((Int.ofNat (bits (getX s ra) 0 52) + 8 * imm.toInt) % 2 ^ 52).toNat)
      let e := word (numOfBytes b)
      o.toNat % 8 = 0 → checkRef s (viewOf s s.cur) o 8 4 0 = .ok t → windowRule t 8 false = true → Delivers s t 8 0 true b leaves →
      cap = (if e.getLsbD 63 then bits e 40 23 else (s.slot c k).cap) →
      (if e.getLsbD 63 then x.exports[bits e 16 24]? else x.stubs[bits e 0 16]?) ≠ none → parks (.callx rd ra imm))

namespace Sys2Proof.Machine

/-! ### Vector instructions -/

/-- A queue destination is one of the eight, plain and has room for one entry more (R274). -/
def RoomFor (s : State) (dst : Option (BitVec 5)) : Prop :=
  ∀ d, dst = some d → 16 ≤ d.toNat → d.toNat < 24 ∧ (getQ s (d.toNat - 16)).mode = .plain ∧ (getQ s (d.toNat - 16)).ents.length < 4

/-- The vector operands of an instruction (R273, R274): the values of its sources in order, and the state after they are read. Registers are read in place;
a queue register among the sources is popped once, in stream mode only where its head entry can be delivered, and in bound mode only by a stream's sequence. -/
inductive Operands (s : State) (dst : Option (BitVec 5)) (src : List (BitVec 5)) : List Vec → State → Prop
  | registers (low : ∀ r ∈ src, r.toNat < 16) (room : RoomFor s dst) : Operands s dst src (src.map fun r => getV s r.toNat) s
  | queue (q : Nat) (e : QEntry) (rest : List QEntry) (uses : ∃ r ∈ src, 16 ≤ r.toNat) (one : ∀ r ∈ src, 16 ≤ r.toNat → r.toNat - 16 = q)
      (held : (getQ s q).ents = e :: rest) (good : (getQ s q).mode = .stream → e.bad = 0) (bound : (getQ s q).mode = .bound → onStream s = true)
      (plain : ∀ d, dst = some d → 16 ≤ d.toNat → d.toNat < 24 ∧ (getQ s (d.toNat - 16)).mode = .plain) :
      Operands s dst src (src.map fun r => if r.toNat < 16 then getV s r.toNat else e.val)
        (setQ s q { getQ s q with ents := rest, popped := (getQ s q).popped + (if (getQ s q).mode = .plain then 0 else 1) })

/-- The vector destination `vd` takes `x`: register `vd`, or one entry more in its queue; no other vector register and no other queue differs. -/
def TakesVector (s u : State) (vd : BitVec 5) (x : Vec) : Prop :=
  (vd.toNat < 16 → getV u vd.toNat = x ∧ ∀ q, getQ u q = getQ s q) ∧
  (16 ≤ vd.toNat → (getQ u (vd.toNat - 16)).ents = (getQ s (vd.toNat - 16)).ents ++ [QEntry.of x] ∧ ∀ q, q ≠ vd.toNat - 16 → getQ u q = getQ s q) ∧
  ∀ r, r ≠ vd.toNat → getV u r = getV s r

/-- Element `k` of width `w` is active: below VL, and its bit of the mask register set where there is one (R271, R272). -/
def active (s : State) (m : BitVec 3) (w k : Nat) : Prop := k * w < 32 * s.me.vl ∧ (m = 0 ∨ (getV s m.toNat).getLsbD k = true)

/-- The forms that compute element by element (Tables 12.1 to 12.3, 12.5): destination, sources, mask, element width, and an element's result with its flags. -/
def lanes : Instr → Option (BitVec 5 × List (BitVec 5) × BitVec 3 × Nat × (List Nat → Nat × BitVec 6))
  | .vadd vd va vb m => some (vd, [va, vb], m, 32, lane2 fun a b => toF32 (fadd (f32 a) (f32 b)))
  | .vsub vd va vb m => some (vd, [va, vb], m, 32, lane2 fun a b => toF32 (fadd (f32 a) (fneg (f32 b))))
  | .vmul vd va vb m => some (vd, [va, vb], m, 32, lane2 fun a b => toF32 (fmul (f32 a) (f32 b)))
  | .vfma vd va vb m => some (vd, [va, vb, vd], m, 32, fun l => lane2 (fun a b => toF32 (ffma (f32 a) (f32 b) (f32 (elem (l.getD 2 0))))) l)
  | .vfms vd va vb m => some (vd, [va, vb, vd], m, 32, fun l => lane2 (fun a b => toF32 (ffma (fneg (f32 a)) (f32 b) (f32 (elem (l.getD 2 0))))) l)
  | .vmax vd va vb m => some (vd, [va, vb], m, 32, lane2 (vpick true))
  | .vmin vd va vb m => some (vd, [va, vb], m, 32, lane2 (vpick false))
  | .vabs vd va m => some (vd, [va], m, 32, lane1 (vsigned (· &&& 0x7FFFFFFF)))
  | .vneg vd va m => some (vd, [va], m, 32, lane1 (vsigned (· ^^^ 0x80000000)))
  | .vrcp vd va m => some (vd, [va], m, 32, lane1 vrcpLane)
  | .vrsq vd va m => some (vd, [va], m, 32, lane1 vrsqLane)
  | .vexp vd va m => some (vd, [va], m, 32, lane1 vexpLane)
  | .vlog vd va m => some (vd, [va], m, 32, lane1 vlogLane)
  | .vsigm vd va m => some (vd, [va], m, 32, lane1 vsigmLane)
  | .vtanh vd va m => some (vd, [va], m, 32, lane1 vtanhLane)
  | .viadd vd va vb m e => some (vd, [va, vb], m, 8 * 2 ^ e.toNat, fun l => ((l.getD 0 0 + l.getD 1 0) % 2 ^ (8 * 2 ^ e.toNat), 0))
  | .visub vd va vb m e => some (vd, [va, vb], m, 8 * 2 ^ e.toNat,
      fun l => ((l.getD 0 0 + 2 ^ (8 * 2 ^ e.toNat) - l.getD 1 0) % 2 ^ (8 * 2 ^ e.toNat), 0))
  | .vimul vd va vb m e => some (vd, [va, vb], m, 8 * 2 ^ e.toNat, fun l => (l.getD 0 0 * l.getD 1 0 % 2 ^ (8 * 2 ^ e.toNat), 0))
  | .viand vd va vb m e => some (vd, [va, vb], m, 8 * 2 ^ e.toNat, fun l => ((l.getD 0 0 &&& l.getD 1 0) % 2 ^ (8 * 2 ^ e.toNat), 0))
  | .vior vd va vb m e => some (vd, [va, vb], m, 8 * 2 ^ e.toNat, fun l => ((l.getD 0 0 ||| l.getD 1 0) % 2 ^ (8 * 2 ^ e.toNat), 0))
  | .vixor vd va vb m e => some (vd, [va, vb], m, 8 * 2 ^ e.toNat, fun l => ((l.getD 0 0 ^^^ l.getD 1 0) % 2 ^ (8 * 2 ^ e.toNat), 0))
  | .visll vd va vb m e => some (vd, [va, vb], m, 8 * 2 ^ e.toNat,
      fun l => (l.getD 0 0 * 2 ^ (l.getD 1 0 % (8 * 2 ^ e.toNat)) % 2 ^ (8 * 2 ^ e.toNat), 0))
  | .visrl vd va vb m e => some (vd, [va, vb], m, 8 * 2 ^ e.toNat,
      fun l => (l.getD 0 0 / 2 ^ (l.getD 1 0 % (8 * 2 ^ e.toNat)) % 2 ^ (8 * 2 ^ e.toNat), 0))
  | .visra vd va vb m e => some (vd, [va, vb], m, 8 * 2 ^ e.toNat, fun l =>
      ((BitVec.ofNat (8 * 2 ^ e.toNat) (l.getD 0 0)).sshiftRight (l.getD 1 0 % (8 * 2 ^ e.toNat)) |>.toNat, 0))
  | _ => none

/-- The comparisons of R280: destination, sources, mask, whether the form is ordered, and the comparison. -/
def comparisons : Instr → Option (BitVec 5 × BitVec 5 × BitVec 5 × BitVec 3 × Bool × (FVal → FVal → Bool))
  | .vcmpEq vd va vb m => some (vd, va, vb, m, false, feq)
  | .vcmpNe vd va vb m => some (vd, va, vb, m, false, fun a b => !feq a b)
  | .vcmpLt vd va vb m => some (vd, va, vb, m, true, flt)
  | .vcmpLe vd va vb m => some (vd, va, vb, m, true, fle)
  | .vcmpGt vd va vb m => some (vd, va, vb, m, true, fun a b => flt b a)
  | .vcmpGe vd va vb m => some (vd, va, vb, m, true, fun a b => fle b a)
  | _ => none

/-- The reductions of R279: destination, source, mask, what an inactive lane enters as, and the operation. -/
def reductions : Instr → Option (BitVec 5 × BitVec 5 × BitVec 3 × Elem × (Elem → Elem → Elem × BitVec 6))
  | .vreda vd va m => some (vd, va, m, 0, fun a b => toF32 (fadd (f32 a) (f32 b)))
  | .vredx vd va m => some (vd, va, m, 0xFF800000, vpick true)
  | _ => none

/-- What a vector instruction leaves alone: scalar registers and memory; and it moves past itself. -/
def VectorFrame (s u : State) : Prop := SameRegisters s u ∧ SameMemory s u ∧ getPc u = pcAfter s 4

/-- What a vector computation leaves alone: everything but vector and queue registers and the flags of its activation's shadow; and it moves past itself. -/
def VectorOnly (s u : State) : Prop :=
  VectorFrame s u ∧ OnlyOfSlot s u fun l o => { o with v := l.v, q := l.q, shadow := l.shadow, pc := l.pc }

/-- The value an inactive element of the destination keeps: the old one in a register, zero in a queue entry (R271). -/
def inactiveValue (s : State) (vd : BitVec 5) (w k : Nat) : Nat := if vd.toNat < 16 then vget (getV s vd.toNat) w k else 0

end Sys2Proof.Machine

/-- R270 to R276, R278: every lane form gives each active element its result and leaves each inactive element of a register as it was, and adds the flags of the
active elements to the activation's shadow. -/
def Obligations.VectorLanes : Prop :=
  ∀ s i vd src m w g vals s', OnCell s → lanes i = some (vd, src, m, w, g) → Operands s (some vd) src vals s' →
    ∃ u x, exec i s = .next u ∧ TakesVector s' u vd x ∧ VectorOnly s u
      ∧ (∀ k < 512 / w, (active s m w k → vget x w k = (g (vals.map fun v => vget v w k)).1 % 2 ^ w)
          ∧ (¬active s m w k → vget x w k = inactiveValue s vd w k))
      ∧ ∀ j < 6, (u.me.shadow.raised.getLsbD j = true ↔ s.me.shadow.raised.getLsbD j = true
          ∨ ∃ k < 512 / w, active s m w k ∧ (g (vals.map fun v => vget v w k)).2.getLsbD j = true)

/-- R279, R280: a comparison writes bit k of its destination for lane k, zero where inactive; a reduction combines the 16 lanes by the fixed tree into lane 0 and
clears the others. -/
def Obligations.VectorComparesAndReduces : Prop :=
  ∀ s i, OnCell s →
    (∀ vd va vb m ordered cmp vals s', comparisons i = some (vd, va, vb, m, ordered, cmp) → Operands s (some vd) [va, vb] vals s' →
      ∃ u x, exec i s = .next u ∧ TakesVector s' u vd x ∧ VectorOnly s u ∧ (∀ k, 16 ≤ k → x.getLsbD k = false)
        ∧ ∀ k < 16, (x.getLsbD k = true ↔ active s m 32 k ∧
            cmp (f32 (elem (vget (vals.getD 0 0) 32 k))) (f32 (elem (vget (vals.getD 1 0) 32 k))) = true)) ∧
    (∀ vd va m unit op vals s', reductions i = some (vd, va, m, unit, op) → Operands s (some vd) [va] vals s' →
      ∃ (u : State) (l : List Elem), exec i s = .next u ∧ l.length = 16
        ∧ (∀ k < 16, (active s m 32 k → l[k]? = some (elem (vget (vals.getD 0 0) 32 k))) ∧ (¬active s m 32 k → l[k]? = some unit))
        ∧ TakesVector s' u vd ((tree op l).1.setWidth 512) ∧ VectorOnly s u)

/-- R277, R280, R281, R272: VCVT, VSEL, VPERM, VBCST, VMVX, VMVS and VSETL. -/
def Sys2Proof.Machine.VectorMoves : Prop :=
  ∀ s, OnCell s →
    (∀ vd va vb k vals s', Operands s (some vd) [va, vb] vals s' →
      ∃ u x, exec (.vsel vd va vb k) s = .next u ∧ TakesVector s' u vd x ∧ VectorOnly s u
        ∧ ∀ j < 16, vget x 32 j = if j < s.me.vl then
            (if (getV s k.toNat).getLsbD j then vget (vals.getD 0 0) 32 j else vget (vals.getD 1 0) 32 j) else inactiveValue s vd 32 j) ∧
    (∀ vd va vb m vals s', Operands s (some vd) [va, vb] vals s' →
      ∃ u x, exec (.vperm vd va vb m) s = .next u ∧ TakesVector s' u vd x ∧ VectorOnly s u
        ∧ ∀ j < 16, (active s m 32 j → vget x 32 j = vget (vals.getD 0 0) 32 (vget (vals.getD 1 0) 32 j % 16))
          ∧ (¬active s m 32 j → vget x 32 j = inactiveValue s vd 32 j)) ∧
    (∀ vd ra m, RoomFor s (some vd) →
      ∃ u x, exec (.vbcst vd ra m) s = .next u ∧ TakesVector s u vd x ∧ VectorOnly s u
        ∧ ∀ j < 16, (active s m 32 j → vget x 32 j = bits (getX s ra) 0 32) ∧ (¬active s m 32 j → vget x 32 j = inactiveValue s vd 32 j)) ∧
    (∀ vd ra rb, RoomFor s (some vd) →
      ∃ u x, exec (.vmvs vd ra rb) s = .next u ∧ TakesVector s u vd x ∧ VectorOnly s u
        ∧ ∀ j < 8, vget x 64 j = if j = bits (getX s rb) 0 3 then (getX s ra).toNat else inactiveValue s vd 64 j) ∧
    (∀ rd va rb vals s', Operands s none [va] vals s' →
      ∃ u, exec (.vmvx rd va rb) s = .next u ∧ Writes s u rd (word (vget (vals.getD 0 0) 64 (bits (getX s rb) 0 3))) false ∧ getPc u = pcAfter s 4
        ∧ SameMemory s u ∧ (∀ r, getV u r = getV s r) ∧ OnlyOfSlot s u fun l o => { o with x := l.x, taint := l.taint, q := l.q, pc := l.pc }) ∧
    (∀ rd ra, ∃ u, exec (.vsetl rd ra) s = .next u ∧ u.me.vl = min (getX s ra).toNat 16
        ∧ Writes s u rd (word (min (getX s ra).toNat 16)) false ∧ getPc u = pcAfter s 4 ∧ SameMemory s u ∧ u.me.v = s.me.v
        ∧ OnlyOfSlot s u fun l o => { o with x := l.x, taint := l.taint, vl := l.vl, pc := l.pc }) ∧
    (∀ vd va p f vals s', Operands s (some vd) [va] vals s' →
      let sf := (f : BitVec 6).toNat / 8
      let df := f.toNat % 8
      let base := 16 * ((p : BitVec 2).toNat % (32 / cvtWidth df))
      ∃ u x, exec (.vcvt vd va p f) s = .next u ∧ TakesVector s' u vd x ∧ VectorOnly s u
        ∧ ∀ k < 512 / cvtWidth df, vget x (cvtWidth df) k = if base ≤ k ∧ k < base + s.me.vl
          then (cvtWrite df s.me.csr.rm.toNat (cvtRead sf (vget (vals.getD 0 0) (cvtWidth sf) (k - base + 16 * (p.toNat % (32 / cvtWidth sf)))))).1
            % 2 ^ cvtWidth df
          else inactiveValue s vd (cvtWidth df) k)

/-- R282, R283: VLD, VLDF and VLDF.c read 64 bytes into a vector destination, the full/empty forms when their four granules are full; VST and VSTF write 64
bytes, VSTF making its granules full, at once in the own cell and as a posted store elsewhere (R46). -/
def Sys2Proof.Machine.VectorMemory : Prop :=
  ∀ s c k rt ra w sc ord imm, s.cur = .slot c k → k < 4 →
    (∀ t b leaves, checkRef s (viewOf s s.cur) (accessRef s ra imm 64) 64 1 0 = .ok t → t.off % 8 = 0 → windowRule t 64 false = true → RoomFor s (some rt) →
      Delivers s t 64 w (ord == 1) b leaves →
      ∃ u, exec (.vld rt ra w sc ord imm) s = .next u ∧ TakesVector s u rt (BitVec.ofNat 512 (numOfBytes b)) ∧ SameRegisters s u ∧ getPc u = pcAfter s 4
        ∧ ∀ a, a ∉ leaves → readByte u.mem a = readByte s.mem a) ∧
    (∀ t ks clear, checkRef s (viewOf s s.cur) (accessRef s ra imm 64) 64 (if clear then 3 else 1) 0 = .ok t → t.home = .scratch c →
      (t.base + t.off) % 16 = 0 → ks = span (scratchKey c (t.base + t.off)) 64 → RoomFor s (some rt) → localMatch s t 64 true false = false →
      WaitMet s w → MayRead s true → s.poisoned ks = false → (∀ g ∈ granules ks, s.full.has g = true) → myTurn s (granules ks) = true →
      ∃ u, exec (if clear then .vldfC rt ra w sc imm else .vldf rt ra w sc imm) s = .next u
        ∧ TakesVector s u rt (BitVec.ofNat 512 (numOfBytes (readKeys s.mem ks))) ∧ VectorFrame s u
        ∧ ∀ g, u.full.has g = (s.full.has g && (!clear || decide (g ∉ granules ks)))) ∧
    (∀ t ks vals s', checkRef s (viewOf s s.cur) (accessRef s ra imm 64) 64 2 1 = .ok t → Operands s none [rt] vals s' →
      (t.off % 8 = 0 → StoresNow s t 64 w (ord == 2) ks → windowRule t 64 true = true →
        ∃ u, exec (.vst rt ra w sc ord imm) s = .next u ∧ Stored s u ks (bytesOf 64 (vals.getD 0 0).toNat) ∧ SameRegisters s u ∧ getPc u = pcAfter s 4
          ∧ u.full = s.full) ∧
      (t.off % 8 = 0 → windowRule t 64 true = true → isLocal (viewOf s s.cur) t = false → WaitMet s w → counter s (postClass t) < 4095 →
        ∃ u, exec (.vst rt ra w sc ord imm) s = .next u ∧ VectorFrame s u
          ∧ PostedAs s u t (.bytes (accessRef s ra imm 64) (bytesOf 64 (vals.getD 0 0).toNat) false) (ord == 2) 1) ∧
      ((∃ c', t.home = .scratch c') → (t.base + t.off) % 16 = 0 → isLocal (viewOf s s.cur) t = false → WaitMet s w → counter s (postClass t) < 4095 →
        ∃ u, exec (.vstf rt ra w sc imm) s = .next u ∧ VectorFrame s u
          ∧ PostedAs s u t (.bytes (accessRef s ra imm 64) (bytesOf 64 (vals.getD 0 0).toNat) true) true 1) ∧
      ((∃ c', t.home = .scratch c') → (t.base + t.off) % 16 = 0 → StoresNow s t 64 w true ks →
        ∃ u, exec (.vstf rt ra w sc imm) s = .next u ∧ Stored s u ks (bytesOf 64 (vals.getD 0 0).toNat) ∧ SameRegisters s u ∧ getPc u = pcAfter s 4
          ∧ ∀ g, u.full.has g = (s.full.has g || decide (g ∈ granules ks))))

namespace Sys2Proof.Machine

/-! ### Vector access along a layout -/

/-- The keys of the bytes of an element in the moving slot's own cell. -/
def elemKeys (s : State) (w : Nat) (x : ElemRef) : List Nat :=
  match locate s (viewOf s s.cur) x.t (elemBytes w) false with
  | .ok l => l.keys
  | .error _ => []

/-- The access reads layout entry `e` now, no own LAYW to it being on its way, or has read it when it began (R27, R73); the entry is usable (R25 steps 1 to 3), and the elements along dimension 0 inside EXT0, from the coordinates in x[rc], check with the rights `rts`; all of them
lie in the own cell, unwatched, and the wait field is met (R284, R231). -/
def StripReady (s : State) (lay : BitVec 6) (rc : BitVec 5) (w : BitVec 2) (rts acc : Nat) (read : Bool) (xs : List (Nat × ElemRef)) : Prop :=
  let v := viewOf s s.cur
  let e := layoutEntry s v lay.toNat
  myLayout s v lay.toNat = .ok e ∧ cacheMiss s v (bits (layWord e 0) 52 12) = false ∧ layoutUsable s v e = true ∧ elemRefs s v e rts acc (stripCoords e (getX s rc)) = .ok xs ∧ WaitMet s w
    ∧ ∀ x ∈ xs, (∃ ks, OwnBytes s x.2.t (elemBytes (fmtWidth (layFmt e))) ks)
      ∧ localMatch s x.2.t (elemBytes (fmtWidth (layFmt e))) read (!read) = false

/-- An element's value as a vector instruction reads it: the reserved code of TERN counts as 0 (R262). -/
def elementRead (e : Vec) (n : Nat) : Nat := if layFmt e = 0x0A ∧ n = 2 then 0 else n

/-- The elements written one after the other at their places, element `j` taking element `j` of the vector (R22, R284). -/
def stripWritten (s : State) (w : Nat) (v : Vec) (xs : List (Nat × ElemRef)) : List Host.Cell :=
  xs.foldl (fun m x => writePiece m (elemKeys s w x.2) ⟨x.2.o, x.2.lo, w, vget v w x.1, x.2.c, false⟩) s.mem

end Sys2Proof.Machine

/-- R284, R22, R25, R262: VLD, VLDF and VLDF.c along a layout read the elements inside EXT0, element j from coordinate c0 + j, and zero beyond; VST and VSTF write them; the full/empty
forms act on the granules that hold a byte of them, in the own scratchpad. -/
def Sys2Proof.Machine.LayoutFormsResults : Prop :=
  ∀ s c k vd lay rc w sc xs, s.cur = .slot c k → k < 4 →
    let e := layoutEntry s (viewOf s s.cur) (lay : BitVec 6).toNat
    let wd := fmtWidth (layFmt e)
    let ks := xs.flatMap fun x : Nat × ElemRef => elemKeys s wd x.2
    let val (y : Nat × ElemRef) : Nat := elemValue wd y.2.lo (readKeys s.mem (elemKeys s wd y.2))
    (readFenced s = false → s.poisoned ks = false → RoomFor s (some vd) →
      (StripReady s lay rc w 1 0 true xs →
        ∃ u x, exec (.vldL vd lay rc w sc) s = .next u ∧ TakesVector s u vd x ∧ VectorFrame s u
          ∧ x = vscatter wd (xs.map fun y => (y.1, elementRead e (val y)))
          ∧ (layFmt e = 0x0A → (∃ y ∈ xs, val y = 2) → u.me.shadow.raised &&& flNV = flNV)) ∧
      (∀ clear, StripReady s lay rc w (if clear then 3 else 1) 0 true xs → baseOwnScratch s (viewOf s s.cur) e = true →
        (∀ g ∈ granules ks, s.full.has g = true) → acquireHeld s true = false → myTurn s (granules ks) = true →
        ∃ u x, exec (if clear then .vldfCL vd lay rc w sc else .vldfL vd lay rc w sc) s = .next u ∧ TakesVector s u vd x ∧ VectorFrame s u
          ∧ x = vscatter wd (xs.map fun y => (y.1, elementRead e (val y)))
          ∧ ∀ g, u.full.has g = (s.full.has g && (!clear || decide (g ∉ granules ks))))) ∧
    (∀ vals s', Operands s none [vd] vals s' → StripReady s lay rc w 2 1 false xs →
      (writeFenced s false = false →
        ∃ u, exec (.vstL vd lay rc w sc) s = .next u ∧ u.mem = stripWritten s wd (vals.getD 0 0) xs ∧ SameRegisters s u ∧ getPc u = pcAfter s 4
          ∧ (∀ a, a ∉ ks → readByte u.mem a = readByte s.mem a) ∧ u.full = s.full) ∧
      (writeFenced s true = false → baseOwnScratch s (viewOf s s.cur) e = true →
        ∃ u, exec (.vstfL vd lay rc w sc) s = .next u ∧ u.mem = stripWritten s wd (vals.getD 0 0) xs ∧ SameRegisters s u ∧ getPc u = pcAfter s 4
          ∧ (∀ a, a ∉ ks → readByte u.mem a = readByte s.mem a) ∧ ∀ g, u.full.has g = (s.full.has g || decide (g ∈ granules ks))))

/-- R22, R284: the vector that a layout load delivers holds each element's value at its number and zero at every other element. -/
def Sys2Proof.Machine.LayoutElements : Prop :=
  ∀ w (l : List (Nat × Nat)), w ∈ [2, 4, 8, 16, 32, 64] → (l.map (·.1)).Nodup → (∀ p ∈ l, p.1 < 512 / w) →
    (∀ p ∈ l, vget (vscatter w l) w p.1 = p.2 % 2 ^ w) ∧ ∀ k < 512 / w, k ∉ l.map (·.1) → vget (vscatter w l) w k = 0

namespace Sys2Proof.Machine

/-! ### Repetition -/

/-- The sequencer after an instance at buffer slot `r.bslot` of repetition `r.j` (R289): the next buffer slot, the next repetition, or the waiting sequence. -/
def SequencerMoves (q q' : Sequencer) (r : Sequence) : Prop :=
  let first := bits r.word 0 4
  let last := first + bits r.word 4 4
  q'.issued = q.issued + 1 ∧
  (r.bslot < last → q'.run = some { r with bslot := r.bslot + 1 } ∧ q'.wait = q.wait) ∧
  (last ≤ r.bslot → r.j + 1 < r.count → q'.run = some { r with bslot := first, j := r.j + 1 } ∧ q'.wait = q.wait) ∧
  (last ≤ r.bslot → r.count ≤ r.j + 1 → q'.run = q.wait ∧ q'.wait = none)

/-- A sequence is given to a sequencer: it starts, or waits behind the running one; a count of 0 runs nothing (R287, R289). -/
def GivenTo (q q' : Sequencer) (r : Sequence) : Prop :=
  (r.count = 0 → q' = q) ∧ (r.count ≠ 0 → q.run = none → q' = { q with run := some r }) ∧
  (r.count ≠ 0 → q.run ≠ none → q' = { q with wait := some r })

/-! ### Matrix instructions -/

/-- The matrix forms that issue into the slot's queue (R294): the value of the scalar field, the layouts the form names, and whether the checks of issue time pass
(R301, R303 to R305, R310, R313, R314). -/
def issues (s : State) : Instr → Option (Word × List (BitVec 6) × Prop)
  | .mma _ la lb rc _ => some (getX s rc, [la, lb], mmaChecks s la lb (viewOf s s.cur) ([la, lb].map fun l => layoutEntry s (viewOf s s.cur) l.toNat) = .ok ())
  | .mmaz _ la lb rc _ => some (getX s rc, [la, lb], mmaChecks s la lb (viewOf s s.cur) ([la, lb].map fun l => layoutEntry s (viewOf s s.cur) l.toNat) = .ok ())
  | .mpoly ad aa ab ra => some (getX s ra, [], (getX s ra).toNat < 16 ∧ (if inGang s.me
      then ab = 0 ∧ slabsLegal (slabSize s.me) ad.toNat aa.toNat = true else ad ≠ aa ∧ ad ≠ ab ∧ aa ≠ ab))
  | .miter ad aa md _ ra _ => some (getX s ra, [], (getX s ra).toNat < 2 ^ 32 ∧ getX s ra ≠ 0 ∧ ad.toNat + slabSize s.me ≤ 8
      ∧ (md = 0 ∨ (slabsLegal (slabSize s.me) ad.toNat aa.toNat = true ∧ ad ≠ aa)))
  | .mscz _ _ ra => some (getX s ra, [],
      (getX s ra).toNat < 4 ∧ s.me.csr.sclp.toNat % 4 = 0 ∧ ((getX s ra).getLsbD 1 = true ∨ s.me.csr.zpp.toNat % 4 = 0))
  | .mcvt _ _ _ => some (0, [], True)
  | .mtrn _ _ => some (0, [], True)
  | .mzero _ => some (0, [], True)
  | .mgang ra _ => some (getX s ra, [], getX s ra = 0 ∨ ((getX s ra).toNat < 2 ^ 32 ∧ 2 ≤ maskCount s.me.csr.gmask
      ∧ ∃ c k, s.cur = .slot c k ∧ s.me.csr.gmask.getLsbD (c % 8) = true))
  | .mrdr _ _ ra _ => some (getX s ra, [], True)
  | .mwrr _ ra _ => some (getX s ra, [], True)
  | .cbld _ _ ra => some (getX s ra, [], True)
  | .kld _ ra => some (getX s ra, [], True)
  | .mld _ la _ _ rc => some (getX s rc, [la],
      let e := layoutEntry s (viewOf s s.cur) la.toNat
      layoutThere s (viewOf s s.cur) la e = .ok () ∧ layoutUsable s (viewOf s s.cur) e = true ∧ layFmt e ∈ [0, 1, 2, 3, 4, 5, 6, 7, 8, 9, 10, 15, 16])
  | .mldb _ la _ _ rc => some (getX s rc, [la],
      let e := layoutEntry s (viewOf s s.cur) la.toNat
      layoutThere s (viewOf s s.cur) la e = .ok () ∧ layoutUsable s (viewOf s s.cur) e = true ∧ layFmt e ∈ [0, 1, 2, 3, 4, 5, 6, 7, 8, 9, 10, 15, 16])
  | .mst _ la _ _ rc => some (getX s rc, [la],
      let e := layoutEntry s (viewOf s s.cur) la.toNat
      layoutThere s (viewOf s s.cur) la e = .ok () ∧ layoutUsable s (viewOf s s.cur) e = true ∧ layFmt e ∈ [0, 1, 2, 3, 4, 5, 6, 7, 8, 9, 15, 16])
  | _ => none

/-- Instruction `m` stands at the head of the matrix queue of slot (c, k), on the array, in no gang; the cell's tile comparator is off. -/
def OnArray (s : State) (c k : Nat) (m : MatOp) : Prop :=
  s.inp.cell = c ∧ arraySlot s c = some k ∧ (∃ r, (s.slot c k).mq = m :: r) ∧ (s.slot c k).gang = .none ∧ k < 4
    ∧ ((s.cell c).wcmp[1]?.getD 0).getLsbD 63 = false

/-- The instruction has left the array: the head of the queue is gone, and MRP is clear (R148). -/
def LeftArray (s u : State) (c k : Nat) : Prop := (u.slot c k).mq = (s.slot c k).mq.drop 1 ∧ (u.slot c k).mrpV = false

/-- Element (i, j) of tile `t` of cell `c`. -/
def tileAt (s : State) (c t i j : Nat) : Elem := BitVec.ofNat 32 (numOfBytes (readKeys s.mem (span (2 ^ 49 + c * 2 ^ 15 + 4096 * t + 128 * i + 4 * j) 4)))

/-- Every tile of every cell but tile `t` of cell `c` is as it was. -/
def OtherTiles (s u : State) (c t : Nat) : Prop :=
  ∀ a, (a < 2 ^ 49 + c * 2 ^ 15 + 4096 * t ∨ 2 ^ 49 + c * 2 ^ 15 + 4096 * t + 4096 ≤ a) → readByte u.mem a = readByte s.mem a

end Sys2Proof.Machine

/-- R287, R288: RPT takes a sequence word without RSV bits and with S + LM1 at most 15, gives its sequence to the sequencer, and with LOAD = 1 captures the instructions behind it
with the values of their scalar fields and goes on behind them; RPTW returns the instances issued once the sequencer is idle. -/
def Sys2Proof.Machine.RepetitionFormsResults : Prop :=
  ∀ s c k ra rb rd, s.cur = .slot c k → k < 4 →
    let w := getX s rb
    let first := bits w 0 4
    let len := bits w 4 4 + 1
    let q : Sequence := ⟨w, (getX s ra).toNat, (s.slot c k).vl, first, 0, (s.slot c k).cap, recordAt s (s.slot c k).cap (s.slot c k).pc⟩
    ((getX s ra).toNat < 2 ^ 32 → bits w 56 8 = 0 → bits w 23 1 = 0 → first + len ≤ 16 → (s.slot c k).seq.wait = none →
      (bits w 8 1 = 0 → ∃ u, exec (.rpt ra rb) s = .next u ∧ GivenTo (s.slot c k).seq (u.slot c k).seq q ∧ SameRegisters s u ∧ SameMemory s u
        ∧ getPc u = pcAfter s 4) ∧
      (∀ l : List (Instr × List (BitVec 5 × StepKind)), bits w 8 1 = 1 → l.length = len → bufferBusy (s.cell c) first len = false →
        (∀ j e, l[j]? = some e → fetchBody s (dieOfCell c) (s.slot c k).cap ((s.slot c k).pc + 4 + 4 * j) = .ok (e.1, 4)
          ∧ scalarFields e.1 = some e.2 ∧ wellFormed e.1 = true) →
        ∃ u, exec (.rpt ra rb) s = .next u ∧ GivenTo (s.slot c k).seq (u.slot c k).seq q ∧ SameRegisters s u ∧ SameMemory s u
          ∧ getPc u = pcAfter s (4 + 4 * len)
          ∧ (∀ j e, l[j]? = some e → ∃ b, (u.cell c).repBuf[first + j]? = some b ∧ b.i = e.1 ∧ b.x = e.2.map (fun f => getX s f.1) ∧ b.word = w)
          ∧ ∀ j < 16, (j < first ∨ first + len ≤ j) → (u.cell c).repBuf[j]? = (s.cell c).repBuf[j]?)) ∧
    ((s.slot c k).seq.run = none →
      ∃ u, exec (.rptw rd) s = .next u ∧ WritesOnly s u 4 rd (word (s.slot c k).seq.issued) false)

/-- R289: an instance of a captured VADD runs with its fields staggered by the repetition and the VL of its RPT, moves the sequencer on, and leaves the scalar registers, VL and the
slot's place as they were. -/
def Sys2Proof.Machine.RepetitionInstance : Prop :=
  ∀ s c k r w cap n vd va vb, s.inp.cell = c → s.inp.slot = k → k < 4 → (s.slot c k).pend = none → (s.slot c k).status = .running →
    (s.slot c k).wait = .none → (s.slot c k).seq.run = some r → (s.cell c).repBuf[r.bslot]? = some ⟨.vadd vd va vb 0, [], w, cap, n⟩ →
    vd.toNat < 16 → va.toNat < 16 → vb.toNat < 16 → (s.slot c k).mq = [] → (s.cell c).wcmp = Vector.replicate 4 0 → budgetOut (s.slot c k) = false →
    (s.capsule (s.slot c k).cap).any voidBody = false →
    let f (r' : BitVec 5) (lo : Nat) : Nat := (r'.toNat + r.j * bits r.word lo 3) % 16
    let v (s : State) (i : Nat) : Vec := (s.slot c k).v[i]?.getD 0
    ∃ u, exec .rptInstanceIssue s = .next u ∧ SequencerMoves (s.slot c k).seq (u.slot c k).seq r ∧ (u.slot c k).x = (s.slot c k).x
      ∧ (u.slot c k).vl = (s.slot c k).vl ∧ (u.slot c k).pc = (s.slot c k).pc ∧ SameMemory s u ∧ (∀ i, i ≠ f vd 9 → v u i = v s i)
      ∧ ∀ j < 16, vget (v u (f vd 9)) 32 j = if j < r.vl
          then (add32 (elem (vget (v s (f va 12)) 32 j)) (elem (vget (v s (f vb 15)) 32 j))).1.toNat else vget (v s (f vd 9)) 32 j

/-- R294, R27: a matrix form whose checks of issue time pass joins its slot's queue of four, with the value of its scalar field, the CSRs and the layout entries as they are then, and
the scalar pipeline goes on; MWAIT completes when the queue is empty and waits until then. -/
def Obligations.MatrixIssue : Prop :=
  ∀ s c k, s.cur = .slot c k → k < 4 →
    (∀ i x lays ok, issues s i = some (x, lays, ok) → ok → (s.slot c k).mq.length < 4 →
      ∃ u m, exec i s = .next u ∧ (u.slot c k).mq = (s.slot c k).mq ++ [m] ∧ m.i = i ∧ m.x = x ∧ m.csr = (s.slot c k).csr
        ∧ m.lays = lays.map (fun l => layoutEntry s (viewOf s s.cur) l.toNat) ∧ m.onArray = false ∧ m.regs = (s.slot c k).x
        ∧ SameRegisters s u ∧ SameMemory s u ∧ getPc u = pcAfter s 4) ∧
    (∀ i x lays ok, issues s i = some (x, lays, ok) → ok → 4 ≤ (s.slot c k).mq.length → exec i s = .next (waitFor s .matrix)) ∧
    ((s.slot c k).mq = [] → ∃ u, exec .mwait s = .next u ∧ SameRegisters s u ∧ SameMemory s u ∧ getPc u = pcAfter s 4 ∧ OnlyRegisters s u) ∧
    ((s.slot c k).mq ≠ [] → exec .mwait s = .next (waitFor s .matrix))

/-- R308, R307, R148: the array completes MZERO, MTRN and MWRR: a zero tile with zero row sums, a transposed tile, sixteen elements of a half-row; no other byte of memory differs. -/
def Obligations.MatrixTileEffects : Prop :=
  ∀ s c k m, OnArray s c k m →
    (∀ ad : BitVec 3, m.i = .mzero ad →
      ∃ u, exec .matrixInstructionComplete s = .next u ∧ LeftArray s u c k ∧ OtherTiles s u c ad.toNat
        ∧ (∀ i < 32, ∀ j < 32, tileAt u c ad.toNat i j = 0) ∧ (u.cell c).rowSums[ad.toNat]? = some 0) ∧
    (∀ ad aa : BitVec 3, m.i = .mtrn ad aa → tilePoisoned s c aa.toNat = false →
      ∃ u, exec .matrixInstructionComplete s = .next u ∧ LeftArray s u c k ∧ OtherTiles s u c ad.toNat
        ∧ ∀ i < 32, ∀ j < 32, tileAt u c ad.toNat i j = tileAt s c aa.toNat j i) ∧
    (∀ (ad : BitVec 3) ra (vb : BitVec 5), m.i = .mwrr ad ra vb → m.x.toNat < 64 → vb.toNat < 16 →
      ∃ u, exec .matrixInstructionComplete s = .next u ∧ LeftArray s u c k ∧ OtherTiles s u c ad.toNat
        ∧ (∀ j < 16, tileAt u c ad.toNat (m.x.toNat / 2) (16 * (m.x.toNat % 2) + j) =
            BitVec.ofNat 32 (vget ((s.slot c k).v[vb.toNat]?.getD 0) 32 j))
        ∧ ∀ i < 32, ∀ j < 32, ¬(i = m.x.toNat / 2 ∧ j / 16 = m.x.toNat % 2) → tileAt u c ad.toNat i j = tileAt s c ad.toNat i j)

/-- R297, R300, R301, Formula (13.4): MMA of two INT32 tile operands (FMTA and FMTB 0x15) adds the exact product of tile la and tile lb to tile ad, modulo 2^32, and MMAZ writes it
alone; no other byte of memory differs. -/
def Obligations.MatrixMultiplyIntegers : Prop :=
  ∀ s c k m (ad : BitVec 3) (la lb : BitVec 6) rc w, OnArray s c k m → m.csr.fmta = 0x15 → m.csr.fmtb = 0x15 → la.toNat < 8 → lb.toNat < 8 →
    (s.slot c k).staging = [] → (s.slot c k).mrpRow = 0 → tilePoisoned s c ad.toNat = false → tilePoisoned s c la.toNat = false →
    tilePoisoned s c lb.toNat = false →
    let product (i j : Nat) : Elem := ((List.range 32).map fun q => tileAt s c la.toNat i q * tileAt s c lb.toNat q j).foldl (· + ·) 0
    (m.i = .mma ad la lb rc w →
      ∃ u, exec .matrixInstructionComplete s = .next u ∧ LeftArray s u c k ∧ OtherTiles s u c ad.toNat
        ∧ ∀ i < 32, ∀ j < 32, tileAt u c ad.toNat i j = tileAt s c ad.toNat i j + product i j) ∧
    (m.i = .mmaz ad la lb rc w →
      ∃ u, exec .matrixInstructionComplete s = .next u ∧ LeftArray s u c k ∧ OtherTiles s u c ad.toNat
        ∧ ∀ i < 32, ∀ j < 32, tileAt u c ad.toNat i j = product i j)

namespace Sys2Proof.Machine

/-! ### Events of the matrix pipeline -/

/-- Slot (c, k) waits in a join with a tag and a mask, or is in gang mode at an ordinal (R310). -/
def JoiningAs (l : Slot) (tag : BitVec 32) (mask : BitVec 8) : Prop := ∃ clk, l.gang = .joining tag mask clk

end Sys2Proof.Machine

/-- R294, R302, R148: a free array takes the ready head that comes first in the order of R176, with an empty staging area unless rows were kept; a leave of a gang (MGANG with 0) completes at
once with 0 in rb. -/
def Sys2Proof.Machine.MatrixDispatch : Prop :=
  ∀ s c k m r, s.inp.cell = c → k < 4 → arraySlot s c = none → leastBy (slotKey s c) ((List.range 4).filter (headReady s c)) = some k →
    (s.slot c k).mq = m :: r →
    ((∀ ra rb, m.i ≠ .mgang ra rb) → ∃ u, exec .matrixDispatch s = .next u ∧ (u.slot c k).mq = { m with onArray := true } :: r
      ∧ ((s.slot c k).mrpV = false → (u.slot c k).staging = [] ∧ (u.slot c k).mrpRow = 0) ∧ (u.slot c k).x = (s.slot c k).x ∧ SameMemory s u) ∧
    (∀ ra rb, m.i = .mgang ra rb → m.x = 0 → ∃ u, exec .matrixDispatch s = .next u ∧ (u.slot c k).mq = r ∧ (u.slot c k).gang = .none
      ∧ (rb ≠ 0 → (u.slot c k).x[rb.toNat]? = some 0) ∧ SameMemory s u)

/-- R315 to R318, Formula (13.7): a MITER that continues an iteration whose COUNT has reached its cap ends with END 1 and that count in rb, and clears LIVE; one whose tests let it go on writes
X′ into its tile and counts one iteration more. -/
def Sys2Proof.Machine.MiterTurns : Prop :=
  ∀ s c k m (ad aa : BitVec 3) fb ra rb r a x, OnArray s c k m → m.i = .miter ad aa 0 fb ra rb → m.begun = true →
    (s.cell c).ctx = some r → (s.slot c k).act = some a → a.stolen = false → s.ctx r = some x →
    let mis := (x.vpe a.vpe).mis
    let count := bits mis 0 32
    let cap := bits m.x 0 32
    let kk (i : Nat) : Elem := (s.slot c k).k[i]?.getD 0
    let cols := transposed 0 32 (readTile s c ad.toNat)
    let step := iterate (fb == 1) 1 kk none cols
    (cap ≤ count → (s.slot c k).csr.mtrapen = 0 → rb ≠ 0 →
      ∃ u y, exec .miterIteration s = .next u ∧ LeftArray s u c k ∧ (u.slot c k).x[rb.toNat]? = some (word (count + 2 ^ 62))
        ∧ u.ctx r = some y ∧ (y.vpe a.vpe).mis.getLsbD 63 = false ∧ SameMemory s u) ∧
    (count + 1 < cap → requestPending s c = false →
      iterTests kk count (bit (x.vpe a.vpe).misv 32) (elem (bits (x.vpe a.vpe).misv 0 32)) step = .goOn →
      ∃ u y, exec .miterIteration s = .next u ∧ u.ctx r = some y ∧ bits (y.vpe a.vpe).mis 0 32 = count + 1 ∧ (y.vpe a.vpe).mis.getLsbD 63 = true
        ∧ bits (y.vpe a.vpe).misv 0 32 = step.rho.toNat
        ∧ (∀ i < 32, ∀ j < 32, tileAt u c ad.toNat i j = colAt step.x i j) ∧ OtherTiles s u c ad.toNat)

/-- R310, R311: when every masked cell of the rank has a slot joining with the tag and mask, in a beat of its context, all enter gang mode with their ordinals, which rb receives; a join
not complete after 16 384 clk aborts with 0x0B. -/
def Sys2Proof.Machine.GangEvents : Prop :=
  ∀ s c k tag mask clk, s.inp.cell = c → k < 4 → arraySlot s c = some k → (s.slot c k).gang = .joining tag mask clk →
    (∀ p : Nat → Nat, ownsBeat s c = true → mask.getLsbD (c % 8) = true →
      (∀ c' ∈ maskedCells c mask, joinSlot s c' tag mask = some (p c') ∧ p c' < 4 ∧ (s.slot c' (p c')).status = .running
        ∧ ∃ m r ra rb, (s.slot c' (p c')).mq = m :: r ∧ m.i = .mgang ra rb) →
      ∃ u, exec .gangJoinComplete s = .next u ∧ SameMemory s u ∧ ∀ n c', (maskedCells c mask)[n]? = some c' →
        (u.slot c' (p c')).gang = .joined tag mask n 0 0 ∧ (u.slot c' (p c')).mq = (s.slot c' (p c')).mq.drop 1
        ∧ ∀ m r ra rb, (s.slot c' (p c')).mq = m :: r → m.i = .mgang ra rb → rb ≠ 0 → (u.slot c' (p c')).x[rb.toNat]? = some (word n)) ∧
    (16384 ≤ clk → (∃ a, (s.slot c k).act = some a) →
      ∃ u, exec .gangTimeout s = .next u ∧ (u.slot c k).status = .free ∧ bits (u.slot c k).fcause 0 8 = 11) ∧
    (clk < 16384 → exec .gangTimeout s = .next s)

/-- R309: a slot table written in an earlier frame takes effect when a frame starts, and not before; frames of 4 096 clk of the rank's die count from device warm reset. -/
def Sys2Proof.Machine.SlotTableAtFrameStart : Prop :=
  ∀ s f t, let g := 96 * s.inp.die + s.inp.rank
    s.slotNext.find g = some (f, t) →
    (s.clkOf s.inp.die % 4096 = 0 → f < s.clkOf s.inp.die / 4096 → ∃ u, exec .slotTableFrameStart s = .next u ∧ u.slotTables.getD g 0 = t ∧ u.slotNext.find g = none ∧ u.cells = s.cells
      ∧ SameMemory s u ∧ ∀ g', g' ≠ g → u.slotTables.getD g' 0 = s.slotTables.getD g' 0) ∧
    (s.clkOf s.inp.die % 4096 ≠ 0 ∨ s.clkOf s.inp.die / 4096 ≤ f → exec .slotTableFrameStart s = .next s)

namespace Sys2Proof.Machine

/-! ### Activations and messages -/

/-- Cell `c` belongs to resident context `r`, whose record is `x`. -/
def CellOf (s : State) (c r : Nat) (x : Context) : Prop := (s.cell c).ctx = some r ∧ s.ctx r = some x

/-- The virtual PE `v` of context `r` after an event. -/
def vpeOf (s : State) (r v : Nat) : Vpe := ((s.ctx r).map fun x => x.vpe v).getD Vpe.reset

/-- No slot of the cell serves a stream. -/
def NoStreams (s : State) (c : Nat) : Prop := ∀ k src, (s.slot c k).status ≠ .stream src

/-- The grid capsule of a context is sealed for the running firmware (R330). -/
def GridSealed (s : State) (x : Context) (b : Capsule) : Prop := s.caps.find x.grid = some b ∧ b.state = 1 ∧ tagCurrent s b = true

/-- The next activation of cell `c` is that of message `m`, the head of pair (v, ch), in free slot `k` (R176). -/
def StartsNext (s : State) (c r : Nat) (x : Context) (k v ch : Nat) (m : Msg) (rest : List Msg) : Prop :=
  s.inp.cell = c ∧ CellOf s c r x ∧ freeSlot (s.cell c) = some k ∧ k < 4 ∧ mayStart s c = true
    ∧ firstPair s c x (runnablePairs s c) = some (v, ch) ∧ (x.vpe v).queues.getD ch [] = m :: rest

/-- Slot (c, k) runs an activation of message `m` on (v, ch), from the handler's entry, with VL 16, reset CSRs, its channel's budget, x0 zero, and nothing in its send
buffer, its sequencer or its matrix queue (R162, R176, R223, R272). -/
def Started (u : State) (c k v ch : Nat) (m : Msg) (h : Handler) (entry : Nat) (stolen : Bool) : Prop :=
  ∃ a, (u.slot c k).act = some a ∧ a.msg = m ∧ a.vpe = v ∧ a.ch = ch ∧ a.stolen = stolen ∧ a.h = { h with nent := entry }
    ∧ (u.slot c k).status = .running ∧ (u.slot c k).pc = entry ∧ (u.slot c k).vl = 16 ∧ (u.slot c k).csr = Csrs.reset
    ∧ (u.slot c k).tbud = budgetOf h.tb ∧ (u.slot c k).x[0]? = some 0 ∧ (u.slot c k).sends = [] ∧ (u.slot c k).seq = ⟨none, none, 0⟩
    ∧ (u.slot c k).mq = [] ∧ (u.slot c k).shadow = Shadow.empty

/-- The head of pair (v, ch) has been taken: it has left its queue, the pair is busy and its age starts anew (R175, R177). -/
def Taken (u : State) (r v ch : Nat) (rest : List Msg) : Prop :=
  (vpeOf u r v).queues.getD ch [] = rest ∧ (vpeOf u r v).busy.has ch = true ∧ (vpeOf u r v).ages.getD ch 0 = 0

/-- Message `m` as the network carries it from cell `c`: a multicast copy has MCAST set and its slot returns to that cell (R130, Table 10.6). -/
def sentCopy (m : Msg) (c : Nat) (multi : Bool) : Msg := if multi then { m with aflg := m.aflg ||| 8#5, mcell := some c } else { m with mcell := none }

end Sys2Proof.Machine

/-- R183, R371, R47: an abort frees the slot, discards its sends and shadow, returns the message to the head of its queue with REPLAY set and masks its channel, keeps what was stored,
and leaves the cause, the oref and the coordinates in the fault CSRs. -/
def Obligations.AbortLeaves : Prop :=
  ∀ s c k r a x cause fcause foref fcoord, (s.slot c k).act = some a → k < 4 → CellOf s c r x → (x.vpe a.vpe).streams.find a.ch = none →
    let u := abortActivation s c k cause fcause foref fcoord
    (u.slot c k).status = .free ∧ (u.slot c k).act = none ∧ (u.slot c k).sends = [] ∧ (u.slot c k).shadow = Shadow.empty ∧ (u.slot c k).taint = 0
      ∧ (u.slot c k).fcause = fcause ∧ (u.slot c k).foref = foref ∧ (u.slot c k).fcoord = fcoord
      ∧ (vpeOf u r a.vpe).queues.getD a.ch [] = { a.msg with aflg := a.msg.aflg ||| 2#5, ret := some s.time } :: (x.vpe a.vpe).queues.getD a.ch []
      ∧ (a.ch < 32 → (vpeOf u r a.vpe).amask.getLsbD a.ch = true) ∧ (vpeOf u r a.vpe).busy.has a.ch = false
      ∧ (vpeOf u r a.vpe).flg = (x.vpe a.vpe).flg ∧ (u.slot c k).x = (s.slot c k).x ∧ u.posted = s.posted ∧ (u.cell c).outbound = (s.cell c).outbound

/-- R219, R226, R133, R171: END commits the shadow and passes its sends to the outbound list in order; with nothing to send, or while a request is pending at the cell, it frees the slot, the
message's input-buffer entry and its channel at once; otherwise it waits until its messages have left. A send to a revoked endpoint makes it raise 0x10 instead. The 16-bit END is
the same instruction. -/
def Sys2Proof.Machine.EndForms : Prop :=
  ∀ s c k r a x i, i ∈ [Instr.endAct, Instr.end16] → Running s c k r a x →
    ((s.slot c k).ending = true → stillLeaving s c k = true → requestPending s c = false → exec i s = .next (waitFor s .outbound)) ∧
    ((s.slot c k).ending = false → (∃ m ∈ (s.slot c k).sends, revokedGrant x m = true) → s.provisional = false →
      exec i s = .next (abortActivation s c k 16 16 0 0)) ∧
    ((s.slot c k).ending = false → (∀ m ∈ (s.slot c k).sends, revokedGrant x m = false) →
    ∃ u, exec i s = .next u
      ∧ (vpeOf u r a.vpe).flg = ((x.vpe a.vpe).flg &&& ~~~(s.slot c k).shadow.cleared) ||| (s.slot c k).shadow.raised
      ∧ (∃ y, u.ctx r = some y ∧ y.flags = x.flags ||| (s.slot c k).shadow.raised)
      ∧ (∀ t < 8, (u.cell c).ovfc[t]? = (s.cell c).ovfc[t]?.map fun old =>
          let e := (s.slot c k).shadow.ovf[t]?.getD (none, 0)
          BitVec.ofNat 32 (min ((e.1.getD old).toNat + e.2) 0xFFFFFFFF))
      ∧ (u.cell c).outbound = (s.cell c).outbound ++ (s.slot c k).sends
      ∧ ((s.slot c k).sends = [] ∨ requestPending s c = true → (u.slot c k).status = .free ∧ (vpeOf u r a.vpe).used = (x.vpe a.vpe).used - 1
          ∧ (vpeOf u r a.vpe).busy.has a.ch = false)
      ∧ ((s.slot c k).sends ≠ [] → requestPending s c = false → (u.slot c k).status = (s.slot c k).status ∧ (u.slot c k).ending = true
          ∧ (u.slot c k).sends = [] ∧ (vpeOf u r a.vpe).used = (x.vpe a.vpe).used))

/-- R220, R184: YIELD commits the shadow, discards the sends, returns the message to the head of its queue with RESUME set, and frees the slot; the message keeps its entry. -/
def Sys2Proof.Machine.YieldForm : Prop :=
  ∀ s c k r a x, Running s c k r a x →
    ∃ u, exec .yieldAct s = .next u ∧ (u.slot c k).status = .free ∧ (u.slot c k).sends = [] ∧ (u.cell c).outbound = (s.cell c).outbound
      ∧ (vpeOf u r a.vpe).flg = ((x.vpe a.vpe).flg &&& ~~~(s.slot c k).shadow.cleared) ||| (s.slot c k).shadow.raised
      ∧ (vpeOf u r a.vpe).queues.getD a.ch [] = { a.msg with aflg := a.msg.aflg ||| 1#5, ret := some s.time } :: (x.vpe a.vpe).queues.getD a.ch []
      ∧ (vpeOf u r a.vpe).used = (x.vpe a.vpe).used ∧ (vpeOf u r a.vpe).amask = (x.vpe a.vpe).amask

/-- R176, R330, R177: ACTIVATION_START starts the first runnable pair of a cell in a free slot, parked with 0x12 where the body is VOID; AGE_PROMOTION promotes a runnable pair whose age
exceeds AGEL; TURN_BUDGET_EXPIRY aborts a running activation whose budget has run out with 0x08. -/
def Sys2Proof.Machine.ActivationEvents : Prop :=
  ∀ s c r x,
    (∀ k v ch m rest b entry, StartsNext s c r x k v ch m rest → opensStream (s.cell c) (x.vpe v) ch = false →
      handlerEntry s x ((s.cell c).handler ch).hidx.toNat = some entry → s.caps.find x.grid = some b →
      (GridSealed s x b → ∃ u, exec .activationStart s = .next u ∧ Started u c k v ch m ((s.cell c).handler ch) entry false ∧ Taken u r v ch rest) ∧
      ((b.state = 2 ∨ (b.state = 1 ∧ tagCurrent s b = false)) → ∃ u, exec .activationStart s = .next u ∧ (u.slot c k).status = .parked 18 false none
        ∧ (u.slot c k).pc = entry ∧ Taken u r v ch rest)) ∧
    (CellOf s c r x → s.inp.cell = c → (s.inp.vpe, s.inp.chan) ∈ runnablePairs s c →
      max 64 (s.cell c).agel.toNat < (x.vpe s.inp.vpe).ages.getD s.inp.chan 0 →
      ∃ u, exec .agePromotion s = .next u ∧ (vpeOf u r s.inp.vpe).promoted.has s.inp.chan = true ∧ u.cells = s.cells ∧ SameMemory s u) ∧
    (∀ k a, s.inp.cell = c → s.inp.slot = k → k < 4 → (s.slot c k).status = .running → (s.slot c k).ending = false → (s.slot c k).tbud = 0 →
      (s.slot c k).act = some a →
      ∃ u, exec .turnBudgetExpiry s = .next u ∧ (u.slot c k).status = .free ∧ bits (u.slot c k).fcause 0 8 = 8 ∧ u.posted = s.posted)

/-- R181, R182, R184: STEAL_ATTEMPT starts the oldest stealable message of the cells it probes on the thief, which is not stopped (R411), or counts a failed steal; PREEMPTION_REQUEST holds every cell of the context. -/
def Sys2Proof.Machine.StealAndPreempt : Prop :=
  ∀ s c r x,
    (∀ k o v ch m rest b entry, s.inp.cell = c → CellOf s c r x → freeSlot (s.cell c) = some k → k < 4 → mayStart s c = true → (s.cell c).stop = .no → 32 ≤ (s.cell c).idleClk →
      runnablePairs s c = [] → oldest ((probes x c).flatMap (stealable s x)) = some (o, v, ch, m) → (x.vpe v).queues.getD ch [] = m :: rest →
      GridSealed s x b → o ≠ c → handlerEntry s x ((s.cell o).handler ch).hidx.toNat = some entry →
      ∃ u, exec .stealAttempt s = .next u ∧ Started u c k v ch m ((s.cell o).handler ch) entry true ∧ Taken u r v ch rest
        ∧ (u.cell c).acct.stealok.toNat = min ((s.cell c).acct.stealok.toNat + 1) (2 ^ 32 - 1)) ∧
    (∀ k, s.inp.cell = c → CellOf s c r x → freeSlot (s.cell c) = some k → mayStart s c = true → (s.cell c).stop = .no → 32 ≤ (s.cell c).idleClk →
      runnablePairs s c = [] → oldest ((probes x c).flatMap (stealable s x)) = none →
      ∃ u, exec .stealAttempt s = .next u ∧ (u.cell c).idleClk = 0 ∧ (u.cell c).slots = (s.cell c).slots ∧ u.ctxs = s.ctxs
        ∧ (u.cell c).acct.stealfail.toNat = min ((s.cell c).acct.stealfail.toNat + 1) (2 ^ 32 - 1)) ∧
    (s.ctx s.inp.ctx = some x → ∃ u, exec .preemptionRequest s = .next u ∧ ∀ c' ∈ x.cells, (u.cell c').preempt = true)

/-- R133, R130, R252: OUTBOUND_LIST_DRAIN hands the head of a cell's outbound list to the network once its counters allow or it has drawn them before its context was saved (R133), a multicast copy with MCAST set, and a slot whose messages have all left is free; MULTICAST_SLOT_RETURN gives a slot back to
its counter. -/
def Sys2Proof.Machine.OutboundEvents : Prop :=
  ∀ s c r x,
    (∀ m rest, s.inp.cell = c → CellOf s c r x → (s.cell c).outbound = m :: rest → listsStand s r c = false → gateOpen s r = true →
      (∀ d ∈ m.dests, d.1 = s.devId.toNat) → (m.paid = true ∨ countersReady (s.cell c) m = true) →
      ∃ u, exec .outboundListDrain s = .next u ∧ (u.cell c).outbound = rest
        ∧ u.net = s.net ++ m.dests.map (fun d => ⟨s.devId.toNat, r, d.1, d.2.1, d.2.2.1, 24, 0, sentCopy m.msg c d.2.2.2.isSome⟩)
        ∧ ∀ k < 4, ∀ a, (s.slot c k).ending = true → (s.slot c k).act = some a → (∀ m' ∈ rest, m'.msg.ser ≠ a.serial) → (u.slot c k).status = .free) ∧
    (∀ i, s.mcReturns[s.inp.idx]? = some (c, i) →
      ∃ u, exec .multicastSlotReturn s = .next u ∧ (u.cell c).freeCnt.getD i 0 = (s.cell c).freeCnt.getD i 0 + 1
        ∧ u.mcReturns = s.mcReturns.take s.inp.idx ++ s.mcReturns.drop (s.inp.idx + 1) ∧ (u.cell c).slots = (s.cell c).slots ∧ SameMemory s u)

/-- R55, R56: SPILL_TO_BUFFER_MOVE moves the oldest spilled message of a virtual PE with room into its input buffer; SPILL_OVERFLOW_EXTENSION attaches the extension, or contains the context
when there is none left. -/
def Sys2Proof.Machine.SpillEvents : Prop :=
  ∀ s c r x, s.inp.cell = c → CellOf s c r x →
    (∀ v ch m rest, (s.cell c).spill = (v, ch, m) :: rest → (x.vpe v).used < share x → (s.cell c).netHeld = [] → NoStreams s c →
      ∃ u, exec .spillToBufferMove s = .next u ∧ (u.cell c).spill = rest ∧ (vpeOf u r v).used = (x.vpe v).used + 1
        ∧ (vpeOf u r v).queues.getD (bits m.hdr 11 5) [] = (x.vpe v).queues.getD (bits m.hdr 11 5) [] ++ [m] ∧ SameMemory s u) ∧
    ((s.cell c).netHeld ≠ [] → (s.cell c).ext = false → 0 < x.extEntries →
      ∃ u, exec .spillOverflowExtension s = .next u ∧ (u.cell c).ext = true) ∧
    ((s.cell c).netHeld ≠ [] → ((s.cell c).ext = true ∨ x.extEntries = 0) → x.contained = false →
      ∃ u y, exec .spillOverflowExtension s = .next u ∧ u.ctx r = some y ∧ y.contained = true ∧ u.cells = s.cells)

/-- R179, R292: STREAM_OPEN claims a free slot for a STREAM-START, its queue register bound and its sequence started; STREAM_CLOSE starts the EOS activation on it once the queue is drained;
STREAM_SLOT_BUDGET_EXPIRY closes a stream whose budget has run out. -/
def Sys2Proof.Machine.StreamEvents : Prop :=
  ∀ s c r x,
    (∀ k v ch m rest, StartsNext s c r x k v ch m rest → opensStream (s.cell c) (x.vpe v) ch = true →
      let h := (s.cell c).handler ch
      ∃ u q, exec .streamOpen s = .next u ∧ (u.slot c k).status = .stream m.src ∧ (u.slot c k).q[h.sq.toNat]? = some q ∧ q.mode = .bound
        ∧ (u.slot c k).seq.run = some ⟨word (h.srb.toNat + 16 * h.slen.toNat), 0, 16, h.srb.toNat, 0, x.grid, recordAt s x.grid 0⟩
        ∧ (vpeOf u r v).streams.find ch = some m.src) ∧
    (∀ k src a m b, s.inp.cell = c → s.inp.slot = k → k < 4 → CellOf s c r x → (s.slot c k).status = .stream src → (s.slot c k).act = some a →
      ((x.vpe a.vpe).queues.getD a.ch []).find? (fun m => m.src == src && (msgKind m.hdr == 2 || msgKind m.hdr == 3)) = some m →
      msgKind m.hdr = 3 → drained (s.slot c k) = true → mayStart s c = true → GridSealed s x b →
      ∃ u e, exec .streamClose s = .next u ∧ (u.slot c k).status = .running ∧ (u.slot c k).act = some e ∧ e.msg = m ∧ e.vpe = a.vpe ∧ e.ch = a.ch
        ∧ (vpeOf u r a.vpe).streams.find a.ch = none) ∧
    (∀ k src a, s.inp.cell = c → s.inp.slot = k → k < 4 → (s.slot c k).status = .stream src → (s.slot c k).act = some a → (s.slot c k).tbud = 0 →
      (s.slot c k).ending = false →
      ∃ u, exec .streamSlotBudgetExpiry s = .next u ∧ (u.slot c k).status = .free ∧ bits (u.slot c k).fcause 0 8 = 8)

/-- R125 to R128: STREAM_REFILL_REQUEST reads the next entry of a pattern for a register with fewer than four entries held or in flight, here one element of the own scratchpad;
STREAM_REFILL_RETURN puts the oldest read in flight into the register. -/
def Sys2Proof.Machine.StreamRefill : Prop :=
  ∀ s c k, s.inp.cell = c → s.inp.slot = k → k < 4 → s.inp.reg < 8 →
    let s1 := { s with cur := .slot c k }
    let q := getQ s1 s.inp.reg
    let w := fmtWidth (layFmt q.lay)
    (∀ co o lo t ks, q.mode = .stream → q.ents.length + q.flight.length < 4 → q.asked < patCount q.pat → (∃ a, (s.slot c k).act = some a) →
      refillWaits s1 q q.asked = false → bit (patWord q.pat 7) 6 = false → patCoords q.pat q.asked = co → wideCoord co = false →
      outerBad q.lay co = false →
      layoutElem q.lay co = some (o, lo) → checkRef s1 (viewOf s1 s1.cur) o (elemBytes w) 1 5 = .ok t → OwnBytes s1 t (elemBytes w) ks →
      s.poisoned ks = false → localMatch s1 t (elemBytes w) true false = false →
      ∃ u e, exec .streamRefillRequest s = .next u ∧ ((u.slot c k).q[s.inp.reg]?.getD QReg.empty).flight = q.flight ++ [e]
        ∧ e.val = BitVec.ofNat 512 (elemValue w lo (readKeys s.mem ks)) ∧ e.bad = 0
        ∧ ((u.slot c k).q[s.inp.reg]?.getD QReg.empty).asked = q.asked + 1 ∧ SameMemory s u) ∧
    (∀ e rest, q.mode = .stream → q.flight = e :: rest → queueMatch s1 c s.inp.reg false true = false →
      ∃ u, exec .streamRefillReturn s = .next u ∧ (u.slot c k).q[s.inp.reg]? = some { q with ents := q.ents ++ [e], flight := rest } ∧ SameMemory s u)

namespace Sys2Proof.Machine

/-! ### Events of the memory side -/

/-- The list without its `i`-th entry. -/
def without {α : Type} (l : List α) (i : Nat) : List α := l.take i ++ l.drop (i + 1)

/-- The post counter of class `cls` of an agent (R46). -/
def counterOf (s : State) (a : Agent) (cls : Nat) : Nat := counter { s with cur := a } cls

/-- The count of a write that is performed or abandoned falls by one (R46, R52). -/
def Uncounted (s u : State) (p : Posted) : Prop := p.counted = true → counterOf u p.agent p.cls = counterOf s p.agent p.cls - 1

/-- The write `p` of bytes `b` at the place `l` is performed in `u`: the bytes stand there, every other byte reads as it did, its granules are full when it
is a fill, and it is no longer counted. -/
def Performed (s u : State) (p : Posted) (l : Located) (b : List Byte) (fill : Bool) : Prop :=
  StoredAt s u l b
    ∧ (fill = true → ∀ g ∈ granules l.keys, u.full.has g = true) ∧ (fill = false → u.full = s.full) ∧ Uncounted s u p

/-- A place for `n` bytes that no filter watches: distinct bytes, none of them in a page-table entry used. -/
def PlainPlace (l : Located) (n : Nat) : Prop := l.keys.length = n ∧ l.keys.Nodup ∧ (∀ a ∈ l.keys, a ∉ l.leaves) ∧ l.watched = false

/-- Context `r` is contained in `u`: it starts no activation, and no queue of it is READY or WAIT (R405). -/
def Contained (u : State) (r : Nat) : Prop :=
  (∀ x, u.ctx r = some x → x.contained = true) ∧ ∀ e ∈ u.queues, e.2.ctx = r → e.2.state ≠ 1 ∧ e.2.state ≠ 2

end Sys2Proof.Machine

/-- R46, R140, R146: POSTED_STORE_ACK takes a write in flight whose turn it is from its list; where its pages are present it is performed and its count falls; where a page is absent
it is held, still counted, and changes no byte; where the frame checks refuse it, it is discarded, its count falls, and its context is contained (an error record that this writes goes to the error log's ring, if one is set). -/
def Sys2Proof.Machine.PostedStoreAck : Prop :=
  ∀ s p o b fill, s.posted[s.inp.idx]? = some p → p.eff = .bytes o b fill → toRemote p = false →
    inOrder s p (s.posted.take s.inp.idx ++ if p.rel then s.held else []) (s.posted ++ s.held) = true →
    (∀ l, locateWrite s p [(o, b.length)] = .ok [l] → (∀ q ∈ s.held, q.agent = p.agent → clash s p q = false) → PlainPlace l b.length →
      ∃ u, exec .postedStoreAck s = .next u ∧ Performed s u p l b fill ∧ u.posted = without s.posted s.inp.idx ∧ u.held = s.held) ∧
    (∀ kind lvl off t, locateWrite s p [(o, b.length)] = .error (.absent kind lvl off, t) →
      ∃ u mark area, exec .postedStoreAck s = .next u ∧ u.held = s.held ++ [{ p with mark := mark, area := area }] ∧ u.posted = without s.posted s.inp.idx
        ∧ (otuFull s p = false ∨ s.errRing = none → SameMemory s u) ∧ ∀ a cls, counterOf u a cls = counterOf s a cls) ∧
    (∀ off t, locateWrite s p [(o, b.length)] = .error (.refused off, t) →
      ∃ u, exec .postedStoreAck s = .next u ∧ Contained u p.ctx ∧ Uncounted s u p ∧ u.posted = without s.posted s.inp.idx ∧ u.held = s.held
        ∧ (s.errRing = none → SameMemory s u))

/-- R52, R146, R20: POSTED_STORE_LOSS discards a store on its way to another device or to host memory, with its count, an error record and containment; HELD_WRITE_RELEASE performs a held
write whose page has come, with the shootdown of its entry completed, and answers one of another device or of the host; REMOTE_REFUSAL_RETURN releases the count of a refused store. -/
def Sys2Proof.Machine.LostHeldAndRefusedWrites : Prop :=
  ∀ s p,
    (s.posted[s.inp.idx]? = some p → (∃ o b fill, p.eff = .bytes o b fill) → bits p.desc.w0 57 3 = 4 ∨ bits p.desc.w0 57 3 = 5 →
      ∃ u, exec .postedStoreLoss s = .next u ∧ u.posted = without s.posted s.inp.idx ∧ Uncounted s u p ∧ Contained u p.ctx
        ∧ (s.errRing = none → SameMemory s u ∧ ∃ w, u.errors = s.errors ++ [w] ∧ bits (w.getD 0 0) 56 8 = 9)) ∧
    (∀ o b fill l, s.held[s.inp.idx]? = some p → p.eff = .bytes o b fill → toRemote p = false → locateWrite s p [(o, b.length)] = .ok [l] →
      PlainPlace l b.length → (∀ q ∈ s.held.take s.inp.idx, samePages s p q = false) →
      inOrder s p (s.held.take s.inp.idx) (s.posted ++ s.held) = true → (∀ a ∈ l.leaves, shooting s a = false) →
      ∃ u, exec .heldWriteRelease s = .next u ∧ Performed s u p l b fill ∧ u.held = without s.held s.inp.idx ∧ u.posted = s.posted
        ∧ u.answers = (match p.agent with | .remote _ => s.answers ++ [[0#8]] | .host _ => s.answers ++ [[0#8]] | _ => s.answers)) ∧
    (∀ i, s.inp.refused = .store i → s.posted[i]? = some p → toRemote p = true →
      ∃ u, exec .remoteRefusalReturn s = .next u ∧ u.posted = without s.posted i ∧ Uncounted s u p ∧ SameMemory s u)

/-- R50, R274, R35, R45, R20: a slot whose counter or queue has become ready leaves its wait and stays at its instruction; one whose full/empty form finds every granule full carries it out when
it is served first, and waits on while one is empty; an LDF so served loads its doubleword. MEMORY_RESPONSE and REMOTE_REFUSAL_RETURN carry out the instruction that waits, with the answer: a load gets its bytes, and one that another device refuses raises 0x04. -/
def Sys2Proof.Machine.WakesAndResponses : Prop :=
  ∀ s c k, s.inp.cell = c → s.inp.slot = k → k < 4 →
    (∀ i w, (i, w) ∈ [(Instr.counterWaitEnd, Wait.counter), (.queueWaitWake, .queue)] → (s.slot c k).wait = w →
      exec i s = .next (s.setSlot c k { s.slot c k with wait := .none })) ∧
    (∀ gs, (s.slot c k).wait = .fullEmpty gs →
      (∀ i t u, (∀ g ∈ gs, s.full.has g = true) → servedFirst s c k gs = true → (s.slot c k).pend = none → budgetOut (s.slot c k) = false →
        (s.slot c k).seq.run = none → ready { s with cur := .slot c k } = .ok (i, t) → runForm i t = .next u → exec .fullEmptyWake s = .next u) ∧
      (∀ rt ra w sc imm t v,
        let ks := span (scratchKey c (t.base + t.off)) 8
        ready { s with cur := .slot c k } = .ok (.ldf rt ra w sc imm, v) → gs = granules ks → (∀ g ∈ gs, v.full.has g = true) → servedFirst s c k gs = true →
        myTurn v gs = true → (∀ g ∈ gs, s.full.has g = true) → (s.slot c k).pend = none → budgetOut (s.slot c k) = false → (s.slot c k).seq.run = none →
        v.cur = .slot c k → checkRef v (viewOf v v.cur) (accessRef v ra imm 8) 8 1 0 = .ok t → t.home = .scratch c → t.off % 8 = 0 →
        localMatch v t 8 true false = false → WaitMet v w → MayRead v true → v.poisoned ks = false →
        ∃ u, exec .fullEmptyWake s = .next u ∧ Writes v u rt (extended 8 false (readKeys v.mem ks)) false ∧ getPc u = pcAfter v 4 ∧ (u.slot c k).wait = .none) ∧
      ((∃ g ∈ gs, s.full.has g = false) ∨ servedFirst s c k gs = false → exec .fullEmptyWake s = .next s)) ∧
    (∀ i len n sgn tn rt ra w acq imm t, loads i = some (len, n, sgn, tn, rt, ra, w, acq, imm) → (s.slot c k).pend = some i → (s.slot c k).rep = none →
      let o := accessRef { s with cur := .slot c k } ra imm n
      (∀ b leaves,
        let z := { s with cur := .slot c k }
        s.inp.agent = .slot c k → checkRef z (viewOf z z.cur) o n 1 0 = .ok t → windowRule t n false = true → Delivers z t n w acq b leaves →
        ∃ u, exec .memoryResponse s = .next u ∧ Writes z u rt (extended n sgn b) tn ∧ getPc u = pcAfter z len ∧ (u.slot c k).pend = none) ∧
      (let z := { s with cur := .slot c k, inp := { s.inp with n := 1 } }
       s.inp.refused = .access (.slot c k) → z.provisional = false → checkRef z (viewOf z z.cur) o n 1 0 = .ok t → t.home = .remote →
       routed s (bits t.desc.ptr 0 9) = true → WaitMet z w → NothingBefore z t n acq [] →
       exec .remoteRefusalReturn s = .next (abortActivation z c k 4 (fcauseOf 4 0 0 0) o 0))) ∧
    (∀ i t, (∀ a b n, i ≠ .bara a b n) → (∀ a b n, i ≠ .ecall a b n) → runForm i { s with cur := .slot c k } = .next t →
      s.inp.agent = .slot c k → (s.slot c k).pend = some i → (s.slot c k).rep = none → exec .memoryResponse s = .next t) ∧
    (∀ i t d, runForm i { s with cur := .dfc d } = .next t → s.inp.agent = .dfc d → (s.dfc d).pend = some i → exec .memoryResponse s = .next t) ∧
    (∀ i t, (∀ a b n, i ≠ .bara a b n) → (∀ a b n, i ≠ .ecall a b n) → runForm i { s with cur := .slot c k, inp := { s.inp with n := 1 } } = .next t →
      s.inp.refused = .access (.slot c k) → (s.slot c k).pend = some i → (s.slot c k).rep = none → exec .remoteRefusalReturn s = .next t) ∧
    (∀ i e, loads i = some e → runForm i s = exec i s)

/-- R247, R380, R227: BARRIER_ARRIVAL counts an arrival at the unit, or in the mailbox of unloaded barriers with the phase of Formula (16.1), and completes the BARA that waits with its
phase in rd; ECALL_HANDOVER passes a cell's oldest service record to the context's service ring and completes the ECALL that made it with rd = 0. -/
def Sys2Proof.Machine.BarrierAndServiceEvents : Prop :=
  ∀ s c k r x, k < 4 → CellOf s c r x → (s.slot c k).rep = none →
    (∀ rd ra rb, s.inp.bar = .slot c k → (s.slot c k).pend = some (.bara rd ra rb) → x.unloaded = false →
      let b := bits (getX { s with cur := .slot c k } ra) 0 8
      let e := x.barrier b
      ∃ u y, exec .barrierArrival s = .next u ∧ (rd ≠ 0 → (u.slot c k).x[rd.toNat]? = some (e.ph.setWidth 64)) ∧ (u.slot c k).pc = (s.slot c k).pc + 4
        ∧ (u.slot c k).pend = none ∧ (u.slot c k).ticket = some (b, e.ph) ∧ u.ctx r = some y ∧ SameMemory s u
        ∧ y.barrier b = (if e.a + 1 = e.n then { e with ph := e.ph + 1, a := 0 } else { e with a := e.a + 1 })) ∧
    (∀ i b, s.inp.bar = .stray i → s.arrivals[i]? = some (r, b) → x.unloaded = true →
      let e := x.barrier b
      let earlier := (x.mailbox.filter fun m => m.2 == b).length
      ∃ u y, exec .barrierArrival s = .next u ∧ u.ctx r = some y ∧ u.arrivals = without s.arrivals i ∧ u.cells = s.cells
        ∧ y.mailbox = x.mailbox ++ [(BitVec.ofNat 16 (e.ph.toNat + (e.a.toNat + earlier) / e.n.toNat), b)]) ∧
    (∀ w rest rd ra rb a, s.inp.cell = c → (s.cell c).records = w :: rest → bits (w.getD 0 0) 0 2 = k → (w.getD 1 0).toNat = r →
      (s.slot c k).pend = some (.ecall rd ra rb) → (s.slot c k).act = some a → a.serial.toNat = bits (w.getD 0 0) 2 36 →
      ∃ u y, exec .ecallHandover s = .next u ∧ (u.cell c).records = rest ∧ u.ctx r = some y ∧ y.serviced = x.serviced ++ [w.drop 1]
        ∧ (rd ≠ 0 → (u.slot c k).x[rd.toNat]? = some 0) ∧ (u.slot c k).pc = (s.slot c k).pc + 4 ∧ (u.slot c k).pend = none
        ∧ (u.dfc (dieOfCell c)).devent.getLsbD 6 = true ∧ SameMemory s u)

/-- R16, R20, R147: DESCRIPTOR_CACHE_FILL caches the object table's entry of a slot first among at most 64, and ends the waits for it; an access of another device to a slot of an object with S reads or writes
it, and one that its check refuses changes no byte. -/
def Sys2Proof.Machine.DescriptorCacheAndInboundAccess : Prop :=
  ∀ s r x, s.ctx r = some x →
    (∀ c slot, s.inp.cell = c → s.inp.idx = slot → (s.cell c).ctx = some r → 32 ≤ slot → slot < 4096 →
      (∀ e ∈ (s.cell c).dcache, e.1 ≠ slot) →
      ∃ u, exec .descriptorCacheFill s = .next u ∧ (u.cell c).dcache = ((slot, x.objs.getD slot Desc.zero) :: (s.cell c).dcache).take 64 ∧ u.ctxs = s.ctxs ∧ SameMemory s u
        ∧ ∀ k < 4, (s.slot c k).wait = .descriptor slot → (u.slot c k).wait = .none) ∧
    (s.inp.ctx = r → 32 ≤ s.inp.idx → s.inp.idx < 4096 → s.inp.off < 2 ^ 52 →
      let o := word (s.inp.idx * 2 ^ 52 + s.inp.off)
      let v : View := ⟨some r, none, 0, false, true⟩
      (∀ n t l, s.inp.access = .read n → checkRef s v o n 17 10 = .ok t → InMemory t → locate s v t n false = .ok l → PlainPlace l n →
        s.poisoned l.keys = false → extWaits s (.remote s.inp.dev) t n true = false →
        ∃ u, exec .inboundRemoteAccess s = .next u ∧ u.answers = s.answers ++ [0#8 :: s.bytesAt l] ∧ u.posted = s.posted
          ∧ ∀ a, a ∉ l.leaves → readByte u.mem a = readByte s.mem a) ∧
      (∀ b t l, s.inp.access = .write b → checkRef s v o b.length 18 11 = .ok t → InMemory t → locate s v t b.length true = .ok l →
        PlainPlace l b.length → extWaits s (.remote s.inp.dev) t b.length true = false →
        ∃ u, exec .inboundRemoteAccess s = .next u ∧ u.answers = s.answers ++ [[0#8]] ∧ StoredAt s u l b) ∧
      (∀ b h, s.inp.access = .write b → checkRef s v o b.length 18 11 = .error h →
        ∃ u, exec .inboundRemoteAccess s = .next u ∧ u.answers = s.answers ++ [[1#8]] ∧ u.ctxs = s.ctxs
          ∧ (s.errRing = none → SameMemory s u ∧ ∃ w, u.errors = s.errors ++ [w] ∧ bits (w.getD 0 0) 56 8 = 3)))

namespace Sys2Proof.Machine

/-! ### Fault service, migration, descriptors and debug -/

/-- Nothing that reports to the fault buffer of die `d` waits to be reissued at a flush (R151). -/
def NoMarks (s : State) (d : Nat) : Prop :=
  (∀ c k, dieOfCell c = d → k < 4 → (s.slot c k).held = false) ∧ (∀ h < 28, (s.hart d h).mark = false)
    ∧ (∀ p ∈ s.held, dieOfAgent s p.agent = d → p.mark = false) ∧ ∀ m ∈ s.marks, dieOfAgent s m.1 ≠ d

/-- A slot that a retry makes runnable goes on at once: its cell is not stopped and has no preemption pending, and its job's gate is open (R184, R387, R410). -/
def MayResume (s : State) (c k : Nat) : Prop :=
  ((s.cell c).stop = .no ∨ (s.cell c).stop = .stepping) ∧ (s.cell c).preempt = false ∧ s.stoppedAll = false
    ∧ (∀ t m n, (s.slot c k).gang ≠ .joining t m n)
    ∧ ∀ r x j y, CellOf s c r x → x.job = some j → s.jobs.find j = some y → y.gate = true

/-- The slot serves no stream. -/
def NoStream (s : State) (c k : Nat) : Prop := streamOf s ((s.cell c).ctx.getD 0) (s.slot c k) = none

/-- The slot runs again at its instruction, with its registers as they were (R145, R153). -/
def GoesOn (s u : State) (c k : Nat) : Prop :=
  (u.slot c k).status = .running ∧ (u.slot c k).pc = (s.slot c k).pc ∧ (u.slot c k).x = (s.slot c k).x ∧ (u.slot c k).v = (s.slot c k).v
    ∧ (u.slot c k).act = (s.slot c k).act

/-- The object page that a fault event names. -/
def pageNamed (s : State) : Nat × Nat × Nat := (s.inp.ctx, s.inp.idx, s.inp.off)

/-- Only the page-table entry at `a` differs, and it holds `e` (R138). -/
def EntryWritten (s u : State) (a : Nat) (e : Word) : Prop :=
  readWord u.mem a = e ∧ ∀ b, b ∉ span a 8 → readByte u.mem b = readByte s.mem b

/-- The entry `e` at the address `a` puts no page on a page table, and no table outside the HBM4 range (R135). -/
def KeepsTables (s : State) (a : Nat) (e : Word) : Prop :=
  tablesApart s = true → tablesApart { s with mem := writeKeys s.mem (span a 8) (bytesOf 8 e.toNat) } = true

end Sys2Proof.Machine

/-- R150, R152: FAULT_BUFFER_FLUSH takes the records before the new TAIL, counts a generation, and changes nothing else when no access carries the mark of R151; FAULT_SERVICE_BATCH sends a slot
parked on a page that is present and whose shootdown is complete its retry, and flushes every record. -/
def Sys2Proof.Machine.FaultBufferEvents : Prop :=
  ∀ s d, s.inp.die = d → d < 4 → NoMarks s d →
    let b := s.fault d
    (∀ t, t = s.inp.n % 4096 → exec .faultBufferFlush s = .next (s.setFault d { b with
        recs := b.recs.drop (if t = b.tail.toNat ∧ b.recs.length = 4096 then 4096 else (t + 4096 - b.tail.toNat) % 4096)
        tail := BitVec.ofNat 12 t, gen := b.gen + 1 })) ∧
    (∀ rec4 c k cause retried, b.recs = [rec4] → b.head = b.tail + 1 → s.inp.words = [] → s.inp.bytes = [] → shootDone s = true → recordAgent (rec4.getD 2 0) = .slot c k → k < 4 →
      pageReady s (recordPage rec4) = true → (s.slot c k).status = .parked cause retried (some (recordPage rec4)) → MayResume s c k → NoStream s c k →
      ∃ u, exec .faultServiceBatch s = .next u ∧ GoesOn s u c k ∧ (u.fault d).recs = [] ∧ (u.fault d).tail = b.head ∧ (u.fault d).gen = b.gen + 1)

/-- R153, R155, R147, R154: a retry for a page that is present, its entry's shootdown complete, makes the slot parked on it go on, and a hart stopped at it; a relayed retry does so for a slot parked with KIND REMOTE; a page that
cannot be made present is reported and wakes no slot and releases no write. -/
def Sys2Proof.Machine.RetriesAndUnavailablePages : Prop :=
  ∀ s,
    (∀ c k cause retried pg, s.inp.agent = .slot c k → k < 4 → (s.slot c k).status = .parked cause retried (some pg) → MayResume s c k → NoStream s c k →
      (samePage s (pageNamed s) pg = true → pageReady s (pageNamed s) = true → ∃ u, exec .faultRetry s = .next u ∧ GoesOn s u c k) ∧
      (samePage s (pageNamed s) pg = false ∨ pageReady s (pageNamed s) = false → exec .faultRetry s = .next s)) ∧
    (∀ d h pg, s.inp.agent = .hart d h → (s.hart d h).stopped = some pg → samePage s (pageNamed s) pg = true → pageReady s (pageNamed s) = true →
      ∃ u, exec .faultRetry s = .next u ∧ (u.hart d h).stopped = none ∧ (u.hart d h).fifo = (s.hart d h).fifo ∧ u.cells = s.cells) ∧
    (∀ c k retried, s.inp.agent = .slot c k → k < 4 → (s.slot c k).status = .parked 5 retried none → MayResume s c k → NoStream s c k →
      ∃ u, exec .remoteRetryRelay s = .next u ∧ GoesOn s u c k) ∧
    (∀ x, s.ctx s.inp.ctx = some x → s.errRing = none → pagePresent s (pageNamed s) = false → (∀ e ∈ s.harts, ∀ pg,
      ((s.hart (e.1 / 28) (e.1 % 28)).stopped = some pg ∨ (s.hart (e.1 / 28) (e.1 % 28)).kickStop = some pg) → samePage s (pageNamed s) pg = false) →
      ∃ u, exec .pageUnavailable s = .next u ∧ u.cells = s.cells ∧ u.held = s.held ∧ SameMemory s u
        ∧ ∃ w, u.errors = s.errors ++ [w] ∧ bits (w.getD 0 0) 56 8 = 11)

/-- R155, R156, R141: MIGRATION first sets MIG in the leaf entry alone; when that shootdown is over it copies the page to the new frame and writes the entry with that frame and MIG clear;
MIGRATION_ABANDON clears MIG in the old mapping and poisons the granules named, and the page is not moved again without the host; a shootdown is over when the writes translated under the old entry have
landed, and a host's write of the entry is answered then. -/
def Sys2Proof.Machine.MigrationEvents : Prop :=
  ∀ s x frame leafAt lvl leaf, leafOf s (pageNamed s) = some (frame, leafAt, lvl, leaf) → s.ctx s.inp.ctx = some x →
    let movable := movedPage s (pageNamed s) ∉ x.noMove ∨ s.inp.flag = true
    (¬movable → exec .migration s = .next s) ∧
    (movable → bit leaf 7 = false → KeepsTables s leafAt (leaf ||| 0x80) → ∃ u, exec .migration s = .next u ∧ EntryWritten s u leafAt (leaf ||| 0x80)
      ∧ u.shoot = s.shoot ++ [(leafAt, (s.posted.zipIdx.filter fun e => mayLand s e.1 e.2).map (·.1))]) ∧
    (movable → bit leaf 7 = true → shooting s leafAt = false → Memory.wf s.mem → framePoisoned s frame (pageSize lvl) = false →
      s.inp.word.toNat % pageSize lvl = 0 → inPartition x.ranges s.inp.word.toNat (pageSize lvl) = true →
      inHome (bits (x.objs.getD s.inp.idx Desc.zero).w0 57 3) s.inp.word.toNat = true →
      KeepsTables { s with mem := copyRange s.mem frame s.inp.word.toNat (pageSize lvl) } leafAt (word (fields [(7, leaf.toNat % 2 ^ 7), (1, 0), (40, s.inp.word.toNat / 256), (16, 0)])) →
      ∃ u, exec .migration s = .next u
        ∧ (∀ i < pageSize lvl, s.inp.word.toNat + i ∉ span leafAt 8 → readByte u.mem (s.inp.word.toNat + i) = readByte s.mem (frame + i))
        ∧ (∀ a, a ∉ span leafAt 8 → ¬ (s.inp.word.toNat ≤ a ∧ a < s.inp.word.toNat + pageSize lvl) → readByte u.mem a = readByte s.mem a)
        ∧ bits (readWord u.mem leafAt) 8 40 * 256 = s.inp.word.toNat ∧ bits (readWord u.mem leafAt) 0 7 = bits leaf 0 7
        ∧ bit (readWord u.mem leafAt) 7 = false ∧ u.posted = s.posted ∧ u.held = s.held) ∧
    (bit leaf 7 = true → s.errRing = none → KeepsTables s leafAt (leaf &&& ~~~(0x80 : Word)) →
      ∃ u, exec .migrationAbandon s = .next u ∧ EntryWritten s u leafAt (leaf &&& ~~~(0x80 : Word))
      ∧ (∃ y, u.ctx s.inp.ctx = some y ∧ movedPage s (pageNamed s) ∈ y.noMove)
      ∧ (∀ w ∈ s.inp.words, frame / 16 ≤ w.toNat → w.toNat < (frame + pageSize lvl) / 16 → u.poison.has w.toNat = true)
      ∧ ∃ w, u.errors = s.errors ++ [w] ∧ bits (w.getD 0 0) 56 8 = 6) ∧
    (∀ l, s.shoot[s.inp.idx]? = some l →
      let rest := without s.shoot s.inp.idx
      ((∀ p ∈ l.2, p ∉ s.posted) → s.fw.waiting = [] → exec .pageShootdownComplete s = .next { s with shoot := rest }) ∧
      (∀ seq, (∀ p ∈ l.2, p ∉ s.posted) → s.fw.waiting = [(seq, l.1)] → (∀ e ∈ rest, e.1 ≠ l.1) →
        exec .pageShootdownComplete s = .next (answerSeq { s with shoot := rest, fw := { s.fw with waiting := [] } } seq 0 0)) ∧
      ((∃ p ∈ l.2, p ∈ s.posted) → exec .pageShootdownComplete s = .next s))

/-- R18, R11, R396: DESCRIPTOR_UPDATE clears V of the entry and nothing else, and is rejected for a context whose interface is locked; once the shootdown is complete the new descriptor stands with GEN one higher, and no cell of the context caches
the slot. -/
def Sys2Proof.Machine.DescriptorEvents : Prop :=
  ∀ s x, s.ctx s.inp.ctx = some x → 32 ≤ s.inp.idx → s.inp.idx < 4096 → descAllowed s s.inp.ctx x s.inp.desc = true →
    let d := x.objs.getD s.inp.idx Desc.zero
    (configLocked s s.inp.ctx = true → ∃ u, exec .descriptorUpdate s = .next u ∧ u.ctxs = s.ctxs ∧ u.mem = s.mem ∧ (u.iface x.fn).tdisp = 3) ∧
    (configLocked s s.inp.ctx = false → ∃ u y, exec .descriptorUpdate s = .next u ∧ u.ctx s.inp.ctx = some y ∧ y.objs.getD s.inp.idx Desc.zero = { d with w0 := d.w0 &&& ~~~(1 <<< 63 : Word) }
      ∧ (∀ o, o ≠ s.inp.idx → y.objs.find o = x.objs.find o) ∧ u.cells = s.cells ∧ u.mem = s.mem) ∧
    (bit d.w0 63 = false → let n : Desc := { s.inp.desc with w3 := word ((bits d.w3 0 16 + 1) % 2 ^ 16) }
      (tablesApart s = true → tablesApart (s.onCtx s.inp.ctx fun y => { y with objs := y.objs.put s.inp.idx n }) = true) →
      ∃ u y, exec .descriptorShootdownComplete s = .next u ∧ u.ctx s.inp.ctx = some y
        ∧ y.objs.getD s.inp.idx Desc.zero = n
        ∧ (∀ o, o ≠ s.inp.idx → y.objs.find o = x.objs.find o) ∧ (∀ c ∈ x.cells, ∀ e ∈ (u.cell c).dcache, e.1 ≠ s.inp.idx) ∧ u.mem = s.mem)

/-- R409 to R412: a stop is requested by a host instruction that the lead takes, lands when no slot of the cell runs an activation, and is signalled on the report vector; a stopped cell resumes or steps; TRACE_SAMPLE writes a SAMPLE
record for a slot that samples and whose sample period has passed, and nothing but the trace object and the time of that sample. -/
def Sys2Proof.Machine.DebugEvents : Prop :=
  ∀ s c r x, s.inp.cell = c → CellOf s c r x →
    ((s.cell c).stop = .no → takesHost s = true → exec .debugStopRequest s = .next (answerHost (s.setCell c { s.cell c with stop := .stopping 0, stopBy := [] }) 0 0)) ∧
    (∀ src, (s.cell c).stop = .stopping src → (∀ l ∈ (s.cell c).slots.toList, l.status ≠ .running) →
      ∃ u, exec .stopLands s = .next u ∧ (u.cell c).stop = .stopped src ∧ (u.cell c).slots = (s.cell c).slots
        ∧ ((s.iface x.fn).off = false → (s.iface x.fn).masked.has x.reportVec = false → u.msi = s.msi ++ [(x.fn, x.reportVec)])) ∧
    (∀ src l, (s.cell c).stop = .stopping src → l ∈ (s.cell c).slots.toList → l.status = .running → exec .stopLands s = .next s) ∧
    (∀ src, (s.cell c).stop = .stopped src → takesHost s = true → (∀ k < 4, ∀ a b, (s.slot c k).status ≠ .parked a true b) →
      exec .debugResume s = .next (answerHost (s.setCell c { s.cell c with stop := .no }) 0 0)
        ∧ exec .debugStep s = .next (answerHost (s.setCell c { s.cell c with stop := .stepping }) 0 0)) ∧
    (∀ k a o n, o = x.trace → bits o 0 52 = 0 → (s.slot c k).status = .running → (s.slot c k).act = some a → k < 4 →
      (∀ k' < 4, k' ≠ k → (s.slot c k').status ≠ .running) → 0 < samplePeriod a → bit a.dbg 15 = true →
      bits (x.objs.getD (bits o 52 12) Desc.zero).w0 57 3 = 1 → n = (bits (x.objs.getD (bits o 52 12) Desc.zero).w0 0 52 - 64) / 64 → 0 < n →
      (bits (firmwareRead s x o) 0 32 + 2 ^ 32 - bits (firmwareRead s x (o + 8)) 0 32) % 2 ^ 32 ≠ n →
      (s.cell c).sampled.getD k 0 + 1000 * samplePeriod a ≤ s.time.toNat →
      ∃ u rec8, exec .traceSample s = .next u
        ∧ u = { s.setCell c { s.cell c with sampled := (s.cell c).sampled.put k s.time.toNat } with mem := u.mem } ∧ rec8.length = 8 ∧ bits (rec8.getD 0 0) 56 8 = 9
        ∧ bits (firmwareRead u x o) 0 32 = (bits (firmwareRead s x o) 0 32 + 1) % 2 ^ 32
        ∧ readKeys u.mem ((firmwareKeys s x (o + word (64 + 64 * (bits (firmwareRead s x o) 0 32 % n))) 64).map (·.1)) = wordBytes rec8)

namespace Sys2Proof.Machine

/-! ### Engine harts -/

/-- The place lies in a scratchpad or in a vault, at an address that its memory has. -/
def OnChip (t : Target) : Prop := (∃ c, c < 4096 ∧ t.home = .scratch c ∧ t.base < 2 ^ 18 ∧ t.len < 2 ^ 52) ∨ ∃ g, t.home = .vault g

/-- The keys of `n` bytes at a place in a scratchpad or a vault. -/
def chipKeys (t : Target) (n : Nat) : List Nat :=
  match t.home with
  | .scratch c => span (scratchKey c (t.base + t.off)) n
  | .vault g => span (vaultKey g (t.base + t.off)) n
  | _ => []

/-- The place of an element of `w` bits for a read, or with `wr` for a write. -/
def elemAt (s : State) (v : View) (wr : Bool) (w : Nat) (x : ElemRef) : Located :=
  match locate s v x.t (elemBytes w) wr with
  | .ok l => l
  | .error _ => ⟨[], [], false, none⟩

/-- The keys of an element of `w` bits. -/
def partKeys (s : State) (v : View) (wr : Bool) (w : Nat) (x : ElemRef) : List Nat := (elemAt s v wr w x).keys

/-- The value of an element of `w` bits whose bytes stand at `ks` (R22). -/
def partAt (s : State) (w : Nat) (x : ElemRef) (ks : List Nat) : Nat := elemValue w x.lo (readKeys s.mem ks)

/-- The elements lie in memory of this device that needs no key, on pages that are present and take a write where `wr` says so. -/
def Present (s : State) (v : View) (wr : Bool) (w : Nat) (l : List ElemRef) : Prop :=
  ∀ x ∈ l, isRemoteHome x.t = false ∧ ∃ a, locate s v x.t (elemBytes w) wr = .ok a ∧ a.key = none ∧ a.keys.length = elemBytes w ∧ a.keys.Nodup

/-- None of the elements is poisoned. -/
def Clean (s : State) (v : View) (wr : Bool) (w : Nat) (l : List ElemRef) : Prop := ∀ x ∈ l, s.poisoned (partKeys s v wr w x) = false

/-- No two of the elements share a bit. -/
def Apart (s : State) (v : View) (w : Nat) (l : List ElemRef) : Prop :=
  l.Pairwise fun x y => (∀ a ∈ partKeys s v true w x, a ∉ partKeys s v true w y) ∨ (w < 8 ∧ x.lo ≠ y.lo)

/-- The bytes at `ks` and those of the destinations `l` are no bytes of the page-table entries `lv`, nor of one another. -/
def Separate (s : State) (v : View) (w : Nat) (l : List ElemRef) (lv ks : List Nat) : Prop :=
  (∀ a ∈ lv, a ∉ ks) ∧ ∀ x ∈ l, ∀ a ∈ partKeys s v true w x, a ∉ lv ∧ a ∉ ks

/-- The leaf entries that elements use. -/
def leavesOf (s : State) (v : View) (wr : Bool) (w : Nat) (l : List ElemRef) : List Nat := l.flatMap fun x => (elemAt s v wr w x).leaves

/-- The mailbox of a kick's block stands at `ks`, on the chip (R119), and no write of the hart is on its way or held before it. -/
def MailboxAt (s : State) (d h : Nat) (k : Kick) (b : List Word) (ks : List Nat) : Prop :=
  (∃ t, checkRef s (kickView s k) (blkWord b 4) 8 2 7 = .ok t ∧ OnChip t ∧ ks = chipKeys t 8) ∧ ∀ q ∈ s.posted ++ s.held, q.agent ≠ .hart d h

/-- Hart (d, h), which does not wait for a page, has kick `k` with block `b` at the head of its FIFO and its microcode has only forms of its subset (R104); in `t`
the read of the block has set its A bits (R142), and its mailbox is at `ks`. -/
def AtHead (s t : State) (d h : Nat) (k : Kick) (rest : List Kick) (b : List Word) (ks : List Nat) : Prop :=
  s.inp.die = d ∧ s.inp.hart = h ∧ (s.hart d h).fifo = k :: rest ∧ (s.hart d h).stopped = none ∧ microLegal s.fw.micro s.fw.micro.length = true
    ∧ (∃ u, readBlock s d h k = .ok (b, u) ∧ t = noteReads s (.hart d h) k.ctx u) ∧ MailboxAt t d h k b ks

/-- The layouts of the operation at the head of hart (d, h), as it read them once: at its start, or before it stopped at a page (R27, R111). -/
def headLays (s : State) (d h : Nat) (k : Kick) (b : List Word) : List Vec := (s.hart d h).lays.getD (blockLays s (kickView s k) b)

/-- The operation of kick `k` has ended: its FIFO entry is gone, its mailbox holds `m`, the elements in `l` hold their values, and no byte differs but theirs and
those of the page-table entries `lv`. -/
def EndedWith (s u : State) (d h : Nat) (rest : List Kick) (ks : List Nat) (m : Word) (v : View) (w : Nat) (l : List (ElemRef × Nat)) (lv : List Nat) : Prop :=
  (u.hart d h).fifo = rest ∧ readKeys u.mem ks = bytesOf 8 m.toNat ∧ (∀ e ∈ l, partAt u w e.1 (partKeys s v true w e.1) = e.2)
    ∧ (∀ e ∈ l, anyScratch e.1.t = true → ∀ g ∈ granules (partKeys s v true w e.1), u.full.has g = true)
    ∧ ∀ a, a ∉ ks → a ∉ lv → (∀ e ∈ l, a ∉ partKeys s v true w e.1) → readByte u.mem a = readByte s.mem a

/-- The copy operations by event (Table 5.3). -/
def copyEvents : List (Instr × Nat) := [(.engineCopy, 1), (.engineGather, 8), (.engineScatter, 9)]

/-- The collective operations by event (Table 5.3). -/
def collectiveEvents : List (Instr × Nat) := [(.engineAllreduce, 0x10), (.engineAllgather, 0x11), (.engineReducescatter, 0x12)]

end Sys2Proof.Machine

/-- R106, R108, R105: a kick store whose check passes enters its hart's FIFO of 16, or waits for room, and is acknowledged when it is accepted; one that is refused records its subcause in KERR and in
an error record and is acknowledged too; a block index at or above the object's block count is refused with subcause 3. -/
def Sys2Proof.Machine.EngineKicks : Prop :=
  ∀ s,
    (∀ p d h v, s.posted[s.inp.idx]? = some p → p.eff = .kick d h v → inOrder s p (s.posted.take s.inp.idx ++ s.held) (s.posted ++ s.held) = true →
      (s.hart d h).kickStop = none →
      let k := kickOf p v
      let s1 := { s with posted := without s.posted s.inp.idx }
      (∀ r, kickCheck s1 d h k v = .ok r → (s.hart d h).waiting = [] → (s.hart d h).fifo.length < 16 →
        ∃ u, exec .engineKick s = .next u ∧ (u.hart d h).fifo = (s.hart d h).fifo ++ [{ k with post := none }] ∧ u.posted = s1.posted
          ∧ Uncounted s u p ∧ SameMemory (noteReads s1 (.hart d h) k.ctx r) u ∧ ∀ q, p.agent = .queue q → (u.queue q).answer = some true ∧ (u.queue q).copies = (s.queue q).copies + if p.mark then 1 else 0) ∧
      (∀ r, kickCheck s1 d h k v = .ok r → ((s.hart d h).waiting ≠ [] ∨ 16 ≤ (s.hart d h).fifo.length) →
        exec .engineKick s = .next ((noteReads s1 (.hart d h) k.ctx r).setHart d h { s.hart d h with waiting := (s.hart d h).waiting ++ [k] })) ∧
      (∀ n r, kickCheck s1 d h k v = .error (.sub n none, r) →
        ∃ u, exec .engineKick s = .next u ∧ (u.hart d h).kerr.getD p.ctx 0 = n ∧ (u.hart d h).fifo = (s.hart d h).fifo ∧ Uncounted s u p
          ∧ (∀ q, p.agent = .queue q → (u.queue q).answer = some false)
          ∧ (s.errRing = none → SameMemory (noteReads s1 (.hart d h) k.ctx r) u ∧ ∃ w, u.errors = s.errors ++ [w] ∧ bits (w.getD 0 0) 56 8 = 12))) ∧
    (∀ d h k v x t, bits v 16 48 = 0 → s.ctx k.ctx = some x →
      resolve s ⟨some k.ctx, none, 0, false, true⟩ (word (bits (x.blocks.getD d 0) 52 12 * 2 ^ 52)) = .ok t → t.len / 64 ≤ k.idx →
      kickCheck s d h k v = .error (.sub 3 none, ([], []))) ∧
    (∀ k rest, let d := s.inp.die
      let h := s.inp.hart
      (s.hart d h).waiting = k :: rest → (s.hart d h).fifo.length < 16 →
      ∃ u, exec .kickAccept s = .next u ∧ (u.hart d h).fifo = (s.hart d h).fifo ++ [{ k with post := none }] ∧ (u.hart d h).waiting = rest
        ∧ (∀ p, k.post = some p → Uncounted s u p) ∧ SameMemory s u)

/-- R110, R111, R113, R114, R119: a NOP, and a block whose OP the hart does not run, writes only its mailbox; COPY, GATHER and SCATTER write every source element's bits unchanged to its
destination element, whatever overlaps, count them in the mailbox, and touch nothing else. -/
def Sys2Proof.Machine.EngineCopies : Prop :=
  ∀ s t d h k rest b ks, AtHead s t d h k rest b ks →
    (blkOp b = 0 ∨ (opKinds (blkOp b)).contains (hartKind h) = false →
      ∃ u, exec .engineNop s = .next u ∧ EndedWith t u d h rest ks (mailboxWord b (if blockLegal h b then 0 else 1) 0 0) (kickView t k) 0 [] []) ∧
    (∀ i op es ed idx r l, (i, op) ∈ copyEvents → blkOp b = op → blockLegal h b = true → opLayouts t (kickView t k) b (headLays s d h k b) = .ok (es, ed) →
      (op = 1 ∨ tuples b = [] → (idx, r) = ([], [], [])) →
      (op ≠ 1 → tuples b ≠ [] → eWords t (.hart d h) (kickView t k) (blkWord b 5) (blkN b 1) 4 = .ok (idx, r)) →
      items t (kickView t k) b es ed op 2 idx (tuples b) = (l, none) →
      let v := kickView t k
      let w := fmtWidth (layFmt es)
      let t1 := noteReads t (.hart d h) k.ctx r
      let lv := leavesOf t v false w (l.map (·.src)) ++ leavesOf t1 v true w (l.map (·.dst))
      Present t v false w (l.map (·.src)) → Clean t v false w (l.map (·.src)) → Present t1 v true w (l.map (·.dst)) → Apart t1 v w (l.map (·.dst)) →
      Separate t1 v w (l.map (·.dst)) lv ks →
      ∃ u, exec i s = .next u
        ∧ EndedWith t1 u d h rest ks (mailboxWord b 0 0 l.length) v w (l.map fun x => (x.dst, partAt t w x.src (partKeys t v false w x.src))) lv)

/-- R115, R116, R117: REDUCE with O = 0 adds every source element into its destination by Formula (5.1) and puts the flags into its mailbox and the context's flag word; with O = 1 it enters a
group on hart 24 + GRP mod 4, or waits there while 64 groups are open. -/
def Sys2Proof.Machine.EngineReductions : Prop :=
  ∀ s t d h k rest b ks, AtHead s t d h k rest b ks → blkOp b = 2 → blockLegal h b = true →
    (∀ es ed l x, blkOrd b = false → opLayouts t (kickView t k) b (headLays s d h k b) = .ok (es, ed) →
      items t (kickView t k) b es ed 2 3 [] (tuples b) = (l, none) →
      let v := kickView t k
      let w := fmtWidth (layFmt es)
      let sum (e : Item) := reduceAdd (blkRfmt b) (partAt t w e.dst (partKeys t v true w e.dst)) (partAt t w e.src (partKeys t v false w e.src))
      let fl := (l.map fun e => (sum e).2).foldl (· ||| ·) 0
      let lv := leavesOf t v false w (l.map (·.src)) ++ leavesOf t v true w (l.map (·.dst))
      s.ctx k.ctx = some x → Present t v false w (l.map (·.src)) → Clean t v false w (l.map (·.src)) → Present t v true w (l.map (·.dst)) → Clean t v true w (l.map (·.dst)) →
      Apart t v w (l.map (·.dst)) → Separate t v w (l.map (·.dst)) lv ks →
      ∃ u y, exec .engineReduce s = .next u ∧ EndedWith t u d h rest ks (mailboxWord b 0 fl l.length) v w (l.map fun e => (e.dst, (sum e).1)) lv
        ∧ u.ctx k.ctx = some y ∧ y.flags = x.flags ||| fl) ∧
    (∀ es ed, blkOrd b = true → opLayouts t (kickView t k) b (headLays s d h k b) = .ok (es, ed) →
      let ch := 24 + blkGrp b % 4
      (∀ g ∈ (s.hart d ch).groups, ¬ (g.1 = k.ctx ∧ g.2.1 = blkGrp b)) → h < 16 →
      let c : Contribution := ⟨k, b, headLays s d h k b, none⟩
      ∃ u, exec .engineReduce s = .next u ∧ (u.hart d h).fifo = rest ∧ SameMemory t u
        ∧ (u.hart d ch).groups = (if (s.hart d ch).groups.length < 64 then (s.hart d ch).groups ++ [(k.ctx, blkGrp b, [c])] else (s.hart d ch).groups)
        ∧ (u.hart d ch).late = (if (s.hart d ch).groups.length < 64 then (s.hart d ch).late else (s.hart d ch).late ++ [c]))

/-- R117: when the NCON contributions of a group are in, its hart adds the sources of one after the other, in key order, into the destination elements, writes each element once, and then every
contributor's mailbox, with the same flags and count; the group is gone. -/
def Sys2Proof.Machine.OrderedGroupCompletes : Prop :=
  ∀ s d grp r cs c rest (L : List (List Item × List (Nat × Bool × Located))) (boxes : List (List Nat)), s.inp.die = d → s.inp.ctx = r → s.inp.idx = grp →
    let h := 24 + grp % 4
    let v := kickView s c.kick
    let w := fmtWidth (rfmtCode (blkRfmt c.block))
    let dst := ((L.map (·.1)).headD []).map (·.dst)
    let sums := foldGroup (blkRfmt c.block) (dst.map fun x => partAt s w x (partKeys s v true w x)) (L.map fun e => e.2.map (·.1))
    let lv := (L.flatMap fun e => e.2.flatMap fun y => y.2.2.leaves) ++ leavesOf s v true w dst
    (s.hart d h).groups.find? (fun g => g.1 == r && g.2.1 == grp) = some (r, grp, cs) → (s.hart d h).stopped = none → (s.hart d h).late = [] →
    sorted s cs = c :: rest →
    blkNcon c.block ≤ cs.length → (∀ e ∈ cs, blkOp e.block = 2) → allSources s (.hart d h) (c :: rest) = .ok L →
    (∀ e ∈ L, ∀ y ∈ e.2, y.2.1 = false) → Present s v true w dst → Clean s v true w dst → Apart s v w dst →
    boxes.length = cs.length → (∀ (j : Nat) e ks, cs[j]? = some e → boxes[j]? = some ks → MailboxAt s d h e.kick e.block ks) →
    boxes.flatten.Nodup → Separate s v w dst lv boxes.flatten →
    ∃ u, exec .reduceGroupComplete s = .next u
      ∧ (∀ e ∈ List.zip dst sums.1, partAt u w e.1 (partKeys s v true w e.1) = e.2)
      ∧ (∀ (j : Nat) e ks, cs[j]? = some e → boxes[j]? = some ks → readKeys u.mem ks = bytesOf 8 (mailboxWord e.block 0 sums.2 dst.length).toNat)
      ∧ (∀ a, a ∉ boxes.flatten → a ∉ lv → (∀ x ∈ dst, a ∉ partKeys s v true w x) → readByte u.mem a = readByte s.mem a)
      ∧ (u.hart d h).groups.find? (fun g => g.1 == r && g.2.1 == grp) = none

namespace Sys2Proof.Machine

/-- The members `l` (die, hart, contribution) of a collective whose members `ms` are all of this device, have entered and agree, with no word of another device (R118). -/
structure Complete (s : State) (c : Contribution) (ms : List (Nat × Nat × Nat)) (l : List (Nat × Nat × Contribution)) : Prop where
  here : ∀ m ∈ ms, m.1 = s.devId.toNat
  length : l.length = ms.length
  entered : ∀ (i : Nat) m, ms[i]? = some m → ∃ x, enteredMember s i (blkGrp c.block) m = some x ∧ l[i]? = some (m.2.1, x.1, x.2)
  agree : ∀ e ∈ l, agreesWith s c.block ms e = true
  unsent : ∀ e ∈ l, e.2.2.src = none
  unfailed : exchangeFailed s c.kick.ctx (blkGrp c.block) c.block ms = false
  own : ∃ e ∈ l, e.2.2 = c

/-- The source elements of a member, and their values and leaf entries as its hart reads them. -/
def SourceOf (s : State) (w : Nat) (m : Nat × Nat × Contribution) (vals lv : List Nat) : Prop :=
  let v := kickView s m.2.2.kick
  ∃ es ed xs, opLayouts s v m.2.2.block m.2.2.lays = .ok (es, ed) ∧ collElems s v es (blkWord m.2.2.block 1) m.2.2.block (blkN m.2.2.block 1) 0 1 = .ok xs
    ∧ Present s v false w xs ∧ Clean s v false w xs ∧ fmtWidth (layFmt es) = w ∧ vals = xs.map (fun x => partAt s w x (partKeys s v false w x))
    ∧ lv = leavesOf s v false w xs

/-- What a member writes: its kick's view, its elements and their values. -/
abbrev MemberWrites := View × List (ElemRef × Nat)

/-- The destinations of all members are present, none poisoned where `arith` says so, and no two of them, no mailbox in `ks` and no entry in `lv` share a byte. -/
def Writable (s : State) (w : Nat) (arith : Bool) (ws : List MemberWrites) (lv ks : List Nat) : Prop :=
  (∀ x ∈ ws, Present s x.1 true w (x.2.map (·.1)) ∧ (arith = true → Clean s x.1 true w (x.2.map (·.1))) ∧ Apart s x.1 w (x.2.map (·.1))
    ∧ Separate s x.1 w (x.2.map (·.1)) lv ks) ∧
  ws.Pairwise fun x y => ∀ e ∈ x.2, ∀ f ∈ y.2, ∀ a ∈ partKeys s x.1 true w e.1, a ∉ partKeys s y.1 true w f.1

end Sys2Proof.Machine

/-- R118, Formula (5.2): a member of a collective enters its hart and waits for the others; when every member of this device has entered, each of them gets its destination elements: for ALLREDUCE
and REDUCESCATTER the sums in member order, and all members leave their harts. -/
def Sys2Proof.Machine.Collectives : Prop :=
  ∀ s d h i op, (i, op) ∈ collectiveEvents → s.inp.die = d → s.inp.hart = h → (s.hart d h).stopped = none →
    (∀ t k rest b es ed ms r r' j m, (s.hart d h).fifo = k :: rest → microLegal s.fw.micro s.fw.micro.length = true →
      (∃ r, readBlock s d h k = .ok (b, r) ∧ t = noteReads s (.hart d h) k.ctx r) → blkOp b = op → blockLegal h b = true →
      opLayouts t (kickView t k) b (headLays s d h k b) = .ok (es, ed) → memberList t (.hart d h) k b = .ok (ms, r) →
      let t1 := noteReads t (.hart d h) k.ctx r
      memberList t1 (.hart d h) k b = .ok (ms, r') → ms[blkMe b]? = some (s.devId.toNat, d, k.ctx) →
      (∀ m ∈ ms, m.1 = s.devId.toNat ∧ reachable s k.ctx m = true) → (∀ e ∈ membersHere t1 (blkGrp b) (s.devId.toNat, d, k.ctx) ms, agreesWith t1 b ms e = true ∧ blkMe e.2.2.block ≠ blkMe b) →
      ms[j]? = some m → j ≠ blkMe b →
      enteredMember s j (blkGrp b) m = none → (s.hart d h).members = [] →
      exec i s = .next (t1.setHart d h { s.hart d h with fifo := rest, lays := none, members := [⟨k, b, headLays s d h k b, none⟩] })) ∧
    (∀ c ms r l vals (lvs : List (List Nat)) (ws : List MemberWrites) (boxes : List (List Nat)), (s.hart d h).fifo = [] → (s.hart d h).members = [c] → blkOp c.block = op →
      memberList s (.hart d h) c.kick c.block = .ok (ms, r) → Complete s c ms l → s.inp.flag = false →
      vals.length = l.length → lvs.length = l.length → ws.length = l.length → boxes.length = l.length →
      let w := fmtWidth (layFmt (c.lays.getD 0 0))
      let lv := r.1 ++ lvs.flatten ++ ws.flatMap fun x => leavesOf s x.1 true w (x.2.map (·.1))
      (∀ (j : Nat) e x y, l[j]? = some e → vals[j]? = some x → lvs[j]? = some y → SourceOf s w e x y) →
      (∀ (j : Nat) e x, l[j]? = some e → ws[j]? = some x → x.1 = kickView s e.2.2.kick ∧ ∃ fl, collWrite s e.2.2 vals = .ok (x.2, fl)) →
      Writable s w (op != 0x11) ws lv boxes.flatten →
      (∀ (j : Nat) e ks, l[j]? = some e → boxes[j]? = some ks → MailboxAt s e.1 e.2.1 e.2.2.kick e.2.2.block ks) →
      ∃ u, exec i s = .next u ∧ (∀ x ∈ ws, ∀ e ∈ x.2, partAt u w e.1 (partKeys s x.1 true w e.1) = e.2 % 2 ^ w)
        ∧ (∀ a, a ∉ boxes.flatten → a ∉ lv → (∀ x ∈ ws, ∀ e ∈ x.2, a ∉ partKeys s x.1 true w e.1) → readByte u.mem a = readByte s.mem a)
        ∧ ∀ e ∈ l, ∀ x ∈ (u.hart e.1 e.2.1).members, x ≠ e.2.2) ∧
    (∀ c vals x fl, collWrite s c vals = .ok (x, fl) →
      (blkOp c.block = 0x10 → x.map (·.2) = (foldMembers (blkRfmt c.block) vals).1.take x.length) ∧
      (blkOp c.block = 0x12 → x.map (·.2) = (foldMembers (blkRfmt c.block) (vals.map (pieceOf c.block (blkMe c.block)))).1.take x.length))

namespace Sys2Proof.Machine

/-! ### Sarrun commands -/

/-- A command of queue `n`, whose record is `q`, is the one that moves. -/
def OnQueue (s : State) (n : Nat) (q : Queue) : Prop := s.cur = .queue n ∧ s.queue n = q

/-- The command of `len` words ends neither at the end of its buffer nor at a stop or an unmapping asked for meanwhile. -/
def Inside (q : Queue) (len : Nat) : Prop :=
  q.stopReq = false ∧ q.unmapReq = false ∧ ∀ o l i r, q.bufs = (o, l, i) :: r → i + len < l

/-- A queue's record past a command of `len` words: SER one higher, HEAD or the buffer's index past it, READY (R349, R350). -/
def pastCommand (q : Queue) (len : Nat) : Queue :=
  { q with
    head := match q.bufs with | [] => q.head + BitVec.ofNat 32 len | _ => q.head
    bufs := match q.bufs with | [] => [] | (o, l, i) :: r => (o, l, i + len) :: r
    ser := q.ser + 1, service := none, answer := none, launched := 0, stalled := none, state := if q.state = 2 then 1 else q.state }

/-- The record `p` of queue `n`, which was `q`, with HEAD and STATE written to the owner, and VERSION raised, when it has emptied or waits no longer (R341, R348). -/
def writtenBack (n : Nat) (q p : Queue) : Queue := if p.state ≠ q.state ∨ (p.lv = 0 ∧ p.pending = 0) then bumpVersion n p else p

/-- The record of queue `n`, which was `q`, after its command of `len` words has completed (R341, R349, R350). -/
def afterCommand (n : Nat) (q : Queue) (len : Nat) : Queue := writtenBack n q (pastCommand q len)

/-- Queue `n` waits with the record `p`: HEAD and STATE are written to the owner, and the engine that serves it turns to another queue (R341, R348). -/
def waitsAt (s : State) (n : Nat) (p : Queue) : State :=
  let t := s.setQueue n (bumpVersion n p)
  if (s.engine p.eng).serving = some n then t.setEngine p.eng ⟨none, 0, n⟩ else t

/-- Queue `n` has faulted with `code` at its command: STATE FAULT, FCODE, its position as it was, VERSION one higher, a report to the host, and no byte changed (R341, R353). -/
def Faulted (s u : State) (n code : Nat) : Prop :=
  u.queue n = bumpVersion n { s.queue n with
      state := 4, fcode := code, service := none, answer := none, launched := 0, stalled := none, asking := false, fetched := [], ser := (s.queue n).ser + 1 }
    ∧ u.reports = s.reports ++ [[1, word n, word (s.queue n).ser.toNat, word (s.queue n).lv, word code]] ∧ u.mem = s.mem
    ∧ ∀ m, m ≠ n → u.queue m = s.queue m

/-- The second operand of the ALU forms (R351). -/
def operandOf (q : Queue) (cc : BitVec 4) (i : BitVec 1) (imm : BitVec 32) : Word := if i = 1 then imm.signExtend 64 else q.reg cc

/-- The commands that only write a register (R354): words, register and value. -/
def registerCommands (q : Queue) : Instr → Option (Nat × BitVec 4 × Word)
  | .cMovi ca imm => some (1, ca, imm.signExtend 64)
  | .cMovw ca w => some (2, ca, w)
  | .cAdd ca cb cc i imm => some (1, ca, q.reg cb + operandOf q cc i imm)
  | .cSub ca cb cc i imm => some (1, ca, q.reg cb - operandOf q cc i imm)
  | .cAnd ca cb cc i imm => some (1, ca, q.reg cb &&& operandOf q cc i imm)
  | .cOr ca cb cc i imm => some (1, ca, q.reg cb ||| operandOf q cc i imm)
  | .cShl ca cb cc i imm => some (1, ca, q.reg cb <<< ((operandOf q cc i imm).toNat % 64))
  | .cShr ca cb cc i imm => some (1, ca, q.reg cb >>> ((operandOf q cc i imm).toNat % 64))
  | _ => none

/-- The branches (R356): whether they are taken, and their offset in words; C.LOOP with the register it has counted down. -/
def branchCommands (q : Queue) : Instr → Option (Bool × Int × Queue)
  | .cBeq ca cb d => some (q.reg ca = q.reg cb, d.toInt, q)
  | .cBne ca cb d => some (q.reg ca ≠ q.reg cb, d.toInt, q)
  | .cBlt ca cb d => some ((q.reg ca).toInt < (q.reg cb).toInt, d.toInt, q)
  | .cBge ca cb d => some ((q.reg ca).toInt ≥ (q.reg cb).toInt, d.toInt, q)
  | .cJmp d => some (true, d.toInt, q)
  | .cLoop ca d => some (q.reg ca - 1 ≠ 0, d.toInt, q.setReg ca (q.reg ca - 1))
  | _ => none

/-- The flow commands, which fault at level 0 (R356). -/
def flowCommands : Instr → Bool
  | .cBeq _ _ _ | .cBne _ _ _ | .cBlt _ _ _ | .cBge _ _ _ | .cJmp _ | .cLoop _ _ | .cCall _ | .cRet => true
  | _ => false

/-- A queue's access of `n` bytes at `o` passes its check, and reaches the bytes `l` of a vault or of pages that are present (R355, R337). -/
def QueuePlace (s : State) (q : Nat) (o : Word) (n rts : Nat) (write : Bool) (l : Located) : Prop :=
  bits o 0 52 % n = 0 ∧ ∃ t, checkRef s (viewOf s (.queue q)) o n rts 0 = .ok t ∧ InMemory t ∧ locate s (viewOf s (.queue q)) t n write = .ok l
    ∧ PlainPlace l n

/-- The oref of C.LD and C.ST (R355). -/
def queueRef (base : Word) (imm : BitVec 32) : Word :=
  word (bits base 52 12 * 2 ^ 52 + ((Int.ofNat (bits base 0 52) + imm.toInt) % 2 ^ 52).toNat)

/-- The command of queue `n` has completed with the bytes `b` stored at `l`, and no other byte changed. -/
def StoredBy (s u : State) (n : Nat) (q : Queue) (l : Located) (b : List Byte) : Prop := u.queue n = afterCommand n q 1 ∧ StoredAt s u l b

/-- The doubleword at a place. -/
def wordAt (s : State) (l : Located) : Word := word (numOfBytes (s.bytesAt l))

/-- The commands that access an object: oref, length and rights (R355, R360, R361, R363). -/
def memoryCommands (q : Queue) : Instr → Option (Word × Nat × Nat)
  | .cLd _ cb imm => some (queueRef (q.reg cb) imm, 8, 1)
  | .cSt _ cb imm => some (queueRef (q.reg cb) imm, 8, 2)
  | .cSigsem ca _ st => some (q.reg ca, 8, if st = 1 then 2 else 11)
  | .cStamp ca => some (q.reg ca, 16, 2)
  | .cWaitsem ca _ _ dec _ _ => some (q.reg ca, 8, if dec = 1 then 11 else 1)
  | _ => none

/-- The condition of C.WAITSEM on the semaphore's value `v` and `w` (Table 15.6). -/
def conditionHolds (cond : BitVec 2) (v w : Word) : Prop :=
  (cond = 0 → w.toNat ≤ v.toNat) ∧ (cond = 1 → v = w) ∧ (cond = 2 ∨ cond = 3 → v ≠ w)

/-- The privileged commands that are handed to the lead (R365). -/
def handedOver : Instr → Bool
  | .cInstall _ _ _ _ | .cRebuild _ _ | .cDelete _ _ | .cStrike _ _ | .cPitch _ _ _ | .cSave _ _ _ | .cRestore _ _ _ => true
  | _ => false

end Sys2Proof.Machine

/-- R354, R349, R350: on every state of a queue, C.NOP writes no register and the register forms write c[ca] alone, and neither changes a byte of memory; inside their buffer or the ring they
complete, count their serial and move on by their words, and change nothing else; at the end of a buffer the queue goes on after the C.IB that entered it. -/
def Obligations.RegisterCommands : Prop :=
  ∀ s n q, OnQueue s n q →
    (∃ u, exec .cNop s = .next u ∧ (u.queue n).c = q.c ∧ u.mem = s.mem) ∧
    (∀ i len ca v, registerCommands q i = some (len, ca, v) → ∃ u, exec i s = .next u ∧ (u.queue n).reg ca = v ∧ (∀ r, r ≠ ca → (u.queue n).reg r = q.reg r) ∧ u.mem = s.mem) ∧
    (Inside q 1 → exec .cNop s = .next (s.setQueue n (afterCommand n q 1))) ∧
    (∀ i len ca v, registerCommands q i = some (len, ca, v) → Inside q len → exec i s = .next (s.setQueue n (afterCommand n (q.setReg ca v) len))) ∧
    (∀ o l i, q.stopReq = false → q.unmapReq = false → q.bufs = [(o, l, i)] → i + 1 = l → (∀ e ∈ q.calls, e.1 ≠ q.lv) →
      exec .cNop s = .next (s.setQueue n (writtenBack n q { pastCommand q 1 with bufs := [], lv := q.lv - 1, head := q.head + 1 })))

/-- R356, R357: at level 0 every flow command faults with BADFLOW; in a buffer C.BEQ, C.BNE, C.BLT, C.BGE, C.JMP and C.LOOP go to the word at their offset when they are taken, else to the next, and fault with BADTGT when the target lies outside the buffer (taken or not: log entry 28, the model's reading); C.CALL pushes its return,
or faults with CALLDEPTH on 8 calls; C.RET pops a return of its level, or faults with BADFLOW; C.IB enters a buffer below level 4, and faults with IBNEST at level 4. -/
def Sys2Proof.Machine.FlowCommands : Prop :=
  ∀ s n q, OnQueue s n q → q.stopReq = false → q.unmapReq = false →
    (∀ i, flowCommands i = true → q.lv = 0 → q.bufs = [] → ∃ u, exec i s = .next u ∧ Faulted s u n 5) ∧
    (∀ i (taken : Bool) d q' o l j r, branchCommands q i = some (taken, d, q') → q.lv ≠ 0 → q.bufs = (o, l, j) :: r →
      (taken = false → 0 ≤ Int.ofNat j + d → Int.ofNat j + d < Int.ofNat l → Inside q 1 → exec i s = .next (s.setQueue n (afterCommand n q' 1))) ∧
      (∀ t : Nat, taken = true → Int.ofNat j + d = Int.ofNat t → t < l → exec i s = .next (s.setQueue n { q' with bufs := (o, l, t) :: r, ser := q.ser + 1 })) ∧
      ((Int.ofNat j + d < 0 ∨ Int.ofNat l ≤ Int.ofNat j + d) → ∃ u, exec i s = .next u ∧ Faulted s u n 6)) ∧
    (∀ (d : BitVec 20) o l j r, q.lv ≠ 0 → q.bufs = (o, l, j) :: r →
      (∀ t : Nat, q.calls.length < 8 → Int.ofNat j + d.toInt = Int.ofNat t → t < l →
        exec (.cCall d) s = .next (s.setQueue n { q with bufs := (o, l, t) :: r, calls := (q.lv, j + 1) :: q.calls, ser := q.ser + 1 })) ∧
      (8 ≤ q.calls.length → ∃ u, exec (.cCall d) s = .next u ∧ Faulted s u n 7) ∧
      (∀ t cs, q.calls = (q.lv, t) :: cs → t < l →
        exec .cRet s = .next (s.setQueue n { q with bufs := (o, l, t) :: r, calls := cs, ser := q.ser + 1 })) ∧
      ((∀ t cs, q.calls ≠ (q.lv, t) :: cs) → ∃ u, exec .cRet s = .next u ∧ Faulted s u n 5)) ∧
    (∀ ca cb, q.lv < 4 → q.reg cb ≠ 0 → (q.reg cb).toNat ≤ 2 ^ 20 → bits (q.reg ca) 0 3 = 0 →
      exec (.cIb ca cb) s = .next (s.setQueue n { q with bufs := (q.reg ca, (q.reg cb).toNat, 0) :: q.bufs, lv := q.lv + 1, ser := q.ser + 1 })) ∧
    (∀ ca cb, q.lv = 4 → ∃ u, exec (.cIb ca cb) s = .next u ∧ Faulted s u n 4)

/-- R355, R361, R363, R353: C.LD loads the doubleword at its oref; C.ST and C.SIGSEM store one, C.SIGSEM adds one as one atomic, and C.STAMP stores TIME at its start, SER and queue number; no other byte changes, and the command completes;
a store to KICK leaves as a kick and waits for its answer, and an access of another device waits for it; each faults with ALIGN, BOUNDS or RIGHTS where its check fails. -/
def Sys2Proof.Machine.MemoryCommands : Prop :=
  ∀ s n q, OnQueue s n q → Inside q 1 →
    (∀ ca cb imm l, QueuePlace s n (queueRef (q.reg cb) imm) 8 1 false l → s.poisoned l.keys = false →
      exec (.cLd ca cb imm) s = .next ((used s l.leaves false).setQueue n (afterCommand n (q.setReg ca (wordAt s l)) 1))) ∧
    (∀ ca cb imm l, QueuePlace s n (queueRef (q.reg cb) imm) 8 2 true l →
      ∃ u, exec (.cSt ca cb imm) s = .next u ∧ StoredBy s u n q l (bytesOf 8 (q.reg ca).toNat)) ∧
    (∀ ca cb l, QueuePlace s n (q.reg ca) 8 2 true l → ∃ u, exec (.cSigsem ca cb 1) s = .next u ∧ StoredBy s u n q l (bytesOf 8 (q.reg cb).toNat)) ∧
    (∀ ca cb l, QueuePlace s n (q.reg ca) 8 11 true l → s.poisoned l.keys = false →
      ∃ u, exec (.cSigsem ca cb 0) s = .next u ∧ StoredBy s u n q l (bytesOf 8 (wordAt s l + q.reg cb).toNat)) ∧
    (∀ ca l, QueuePlace s n (q.reg ca) 16 2 true l →
      ∃ u, exec (.cStamp ca) s = .next u ∧ StoredBy s u n q l (bytesOf 8 (q.stalled.getD s.time).toNat ++ bytesOf 8 (word (q.ser.toNat * 2 ^ 12 + n % 2 ^ 12)).toNat)) ∧
    (∀ ca cb imm t d, bits (queueRef (q.reg cb) imm) 0 3 = 0 → checkRef s (viewOf s (.queue n)) (queueRef (q.reg cb) imm) 8 2 0 = .ok t →
      t.home = .window d → t.off % 64 = 0 →
      ∃ p, exec (.cSt ca cb imm) s = .next { waitsAt s n { q with
          service := some (.cSt ca cb imm), answer := none, stalled := none, waitNs := if q.state = 2 then q.waitNs else 0 } with posted := s.posted ++ [p] }
        ∧ p.agent = .queue n ∧ p.eff = .kick d (t.off / 64) (q.reg ca) ∧ p.rel = true) ∧
    (∀ i o k rts, memoryCommands q i = some (o, k, rts) →
      (∀ t, bits o 0 52 % k = 0 → checkRef s (viewOf s (.queue n)) o k rts 0 = .ok t → t.home = .remote → routed s (bits t.desc.ptr 0 9) = true → q.answer = none →
        exec i s = .next (waitsAt s n { q with service := some i, answer := none, stalled := none, waitNs := if q.state = 2 then q.waitNs else 0 })) ∧
      (bits o 0 52 % k ≠ 0 → ∃ u, exec i s = .next u ∧ Faulted s u n 8) ∧
      (∀ h, bits o 0 52 % k = 0 → checkRef s (viewOf s (.queue n)) o k rts 0 = .error h →
        ∃ u, exec i s = .next u ∧ Faulted s u n (match h with | .trap 4 _ _ _ _ => 10 | _ => 9)))

/-- R360, R367: C.WAITSEM completes when the condition holds on the semaphore, with DEC taking w from it; else the queue waits with the semaphore as it was; SEMAPHORE_RECHECK executes it again for a mapped queue,
which completes it once the condition holds; when a queue with SQV has waited WTO ms, WAIT_REPORT_TIMEOUT reports a signaller that is unmapped or FREE, and its time starts again. -/
def Sys2Proof.Machine.SemaphoreWaits : Prop :=
  ∀ s n q ca cb cond dec sigq sqv, s.queue n = q →
    let i := Instr.cWaitsem ca cb cond dec sigq sqv
    (∀ l, s.cur = .queue n → Inside q 1 → QueuePlace s n (q.reg ca) 8 (if dec = 1 then 11 else 1) (dec == 1) l → s.poisoned l.keys = false →
      (conditionHolds cond (wordAt s l) (q.reg cb) → dec = 0 → exec i s = .next ((used s l.leaves false).setQueue n (afterCommand n q 1))) ∧
      (conditionHolds cond (wordAt s l) (q.reg cb) → dec = 1 →
        ∃ u, exec i s = .next u ∧ StoredBy s u n q l (bytesOf 8 (wordAt s l - q.reg cb).toNat)) ∧
      (¬ conditionHolds cond (wordAt s l) (q.reg cb) →
        (q.state < 2 → exec i s = .next (waitsAt (used s l.leaves (dec == 1)) n { q with service := some i, state := 2, answer := none, stalled := none, waitNs := 0 })) ∧
        (q.state = 2 → exec i s = .next ((used s l.leaves (dec == 1)).setQueue n { q with answer := none, stalled := none })))) ∧
    (s.inp.queue = n → q.service = some i → q.state = 2 → q.map = true →
      exec .semaphoreRecheck s = exec i { s with cur := .queue n } ∧
      (∀ l, Inside q 1 → QueuePlace { s with cur := .queue n } n (q.reg ca) 8 (if dec = 1 then 11 else 1) (dec == 1) l → s.poisoned l.keys = false →
        conditionHolds cond (wordAt s l) (q.reg cb) → ∃ u, exec .semaphoreRecheck s = .next u ∧ u.queue n = afterCommand n q 1)) ∧
    (s.inp.queue = n → q.service = some i → q.state = 2 → sqv = 1 → q.wto ≠ 0 → q.wto * 1000000 ≤ q.waitNs →
      ((s.queue sigq.toNat).map = false ∨ (s.queue sigq.toNat).state = 0) →
      ∃ u, exec .waitReportTimeout s = .next u ∧ u.queue n = { q with waitNs := 0 } ∧ u.cells = s.cells
        ∧ (s.errRing = none → u.mem = s.mem ∧ ∃ w, u.errors = s.errors ++ [w]))

/-- R358, R359, R362, R364: C.LAUNCH sends one CONTROL message to the virtual PE of its oref's grain, C.LAUNCHALL one to each virtual PE, 64 at a time, and C.LAUNCH of a capsule that is not the context's grid capsule faults with NOCAP; C.COPY kicks a copy hart of the engine's die
and waits, and COPY_KICK_ANSWER completes it, its copy in flight since the hart accepted it, or faults with RIGHTS; C.FENCE completes when no copy is in flight, and while one is stands where it is, and the engine turns to another queue; C.INTR sends the vector, holds it pending while it is masked or MSI-X is disabled, or faults with BADFLD past the function's vectors. -/
def Sys2Proof.Machine.WorkCommandsResults : Prop :=
  ∀ s n q, s.queue n = q → q.stopReq = false → q.unmapReq = false → Inside q 1 →
    (∀ ca cb ch k cap x g, s.cur = .queue n → s.ctx q.ctx = some x → x.caps.has cap.toNat = true → x.grid = cap.toNat → s.caps.find cap.toNat = some g →
      let payload := q.reg ca :: (List.range k.toNat).map fun i => q.c[cb.toNat + i]?.getD 0
      let To (p : Packet) (v : Nat) : Prop := p.ddev = s.devId.toNat ∧ p.dctx = q.ctx ∧ p.dvpe = v ∧ p.msg.pay = payload ∧ bits p.msg.hdr 11 5 = ch.toNat
        ∧ bits p.msg.hdr 8 3 = 4 ∧ p.msg.ser = q.ser
      (∃ p, exec (.cLaunch ca cb ch k cap) s = .next ({ s with net := s.net ++ [p] }.setQueue n (afterCommand n q 1))
        ∧ To p (bits (q.reg ca) 0 52 / g.grain % x.fold.v)) ∧
      (x.fold.v ≤ q.launched + 64 → ∃ ps, exec (.cLaunchall ca cb ch k cap) s = .next ({ s with net := s.net ++ ps }.setQueue n (afterCommand n q 1))
        ∧ ps.length = x.fold.v - q.launched ∧ ∀ (j : Nat) p, ps[j]? = some p → To p (q.launched + j)) ∧
      (q.launched + 64 < x.fold.v → ∃ ps, exec (.cLaunchall ca cb ch k cap) s = .next ({ s with net := s.net ++ ps }.setQueue n { q with launched := q.launched + 64, service := some (.cLaunchall ca cb ch k cap) })
        ∧ ps.length = 64 ∧ ∀ (j : Nat) p, ps[j]? = some p → To p (q.launched + j))) ∧
    (∀ ca cb ch k cap x, s.cur = .queue n → s.ctx q.ctx = some x → (x.caps.has cap.toNat = false ∨ x.grid ≠ cap.toNat) →
      ∃ u, exec (.cLaunch ca cb ch k cap) s = .next u ∧ Faulted s u n 13 ∧ u.net = s.net) ∧
    (∀ ca hart, s.cur = .queue n →
      ((q.reg ca).toNat < 2 ^ 16 → ∃ p, exec (.cCopy ca hart) s = .next { waitsAt s n { q with
          service := some (.cCopy ca hart), answer := none, stalled := none, waitNs := if q.state = 2 then q.waitNs else 0 } with posted := s.posted ++ [p] }
        ∧ p.agent = .queue n ∧ p.eff = .kick q.eng hart.toNat (q.reg ca) ∧ p.rel = true ∧ p.mark = true) ∧
      (2 ^ 16 ≤ (q.reg ca).toNat → ∃ u, exec (.cCopy ca hart) s = .next u ∧ Faulted s u n 2)) ∧
    (∀ ca hart, s.inp.queue = n → q.service = some (.cCopy ca hart) →
      (q.answer = some true → exec .copyKickAnswer s = .next (s.setQueue n (afterCommand n q 1))) ∧
      (q.answer = some false → ∃ u, exec .copyKickAnswer s = .next u ∧ Faulted s u n 10)) ∧
    (s.cur = .queue n → (q.copies = 0 → exec .cFence s = .next (s.setQueue n (afterCommand n q 1))) ∧
      (q.copies ≠ 0 → q.stalled = none → exec .cFence s = .next (waitsAt s n { q with service := some .cFence, stalled := some s.time })) ∧
      (q.copies ≠ 0 → q.stalled ≠ none → ∃ u, exec .cFence s = .next u ∧ u.queue n = q ∧ u.mem = s.mem)) ∧
    (∀ vec x, s.cur = .queue n → s.ctx q.ctx = some x →
      (vec.toNat < (s.iface x.fn).msix → (s.iface x.fn).off = false → (s.iface x.fn).masked.has vec.toNat = false →
        exec (.cIntr vec) s = .next ({ s with msi := s.msi ++ [(x.fn, vec.toNat)] }.setQueue n (afterCommand n q 1))) ∧
      (vec.toNat < (s.iface x.fn).msix → (s.iface x.fn).off = true ∨ (s.iface x.fn).masked.has vec.toNat = true →
        exec (.cIntr vec) s = .next ((s.setIface x.fn { s.iface x.fn with pending := (s.iface x.fn).pending.add vec.toNat }).setQueue n (afterCommand n q 1))) ∧
      ((s.iface x.fn).msix ≤ vec.toNat → ∃ u, exec (.cIntr vec) s = .next u ∧ Faulted s u n 2))

/-- R352, R365, R366: C.INSTALL, C.REBUILD, C.DELETE, C.STRIKE, C.PITCH, C.SAVE, C.RESTORE and C.HALT fault with PRIV on a queue without PRIV; on one with it, all but C.HALT are handed to the lead and their queue waits, C.INSTALL with a copy of the pages of its object that are present;
C.HALT stops the issuing queue after this command, or a READY queue with no command under way at once, and faults with BADFLD for a number above 4 095. -/
def Sys2Proof.Machine.PrivilegedCommandsResults : Prop :=
  ∀ s n q, OnQueue s n q →
    (∀ i, handedOver i = true → q.priv = true →
      let waits (b : NMap (List Byte)) : State := waitsAt s n { q with service := some i, state := 2, answer := none, result := none, waitNs := 0, sealed := b, installing := none }
      ((∀ ca cb cc d, i ≠ .cInstall ca cb cc d) → exec i s = .next (waits [])) ∧
      (∀ ca cb cc d, i = .cInstall ca cb cc d → exec i s = .next (waits (copyPages s q.ctx (q.reg ca))))) ∧
    (∀ i, (handedOver i = true ∨ ∃ ca, i = .cHalt ca) → q.priv = false → ∃ u, exec i s = .next u ∧ Faulted s u n 3) ∧
    (∀ ca, q.priv = true → Inside q 1 → (q.reg ca).toNat < 4096 → q.state = 1 →
      (n = (q.reg ca).toNat → exec (.cHalt ca) s = .next (s.setQueue n (bumpVersion n { pastCommand q 1 with state := 3 }))) ∧
      (∀ m, m = (q.reg ca).toNat → m ≠ n → (s.queue m).state = 1 → (s.queue m).service = none → (s.queue m).launched = 0 →
        exec (.cHalt ca) s = .next ((s.setQueue m (bumpVersion m { s.queue m with state := 3 })).setQueue n (afterCommand n q 1)))) ∧
    (∀ ca, q.priv = true → 4096 ≤ (q.reg ca).toNat → ∃ u, exec (.cHalt ca) s = .next u ∧ Faulted s u n 2)

/-- R365, R325, R332, R333: a privileged command whose result is there ends with its status word in c[cc] and its queue READY; C.DELETE and C.REBUILD of an unknown capsule end with NOCAP, C.DELETE of one that
nothing uses with OK and the capsule gone, C.REBUILD with OK for a SEALED and QUAR for a QUARANTINED capsule, and it begins the rebuild of a VOID one; C.INSTALL first makes its capsule INSTALLING under its identifier, then ends with OK, the identifier and the capsule with its body, or with NOSPACE and no capsule. -/
def Sys2Proof.Machine.PrivilegedService : Prop :=
  ∀ s n q cc, s.queue n = q → s.inp.queue = n → Inside q 1 → leadActs s = true →
    let Ended (u t : State) (q : Queue) (code value : Nat) : Prop :=
      u = t.setQueue n (afterCommand n ({ q with result := none }.setReg cc (word (code * 2 ^ 56 + value % 2 ^ 32))) 1)
    (∀ i code value, handedOver i = true → statusReg i = some cc → q.service = some i → q.result = some (code, value) → code < 256 →
      ∃ u, exec .privilegedCommandComplete s = .next u ∧ Ended u s q code value) ∧
    (s.inp.words = [] → shootDone s = true → q.result = none → q.answer = none →
      (∀ ca i, i ∈ [Instr.cDelete ca cc, Instr.cRebuild ca cc] → q.service = some i →
        s.caps.find (q.reg ca).toNat = none → ∃ u, exec .privilegedCommandComplete s = .next u ∧ Ended u s q 10 0) ∧
      (∀ ca x, q.service = some (.cDelete ca cc) → s.caps.find (q.reg ca).toNat = some x → x.state ≠ 0 → x.state ≠ 3 →
        (∀ c ∈ s.ctxs, c.2.caps.has (q.reg ca).toNat = false) → (∀ p ∈ s.cells, ∀ l ∈ p.2.slots.toList, l.act = none) → s.images = [] →
        ∃ u t, exec .privilegedCommandComplete s = .next u ∧ Ended u t q 0 0 ∧ t.caps = s.caps.del (q.reg ca).toNat ∧ t.ctxs = s.ctxs ∧ t.mem = s.mem) ∧
      (∀ ca x, q.service = some (.cRebuild ca cc) → s.caps.find (q.reg ca).toNat = some x →
        (x.state = 1 → ∃ u, exec .privilegedCommandComplete s = .next u ∧ Ended u s q 0 0) ∧
        (x.state = 4 → ∃ u, exec .privilegedCommandComplete s = .next u ∧ Ended u s q 9 0) ∧
        (x.state = 2 → ∃ u, exec .privilegedCommandComplete s = .next u ∧ u.queue n = { q with answer := some true }
          ∧ u.caps.find (q.reg ca).toNat = some { x with state := 3, stuck := false } ∧ u.cells = s.cells ∧ u.mem = s.mem)) ∧
      (∀ ca cb d t, q.service = some (.cInstall ca cb cc d) → q.installing = none → beginInstall s n (q.reg ca) (q.reg cb) d = .ok t →
        exec .privilegedCommandComplete s = .next t ∧ ∃ id g, t.queue n = { q with sealed := [], installing := some id } ∧ t.caps.find id = some g ∧ g.state = 0
          ∧ g.dies = d ∧ (s.caps.find id).isNone = true ∧ (q.reg cb ≠ 0 → id = (q.reg cb).toNat)) ∧
      (∀ ca cb d id x, q.service = some (.cInstall ca cb cc d) → q.installing = some id → s.caps.find id = some x → id < 2 ^ 32 →
        (∀ y, s.inp.flag = false → withBody s id x = some y →
          ∃ u, exec .privilegedCommandComplete s = .next u ∧ Ended u { s with caps := s.caps.put id y } { q with installing := none } 0 id
            ∧ y.state = 1 ∧ y.gen = s.fw.gen) ∧
        (s.inp.flag = true ∨ withBody s id x = none →
          ∃ u, exec .privilegedCommandComplete s = .next u ∧ Ended u { s with caps := s.caps.del id } { q with installing := none } 7 0)))

/-- R348: an engine keeps a queue that can run until it has served 64 commands of it; one that serves no queue picks a runnable queue mapped to it whose PRI is highest, and stays idle when there is none. -/
def Sys2Proof.Machine.CommandEngineSelects : Prop :=
  ∀ s d, s.inp.die = d →
    (∀ m, (s.engine d).serving = some m → servable s d m = true → (s.engine d).served < 64 → exec .commandEngineSelect s = .next s) ∧
    ((s.engine d).serving = none →
      ((∀ e ∈ s.queues, servable s d e.1 = false) → exec .commandEngineSelect s = .next s) ∧
      ((∃ e ∈ s.queues, servable s d e.1 = true) → ∃ u m, exec .commandEngineSelect s = .next u ∧ (u.engine d).serving = some m ∧ (u.engine d).served = 0
        ∧ servable s d m = true ∧ u.queues = s.queues ∧ ∀ e ∈ s.queues, servable s d e.1 = true → (s.queue e.1).pri ≤ (s.queue m).pri))

namespace Sys2Proof.Machine

/-! ### Capsules and the host -/

/-- The lead's answer to a host instruction: sequence number, status, value (R346, Table 15.8). -/
def Answered (s u : State) (code value : Nat) : Prop := u.reports = s.reports ++ [[3, word s.inp.off, word code, word value]]

/-- The body, page hashes and every other field of a capsule stay; only its state differs. -/
def capsuleIn (x : Capsule) (st : Nat) : Capsule := { x with state := st }

end Sys2Proof.Machine

/-- R329, R334, R328: CODE_PAGE_VERIFY enters a page of a SEALED capsule that a fetch needs into the die's code store, when its seal value is the sealed one; where the store is full a page that no slot is executing makes room; a page that fails makes the capsule QUARANTINED device-wide, takes its pages from every code
store, contains each context that holds it, and is reported. -/
def Sys2Proof.Machine.CodePages : Prop :=
  ∀ s x, let cap := s.inp.cap
    let p := s.inp.idx
    let store := s.codeStore.getD s.inp.die []
    let page := if s.inp.flag then s.inp.bytes else bodyPage x p
    s.caps.find cap = some x → s.inp.die < 4 → x.state = 1 → 4096 * p < x.body.bytes.length → x.dies.getLsbD s.inp.die = true → pageStored s s.inp.die cap p = false →
    fetching s s.inp.die cap p = true →
    (x.seals[p]? = some (sealValue s x cap p page) →
      ∃ u, exec .codePageVerify s = .next u ∧ pageKey cap p ∈ u.codeStore.getD s.inp.die [] ∧ u.caps = s.caps ∧ u.cells = s.cells ∧ u.mem = s.mem
        ∧ (s.inp.sel = none → u.codeStore.getD s.inp.die [] = pageKey cap p :: store)
        ∧ (∀ k ∈ store, executing s s.inp.die k = true → k ∈ u.codeStore.getD s.inp.die [])) ∧
    (x.seals[p]? ≠ some (sealValue s x cap p page) → ∃ u, exec .codePageVerify s = .next u ∧ u.caps.find cap = some (capsuleIn x 4)
      ∧ (∀ e ∈ u.codeStore, ∀ k ∈ e.2, k / 2 ^ 20 ≠ cap) ∧ (∀ e ∈ s.ctxs, e.2.caps.has cap = true → Contained u e.1)
      ∧ u.reports.length = s.reports.length + 1 ∧ u.cells = s.cells ∧ (s.errRing = none → u.mem = s.mem))

/-- R332, R330, R334: REBUILD_COMPLETE seals a capsule with its new body, or leaves it VOID when there is none to give, or quarantines it on a digest that does not match; FIRMWARE_ACTIVATION makes every
SEALED capsule VOID and empties the code stores, waits for an installation or a rebuild in progress, and is refused while an activation runs. -/
def Sys2Proof.Machine.RebuildAndFirmware : Prop :=
  ∀ s,
    (∀ x, s.caps.find s.inp.cap = some x → x.state = 3 → (mernerPages x.list).map Config.sha512 = x.hashes →
      (∀ y, s.inp.n = 0 → withBody s s.inp.cap x = some y → ∃ u, exec .rebuildComplete s = .next u ∧ u.caps.find s.inp.cap = some y ∧ y.state = 1 ∧ y.gen = s.fw.gen
        ∧ y.step = s.fw.step ∧ y.ibh = s.fw.ibh ∧ y.list = x.list ∧ y.handlers = x.handlers) ∧
      (s.inp.n = 1 ∨ s.inp.n = 0 ∧ withBody s s.inp.cap x = none → ∃ u, exec .rebuildComplete s = .next u ∧ u.caps.find s.inp.cap = some { x with state := 2, stuck := true }
        ∧ u.cells = s.cells ∧ u.mem = s.mem ∧ u.reports = s.reports ++ [[4, word s.inp.cap, 7]]) ∧
      (s.inp.n = 2 → ∃ u, exec .rebuildComplete s = .next u ∧ u.caps.find s.inp.cap = some (capsuleIn x 4))) ∧
    ((∀ e ∈ s.cells, ∀ l ∈ e.2.slots.toList, l.status ≠ .running ∧ ∀ src, l.status ≠ .stream src) →
      ((∀ e ∈ s.caps, e.2.state ≠ 3 ∧ e.2.state ≠ 0) → (∀ e ∈ s.queues, installs e.2 = false) →
        ∃ u, exec .firmwareActivation s = .next u ∧ u.fw.ibh = s.inp.bits ∧ u.codeStore = [] ∧ u.cells = s.cells ∧ Answered s u 0 0
          ∧ ∀ c, u.caps.find c = (s.caps.find c).map fun x => if x.state = 1 then capsuleIn x 2 else x) ∧
      ((∃ e ∈ s.caps, e.2.state = 3 ∨ e.2.state = 0) ∨ (∃ e ∈ s.queues, installs e.2 = true) → exec .firmwareActivation s = .next s)) ∧
    ((∃ e ∈ s.cells, ∃ l ∈ e.2.slots.toList, l.status = .running) → ∃ u, exec .firmwareActivation s = .next u ∧ Answered s u 8 0 ∧ u.caps = s.caps ∧ u.fw = s.fw)

/-- R343, R341, R342, R345: a doorbell writes TAIL, raises VERSION and makes every replica stale, and a TAIL beyond the ring puts the queue into FAULT with BADTAIL; a FREE queue ignores it, and it waits for an earlier write of its function; an update with an older epoch is
refused, and one with another VERSION is refused with the current record, and neither changes anything; else an update in range is applied wholly; a replica of another die becomes stale. -/
def Sys2Proof.Machine.QueueRecords : Prop :=
  ∀ s n q, s.inp.queue = n → s.queue n = q →
    let later (p : Queue) : Queue := { p with version := q.version + 1, stale := replicas n }
    (q.state ≠ 0 → isDetached s q.ctx = false → doorbellWaits s = false → let t : BitVec 32 := s.inp.word.setWidth 32
      ((t - q.head).toNat ≤ 2 ^ q.lsz → exec .doorbell s = .next (s.setQueue n (later { q with tail := t }))) ∧
      (2 ^ q.lsz < (t - q.head).toNat →
        ∃ u, exec .doorbell s = .next u ∧ u.queue n = later { leaveWait q with state := 4, fcode := 14 }
          ∧ u.reports = s.reports ++ [[1, word n, word (leaveWait q).ser.toNat, word q.lv, 14]])) ∧
    (q.state = 0 ∨ doorbellWaits s = true → exec .doorbell s = .next s) ∧
    (∀ e, s.inp.upd.epoch = some e → e < s.fw.epoch → ∃ u, exec .qrecUpdate s = .next u ∧ u = { s with reports := u.reports }
      ∧ u.reports = s.reports ++ [[8, word n, 15, word q.version.toNat]]) ∧
    (∀ v, s.inp.upd.epoch = none → s.inp.upd.version = some v → v ≠ q.version.toNat → ∃ u, exec .qrecUpdate s = .next u ∧ u = { s with reports := u.reports }
      ∧ u.reports = s.reports ++ [[8, word n, 14, word q.version.toNat] ++ recordWords q]) ∧
    ((∀ e, s.inp.upd.epoch = some e → s.fw.epoch ≤ e) → (∀ v, s.inp.upd.version = some v → v = q.version.toNat) → updateInRange s s.inp.upd = true →
      isDetached s q.ctx = false → movesLocked s q s.inp.upd = false →
      (q.state = 0 ∨ (s.inp.upd.tail.getD q.tail - q.head).toNat ≤ 2 ^ s.inp.upd.lsz.getD q.lsz) →
      ∃ u, exec .qrecUpdate s = .next u ∧ u.queue n = later (updateFields q s.inp.upd) ∧ (∀ m, m ≠ n → u.queue m = s.queue m) ∧ u.cells = s.cells ∧ u.mem = s.mem) ∧
    (s.inp.die < 6 → s.inp.die ≠ n % 4 → exec .replicaInvalidate s = .next (s.setQueue n { q with stale := NSet.add q.stale s.inp.die }))

/-- R346, R347, R353, R366: with a lead that acts and has not answered the instruction, a queue is mapped to an engine with fewer than 128 queues and refused by one with 128, unmapped at once when no command of it is under way, and out of a C.WAITSEM, which stands again; after a fault it is resumed, moved past the command, or reset
when no command goes on at another agent; a stopped one is made READY again. Each change raises VERSION. -/
def Sys2Proof.Machine.QueueControl : Prop :=
  ∀ s n q, s.inp.queue = n → s.queue n = q → takesHost s = true →
    let later (p : Queue) : Queue := { p with version := q.version + 1, stale := replicas n }
    (∀ d, n < 4096 → q.state ≠ 0 → q.map = false → s.inp.sel = some d → d < 4 →
      (mappedTo s d < 128 → ∃ u, exec .mapQueue s = .next u ∧ u.queue n = later { q with map := true, eng := d, unmapReq := false } ∧ Answered s u 0 d) ∧
      (128 ≤ mappedTo s d → ∃ u, exec .mapQueue s = .next u ∧ Answered s u 16 0 ∧ u.queues = s.queues)) ∧
    (q.map = true → q.service = none → q.launched = 0 →
      ∃ u, exec .unmapQueue s = .next u ∧ u.queue n = later { q with map := false } ∧ Answered s u 0 0) ∧
    (∀ ca cb cond dec sigq sqv, q.map = true → q.launched = 0 → q.state = 2 → q.service = some (.cWaitsem ca cb cond dec sigq sqv) →
      ∃ u, exec .unmapQueue s = .next u ∧ (u.queue n).map = false ∧ (u.queue n).head = q.head ∧ (u.queue n).bufs = q.bufs ∧ (u.queue n).service = none
        ∧ (u.queue n).state = 1 ∧ (u.queue n).ser = q.ser + 1 ∧ (u.queue n).version = q.version + 1) ∧
    (q.state = 4 → isDetached s q.ctx = false → underWay q = false →
      (s.inp.how = .resume → ∃ u, exec .queueFaultRecovery s = .next u ∧ u.queue n = later { q with state := 1, fcode := 0 } ∧ Answered s u 0 0) ∧
      (s.inp.how = .skip → q.bufs = [] → q.fcode ≠ 14 →
        ∃ u, exec .queueFaultRecovery s = .next u ∧ (u.queue n).state = 1 ∧ (u.queue n).ser = q.ser ∧ (u.queue n).version = q.version + 1
          ∧ ((u.queue n).head = q.head + 1 ∨ (u.queue n).head = q.head + 2)) ∧
      (s.inp.how = .reset → ∃ u, exec .queueFaultRecovery s = .next u
        ∧ u.queue n = later { q with state := 1, fcode := 0, lv := 0, bufs := [], calls := [], c := Vector.replicate 16 0, head := q.tail, service := none, answer := none, launched := 0 }
        ∧ Answered s u 0 0)) ∧
    (q.state = 3 → isDetached s q.ctx = false → q.service = none → ∃ u, exec .queueResume s = .next u ∧ u.queue n = later { q with state := 1 } ∧ Answered s u 0 0)

/-- R344, R345: a renewal of a lead that acts restarts every timer, and a lead without one for 10 ms sends none; a follower's lease lapses after 10 ms without one; the lowest live follower takes over after 10 ms more, with the epoch one higher; a lead that
has not renewed for 10 ms acts as lead no more. -/
def Sys2Proof.Machine.LeaseOfTheLead : Prop :=
  ∀ s,
    (s.inp.n = 0 → 10000000 ≤ s.fw.sinceRenewal → exec .leaseRenewal s = .next s) ∧
    (∀ l, s.inp.n = 0 → s.fw.lead = some l → (s.dfc l).alive = true → s.fw.sinceRenewal < 10000000 →
      ∃ u, exec .leaseRenewal s = .next u ∧ u.fw = { s.fw with renewal := false, sinceRenewal := 0 } ∧ u.cells = s.cells ∧ u.mem = s.mem
      ∧ ∀ e ∈ u.dfcs, e.2.lease = 0 ∧ e.2.lapsed = false) ∧
    (∀ d, s.inp.die = d → d < 6 → (s.dfc d).alive = true → s.fw.lead ≠ some d → s.fw.former ≠ some d → (s.dfc d).lapsed = false →
      (10000000 ≤ (s.dfc d).lease → ∃ u, exec .leaseLapse s = .next u ∧ (u.dfc d).lapsed = true ∧ (u.dfc d).lease = 0 ∧ u.fw = s.fw) ∧
      ((s.dfc d).lease < 10000000 → exec .leaseLapse s = .next s)) ∧
    (∀ d, s.inp.die = d → d < 6 → (s.dfc d).alive = true → s.fw.lead ≠ some d → s.fw.former ≠ some d →
      (∀ e < d, (s.dfc e).alive = true → s.fw.lead = some e ∨ s.fw.former = some e) → (s.dfc d).lapsed = true →
      (10000000 ≤ (s.dfc d).lease → ∃ u, exec .leadTakeover s = .next u ∧ u.fw.lead = some d ∧ u.fw.epoch = s.fw.epoch + 1 ∧ u.fw.sinceRenewal = 0 ∧ (u.dfc d).lapsed = false) ∧
      ((s.dfc d).lease < 10000000 → exec .leadTakeover s = .next s)) ∧
    (10000000 ≤ s.fw.sinceRenewal → s.fw.lead.isSome = true → exec .leadLeaseExpiry s = .next { s with fw := { s.fw with lead := none, former := s.fw.lead } }) ∧
    (s.fw.sinceRenewal < 10000000 → exec .leadLeaseExpiry s = .next s)

/-- R136, R172, R391, R102: CREATE_CONTEXT makes a context with empty tables resident and gives it free cells, and answers BUSY for a number in use; KILL_CONTEXT of a context without held writes, none of whose stores had passed the network interface, frees its number, its cells and its queues, and drops its posted writes. -/
def Sys2Proof.Machine.ContextLife : Prop :=
  ∀ s r, s.inp.ctx = r → takesHost s = true →
    (s.sec.recovery = false → r < 1024 → specAllowed s.inp.spec = true → (∀ c ∈ s.inp.spec.cells, c < 3072 ∧ cellPowered s c = true) →
      ((s.ctx r) = none → (∀ c ∈ s.inp.spec.cells, (s.cell c).ctx = none) →
        ∃ u x, exec .createContext s = .next u ∧ u.ctx r = some x ∧ x.objs = [] ∧ x.lays = [] ∧ x.caps = [] ∧ x.contained = false ∧ x.parts = s.inp.spec.parts
          ∧ (∀ c, c ∈ x.cells ↔ c ∈ s.inp.spec.cells) ∧ (∀ c ∈ s.inp.spec.cells, (u.cell c).ctx = some r ∧ (u.cell c).slots = Cell.reset.slots ∧ (u.cell c).handlers = Cell.reset.handlers)
          ∧ (∀ c ∈ s.inp.spec.cells, ∀ a < 2 ^ 18, readByte u.mem (scratchKey c a) = 0) ∧ Answered s u 0 r) ∧
      (∀ x, s.ctx r = some x → ∃ u, exec .createContext s = .next u ∧ Answered s u 8 0 ∧ u.ctxs = s.ctxs ∧ u.cells = s.cells ∧ u.mem = s.mem)) ∧
    (∀ x, s.ctx r = some x → s.inp.n = 0 → (∀ p ∈ s.held, p.ctx ≠ r) →
      ∃ u, exec .killContext s = .next u ∧ (∀ e ∈ u.ctxs, e.1 ≠ r) ∧ (∀ c ∈ x.cells, (u.cell c).ctx = none) ∧ u.posted = s.posted.filter (fun p => p.ctx != r)
        ∧ (∀ e ∈ u.queues, e.2.ctx = r → e.2.state = 0) ∧ Answered s u 0 0)

/-- R346, R174, R183, R333: HOST_INSTRUCTION is carried out and answered once (here the write of a layout entry; the creation of a privileged queue for a virtual function is answered REFUSED; the write of a page-table entry is answered when its shootdown is over); AMASK_CLEAR clears the mask and keeps or discards the
message; RELEASE_IMAGE lets the held image of an object go, and answers BUSY while a restore or a pitch reads it. -/
def Sys2Proof.Machine.HostInstructions : Prop :=
  ∀ s x r, leadActs s = true → s.ctx r = some x →
    (s.fw.answered.has s.inp.off = true → exec .hostInstruction s = .next s) ∧
    (∀ l v, s.fw.answered.has s.inp.off = false → s.inp.op = .writeLayout r l v → l < 64 →
      ∃ u y, exec .hostInstruction s = .next u ∧ u.ctx r = some y ∧ y.lays.getD l 0 = v ∧ (∀ k, k ≠ l → y.lays.find k = x.lays.find k) ∧ Answered s u 0 0
        ∧ u.fw.answered.has s.inp.off = true ∧ u.cells = s.cells ∧ u.mem = s.mem) ∧
    (∀ q base lsz pri wto, s.fw.answered.has s.inp.off = false → s.inp.op = .createQueue q r base lsz pri wto true → s.inp.fn ≠ 0 →
      ∃ u, exec .hostInstruction s = .next u ∧ Answered s u 12 0 ∧ u.queues = s.queues) ∧
    (∀ a v, s.fw.answered.has s.inp.off = false → s.inp.op = .writePte a v → tableAddr a = true → (∀ e ∈ s.fw.waiting, e.1 ≠ s.inp.off) → KeepsTables s a v →
      ∃ u, exec .hostInstruction s = .next u ∧ EntryWritten s u a v ∧ u.fw.waiting = s.fw.waiting ++ [(s.inp.off, a)] ∧ u.reports = s.reports) ∧
    (∀ m rest, s.inp.ctx = r → s.fw.answered.has s.inp.off = false → s.inp.chan < 32 → (x.vpe s.inp.vpe).amask.getLsbD s.inp.chan = true → (x.vpe s.inp.vpe).queues.getD s.inp.chan [] = m :: rest →
      (s.inp.flag = true → ∃ u, exec .amaskClear s = .next u ∧ (vpeOf u r s.inp.vpe).amask.getLsbD s.inp.chan = false
        ∧ (vpeOf u r s.inp.vpe).queues.getD s.inp.chan [] = m :: rest ∧ (vpeOf u r s.inp.vpe).used = (x.vpe s.inp.vpe).used ∧ u.mem = s.mem) ∧
      (s.inp.flag = false → ∃ u, exec .amaskClear s = .next u ∧ (vpeOf u r s.inp.vpe).amask.getLsbD s.inp.chan = false
        ∧ (vpeOf u r s.inp.vpe).queues.getD s.inp.chan [] = rest ∧ (vpeOf u r s.inp.vpe).used = (x.vpe s.inp.vpe).used - 1 ∧ u.mem = s.mem)) ∧
    (s.inp.ctx = r → s.fw.answered.has s.inp.off = false →
      (imageRead s r (bits s.inp.word 52 12) = false →
        ∃ u, exec .releaseImage s = .next u ∧ u.images = s.images.filter (fun e => !(e.1 == r && bits e.2.1 52 12 == bits s.inp.word 52 12)) ∧ Answered s u 0 0) ∧
      (imageRead s r (bits s.inp.word 52 12) = true → ∃ u, exec .releaseImage s = .next u ∧ u.images = s.images ∧ Answered s u 8 0))

/-- R157, R159, R309, R177, R408, R171, R396, R44: what firmware and the security core write on host instruction, the instructions of the lead answered once: filters, comparators, slot tables from the next frame on, AGEL, DBGCTL and grants, with reserved bits
zero, and nothing else; a grant of a locked interface is rejected; a key newly installed is the next fresh number, which stands for a key that nothing was ever encrypted with (log entry 66). -/
def Sys2Proof.Machine.FirmwareWrites : Prop :=
  ∀ s, takesHost s = true →
    (∀ w0 w1 w2 w3, s.inp.idx < 16 → s.inp.words = [w0, w1, w2, w3] → let f : List Word := [w0 &&& 0xE003FFFFF0000000, w1 &&& 0x000FFFFFFFFFFFFF, w2 &&& 0x000FFFFFFFFFFFFF, 0]
      exec .writeWatchFilter s = .next (answerHost { s with filters := s.filters.put s.inp.idx f } 0 0)) ∧
    (∀ j (h : j < 4), s.inp.idx = j → s.inp.cell < 3072 → ∃ u, exec .writeWatchComparator s = .next u ∧ u = answerHost (s.setCell s.inp.cell (u.cell s.inp.cell)) 0 0
      ∧ (u.cell s.inp.cell).wcmp[j] = s.inp.word &&& (match j with | 0 => 0xE03FFFF00003FFFF | 1 => 0xE000000000001FFF | 2 => 0x800000000000007F | _ => 0xE000000000000007)
      ∧ (u.cell s.inp.cell).slots = (s.cell s.inp.cell).slots) ∧
    (s.inp.die < 4 → s.inp.rank < 96 → ∃ t, exec .writeSlotTable s = .next (answerHost { s with slotNext := s.slotNext.put (s.inp.die * 96 + s.inp.rank) (s.clkOf s.inp.die / 4096, t) } 0 0)
      ∧ ∀ i < 16, bits t (16 * i) 10 = bits s.inp.bits (16 * i) 10 ∧ bits t (16 * i + 10) 5 = 0 ∧ bits t (16 * i + 15) 1 = bits s.inp.bits (16 * i + 15) 1) ∧
    (s.inp.cell < 3072 → exec .writeAgel s = .next (answerHost (s.setCell s.inp.cell { s.cell s.inp.cell with agel := s.inp.word.setWidth 16 }) 0 0)) ∧
    (∀ x, s.ctx s.inp.ctx = some x →
      exec .writeDbgctl s = .next (answerHost (s.setCtx s.inp.ctx { x with dbgctl := s.inp.word &&& 0xFFFFFF000000FF83 }) 0 0) ∧
      (s.inp.idx < 256 → configLocked s s.inp.ctx = true → (s.sec.spdm && s.sec.attested) = false → exec .grantTableWrite s = .next (s.setIface x.fn { s.iface x.fn with tdisp := 3 })) ∧
      (∀ g, s.inp.idx < 256 → configLocked s s.inp.ctx = false → s.inp.grant = some g → exec .grantTableWrite s = .next (s.setCtx s.inp.ctx { x with grants := x.grants.put s.inp.idx g })) ∧
      (s.inp.idx < 256 → configLocked s s.inp.ctx = false → s.inp.grant = none → exec .grantTableWrite s = .next (s.setCtx s.inp.ctx { x with grants := x.grants.del s.inp.idx })) ∧
      (s.inp.idx < 256 → s.inp.flag = false → exec .cxlKeyInstall s = .next ({ s with fresh := s.fresh + 1 }.setCtx s.inp.ctx { x with keys := x.keys.put s.inp.idx s.fresh })))

/-- R45, R396, R398: a read or write of the host through an object of a context of its function is carried out while the interface is not locked, or runs over IDE; while it is locked, in ERROR, after a hot reset, or for
another function it is refused and changes no byte; one that must wait for an earlier write of the host changes nothing yet. -/
def Sys2Proof.Machine.HostMemoryRequests : Prop :=
  ∀ s r x, s.inp.ctx = r → s.ctx r = some x →
    let o := s.inp.word
    let v : View := ⟨some r, none, 0, false, true⟩
    (x.fn = s.inp.fn → x.detached = false → s.sec.recovery = false →
      ((s.iface s.inp.fn).tdisp = 0 ∨ ((s.iface s.inp.fn).tdisp = 2 ∧ s.sec.ide.has s.inp.fn = true)) → 32 ≤ bits o 52 12 →
      (∀ n t l, s.inp.access = .read n → checkRef s v o n 1 8 = .ok t → InMemory t → locate s v t n false = .ok l → PlainPlace l n → s.poisoned l.keys = false →
        (extWaits s (.host s.inp.fn) t n s.inp.flag = true → exec .hostMemoryRequest s = .next s) ∧
        (extWaits s (.host s.inp.fn) t n s.inp.flag = false →
          ∃ u, exec .hostMemoryRequest s = .next u ∧ u.answers = s.answers ++ [0#8 :: s.bytesAt l] ∧ ∀ a, a ∉ l.leaves → readByte u.mem a = readByte s.mem a)) ∧
      (∀ b t l, s.inp.access = .write b → checkRef s v o b.length 2 9 = .ok t → InMemory t → locate s v t b.length true = .ok l → PlainPlace l b.length →
        extWaits s (.host s.inp.fn) t b.length s.inp.flag = false →
        ∃ u, exec .hostMemoryRequest s = .next u ∧ u.answers = s.answers ++ [[0#8]] ∧ StoredAt s u l b)) ∧
    ((s.iface s.inp.fn).tdisp = 3 → exec .hostMemoryRequest s = .next { s with answers := s.answers ++ [[5#8]] }) ∧
    ((s.iface s.inp.fn).tdisp ≠ 3 → x.fn ≠ s.inp.fn ∨ x.detached = true ∨ (s.iface s.inp.fn).tdisp = 1 →
      exec .hostMemoryRequest s = .next { s with answers := s.answers ++ [[1#8]] })

namespace Sys2Proof.Machine

/-! ### Saves, strikes, pitches and links -/

/-- Job `n` of the state. -/
def jobIs (s : State) (n : Nat) (g : Job → Prop) : Prop := ∃ j, s.jobs.find n = some j ∧ g j

end Sys2Proof.Machine

/-- R376, R377, R380: when the context stands still and no page that the image needs is absent, a save of C.SAVE unloads its barriers, writes its image, frees its cells and gives its queue OK with the image's length,
the context staying resident; after SAVE_LIMIT ms it is abandoned, the context contained with its cells kept; SAVE_LIMIT takes 1 to 65535, and any other value is refused. -/
def Sys2Proof.Machine.SaveEvents : Prop :=
  ∀ s r x v, s.inp.ctx = r → s.ctx r = some x → x.saving = some v → s.inp.words = [] → shootDone s = true →
    (v.kind ≠ 2 → quiet s r x = true → s.inp.flag = true → exec .saveQuiesceComplete s = .next (s.setCtx r { x with unloaded := true })) ∧
    (∀ q y, v.kind ≠ 2 → quiet s r x = true → s.inp.flag = false → v.queue = some q → s.ctx (s.queue q).ctx = some y →
      imageRoom (s.setCtx r { x with unloaded := true }) r { x with unloaded := true } v none = true →
      imageLength (sectionList (s.setCtx r { x with unloaded := true }) r { x with unloaded := true } none)
        ≤ roomOf (if (s.queue q).ctx = r then { x with unloaded := true } else y) v.image →
      ∃ u z n, exec .saveQuiesceComplete s = .next u ∧ u.ctx r = some z ∧ z.cells = [] ∧ z.saving = none ∧ z.unloaded = true ∧ z.objs = x.objs ∧ z.caps = x.caps
        ∧ (∀ c ∈ x.cells, (u.cell c).ctx = none) ∧ (u.queue q).result = some (0, n) ∧ (∀ p ∈ u.held, p.ctx ≠ r)
        ∧ ∃ e ∈ u.images, e.1 = (s.queue q).ctx ∧ e.2.1 = v.image) ∧
    (quiet s r x = false → v.kind ≠ 2 → exec .saveQuiesceComplete s = .next s) ∧
    (s.saveLimit * 1000000 ≤ (s.time - v.start).toNat →
      writable s (imageCtx s v r) v.image (min (64 + 32 * (sectionList s r x (if v.kind = 2 then some ([], []) else none)).length)
        (((s.ctx (imageCtx s v r)).map fun y => roomOf y v.image).getD 0)) = true →
      ∃ u z, exec .saveWatchdogExpiry s = .next u ∧ u.ctx r = some z ∧ z.contained = true ∧ z.saving = none ∧ z.cells = x.cells ∧ u.cells = s.cells) ∧
    ((s.time - v.start).toNat < s.saveLimit * 1000000 → exec .saveWatchdogExpiry s = .next s) ∧
    (takesHost s = true →
      (1 ≤ s.inp.n → s.inp.n ≤ 65535 → exec .setSaveLimit s = .next (answerHost { s with saveLimit := s.inp.n } 0 0)) ∧
      (s.inp.n = 0 ∨ 65535 < s.inp.n → exec .setSaveLimit s = .next (answerHost s 12 0)))

/-- R381, R346: a job descriptor of a context of the registering function that is whole and names this device is registered under its JOBID and joined to its context; one that does not name it is REFUSED,
one whose JOBID is registered IDUSED; a job in no strike and no pitch can be unregistered; the lead answers an instruction that it has not answered before. -/
def Sys2Proof.Machine.JobRegistration : Prop :=
  ∀ s j w, takesHost s = true → s.inp.words = [] → (∀ x, s.ctx s.inp.ctx = some x → x.fn = s.inp.fn) → descriptorOf s s.inp.ctx s.inp.word = .ok j → serviceWords s s.inp.ctx s.inp.word 1 2 = .ok [w] →
    let id := bits w 32 32
    ((∃ m ∈ j.members, m.1 = s.devId.toNat) → s.jobs.find id = none →
      ∃ u, exec .registerJob s = .next u ∧ u.jobs.find id = some j ∧ (∀ x, u.ctx (jobCtx s j) = some x → x.job = some id) ∧ Answered s u 0 0 ∧ u.cells = s.cells ∧ u.mem = s.mem) ∧
    ((∀ m ∈ j.members, m.1 ≠ s.devId.toNat) → ∃ u, exec .registerJob s = .next u ∧ Answered s u 12 0 ∧ u.jobs = s.jobs) ∧
    ((∃ m ∈ j.members, m.1 = s.devId.toNat) → (s.jobs.find id).isSome → ∃ u, exec .registerJob s = .next u ∧ Answered s u 5 0 ∧ u.jobs = s.jobs) ∧
    (∀ k, s.jobs.find s.inp.job = some k → k.queue = none →
      (k.phase = 0 ∨ k.phase = 5 → s.inp.job < 2 ^ 32 → ∃ u, exec .unregisterJob s = .next u ∧ u.jobs.find s.inp.job = none ∧ Answered s u 0 0) ∧
      (k.phase = 1 ∨ k.phase = 6 → ∃ u, exec .unregisterJob s = .next u ∧ u.jobs = s.jobs ∧ Answered s u 8 0))

/-- R383, Table 16.8: a strike request begins HALT, with a pre-emption request at every cell of the job's context, or on a device without the job is answered ABSENT with a peg on every port
that is up (firmware has the pages of the areas present by then, and an event without their entries); HALT goes to DRAIN when no slot of the job runs and its kicks are settled, DRAIN to PEG when no job packet is left on the dies, and then, with no job packet in a port, a peg is sent on every job-facing port: one over which a route reaches a member, or whose partner is one; a peg is counted. -/
def Sys2Proof.Machine.StrikePhases : Prop :=
  ∀ s n, s.inp.job = n →
    (s.jobs.find n = none → ∃ u, exec .strikeRequest s = .next u ∧ u = { s with reports := u.reports } ∧ [5, word n, 1, 0] ∈ u.reports
      ∧ ∀ p < 24, (s.port p).up = true → [6, word n, word p] ∈ u.reports) ∧
    (∀ j x, s.jobs.find n = some j → s.ctx (jobCtx s j) = some x →
      (j.phase = 0 → x.saving = none → (s.ctx j.ctx).isSome → s.inp.words = [] → shootDone s = true → areasReady s j = true → ∃ u z, exec .strikeRequest s = .next u ∧ jobIs u n (fun k => k.phase = 1 ∧ k.members = j.members)
        ∧ (∀ c ∈ x.cells, (u.cell c).preempt = true) ∧ u.ctx (jobCtx s j) = some z ∧ ∃ v, z.saving = some v ∧ v.kind = 2 ∧ v.image = j.image ∧ v.start = s.time) ∧
      (j.phase = 1 → (∀ c ∈ x.cells, ∀ k < 4, (s.slot c k).status ≠ .running) → kicksDone s (jobCtx s j) = true →
        exec .strikeHaltComplete s = .next { s with jobs := s.jobs.put n { j with phase := 2 } }) ∧
      (j.phase = 1 → (∃ c ∈ x.cells, ∃ k < 4, (s.slot c k).status = .running) → exec .strikeHaltComplete s = .next s) ∧
      (j.phase = 2 → (∀ p ∈ s.net, jobPacket j p = false) →
        exec .strikeDrainComplete s = .next { s with jobs := s.jobs.put n { j with phase := 3 } }) ∧
      (j.phase = 2 → (∃ p ∈ s.net, jobPacket j p = true) → exec .strikeDrainComplete s = .next s) ∧
      (j.phase = 3 → j.queue = none → (∀ p < 24, ∀ k ∈ (s.port p).egress ++ (s.port p).ingress, jobPacket j k = false) → allPegged s j = false →
        s.inp.words = [] → shootDone s = true → resetStop s j = false →
        ∃ u, exec .strikeSweepComplete s = .next u ∧ jobIs u n (fun k => k.phase = 4) ∧ u.mem = s.mem
          ∧ (∀ m ∈ j.members, m.1 ≠ s.devId.toNat → ∀ p < 24, s.routes.find m.1 = some p → [6, word n, word p] ∈ u.reports)
          ∧ ∀ p < 24, (s.port p).up = true → (∃ m ∈ j.members, m.1 = (s.port p).partner ∧ m.1 ≠ s.devId.toNat) → [6, word n, word p] ∈ u.reports) ∧
      (j.phase = 3 → (s.inp.port, s.inp.dev) ∉ j.pegs → j.queue = none →
        exec .sweepPegArrival s = .next { s with jobs := s.jobs.put n { j with pegs := j.pegs ++ [(s.inp.port, s.inp.dev)] } }))

/-- R386, R383, R387: a job packet behind its port's pegs is late: it is recorded and counted; a member's report is noted once, and the last gives the waiting command its status; a member whose
check of a pitch passes is prepared and says so, and one whose check fails reports its status and changes nothing else; a prepared member whose check passes again, and that no command
waits at or that knows every check passed, restores behind a closed gate; a pitch that one member refuses with REFUSED, every other having passed its check, ends its command with REFUSED and that member's identifier. -/
def Sys2Proof.Machine.PitchAndReports : Prop :=
  ∀ s n, s.inp.job = n →
    (∀ j, s.jobs.find n = some j → j.phase = 4 → jobPacket j { s.inp.pkt with inport := s.inp.port, tsw := s.time } = true → portPegged s j s.inp.port = true →
      (s.port s.inp.port).up = true → (areaHead s j.ctx j.lateA).1 < recordRoom s j.ctx j.lateA → s.errRing = none →
      s.inp.words = [] → shootDone s = true → areaReady s j.ctx j.lateA ((areaHead s j.ctx j.lateA).1 + 1) = true →
      ∃ u w, exec .latePacket s = .next u ∧ jobIs u n (fun k => k.arr.getD s.inp.port 0 = j.arr.getD s.inp.port 0 + 1) ∧ u.errors = s.errors ++ [w]
        ∧ bits (w.getD 0 0) 56 8 = 8 ∧ u.cells = s.cells ∧ u.net = s.net) ∧
    (∀ j m q, s.jobs.find n = some j → m ∈ j.members → m.1 = s.inp.dev → (s.inp.dev, s.inp.report) ∉ j.reports → j.phase = 5 → j.queue = some q →
      s.inp.report = .struck → (∀ e ∈ j.reports, e.2 = .struck) → (∀ k ∈ j.members, k.1 = s.inp.dev ∨ ∃ e ∈ j.reports, e.1 = k.1) →
      ∃ u, exec .memberReport s = .next u ∧ (u.queue q).result = some (0, 0) ∧ jobIs u n (fun k => k.queue = none ∧ k.reports = j.reports ++ [(s.inp.dev, .struck)])) ∧
    (∀ j, s.jobs.find n = some j → (s.inp.dev, s.inp.report) ∈ j.reports → exec .memberReport s = .next s) ∧
    (s.jobs.find n = none → ∃ u, exec .pitchRequest s = .next u ∧ [5, word n, 3, 13] ∈ u.reports ∧ u.ctxs = s.ctxs ∧ u.cells = s.cells ∧ u.jobs = s.jobs) ∧
    (∀ j, s.jobs.find n = some j → s.inp.n = 0 → (∃ e ∈ j.reports, e.2 = .absent) →
      ∃ u, exec .pitchRequest s = .next u ∧ [5, word n, 3, 13] ∈ u.reports ∧ u.ctxs = s.ctxs ∧ u.cells = s.cells ∧ u.jobs = s.jobs) ∧
    (∀ j, s.jobs.find n = some j → j.phase = 5 → s.inp.n = 0 → (∀ e ∈ j.reports, e.2 ≠ .absent) →
      (∀ a, pitchCheck s j s.inp.flag = .ok a → exec .pitchRequest s = .next { s with
        jobs := s.jobs.put n { j with phase := 6, accept := s.inp.flag, reports := [(s.devId.toNat, .passed)] }, reports := s.reports ++ [[5, word n, 7, 0]] }) ∧
      (∀ c v, pitchCheck s j s.inp.flag = .error (.status c v) → ∃ u, exec .pitchRequest s = .next u ∧ u.jobs.find n = some j ∧ u.ctxs = s.ctxs ∧ u.cells = s.cells
        ∧ (s.errRing = none → u.mem = s.mem) ∧ [5, word n, 3, word c] ∈ u.reports)) ∧
    (∀ j m q, s.jobs.find n = some j → m ∈ j.members → m.1 = s.inp.dev → (∀ r, (s.inp.dev, r) ∉ j.reports) → j.phase = 6 → j.queue = some q →
      s.inp.report = .refused 12 → (∀ e ∈ j.reports, e.2 = .passed) → (∀ k ∈ j.members, k.1 = s.inp.dev ∨ ∃ e ∈ j.reports, e.1 = k.1) → s.inp.dev < 512 →
      ∃ u, exec .memberReport s = .next u ∧ (u.queue q).result = some (12, s.inp.dev) ∧ jobIs u n (fun k => k.queue = none ∧ k.phase ≠ 6)) ∧
    (∀ j m r cells d, s.jobs.find n = some j → j.phase = 6 → s.inp.n ≠ 0 → (j.queue = none ∨ ∀ k ∈ j.members, (k.1, .passed) ∈ j.reports) → pitchCheck s j j.accept = .ok (m, r, cells) → d ∈ j.members → d.1 ≠ s.devId.toNat →
      (d.1, .reinjected) ∉ j.reports →
      ∃ u, exec .pitchRequest s = .next u ∧ jobIs u n (fun k => k.phase = 7 ∧ k.gate = false ∧ (s.devId.toNat, .reinjected) ∈ k.reports) ∧ [5, word n, 2, 0] ∈ u.reports)

/-- R53 to R55, R400, R442: an arriving message joins its channel's queue while its virtual PE has room and nothing of it has spilled, and goes to the spill ring, marked SPILL, when there is no room; a message for another device goes on to its port; a flit that passes leaves its port,
the eighth failed replay takes the link down, and a link that goes down contains the contexts of this device that lose a message by it, as its senders or receivers; an undeliverable message is discarded with a TYPE 13 record. -/
def Obligations.LinksAndArrivals : Prop :=
  ∀ s,
    (∀ (i : Nat) p x, s.inp.arrival = .net i → s.net[i]? = some p → (∀ q ∈ s.net.take i, sameTriple p q = false) → s.ctx p.dctx = some x → x.cells ≠ [] → p.dvpe < x.fold.v →
      let c := hostCell x p.dvpe
      let ch := bits p.msg.hdr 11 5
      let m := { p.msg with enq := if p.msg.enq = 0 then s.time else p.msg.enq, via := if p.inport < 24 then some (p.inport, p.tsw) else p.msg.via }
      (s.cell c).netHeld = [] → isExchange p.msg = false →
      ((x.vpe p.dvpe).used < share x → (∀ e ∈ (s.cell c).spill, e.1 ≠ p.dvpe) → (s.cell c).ctx = some p.dctx → NoStreams s c →
        ∃ u, exec .messageArrival s = .next u ∧ (vpeOf u p.dctx p.dvpe).queues.getD ch [] = (x.vpe p.dvpe).queues.getD ch [] ++ [m]
          ∧ (vpeOf u p.dctx p.dvpe).used = (x.vpe p.dvpe).used + 1 ∧ u.net = without s.net i ∧ u.cells = s.cells ∧ u.mem = s.mem) ∧
      (share x ≤ (x.vpe p.dvpe).used → (s.cell c).spill.length < spillRoom x (s.cell c) →
        ∃ u, exec .messageArrival s = .next u ∧ (u.cell c).spill = (s.cell c).spill ++ [(p.dvpe, ch, flagMsg m 4)] ∧ u.net = without s.net i ∧ u.ctxs = s.ctxs ∧ u.mem = s.mem)) ∧
    (∀ port p out, s.inp.arrival = .link port p → (s.port port).up = true → (∀ e ∈ s.jobs, jobPacket e.2 { p with inport := port, tsw := s.time, msg := { p.msg with enq := 0, ret := none } } = false) →
      p.ddev ≠ s.devId.toNat → s.routes.find p.ddev = some out → (s.port out).up = true →
      ∃ u q, exec .messageArrival s = .next u ∧ (u.port out).egress = (s.port out).egress ++ [q] ∧ q.msg.hdr = p.msg.hdr ∧ q.msg.pay = p.msg.pay ∧ q.inport = port
        ∧ q.ddev = p.ddev ∧ u.ctxs = s.ctxs ∧ u.mem = s.mem) ∧
    (∀ port, s.inp.port = port → (s.port port).up = true →
      (s.inp.flag = true → exec .flitReplay s = .next (s.setPort port { s.port port with fails := 0, egress := (s.port port).egress.drop 1 })) ∧
      (s.inp.flag = false → (s.port port).fails + 1 < 8 → exec .flitReplay s = .next (s.setPort port { s.port port with fails := (s.port port).fails + 1 })) ∧
      (s.inp.flag = false → 7 ≤ (s.port port).fails → ∃ u, exec .flitReplay s = .next u ∧ (u.port port).up = false ∧ (u.port port).egress = []) ∧
      ∃ u, exec .linkDown s = .next u ∧ (u.port port).up = false ∧ (u.port port).egress = [] ∧ (s.errRing = none → u.mem = s.mem)
        ∧ (∀ p ∈ (s.port port).egress, (p.sdev = s.devId.toNat → 24 ≤ p.inport → Contained u p.sctx) ∧ (p.ddev = s.devId.toNat → Contained u p.dctx))
        ∧ ∀ r ∈ s.inp.words, Contained u r.toNat) ∧
    (s.inp.pkt.ddev = s.devId.toNat → (s.port s.inp.port).up = true → s.ctx s.inp.pkt.dctx = none → (∀ e ∈ s.jobs, jobPacket e.2 s.inp.pkt = false) → s.errRing = none →
      ∃ u w, exec .undeliverableMessage s = .next u ∧ u.errors = s.errors ++ [w] ∧ bits (w.getD 0 0) 56 8 = 13 ∧ bits (w.getD 0 0) 53 1 = 0
        ∧ u.ctxs = s.ctxs ∧ u.cells = s.cells ∧ u.mem = s.mem ∧ u.reports.length = s.reports.length + 1) ∧
    (s.errRing = none → ∃ u w, exec .undeliverableRefusal s = .next u ∧ u.errors = s.errors ++ [w] ∧ bits (w.getD 0 0) 56 8 = 13 ∧ bits (w.getD 0 0) 53 1 = 1
      ∧ u.ctxs = s.ctxs ∧ u.cells = s.cells ∧ u.mem = s.mem)

/-- R399, R58, R344, R328: a device warm reset leaves no context, capsule, queue, key or mapping, and every byte outside host memory and the CXL tier zero; Kseal is new; DFC 0 is the lead with epoch 1; the
device's identity, its boot flash and its security floor stay. -/
def Sys2Proof.Machine.WarmReset : Prop :=
  ∀ s, ∃ u, exec .deviceWarmReset s = .next u ∧ u.ctxs = [] ∧ u.caps = [] ∧ u.queues = [] ∧ u.cells = [] ∧ u.posted = [] ∧ u.held = [] ∧ u.jobs = [] ∧ u.faults = []
    ∧ u.codeStore = [] ∧ u.sec.ide = [] ∧ u.sec.spdm = false ∧ u.sec.secret = none ∧ u.sec.attested = false ∧ u.sec.flash = s.sec.flash ∧ u.time = 0 ∧ u.saveLimit = 1000 ∧ u.fw.lead = some 0 ∧ u.fw.epoch = 1 ∧ (∀ d < 6, u.dfc d = Dfc.reset)
    ∧ (∀ a, hostKey a = false → cxlKey a = false → readByte u.mem a = 0) ∧ (∀ a, hostKey a = true ∨ cxlKey a = true → readByte u.mem a = readByte s.mem a) ∧ u.sec.kseal = s.fresh ∧ u.devId = s.devId ∧ u.sec.floor = s.sec.floor

/-- R392 to R395: a boot takes the image of the current slot in boot flash; where its signature verifies and its version is not below the floor, it extends every measurement by SHA-512, loads its hash and microcode and starts the six
firmware cores with its code, and otherwise loads nothing; after three failures the other slot is tried, with a fallback event in MEAS1, and then recovery; FIRMWARE_READY clears the attempts; RAISE_SECURITY_FLOOR never lowers the floor
and acts only in an SPDM session, which a key exchange precedes; the certificate chain, an exchange and a measurement are answered, the last sealed inside a session (which bytes are digested, and the form of an answer, are the model's, log
entries 102 and 103). -/
def Sys2Proof.Machine.BootAndAttestation : Prop :=
  ∀ s,
    (s.sec.recovery = false → s.sec.meas = [] → s.sec.attempts < 3 →
      let m := imageIn s.sec (currentSlot s.sec)
      (Config.bootVerify (imageDigest m) m.sig = true → s.sec.floor ≤ m.version → ∃ u, exec .boot s = .next u ∧ u.sec.attempts = s.sec.attempts + 1 ∧ u.fw.ibh = m.ibh ∧ u.fw.micro = m.micro
        ∧ (∀ i < 8, u.sec.meas.getD i 0 = Config.sha512 (bytesOf 64 0 ++ bytesOf 64 ((measured s.sec m).getD i 0).toNat))
        ∧ ∀ d < 6, u.dfc d = { Dfc.reset with code := m.dfc }) ∧
      (Config.bootVerify (imageDigest m) m.sig = false ∨ m.version < s.sec.floor →
        ∃ u, exec .boot s = .next u ∧ u.sec.attempts = s.sec.attempts + 1 ∧ u.sec.meas = [] ∧ u.fw.lead = none ∧ ∀ d < 6, (u.dfc d).alive = false)) ∧
    (s.sec.recovery = false → s.sec.meas = [] → 3 ≤ s.sec.attempts → s.sec.other = true →
      exec .boot s = .next { s with sec := { s.sec with recovery := true } }) ∧
    (s.sec.recovery = false → s.sec.meas = [] → 3 ≤ s.sec.attempts → s.sec.other = false →
      let x := { s.sec with slotB := !s.sec.slotB, attempts := 1, other := true }
      let m := imageIn x (currentSlot x)
      let e := Config.sha512 (bytesOf 64 0 ++ bytesOf 64 (slotEvent [currentSlot s.sec, currentSlot x]).toNat)
      ∃ u, exec .boot s = .next u ∧ u.sec.slotB = !s.sec.slotB ∧ u.sec.attempts = 1 ∧ u.sec.other = true
        ∧ (imageGood x m = true → u.fw.ibh = m.ibh ∧ u.sec.meas.getD 1 0 = Config.sha512 (bytesOf 64 e.toNat ++ bytesOf 64 (slotEvent [currentSlot x]).toNat))
        ∧ (imageGood x m = false → u.fw.lead = none ∧ u.sec.meas.getD 1 0 = e)) ∧
    (s.fw.lead.isSome = true → exec .firmwareReady s = .next { s with sec := { s.sec with attempts := 0, other := false } }) ∧
    (s.sec.spdm = true → exec .raiseSecurityFloor s = .next { s with sec := { s.sec with floor := max s.sec.floor s.inp.n } }) ∧
    (s.sec.spdm = false → exec .raiseSecurityFloor s = .next s) ∧
    (s.inp.spdm = .certificate → s.sec.spdm = false → ∃ u, exec .spdmRequest s = .next u ∧ u.answers = s.answers ++ [0#8 :: Config.certificates] ∧ u.sec = s.sec) ∧
    (∀ share, s.inp.spdm = .keyExchange share → s.sec.spdm = false → ∃ u n, exec .spdmRequest s = .next u ∧ u.sec = { s.sec with secret := some (Config.ecdheSecret n share) }
      ∧ u.answers = s.answers ++ [0#8 :: (Config.ecdheShare n ++ Config.identitySign (Config.sha512 (share ++ Config.ecdheShare n)))]) ∧
    (s.inp.spdm = .session → s.sec.secret.isSome = true → exec .spdmRequest s = .next { s with sec := { s.sec with spdm := true } }) ∧
    (s.inp.spdm = .session → s.sec.secret = none → ∃ u, exec .spdmRequest s = .next u ∧ u.sec = s.sec) ∧
    (∀ n, s.inp.spdm = .measure n → 1 ≤ n → n ≤ 8 →
      let b := bytesOf 64 (s.sec.meas.getD (n - 1) 0).toNat
      ∃ u, exec .spdmRequest s = .next u ∧ u.sec.meas = s.sec.meas ∧ u.mem = s.mem ∧ u.sec.attested = (s.sec.attested || s.sec.spdm)
        ∧ (s.sec.spdm = false ∨ s.sec.secret = none → u.answers = s.answers ++ [0#8 :: b])
        ∧ (∀ k, s.sec.spdm = true → s.sec.secret = some k → ∃ c, u.answers = s.answers ++ [0#8 :: Config.sealTraffic k c b]))

/-- R396, R397, R398, Table 17.2: the interface goes from CONFIG_UNLOCKED to CONFIG_LOCKED to RUN, and back on a stop; a configuration write is taken while it is unlocked, and puts it into ERROR
otherwise (in recovery the interface of a virtual function does none of this); a hot reset of a device with one context detaches it if its interface is protected, and stops it where it keeps cells, contains it otherwise, and unlocks
every interface and ends the SPDM session (the number of the job that stops a context without a descriptor is the model's, log entry 61). -/
def Sys2Proof.Machine.InterfaceStates : Prop :=
  ∀ s f t, s.inp.fn = f → (s.iface f).tdisp = t → (s.sec.recovery = false ∨ f = 0) →
    let To (u : State) (n : Nat) : Prop := u = s.setIface f { s.iface f with tdisp := n }
    (t = 0 → ∃ u, exec .lockInterface s = .next u ∧ To u 1) ∧ (t ≠ 0 → exec .lockInterface s = .next s) ∧
    (t = 1 → ∃ u, exec .startInterface s = .next u ∧ To u 2) ∧ (t ≠ 1 → exec .startInterface s = .next s) ∧
    (∃ u, exec .stopInterface s = .next u ∧ To u 0) ∧
    (t = 0 → exec .configWrite s = .next (s.setIface f { s.iface f with regs := (s.iface f).regs.put s.inp.reg s.inp.word })) ∧
    (t ≠ 0 → ∃ u, exec .configWrite s = .next u ∧ To u 3) ∧
    (t ≠ 0 → ∃ u, exec .ideIntegrityFailure s = .next u ∧ To u 3) ∧ (t = 0 → exec .ideIntegrityFailure s = .next s) ∧
    (∀ r x, s.ctxs = [(r, x)] → ∃ u y, exec .pcieHotReset s = .next u ∧ u.ctx r = some y ∧ (∀ e ∈ u.ifaces, e.2.tdisp = 0) ∧ u.sec.spdm = false ∧ u.sec.ide = [] ∧ u.sec.secret = none ∧ u.sec.attested = false
      ∧ (((s.iface x.fn).tdisp = 1 ∨ (s.iface x.fn).tdisp = 2) → y.detached = true ∧ y.contained = x.contained ∧ (∀ c ∈ x.cells, (u.cell c).preempt = true)
        ∧ (x.cells ≠ [] → x.saving = none → x.job = none → ∃ j, u.jobs.find (ownJob r) = some j ∧ j.phase = 1))
      ∧ ((s.iface x.fn).tdisp = 0 ∨ (s.iface x.fn).tdisp = 3 → y.contained = true ∧ y.detached = x.detached))

/-- R401, R402, R58: setting a performance state changes nothing else; IS3 is refused for a rank that holds context state and else loses its scratchpads; a rank asked for IS0 is there after its exit; a thermal trip
puts the die into its trip state, PS7 with IS1 where none is set, with an error record. -/
def Sys2Proof.Machine.PowerStates : Prop :=
  ∀ s d, s.inp.die = d → d < 4 →
    (s.inp.n ≤ 7 → exec .setPerformanceState s = .next { s with power := { s.power with ps := s.power.ps.put d s.inp.n, tripped := s.power.tripped.drop d } }) ∧
    (let g := d * 96 + s.inp.rank
     s.inp.rank < 96 →
      (s.inp.n = 1 ∨ s.inp.n = 2 → exec .setIdleState s = .next { s with power := { s.power with
        idle := s.power.idle.put g s.inp.n, exiting := s.power.exiting.drop g, tripped := s.power.tripped.drop d } }) ∧
      (s.inp.n = 3 → (∀ i < 8, cellTaken s (8 * g + i) = false) → ∃ u, exec .setIdleState s = .next u ∧ u.power.idle.getD g 0 = 3
        ∧ ∀ i < 8, ∀ a < 2 ^ 18, readByte u.mem (scratchKey (8 * g + i) a) = 0) ∧
      (s.inp.n = 3 → (∃ i < 8, cellTaken s (8 * g + i) = true) → s.errRing = none →
        ∃ u w, exec .setIdleState s = .next u ∧ u.errors = s.errors ++ [w] ∧ u.power = s.power ∧ u.mem = s.mem ∧ u.cells = s.cells) ∧
      (s.power.exiting.has g = true → exec .idleStateExit s = .next { s with power := { s.power with idle := s.power.idle.put g 0, exiting := s.power.exiting.drop g } })) ∧
    (s.inp.n ≤ 7 → s.inp.idx ≤ 2 → exec .setTripState s = .next { s with power := { s.power with trip := s.power.trip.put d (s.inp.n, s.inp.idx) } }) ∧
    (2 < s.inp.idx → exec .setTripState s = .next s) ∧
    (s.errRing = none → ∃ u w, exec .thermalTrip s = .next u ∧ u.errors = s.errors ++ [w] ∧ bits (w.getD 0 0) 56 8 = 7 ∧ u.power.ps.getD d 0 = (s.power.trip.getD d (7, 1)).1
      ∧ (∀ k < 96, u.power.idle.getD (96 * d + k) 0 = (s.power.trip.getD d (7, 1)).2) ∧ u.mem = s.mem ∧ u.cells = s.cells)

/-- R403, R405, R229, R3: an uncorrectable error poisons its granule, is recorded with its severity and its place (the oref that the event gives where a context is named, else the address), and contains the context it names when that is CONTAINED; a count of corrected errors is recorded and changes no memory, cell
or context; a DFC event sets its bit and enters the handler when IE is set; FBSTAT's LOST is cleared by a 1. -/
def Obligations.ErrorsAndFirmwareEvents : Prop :=
  ∀ s, s.errRing = none →
    (∃ u w, exec .uncorrectableError s = .next u ∧ u.poison.has (s.inp.off / 16) = true ∧ u.errors = s.errors ++ [w] ∧ u.mem = s.mem ∧ u.cells = s.cells
      ∧ w.getD 2 0 = (if s.inp.sel.isSome then s.inp.word else word s.inp.off) ∧ (1 ≤ s.inp.n → s.inp.n ≤ 3 → bits (w.getD 0 0) 54 2 = s.inp.n) ∧ (s.inp.n = 3 → u.stoppedAll = true)
      ∧ ∀ r x, s.inp.n = 1 → s.inp.sel = some r → s.ctx r = some x → Contained u r) ∧
    (0 < s.inp.n → 1 ≤ s.inp.reg → s.inp.reg ≤ 5 → ∃ u w, exec .correctedErrorReport s = .next u ∧ u.errors = s.errors ++ [w] ∧ bits (w.getD 0 0) 56 8 = s.inp.reg
      ∧ bits (w.getD 0 0) 54 2 = 0 ∧ bits (w.getD 0 0) 0 32 = s.inp.n % 2 ^ 32 ∧ u.mem = s.mem ∧ u.cells = s.cells ∧ u.ctxs = s.ctxs) ∧
    (∀ d, s.inp.die = d → d < 6 → s.inp.n < 8 → (s.dfc d).alive = true → (s.dfc d).pend = none →
      ((s.dfc d).ie = true → (s.dfc d).wfe = false → ∃ u, exec .dfcEvent s = .next u ∧ (u.dfc d).devent.getLsbD s.inp.n = true ∧ (u.dfc d).pc = (s.dfc d).dtvec
        ∧ (u.dfc d).depc = (s.dfc d).pc ∧ (u.dfc d).evt = true ∧ (u.dfc d).pie = true ∧ (u.dfc d).ie = false ∧ (u.dfc d).x = (s.dfc d).x) ∧
      ((s.dfc d).ie = false → (s.dfc d).wfe = true → ∃ u, exec .dfcEvent s = .next u ∧ (u.dfc d).devent.getLsbD s.inp.n = true ∧ (u.dfc d).pc = (s.dfc d).pc + 4
        ∧ (u.dfc d).wfe = false ∧ (u.dfc d).x = (s.dfc d).x)) ∧
    (∀ d, s.inp.rid = .fbstat d → (s.inp.word.getLsbD 0 = true → exec .registerWrite s = .next (s.setFault d { s.fault d with lost := false }))
      ∧ (s.inp.word.getLsbD 0 = false → exec .registerWrite s = .next s))

namespace Sys2Proof.Machine

/-! ### A step, the encoding, and what a step keeps -/

/-- The moving slot may issue and its program counter names instruction `i` of `len` bytes on stored pages of a usable body (R179, R188, R329, R401). -/
def SlotFetches (s : State) (c k : Nat) (i : Instr) (len : Nat) : Prop :=
  let l := s.slot c k
  l.status = .running ∧ l.pend = none ∧ budgetOut l = false ∧ rankGated s c = false ∧ ∃ x, s.capsule l.cap = some x ∧ x.state = 1 ∧ voidBody x = false
    ∧ decodeAt s x.body.bytes l.pc = .ok (i, len) ∧ pageStored s (dieOfCell c) l.cap (l.pc / 4096) = true
    ∧ pageStored s (dieOfCell c) l.cap ((l.pc + len - 1) / 4096) = true

/-- Die firmware core `d` may issue, no event is due to trap, and its program counter names instruction `i` of `len` bytes (R229). -/
def DfcFetches (s : State) (d : Nat) (i : Instr) (len : Nat) : Prop :=
  let x := s.dfc d
  x.alive = true ∧ x.pend = none ∧ (x.ie = false ∨ x.devent = 0) ∧ decodeAt s x.code x.pc.toNat = .ok (i, len)

/-- A cell has the instruction: SRET and WFE are a DFC's, and so is a JALR with a nonzero imm (R215, Table 8.4). -/
def OnCells (i : Instr) : Prop := i ≠ .sret ∧ i ≠ .wfe ∧ ∀ rd rs imm, i = .jalr rd rs imm → imm = 0

/-- Nothing stands before the meaning of `i`: every field holds a legal value, a CSR it names is listed, no matrix instruction and no repetition is outstanding in its slot,
and no register or queue comparator matches it (R160, R195, R290, R294). -/
def Unhindered (s : State) (i : Instr) : Prop :=
  wellFormed i = true ∧ (∀ n, csrOf i = some n → (readCsr s n.toNat).isSome = true) ∧ s.me.mq = [] ∧ s.me.seq.run = none ∧ watched s i = false

/-- A few words of Tables 8.6, 9.6, 10.10, 12.6, 13.7 and 15.9 with what they stand for. -/
def tableWords : List (Nat × Nat × Instr) :=
  [(32, 0x9999454F, .amocasD 5 10 6 3 2), (32, 0x001CC501, .add 5 6 7), (32, 0x02292805, .divu 8 9 10), (32, 0xFFF4050B, .addi 5 0 (-3)), (32, 0x0048051B, .lui 5 0x12),
    (32, 0x4080E71D, .auic 7 7 32 1), (32, 0xFFC40621, .bne 6 0 (-2)), (32, 0x048005C1, .csrr 5 0x120)] ++
  [(32, 0x1031A249, .ldf 2 13 0 3 8), (32, 0x3031C747, .sd 7 14 0 3 0 24), (32, 0x0485424D, .amoaddW 2 10 1 1 1), (32, 0x15800051, .fence 3 1 0 1 0),
    (32, 0x00D12055, .sendm 0 9 20), (32, 0x01004559, .qpop 5 2), (32, 0x0000886B, .vadd 8 4 0 0), (32, 0x0D00256F, .vcvt 5 1 2 3), (32, 0x0C38A469, .vldL 4 5 7 0 3)] ++
  [(32, 0x03921AA1, .mma 2 3 9 7 0), (32, 0x098A83A3, .miter 3 0 0 1 5 6), (32, 0x039861A5, .mld 1 12 0 3 7), (64, 0x012000000000000C, .cMovi 2 12),
    (64, 0x2130000000004203, .cLaunchall 3 0 3 0 0x42), (64, 0x2812000000000004, .cWaitsem 1 2 0 1 0 0)]

end Sys2Proof.Machine

/-- R188, R193, R176, R229, R348: a step runs the instruction that the bytes at the moving agent's program counter decode to: of a slot, of a die firmware core, or of the queue an
engine serves (a command of one word or of two, read from the ring or from an indirect buffer, or the one that goes on); the pages fetched are the last fetched from the code store of the slot's die; of a cell's slots the first in the
order of R176 that is ready to issue has the turn, also when another is named; a scheduled device event runs as that event; passing time advances TIME and, where it ends no budget, touches
no byte. -/
def Obligations.StepRunsTheDecodedInstruction : Prop :=
  ∀ s r,
    (∀ c k i len, s.sched = .agent (.slot c k) :: r → slotOrder { s with sched := r } c k = [k] → SlotFetches s c k i len → OnCells i →
      Unhindered { s with sched := r, cur := .slot c k } i → step s = exec i (touchCode { s with sched := r, cur := .slot c k } len)) ∧
    (∀ c k j l u, s.sched = .agent (.slot c k) :: r → slotOrder { s with sched := r } c k = j :: l → slotStep { s with sched := r } c j = .next u →
      step s = if notReady u c j then cellStep c l u else .next u) ∧
    (∀ c k ks i len t, s.sched = .cell c :: r → candidates { s with sched := r } c = k :: ks → SlotFetches s c k i len → OnCells i →
      Unhindered { s with sched := r, cur := .slot c k } i → exec i (touchCode { s with sched := r, cur := .slot c k } len) = .next t → notReady t c k = false → step s = .next t) ∧
    (∀ d i len, s.sched = .agent (.dfc d) :: r → DfcFetches s d i len →
      Unhindered { s with sched := r, cur := .dfc d } i → step s = exec i { s with sched := r, cur := .dfc d }) ∧
    (∀ d e n, s.sched = .engine d :: r → s.engine d = e → e.serving = some n → servable s d n = true → e.served < 64 →
      let q := s.queue n
      let t := { { s with sched := r }.setEngine d { e with served := if q.stalled.isSome then e.served else e.served + 1 } with cur := .queue n }
      let From (u : State) (i : Instr) : Prop := step s = exec i (u.setQueue n { u.queue n with fetched := [], stale := (u.queue n).stale.drop d })
      (∀ i, q.service = some i → step s = exec i t) ∧
      (∀ w u, q.service = none → (∀ b, q.bufs.head? = some b → b.2.2 < b.2.1) → fetchWord t n q 0 = .ok (w, u) →
        (∀ i, bits w 56 8 ≠ 2 → decodeCommand w.toNat 0 = .ok i → wellFormed i = true → From u i) ∧
        (∀ w2 v i, bits w 56 8 = 2 → hasSecond q = true → fetchWord u n q 1 = .ok (w2, v) → decodeCommand w.toNat w2.toNat = .ok i → wellFormed i = true → From v i))) ∧
    (∀ i x, s.sched = .event i x :: r → encodeFields i = [] → step s = exec i { s with sched := r, inp := x, cur := .idle }) ∧
    (∀ clk ns, s.sched = .elapse clk ns :: r → ∃ u, step s = .next u ∧ u.time = s.time + word ns ∧ (expiring s clk = [] → SameMemory s u) ∧ u.sched = r)

/-- Tables 8.6, 9.6, 10.10, 12.6, 13.7, 15.9: the words the tables write out decode to the instructions they write them for. -/
def Obligations.TableWordsDecode : Prop := ∀ e ∈ tableWords, decodeTableWord e.1 e.2.1 = some e.2.2 ∧ encode e.2.2 = e.2.1

/-- R190, R192, R193, R196, R351, R352: for every well-formed instruction of every family, decoding the words that encode it gives it back, with every operand. -/
def Obligations.DecodeAndEncodeAgree : Prop := ∀ i, Laws.RoundTrip.Statement i

/-- Every step that answers a next state keeps the canonical form of memory: addresses rise, and no entry holds what an unlisted byte reads as (the model's own form of memory, log
entry 4). -/
def Obligations.StepKeepsMemoryCanonical : Prop := ∀ s t, Memory.wf s.mem → step s = .next t → Memory.wf t.mem

/-- R58, R338, R344, R399, R402, Table 9.15: after reset memory lists nothing and reads as zero, no context, capsule, queue, key or mapping stands, DFC 0 is the lead with epoch 1, every DFC has its
CSRs zero, and no trip state is set, so that PS7 with IS1 applies. -/
def Obligations.ResetState : Prop :=
  Memory.wf State.reset.mem ∧ (∀ a, readByte State.reset.mem a = 0) ∧ State.reset.full = [] ∧ State.reset.poison = [] ∧ State.reset.ctxs = [] ∧ State.reset.caps = []
    ∧ State.reset.queues = [] ∧ State.reset.codeStore = [] ∧ State.reset.sec.ide = [] ∧ State.reset.fw.lead = some 0 ∧ State.reset.fw.epoch = 1
    ∧ (∀ d < 6, dfcCsr State.reset d 0x800 = some 0 ∧ dfcCsr State.reset d 0x801 = some 0 ∧ dfcCsr State.reset d 0x802 = some 0 ∧ dfcCsr State.reset d 0x803 = some 0
      ∧ dfcCsr State.reset d 0x804 = some 0 ∧ dfcCsr State.reset d 0x805 = some 0) ∧ (∀ d, State.reset.power.trip.getD d (7, 1) = (7, 1)) ∧ State.reset.time = 0

namespace Sys2Proof.Machine

/-- The command `i` of queue `n` completes: in the next state the queue's record is `p`. -/
def CompletesWith (s : State) (n : Nat) (i : Instr) (p : Queue) : Prop := ∃ u, exec i s = .next u ∧ u.queue n = p

end Sys2Proof.Machine

/-- R355 to R366: each command of a queue completes with its own effect, where its conditions hold: in a buffer below level 4 and inside it, C.BEQ, C.BNE, C.BLT, C.BGE, C.JMP, C.LOOP, C.CALL and
C.RET go to word t of it, and C.IB enters another; C.LD, C.ST, C.STAMP, C.SIGSEM and C.WAITSEM act on a place of this device; C.LAUNCH, C.LAUNCHALL, C.FENCE, C.INTR and C.HALT complete, C.COPY
sends its kick and waits for the answer; the other privileged commands are handed to the lead, which is what executing one does at its queue (R365). -/
def Obligations.CommandsComplete : Prop :=
  ∀ s n q, OnQueue s n q → Inside q 1 →
    (∀ o l j r (t : Nat) (d : BitVec 20), 1 ≤ q.lv → q.lv < 4 → q.bufs = (o, l, j) :: r → Int.ofNat j + d.toInt = Int.ofNat t → t < l →
      let goes (i : Instr) (p : Queue) : Prop := CompletesWith s n i { p with bufs := (o, l, t) :: r, ser := q.ser + 1 }
      (∀ ca cb, (q.reg ca = q.reg cb → goes (.cBeq ca cb d) q) ∧ (q.reg ca ≠ q.reg cb → goes (.cBne ca cb d) q) ∧
        ((q.reg ca).toInt < (q.reg cb).toInt → goes (.cBlt ca cb d) q) ∧ ((q.reg ca).toInt ≥ (q.reg cb).toInt → goes (.cBge ca cb d) q)) ∧
      goes (.cJmp d) q ∧ (∀ ca, q.reg ca ≠ 1 → goes (.cLoop ca d) (q.setReg ca (q.reg ca - 1))) ∧
      (q.calls.length < 8 → goes (.cCall d) { q with calls := (q.lv, j + 1) :: q.calls }) ∧
      (∀ cs, q.calls = (q.lv, t) :: cs → goes .cRet { q with calls := cs }) ∧
      (∀ ca cb, q.reg cb ≠ 0 → (q.reg cb).toNat ≤ 2 ^ 20 → bits (q.reg ca) 0 3 = 0 →
        CompletesWith s n (.cIb ca cb) { q with bufs := (q.reg ca, (q.reg cb).toNat, 0) :: q.bufs, lv := q.lv + 1, ser := q.ser + 1 })) ∧
    (∀ ca cb imm l, let o := queueRef (q.reg cb) imm
      (QueuePlace s n o 8 1 false l → s.poisoned l.keys = false → CompletesWith s n (.cLd ca cb imm) (afterCommand n (q.setReg ca (wordAt s l)) 1)) ∧
      (QueuePlace s n o 8 2 true l → CompletesWith s n (.cSt ca cb imm) (afterCommand n q 1))) ∧
    (∀ ca cb l, (QueuePlace s n (q.reg ca) 16 2 true l → CompletesWith s n (.cStamp ca) (afterCommand n q 1)) ∧
      (QueuePlace s n (q.reg ca) 8 2 true l → CompletesWith s n (.cSigsem ca cb 1) (afterCommand n q 1)) ∧
      (QueuePlace s n (q.reg ca) 8 11 true l → s.poisoned l.keys = false → CompletesWith s n (.cSigsem ca cb 0) (afterCommand n q 1) ∧
        ∀ cond sigq sqv, conditionHolds cond (wordAt s l) (q.reg cb) → CompletesWith s n (.cWaitsem ca cb cond 1 sigq sqv) (afterCommand n q 1)) ∧
      (QueuePlace s n (q.reg ca) 8 1 false l → s.poisoned l.keys = false →
        ∀ cond sigq sqv, conditionHolds cond (wordAt s l) (q.reg cb) → CompletesWith s n (.cWaitsem ca cb cond 0 sigq sqv) (afterCommand n q 1))) ∧
    (∀ ca cb ch k cap x g, s.ctx q.ctx = some x → x.caps.has cap.toNat = true → x.grid = cap.toNat → s.caps.find cap.toNat = some g →
      CompletesWith s n (.cLaunch ca cb ch k cap) (afterCommand n q 1) ∧ (x.fold.v ≤ q.launched + 64 → CompletesWith s n (.cLaunchall ca cb ch k cap) (afterCommand n q 1))) ∧
    (∀ ca hart, (q.reg ca).toNat < 2 ^ 16 → CompletesWith s n (.cCopy ca hart) (bumpVersion n { q with
      service := some (.cCopy ca hart), answer := none, stalled := none, waitNs := if q.state = 2 then q.waitNs else 0 })) ∧
    (q.copies = 0 → CompletesWith s n .cFence (afterCommand n q 1)) ∧
    (∀ vec x, s.ctx q.ctx = some x → vec.toNat < (s.iface x.fn).msix → CompletesWith s n (.cIntr vec) (afterCommand n q 1)) ∧
    (q.priv = true →
      (∀ ca cb cc d late i, i ∈ [Instr.cInstall ca cb cc d, .cRebuild ca cc, .cDelete ca cc, .cStrike ca cc, .cPitch ca cc late, .cSave ca cb cc, .cRestore ca cb cc] →
        ∃ u, exec i s = .next u ∧ (u.queue n).service = some i ∧ (u.queue n).state = 2 ∧ (u.queue n).ser = q.ser ∧ u.mem = s.mem) ∧
      (∀ ca, (q.reg ca).toNat < 4096 → (q.reg ca).toNat ≠ n → CompletesWith s n (.cHalt ca) (afterCommand n q 1)))

/-- The computing forms write the value their tables give, and nothing else (R16, R67, R196, R203, R210, R211, R212). -/
def Obligations.ComputingFormsResult : Prop := ComputingFormsResultResults ∧ OchkResult

/-- Branches, J, JAL, JALR and JR go where the rules say, link as the rules say, and trap on a bad target (R196, R213, R214, R215). -/
def Obligations.BranchesAndJumps : Prop := BranchesGoToTheirTarget ∧ BadTargetTraps ∧ JumpAndLink ∧ JumpThroughRegister

/-- Loads extend what the place holds, a remote load waits for its response, and a failed access check traps (R15, R16, R46, R144, R196, R231, R232, R234). -/
def Obligations.LoadsAndAccessChecks : Prop := LoadForms ∧ RemoteLoadWaits ∧ AccessChecks

/-- A local store writes exactly its bytes; a remote store is posted and counted (R46, R105, R232, R233). -/
def Obligations.StoreForms : Prop := LocalStores ∧ PostedStores

/-- LDF, LDF.c, STF and FECLR act on data and full/empty bits together, and LDF waits for a full granule (R35, R235, R236). -/
def Obligations.FullEmptyForms : Prop := FullEmptyLoads ∧ FullEmptyLoadWaits ∧ FullEmptyWrites

/-- The atomic forms return the old value and store the operation's result, and trap on a bad place (R16, R20, R44, R105, R194, R239, R240, R241, R242, R243). -/
def Obligations.AtomicForms : Prop := AtomicFormsResults ∧ AtomicAtAnotherDevice ∧ AtomicOperations ∧ AtomicTraps

/-- FENCE waits and orders as its fields say, WAITC waits for its counters, NOP does nothing (R77, R195, R244, R245). -/
def Obligations.OrderingForms : Prop := FenceOrders ∧ CounterWait ∧ NopDoesNothing

/-- BARA arrives at a barrier and returns its phase; BARW waits for the phase (R246, R247). -/
def Obligations.BarrierForms : Prop := BarrierArrival ∧ BarrierWait

/-- The send forms put one message into the slot's send buffer, or trap with no effect (R168, R170, R171, R249, R250). -/
def Obligations.MessageSends : Prop := SendForms ∧ SendChecks ∧ MulticastSend

/-- MSGLD reads the message in service; the binding and mask forms change one handler entry or mask (R177, R251, R252, R253, R256). -/
def Obligations.ChannelForms : Prop := MessageLoad ∧ BindingForms

/-- The queue forms pop, push, stream and release queue registers, and stop at their limits (R16, R73, R124, R127, R257). -/
def Obligations.QueueForms : Prop := QueueFormsResults ∧ QueueLimits

/-- The CSR forms read and write the listed CSRs field by field, and trap on the others (R3, R182, R221, R223, R226, R230). -/
def Obligations.CsrForms : Prop := CsrRead ∧ CsrWrites ∧ CsrUnlisted

/-- ECALL posts a record, EBRK stops as debug allows, and a firmware core's trap entry saves and goes on (R227, R228, R229, R407, R409). -/
def Obligations.TrapsAndServiceRequests : Prop := ServiceRequest ∧ Breakpoint ∧ FirmwareTrapEntry

/-- CALLX writes its link and goes to the callee's entry; a VOID body parks with 0x12 (R215, R216, R217, R330, R332). -/
def Obligations.CallsAndVoidBodies : Prop := CallThroughLinkage ∧ VoidBodyParks

/-- Vector moves, selections and conversions, and vector accesses to memory (R46, R272, R277, R280, R281, R282, R283). -/
def Obligations.VectorMovesAndMemory : Prop := VectorMoves ∧ VectorMemory

/-- LAYR and LAYW act on a layout entry; the layout vector forms access the elements the layout gives (R22, R25, R237, R238, R262, R284). -/
def Obligations.LayoutForms : Prop := LayoutFormsResults ∧ LayoutElements ∧ LayoutTableForms

/-- RPT captures and RPTW waits; an instance of a captured VADD runs with its staggered fields (R287, R288, R289). -/
def Obligations.RepetitionForms : Prop := RepetitionFormsResults ∧ RepetitionInstance

/-- The array takes one instruction at a time, and MITER runs its turns (R148, R176, R294, R302, R315, R318). -/
def Obligations.MatrixArray : Prop := MatrixDispatch ∧ MiterTurns

/-- Gang joins and their time limit, and the slot table at a frame's start (R309, R310, R311). -/
def Obligations.GangsAndFrames : Prop := GangEvents ∧ SlotTableAtFrameStart

/-- END and YIELD commit an activation and release or keep its slot (R133, R171, R184, R219, R220, R226). -/
def Obligations.EndOfActivation : Prop := EndForms ∧ YieldForm

/-- An activation starts for the first runnable pair, pairs are promoted by age, and a spent budget aborts (R176, R177, R330). -/
def Obligations.ActivationStart : Prop := ActivationEvents

/-- A cell steals a pair for a free slot, and preemption stops new activations (R181, R182, R184, R411). -/
def Obligations.StealingAndPreemption : Prop := StealAndPreempt

/-- The outbound list drains in order; spilled messages move on in order, and overflow takes the extension (R55, R56, R130, R133, R252). -/
def Obligations.OutboundAndSpill : Prop := OutboundEvents ∧ SpillEvents

/-- A stream opens, closes into its EOS activation or runs out of budget; a queue register is refilled (R125, R128, R179, R292). -/
def Obligations.Streams : Prop := StreamEvents ∧ StreamRefill

/-- A posted write is performed, held or lost, and its count falls when the rules say (R20, R46, R52, R140, R146). -/
def Obligations.PostedWrites : Prop := PostedStoreAck ∧ LostHeldAndRefusedWrites

/-- Waits end when what they wait for holds; barrier arrivals count; a service record is handed over (R20, R35, R45, R50, R227, R247, R274, R380). -/
def Obligations.WakesAndArrivals : Prop := WakesAndResponses ∧ BarrierAndServiceEvents

/-- Accesses from another device are checked again here; debug stops, resumes, steps and samples (R16, R20, R147, R409, R412). -/
def Obligations.InboundAccessAndDebug : Prop := DescriptorCacheAndInboundAccess ∧ DebugEvents

/-- The fault buffer is flushed and served, and a parked access is tried again at its retry (R147, R150, R151, R152, R153, R154, R155). -/
def Obligations.FaultService : Prop := FaultBufferEvents ∧ RetriesAndUnavailablePages

/-- Page migration keeps every byte where the rules put it, and a descriptor's update goes through its revocation (R11, R18, R141, R155, R156, R396). -/
def Obligations.DescriptorsAndPages : Prop := MigrationEvents ∧ DescriptorEvents

/-- A kick reaches its hart, and COPY, GATHER and SCATTER move exactly their bytes (R105, R106, R108, R110, R111, R113, R114, R119). -/
def Obligations.EngineOperations : Prop := EngineKicks ∧ EngineCopies

/-- REDUCE folds its operands, ordered groups complete in order, and collectives finish together (R115, R116, R117, R118). -/
def Obligations.EngineReductionsAndCollectives : Prop := EngineReductions ∧ OrderedGroupCompletes ∧ Collectives

/-- Command branches, calls and loops, command accesses, and semaphore waits and signals (R353, R355, R356, R357, R360, R361, R363, R367). -/
def Obligations.FlowMemoryAndSemaphoreCommands : Prop := FlowCommands ∧ MemoryCommands ∧ SemaphoreWaits

/-- The commands that launch, copy, fence and interrupt, and the engine's choice of a queue (R348, R358, R359, R362, R364). -/
def Obligations.WorkCommands : Prop := WorkCommandsResults ∧ CommandEngineSelects

/-- Privileged commands are handed over and end with one status; C.HALT stops a queue (R325, R332, R333, R352, R365, R366). -/
def Obligations.PrivilegedCommands : Prop := PrivilegedCommandsResults ∧ PrivilegedService

/-- Code pages are verified before they run, and bodies are rebuilt after a firmware activation (R328, R329, R330, R332, R334). -/
def Obligations.CodeAndRebuild : Prop := CodePages ∧ RebuildAndFirmware

/-- Doorbells and queue records, mapping and unmapping, and recovery of a faulted queue (R341, R342, R343, R345, R346, R347, R353, R366). -/
def Obligations.QueueManagement : Prop := QueueRecords ∧ QueueControl

/-- The lease of the lead, and firmware's writes to filters, comparators, slot tables, AGEL, DBGCTL, grants and keys (R44, R157, R159, R171, R177, R309, R344, R345, R396, R408). -/
def Obligations.LeadAndFirmwareWrites : Prop := LeaseOfTheLead ∧ FirmwareWrites

/-- Contexts are created and killed, host instructions take effect, and host accesses are checked (R45, R102, R136, R172, R174, R183, R333, R346, R391, R396, R398). -/
def Obligations.ContextsAndHostRequests : Prop := ContextLife ∧ HostInstructions ∧ HostMemoryRequests

/-- A context is saved when it stands still, or the save is given up; jobs are registered and removed (R346, R376, R377, R380, R381). -/
def Obligations.SavesAndJobs : Prop := SaveEvents ∧ JobRegistration

/-- A strike passes through its phases, takes late packets, and is pitched (R383, R386, R387). -/
def Obligations.Strikes : Prop := StrikePhases ∧ PitchAndReports

/-- A warm reset discards and scrubs, and boot measures before it starts firmware (R58, R328, R344, R392, R395, R399). -/
def Obligations.ResetAndBoot : Prop := WarmReset ∧ BootAndAttestation

/-- The host interface's TDISP states, and performance, idle and trip states (R58, R396, R397, R398, R401, R402). -/
def Obligations.InterfacesAndPower : Prop := InterfaceStates ∧ PowerStates
end

