-- ==== Sys2Proof/Laws/Memory.lean ====
section
/-! SUPPORT. The laws of the one memory: a read after a write, and that every write keeps the canonical form. -/

namespace Sys2Proof.Laws
open Machine

/-- Every address in a memory with an entry added is that entry's or an old one. -/
theorem mem_insertByte (m : List Host.Cell) (a : Nat) (b : Byte) (c : Host.Cell) (h : c ∈ insertByte m a b) : c = (a, b) ∨ c ∈ m := by
  induction m with
  | nil => simpa [insertByte] using h
  | cons p m ih =>
    obtain ⟨a', b'⟩ := p
    rw [insertByte] at h
    split at h
    · rcases List.mem_cons.1 h with h | h <;> simp [h]
    · split at h
      · simpa using h
      · rcases List.mem_cons.1 h with h | h
        · simp [h]
        · rcases ih h with h | h <;> simp [h]

/-- An insertion keeps the addresses rising. -/
theorem insertByte_rising (m : List Host.Cell) (a : Nat) (b : Byte) (h : m.Pairwise (fun x y => x.1 < y.1)) :
    (insertByte m a b).Pairwise (fun x y => x.1 < y.1) := by
  induction m with
  | nil => simp [insertByte]
  | cons p m ih =>
    obtain ⟨a', b'⟩ := p
    obtain ⟨h1, h2⟩ := List.pairwise_cons.1 h
    rw [insertByte]
    split
    · rename_i e; subst e; exact List.pairwise_cons.2 ⟨h1, h2⟩
    · split
      · rename_i l
        refine List.pairwise_cons.2 ⟨fun c hc => ?_, h⟩
        rcases List.mem_cons.1 hc with rfl | hc
        · exact l
        · exact lt_trans l (h1 c hc)
      · refine List.pairwise_cons.2 ⟨fun c hc => ?_, ih h2⟩
        rcases mem_insertByte _ _ _ _ hc with rfl | hc
        · simp only; omega
        · exact h1 c hc

/-- A memory with some entries left out keeps the canonical form. -/
theorem wf_filter (m : List Host.Cell) (p : Host.Cell → Bool) (h : Memory.wf m) : Memory.wf (m.filter p) :=
  ⟨h.1.filter p, fun c hc => h.2 c (List.mem_filter.1 hc).1⟩

/-- A write keeps the canonical form. -/
theorem wf_writeByte (m : List Host.Cell) (a : Nat) (b : Byte) (h : Memory.wf m) : Memory.wf (writeByte m a b) := by
  rw [writeByte]
  split
  · exact wf_filter _ _ h
  · rename_i n
    refine ⟨insertByte_rising _ _ _ h.1, fun c hc => ?_⟩
    rcases mem_insertByte _ _ _ _ hc with rfl | hc
    · exact n
    · exact h.2 c hc

/-- Writes at a list of keys keep the canonical form. -/
theorem wf_writeKeys (m : List Host.Cell) (ks : List Nat) (bs : List Byte) (h : Memory.wf m) : Memory.wf (writeKeys m ks bs) := by
  induction ks generalizing m bs with
  | nil => simpa [writeKeys] using h
  | cons k ks ih =>
    cases bs with
    | nil => simpa [writeKeys] using h
    | cons b bs => exact ih _ _ (wf_writeByte _ _ _ h)

/-- So do such writes one after another. -/
theorem wf_foldWrites {α : Type} (l : List α) (ks : α → List Nat) (bs : α → List Byte) (m : List Host.Cell) (h : Memory.wf m) :
    Memory.wf (l.foldl (fun m a => writeKeys m (ks a) (bs a)) m) := by
  induction l generalizing m with
  | nil => exact h
  | cons a l ih => exact ih _ (wf_writeKeys _ _ _ h)

/-- Bringing granules of CXL memory under a key keeps the canonical form. -/
theorem wf_rekey (s : State) (id : Option Nat) (gs : List Nat) (h : Memory.wf s.mem) : Memory.wf (s.rekey id gs).mem := by
  unfold State.rekey
  split
  · exact h
  · exact wf_foldWrites _ _ _ _ h

/-- Setting bits of a page-table entry keeps the canonical form. -/
theorem wf_orEntry (m : List Host.Cell) (a b : Nat) (h : Memory.wf m) : Memory.wf (orEntry m a b) := wf_writeByte _ _ _ h

/-- Marking leaf entries keeps the canonical form. -/
theorem wf_touchLeaves (s : State) (ls : List Nat) (w : Bool) (h : Memory.wf s.mem) : Memory.wf (touchLeaves s ls w).mem := by
  simp only [touchLeaves]
  generalize s.mem = m at h ⊢
  induction ls generalizing m with
  | nil => simpa using h
  | cons a ls ih => exact ih _ (wf_orEntry _ _ _ h)

/-- A store keeps the canonical form. -/
theorem wf_store (s : State) (ks : List Nat) (bs : List Byte) (f c : Bool) (h : Memory.wf s.mem) : Memory.wf (s.store ks bs f c).mem :=
  wf_writeKeys _ _ _ h

/-- A read at an address below every listed one reads as unlisted. -/
theorem readByte_below (m : List Host.Cell) (a : Nat) (h : ∀ c ∈ m, a < c.1) : readByte m a = unlisted := by
  induction m with
  | nil => rfl
  | cons p m ih =>
    have l := h p (by simp)
    rw [readByte, if_neg (by omega)]
    exact ih fun c hc => h c (by simp [hc])

/-- An inserted byte is read back. -/
theorem readByte_insert_self (m : List Host.Cell) (a : Nat) (b : Byte) : readByte (insertByte m a b) a = b := by
  induction m with
  | nil => simp [insertByte, readByte]
  | cons p m ih =>
    obtain ⟨a', b'⟩ := p
    rw [insertByte]
    split
    · simp [readByte]
    · split
      · simp [readByte]
      · rename_i n _
        simp [readByte, Ne.symm n, ih]

/-- An insertion leaves every other address alone. -/
theorem readByte_insert_other (m : List Host.Cell) (a x : Nat) (b : Byte) (h : x ≠ a) : readByte (insertByte m a b) x = readByte m x := by
  induction m with
  | nil => simp [insertByte, readByte, Ne.symm h]
  | cons p m ih =>
    obtain ⟨a', b'⟩ := p
    rw [insertByte]
    split
    · rename_i e; subst e; simp [readByte, Ne.symm h]
    · split
      · simp [readByte, Ne.symm h]
      · simp [readByte, ih]

/-- A filter by address leaves the addresses it keeps alone. -/
theorem readByte_filter_ne (m : List Host.Cell) (a x : Nat) (h : x ≠ a) : readByte (m.filter fun c => c.1 ≠ a) x = readByte m x := by
  induction m with
  | nil => rfl
  | cons p m ih =>
    by_cases e : p.1 = a
    · simpa [List.filter_cons, e, readByte, Ne.symm h] using ih
    · by_cases q : p.1 = x
      · subst q; simp [List.filter_cons, e, readByte]
      · simpa [e, readByte, q] using ih

/-- The byte written is read back. -/
@[simp] theorem readByte_write_self (m : List Host.Cell) (a : Nat) (b : Byte) : readByte (writeByte m a b) a = b := by
  rw [writeByte]
  split
  · rename_i e
    subst e
    induction m with
    | nil => rfl
    | cons p m ih =>
      by_cases e : p.1 = a
      · simpa [e] using ih
      · simpa [e, readByte] using ih
  · exact readByte_insert_self _ _ _

/-- A write leaves every other address alone. -/
theorem readByte_write_other (m : List Host.Cell) (a x : Nat) (b : Byte) (h : x ≠ a) : readByte (writeByte m a b) x = readByte m x := by
  rw [writeByte]
  split
  · exact readByte_filter_ne _ _ _ h
  · exact readByte_insert_other _ _ _ _ h

/-- Writes at a list of keys leave every other address alone. -/
theorem readByte_writeKeys_other (m : List Host.Cell) (ks : List Nat) (bs : List Byte) (x : Nat) (h : x ∉ ks) :
    readByte (writeKeys m ks bs) x = readByte m x := by
  induction ks generalizing m bs with
  | nil => simp [writeKeys]
  | cons k ks ih =>
    cases bs with
    | nil => simp [writeKeys]
    | cons b bs =>
      simp only [List.mem_cons, not_or] at h
      rw [writeKeys, ih _ _ h.2, readByte_write_other _ _ _ _ h.1]

/-- Bytes written at keys without repeats are read back. -/
theorem readKeys_writeKeys (m : List Host.Cell) (ks : List Nat) (bs : List Byte) (h : ks.Nodup) (hl : ks.length = bs.length) :
    readKeys (writeKeys m ks bs) ks = bs := by
  induction ks generalizing m bs with
  | nil => simp [readKeys, List.eq_nil_of_length_eq_zero hl.symm]
  | cons k ks ih =>
    cases bs with
    | nil => simp at hl
    | cons b bs =>
      obtain ⟨h1, h2⟩ := List.nodup_cons.1 h
      have := ih (writeByte m k b) bs h2 (by simpa using hl)
      simp only [readKeys] at this
      simp [readKeys, writeKeys, readByte_writeKeys_other _ _ _ _ h1, this]

/-- The memory after reset is in the canonical form. -/
theorem wf_reset : Memory.wf State.reset.mem := ⟨List.Pairwise.nil, fun _ h => absurd h (by simp [State.reset])⟩

end Sys2Proof.Laws
end

