-- ==== Sys2Proof/Laws/State.lean ====
section
/-! SUPPORT. The small lemmas of the state's updates: one per field and update, and what a part reads as after it has been replaced. -/

namespace Sys2Proof.Laws
open Machine

/-- The entry put last is the one found. -/
@[simp] theorem find_put_self {α : Type} (m : NMap α) (k : Nat) (v : α) : NMap.find (NMap.put m k v) k = some v := by
  induction m with
  | nil => simp [NMap.put, NMap.find]
  | cons p m ih =>
    obtain ⟨k', v'⟩ := p
    rw [NMap.put]
    split
    · simp [NMap.find]
    · rename_i n
      split
      · simp [NMap.find]
      · simp [NMap.find, n, ih]

/-- Of two entries put at one key the last stays. -/
@[simp] theorem put_put {α : Type} (m : NMap α) (k : Nat) (u v : α) : NMap.put (NMap.put m k u) k v = NMap.put m k v := by
  induction m with
  | nil => simp [NMap.put]
  | cons p m ih =>
    obtain ⟨k', v'⟩ := p
    by_cases h : k = k'
    · subst h; simp [NMap.put]
    · by_cases g : k < k'
      · simp [NMap.put, h, g]
      · simp [NMap.put, h, g, ih]

/-- Every other key's entry stays. -/
theorem find_put_other {α : Type} (m : NMap α) (k j : Nat) (v : α) (h : j ≠ k) : NMap.find (NMap.put m k v) j = NMap.find m j := by
  induction m with
  | nil => simp [NMap.put, NMap.find, h]
  | cons p m ih =>
    obtain ⟨k', v'⟩ := p
    rw [NMap.put]
    split
    · rename_i e; subst e; simp [NMap.find, h]
    · split
      · simp [NMap.find, h]
      · simp only [NMap.find, ih]

/-- An entry deleted is found no more. -/
@[simp] theorem find_del_self {α : Type} (m : NMap α) (k : Nat) : NMap.find (NMap.del m k) k = none := by
  induction m with
  | nil => simp [NMap.del, NMap.find]
  | cons p m ih =>
    by_cases h : p.1 = k
    · simpa [NMap.del, h] using ih
    · simpa [NMap.del, h, NMap.find, Ne.symm h] using ih

/-- Deleting a key leaves the others. -/
theorem find_del_other {α : Type} (m : NMap α) (k j : Nat) (h : j ≠ k) : NMap.find (NMap.del m k) j = NMap.find m j := by
  induction m with
  | nil => simp [NMap.del, NMap.find]
  | cons p m ih =>
    by_cases e : p.1 = k
    · have n : j ≠ p.1 := e ▸ h
      simpa [NMap.del, e, NMap.find, n, h] using ih
    · by_cases q : j = p.1
      · simp [NMap.del, e, NMap.find, q]
      · simpa [NMap.del, e, NMap.find, q] using ih

/-- What a set holds after an addition. -/
theorem mem_add (t : NSet) (k j : Nat) : j ∈ NSet.add t k ↔ j = k ∨ j ∈ t := by
  induction t with
  | nil => simp [NSet.add]
  | cons a t ih =>
    rw [NSet.add]
    split
    · rename_i e; subst e; simp
    · split
      · simp
      · simp only [List.mem_cons, ih]; exact or_left_comm

/-- Membership as a Bool is membership in the list. -/
theorem has_iff (t : NSet) (k : Nat) : NSet.has t k = true ↔ k ∈ t := by simp [NSet.has]

/-- What a set holds after a removal. -/
theorem mem_drop (t : NSet) (k j : Nat) : j ∈ NSet.drop t k ↔ j ∈ t ∧ j ≠ k := by simp [NSet.drop]

/-! ### `State.withMem` -/

@[simp] theorem withMem_sched (s : State) (m : List Host.Cell) : (s.withMem m).sched = s.sched := rfl
@[simp] theorem withMem_focus (s : State) (m : List Host.Cell) : (s.withMem m).focus = s.focus := rfl
@[simp] theorem withMem_cur (s : State) (m : List Host.Cell) : (s.withMem m).cur = s.cur := rfl
@[simp] theorem withMem_inp (s : State) (m : List Host.Cell) : (s.withMem m).inp = s.inp := rfl
@[simp] theorem withMem_fresh (s : State) (m : List Host.Cell) : (s.withMem m).fresh = s.fresh := rfl
@[simp] theorem withMem_serial (s : State) (m : List Host.Cell) : (s.withMem m).serial = s.serial := rfl
@[simp] theorem withMem_time (s : State) (m : List Host.Cell) : (s.withMem m).time = s.time := rfl
@[simp] theorem withMem_devId (s : State) (m : List Host.Cell) : (s.withMem m).devId = s.devId := rfl
@[simp] theorem withMem_mem (s : State) (m : List Host.Cell) : (s.withMem m).mem = m := rfl
@[simp] theorem withMem_xts (s : State) (m : List Host.Cell) : (s.withMem m).xts = s.xts := rfl
@[simp] theorem withMem_full (s : State) (m : List Host.Cell) : (s.withMem m).full = s.full := rfl
@[simp] theorem withMem_poison (s : State) (m : List Host.Cell) : (s.withMem m).poison = s.poison := rfl
@[simp] theorem withMem_posted (s : State) (m : List Host.Cell) : (s.withMem m).posted = s.posted := rfl
@[simp] theorem withMem_held (s : State) (m : List Host.Cell) : (s.withMem m).held = s.held := rfl
@[simp] theorem withMem_epochs (s : State) (m : List Host.Cell) : (s.withMem m).epochs = s.epochs := rfl
@[simp] theorem withMem_net (s : State) (m : List Host.Cell) : (s.withMem m).net = s.net := rfl
@[simp] theorem withMem_mcReturns (s : State) (m : List Host.Cell) : (s.withMem m).mcReturns = s.mcReturns := rfl
@[simp] theorem withMem_arrivals (s : State) (m : List Host.Cell) : (s.withMem m).arrivals = s.arrivals := rfl
@[simp] theorem withMem_cells (s : State) (m : List Host.Cell) : (s.withMem m).cells = s.cells := rfl
@[simp] theorem withMem_ctxs (s : State) (m : List Host.Cell) : (s.withMem m).ctxs = s.ctxs := rfl
@[simp] theorem withMem_caps (s : State) (m : List Host.Cell) : (s.withMem m).caps = s.caps := rfl
@[simp] theorem withMem_codeStore (s : State) (m : List Host.Cell) : (s.withMem m).codeStore = s.codeStore := rfl
@[simp] theorem withMem_queues (s : State) (m : List Host.Cell) : (s.withMem m).queues = s.queues := rfl
@[simp] theorem withMem_engines (s : State) (m : List Host.Cell) : (s.withMem m).engines = s.engines := rfl
@[simp] theorem withMem_dfcs (s : State) (m : List Host.Cell) : (s.withMem m).dfcs = s.dfcs := rfl
@[simp] theorem withMem_harts (s : State) (m : List Host.Cell) : (s.withMem m).harts = s.harts := rfl
@[simp] theorem withMem_faults (s : State) (m : List Host.Cell) : (s.withMem m).faults = s.faults := rfl
@[simp] theorem withMem_marks (s : State) (m : List Host.Cell) : (s.withMem m).marks = s.marks := rfl
@[simp] theorem withMem_filters (s : State) (m : List Host.Cell) : (s.withMem m).filters = s.filters := rfl
@[simp] theorem withMem_slotTables (s : State) (m : List Host.Cell) : (s.withMem m).slotTables = s.slotTables := rfl
@[simp] theorem withMem_slotNext (s : State) (m : List Host.Cell) : (s.withMem m).slotNext = s.slotNext := rfl
@[simp] theorem withMem_clk (s : State) (m : List Host.Cell) : (s.withMem m).clk = s.clk := rfl
@[simp] theorem withMem_shoot (s : State) (m : List Host.Cell) : (s.withMem m).shoot = s.shoot := rfl
@[simp] theorem withMem_ifaces (s : State) (m : List Host.Cell) : (s.withMem m).ifaces = s.ifaces := rfl
@[simp] theorem withMem_msi (s : State) (m : List Host.Cell) : (s.withMem m).msi = s.msi := rfl
@[simp] theorem withMem_errors (s : State) (m : List Host.Cell) : (s.withMem m).errors = s.errors := rfl
@[simp] theorem withMem_errLost (s : State) (m : List Host.Cell) : (s.withMem m).errLost = s.errLost := rfl
@[simp] theorem withMem_errRing (s : State) (m : List Host.Cell) : (s.withMem m).errRing = s.errRing := rfl
@[simp] theorem withMem_watch (s : State) (m : List Host.Cell) : (s.withMem m).watch = s.watch := rfl
@[simp] theorem withMem_corrected (s : State) (m : List Host.Cell) : (s.withMem m).corrected = s.corrected := rfl
@[simp] theorem withMem_ports (s : State) (m : List Host.Cell) : (s.withMem m).ports = s.ports := rfl
@[simp] theorem withMem_routes (s : State) (m : List Host.Cell) : (s.withMem m).routes = s.routes := rfl
@[simp] theorem withMem_jobs (s : State) (m : List Host.Cell) : (s.withMem m).jobs = s.jobs := rfl
@[simp] theorem withMem_images (s : State) (m : List Host.Cell) : (s.withMem m).images = s.images := rfl
@[simp] theorem withMem_saveLimit (s : State) (m : List Host.Cell) : (s.withMem m).saveLimit = s.saveLimit := rfl
@[simp] theorem withMem_reports (s : State) (m : List Host.Cell) : (s.withMem m).reports = s.reports := rfl
@[simp] theorem withMem_answers (s : State) (m : List Host.Cell) : (s.withMem m).answers = s.answers := rfl
@[simp] theorem withMem_power (s : State) (m : List Host.Cell) : (s.withMem m).power = s.power := rfl
@[simp] theorem withMem_sec (s : State) (m : List Host.Cell) : (s.withMem m).sec = s.sec := rfl
@[simp] theorem withMem_fw (s : State) (m : List Host.Cell) : (s.withMem m).fw = s.fw := rfl
@[simp] theorem withMem_stoppedAll (s : State) (m : List Host.Cell) : (s.withMem m).stoppedAll = s.stoppedAll := rfl

/-! ### `State.store` -/

@[simp] theorem store_sched (s : State) (ks : List Nat) (bs : List Byte) (fill clean : Bool) : (s.store ks bs fill clean).sched = s.sched := rfl
@[simp] theorem store_focus (s : State) (ks : List Nat) (bs : List Byte) (fill clean : Bool) : (s.store ks bs fill clean).focus = s.focus := rfl
@[simp] theorem store_cur (s : State) (ks : List Nat) (bs : List Byte) (fill clean : Bool) : (s.store ks bs fill clean).cur = s.cur := rfl
@[simp] theorem store_inp (s : State) (ks : List Nat) (bs : List Byte) (fill clean : Bool) : (s.store ks bs fill clean).inp = s.inp := rfl
@[simp] theorem store_fresh (s : State) (ks : List Nat) (bs : List Byte) (fill clean : Bool) : (s.store ks bs fill clean).fresh = s.fresh := rfl
@[simp] theorem store_serial (s : State) (ks : List Nat) (bs : List Byte) (fill clean : Bool) : (s.store ks bs fill clean).serial = s.serial := rfl
@[simp] theorem store_time (s : State) (ks : List Nat) (bs : List Byte) (fill clean : Bool) : (s.store ks bs fill clean).time = s.time := rfl
@[simp] theorem store_devId (s : State) (ks : List Nat) (bs : List Byte) (fill clean : Bool) : (s.store ks bs fill clean).devId = s.devId := rfl
@[simp] theorem store_mem (s : State) (ks : List Nat) (bs : List Byte) (fill clean : Bool) : (s.store ks bs fill clean).mem = writeKeys s.mem ks bs := rfl
@[simp] theorem store_xts (s : State) (ks : List Nat) (bs : List Byte) (fill clean : Bool) : (s.store ks bs fill clean).xts = s.xts := rfl
@[simp] theorem store_full (s : State) (ks : List Nat) (bs : List Byte) (fill clean : Bool) : (s.store ks bs fill clean).full = if fill then addAll s.full (granules ks) else s.full := rfl
@[simp] theorem store_poison (s : State) (ks : List Nat) (bs : List Byte) (fill clean : Bool) : (s.store ks bs fill clean).poison = if clean then dropAll s.poison (wholeGranules ks) else s.poison := rfl
@[simp] theorem store_posted (s : State) (ks : List Nat) (bs : List Byte) (fill clean : Bool) : (s.store ks bs fill clean).posted = s.posted := rfl
@[simp] theorem store_held (s : State) (ks : List Nat) (bs : List Byte) (fill clean : Bool) : (s.store ks bs fill clean).held = s.held := rfl
@[simp] theorem store_epochs (s : State) (ks : List Nat) (bs : List Byte) (fill clean : Bool) : (s.store ks bs fill clean).epochs = s.epochs := rfl
@[simp] theorem store_net (s : State) (ks : List Nat) (bs : List Byte) (fill clean : Bool) : (s.store ks bs fill clean).net = s.net := rfl
@[simp] theorem store_mcReturns (s : State) (ks : List Nat) (bs : List Byte) (fill clean : Bool) : (s.store ks bs fill clean).mcReturns = s.mcReturns := rfl
@[simp] theorem store_arrivals (s : State) (ks : List Nat) (bs : List Byte) (fill clean : Bool) : (s.store ks bs fill clean).arrivals = s.arrivals := rfl
@[simp] theorem store_cells (s : State) (ks : List Nat) (bs : List Byte) (fill clean : Bool) : (s.store ks bs fill clean).cells = s.cells := rfl
@[simp] theorem store_ctxs (s : State) (ks : List Nat) (bs : List Byte) (fill clean : Bool) : (s.store ks bs fill clean).ctxs = s.ctxs := rfl
@[simp] theorem store_caps (s : State) (ks : List Nat) (bs : List Byte) (fill clean : Bool) : (s.store ks bs fill clean).caps = s.caps := rfl
@[simp] theorem store_codeStore (s : State) (ks : List Nat) (bs : List Byte) (fill clean : Bool) : (s.store ks bs fill clean).codeStore = s.codeStore := rfl
@[simp] theorem store_queues (s : State) (ks : List Nat) (bs : List Byte) (fill clean : Bool) : (s.store ks bs fill clean).queues = s.queues := rfl
@[simp] theorem store_engines (s : State) (ks : List Nat) (bs : List Byte) (fill clean : Bool) : (s.store ks bs fill clean).engines = s.engines := rfl
@[simp] theorem store_dfcs (s : State) (ks : List Nat) (bs : List Byte) (fill clean : Bool) : (s.store ks bs fill clean).dfcs = s.dfcs := rfl
@[simp] theorem store_harts (s : State) (ks : List Nat) (bs : List Byte) (fill clean : Bool) : (s.store ks bs fill clean).harts = s.harts := rfl
@[simp] theorem store_faults (s : State) (ks : List Nat) (bs : List Byte) (fill clean : Bool) : (s.store ks bs fill clean).faults = s.faults := rfl
@[simp] theorem store_marks (s : State) (ks : List Nat) (bs : List Byte) (fill clean : Bool) : (s.store ks bs fill clean).marks = s.marks := rfl
@[simp] theorem store_filters (s : State) (ks : List Nat) (bs : List Byte) (fill clean : Bool) : (s.store ks bs fill clean).filters = s.filters := rfl
@[simp] theorem store_slotTables (s : State) (ks : List Nat) (bs : List Byte) (fill clean : Bool) : (s.store ks bs fill clean).slotTables = s.slotTables := rfl
@[simp] theorem store_slotNext (s : State) (ks : List Nat) (bs : List Byte) (fill clean : Bool) : (s.store ks bs fill clean).slotNext = s.slotNext := rfl
@[simp] theorem store_clk (s : State) (ks : List Nat) (bs : List Byte) (fill clean : Bool) : (s.store ks bs fill clean).clk = s.clk := rfl
@[simp] theorem store_shoot (s : State) (ks : List Nat) (bs : List Byte) (fill clean : Bool) : (s.store ks bs fill clean).shoot = s.shoot := rfl
@[simp] theorem store_ifaces (s : State) (ks : List Nat) (bs : List Byte) (fill clean : Bool) : (s.store ks bs fill clean).ifaces = s.ifaces := rfl
@[simp] theorem store_msi (s : State) (ks : List Nat) (bs : List Byte) (fill clean : Bool) : (s.store ks bs fill clean).msi = s.msi := rfl
@[simp] theorem store_errors (s : State) (ks : List Nat) (bs : List Byte) (fill clean : Bool) : (s.store ks bs fill clean).errors = s.errors := rfl
@[simp] theorem store_errLost (s : State) (ks : List Nat) (bs : List Byte) (fill clean : Bool) : (s.store ks bs fill clean).errLost = s.errLost := rfl
@[simp] theorem store_errRing (s : State) (ks : List Nat) (bs : List Byte) (fill clean : Bool) : (s.store ks bs fill clean).errRing = s.errRing := rfl
@[simp] theorem store_watch (s : State) (ks : List Nat) (bs : List Byte) (fill clean : Bool) : (s.store ks bs fill clean).watch = s.watch := rfl
@[simp] theorem store_corrected (s : State) (ks : List Nat) (bs : List Byte) (fill clean : Bool) : (s.store ks bs fill clean).corrected = s.corrected := rfl
@[simp] theorem store_ports (s : State) (ks : List Nat) (bs : List Byte) (fill clean : Bool) : (s.store ks bs fill clean).ports = s.ports := rfl
@[simp] theorem store_routes (s : State) (ks : List Nat) (bs : List Byte) (fill clean : Bool) : (s.store ks bs fill clean).routes = s.routes := rfl
@[simp] theorem store_jobs (s : State) (ks : List Nat) (bs : List Byte) (fill clean : Bool) : (s.store ks bs fill clean).jobs = s.jobs := rfl
@[simp] theorem store_images (s : State) (ks : List Nat) (bs : List Byte) (fill clean : Bool) : (s.store ks bs fill clean).images = s.images := rfl
@[simp] theorem store_saveLimit (s : State) (ks : List Nat) (bs : List Byte) (fill clean : Bool) : (s.store ks bs fill clean).saveLimit = s.saveLimit := rfl
@[simp] theorem store_reports (s : State) (ks : List Nat) (bs : List Byte) (fill clean : Bool) : (s.store ks bs fill clean).reports = s.reports := rfl
@[simp] theorem store_answers (s : State) (ks : List Nat) (bs : List Byte) (fill clean : Bool) : (s.store ks bs fill clean).answers = s.answers := rfl
@[simp] theorem store_power (s : State) (ks : List Nat) (bs : List Byte) (fill clean : Bool) : (s.store ks bs fill clean).power = s.power := rfl
@[simp] theorem store_sec (s : State) (ks : List Nat) (bs : List Byte) (fill clean : Bool) : (s.store ks bs fill clean).sec = s.sec := rfl
@[simp] theorem store_fw (s : State) (ks : List Nat) (bs : List Byte) (fill clean : Bool) : (s.store ks bs fill clean).fw = s.fw := rfl
@[simp] theorem store_stoppedAll (s : State) (ks : List Nat) (bs : List Byte) (fill clean : Bool) : (s.store ks bs fill clean).stoppedAll = s.stoppedAll := rfl

/-! ### `State.setCell` -/

@[simp] theorem setCell_sched (s : State) (c : Nat) (x : Cell) : (s.setCell c x).sched = s.sched := rfl
@[simp] theorem setCell_focus (s : State) (c : Nat) (x : Cell) : (s.setCell c x).focus = s.focus := rfl
@[simp] theorem setCell_cur (s : State) (c : Nat) (x : Cell) : (s.setCell c x).cur = s.cur := rfl
@[simp] theorem setCell_inp (s : State) (c : Nat) (x : Cell) : (s.setCell c x).inp = s.inp := rfl
@[simp] theorem setCell_fresh (s : State) (c : Nat) (x : Cell) : (s.setCell c x).fresh = s.fresh := rfl
@[simp] theorem setCell_serial (s : State) (c : Nat) (x : Cell) : (s.setCell c x).serial = s.serial := rfl
@[simp] theorem setCell_time (s : State) (c : Nat) (x : Cell) : (s.setCell c x).time = s.time := rfl
@[simp] theorem setCell_devId (s : State) (c : Nat) (x : Cell) : (s.setCell c x).devId = s.devId := rfl
@[simp] theorem setCell_mem (s : State) (c : Nat) (x : Cell) : (s.setCell c x).mem = s.mem := rfl
@[simp] theorem setCell_xts (s : State) (c : Nat) (x : Cell) : (s.setCell c x).xts = s.xts := rfl
@[simp] theorem setCell_full (s : State) (c : Nat) (x : Cell) : (s.setCell c x).full = s.full := rfl
@[simp] theorem setCell_poison (s : State) (c : Nat) (x : Cell) : (s.setCell c x).poison = s.poison := rfl
@[simp] theorem setCell_posted (s : State) (c : Nat) (x : Cell) : (s.setCell c x).posted = s.posted := rfl
@[simp] theorem setCell_held (s : State) (c : Nat) (x : Cell) : (s.setCell c x).held = s.held := rfl
@[simp] theorem setCell_epochs (s : State) (c : Nat) (x : Cell) : (s.setCell c x).epochs = s.epochs := rfl
@[simp] theorem setCell_net (s : State) (c : Nat) (x : Cell) : (s.setCell c x).net = s.net := rfl
@[simp] theorem setCell_mcReturns (s : State) (c : Nat) (x : Cell) : (s.setCell c x).mcReturns = s.mcReturns := rfl
@[simp] theorem setCell_arrivals (s : State) (c : Nat) (x : Cell) : (s.setCell c x).arrivals = s.arrivals := rfl
@[simp] theorem setCell_cells (s : State) (c : Nat) (x : Cell) : (s.setCell c x).cells = s.cells.put c x := rfl
@[simp] theorem setCell_ctxs (s : State) (c : Nat) (x : Cell) : (s.setCell c x).ctxs = s.ctxs := rfl
@[simp] theorem setCell_caps (s : State) (c : Nat) (x : Cell) : (s.setCell c x).caps = s.caps := rfl
@[simp] theorem setCell_codeStore (s : State) (c : Nat) (x : Cell) : (s.setCell c x).codeStore = s.codeStore := rfl
@[simp] theorem setCell_queues (s : State) (c : Nat) (x : Cell) : (s.setCell c x).queues = s.queues := rfl
@[simp] theorem setCell_engines (s : State) (c : Nat) (x : Cell) : (s.setCell c x).engines = s.engines := rfl
@[simp] theorem setCell_dfcs (s : State) (c : Nat) (x : Cell) : (s.setCell c x).dfcs = s.dfcs := rfl
@[simp] theorem setCell_harts (s : State) (c : Nat) (x : Cell) : (s.setCell c x).harts = s.harts := rfl
@[simp] theorem setCell_faults (s : State) (c : Nat) (x : Cell) : (s.setCell c x).faults = s.faults := rfl
@[simp] theorem setCell_marks (s : State) (c : Nat) (x : Cell) : (s.setCell c x).marks = s.marks := rfl
@[simp] theorem setCell_filters (s : State) (c : Nat) (x : Cell) : (s.setCell c x).filters = s.filters := rfl
@[simp] theorem setCell_slotTables (s : State) (c : Nat) (x : Cell) : (s.setCell c x).slotTables = s.slotTables := rfl
@[simp] theorem setCell_slotNext (s : State) (c : Nat) (x : Cell) : (s.setCell c x).slotNext = s.slotNext := rfl
@[simp] theorem setCell_clk (s : State) (c : Nat) (x : Cell) : (s.setCell c x).clk = s.clk := rfl
@[simp] theorem setCell_shoot (s : State) (c : Nat) (x : Cell) : (s.setCell c x).shoot = s.shoot := rfl
@[simp] theorem setCell_ifaces (s : State) (c : Nat) (x : Cell) : (s.setCell c x).ifaces = s.ifaces := rfl
@[simp] theorem setCell_msi (s : State) (c : Nat) (x : Cell) : (s.setCell c x).msi = s.msi := rfl
@[simp] theorem setCell_errors (s : State) (c : Nat) (x : Cell) : (s.setCell c x).errors = s.errors := rfl
@[simp] theorem setCell_errLost (s : State) (c : Nat) (x : Cell) : (s.setCell c x).errLost = s.errLost := rfl
@[simp] theorem setCell_errRing (s : State) (c : Nat) (x : Cell) : (s.setCell c x).errRing = s.errRing := rfl
@[simp] theorem setCell_watch (s : State) (c : Nat) (x : Cell) : (s.setCell c x).watch = s.watch := rfl
@[simp] theorem setCell_corrected (s : State) (c : Nat) (x : Cell) : (s.setCell c x).corrected = s.corrected := rfl
@[simp] theorem setCell_ports (s : State) (c : Nat) (x : Cell) : (s.setCell c x).ports = s.ports := rfl
@[simp] theorem setCell_routes (s : State) (c : Nat) (x : Cell) : (s.setCell c x).routes = s.routes := rfl
@[simp] theorem setCell_jobs (s : State) (c : Nat) (x : Cell) : (s.setCell c x).jobs = s.jobs := rfl
@[simp] theorem setCell_images (s : State) (c : Nat) (x : Cell) : (s.setCell c x).images = s.images := rfl
@[simp] theorem setCell_saveLimit (s : State) (c : Nat) (x : Cell) : (s.setCell c x).saveLimit = s.saveLimit := rfl
@[simp] theorem setCell_reports (s : State) (c : Nat) (x : Cell) : (s.setCell c x).reports = s.reports := rfl
@[simp] theorem setCell_answers (s : State) (c : Nat) (x : Cell) : (s.setCell c x).answers = s.answers := rfl
@[simp] theorem setCell_power (s : State) (c : Nat) (x : Cell) : (s.setCell c x).power = s.power := rfl
@[simp] theorem setCell_sec (s : State) (c : Nat) (x : Cell) : (s.setCell c x).sec = s.sec := rfl
@[simp] theorem setCell_fw (s : State) (c : Nat) (x : Cell) : (s.setCell c x).fw = s.fw := rfl
@[simp] theorem setCell_stoppedAll (s : State) (c : Nat) (x : Cell) : (s.setCell c x).stoppedAll = s.stoppedAll := rfl

/-! ### `State.setSlot` -/

@[simp] theorem setSlot_sched (s : State) (c k : Nat) (l : Slot) : (s.setSlot c k l).sched = s.sched := rfl
@[simp] theorem setSlot_focus (s : State) (c k : Nat) (l : Slot) : (s.setSlot c k l).focus = s.focus := rfl
@[simp] theorem setSlot_cur (s : State) (c k : Nat) (l : Slot) : (s.setSlot c k l).cur = s.cur := rfl
@[simp] theorem setSlot_inp (s : State) (c k : Nat) (l : Slot) : (s.setSlot c k l).inp = s.inp := rfl
@[simp] theorem setSlot_fresh (s : State) (c k : Nat) (l : Slot) : (s.setSlot c k l).fresh = s.fresh := rfl
@[simp] theorem setSlot_serial (s : State) (c k : Nat) (l : Slot) : (s.setSlot c k l).serial = s.serial := rfl
@[simp] theorem setSlot_time (s : State) (c k : Nat) (l : Slot) : (s.setSlot c k l).time = s.time := rfl
@[simp] theorem setSlot_devId (s : State) (c k : Nat) (l : Slot) : (s.setSlot c k l).devId = s.devId := rfl
@[simp] theorem setSlot_mem (s : State) (c k : Nat) (l : Slot) : (s.setSlot c k l).mem = s.mem := rfl
@[simp] theorem setSlot_xts (s : State) (c k : Nat) (l : Slot) : (s.setSlot c k l).xts = s.xts := rfl
@[simp] theorem setSlot_full (s : State) (c k : Nat) (l : Slot) : (s.setSlot c k l).full = s.full := rfl
@[simp] theorem setSlot_poison (s : State) (c k : Nat) (l : Slot) : (s.setSlot c k l).poison = s.poison := rfl
@[simp] theorem setSlot_posted (s : State) (c k : Nat) (l : Slot) : (s.setSlot c k l).posted = s.posted := rfl
@[simp] theorem setSlot_held (s : State) (c k : Nat) (l : Slot) : (s.setSlot c k l).held = s.held := rfl
@[simp] theorem setSlot_epochs (s : State) (c k : Nat) (l : Slot) : (s.setSlot c k l).epochs = s.epochs := rfl
@[simp] theorem setSlot_net (s : State) (c k : Nat) (l : Slot) : (s.setSlot c k l).net = s.net := rfl
@[simp] theorem setSlot_mcReturns (s : State) (c k : Nat) (l : Slot) : (s.setSlot c k l).mcReturns = s.mcReturns := rfl
@[simp] theorem setSlot_arrivals (s : State) (c k : Nat) (l : Slot) : (s.setSlot c k l).arrivals = s.arrivals := rfl
@[simp] theorem setSlot_cells (s : State) (c k : Nat) (l : Slot) : (s.setSlot c k l).cells = s.cells.put c ((s.cell c).setSlot k l) := rfl
@[simp] theorem setSlot_ctxs (s : State) (c k : Nat) (l : Slot) : (s.setSlot c k l).ctxs = s.ctxs := rfl
@[simp] theorem setSlot_caps (s : State) (c k : Nat) (l : Slot) : (s.setSlot c k l).caps = s.caps := rfl
@[simp] theorem setSlot_codeStore (s : State) (c k : Nat) (l : Slot) : (s.setSlot c k l).codeStore = s.codeStore := rfl
@[simp] theorem setSlot_queues (s : State) (c k : Nat) (l : Slot) : (s.setSlot c k l).queues = s.queues := rfl
@[simp] theorem setSlot_engines (s : State) (c k : Nat) (l : Slot) : (s.setSlot c k l).engines = s.engines := rfl
@[simp] theorem setSlot_dfcs (s : State) (c k : Nat) (l : Slot) : (s.setSlot c k l).dfcs = s.dfcs := rfl
@[simp] theorem setSlot_harts (s : State) (c k : Nat) (l : Slot) : (s.setSlot c k l).harts = s.harts := rfl
@[simp] theorem setSlot_faults (s : State) (c k : Nat) (l : Slot) : (s.setSlot c k l).faults = s.faults := rfl
@[simp] theorem setSlot_marks (s : State) (c k : Nat) (l : Slot) : (s.setSlot c k l).marks = s.marks := rfl
@[simp] theorem setSlot_filters (s : State) (c k : Nat) (l : Slot) : (s.setSlot c k l).filters = s.filters := rfl
@[simp] theorem setSlot_slotTables (s : State) (c k : Nat) (l : Slot) : (s.setSlot c k l).slotTables = s.slotTables := rfl
@[simp] theorem setSlot_slotNext (s : State) (c k : Nat) (l : Slot) : (s.setSlot c k l).slotNext = s.slotNext := rfl
@[simp] theorem setSlot_clk (s : State) (c k : Nat) (l : Slot) : (s.setSlot c k l).clk = s.clk := rfl
@[simp] theorem setSlot_shoot (s : State) (c k : Nat) (l : Slot) : (s.setSlot c k l).shoot = s.shoot := rfl
@[simp] theorem setSlot_ifaces (s : State) (c k : Nat) (l : Slot) : (s.setSlot c k l).ifaces = s.ifaces := rfl
@[simp] theorem setSlot_msi (s : State) (c k : Nat) (l : Slot) : (s.setSlot c k l).msi = s.msi := rfl
@[simp] theorem setSlot_errors (s : State) (c k : Nat) (l : Slot) : (s.setSlot c k l).errors = s.errors := rfl
@[simp] theorem setSlot_errLost (s : State) (c k : Nat) (l : Slot) : (s.setSlot c k l).errLost = s.errLost := rfl
@[simp] theorem setSlot_errRing (s : State) (c k : Nat) (l : Slot) : (s.setSlot c k l).errRing = s.errRing := rfl
@[simp] theorem setSlot_watch (s : State) (c k : Nat) (l : Slot) : (s.setSlot c k l).watch = s.watch := rfl
@[simp] theorem setSlot_corrected (s : State) (c k : Nat) (l : Slot) : (s.setSlot c k l).corrected = s.corrected := rfl
@[simp] theorem setSlot_ports (s : State) (c k : Nat) (l : Slot) : (s.setSlot c k l).ports = s.ports := rfl
@[simp] theorem setSlot_routes (s : State) (c k : Nat) (l : Slot) : (s.setSlot c k l).routes = s.routes := rfl
@[simp] theorem setSlot_jobs (s : State) (c k : Nat) (l : Slot) : (s.setSlot c k l).jobs = s.jobs := rfl
@[simp] theorem setSlot_images (s : State) (c k : Nat) (l : Slot) : (s.setSlot c k l).images = s.images := rfl
@[simp] theorem setSlot_saveLimit (s : State) (c k : Nat) (l : Slot) : (s.setSlot c k l).saveLimit = s.saveLimit := rfl
@[simp] theorem setSlot_reports (s : State) (c k : Nat) (l : Slot) : (s.setSlot c k l).reports = s.reports := rfl
@[simp] theorem setSlot_answers (s : State) (c k : Nat) (l : Slot) : (s.setSlot c k l).answers = s.answers := rfl
@[simp] theorem setSlot_power (s : State) (c k : Nat) (l : Slot) : (s.setSlot c k l).power = s.power := rfl
@[simp] theorem setSlot_sec (s : State) (c k : Nat) (l : Slot) : (s.setSlot c k l).sec = s.sec := rfl
@[simp] theorem setSlot_fw (s : State) (c k : Nat) (l : Slot) : (s.setSlot c k l).fw = s.fw := rfl
@[simp] theorem setSlot_stoppedAll (s : State) (c k : Nat) (l : Slot) : (s.setSlot c k l).stoppedAll = s.stoppedAll := rfl

/-! ### `State.setCtx` -/

@[simp] theorem setCtx_sched (s : State) (r : Nat) (x : Context) : (s.setCtx r x).sched = s.sched := rfl
@[simp] theorem setCtx_focus (s : State) (r : Nat) (x : Context) : (s.setCtx r x).focus = s.focus := rfl
@[simp] theorem setCtx_cur (s : State) (r : Nat) (x : Context) : (s.setCtx r x).cur = s.cur := rfl
@[simp] theorem setCtx_inp (s : State) (r : Nat) (x : Context) : (s.setCtx r x).inp = s.inp := rfl
@[simp] theorem setCtx_fresh (s : State) (r : Nat) (x : Context) : (s.setCtx r x).fresh = s.fresh := rfl
@[simp] theorem setCtx_serial (s : State) (r : Nat) (x : Context) : (s.setCtx r x).serial = s.serial := rfl
@[simp] theorem setCtx_time (s : State) (r : Nat) (x : Context) : (s.setCtx r x).time = s.time := rfl
@[simp] theorem setCtx_devId (s : State) (r : Nat) (x : Context) : (s.setCtx r x).devId = s.devId := rfl
@[simp] theorem setCtx_mem (s : State) (r : Nat) (x : Context) : (s.setCtx r x).mem = s.mem := rfl
@[simp] theorem setCtx_xts (s : State) (r : Nat) (x : Context) : (s.setCtx r x).xts = s.xts := rfl
@[simp] theorem setCtx_full (s : State) (r : Nat) (x : Context) : (s.setCtx r x).full = s.full := rfl
@[simp] theorem setCtx_poison (s : State) (r : Nat) (x : Context) : (s.setCtx r x).poison = s.poison := rfl
@[simp] theorem setCtx_posted (s : State) (r : Nat) (x : Context) : (s.setCtx r x).posted = s.posted := rfl
@[simp] theorem setCtx_held (s : State) (r : Nat) (x : Context) : (s.setCtx r x).held = s.held := rfl
@[simp] theorem setCtx_epochs (s : State) (r : Nat) (x : Context) : (s.setCtx r x).epochs = s.epochs := rfl
@[simp] theorem setCtx_net (s : State) (r : Nat) (x : Context) : (s.setCtx r x).net = s.net := rfl
@[simp] theorem setCtx_mcReturns (s : State) (r : Nat) (x : Context) : (s.setCtx r x).mcReturns = s.mcReturns := rfl
@[simp] theorem setCtx_arrivals (s : State) (r : Nat) (x : Context) : (s.setCtx r x).arrivals = s.arrivals := rfl
@[simp] theorem setCtx_cells (s : State) (r : Nat) (x : Context) : (s.setCtx r x).cells = s.cells := rfl
@[simp] theorem setCtx_ctxs (s : State) (r : Nat) (x : Context) : (s.setCtx r x).ctxs = s.ctxs.put r x := rfl
@[simp] theorem setCtx_caps (s : State) (r : Nat) (x : Context) : (s.setCtx r x).caps = s.caps := rfl
@[simp] theorem setCtx_codeStore (s : State) (r : Nat) (x : Context) : (s.setCtx r x).codeStore = s.codeStore := rfl
@[simp] theorem setCtx_queues (s : State) (r : Nat) (x : Context) : (s.setCtx r x).queues = s.queues := rfl
@[simp] theorem setCtx_engines (s : State) (r : Nat) (x : Context) : (s.setCtx r x).engines = s.engines := rfl
@[simp] theorem setCtx_dfcs (s : State) (r : Nat) (x : Context) : (s.setCtx r x).dfcs = s.dfcs := rfl
@[simp] theorem setCtx_harts (s : State) (r : Nat) (x : Context) : (s.setCtx r x).harts = s.harts := rfl
@[simp] theorem setCtx_faults (s : State) (r : Nat) (x : Context) : (s.setCtx r x).faults = s.faults := rfl
@[simp] theorem setCtx_marks (s : State) (r : Nat) (x : Context) : (s.setCtx r x).marks = s.marks := rfl
@[simp] theorem setCtx_filters (s : State) (r : Nat) (x : Context) : (s.setCtx r x).filters = s.filters := rfl
@[simp] theorem setCtx_slotTables (s : State) (r : Nat) (x : Context) : (s.setCtx r x).slotTables = s.slotTables := rfl
@[simp] theorem setCtx_slotNext (s : State) (r : Nat) (x : Context) : (s.setCtx r x).slotNext = s.slotNext := rfl
@[simp] theorem setCtx_clk (s : State) (r : Nat) (x : Context) : (s.setCtx r x).clk = s.clk := rfl
@[simp] theorem setCtx_shoot (s : State) (r : Nat) (x : Context) : (s.setCtx r x).shoot = s.shoot := rfl
@[simp] theorem setCtx_ifaces (s : State) (r : Nat) (x : Context) : (s.setCtx r x).ifaces = s.ifaces := rfl
@[simp] theorem setCtx_msi (s : State) (r : Nat) (x : Context) : (s.setCtx r x).msi = s.msi := rfl
@[simp] theorem setCtx_errors (s : State) (r : Nat) (x : Context) : (s.setCtx r x).errors = s.errors := rfl
@[simp] theorem setCtx_errLost (s : State) (r : Nat) (x : Context) : (s.setCtx r x).errLost = s.errLost := rfl
@[simp] theorem setCtx_errRing (s : State) (r : Nat) (x : Context) : (s.setCtx r x).errRing = s.errRing := rfl
@[simp] theorem setCtx_watch (s : State) (r : Nat) (x : Context) : (s.setCtx r x).watch = s.watch := rfl
@[simp] theorem setCtx_corrected (s : State) (r : Nat) (x : Context) : (s.setCtx r x).corrected = s.corrected := rfl
@[simp] theorem setCtx_ports (s : State) (r : Nat) (x : Context) : (s.setCtx r x).ports = s.ports := rfl
@[simp] theorem setCtx_routes (s : State) (r : Nat) (x : Context) : (s.setCtx r x).routes = s.routes := rfl
@[simp] theorem setCtx_jobs (s : State) (r : Nat) (x : Context) : (s.setCtx r x).jobs = s.jobs := rfl
@[simp] theorem setCtx_images (s : State) (r : Nat) (x : Context) : (s.setCtx r x).images = s.images := rfl
@[simp] theorem setCtx_saveLimit (s : State) (r : Nat) (x : Context) : (s.setCtx r x).saveLimit = s.saveLimit := rfl
@[simp] theorem setCtx_reports (s : State) (r : Nat) (x : Context) : (s.setCtx r x).reports = s.reports := rfl
@[simp] theorem setCtx_answers (s : State) (r : Nat) (x : Context) : (s.setCtx r x).answers = s.answers := rfl
@[simp] theorem setCtx_power (s : State) (r : Nat) (x : Context) : (s.setCtx r x).power = s.power := rfl
@[simp] theorem setCtx_sec (s : State) (r : Nat) (x : Context) : (s.setCtx r x).sec = s.sec := rfl
@[simp] theorem setCtx_fw (s : State) (r : Nat) (x : Context) : (s.setCtx r x).fw = s.fw := rfl
@[simp] theorem setCtx_stoppedAll (s : State) (r : Nat) (x : Context) : (s.setCtx r x).stoppedAll = s.stoppedAll := rfl

/-! ### `State.setDfc` -/

@[simp] theorem setDfc_sched (s : State) (d : Nat) (x : Dfc) : (s.setDfc d x).sched = s.sched := rfl
@[simp] theorem setDfc_focus (s : State) (d : Nat) (x : Dfc) : (s.setDfc d x).focus = s.focus := rfl
@[simp] theorem setDfc_cur (s : State) (d : Nat) (x : Dfc) : (s.setDfc d x).cur = s.cur := rfl
@[simp] theorem setDfc_inp (s : State) (d : Nat) (x : Dfc) : (s.setDfc d x).inp = s.inp := rfl
@[simp] theorem setDfc_fresh (s : State) (d : Nat) (x : Dfc) : (s.setDfc d x).fresh = s.fresh := rfl
@[simp] theorem setDfc_serial (s : State) (d : Nat) (x : Dfc) : (s.setDfc d x).serial = s.serial := rfl
@[simp] theorem setDfc_time (s : State) (d : Nat) (x : Dfc) : (s.setDfc d x).time = s.time := rfl
@[simp] theorem setDfc_devId (s : State) (d : Nat) (x : Dfc) : (s.setDfc d x).devId = s.devId := rfl
@[simp] theorem setDfc_mem (s : State) (d : Nat) (x : Dfc) : (s.setDfc d x).mem = s.mem := rfl
@[simp] theorem setDfc_xts (s : State) (d : Nat) (x : Dfc) : (s.setDfc d x).xts = s.xts := rfl
@[simp] theorem setDfc_full (s : State) (d : Nat) (x : Dfc) : (s.setDfc d x).full = s.full := rfl
@[simp] theorem setDfc_poison (s : State) (d : Nat) (x : Dfc) : (s.setDfc d x).poison = s.poison := rfl
@[simp] theorem setDfc_posted (s : State) (d : Nat) (x : Dfc) : (s.setDfc d x).posted = s.posted := rfl
@[simp] theorem setDfc_held (s : State) (d : Nat) (x : Dfc) : (s.setDfc d x).held = s.held := rfl
@[simp] theorem setDfc_epochs (s : State) (d : Nat) (x : Dfc) : (s.setDfc d x).epochs = s.epochs := rfl
@[simp] theorem setDfc_net (s : State) (d : Nat) (x : Dfc) : (s.setDfc d x).net = s.net := rfl
@[simp] theorem setDfc_mcReturns (s : State) (d : Nat) (x : Dfc) : (s.setDfc d x).mcReturns = s.mcReturns := rfl
@[simp] theorem setDfc_arrivals (s : State) (d : Nat) (x : Dfc) : (s.setDfc d x).arrivals = s.arrivals := rfl
@[simp] theorem setDfc_cells (s : State) (d : Nat) (x : Dfc) : (s.setDfc d x).cells = s.cells := rfl
@[simp] theorem setDfc_ctxs (s : State) (d : Nat) (x : Dfc) : (s.setDfc d x).ctxs = s.ctxs := rfl
@[simp] theorem setDfc_caps (s : State) (d : Nat) (x : Dfc) : (s.setDfc d x).caps = s.caps := rfl
@[simp] theorem setDfc_codeStore (s : State) (d : Nat) (x : Dfc) : (s.setDfc d x).codeStore = s.codeStore := rfl
@[simp] theorem setDfc_queues (s : State) (d : Nat) (x : Dfc) : (s.setDfc d x).queues = s.queues := rfl
@[simp] theorem setDfc_engines (s : State) (d : Nat) (x : Dfc) : (s.setDfc d x).engines = s.engines := rfl
@[simp] theorem setDfc_dfcs (s : State) (d : Nat) (x : Dfc) : (s.setDfc d x).dfcs = s.dfcs.put d x := rfl
@[simp] theorem setDfc_harts (s : State) (d : Nat) (x : Dfc) : (s.setDfc d x).harts = s.harts := rfl
@[simp] theorem setDfc_faults (s : State) (d : Nat) (x : Dfc) : (s.setDfc d x).faults = s.faults := rfl
@[simp] theorem setDfc_marks (s : State) (d : Nat) (x : Dfc) : (s.setDfc d x).marks = s.marks := rfl
@[simp] theorem setDfc_filters (s : State) (d : Nat) (x : Dfc) : (s.setDfc d x).filters = s.filters := rfl
@[simp] theorem setDfc_slotTables (s : State) (d : Nat) (x : Dfc) : (s.setDfc d x).slotTables = s.slotTables := rfl
@[simp] theorem setDfc_slotNext (s : State) (d : Nat) (x : Dfc) : (s.setDfc d x).slotNext = s.slotNext := rfl
@[simp] theorem setDfc_clk (s : State) (d : Nat) (x : Dfc) : (s.setDfc d x).clk = s.clk := rfl
@[simp] theorem setDfc_shoot (s : State) (d : Nat) (x : Dfc) : (s.setDfc d x).shoot = s.shoot := rfl
@[simp] theorem setDfc_ifaces (s : State) (d : Nat) (x : Dfc) : (s.setDfc d x).ifaces = s.ifaces := rfl
@[simp] theorem setDfc_msi (s : State) (d : Nat) (x : Dfc) : (s.setDfc d x).msi = s.msi := rfl
@[simp] theorem setDfc_errors (s : State) (d : Nat) (x : Dfc) : (s.setDfc d x).errors = s.errors := rfl
@[simp] theorem setDfc_errLost (s : State) (d : Nat) (x : Dfc) : (s.setDfc d x).errLost = s.errLost := rfl
@[simp] theorem setDfc_errRing (s : State) (d : Nat) (x : Dfc) : (s.setDfc d x).errRing = s.errRing := rfl
@[simp] theorem setDfc_watch (s : State) (d : Nat) (x : Dfc) : (s.setDfc d x).watch = s.watch := rfl
@[simp] theorem setDfc_corrected (s : State) (d : Nat) (x : Dfc) : (s.setDfc d x).corrected = s.corrected := rfl
@[simp] theorem setDfc_ports (s : State) (d : Nat) (x : Dfc) : (s.setDfc d x).ports = s.ports := rfl
@[simp] theorem setDfc_routes (s : State) (d : Nat) (x : Dfc) : (s.setDfc d x).routes = s.routes := rfl
@[simp] theorem setDfc_jobs (s : State) (d : Nat) (x : Dfc) : (s.setDfc d x).jobs = s.jobs := rfl
@[simp] theorem setDfc_images (s : State) (d : Nat) (x : Dfc) : (s.setDfc d x).images = s.images := rfl
@[simp] theorem setDfc_saveLimit (s : State) (d : Nat) (x : Dfc) : (s.setDfc d x).saveLimit = s.saveLimit := rfl
@[simp] theorem setDfc_reports (s : State) (d : Nat) (x : Dfc) : (s.setDfc d x).reports = s.reports := rfl
@[simp] theorem setDfc_answers (s : State) (d : Nat) (x : Dfc) : (s.setDfc d x).answers = s.answers := rfl
@[simp] theorem setDfc_power (s : State) (d : Nat) (x : Dfc) : (s.setDfc d x).power = s.power := rfl
@[simp] theorem setDfc_sec (s : State) (d : Nat) (x : Dfc) : (s.setDfc d x).sec = s.sec := rfl
@[simp] theorem setDfc_fw (s : State) (d : Nat) (x : Dfc) : (s.setDfc d x).fw = s.fw := rfl
@[simp] theorem setDfc_stoppedAll (s : State) (d : Nat) (x : Dfc) : (s.setDfc d x).stoppedAll = s.stoppedAll := rfl

/-! ### `State.setQueue` -/

@[simp] theorem setQueue_sched (s : State) (q : Nat) (x : Queue) : (s.setQueue q x).sched = s.sched := rfl
@[simp] theorem setQueue_focus (s : State) (q : Nat) (x : Queue) : (s.setQueue q x).focus = s.focus := rfl
@[simp] theorem setQueue_cur (s : State) (q : Nat) (x : Queue) : (s.setQueue q x).cur = s.cur := rfl
@[simp] theorem setQueue_inp (s : State) (q : Nat) (x : Queue) : (s.setQueue q x).inp = s.inp := rfl
@[simp] theorem setQueue_fresh (s : State) (q : Nat) (x : Queue) : (s.setQueue q x).fresh = s.fresh := rfl
@[simp] theorem setQueue_serial (s : State) (q : Nat) (x : Queue) : (s.setQueue q x).serial = s.serial := rfl
@[simp] theorem setQueue_time (s : State) (q : Nat) (x : Queue) : (s.setQueue q x).time = s.time := rfl
@[simp] theorem setQueue_devId (s : State) (q : Nat) (x : Queue) : (s.setQueue q x).devId = s.devId := rfl
@[simp] theorem setQueue_mem (s : State) (q : Nat) (x : Queue) : (s.setQueue q x).mem = s.mem := rfl
@[simp] theorem setQueue_xts (s : State) (q : Nat) (x : Queue) : (s.setQueue q x).xts = s.xts := rfl
@[simp] theorem setQueue_full (s : State) (q : Nat) (x : Queue) : (s.setQueue q x).full = s.full := rfl
@[simp] theorem setQueue_poison (s : State) (q : Nat) (x : Queue) : (s.setQueue q x).poison = s.poison := rfl
@[simp] theorem setQueue_posted (s : State) (q : Nat) (x : Queue) : (s.setQueue q x).posted = s.posted := rfl
@[simp] theorem setQueue_held (s : State) (q : Nat) (x : Queue) : (s.setQueue q x).held = s.held := rfl
@[simp] theorem setQueue_epochs (s : State) (q : Nat) (x : Queue) : (s.setQueue q x).epochs = s.epochs := rfl
@[simp] theorem setQueue_net (s : State) (q : Nat) (x : Queue) : (s.setQueue q x).net = s.net := rfl
@[simp] theorem setQueue_mcReturns (s : State) (q : Nat) (x : Queue) : (s.setQueue q x).mcReturns = s.mcReturns := rfl
@[simp] theorem setQueue_arrivals (s : State) (q : Nat) (x : Queue) : (s.setQueue q x).arrivals = s.arrivals := rfl
@[simp] theorem setQueue_cells (s : State) (q : Nat) (x : Queue) : (s.setQueue q x).cells = s.cells := rfl
@[simp] theorem setQueue_ctxs (s : State) (q : Nat) (x : Queue) : (s.setQueue q x).ctxs = s.ctxs := rfl
@[simp] theorem setQueue_caps (s : State) (q : Nat) (x : Queue) : (s.setQueue q x).caps = s.caps := rfl
@[simp] theorem setQueue_codeStore (s : State) (q : Nat) (x : Queue) : (s.setQueue q x).codeStore = s.codeStore := rfl
@[simp] theorem setQueue_queues (s : State) (q : Nat) (x : Queue) : (s.setQueue q x).queues = s.queues.put q x := rfl
@[simp] theorem setQueue_engines (s : State) (q : Nat) (x : Queue) : (s.setQueue q x).engines = s.engines := rfl
@[simp] theorem setQueue_dfcs (s : State) (q : Nat) (x : Queue) : (s.setQueue q x).dfcs = s.dfcs := rfl
@[simp] theorem setQueue_harts (s : State) (q : Nat) (x : Queue) : (s.setQueue q x).harts = s.harts := rfl
@[simp] theorem setQueue_faults (s : State) (q : Nat) (x : Queue) : (s.setQueue q x).faults = s.faults := rfl
@[simp] theorem setQueue_marks (s : State) (q : Nat) (x : Queue) : (s.setQueue q x).marks = s.marks := rfl
@[simp] theorem setQueue_filters (s : State) (q : Nat) (x : Queue) : (s.setQueue q x).filters = s.filters := rfl
@[simp] theorem setQueue_slotTables (s : State) (q : Nat) (x : Queue) : (s.setQueue q x).slotTables = s.slotTables := rfl
@[simp] theorem setQueue_slotNext (s : State) (q : Nat) (x : Queue) : (s.setQueue q x).slotNext = s.slotNext := rfl
@[simp] theorem setQueue_clk (s : State) (q : Nat) (x : Queue) : (s.setQueue q x).clk = s.clk := rfl
@[simp] theorem setQueue_shoot (s : State) (q : Nat) (x : Queue) : (s.setQueue q x).shoot = s.shoot := rfl
@[simp] theorem setQueue_ifaces (s : State) (q : Nat) (x : Queue) : (s.setQueue q x).ifaces = s.ifaces := rfl
@[simp] theorem setQueue_msi (s : State) (q : Nat) (x : Queue) : (s.setQueue q x).msi = s.msi := rfl
@[simp] theorem setQueue_errors (s : State) (q : Nat) (x : Queue) : (s.setQueue q x).errors = s.errors := rfl
@[simp] theorem setQueue_errLost (s : State) (q : Nat) (x : Queue) : (s.setQueue q x).errLost = s.errLost := rfl
@[simp] theorem setQueue_errRing (s : State) (q : Nat) (x : Queue) : (s.setQueue q x).errRing = s.errRing := rfl
@[simp] theorem setQueue_watch (s : State) (q : Nat) (x : Queue) : (s.setQueue q x).watch = s.watch := rfl
@[simp] theorem setQueue_corrected (s : State) (q : Nat) (x : Queue) : (s.setQueue q x).corrected = s.corrected := rfl
@[simp] theorem setQueue_ports (s : State) (q : Nat) (x : Queue) : (s.setQueue q x).ports = s.ports := rfl
@[simp] theorem setQueue_routes (s : State) (q : Nat) (x : Queue) : (s.setQueue q x).routes = s.routes := rfl
@[simp] theorem setQueue_jobs (s : State) (q : Nat) (x : Queue) : (s.setQueue q x).jobs = s.jobs := rfl
@[simp] theorem setQueue_images (s : State) (q : Nat) (x : Queue) : (s.setQueue q x).images = s.images := rfl
@[simp] theorem setQueue_saveLimit (s : State) (q : Nat) (x : Queue) : (s.setQueue q x).saveLimit = s.saveLimit := rfl
@[simp] theorem setQueue_reports (s : State) (q : Nat) (x : Queue) : (s.setQueue q x).reports = s.reports := rfl
@[simp] theorem setQueue_answers (s : State) (q : Nat) (x : Queue) : (s.setQueue q x).answers = s.answers := rfl
@[simp] theorem setQueue_power (s : State) (q : Nat) (x : Queue) : (s.setQueue q x).power = s.power := rfl
@[simp] theorem setQueue_sec (s : State) (q : Nat) (x : Queue) : (s.setQueue q x).sec = s.sec := rfl
@[simp] theorem setQueue_fw (s : State) (q : Nat) (x : Queue) : (s.setQueue q x).fw = s.fw := rfl
@[simp] theorem setQueue_stoppedAll (s : State) (q : Nat) (x : Queue) : (s.setQueue q x).stoppedAll = s.stoppedAll := rfl

/-! ### `State.setHart` -/

@[simp] theorem setHart_sched (s : State) (d h : Nat) (x : Hart) : (s.setHart d h x).sched = s.sched := rfl
@[simp] theorem setHart_focus (s : State) (d h : Nat) (x : Hart) : (s.setHart d h x).focus = s.focus := rfl
@[simp] theorem setHart_cur (s : State) (d h : Nat) (x : Hart) : (s.setHart d h x).cur = s.cur := rfl
@[simp] theorem setHart_inp (s : State) (d h : Nat) (x : Hart) : (s.setHart d h x).inp = s.inp := rfl
@[simp] theorem setHart_fresh (s : State) (d h : Nat) (x : Hart) : (s.setHart d h x).fresh = s.fresh := rfl
@[simp] theorem setHart_serial (s : State) (d h : Nat) (x : Hart) : (s.setHart d h x).serial = s.serial := rfl
@[simp] theorem setHart_time (s : State) (d h : Nat) (x : Hart) : (s.setHart d h x).time = s.time := rfl
@[simp] theorem setHart_devId (s : State) (d h : Nat) (x : Hart) : (s.setHart d h x).devId = s.devId := rfl
@[simp] theorem setHart_mem (s : State) (d h : Nat) (x : Hart) : (s.setHart d h x).mem = s.mem := rfl
@[simp] theorem setHart_xts (s : State) (d h : Nat) (x : Hart) : (s.setHart d h x).xts = s.xts := rfl
@[simp] theorem setHart_full (s : State) (d h : Nat) (x : Hart) : (s.setHart d h x).full = s.full := rfl
@[simp] theorem setHart_poison (s : State) (d h : Nat) (x : Hart) : (s.setHart d h x).poison = s.poison := rfl
@[simp] theorem setHart_posted (s : State) (d h : Nat) (x : Hart) : (s.setHart d h x).posted = s.posted := rfl
@[simp] theorem setHart_held (s : State) (d h : Nat) (x : Hart) : (s.setHart d h x).held = s.held := rfl
@[simp] theorem setHart_epochs (s : State) (d h : Nat) (x : Hart) : (s.setHart d h x).epochs = s.epochs := rfl
@[simp] theorem setHart_net (s : State) (d h : Nat) (x : Hart) : (s.setHart d h x).net = s.net := rfl
@[simp] theorem setHart_mcReturns (s : State) (d h : Nat) (x : Hart) : (s.setHart d h x).mcReturns = s.mcReturns := rfl
@[simp] theorem setHart_arrivals (s : State) (d h : Nat) (x : Hart) : (s.setHart d h x).arrivals = s.arrivals := rfl
@[simp] theorem setHart_cells (s : State) (d h : Nat) (x : Hart) : (s.setHart d h x).cells = s.cells := rfl
@[simp] theorem setHart_ctxs (s : State) (d h : Nat) (x : Hart) : (s.setHart d h x).ctxs = s.ctxs := rfl
@[simp] theorem setHart_caps (s : State) (d h : Nat) (x : Hart) : (s.setHart d h x).caps = s.caps := rfl
@[simp] theorem setHart_codeStore (s : State) (d h : Nat) (x : Hart) : (s.setHart d h x).codeStore = s.codeStore := rfl
@[simp] theorem setHart_queues (s : State) (d h : Nat) (x : Hart) : (s.setHart d h x).queues = s.queues := rfl
@[simp] theorem setHart_engines (s : State) (d h : Nat) (x : Hart) : (s.setHart d h x).engines = s.engines := rfl
@[simp] theorem setHart_dfcs (s : State) (d h : Nat) (x : Hart) : (s.setHart d h x).dfcs = s.dfcs := rfl
@[simp] theorem setHart_harts (s : State) (d h : Nat) (x : Hart) : (s.setHart d h x).harts = s.harts.put (28 * d + h) x := rfl
@[simp] theorem setHart_faults (s : State) (d h : Nat) (x : Hart) : (s.setHart d h x).faults = s.faults := rfl
@[simp] theorem setHart_marks (s : State) (d h : Nat) (x : Hart) : (s.setHart d h x).marks = s.marks := rfl
@[simp] theorem setHart_filters (s : State) (d h : Nat) (x : Hart) : (s.setHart d h x).filters = s.filters := rfl
@[simp] theorem setHart_slotTables (s : State) (d h : Nat) (x : Hart) : (s.setHart d h x).slotTables = s.slotTables := rfl
@[simp] theorem setHart_slotNext (s : State) (d h : Nat) (x : Hart) : (s.setHart d h x).slotNext = s.slotNext := rfl
@[simp] theorem setHart_clk (s : State) (d h : Nat) (x : Hart) : (s.setHart d h x).clk = s.clk := rfl
@[simp] theorem setHart_shoot (s : State) (d h : Nat) (x : Hart) : (s.setHart d h x).shoot = s.shoot := rfl
@[simp] theorem setHart_ifaces (s : State) (d h : Nat) (x : Hart) : (s.setHart d h x).ifaces = s.ifaces := rfl
@[simp] theorem setHart_msi (s : State) (d h : Nat) (x : Hart) : (s.setHart d h x).msi = s.msi := rfl
@[simp] theorem setHart_errors (s : State) (d h : Nat) (x : Hart) : (s.setHart d h x).errors = s.errors := rfl
@[simp] theorem setHart_errLost (s : State) (d h : Nat) (x : Hart) : (s.setHart d h x).errLost = s.errLost := rfl
@[simp] theorem setHart_errRing (s : State) (d h : Nat) (x : Hart) : (s.setHart d h x).errRing = s.errRing := rfl
@[simp] theorem setHart_watch (s : State) (d h : Nat) (x : Hart) : (s.setHart d h x).watch = s.watch := rfl
@[simp] theorem setHart_corrected (s : State) (d h : Nat) (x : Hart) : (s.setHart d h x).corrected = s.corrected := rfl
@[simp] theorem setHart_ports (s : State) (d h : Nat) (x : Hart) : (s.setHart d h x).ports = s.ports := rfl
@[simp] theorem setHart_routes (s : State) (d h : Nat) (x : Hart) : (s.setHart d h x).routes = s.routes := rfl
@[simp] theorem setHart_jobs (s : State) (d h : Nat) (x : Hart) : (s.setHart d h x).jobs = s.jobs := rfl
@[simp] theorem setHart_images (s : State) (d h : Nat) (x : Hart) : (s.setHart d h x).images = s.images := rfl
@[simp] theorem setHart_saveLimit (s : State) (d h : Nat) (x : Hart) : (s.setHart d h x).saveLimit = s.saveLimit := rfl
@[simp] theorem setHart_reports (s : State) (d h : Nat) (x : Hart) : (s.setHart d h x).reports = s.reports := rfl
@[simp] theorem setHart_answers (s : State) (d h : Nat) (x : Hart) : (s.setHart d h x).answers = s.answers := rfl
@[simp] theorem setHart_power (s : State) (d h : Nat) (x : Hart) : (s.setHart d h x).power = s.power := rfl
@[simp] theorem setHart_sec (s : State) (d h : Nat) (x : Hart) : (s.setHart d h x).sec = s.sec := rfl
@[simp] theorem setHart_fw (s : State) (d h : Nat) (x : Hart) : (s.setHart d h x).fw = s.fw := rfl
@[simp] theorem setHart_stoppedAll (s : State) (d h : Nat) (x : Hart) : (s.setHart d h x).stoppedAll = s.stoppedAll := rfl

/-! ### `State.setFault` -/

@[simp] theorem setFault_sched (s : State) (d : Nat) (x : FaultBuf) : (s.setFault d x).sched = s.sched := rfl
@[simp] theorem setFault_focus (s : State) (d : Nat) (x : FaultBuf) : (s.setFault d x).focus = s.focus := rfl
@[simp] theorem setFault_cur (s : State) (d : Nat) (x : FaultBuf) : (s.setFault d x).cur = s.cur := rfl
@[simp] theorem setFault_inp (s : State) (d : Nat) (x : FaultBuf) : (s.setFault d x).inp = s.inp := rfl
@[simp] theorem setFault_fresh (s : State) (d : Nat) (x : FaultBuf) : (s.setFault d x).fresh = s.fresh := rfl
@[simp] theorem setFault_serial (s : State) (d : Nat) (x : FaultBuf) : (s.setFault d x).serial = s.serial := rfl
@[simp] theorem setFault_time (s : State) (d : Nat) (x : FaultBuf) : (s.setFault d x).time = s.time := rfl
@[simp] theorem setFault_devId (s : State) (d : Nat) (x : FaultBuf) : (s.setFault d x).devId = s.devId := rfl
@[simp] theorem setFault_mem (s : State) (d : Nat) (x : FaultBuf) : (s.setFault d x).mem = s.mem := rfl
@[simp] theorem setFault_xts (s : State) (d : Nat) (x : FaultBuf) : (s.setFault d x).xts = s.xts := rfl
@[simp] theorem setFault_full (s : State) (d : Nat) (x : FaultBuf) : (s.setFault d x).full = s.full := rfl
@[simp] theorem setFault_poison (s : State) (d : Nat) (x : FaultBuf) : (s.setFault d x).poison = s.poison := rfl
@[simp] theorem setFault_posted (s : State) (d : Nat) (x : FaultBuf) : (s.setFault d x).posted = s.posted := rfl
@[simp] theorem setFault_held (s : State) (d : Nat) (x : FaultBuf) : (s.setFault d x).held = s.held := rfl
@[simp] theorem setFault_epochs (s : State) (d : Nat) (x : FaultBuf) : (s.setFault d x).epochs = s.epochs := rfl
@[simp] theorem setFault_net (s : State) (d : Nat) (x : FaultBuf) : (s.setFault d x).net = s.net := rfl
@[simp] theorem setFault_mcReturns (s : State) (d : Nat) (x : FaultBuf) : (s.setFault d x).mcReturns = s.mcReturns := rfl
@[simp] theorem setFault_arrivals (s : State) (d : Nat) (x : FaultBuf) : (s.setFault d x).arrivals = s.arrivals := rfl
@[simp] theorem setFault_cells (s : State) (d : Nat) (x : FaultBuf) : (s.setFault d x).cells = s.cells := rfl
@[simp] theorem setFault_ctxs (s : State) (d : Nat) (x : FaultBuf) : (s.setFault d x).ctxs = s.ctxs := rfl
@[simp] theorem setFault_caps (s : State) (d : Nat) (x : FaultBuf) : (s.setFault d x).caps = s.caps := rfl
@[simp] theorem setFault_codeStore (s : State) (d : Nat) (x : FaultBuf) : (s.setFault d x).codeStore = s.codeStore := rfl
@[simp] theorem setFault_queues (s : State) (d : Nat) (x : FaultBuf) : (s.setFault d x).queues = s.queues := rfl
@[simp] theorem setFault_engines (s : State) (d : Nat) (x : FaultBuf) : (s.setFault d x).engines = s.engines := rfl
@[simp] theorem setFault_dfcs (s : State) (d : Nat) (x : FaultBuf) : (s.setFault d x).dfcs = s.dfcs := rfl
@[simp] theorem setFault_harts (s : State) (d : Nat) (x : FaultBuf) : (s.setFault d x).harts = s.harts := rfl
@[simp] theorem setFault_faults (s : State) (d : Nat) (x : FaultBuf) : (s.setFault d x).faults = s.faults.put d x := rfl
@[simp] theorem setFault_marks (s : State) (d : Nat) (x : FaultBuf) : (s.setFault d x).marks = s.marks := rfl
@[simp] theorem setFault_filters (s : State) (d : Nat) (x : FaultBuf) : (s.setFault d x).filters = s.filters := rfl
@[simp] theorem setFault_slotTables (s : State) (d : Nat) (x : FaultBuf) : (s.setFault d x).slotTables = s.slotTables := rfl
@[simp] theorem setFault_slotNext (s : State) (d : Nat) (x : FaultBuf) : (s.setFault d x).slotNext = s.slotNext := rfl
@[simp] theorem setFault_clk (s : State) (d : Nat) (x : FaultBuf) : (s.setFault d x).clk = s.clk := rfl
@[simp] theorem setFault_shoot (s : State) (d : Nat) (x : FaultBuf) : (s.setFault d x).shoot = s.shoot := rfl
@[simp] theorem setFault_ifaces (s : State) (d : Nat) (x : FaultBuf) : (s.setFault d x).ifaces = s.ifaces := rfl
@[simp] theorem setFault_msi (s : State) (d : Nat) (x : FaultBuf) : (s.setFault d x).msi = s.msi := rfl
@[simp] theorem setFault_errors (s : State) (d : Nat) (x : FaultBuf) : (s.setFault d x).errors = s.errors := rfl
@[simp] theorem setFault_errLost (s : State) (d : Nat) (x : FaultBuf) : (s.setFault d x).errLost = s.errLost := rfl
@[simp] theorem setFault_errRing (s : State) (d : Nat) (x : FaultBuf) : (s.setFault d x).errRing = s.errRing := rfl
@[simp] theorem setFault_watch (s : State) (d : Nat) (x : FaultBuf) : (s.setFault d x).watch = s.watch := rfl
@[simp] theorem setFault_corrected (s : State) (d : Nat) (x : FaultBuf) : (s.setFault d x).corrected = s.corrected := rfl
@[simp] theorem setFault_ports (s : State) (d : Nat) (x : FaultBuf) : (s.setFault d x).ports = s.ports := rfl
@[simp] theorem setFault_routes (s : State) (d : Nat) (x : FaultBuf) : (s.setFault d x).routes = s.routes := rfl
@[simp] theorem setFault_jobs (s : State) (d : Nat) (x : FaultBuf) : (s.setFault d x).jobs = s.jobs := rfl
@[simp] theorem setFault_images (s : State) (d : Nat) (x : FaultBuf) : (s.setFault d x).images = s.images := rfl
@[simp] theorem setFault_saveLimit (s : State) (d : Nat) (x : FaultBuf) : (s.setFault d x).saveLimit = s.saveLimit := rfl
@[simp] theorem setFault_reports (s : State) (d : Nat) (x : FaultBuf) : (s.setFault d x).reports = s.reports := rfl
@[simp] theorem setFault_answers (s : State) (d : Nat) (x : FaultBuf) : (s.setFault d x).answers = s.answers := rfl
@[simp] theorem setFault_power (s : State) (d : Nat) (x : FaultBuf) : (s.setFault d x).power = s.power := rfl
@[simp] theorem setFault_sec (s : State) (d : Nat) (x : FaultBuf) : (s.setFault d x).sec = s.sec := rfl
@[simp] theorem setFault_fw (s : State) (d : Nat) (x : FaultBuf) : (s.setFault d x).fw = s.fw := rfl
@[simp] theorem setFault_stoppedAll (s : State) (d : Nat) (x : FaultBuf) : (s.setFault d x).stoppedAll = s.stoppedAll := rfl

/-! ### `State.setIface` -/

@[simp] theorem setIface_sched (s : State) (f : Nat) (x : Iface) : (s.setIface f x).sched = s.sched := rfl
@[simp] theorem setIface_focus (s : State) (f : Nat) (x : Iface) : (s.setIface f x).focus = s.focus := rfl
@[simp] theorem setIface_cur (s : State) (f : Nat) (x : Iface) : (s.setIface f x).cur = s.cur := rfl
@[simp] theorem setIface_inp (s : State) (f : Nat) (x : Iface) : (s.setIface f x).inp = s.inp := rfl
@[simp] theorem setIface_fresh (s : State) (f : Nat) (x : Iface) : (s.setIface f x).fresh = s.fresh := rfl
@[simp] theorem setIface_serial (s : State) (f : Nat) (x : Iface) : (s.setIface f x).serial = s.serial := rfl
@[simp] theorem setIface_time (s : State) (f : Nat) (x : Iface) : (s.setIface f x).time = s.time := rfl
@[simp] theorem setIface_devId (s : State) (f : Nat) (x : Iface) : (s.setIface f x).devId = s.devId := rfl
@[simp] theorem setIface_mem (s : State) (f : Nat) (x : Iface) : (s.setIface f x).mem = s.mem := rfl
@[simp] theorem setIface_xts (s : State) (f : Nat) (x : Iface) : (s.setIface f x).xts = s.xts := rfl
@[simp] theorem setIface_full (s : State) (f : Nat) (x : Iface) : (s.setIface f x).full = s.full := rfl
@[simp] theorem setIface_poison (s : State) (f : Nat) (x : Iface) : (s.setIface f x).poison = s.poison := rfl
@[simp] theorem setIface_posted (s : State) (f : Nat) (x : Iface) : (s.setIface f x).posted = s.posted := rfl
@[simp] theorem setIface_held (s : State) (f : Nat) (x : Iface) : (s.setIface f x).held = s.held := rfl
@[simp] theorem setIface_epochs (s : State) (f : Nat) (x : Iface) : (s.setIface f x).epochs = s.epochs := rfl
@[simp] theorem setIface_net (s : State) (f : Nat) (x : Iface) : (s.setIface f x).net = s.net := rfl
@[simp] theorem setIface_mcReturns (s : State) (f : Nat) (x : Iface) : (s.setIface f x).mcReturns = s.mcReturns := rfl
@[simp] theorem setIface_arrivals (s : State) (f : Nat) (x : Iface) : (s.setIface f x).arrivals = s.arrivals := rfl
@[simp] theorem setIface_cells (s : State) (f : Nat) (x : Iface) : (s.setIface f x).cells = s.cells := rfl
@[simp] theorem setIface_ctxs (s : State) (f : Nat) (x : Iface) : (s.setIface f x).ctxs = s.ctxs := rfl
@[simp] theorem setIface_caps (s : State) (f : Nat) (x : Iface) : (s.setIface f x).caps = s.caps := rfl
@[simp] theorem setIface_codeStore (s : State) (f : Nat) (x : Iface) : (s.setIface f x).codeStore = s.codeStore := rfl
@[simp] theorem setIface_queues (s : State) (f : Nat) (x : Iface) : (s.setIface f x).queues = s.queues := rfl
@[simp] theorem setIface_engines (s : State) (f : Nat) (x : Iface) : (s.setIface f x).engines = s.engines := rfl
@[simp] theorem setIface_dfcs (s : State) (f : Nat) (x : Iface) : (s.setIface f x).dfcs = s.dfcs := rfl
@[simp] theorem setIface_harts (s : State) (f : Nat) (x : Iface) : (s.setIface f x).harts = s.harts := rfl
@[simp] theorem setIface_faults (s : State) (f : Nat) (x : Iface) : (s.setIface f x).faults = s.faults := rfl
@[simp] theorem setIface_marks (s : State) (f : Nat) (x : Iface) : (s.setIface f x).marks = s.marks := rfl
@[simp] theorem setIface_filters (s : State) (f : Nat) (x : Iface) : (s.setIface f x).filters = s.filters := rfl
@[simp] theorem setIface_slotTables (s : State) (f : Nat) (x : Iface) : (s.setIface f x).slotTables = s.slotTables := rfl
@[simp] theorem setIface_slotNext (s : State) (f : Nat) (x : Iface) : (s.setIface f x).slotNext = s.slotNext := rfl
@[simp] theorem setIface_clk (s : State) (f : Nat) (x : Iface) : (s.setIface f x).clk = s.clk := rfl
@[simp] theorem setIface_shoot (s : State) (f : Nat) (x : Iface) : (s.setIface f x).shoot = s.shoot := rfl
@[simp] theorem setIface_ifaces (s : State) (f : Nat) (x : Iface) : (s.setIface f x).ifaces = s.ifaces.put f x := rfl
@[simp] theorem setIface_msi (s : State) (f : Nat) (x : Iface) : (s.setIface f x).msi = s.msi := rfl
@[simp] theorem setIface_errors (s : State) (f : Nat) (x : Iface) : (s.setIface f x).errors = s.errors := rfl
@[simp] theorem setIface_errLost (s : State) (f : Nat) (x : Iface) : (s.setIface f x).errLost = s.errLost := rfl
@[simp] theorem setIface_errRing (s : State) (f : Nat) (x : Iface) : (s.setIface f x).errRing = s.errRing := rfl
@[simp] theorem setIface_watch (s : State) (f : Nat) (x : Iface) : (s.setIface f x).watch = s.watch := rfl
@[simp] theorem setIface_corrected (s : State) (f : Nat) (x : Iface) : (s.setIface f x).corrected = s.corrected := rfl
@[simp] theorem setIface_ports (s : State) (f : Nat) (x : Iface) : (s.setIface f x).ports = s.ports := rfl
@[simp] theorem setIface_routes (s : State) (f : Nat) (x : Iface) : (s.setIface f x).routes = s.routes := rfl
@[simp] theorem setIface_jobs (s : State) (f : Nat) (x : Iface) : (s.setIface f x).jobs = s.jobs := rfl
@[simp] theorem setIface_images (s : State) (f : Nat) (x : Iface) : (s.setIface f x).images = s.images := rfl
@[simp] theorem setIface_saveLimit (s : State) (f : Nat) (x : Iface) : (s.setIface f x).saveLimit = s.saveLimit := rfl
@[simp] theorem setIface_reports (s : State) (f : Nat) (x : Iface) : (s.setIface f x).reports = s.reports := rfl
@[simp] theorem setIface_answers (s : State) (f : Nat) (x : Iface) : (s.setIface f x).answers = s.answers := rfl
@[simp] theorem setIface_power (s : State) (f : Nat) (x : Iface) : (s.setIface f x).power = s.power := rfl
@[simp] theorem setIface_sec (s : State) (f : Nat) (x : Iface) : (s.setIface f x).sec = s.sec := rfl
@[simp] theorem setIface_fw (s : State) (f : Nat) (x : Iface) : (s.setIface f x).fw = s.fw := rfl
@[simp] theorem setIface_stoppedAll (s : State) (f : Nat) (x : Iface) : (s.setIface f x).stoppedAll = s.stoppedAll := rfl

/-! ### `State.setPort` -/

@[simp] theorem setPort_sched (s : State) (p : Nat) (x : Port) : (s.setPort p x).sched = s.sched := rfl
@[simp] theorem setPort_focus (s : State) (p : Nat) (x : Port) : (s.setPort p x).focus = s.focus := rfl
@[simp] theorem setPort_cur (s : State) (p : Nat) (x : Port) : (s.setPort p x).cur = s.cur := rfl
@[simp] theorem setPort_inp (s : State) (p : Nat) (x : Port) : (s.setPort p x).inp = s.inp := rfl
@[simp] theorem setPort_fresh (s : State) (p : Nat) (x : Port) : (s.setPort p x).fresh = s.fresh := rfl
@[simp] theorem setPort_serial (s : State) (p : Nat) (x : Port) : (s.setPort p x).serial = s.serial := rfl
@[simp] theorem setPort_time (s : State) (p : Nat) (x : Port) : (s.setPort p x).time = s.time := rfl
@[simp] theorem setPort_devId (s : State) (p : Nat) (x : Port) : (s.setPort p x).devId = s.devId := rfl
@[simp] theorem setPort_mem (s : State) (p : Nat) (x : Port) : (s.setPort p x).mem = s.mem := rfl
@[simp] theorem setPort_xts (s : State) (p : Nat) (x : Port) : (s.setPort p x).xts = s.xts := rfl
@[simp] theorem setPort_full (s : State) (p : Nat) (x : Port) : (s.setPort p x).full = s.full := rfl
@[simp] theorem setPort_poison (s : State) (p : Nat) (x : Port) : (s.setPort p x).poison = s.poison := rfl
@[simp] theorem setPort_posted (s : State) (p : Nat) (x : Port) : (s.setPort p x).posted = s.posted := rfl
@[simp] theorem setPort_held (s : State) (p : Nat) (x : Port) : (s.setPort p x).held = s.held := rfl
@[simp] theorem setPort_epochs (s : State) (p : Nat) (x : Port) : (s.setPort p x).epochs = s.epochs := rfl
@[simp] theorem setPort_net (s : State) (p : Nat) (x : Port) : (s.setPort p x).net = s.net := rfl
@[simp] theorem setPort_mcReturns (s : State) (p : Nat) (x : Port) : (s.setPort p x).mcReturns = s.mcReturns := rfl
@[simp] theorem setPort_arrivals (s : State) (p : Nat) (x : Port) : (s.setPort p x).arrivals = s.arrivals := rfl
@[simp] theorem setPort_cells (s : State) (p : Nat) (x : Port) : (s.setPort p x).cells = s.cells := rfl
@[simp] theorem setPort_ctxs (s : State) (p : Nat) (x : Port) : (s.setPort p x).ctxs = s.ctxs := rfl
@[simp] theorem setPort_caps (s : State) (p : Nat) (x : Port) : (s.setPort p x).caps = s.caps := rfl
@[simp] theorem setPort_codeStore (s : State) (p : Nat) (x : Port) : (s.setPort p x).codeStore = s.codeStore := rfl
@[simp] theorem setPort_queues (s : State) (p : Nat) (x : Port) : (s.setPort p x).queues = s.queues := rfl
@[simp] theorem setPort_engines (s : State) (p : Nat) (x : Port) : (s.setPort p x).engines = s.engines := rfl
@[simp] theorem setPort_dfcs (s : State) (p : Nat) (x : Port) : (s.setPort p x).dfcs = s.dfcs := rfl
@[simp] theorem setPort_harts (s : State) (p : Nat) (x : Port) : (s.setPort p x).harts = s.harts := rfl
@[simp] theorem setPort_faults (s : State) (p : Nat) (x : Port) : (s.setPort p x).faults = s.faults := rfl
@[simp] theorem setPort_marks (s : State) (p : Nat) (x : Port) : (s.setPort p x).marks = s.marks := rfl
@[simp] theorem setPort_filters (s : State) (p : Nat) (x : Port) : (s.setPort p x).filters = s.filters := rfl
@[simp] theorem setPort_slotTables (s : State) (p : Nat) (x : Port) : (s.setPort p x).slotTables = s.slotTables := rfl
@[simp] theorem setPort_slotNext (s : State) (p : Nat) (x : Port) : (s.setPort p x).slotNext = s.slotNext := rfl
@[simp] theorem setPort_clk (s : State) (p : Nat) (x : Port) : (s.setPort p x).clk = s.clk := rfl
@[simp] theorem setPort_shoot (s : State) (p : Nat) (x : Port) : (s.setPort p x).shoot = s.shoot := rfl
@[simp] theorem setPort_ifaces (s : State) (p : Nat) (x : Port) : (s.setPort p x).ifaces = s.ifaces := rfl
@[simp] theorem setPort_msi (s : State) (p : Nat) (x : Port) : (s.setPort p x).msi = s.msi := rfl
@[simp] theorem setPort_errors (s : State) (p : Nat) (x : Port) : (s.setPort p x).errors = s.errors := rfl
@[simp] theorem setPort_errLost (s : State) (p : Nat) (x : Port) : (s.setPort p x).errLost = s.errLost := rfl
@[simp] theorem setPort_errRing (s : State) (p : Nat) (x : Port) : (s.setPort p x).errRing = s.errRing := rfl
@[simp] theorem setPort_watch (s : State) (p : Nat) (x : Port) : (s.setPort p x).watch = s.watch := rfl
@[simp] theorem setPort_corrected (s : State) (p : Nat) (x : Port) : (s.setPort p x).corrected = s.corrected := rfl
@[simp] theorem setPort_ports (s : State) (p : Nat) (x : Port) : (s.setPort p x).ports = s.ports.put p x := rfl
@[simp] theorem setPort_routes (s : State) (p : Nat) (x : Port) : (s.setPort p x).routes = s.routes := rfl
@[simp] theorem setPort_jobs (s : State) (p : Nat) (x : Port) : (s.setPort p x).jobs = s.jobs := rfl
@[simp] theorem setPort_images (s : State) (p : Nat) (x : Port) : (s.setPort p x).images = s.images := rfl
@[simp] theorem setPort_saveLimit (s : State) (p : Nat) (x : Port) : (s.setPort p x).saveLimit = s.saveLimit := rfl
@[simp] theorem setPort_reports (s : State) (p : Nat) (x : Port) : (s.setPort p x).reports = s.reports := rfl
@[simp] theorem setPort_answers (s : State) (p : Nat) (x : Port) : (s.setPort p x).answers = s.answers := rfl
@[simp] theorem setPort_power (s : State) (p : Nat) (x : Port) : (s.setPort p x).power = s.power := rfl
@[simp] theorem setPort_sec (s : State) (p : Nat) (x : Port) : (s.setPort p x).sec = s.sec := rfl
@[simp] theorem setPort_fw (s : State) (p : Nat) (x : Port) : (s.setPort p x).fw = s.fw := rfl
@[simp] theorem setPort_stoppedAll (s : State) (p : Nat) (x : Port) : (s.setPort p x).stoppedAll = s.stoppedAll := rfl

/-! ### A part replaced, read back -/

@[simp] theorem setCell_self (s : State) (n : Nat) (x : Cell) : (s.setCell n x).cell n = x := by simp [State.cell, NMap.getD]
theorem setCell_other (s : State) (n j : Nat) (x : Cell) (h : j ≠ n) : (s.setCell n x).cell j = s.cell j := by
  simp [State.cell, NMap.getD, find_put_other _ _ _ _ h]
@[simp] theorem setDfc_self (s : State) (n : Nat) (x : Dfc) : (s.setDfc n x).dfc n = x := by simp [State.dfc, NMap.getD]
theorem setDfc_other (s : State) (n j : Nat) (x : Dfc) (h : j ≠ n) : (s.setDfc n x).dfc j = s.dfc j := by
  simp [State.dfc, NMap.getD, find_put_other _ _ _ _ h]
@[simp] theorem setQueue_self (s : State) (n : Nat) (x : Queue) : (s.setQueue n x).queue n = x := by simp [State.queue, NMap.getD]
theorem setQueue_other (s : State) (n j : Nat) (x : Queue) (h : j ≠ n) : (s.setQueue n x).queue j = s.queue j := by
  simp [State.queue, NMap.getD, find_put_other _ _ _ _ h]
@[simp] theorem setFault_self (s : State) (n : Nat) (x : FaultBuf) : (s.setFault n x).fault n = x := by simp [State.fault, NMap.getD]
theorem setFault_other (s : State) (n j : Nat) (x : FaultBuf) (h : j ≠ n) : (s.setFault n x).fault j = s.fault j := by
  simp [State.fault, NMap.getD, find_put_other _ _ _ _ h]
@[simp] theorem setIface_self (s : State) (n : Nat) (x : Iface) : (s.setIface n x).iface n = x := by simp [State.iface, NMap.getD]
theorem setIface_other (s : State) (n j : Nat) (x : Iface) (h : j ≠ n) : (s.setIface n x).iface j = s.iface j := by
  simp [State.iface, NMap.getD, find_put_other _ _ _ _ h]
@[simp] theorem setPort_self (s : State) (n : Nat) (x : Port) : (s.setPort n x).port n = x := by simp [State.port, NMap.getD]
theorem setPort_other (s : State) (n j : Nat) (x : Port) (h : j ≠ n) : (s.setPort n x).port j = s.port j := by
  simp [State.port, NMap.getD, find_put_other _ _ _ _ h]
@[simp] theorem setCtx_self (s : State) (n : Nat) (x : Context) : (s.setCtx n x).ctx n = some x := by simp [State.ctx]
@[simp] theorem setQueue_setQueue (s : State) (n : Nat) (x y : Queue) : (s.setQueue n x).setQueue n y = s.setQueue n y := by simp [State.setQueue]
theorem setCtx_other (s : State) (n j : Nat) (x : Context) (h : j ≠ n) : (s.setCtx n x).ctx j = s.ctx j := by
  simp [State.ctx, find_put_other _ _ _ _ h]
@[simp] theorem setHart_self (s : State) (d h : Nat) (x : Hart) : (s.setHart d h x).hart d h = x := by simp [State.hart, NMap.getD]
@[simp] theorem cell_setSlot_self (x : Cell) (k : Nat) (l : Slot) (h : k < 4) : (x.setSlot k l).slot k = l := by
  simp [Cell.setSlot, Cell.slot, h]
theorem cell_setSlot_other (x : Cell) (k j : Nat) (l : Slot) (h : j ≠ k) : (x.setSlot k l).slot j = x.slot j := by
  simp [Cell.setSlot, Cell.slot, Ne.symm h]
@[simp] theorem setSlot_self (s : State) (c k : Nat) (l : Slot) (h : k < 4) : (s.setSlot c k l).slot c k = l := by
  simp [State.slot, State.setSlot, h]
theorem setSlot_other (s : State) (c k c' k' : Nat) (l : Slot) (h : c' ≠ c ∨ k' ≠ k) : (s.setSlot c k l).slot c' k' = s.slot c' k' := by
  by_cases e : c' = c
  · subst e
    simp [State.slot, State.setSlot, cell_setSlot_other _ _ _ _ (h.resolve_left (by simp))]
  · simp [State.slot, State.setSlot, setCell_other _ _ _ _ e]

@[simp] theorem cell_setSlot_ctx (x : Cell) (k : Nat) (l : Slot) : (x.setSlot k l).ctx = x.ctx := rfl
@[simp] theorem cell_setSlot_handlers (x : Cell) (k : Nat) (l : Slot) : (x.setSlot k l).handlers = x.handlers := rfl
@[simp] theorem cell_setSlot_repBuf (x : Cell) (k : Nat) (l : Slot) : (x.setSlot k l).repBuf = x.repBuf := rfl
@[simp] theorem cell_setSlot_rowSums (x : Cell) (k : Nat) (l : Slot) : (x.setSlot k l).rowSums = x.rowSums := rfl
@[simp] theorem cell_setSlot_ovfc (x : Cell) (k : Nat) (l : Slot) : (x.setSlot k l).ovfc = x.ovfc := rfl
@[simp] theorem cell_setSlot_agel (x : Cell) (k : Nat) (l : Slot) : (x.setSlot k l).agel = x.agel := rfl
@[simp] theorem cell_setSlot_wcmp (x : Cell) (k : Nat) (l : Slot) : (x.setSlot k l).wcmp = x.wcmp := rfl
@[simp] theorem cell_setSlot_dcache (x : Cell) (k : Nat) (l : Slot) : (x.setSlot k l).dcache = x.dcache := rfl
@[simp] theorem cell_setSlot_outbound (x : Cell) (k : Nat) (l : Slot) : (x.setSlot k l).outbound = x.outbound := rfl
@[simp] theorem cell_setSlot_freeCnt (x : Cell) (k : Nat) (l : Slot) : (x.setSlot k l).freeCnt = x.freeCnt := rfl
@[simp] theorem cell_setSlot_spill (x : Cell) (k : Nat) (l : Slot) : (x.setSlot k l).spill = x.spill := rfl
@[simp] theorem cell_setSlot_ext (x : Cell) (k : Nat) (l : Slot) : (x.setSlot k l).ext = x.ext := rfl
@[simp] theorem cell_setSlot_netHeld (x : Cell) (k : Nat) (l : Slot) : (x.setSlot k l).netHeld = x.netHeld := rfl
@[simp] theorem cell_setSlot_records (x : Cell) (k : Nat) (l : Slot) : (x.setSlot k l).records = x.records := rfl
@[simp] theorem cell_setSlot_preempt (x : Cell) (k : Nat) (l : Slot) : (x.setSlot k l).preempt = x.preempt := rfl
@[simp] theorem cell_setSlot_stop (x : Cell) (k : Nat) (l : Slot) : (x.setSlot k l).stop = x.stop := rfl
@[simp] theorem cell_setSlot_stopBy (x : Cell) (k : Nat) (l : Slot) : (x.setSlot k l).stopBy = x.stopBy := rfl
@[simp] theorem cell_setSlot_hits (x : Cell) (k : Nat) (l : Slot) : (x.setSlot k l).hits = x.hits := rfl
@[simp] theorem cell_setSlot_idleClk (x : Cell) (k : Nat) (l : Slot) : (x.setSlot k l).idleClk = x.idleClk := rfl
@[simp] theorem cell_setSlot_searching (x : Cell) (k : Nat) (l : Slot) : (x.setSlot k l).searching = x.searching := rfl
@[simp] theorem cell_setSlot_sampled (x : Cell) (k : Nat) (l : Slot) : (x.setSlot k l).sampled = x.sampled := rfl
@[simp] theorem cell_setSlot_acct (x : Cell) (k : Nat) (l : Slot) : (x.setSlot k l).acct = x.acct := rfl

end Sys2Proof.Laws
end

