-- ==== Sys2Proof/Laws/Ops.lean ====
section
/-! SUPPORT. What the shared operations can do, each said once: registers and program counters of the moving agent, how an instruction and a command end,
traps, and that none of them leaves the canonical form of memory. -/

namespace Sys2Proof.Laws
open Machine

/-! ### Registers and program counters of the moving agent -/

/-- A write of registers touches cells and firmware cores only. -/
theorem setRegs_frame (s : State) (x : Vector Word 32) (t : BitVec 32) :
    s.setRegs x t = { s with cells := (s.setRegs x t).cells, dfcs := (s.setRegs x t).dfcs } := by
  unfold State.setRegs; split <;> rfl

/-- So does a write of one register. -/
theorem setXt_frame (s : State) (r : BitVec 5) (v : Word) (t : Bool) :
    setXt s r v t = { s with cells := (setXt s r v t).cells, dfcs := (setXt s r v t).dfcs } := by
  unfold setXt; split
  · rfl
  · exact setRegs_frame ..

/-- A write to x0 is discarded. -/
@[simp] theorem setXt_zero (s : State) (v : Word) (t : Bool) : setXt s 0 v t = s := rfl

/-- A write of another register by a slot. -/
theorem setXt_slot (s : State) (c k : Nat) (r : BitVec 5) (v : Word) (t : Bool) (h : s.cur = .slot c k) (hr : r ≠ 0) :
    setXt s r v t = s.setSlot c k { s.slot c k with x := (s.slot c k).x.setIfInBounds r.toNat v, taint := taintBit (s.slot c k).taint r t } := by
  unfold setXt; rw [if_neg hr]; unfold State.setRegs State.regs State.taints; simp only [h]

/-- A write of another register by a firmware core. -/
theorem setXt_dfc (s : State) (d : Nat) (r : BitVec 5) (v : Word) (t : Bool) (h : s.cur = .dfc d) (hr : r ≠ 0) :
    setXt s r v t = s.setDfc d { s.dfc d with x := (s.dfc d).x.setIfInBounds r.toNat v, taint := taintBit (s.dfc d).taint r t } := by
  unfold setXt; rw [if_neg hr]; unfold State.setRegs State.regs State.taints; simp only [h]

/-- What a slot's register reads as after a write of one register. -/
theorem getX_setX_slot (s : State) (c k : Nat) (r q : BitVec 5) (v : Word) (h : s.cur = .slot c k) (hk : k < 4) (hr : r ≠ 0) :
    getX (setX s r v) q = if q = r then v else getX s q := by
  have e : (setX s r v).cur = .slot c k := by rw [setX, setXt_frame]; exact h
  unfold getX State.regs
  rw [e, h, setX, setXt_slot s c k r v false h hr]
  by_cases hq : q = 0
  · subst hq; simp only [if_pos]; rw [if_neg (Ne.symm hr)]
  · rw [if_neg hq, if_neg hq]
    by_cases hqr : q = r
    · subst hqr
      have w (x : Vector Word 32) : (x.setIfInBounds q.toNat v)[q.toNat]? = some v := by
        rw [Vector.getElem?_eq_getElem q.isLt]; simp
      simp [State.slot, State.cell, State.setSlot, State.setCell, Cell.slot, Cell.setSlot, NMap.getD, hk, w]
    · have n : r.toNat ≠ q.toNat := fun e => hqr (BitVec.eq_of_toNat_eq e.symm)
      simp [hqr, n, State.slot, State.cell, State.setSlot, State.setCell, Cell.slot, Cell.setSlot, NMap.getD, hk]

/-- A move of the program counter touches cells and firmware cores only. -/
theorem setPc_frame (s : State) (p : Nat) : setPc s p = { s with cells := (setPc s p).cells, dfcs := (setPc s p).dfcs } := by
  unfold setPc; split <;> rfl
/-- So does the completion of an instruction. -/
theorem retire_frame (s : State) (n : Nat) : retire s n = { s with cells := (retire s n).cells, dfcs := (retire s n).dfcs } := by
  unfold retire; split <;> rfl
/-- So does the mark of a wait. -/
theorem waitFor_frame (s : State) (w : Wait) : waitFor s w = { s with cells := (waitFor s w).cells, dfcs := (waitFor s w).dfcs } := by
  unfold waitFor; split <;> rfl
/-- So does the departure of a request. -/
theorem awaitResponse_frame (s : State) (i : Instr) (lay : Option Vec) :
    awaitResponse s i lay = { s with cells := (awaitResponse s i lay).cells, dfcs := (awaitResponse s i lay).dfcs } := by
  unfold awaitResponse; split <;> rfl
/-- A change of the moving slot touches cells only. -/
theorem onSlot_frame (s : State) (g : Slot → Slot) : onSlot s g = { s with cells := (onSlot s g).cells } := by
  unfold onSlot; split <;> rfl

/-- An instruction of a slot that is no repetition instance moves its program counter by its bytes. -/
theorem retire_slot (s : State) (c k n : Nat) (h : s.cur = .slot c k) (hr : (s.slot c k).rep = none) :
    retire s n = s.setSlot c k { s.slot c k with pc := (s.slot c k).pc + n, wait := .none, pend := none, lay := none, atStart := false } := by
  unfold retire; simp only [h, hr, Slot.keepLay, Option.isSome_none, Bool.false_eq_true, if_false, Bool.false_and]
/-- An instruction of a firmware core moves its program counter by its bytes. -/
theorem retire_dfc (s : State) (d n : Nat) (h : s.cur = .dfc d) :
    retire s n = s.setDfc d { s.dfc d with pc := (s.dfc d).pc + word n, wait := .none, pend := none } := by
  unfold retire; simp only [h]

/-! ### How an instruction ends -/

/-- A check passes when its condition holds. -/
@[simp] theorem need_iff (c : Bool) (h : Halt) : need c h = .ok () ↔ c = true := by unfold need; split <;> simp_all

/-- An instruction's outcome is its state, or its halt taken. -/
theorem finish_cases (s : State) (r : Except Halt State) (t : State) : finish s r = .next t ↔ r = .ok t ∨ ∃ h, r = .error h ∧ t = settle s h := by
  unfold finish; cases r <;> simp [eq_comm]

/-- An instruction of a slot or a firmware core answers a next state: its own, or its halt taken. -/
theorem scalar_next (s : State) (r : Except Halt State) (h : (∃ c k, s.cur = .slot c k) ∨ ∃ d, s.cur = .dfc d) : scalar s r = finish s r := by
  unfold scalar; rcases h with ⟨c, k, h⟩ | ⟨d, h⟩ <;> simp only [h]

/-- An instruction of a cell answers a next state: its own, or its halt taken. -/
theorem cellOnly_slot (s : State) (c k : Nat) (r : Except Halt State) (h : s.cur = .slot c k) : cellOnly s r = finish s r := by
  unfold cellOnly; simp only [h]

/-- On a firmware core it takes cause 0x01. -/
theorem cellOnly_dfc (s : State) (d : Nat) (r : Except Halt State) (h : s.cur = .dfc d) : cellOnly s r = .next (settle s (trapOf 1)) := by
  unfold cellOnly; simp only [h, finish]

/-! ### Traps -/

/-- A firmware core's trap entry (R229): what it saves, the status it leaves and where it goes. -/
theorem dfcTrap_spec (s : State) (d : Nat) (evt : Bool) (cause : Nat) (depc : Word) :
    ∃ x, dfcTrap s d evt cause depc = s.setDfc d x ∧ x.depc = depc ∧ x.evt = evt ∧ x.cause = BitVec.ofNat 8 cause ∧ x.pie = (s.dfc d).ie ∧ x.ie = false
      ∧ x.pc = (s.dfc d).dtvec ∧ x.x = (s.dfc d).x ∧ x.wfe = false ∧ x.devent = (s.dfc d).devent ∧ x.dtvec = (s.dfc d).dtvec :=
  ⟨_, rfl, rfl, rfl, rfl, rfl, rfl, rfl, rfl, rfl, rfl, rfl⟩

/-- The return from it (R230). -/
theorem dfcReturn_spec (s : State) (d : Nat) :
    ∃ x, dfcReturn s d = s.setDfc d x ∧ x.pc = (s.dfc d).depc ∧ x.ie = (s.dfc d).pie ∧ x.x = (s.dfc d).x ∧ x.depc = (s.dfc d).depc :=
  ⟨_, rfl, rfl, rfl, rfl, rfl⟩

/-- A halt of a firmware core past no matrix instruction that is an abort-class trap enters its handler. -/
theorem settle_dfc (s : State) (d cause : Nat) (h : s.cur = .dfc d) : settle s (trapOf cause) = dfcTrap s d false cause (s.dfc d).pc := by
  have p : s.provisional = false := by unfold State.provisional State.me; simp only [h]; rfl
  unfold settle; rw [p, Bool.and_false, if_neg (by simp)]; unfold trapOf takeHalt takeTrap; simp only [h]

/-- Firmware's write keeps the canonical form of memory. -/
theorem wf_firmwareWrite (s : State) (x : Context) (o : Word) (b : List Byte) (h : Memory.wf s.mem) : Memory.wf (firmwareWrite s x o b).mem :=
  wf_touchLeaves _ _ _ (wf_writeKeys _ _ _ (wf_rekey _ _ _ h))
/-- So does a record appended to a ring. -/
theorem wf_ringAppend (s : State) (x : Context) (o : Word) (w : List Word) (h : Memory.wf s.mem) : Memory.wf (ringAppend s x o w).1.mem := by
  unfold ringAppend
  dsimp only
  split
  · exact h
  · split
    · exact wf_firmwareWrite _ _ _ _ h
    · exact wf_firmwareWrite _ _ _ _ (wf_firmwareWrite _ _ _ _ h)
/-- A ring whose header no page holds takes no record. -/
theorem ringAppend_absent (s : State) (x : Context) (o : Word) (w : List Word) (h : firmwareKeys s x o 16 = []) : ringAppend s x o w = (s, false) := by
  unfold ringAppend; simp [h]
/-- So does a trace record. -/
theorem wf_traceWrite (s : State) (x : Context) (w : List Word) (h : Memory.wf s.mem) : Memory.wf (traceWrite s x w).mem := wf_ringAppend _ _ _ _ h
/-- And the decision to write one. -/
theorem wf_traceRecord (s : State) (c k kind arg : Nat) (p : Nat × Nat × Nat) (cmp : Word) (h : Memory.wf s.mem) :
    Memory.wf (traceRecord s c k kind arg p cmp).mem := by
  unfold traceRecord
  dsimp only
  split
  · split
    · exact wf_traceWrite _ _ _ h
    · exact h
  · exact h

/-- A signal touches no memory. -/
@[simp] theorem signal_mem (s : State) (f v : Nat) : (signal s f v).mem = s.mem := by unfold signal; dsimp only; split <;> rfl
/-- An error record keeps the canonical form. -/
theorem wf_errorRecord (s : State) (t v : Nat) (c : Option Nat) (d n e l : Nat) (h : Memory.wf s.mem) : Memory.wf (errorRecord s t v c d n e l).mem := by
  unfold errorRecord
  dsimp only
  split
  · exact h
  · rename_i r o vec _
    cases hx : s.ctx r with
    | none => exact h
    | some x =>
      dsimp only [Option.map_some]
      have w := wf_ringAppend s x o
        [word (fields [(32, n), (8, 0), (3, d), (10, c.getD 0), (1, b2n c.isSome), (2, v), (8, t)]), word e, word l, s.time] h
      generalize ringAppend s x o _ = p at w
      obtain ⟨u, b⟩ := p
      cases b
      · exact w
      · simpa using w
/-- Until the host names an error log, an error record touches no memory. -/
theorem errorRecord_mem (s : State) (t v : Nat) (c : Option Nat) (d n e l : Nat) (h : s.errRing = none) : (errorRecord s t v c d n e l).mem = s.mem := by
  unfold errorRecord; simp only [h]
/-- A change of a context touches no memory. -/
@[simp] theorem onCtx_mem (s : State) (r : Nat) (g : Context → Context) : (s.onCtx r g).mem = s.mem := by unfold State.onCtx; split <;> rfl
/-- Nor does one of a virtual PE. -/
@[simp] theorem onVpe_mem (s : State) (r v : Nat) (g : Vpe → Vpe) : (s.onVpe r v g).mem = s.mem := by simp [State.onVpe]
/-- Nor does containing a context. -/
@[simp] theorem contain_mem (s : State) (r : Nat) : (contain s r).mem = s.mem := by simp [contain]
/-- That with its record keeps the canonical form. -/
theorem wf_containWithRecord (s : State) (r d e l : Nat) (h : Memory.wf s.mem) : Memory.wf (containWithRecord s r d e l).mem :=
  wf_errorRecord _ _ _ _ _ _ _ _ (by simpa using h)
/-- So does an access refused. -/
theorem wf_refuseAccess (s : State) (r d : Nat) (o : Word) (h : Memory.wf s.mem) : Memory.wf (refuseAccess s r d o).mem := wf_containWithRecord _ _ _ _ _ h
/-- So does a trap report. -/
theorem wf_trapReport (s : State) (r c k cls cause : Nat) (l : Slot) (h : Memory.wf s.mem) : Memory.wf (trapReport s r c k cls cause l).mem := by
  unfold trapReport
  split
  · rename_i x a _ _
    dsimp only
    generalize hw : ([_, _, _, _, _, _, _, _] : List Word) = w
    have e := wf_ringAppend s x x.report w h
    generalize ringAppend s x x.report w = p at e
    obtain ⟨u, b⟩ := p
    cases b
    · exact e
    · simpa using e
  · exact h
/-- Nor does a message's return to its queue. -/
@[simp] theorem returnMsg_mem (s : State) (r v ch : Nat) (m : Msg) (f : Nat) : (returnMsg s r v ch m f).mem = s.mem := by simp [returnMsg]
/-- Nor does a request for a debug stop. -/
@[simp] theorem requestStop_mem (s : State) (c src : Nat) (w : List Word) : (requestStop s c src w).mem = s.mem := by unfold requestStop; split <;> rfl
/-- Nor does a hit. -/
@[simp] theorem noteHit_mem (s : State) (src : Nat) : (noteHit s src).mem = s.mem := by
  unfold noteHit; split
  · split
    · split <;> simp
    · rfl
  · rfl
/-- Nor does the stamp of a stop. -/
@[simp] theorem stampStop_mem (s : State) (c k : Nat) : (stampStop s c k).mem = s.mem := by unfold stampStop; dsimp only; split <;> rfl
/-- Nor does an answer to the host. -/
@[simp] theorem answerHost_mem (s : State) (code value : Nat) : (answerHost s code value).mem = s.mem := rfl
/-- A host instruction that the lead takes ends with its answer. -/
theorem byHost_takes (s t : State) (code value : Nat) (h : takesHost s = true) : byHost s (t, code, value) = .next (answerHost t code value) := by
  unfold byHost; rw [if_pos h]
/-- Nor does freeing input-buffer entries. -/
@[simp] theorem freeEntries_mem (s : State) (r v : Nat) (ms : List Msg) : (freeEntries s r v ms).mem = s.mem := by
  unfold freeEntries; split
  · rfl
  · simp
/-- The close of a stream keeps the canonical form. -/
theorem wf_closeStream (s : State) (r c k src cause : Nat) (a : Activation) (l : Slot) (h : Memory.wf s.mem) :
    Memory.wf (closeStream s r c k src cause a l).mem := by
  unfold closeStream
  simp only [setSlot_mem, stampStop_mem, freeEntries_mem, onVpe_mem]
  exact wf_trapReport _ _ _ _ _ _ _ (by simpa using h)

/-- Nor does a fault record. -/
@[simp] theorem faultRecord_mem (s : State) (a : Agent) (c o acc kind lvl off : Nat) : (faultRecord s a c o acc kind lvl off).1.mem = s.mem := by
  unfold faultRecord raiseEvent; dsimp only; split <;> rfl

/-- Nor does breaking a gang. -/
@[simp] theorem breakGang_mem (s : State) (c k : Nat) : (breakGang s c k).mem = s.mem := by
  unfold breakGang
  split
  · dsimp only
    generalize hl : List.range 32 = l
    clear hl
    generalize ht : s.setSlot c k _ = t
    have e : t.mem = s.mem := by rw [← ht]; rfl
    rw [← e]
    clear e ht
    induction l generalizing t with
    | nil => rfl
    | cons i l ih =>
      rw [List.foldl_cons, ih]
      split
      · split <;> rfl
      · rfl
  · rfl

/-- The end of an activation keeps the canonical form. -/
theorem wf_closeActivation (s : State) (c k kind arg : Nat) (h : Memory.wf s.mem) : Memory.wf (closeActivation s c k kind arg).mem := by
  unfold closeActivation
  split
  · exact h
  · simpa using wf_traceRecord _ _ _ _ _ _ _ h

/-- So does an abort. -/
theorem wf_abortActivation (s : State) (c k cause : Nat) (f o q : Word) (h : Memory.wf s.mem) : Memory.wf (abortActivation s c k cause f o q).mem := by
  unfold abortActivation
  dsimp only
  split
  · exact h
  · exact wf_closeStream _ _ _ _ _ _ _ _ h
  · simp only [setSlot_mem, breakGang_mem]
    have w (x : Word) (a : Activation) (p : Vpe → Vpe) (u : Slot) (hr : Nat) :
        Memory.wf (closeActivation ((returnMsg (trapReport (s.setSlot c k u) hr c k 1 cause u) hr a.vpe a.ch a.msg 1).onVpe hr a.vpe p) c k 4 cause).mem :=
      wf_closeActivation _ _ _ _ _ (by simp only [onVpe_mem, returnMsg_mem]; exact wf_trapReport _ _ _ _ _ _ _ h)
    split
    · exact w 0 _ _ _ _
    · exact w 0 _ _ _ _

/-- So does a park. -/
theorem wf_parkSlot (s : State) (c k cause : Nat) (f o q : Word) (p : Option (Nat × Nat × Nat)) (h : Memory.wf s.mem) :
    Memory.wf (parkSlot s c k cause f o q p).mem := by
  unfold parkSlot
  exact wf_traceRecord _ _ _ _ _ _ _ h

/-- So does an abort-class trap of the moving agent. -/
theorem wf_takeTrap (s : State) (cause : Nat) (o q : Word) (acc : Nat) (h : Memory.wf s.mem) : Memory.wf (takeTrap s cause o q acc).mem := by
  unfold takeTrap; split
  · exact wf_abortActivation _ _ _ _ _ _ _ h
  · exact h
  · exact h

/-- So does a park-class trap of the moving agent. -/
theorem wf_takePark (s : State) (cause kind acc : Nat) (o q : Word) (p : Option (Nat × Nat × Nat)) (lvl : Nat) (rec : Bool) (h : Memory.wf s.mem) :
    Memory.wf (takePark s cause kind acc o q p lvl rec).mem := by
  unfold takePark
  split
  · split
    · split
      · dsimp only
        split
        · rw [setSlot_mem]; exact wf_parkSlot _ _ _ _ _ _ _ _ (by simpa using h)
        · exact wf_parkSlot _ _ _ _ _ _ _ _ (by simpa using h)
      · exact wf_parkSlot _ _ _ _ _ _ _ _ h
    · dsimp only
      simp only [setSlot_mem]
      refine wf_parkSlot _ _ _ _ _ _ _ _ ?_
      split
      · unfold beginRebuild; split
        · split <;> exact h
        · exact h
      · exact h
  · exact h
  · exact h

/-- What a halt leaves behind of an access has a property. -/
def HaltLeaves (P : State → Prop) : Halt → Prop
  | .after t h => P t ∧ HaltLeaves P h
  | _ => True

/-- So does every halt taken, if what it leaves behind keeps it. -/
theorem wf_takeHalt (s : State) (x : Halt) (h : Memory.wf s.mem) (hx : HaltLeaves (fun t => Memory.wf t.mem) x) : Memory.wf (takeHalt s x).mem := by
  induction x generalizing s with
  | trap cause ref coord acc b =>
    cases b
    · exact wf_takeTrap _ _ _ _ _ h
    · exact wf_refuseAccess _ _ _ _ (wf_takeTrap _ _ _ _ _ h)
  | park => exact wf_takePark _ _ _ _ _ _ _ _ _ h
  | stop => exact wf_takeTrap _ _ _ _ _ (by simpa using h)
  | wait => unfold takeHalt; rw [waitFor_frame]; exact h
  | lost => exact wf_takeTrap _ _ _ _ _ (wf_errorRecord _ _ _ _ _ _ _ _ h)
  | issue => unfold takeHalt; rw [awaitResponse_frame]; exact h
  | after t x ih => exact ih t hx.1 hx.2

/-- And when a matrix instruction before it holds it back. -/
theorem wf_settle (s : State) (x : Halt) (h : Memory.wf s.mem) (hx : HaltLeaves (fun t => Memory.wf t.mem) x) : Memory.wf (settle s x).mem := by
  unfold settle
  split
  · rw [waitFor_frame]; exact h
  · exact wf_takeHalt s x h hx

/-- An instruction keeps the canonical form if its own result, and what its halt leaves behind, do. -/
theorem wf_finish (s t : State) (r : Except Halt State) (h : Memory.wf s.mem) (hr : ∀ u, r = .ok u → Memory.wf u.mem)
    (hx : ∀ x, r = .error x → HaltLeaves (fun t => Memory.wf t.mem) x) (e : finish s r = .next t) : Memory.wf t.mem := by
  rcases (finish_cases s r t).1 e with e | ⟨x, hr', rfl⟩
  · exact hr t e
  · exact wf_settle s x h (hx x hr')

/-! ### Commands -/

/-- A command of the moving queue answers a next state: its result, its fault, or its wait. -/
theorem command_ok (i : Instr) (s t : State) (n : Nat) (g : Nat → Queue → Except CHalt State) (h : s.cur = .queue n) (hg : g n (s.queue n) = .ok t) :
    command i s g = .next t := by unfold command; simp only [h, hg]
/-- A fault that contains nothing. -/
theorem command_fault (i : Instr) (s : State) (n code : Nat) (g : Nat → Queue → Except CHalt State) (h : s.cur = .queue n)
    (hg : g n (s.queue n) = .error (.fault code none)) : command i s g = .next (faultQueue s n code) := by unfold command; simp only [h, hg]
/-- A wait notes the command's start, and the engine turns to another queue. -/
theorem command_wait (i : Instr) (s : State) (n : Nat) (g : Nat → Queue → Except CHalt State) (h : s.cur = .queue n)
    (hg : g n (s.queue n) = .error .wait) : command i s g = .next (stall s n i) := by unfold command; simp only [h, hg]

/-- The completion of a command touches queues and reports only. -/
theorem leaveBuffers_frame (s : State) (n fuel : Nat) :
    leaveBuffers s n fuel = { s with queues := (leaveBuffers s n fuel).queues, reports := (leaveBuffers s n fuel).reports } := by
  induction fuel generalizing s with
  | zero => rfl
  | succ f ih =>
    unfold leaveBuffers
    dsimp only
    split
    · split
      · rfl
      · split
        · rfl
        · rw [ih]; rfl
    · rfl
/-- The note to the owner touches queues only. -/
theorem noteOwner_frame (s : State) (n : Nat) (q : Queue) : noteOwner s n q = { s with queues := (noteOwner s n q).queues } := by
  unfold noteOwner; dsimp only; split <;> rfl
/-- So the completion keeps memory. -/
@[simp] theorem complete_mem (s : State) (n len : Nat) : (complete s n len).mem = s.mem := by
  unfold complete; dsimp only; rw [noteOwner_frame, leaveBuffers_frame]; rfl
/-- A command's fault keeps memory. -/
@[simp] theorem faultQueue_mem (s : State) (n code : Nat) : (faultQueue s n code).mem = s.mem := rfl

/-- A command at level 0 without a stop or an unmapping asked for: the record moves on, and nothing else changes (R349, R350). -/
theorem complete_ring (s : State) (n len : Nat) (hb : (s.queue n).bufs = []) (hs : (s.queue n).stopReq = false) (hu : (s.queue n).unmapReq = false) :
    ∃ q, complete s n len = s.setQueue n q ∧ q.head = (s.queue n).head + BitVec.ofNat 32 len ∧ q.ser = (s.queue n).ser + 1 ∧ q.c = (s.queue n).c
      ∧ q.service = none ∧ q.state = (if (s.queue n).state = 2 then 1 else (s.queue n).state) := by
  have key (u old : Queue) : noteOwner (s.setQueue n u) n old = s.setQueue n u ∨ noteOwner (s.setQueue n u) n old = s.setQueue n (bumpVersion n u) := by
    unfold noteOwner
    simp only [setQueue_self, setQueue_setQueue]
    split
    · exact .inr rfl
    · exact .inl rfl
  unfold complete boundary Queue.move
  simp only [hb, hs, hu]
  unfold leaveBuffers
  simp only [setQueue_self, Bool.false_eq_true, if_false]
  rcases key _ _ with e | e
  · exact ⟨_, e, rfl, rfl, rfl, rfl, rfl⟩
  · exact ⟨_, e, rfl, rfl, rfl, rfl, rfl⟩

end Sys2Proof.Laws
end

