-- ==== Sys2Proof/Safety.lean ====
section
/-! DEFINITION. What counts as a safe run: a step that neither faults nor is refused, and a machine whose memory is in its canonical
form. -/

namespace Sys2Proof.Machine

/-- The step answers a next state. -/
def Advances (s : State) : Prop := ∃ t, step s = .next t

/-- The machine's memory is in its canonical form. -/
def Sound (s : State) : Prop := Memory.wf s.mem

end Sys2Proof.Machine
end

