-- ==== Sys2Proof/Tests/Slice0.lean ====
section
/-! SUPPORT. Tests: ill-formed terms that WellFormed refuses, words written out from the spec's encoding tables, single steps with results of the spec's own
examples, and for the statements of Obligations.lean states and operands that meet their hypotheses together. -/

open Sys2Proof Sys2Proof.Machine

namespace Sys2Proof.Tests

set_option maxRecDepth 20000
set_option synthInstance.maxSize 1000
set_option Elab.async false

/-! ### A small world -/

/-- Object 32 in the vault of rank 0, 33 in the scratchpad of cell 1, 34 the engine window of die 0, 35 a 64 KiB page of HBM4, 36 on another device. -/
def objs : NMap Desc :=
  [(32, ⟨0x83F0000000001000, 0, 0, 0⟩), (33, ⟨0x81F0000000000300, 0x40000, 0, 0⟩), (34, ⟨0x81F0000000001000, 0x8000000000000000, 0, 0⟩),
    (35, ⟨0x85F0000000001000, 0x10000, 0, 0⟩), (36, ⟨0x8BF0000000001000, 1, 0, 0⟩)]

/-- Context 0: cells 0 and 1, two virtual PEs, capsule 1, a barrier of two arrivals, a grant. -/
def ctx0 : Context :=
  { emptyContext with
    cells := [0, 1], caps := [1, 2], grid := 1, fold := ⟨2, 2, 0x300, 1⟩, objs := objs, parts := [(0, 2 ^ 30), (2 ^ 50, 2 ^ 50 + 2 ^ 25)]
    barriers := [(3, ⟨0, 0, 2⟩)], grants := [(7, (1, 0, 0))] }

/-- Capsule 1 with one named region and the given code. -/
def cap1 (code : List Byte) : Capsule := { bootCapsule State.reset code with regions := [(0, 0x300)], grid := (2, 1, 1, 1) }

/-- A slot that runs at the start of capsule 1. -/
def slot0 : Slot := { Slot.reset.freed with status := .running, act := some bootActivation, cap := 1, tbud := 1000 }

/-- Cell 0 with its slot 0 running and the descriptors in its cache, cell 1 free of activations; slot 0 of cell 0 is the one that moves. -/
def world : State :=
  { State.reset with
    cur := .slot 0 0
    caps := [(1, cap1 []), (2, cap1 [])]
    codeStore := [(0, [2 ^ 20, 2 * 2 ^ 20])]
    ctxs := [(0, ctx0)]
    cells := [(0, { Cell.reset with ctx := some 0, dcache := objs, slots := Cell.reset.slots.setIfInBounds 0 slot0 }), (1, { Cell.reset with ctx := some 0 })] }

/-- The world with the moving slot changed. -/
def onSlot0 (g : Slot → Slot) : State := world.setSlot 0 0 (g (world.slot 0 0))

/-- A state in which the descriptors of context 0 and of the cache of cell 0 are `l`. -/
def withObjs (s : State) (l : NMap Desc) : State := { s.setCell 0 { s.cell 0 with dcache := l } with ctxs := [(0, { ctx0 with objs := l })] }

/-- The world with registers of the moving slot set. -/
def regs (l : List (Nat × Word)) : State :=
  onSlot0 fun s => { s with x := l.foldl (fun v e => v.setIfInBounds e.1 e.2) s.x }

/-- The world with the moving slot's response here. -/
def withPend (s : State) (i : Instr) : State := s.setSlot 0 0 { s.slot 0 0 with pend := some i }

/-- The world on die firmware core 0. -/
def firmware : State := { world with cur := .dfc 0 }

theorem witness_onCell : OnCell world := ⟨0, 0, rfl, by decide⟩

/-! ### Ill-formed terms -/

theorem test_wf_scope : (([.lb 1 2 0 6 0 0, .ldf 1 2 0 7 0, .layr 1 0 0 6, .amoaddW 1 2 3 6 0, .fence 7 1 0 1 0, .bara 1 2 6, .vldf 1 2 0 6 0, .vldL 1 0 2 0 7,
    .mld 0 1 0 6 2, .mst 0 1 0 6 2, .vst 1 2 0 6 0 0] : List Instr).all fun i => !wellFormed i) = true := by decide

theorem test_wf_order : (([.lw 1 2 0 3 2 0, .ld 1 2 0 3 3 0, .sd 1 2 0 3 1 0, .sb 1 2 0 3 3 0, .vld 1 2 0 3 2 0, .vst 1 2 0 3 1 0] : List Instr).all
    fun i => !wellFormed i) = true := by decide

theorem test_wf_registers : (([.layw 16 0 0 3, .send 1 16, .sendm 16 1 2, .sends 1 20, .sende 1 16, .qstream 8 1, .qrel 8, .qpop 1 8, .qpush 8 1, .qstat 1 31,
    .vld 24 1 0 3 0 0, .vadd 24 1 2 0, .vadd 1 24 2 0, .vadd 1 2 24 0, .vbcst 24 1 0, .vmvx 1 24 2, .vmvs 24 1 2, .mrdr 0 0 1 24, .mwrr 0 1 24] : List Instr).all
    fun i => !wellFormed i) = true := by decide

theorem test_wf_one_queue : (([.vadd 16 17 1 0, .vsel 1 16 17 1, .viadd 16 1 17 0 0, .vabs 16 17 0, .vcmpEq 1 17 16 0] : List Instr).all fun i => !wellFormed i) = true := by
  decide

theorem test_wf_fields : (([.fence 3 0 0 1 0, .fence 3 1 0 0 0, .waitc 0 0 0, .vcvt 1 2 0 0, .vcvt 1 2 2 1, .vsel 1 2 3 0, .miter 0 1 0 0 1 2, .mrdr 0 3 1 2,
    .jr16 1 1] : List Instr).all fun i => !wellFormed i) = true := by decide

theorem test_wf_commands : (([.cAdd 1 2 3 1 4, .cShr 1 2 3 0 4, .cLaunch 1 15 0 2 0, .cLaunchall 1 3 0 0 0, .cWaitsem 1 2 3 0 0 0, .cWaitsem 1 2 1 1 0 0,
    .cInstall 1 2 3 0] : List Instr).all fun i => !wellFormed i) = true := by decide

/-- Terms that differ from the above in the refused field alone are well formed. -/
theorem test_wf_legal : (([.lb 1 2 0 5 1 0, .sd 1 2 0 3 2 0, .layw 15 0 0 3, .vadd 16 16 1 0, .fence 3 0 1 0 1, .waitc 1 0 0, .vcvt 1 2 1 1, .vsel 1 2 3 1, .miter 0 1 1 0 1 2,
    .mrdr 0 2 1 2, .cAdd 1 2 0 1 4, .cLaunch 1 14 0 2 0, .cLaunchall 1 0 0 0 0, .cWaitsem 1 2 0 1 0 0, .cInstall 1 2 3 1] : List Instr).all wellFormed) = true := by decide

/-! ### Words written out from Tables 8.1 to 8.3, 15.4 and 15.5 -/

theorem test_decode_words_0 : (∀ e ∈ ([
  (32, 0x0028C501, .add 5 6 0xa), (32, 0x00A8C501, .sub 5 6 0xa), (32, 0x0128C501, .and 5 6 0xa), (32, 0x01A8C501, .or 5 6 0xa),
  (32, 0x0228C501, .xor 5 6 0xa), (32, 0x02A8C501, .sll 5 6 0xa), (32, 0x0328C501, .srl 5 6 0xa), (32, 0x03A8C501, .sra 5 6 0xa),
  (32, 0x0028C503, .min 5 6 0xa), (32, 0x00A8C503, .max 5 6 0xa), (32, 0x0128C503, .minu 5 6 0xa), (32, 0x01A8C503, .maxu 5 6 0xa),
  (32, 0x0228C503, .slt 5 6 0xa), (32, 0x02A8C503, .sltu 5 6 0xa), (32, 0x0028C505, .mul 5 6 0xa), (32, 0x00A8C505, .mulh 5 6 0xa),
  (32, 0x0128C505, .mulhu 5 6 0xa), (32, 0x01A8C505, .div 5 6 0xa), (32, 0x0228C505, .divu 5 6 0xa), (32, 0x02A8C505, .rem 5 6 0xa),
  (32, 0x0328C505, .remu 5 6 0xa), (32, 0x0000C507, .clz 5 6), (32, 0x0080C507, .ctz 5 6), (32, 0x0100C507, .popc 5 6),
  (32, 0x01A8C507, .sext 5 6 0xa), (32, 0x0228C507, .zext 5 6 0xa), (32, 0x0028C509, .oadd 5 6 0xa), (32, 0x0080C509, .oslot 5 6),
  (32, 0x0128C509, .ochk 5 6 0xa), (32, 0x01A8C509, .omake 5 6 0xa), (32, 0x0228C509, .pack2 5 6 0xa)] : List (Nat × Nat × Instr)), decodeTableWord e.1 e.2.1 = some e.2.2) := by decide

theorem test_decode_words_1 : (∀ e ∈ ([
  (32, 0x02A8C509, .pack4 5 6 0xa), (32, 0x0AD4C50B, .addi 5 6 0x2b5), (32, 0x0AD4C50D, .andi 5 6 0x2b5), (32, 0x0AD4C50F, .ori 5 6 0x2b5),
  (32, 0x0AD4C511, .xori 5 6 0x2b5), (32, 0x0AD4C513, .slti 5 6 0x2b5), (32, 0x00D4C515, .slli 5 6 0x35), (32, 0x00D4C517, .srli 5 6 0x35),
  (32, 0x00D4C519, .srai 5 6 0x35), (32, 0x9696C51B, .lui 5 0x5a5a5), (32, 0xAD6CC51D, .auic 5 6 0xb5b 2), (32, 0x9B214621, .beq 6 0xa 0x4d9),
  (32, 0x9B254621, .bne 6 0xa 0x4d9), (32, 0x9B294621, .blt 6 0xa 0x4d9), (32, 0x9B2D4621, .bge 6 0xa 0x4d9), (32, 0x9B314621, .bltu 6 0xa 0x4d9),
  (32, 0x9B354621, .bgeu 6 0xa 0x4d9), (32, 0x5ABCD923, .j 0x5abcd9), (32, 0x5ABCD925, .jal 0x5abcd9), (32, 0x0AD4C527, .jalr 5 6 0x2b5),
  (32, 0x0AD4C529, .callx 5 6 0x2b5), (32, 0x0000002B, .endAct), (32, 0x0080002B, .yieldAct), (32, 0x6AA8C331, .lb 3 6 2 2 1 0x35),
  (32, 0x6AA8C333, .lh 3 6 2 2 1 0x35), (32, 0x6AA8C335, .lw 3 6 2 2 1 0x35), (32, 0x6AA8C337, .ld 3 6 2 2 1 0x35),
  (32, 0x6AA8C339, .lbu 3 6 2 2 1 0x35), (32, 0x6AA8C33B, .lhu 3 6 2 2 1 0x35), (32, 0x6AA8C33D, .lwu 3 6 2 2 1 0x35),
  (32, 0x6AA8C33F, .ldcn 3 6 2 2 1 0x35)] : List (Nat × Nat × Instr)), decodeTableWord e.1 e.2.1 = some e.2.2) := by decide

theorem test_decode_words_2 : (∀ e ∈ ([
  (32, 0x6B28C341, .sb 3 6 2 2 2 0x35), (32, 0x6B28C343, .sh 3 6 2 2 2 0x35), (32, 0x6B28C345, .sw 3 6 2 2 2 0x35),
  (32, 0x6B28C347, .sd 3 6 2 2 2 0x35), (32, 0x6A28C349, .ldf 3 6 2 2 0x35), (32, 0x6AA8C349, .ldfC 3 6 2 2 0x35), (32, 0x6B28C349, .stf 3 6 2 2 0x35),
  (32, 0x6BA8C349, .feclr 3 6 2 2 0x35), (32, 0x0A02A84B, .layr 8 0x15 2 2), (32, 0x2A02A84B, .layw 8 0x15 2 2),
  (32, 0x0528C54D, .amoaddW 5 6 0xa 2 1), (32, 0x1528C54D, .amoandW 5 6 0xa 2 1), (32, 0x2528C54D, .amoorW 5 6 0xa 2 1),
  (32, 0x3528C54D, .amoxorW 5 6 0xa 2 1), (32, 0x4528C54D, .amominW 5 6 0xa 2 1), (32, 0x5528C54D, .amomaxW 5 6 0xa 2 1),
  (32, 0x6528C54D, .amominuW 5 6 0xa 2 1), (32, 0x7528C54D, .amomaxuW 5 6 0xa 2 1), (32, 0x8528C54D, .amoswpW 5 6 0xa 2 1),
  (32, 0x9528C54D, .amocasW 5 6 0xa 2 1), (32, 0xA528C54D, .amofaddW 5 6 0xa 2 1), (32, 0x0528C54F, .amoaddD 5 6 0xa 2 1),
  (32, 0x1528C54F, .amoandD 5 6 0xa 2 1), (32, 0x2528C54F, .amoorD 5 6 0xa 2 1), (32, 0x3528C54F, .amoxorD 5 6 0xa 2 1),
  (32, 0x4528C54F, .amominD 5 6 0xa 2 1), (32, 0x5528C54F, .amomaxD 5 6 0xa 2 1), (32, 0x6528C54F, .amominuD 5 6 0xa 2 1),
  (32, 0x7528C54F, .amomaxuD 5 6 0xa 2 1), (32, 0x8528C54F, .amoswpD 5 6 0xa 2 1), (32, 0x9528C54F, .amocasD 5 6 0xa 2 1)] : List (Nat × Nat × Instr)), decodeTableWord e.1 e.2.1 = some e.2.2) := by decide

theorem test_decode_words_3 : (∀ e ∈ ([
  (32, 0xA528C54F, .amofaddD 5 6 0xa 2 1), (32, 0x2D000051, .fence 2 1 1 0 1), (32, 0x70000051, .waitc 0 1 1), (32, 0x0100C553, .bara 5 6 2),
  (32, 0x2100C553, .barw 5 6 2), (32, 0x0024C055, .send 6 9), (32, 0x00A8C855, .sendm 8 6 0xa), (32, 0x0124C055, .sends 6 9),
  (32, 0x01A4C055, .sende 6 9), (32, 0x0200C555, .msgld 5 6), (32, 0x0000C057, .bind 6), (32, 0x0080C057, .unbind 6), (32, 0x0128C057, .sbind 6 0xa),
  (32, 0x0180C057, .chmask 6), (32, 0x0200C057, .chunmask 6), (32, 0x0000C559, .qstream 5 6), (32, 0x00800559, .qrel 5), (32, 0x0100A559, .qpop 5 5),
  (32, 0x0180C559, .qpush 5 6), (32, 0x0200A559, .qstat 5 5), (32, 0x0028C05B, .rpt 6 0xa), (32, 0x0080055B, .rptw 5),
  (32, 0x6AA8C361, .vld 3 6 2 2 1 0x35), (32, 0x6B28C363, .vst 3 6 2 2 2 0x35), (32, 0x6A28C365, .vldf 3 6 2 2 0x35),
  (32, 0x6AA8C365, .vldfC 3 6 2 2 0x35), (32, 0x6A28C367, .vstf 3 6 2 2 0x35), (32, 0x0A5AA869, .vldL 8 0x15 0xb 2 2),
  (32, 0x2A5AA869, .vstL 8 0x15 0xb 2 2), (32, 0x4A5AA869, .vldfL 8 0x15 0xb 2 2), (32, 0x6A5AA869, .vldfCL 8 0x15 0xb 2 2)] : List (Nat × Nat × Instr)), decodeTableWord e.1 e.2.1 = some e.2.2) := by decide

theorem test_decode_words_4 : (∀ e ∈ ([
  (32, 0x8A5AA869, .vstfL 8 0x15 0xb 2 2), (32, 0x01A4886B, .vadd 8 4 9 3), (32, 0x05A4886B, .vsub 8 4 9 3), (32, 0x09A4886B, .vmul 8 4 9 3),
  (32, 0x0DA4886B, .vfma 8 4 9 3), (32, 0x11A4886B, .vfms 8 4 9 3), (32, 0x15A4886B, .vmax 8 4 9 3), (32, 0x19A4886B, .vmin 8 4 9 3),
  (32, 0x1D80886B, .vabs 8 4 3), (32, 0x2180886B, .vneg 8 4 3), (32, 0x0180886D, .vrcp 8 4 3), (32, 0x0580886D, .vrsq 8 4 3),
  (32, 0x0980886D, .vexp 8 4 3), (32, 0x0D80886D, .vlog 8 4 3), (32, 0x1180886D, .vsigm 8 4 3), (32, 0x1580886D, .vtanh 8 4 3),
  (32, 0x0C80886F, .vcvt 8 4 1 3), (32, 0x01808871, .vreda 8 4 3), (32, 0x05808871, .vredx 8 4 3), (32, 0x09A48871, .vcmpEq 8 4 9 3),
  (32, 0x0DA48871, .vcmpNe 8 4 9 3), (32, 0x11A48871, .vcmpLt 8 4 9 3), (32, 0x15A48871, .vcmpLe 8 4 9 3), (32, 0x19A48871, .vcmpGt 8 4 9 3),
  (32, 0x1DA48871, .vcmpGe 8 4 9 3), (32, 0x21A48871, .vsel 8 4 9 3), (32, 0x25A48871, .vperm 8 4 9 3), (32, 0x2980C871, .vbcst 8 6 3),
  (32, 0x2C288571, .vmvx 5 4 0xa), (32, 0x3028C871, .vmvs 8 6 0xa), (32, 0x3400C571, .vsetl 5 6)] : List (Nat × Nat × Instr)), decodeTableWord e.1 e.2.1 = some e.2.2) := by decide

theorem test_decode_words_5 : (∀ e ∈ ([
  (32, 0x41A48873, .viadd 8 4 9 3 1), (32, 0x45A48873, .visub 8 4 9 3 1), (32, 0x49A48873, .vimul 8 4 9 3 1), (32, 0x4DA48873, .viand 8 4 9 3 1),
  (32, 0x51A48873, .vior 8 4 9 3 1), (32, 0x55A48873, .vixor 8 4 9 3 1), (32, 0x59A48873, .visll 8 4 9 3 1), (32, 0x5DA48873, .visrl 8 4 9 3 1),
  (32, 0x61A48873, .visra 8 4 9 3 1), (32, 0x85A755A1, .mma 5 0x2a 0x13 0xb 2), (32, 0x95A755A1, .mmaz 5 0x2a 0x13 0xb 2),
  (32, 0x000D9DA3, .mpoly 5 3 6 6), (32, 0x0A8CDDA3, .miter 5 3 1 1 6 0xa), (32, 0x100C85A3, .mscz 5 2 6), (32, 0x18019DA3, .mcvt 5 3 6),
  (32, 0x20001DA3, .mtrn 5 3), (32, 0x280005A3, .mzero 5), (32, 0x328C00A3, .mgang 6 0xa), (32, 0x380000A3, .mwait), (32, 0x428C85A3, .mrdr 5 2 6 0xa),
  (32, 0x4A8C05A3, .mwrr 5 6 0xa), (32, 0x500C82A3, .cbld 2 2 6), (32, 0x580C80A3, .kld 2 6), (32, 0x059555A5, .mld 5 0x2a 2 2 0xb),
  (32, 0x159555A5, .mst 5 0x2a 2 2 0xb), (32, 0x259555A5, .mldb 5 0x2a 2 2 0xb), (32, 0x048C05C1, .csrr 5 0x123), (32, 0x448CC5C1, .csrw 5 6 0x123),
  (32, 0x848CC5C1, .csrs 5 6 0x123), (32, 0xC48CC5C1, .csrc 5 6 0x123), (32, 0x0028C5C3, .ecall 5 6 0xa)] : List (Nat × Nat × Instr)), decodeTableWord e.1 e.2.1 = some e.2.2) := by decide

theorem test_decode_words_6 : (∀ e ∈ ([
  (32, 0x00AB5BC3, .ebrk 0x2b5b), (32, 0x010000C3, .sret), (32, 0x018000C3, .wfe), (32, 0x0028C5CF, .nop 5 6 0xa), (16, 0x5182, .add16 6 0xa),
  (16, 0x5184, .sub16 6 0xa), (16, 0x5186, .mov16 6 0xa), (16, 0xA988, .addi16 6 0x15), (16, 0xA98A, .andi16 6 0x15), (16, 0xA98C, .slli16 6 0x15),
  (16, 0xA98E, .srli16 6 0x15), (16, 0xA990, .srai16 6 0x15), (16, 0x5192, .and16 6 0xa), (16, 0x5194, .or16 6 0xa), (16, 0x5196, .xor16 6 0xa),
  (16, 0x5198, .ld16 6 0xa), (16, 0x519A, .lw16 6 0xa), (16, 0x519C, .sd16 6 0xa), (16, 0x519E, .sw16 6 0xa), (16, 0xC9A0, .beqz16 6 0x19),
  (16, 0x0022, .end16), (16, 0xC9A4, .bnez16 6 0x19), (16, 0x3666, .j16 0xd9), (16, 0x01A8, .jr16 6 0), (16, 0x51AA, .mul16 6 0xa),
  (64, 0x0000000000000000, .cNop), (64, 0x013009ABCDEF1234, .cMovi 3 0x9abcdef1234),
  (128, 0x0123456789ABCDEF0230000000000000, .cMovw 3 0x123456789abcdef), (64, 0x0335700000000000, .cAdd 3 5 7 0 0),
  (64, 0x0435080007654321, .cSub 3 5 0 1 0x7654321), (64, 0x0535700000000000, .cAnd 3 5 7 0 0)] : List (Nat × Nat × Instr)), decodeTableWord e.1 e.2.1 = some e.2.2) := by decide

theorem test_decode_words_7 : (∀ e ∈ ([
  (64, 0x0635080007654321, .cOr 3 5 0 1 0x7654321), (64, 0x0735700000000000, .cShl 3 5 7 0 0), (64, 0x0835700000000000, .cShr 3 5 7 0 0),
  (64, 0x09350000CDEF1234, .cLd 3 5 0xcdef1234), (64, 0x0A350000CDEF1234, .cSt 3 5 0xcdef1234), (64, 0x10350000000F1234, .cBeq 3 5 0xf1234),
  (64, 0x11350000000F1234, .cBne 3 5 0xf1234), (64, 0x12350000000F1234, .cBlt 3 5 0xf1234), (64, 0x13350000000F1234, .cBge 3 5 0xf1234),
  (64, 0x14000000000F1234, .cJmp 0xf1234), (64, 0x15000000000F1234, .cCall 0xf1234), (64, 0x1600000000000000, .cRet),
  (64, 0x17300000000F1234, .cLoop 3 0xf1234), (64, 0x1835000000000000, .cIb 3 5), (64, 0x2035000000123446, .cLaunch 3 5 6 2 0x1234),
  (64, 0x2135000000123446, .cLaunchall 3 5 6 2 0x1234), (64, 0x2230000000000009, .cCopy 3 9), (64, 0x283500000000D5E4, .cWaitsem 3 5 0 1 0xabc 1),
  (64, 0x2935000000000001, .cSigsem 3 5 1), (64, 0x2A00000000000000, .cFence), (64, 0x2B30000000000000, .cStamp 3),
  (64, 0x2C00000000000155, .cIntr 0x155), (64, 0x4035700000000005, .cInstall 3 5 7 5), (64, 0x4130700000000000, .cRebuild 3 7),
  (64, 0x4230700000000000, .cDelete 3 7), (64, 0x4330700000000000, .cStrike 3 7), (64, 0x4430700000000001, .cPitch 3 7 1),
  (64, 0x4535700000000000, .cSave 3 5 7), (64, 0x4635700000000000, .cRestore 3 5 7), (64, 0x4730000000000000, .cHalt 3)] : List (Nat × Nat × Instr)), decodeTableWord e.1 e.2.1 = some e.2.2) := by decide


theorem test_table_words : ∀ e ∈ tableWords, decodeTableWord e.1 e.2.1 = some e.2.2 := by decide

/-! ### Hypotheses that states meet: scalar forms and memory (O1 to O11) -/

theorem witness_ComputingForms : computes (regs [(1, 5), (2, 7)]) (.add 3 1 2) = some (4, 3, [1, 2], 12) := by decide
theorem witness_ComputingForms_firmware : OnCore firmware ∧ computes firmware (.addi16 0 31) = some (2, 0, [0], 0xFFFFFFFFFFFFFFFF) :=
  ⟨.inr ⟨0, rfl⟩, by decide⟩

/-- The world with code: two parcels of NOP at 0, BEQ x0, x0 back to itself at 4. -/
def coded : State := { world with caps := [(1, cap1 (bytesOf 8 0x00000021000000CF)), (2, { cap1 (bytesOf 4 0xCF) with list := [0x31], body := ⟨bytesOf 4 0xCF, [(0, 0, 4)], [], []⟩, exports := [0] })] }

theorem witness_BranchesGoToTheirTarget : branches coded (.beq 0 0 2) = some (4, true, 2) ∧ validTarget coded (Int.ofNat (getPc coded) + 2 * 2) = true := by decide
theorem witness_BadTargetTraps : branches coded (.j (-1)) = some (4, true, -1) ∧ coded.provisional = false ∧ validTarget coded (Int.ofNat (getPc coded) + 2 * -1) = false := by
  decide
theorem witness_JumpAndLink : validTarget coded (Int.ofNat (getPc coded) + 2 * (2 : BitVec 24).toInt) = true := by decide

/-- x5 holds a return token of record 0 of capsule 2. -/
def token : State := coded.setSlot 0 0 { coded.slot 0 0 with x := (coded.slot 0 0).x.setIfInBounds 5 0x8000020000000000 }

theorem witness_JumpThroughRegister : bits (getX token 5) 63 1 = 1 ∧ bits (getX token 5) 32 8 = 0 ∧ (token.cell 0).ctx = some 0 ∧ token.ctx 0 = some ctx0
    ∧ ctx0.caps.has (bits (getX token 5) 40 23) = true ∧ (token.caps.find (bits (getX token 5) 40 23)).isSome = true := by decide
theorem witness_JumpThroughRegister_map : ∃ x, token.caps.find (bits (getX token 5) 40 23) = some x ∧ x.state = 1 ∧ ReturnsTo x (bits (getX token 5) 0 32) 4 :=
  ⟨_, rfl, rfl, ⟨0x31, rfl, by decide⟩, by decide, (0, 0, 4), rfl, rfl⟩
theorem witness_JumpThroughRegister_firmware : let s := firmware.setDfc 0 { firmware.dfc 0 with code := bytesOf 4 0xCF }
    validTarget s (Int.ofNat (getX s 1 + 2 * (0 : BitVec 14).signExtend 64).toNat) = true := by decide

/-- x1 holds an oref of named region 0, x2 of the vault object, x3 of the object on cell 1, x4 of the window, x5 of the page, x6 of slot 16, x7 a pattern. -/
def mems : State := regs [(1, 0), (2, 0x0200000000000000), (3, 0x0210000000000000 + 0), (4, 0x0220000000000000), (5, 0x0230000000000000), (6, 0x0100000000000000),
  (7, 0x1122334455667788)]

/-- The resolved target of an oref in `mems`. -/
def target (s : State) (o : Word) : Target := match resolve s (viewOf s s.cur) o with | .ok t => t | .error _ => ⟨.nowhere, 0, 0, 0, 0, 0, Desc.zero⟩

theorem witness_LoadForms_own : loads (.lw 8 1 0 3 0 0) = some (4, 4, true, false, 8, 1, 0, 0) ∧ windowRule (target mems 0) 4 false = true := ⟨rfl, by decide⟩
theorem witness_LoadForms_checked : checkRef mems (viewOf mems mems.cur) (accessRef mems 1 0 4) 4 1 0 = .ok (target mems 0) := rfl
theorem witness_LoadForms_delivers : Delivers mems (target mems 0) 4 0 false (readKeys mems.mem (span (scratchKey 0 0) 4)) [] :=
  .own _ ⟨0, 0, rfl, .inl ⟨rfl, rfl⟩⟩ (by decide) (.inl rfl) ⟨by decide, by decide⟩ (by decide)

theorem witness_LoadForms_memory : checkRef (withPend mems (.ld16 8 2)) (viewOf mems mems.cur) 0x0200000000000000 8 1 0 = .ok (target mems 0x0200000000000000) := by decide +kernel
theorem witness_LoadForms_memory_delivers : Delivers (withPend mems (.ld16 8 2)) (target mems 0x0200000000000000) 8 0 false (readKeys mems.mem (span (vaultKey 0 0) 8)) [] :=
  .memory ⟨span (vaultKey 0 0) 8, [], false, none⟩ (.inl ⟨0, rfl⟩) (by decide +kernel) (by decide +kernel) (.inl rfl) ⟨⟨by decide, by decide⟩, by decide, by decide, by decide⟩ (by decide) (by decide)
theorem witness_LoadForms_window_delivers : Delivers (withPend mems (.ld 8 4 0 3 0 1)) (target mems 0x0220000000000008) 8 0 false
    (bytesOf 8 (windowRead (withPend mems (.ld 8 4 0 3 0 1)) 0 0 8).toNat) [] :=
  .window 0 rfl (.inl rfl) ⟨⟨by decide, by decide⟩, by decide, by decide, by decide⟩ (by decide)
theorem witness_LoadForms_device_delivers : let s := { withPend mems (.ld16 8 6) with routes := [(1, 0)], ports := [(0, ⟨true, 1, 0, [], []⟩)] }
    Delivers s (target { s with cur := .slot 0 0 } 0x0240000000000000) 8 0 false ((s.inp.bytes ++ List.replicate 8 0).take 8) [] :=
  .device rfl (.inl rfl) ⟨⟨by decide, by decide⟩, by decide, by decide, by decide⟩ (by decide) (by decide) rfl
theorem witness_RemoteLoadWaits : loads (.ldcn 8 2 0 3 1 0) = some (4, 8, false, true, 8, 2, 0, true, 0) ∧ InMemory (target mems 0x0200000000000000)
    ∧ NothingBefore mems (target mems 0x0200000000000000) 8 true (span (vaultKey 0 0) 8) ∧ mems.answered = false ∧ WaitMet mems 0 :=
  ⟨rfl, .inl ⟨0, rfl⟩, ⟨⟨by decide, by decide⟩, by decide, by decide, by decide⟩, by decide, .inl rfl⟩
theorem witness_LocalStores : StoresNow mems (target mems 0) 2 0 true (span (scratchKey 0 0) 2) :=
  ⟨⟨0, 0, rfl, .inl ⟨rfl, rfl⟩⟩, by decide, .inl rfl, by decide⟩
theorem witness_LocalStores_accumulator : stores (.sd 7 6 3 3 0 0) = some (4, 8, 7, 6, 3, false, 0) ∧ checkRef mems (viewOf mems mems.cur) 0x0100000000000000 8 2 1 = .ok (target mems 0x0100000000000000)
    ∧ StoresNow mems (target mems 0x0100000000000000) 8 3 false (span (accKey 0 0) 8) :=
  ⟨rfl, rfl, ⟨0, 0, rfl, .inr ⟨rfl, rfl⟩⟩, by decide, .inr (by decide), by decide⟩
theorem witness_PostedStores : stores (.sw16 7 3) = some (2, 4, 7, 3, 0, false, 0) ∧ windowRule (target mems 0x0210000000000000) 4 true = true
    ∧ isLocal (viewOf mems mems.cur) (target mems 0x0210000000000000) = false ∧ counter mems (postClass (target mems 0x0210000000000000)) < 4095 := ⟨rfl, by decide, by decide, by decide⟩
theorem witness_PostedStores_window : windowRule (target mems 0x0220000000000040) 8 true = true ∧ (target mems 0x0220000000000040).home = .window 0
    ∧ checkRef mems (viewOf mems mems.cur) 0x0220000000000040 8 2 1 = .ok (target mems 0x0220000000000040) := ⟨by decide, rfl, rfl⟩
theorem witness_AccessChecks_slot : resolve mems (viewOf mems mems.cur) 0x0110000000000000 = .error (.trap 2 0x0110000000000000 0 0 false) := rfl
theorem witness_AccessChecks_bounds : resolve mems (viewOf mems mems.cur) 0x2FD = .ok (target mems 0x2FD) ∧ (target mems 0x2FD).len < (target mems 0x2FD).off + 4
    ∧ word (bits (0x2FD : Word) 52 12 * 2 ^ 52 + max (bits (0x2FD : Word) 0 52) (target mems 0x2FD).len) = 0x300 := ⟨rfl, by decide, by decide⟩
theorem witness_AccessChecks_rights : let t := target (withObjs mems [(32, ⟨0x8210000000001000, 0, 0, 0⟩)]) 0x0200000000000FF8
    t.off + 8 ≤ t.len ∧ t.rights &&& 2 ≠ 2 := by decide

/-- Granule 0 of the scratchpad is full. -/
def fullOne : State := { mems with full := [scratchKey 0 0 / 16] }

theorem witness_FullEmptyLoads : checkRef fullOne (viewOf fullOne fullOne.cur) (accessRef fullOne 1 1 8) 8 3 0 = .ok (target fullOne 8) ∧ (target fullOne 8).off % 8 = 0
    ∧ localMatch fullOne (target fullOne 8) 8 true false = false ∧ fullOne.poisoned (span (scratchKey 0 8) 8) = false
    ∧ ∀ g ∈ granules (span (scratchKey 0 8) 8), fullOne.full.has g = true := ⟨rfl, by decide, by decide, by decide, by decide⟩
theorem witness_FullEmptyLoadWaits : ∃ g ∈ granules (span (scratchKey 0 8) 8), mems.full.has g = false := ⟨scratchKey 0 0 / 16, by decide, by decide⟩
theorem witness_FullEmptyWrites : StoresNow mems (target mems 0x2F8) 8 0 true (span (scratchKey 0 0x2F8) 8) ∧ (target mems 0x2F8).off % 8 = 0 :=
  ⟨⟨⟨0, 0, rfl, .inl ⟨rfl, rfl⟩⟩, by decide, .inl rfl, by decide⟩, by decide⟩
theorem witness_FullEmptyWrites_posted : checkRef mems (viewOf mems mems.cur) (accessRef mems 3 0 8) 8 2 1 = .ok (target mems 0x0210000000000000)
    ∧ (target mems 0x0210000000000000).home = .scratch 1 := ⟨rfl, rfl⟩
theorem witness_FullEmptyWrites_clear : let s := mems.setSlot 0 0 { mems.slot 0 0 with x := (mems.slot 0 0).x.setIfInBounds 8 48 }
    0 < (getX s 8).toNat ∧ (target s 0).off + 16 * (getX s 8).toNat ≤ (target s 0).len ∧ ((target s 0).base + (target s 0).off) % 16 = 0 := by decide
theorem witness_LayoutTableForms : readFenced mems = false ∧ (∀ p ∈ outstanding mems, ∀ v, p.eff ≠ .layout 5 v) ∧ counter mems 1 < 4095 := ⟨by decide, by decide, by decide⟩

/-! ### Atomics, ordering, barriers -/

theorem witness_AtomicForms : atomics (.amocasD 5 1 7 3 3) = some (.cas, 8, 5, 1, 7, 3) ∧ checkRef mems (viewOf mems mems.cur) (getX mems 1) 8 11 2 = .ok (target mems 0)
    ∧ (target mems 0).off % 8 = 0 ∧ inHost (target mems 0) = false ∧ Performs mems (target mems 0) 8 false true ⟨span (scratchKey 0 0) 8, [], false, none⟩ :=
  ⟨rfl, rfl, by decide, by decide, .own _ ⟨0, 0, rfl, .inl ⟨rfl, rfl⟩⟩ (by decide) ⟨by decide, by decide⟩ (by decide) (by decide)⟩
theorem witness_AtomicForms_vault : Performs (withPend mems (.amoaddW 5 2 7 3 0)) (target mems 0x0200000000000000) 4 false false ⟨span (vaultKey 0 0) 4, [], false, none⟩ :=
  .memory ⟨span (vaultKey 0 0) 4, [], false, none⟩ (.inl ⟨0, rfl⟩) rfl rfl (by decide) (by decide) ⟨⟨by decide, by decide⟩, by decide, by decide, by decide⟩ (by decide) (by decide) (fun h => nomatch h)
theorem witness_AtomicOperations : (4 = 4 ∨ 4 = 8) ∧ 0xFFFFFFFF < 2 ^ (8 * 4) ∧ Amo.minu ≠ .fadd := by decide
theorem witness_AtomicTraps_unaligned : (target mems 4).off % 8 ≠ 0 ∧ checkRef mems (viewOf mems mems.cur) 4 8 11 2 = .ok (target mems 4) ∧ mems.provisional = false := ⟨by decide, rfl, by decide⟩
theorem witness_AtomicTraps_window : inHost (target mems 0x0220000000000000) = false ∧ (target mems 0x0220000000000000).home = .window 0
    ∧ checkRef mems (viewOf mems mems.cur) 0x0220000000000000 8 11 2 = .ok (target mems 0x0220000000000000) := ⟨by decide, rfl, rfl⟩
theorem witness_AtomicTraps_host : let s := withObjs mems [(32, ⟨0x89F0000000001000, 0, 0, 0⟩)]
    inHost (target s 0x0200000000000000) = true := by decide

/-- A posted store of the moving slot. -/
def post0 : Posted := ⟨.slot 0 0, 0, 0, 0, ⟨0x83F0000000001000, 0, 0, 0⟩, .bytes 0x0200000000000000 [1, 2] false, false, 0, 1, true, false, 0, 0, false, false, []⟩
/-- The world with that store on its way and counted. -/
def posting : State := { onSlot0 fun l => { l with pcv := 1 } with posted := [post0] }

theorem witness_FenceOrders : ∃ p ∈ outstanding posting, p.epoch ≤ posting.epochs.getD (agentIndex posting.cur) 0 := ⟨post0, by decide, by decide⟩
theorem witness_CounterWait : counter posting 0 ≠ 0 ∧ counter posting 1 = 0 := by decide
theorem witness_BarrierForms : NamesBarrier (regs [(20, 3)]) 0 0 3 ctx0 20 ∧ writeFenced (regs [(20, 3)]) true = false ∧ dieOfCell 0 = barrierDie ctx0
    ∧ (ctx0.barrier 3).a + 1 ≠ (ctx0.barrier 3).n ∧ (({ ctx0 with barriers := [(3, ⟨0, 1, 2⟩)] } : Context).barrier 3).a + 1 = 2 :=
  ⟨⟨by decide, by decide, by decide, by decide, by decide⟩, by decide, by decide, by decide, by decide⟩
theorem witness_BarrierWait : (((⟨1, 0, 2⟩ : Barrier).ph - (0 : BitVec 16)).toNat = 1) ∧ ((regs [(20, 3)]).slot 0 0).barw = none
    ∧ ¬(1 ≤ ((ctx0.barrier 3).ph - (ctx0.barrier 3).ph).toNat) := by decide

/-! ### Messages, channels, queue registers -/

theorem witness_SendForms : Running (regs [(9, 0x0000010000000010)]) 0 0 0 bootActivation ctx0 ∧ Sendable ((regs [(9, 0x0000010000000010)]).slot 0 0) 0x0000010000000010 [0, 5]
    ∧ bits (0x0000010000000010 : Word) 8 3 ≠ 5 ∧ bits (0x0000010000000010 : Word) 40 24 < ctx0.fold.v :=
  ⟨⟨rfl, by decide, by decide, by decide, by decide⟩, ⟨by decide, by decide, by decide, by decide⟩, by decide, by decide⟩
theorem witness_SendForms_grant : Sendable (mems.slot 0 0) 0x0000070000000580 [0, 5] ∧ bits (0x0000070000000580 : Word) 8 3 = 5 ∧ bits (0x0000070000000580 : Word) 48 16 = 0
    ∧ ctx0.grants.find (bits (0x0000070000000580 : Word) 40 8) = some (1, 0, 0) := ⟨⟨by decide, by decide, by decide, by decide⟩, by decide, by decide, by decide⟩
theorem witness_MulticastSend : Sendable (mems.slot 0 0) 0x10 [0] ∧ (3 : Word) ≠ 0 ∧ bits (3 : Word) 8 56 = 0
    ∧ ∀ j ∈ multicastCells 3, 8 * rankOfCell 0 + j ∈ ctx0.cells ∧ ctx0.cells.idxOf (8 * rankOfCell 0 + j) + bits (0x10 : Word) 40 6 * ctx0.fold.p < ctx0.fold.v :=
  ⟨⟨by decide, by decide, by decide, by decide⟩, by decide, by decide, by decide⟩
theorem witness_SendChecks : 16 ≤ ((onSlot0 fun l => { l with sends := List.replicate 16 ⟨Msg.empty, [], false⟩ }).slot 0 0).sends.length ∧ 8 < bits (0x90 : Word) 4 4
    ∧ bits (0x100 : Word) 8 3 ∉ [0, 5] ∧ (bits (0x110 : Word) 8 3 = 1 ∧ bits (0x110 : Word) 4 4 ≠ 0) ∧ ctx0.fold.v ≤ bits (0x0000020000000000 : Word) 40 24 := by decide

/-- An activation with a message of one payload word. -/
def act1 : Activation := { bootActivation with msg := { Msg.empty with hdr := 0x10, pay := [7] } }

theorem witness_MessageLoad : Running (onSlot0 fun l => { l with act := some act1 }) 0 0 0 act1 ctx0 ∧ 1 ≤ bits act1.msg.hdr 4 4 ∧ bits act1.msg.hdr 4 4 < 2 :=
  ⟨⟨rfl, by decide, by decide, by decide, by decide⟩, by decide, by decide⟩
theorem witness_BindingForms : bootActivation.stolen = false ∧ bits (0x0000100000003005 : Word) 5 7 = 0 ∧ bits (0x0000100000003005 : Word) 14 2 ≠ 3
    ∧ (handlerEntry world ctx0 (bits (0x0000100000003005 : Word) 16 16)).isSome = true ∧ bits (0x7F : Word) 11 53 = 0 ∧ bits (0x7F : Word) 3 4 + bits (0x7F : Word) 7 4 ≤ 15
    ∧ bits (31 : Word) 5 59 = 0 ∧ bits (0xFFFFFFFF : Word) 32 32 = 0 ∧ { bootActivation with stolen := true }.stolen = true := by decide

/-- Queue register 2 holds one entry, 3 four, 4 is in stream mode with its pattern at its end. -/
def queued : State := onSlot0 fun l =>
  let one : QReg := { QReg.empty with ents := [⟨5, 0, 0, 0, 0, 0⟩] }
  let four : QReg := { QReg.empty with ents := List.replicate 4 ⟨5, 0, 0, 0, 0, 0⟩ }
  let ended : QReg := { QReg.empty with mode := .stream }
  { l with q := ((l.q.setIfInBounds 2 one).setIfInBounds 3 four).setIfInBounds 4 ended }

theorem witness_QueueForms : (getQ queued 2).mode = .plain ∧ (getQ queued 2).ents.length < 4 ∧ (getQ queued 2).ents = ⟨5, 0, 0, 0, 0, 0⟩ :: [] := by decide +kernel
theorem witness_QueueForms_stream : checkRef (withPend mems (.qstream 2 2)) (viewOf mems mems.cur) 0x0200000000000000 64 1 0 = .ok (target mems 0x0200000000000000)
    ∧ (target mems 0x0200000000000000).off % 8 = 0 := ⟨by decide +kernel, by decide⟩
theorem witness_QueueLimits : (getQ queued 0).ents = [] ∧ (getQ queued 0).mode = .plain ∧ (getQ queued 4).ents = [] ∧ (getQ queued 4).popped = patCount (getQ queued 4).pat
    ∧ 4 ≤ (getQ queued 3).ents.length ∧ (getQ queued 4).mode ≠ .plain ∧ queued.provisional = false := by decide +kernel

/-! ### CSRs, traps, calls -/

theorem witness_CsrRead : (0x120 : BitVec 12).toNat ∈ cellCsrs ∧ (0x805 : BitVec 12).toNat ∈ dfcCsrs ∧ (readCsr world 0x120).isSome = true ∧ (readCsr firmware 0x805).isSome = true := by decide
theorem witness_CsrWrites : readCsr world 0x103 = some 0 ∧ csrWrites 0 (getX world 0) (.csrs 5 0 0x103) = some (5, 0, 0x103, 0) := by decide
theorem witness_CsrUnlisted : (0x163 : BitVec 12).toNat ∉ cellCsrs ∧ (0x800 : BitVec 12).toNat ∉ cellCsrs ∧ world.provisional = false := by decide
theorem witness_ServiceRequest : (getX world 0).toNat < 0x8000 ∧ world.answered = false ∧ writeFenced world true = false ∧ (world.cell 0).records.length < 8
    ∧ (withPend world (.ecall 1 2 3)).answered = true
    ∧ 8 ≤ ((world.setCell 0 { world.cell 0 with records := List.replicate 8 [] }).cell 0).records.length := by decide
theorem witness_Breakpoint : bootActivation.dbg.getLsbD 0 = false ∧ (3 : Word).getLsbD 0 = true ∧ (3 : Word).getLsbD 1 = true ∧ (1 : Word).getLsbD 1 = false ∧ (world.cell 0).stop = .no := by decide
theorem witness_FirmwareTrapEntry : 20 < 256 := by decide
/-- A firmware core with events on, one pending, stalled in a WFE. -/
def waiting : State := { firmware.setDfc 0 { firmware.dfc 0 with ie := true, wfe := true, devent := 1 } with inp := { die := 0, n := 7 }, sched := [.agent (.dfc 0)] }
theorem witness_FirmwareForms : waiting.inp.die = 0 ∧ waiting.inp.n < 8 ∧ (waiting.dfc 0).alive = true ∧ (waiting.dfc 0).pend = none ∧ (waiting.dfc 0).wfe = true
    ∧ (waiting.dfc 0).ie = true ∧ (waiting.dfc 0).devent ≠ 0 ∧ (firmware.dfc 0).devent = 0 := by decide

/-- The vault object's first doubleword is a bound linkage entry that names function 0 of capsule 2; the response to CALLX is here. -/
def linked : State := withPend { coded.setSlot 0 0 { coded.slot 0 0 with x := (coded.slot 0 0).x.setIfInBounds 10 0x0200000000000000 } with
  mem := writeKeys [] (span (vaultKey 0 0) 8) (bytesOf 8 0x8000020000000000) } (.callx 1 10 0)

theorem witness_CallThroughLinkage : checkRef linked (viewOf linked linked.cur) 0x0200000000000000 8 4 0 = .ok (target linked 0x0200000000000000) := rfl
theorem witness_CallThroughLinkage_delivers : Delivers linked (target linked 0x0200000000000000) 8 0 true (readKeys linked.mem (span (vaultKey 0 0) 8)) [] :=
  .memory ⟨span (vaultKey 0 0) 8, [], false, none⟩ (.inl ⟨0, rfl⟩) (by decide +kernel) (by decide +kernel) (.inl rfl) ⟨⟨by decide, by decide⟩, by decide, by decide, by decide⟩ (by decide) (by decide)
theorem witness_CallThroughLinkage_entry : ∃ x, linked.caps.find 2 = some x ∧ x.state = 1 ∧ word (numOfBytes (readKeys linked.mem (span (vaultKey 0 0) 8))) = 0x8000020000000000
    ∧ x.exports[bits (0x8000020000000000 : Word) 16 24]? = some 0 ∧ EntersAt x 0 0 := ⟨_, rfl, rfl, by decide, rfl, (0, 0, 4), rfl, rfl⟩
theorem witness_VoidBodyParks : let s := { token with caps := [(1, cap1 []), (2, { cap1 [] with state := 2, list := [0x33] })] }
    ∃ x, jumpRegister (.jr16 5 0) = some (0, 5, 0, 2) ∧ s.caps.find (bits (getX s 5) 40 23) = some x ∧ (x.state = 2 ∨ x.state = 3)
      ∧ isWide false x.list (bits (getX s 5) 0 32) = false ∧ ∃ w, x.list[bits (getX s 5) 0 32]? = some w ∧ bits w 0 10 ∈ [0x31, 0x32, 0x33] := ⟨_, rfl, rfl, .inl rfl, by decide, 0x33, rfl, by decide⟩

/-! ### Vector and layout forms, repetition, matrix -/

theorem witness_VectorLanes : lanes (.vadd 8 4 0 3) = some (8, [4, 0], 3, 32, lane2 fun a b => toF32 (fadd (f32 a) (f32 b)))
    ∧ Operands world (some 8) [4, 0] (([4, 0] : List (BitVec 5)).map fun r => getV world r.toNat) world := ⟨rfl, .registers (by decide) fun d h => by cases h; decide⟩
theorem witness_VectorLanes_queue : lanes (.viadd 20 7 18 0 1) = some (20, [7, 18], 0, 16, fun l => ((l.getD 0 0 + l.getD 1 0) % 2 ^ (8 * 2 ^ 1), 0)) := rfl
theorem witness_VectorOperands_queue : (getQ queued 2).ents = ⟨5, 0, 0, 0, 0, 0⟩ :: [] ∧ ((getQ queued 2).mode = .stream → False) ∧ ((getQ queued 2).mode = .bound → False) := by
  decide +kernel
theorem witness_VectorComparesAndReduces : comparisons (.vcmpLt 15 1 2 0) = some (15, 1, 2, 0, true, flt) ∧ (reductions (.vredx 1 2 7)).isSome = true
    ∧ Operands world (some 15) [1, 2] (([1, 2] : List (BitVec 5)).map fun r => getV world r.toNat) world := ⟨rfl, rfl, .registers (by decide) fun d h => by cases h; decide⟩
theorem witness_VectorMoves : RoomFor world (some 23) ∧ Operands world none [15] (([15] : List (BitVec 5)).map fun r => getV world r.toNat) world :=
  ⟨fun d h => by cases h; decide +kernel, .registers (by decide) fun d h => nomatch h⟩
theorem witness_VectorMemory : checkRef fullOne (viewOf fullOne fullOne.cur) (accessRef fullOne 1 11 64) 64 1 0 = .ok (target fullOne 0x2C0)
    ∧ ((target fullOne 0x2C0).base + (target fullOne 0x2C0).off) % 16 = 0
    ∧ ∀ g ∈ granules (span (scratchKey 0 0) 16), fullOne.full.has g = true := ⟨rfl, by decide, by decide⟩
theorem witness_VectorMemory_store : StoresNow mems (target mems 0x2C0) 64 0 true (span (scratchKey 0 0x2C0) 64) ∧ windowRule (target mems 0x2C0) 64 true = true :=
  ⟨⟨⟨0, 0, rfl, .inl ⟨rfl, rfl⟩⟩, by decide, .inl rfl, by decide⟩, by decide⟩

/-- Layout 5: a plain row of 16 FP32 elements at the start of named region 0. -/
def rowLayout : Vec := 0
theorem witness_LayoutElements : (32 : Nat) ∈ [2, 4, 8, 16, 32, 64] ∧ ([(0, 7), (15, 8)].map (·.1) : List Nat).Nodup ∧ ∀ p ∈ ([(0, 7), (15, 8)] : List (Nat × Nat)), p.1 < 512 / 32 := by
  decide

/-- The slot has one repetition of the VADD in buffer slot 15 left. -/
def repeating : State :=
  let s := onSlot0 fun l => { l with seq := ⟨some ⟨0x0F, 2, 16, 15, 1, 1, 0⟩, none, 1⟩ }
  s.setCell 0 { s.cell 0 with repBuf := (s.cell 0).repBuf.setIfInBounds 15 ⟨.vadd 1 2 3 0, [], 0x0F, 1, 0⟩ }

theorem witness_RepetitionForms : (getX (regs [(5, 3), (6, 0x0F)]) 5).toNat < 2 ^ 32 ∧ bits (0x0F : Word) 56 8 = 0 ∧ bits (0x0F : Word) 23 1 = 0 ∧ bits (0x0F : Word) 0 4 + (bits (0x0F : Word) 4 4 + 1) ≤ 16
    ∧ bits (0x0F : Word) 8 1 = 0 ∧ bits (0x10F : Word) 8 1 = 1 ∧ bufferBusy (world.cell 0) 15 1 = false ∧ (world.slot 0 0).seq.run = none ∧ (world.slot 0 0).seq.wait = none := by decide
theorem witness_RepetitionForms_capture : let s := { world with caps := [(1, cap1 (bytesOf 8 0x0000886B0018A05B))] }
    fetchBody s 0 1 4 = .ok (.vadd 8 4 0 0, 4) ∧ (scalarFields (.vadd 8 4 0 0)).isSome = true ∧ wellFormed (.vadd 8 4 0 0) = true := ⟨rfl, by decide, by decide⟩
theorem witness_RepetitionInstance : (repeating.slot 0 0).status = .running ∧ (repeating.slot 0 0).wait = .none ∧ (repeating.slot 0 0).seq.run = some ⟨0x0F, 2, 16, 15, 1, 1, 0⟩
    ∧ (repeating.cell 0).repBuf[15]? = some ⟨.vadd 1 2 3 0, [], 0x0F, 1, 0⟩ ∧ (repeating.slot 0 0).mq = [] ∧ (repeating.cell 0).wcmp = Vector.replicate 4 0 := by decide +kernel

/-- A matrix instruction as it waits in a queue. -/
def matOp (i : Instr) (x : Word) (on : Bool) : MatOp := ⟨i, x, { Csrs.reset with fmta := 0x15, fmtb := 0x15 }, [], Vector.replicate 32 0, 0, 1, 0, ⟨none, none, 0⟩, none, on, false, i⟩
/-- The slot with that instruction at the head of its queue. -/
def matrix (i : Instr) (x : Word) (on : Bool) : State := onSlot0 fun l => { l with mq := [matOp i x on] }

theorem witness_MatrixIssue : issues world (.mzero 7) = some (0, [], True) ∧ (world.slot 0 0).mq.length < 4 ∧ (world.slot 0 0).mq = [] ∧ (matrix .mwait 0 false).me.mq ≠ [] ∧
    4 ≤ ((onSlot0 fun l => { l with mq := List.replicate 4 (matOp (.mzero 0) 0 false) }).slot 0 0).mq.length := ⟨rfl, by decide, by decide, by decide, by decide⟩
theorem witness_MatrixIssue_poly : (issues (regs [(4, 15)]) (.mpoly 1 2 3 4)).map (·.1) = some 15 ∧ (15 : Word).toNat < 16 ∧ inGang (world.slot 0 0) = false
    ∧ ((1 : BitVec 3) ≠ 2 ∧ (1 : BitVec 3) ≠ 3 ∧ (2 : BitVec 3) ≠ 3) := by decide
theorem witness_OnArray : OnArray (matrix (.mzero 7) 0 true) 0 0 (matOp (.mzero 7) 0 true) :=
  ⟨by decide, by decide, ⟨[], by decide⟩, by decide, by decide, by decide⟩
theorem unpoisoned (s : State) (c t : Nat) (h : s.poison = []) : tilePoisoned s c t = false := by
  unfold tilePoisoned State.poisoned; rw [h]; simp [NSet.has]
theorem witness_MatrixTileEffects : tilePoisoned (matrix (.mtrn 7 6) 0 true) 0 6 = false ∧ (matOp (.mwrr 7 1 15) 63 true).x.toNat < 64 :=
  ⟨unpoisoned _ _ _ rfl, by decide⟩
theorem witness_MatrixMultiplyIntegers : let m := matOp (.mma 2 7 0 3 0) 0 true
    m.csr.fmta = 0x15 ∧ m.csr.fmtb = 0x15 ∧ (7 : BitVec 6).toNat < 8 ∧ ((matrix m.i 0 true).slot 0 0).staging = [] ∧ ((matrix m.i 0 true).slot 0 0).mrpRow = 0
      ∧ tilePoisoned (matrix m.i 0 true) 0 2 = false := ⟨rfl, rfl, by decide, by decide, by decide, unpoisoned _ _ _ rfl⟩

/-! ### Events of the pipeline, activations and messages -/

theorem witness_MatrixDispatch : let s := matrix (.mgang 4 3) 0 false
    arraySlot s 0 = none ∧ leastBy (slotKey s 0) ((List.range 4).filter (headReady s 0)) = some 0 ∧ (s.slot 0 0).mq = [matOp (.mgang 4 3) 0 false]
      ∧ (matOp (.mgang 4 3) 0 false).x = 0 := by decide +kernel
theorem witness_MiterTurns : let m := { matOp (.miter 0 0 0 0 5 6) 4 true with begun := true }
    let s := onSlot0 fun l => { l with mq := [m] }
    OnArray s 0 0 m ∧ m.begun = true ∧ (s.slot 0 0).act = some bootActivation ∧ bootActivation.stolen = false ∧ s.ctx 0 = some ctx0
      ∧ bits (ctx0.vpe 0).mis 0 32 + 1 < bits m.x 0 32 ∧ requestPending s 0 = false ∧ (s.slot 0 0).csr.mtrapen = 0 :=
  ⟨⟨by decide, by decide, ⟨[], by decide⟩, by decide, by decide, by decide⟩, rfl, by decide, rfl, by decide, by decide, by decide, by decide⟩

/-- Slots 0 of cells 0 and 1 join with tag 9 and mask 3, at the end of their wait. -/
def joining : State :=
  let l := { slot0 with mq := [matOp (.mgang 4 3) 9 true], gang := .joining 9 3 16384 }
  let s := (world.setSlot 0 0 l).setSlot 1 0 l
  { s with slotTables := [(0, 0x80)] }
theorem witness_GangEvents : arraySlot joining 0 = some 0 ∧ (joining.slot 0 0).gang = .joining 9 3 16384 ∧ 16384 ≤ 16384 ∧ (3 : BitVec 8).getLsbD (0 % 8) = true
    ∧ ∀ c ∈ maskedCells 0 3, joinSlot joining c 9 3 = some 0 ∧ (joining.slot c 0).status = .running := by decide +kernel
theorem witness_SlotTableAtFrameStart : let s : State := { world with slotNext := [(0, (1, 5)), (1, (2, 5))], clk := [(0, 8 * 8192)] }
    s.slotNext.find 0 = some (1, 5) ∧ s.clkOf 0 % 4096 = 0 ∧ 1 < s.clkOf 0 / 4096 ∧ s.slotNext.find 1 = some (2, 5) ∧ s.clkOf 0 / 4096 ≤ 2 := by decide

/-- A message without words on channel 3 for virtual PE 0. -/
def msg3 : Msg := { Msg.empty with hdr := 0x1800 }
/-- A bound handler, whose messages a thief takes. -/
def bound : Handler := { Handler.zero with bnd := true, stl := true }
/-- Cell 0 stands before the activation of that message; its slots are free; cell 1 has been idle for 32 cycles. -/
def pending : State :=
  let x := { ctx0 with vpes := [(0, { Vpe.reset with queues := [(3, [msg3])], ages := [(3, 5000)], used := 1 })] }
  let c : Cell := { Cell.reset with ctx := some 0, handlers := Cell.reset.handlers.setIfInBounds 3 bound }
  { world with ctxs := [(0, x)], cells := [(0, c), (1, { Cell.reset with ctx := some 0, idleClk := 32 })], inp := { cell := 0, chan := 3 } }
/-- Its context. -/
def pendingCtx : Context := { ctx0 with vpes := [(0, { Vpe.reset with queues := [(3, [msg3])], ages := [(3, 5000)], used := 1 })] }

theorem witness_AbortLeaves : (world.slot 0 0).act = some bootActivation ∧ CellOf world 0 0 ctx0 ∧ (ctx0.vpe bootActivation.vpe).streams.find bootActivation.ch = none :=
  ⟨by decide, ⟨by decide, by decide⟩, by decide⟩
theorem witness_EndForms : Running world 0 0 0 bootActivation ctx0 ∧ (world.slot 0 0).ending = false ∧ (world.slot 0 0).sends = []
    ∧ revokedGrant ctx0 ⟨Msg.empty, [(0, 0, 1, none)], false⟩ = false := ⟨⟨rfl, by decide, by decide, by decide, by decide⟩, by decide, by decide, by decide⟩
theorem witness_ActivationStart : StartsNext pending 0 0 pendingCtx 0 0 3 msg3 [] :=
  ⟨by decide, ⟨by decide, by decide⟩, by decide, by decide, by decide, by decide +kernel, by decide⟩
theorem witness_ActivationStart_sealed : opensStream (pending.cell 0) (pendingCtx.vpe 0) 3 = false ∧ (handlerEntry pending pendingCtx ((pending.cell 0).handler 3).hidx.toNat).isSome = true
    ∧ ∃ b, GridSealed pending pendingCtx b := ⟨by decide, by decide, _, rfl, rfl, by decide⟩
theorem witness_ActivationStart_void : let s := { pending with fw := { pending.fw with gen := 9 } }
    ∃ b, s.caps.find 1 = some b ∧ b.state = 1 ∧ tagCurrent s b = false := ⟨_, rfl, rfl, by decide⟩
theorem witness_AgePromotion : (pending.inp.vpe, pending.inp.chan) ∈ runnablePairs pending 0 ∧ max 64 (pending.cell 0).agel.toNat < (pendingCtx.vpe 0).ages.getD 3 0 := by decide +kernel
theorem witness_TurnBudgetExpiry : let s := onSlot0 fun l => { l with tbud := 0 }
    (s.slot 0 0).status = .running ∧ (s.slot 0 0).ending = false ∧ (s.slot 0 0).tbud = 0 := by decide
theorem witness_StealAttempt : freeSlot (pending.cell 1) = some 0 ∧ mayStart pending 1 = true ∧ (pending.cell 1).stop = .no ∧ 32 ≤ (pending.cell 1).idleClk ∧ runnablePairs pending 1 = []
    ∧ oldest ((probes pendingCtx 1).flatMap (stealable pending pendingCtx)) = some (0, 0, 3, msg3) := by decide +kernel
theorem witness_StealAttempt_fails : let s := world.setCell 1 { world.cell 1 with idleClk := 32 }
    oldest ((probes ctx0 1).flatMap (stealable s ctx0)) = none ∧ runnablePairs s 1 = [] ∧ 32 ≤ (s.cell 1).idleClk := by decide +kernel
theorem witness_OutboundEvents : let m : OutMsg := ⟨Msg.empty, [(0, 0, 1, none)], false⟩
    let s := { world.setCell 0 { world.cell 0 with outbound := [m] } with mcReturns := [(0, 2)] }
    (s.cell 0).outbound = [m] ∧ listsStand s 0 0 = false ∧ gateOpen s 0 = true ∧ (∀ d ∈ m.dests, d.1 = s.devId.toNat) ∧ countersReady (s.cell 0) m = true
      ∧ s.mcReturns[0]? = some (0, 2) := by decide
theorem witness_OutboundEvents_multicast : let m : OutMsg := ⟨Msg.empty, [(0, 0, 1, some (0, 2))], false⟩
    let s := world.setCell 0 { world.cell 0 with outbound := [m], freeCnt := [(2, 1)] }
    (s.cell 0).outbound = [m] ∧ countersReady (s.cell 0) m = true ∧ (sentCopy m.msg 0 true).aflg = 8 := by decide
theorem witness_SpillEvents : let s := world.setCell 0 { world.cell 0 with spill := [(0, 3, msg3)] }
    (s.cell 0).spill = [(0, 3, msg3)] ∧ (ctx0.vpe 0).used < share ctx0 ∧ (s.cell 0).netHeld = [] ∧ (∀ k < 4, (s.slot 0 k).status ≠ .stream 0) := by decide +kernel
theorem witness_SpillEvents_extension : ((world.setCell 0 { world.cell 0 with netHeld := [⟨0, 0, 0, 0, 0, 24, 0, msg3⟩] }).cell 0).netHeld ≠ [] ∧ (world.cell 0).ext = false ∧ ctx0.extEntries = 0
    ∧ ctx0.contained = false := by decide
theorem witness_StreamOpen : opensStream { world.cell 0 with handlers := (world.cell 0).handlers.setIfInBounds 3 { bound with sbd := true } }
    { Vpe.reset with queues := [(3, [{ msg3 with hdr := 0x1900 }])] } 3 = true := by decide +kernel
theorem witness_StreamClose : msgKind (0x1B00 : Word) = 3 ∧ (([{ msg3 with hdr := 0x1B00 }] : List Msg).find? fun m => m.src == 0 && decide (1 ≤ msgKind m.hdr) && decide (msgKind m.hdr ≤ 3)).isSome = true
    ∧ drained { slot0 with seq := ⟨some ⟨0, 0, 16, 0, 0, 0, 0⟩, none, 0⟩ } = true := by decide +kernel
theorem witness_StreamSlotBudgetExpiry : let s := onSlot0 fun l => { l with status := .stream 5, tbud := 0 }
    (s.slot 0 0).status = .stream 5 ∧ (s.slot 0 0).act = some bootActivation ∧ (s.slot 0 0).tbud = 0 := by decide
theorem witness_StreamRefill : (getQ queued 4).mode = .stream ∧ (getQ queued 4).ents.length + (getQ queued 4).flight.length < 4 ∧ queueMatch queued 0 4 false true = false := by decide +kernel

/-! ### Events of the memory side, faults, descriptors, debug -/

theorem witness_PostedStoreAck : posting.posted[0]? = some post0 ∧ post0.eff = .bytes 0x0200000000000000 [1, 2] false ∧ toRemote post0 = false
    ∧ inOrder posting post0 [] posting.posted = true ∧ locateWrite posting post0 [(0x0200000000000000, 2)] = .ok [⟨span (vaultKey 0 0) 2, [], false, none⟩]
    ∧ PlainPlace ⟨span (vaultKey 0 0) 2, [], false, none⟩ 2 := ⟨by decide, rfl, by decide, by decide, rfl, by decide, by decide, by decide, rfl⟩
/-- A store into the page object, whose page is absent, or present in a frame of the partition, or outside it. -/
def post1 : Posted := { post0 with desc := ⟨0x85F0000000001000, 0x10000, 0, 0⟩, cls := 1, eff := .bytes 0x0230000000000010 [1, 2] false }
def paged (e : Nat) : State := { world with mem := writeKeys [] (span 0x10000 8) (bytesOf 8 e) }
theorem witness_PostedStoreAck_absent : ∃ t, locateWrite world post1 [(0x0230000000000010, 2)] = .error (.absent 0 0 16, t) := ⟨_, rfl⟩
theorem witness_PostedStoreAck_refused : ∃ t, locateWrite (paged 0xC000000003) post1 [(0x0230000000000010, 2)] = .error (.refused 16, t) := ⟨_, rfl⟩
theorem witness_PostedStoreLoss : bits ({ post0 with desc := ⟨0x89F0000000001000, 0, 0, 0⟩ } : Posted).desc.w0 57 3 = 4 := by decide
theorem witness_HeldWriteRelease : locateWrite (paged 0x20003) post1 [(0x0230000000000010, 2)] = .ok [⟨span 0x20010 2, [0x10000], false, none⟩]
    ∧ PlainPlace ⟨span 0x20010 2, [0x10000], false, none⟩ 2 := ⟨rfl, by decide, by decide, by decide, rfl⟩
theorem witness_RemoteRefusal : toRemote { post0 with desc := ⟨0x8BF0000000001000, 1, 0, 0⟩ } = true := by decide
theorem witness_WakesAndResponses : ((onSlot0 fun l => { l with wait := .fullEmpty [0] }).slot 0 0).wait = .fullEmpty [0] ∧ ((withPend world (.ld16 8 2)).slot 0 0).pend = some (.ld16 8 2)
    ∧ ((withPend world (.ld16 8 2)).slot 0 0).rep = none := by decide
theorem witness_BarrierArrival : CellOf (withPend world (.bara 5 20 3)) 0 0 ctx0 ∧ ((withPend world (.bara 5 20 3)).slot 0 0).pend = some (.bara 5 20 3) ∧ ctx0.unloaded = false :=
  ⟨⟨by decide, by decide⟩, by decide, rfl⟩
theorem witness_EcallHandover : let w : List Word := [0, 0, 0, msgId bootActivation, 0, 0, 0, 0]
    (w.getD 0 0).toNat = 0 ∧ (w.getD 1 0).toNat = 0 ∧ msgId bootActivation = w.getD 3 0 := by decide
theorem witness_DescriptorCacheFill : (∀ e ∈ (world.cell 0).dcache, e.1 ≠ 4095) ∧ 32 ≤ 4095 ∧ 4095 < 4096 := by decide
theorem witness_InboundRemoteAccess : let v : View := ⟨some 0, none, 0, false, true⟩
    ∃ t, checkRef world v 0x0200000000000FF8 8 17 10 = .ok t ∧ InMemory t ∧ locate world v t 8 false = .ok ⟨span (vaultKey 0 0xFF8) 8, [], false, none⟩ :=
  ⟨_, rfl, .inl ⟨0, rfl⟩, rfl⟩
theorem witness_InboundRemoteAccess_refused : ∃ h, checkRef world ⟨some 0, none, 0, false, true⟩ 0x0200000000000FF9 8 18 11 = .error h := ⟨_, rfl⟩

/-- Slot 0 is parked on page 0 of object 35, whose entry is present; the fault record names it. -/
def parked : State :=
  let s := { paged 0x20003 with inp := { idx := 35, agent := .slot 0 0 }, faults := [(0, { FaultBuf.reset with recs := [[word (35 * 2 ^ 26), 0, 0, 0]], head := 1 })] }
  s.setSlot 0 0 { s.slot 0 0 with status := .parked 5 false (some (0, 35, 0)) }
theorem witness_FaultService : (parked.fault 0).recs = [[word (35 * 2 ^ 26), 0, 0, 0]] ∧ (parked.fault 0).head = (parked.fault 0).tail + 1 ∧ recordAgent 0 = .slot 0 0
    ∧ recordPage [word (35 * 2 ^ 26), 0, 0, 0] = (0, 35, 0) ∧ pageReady parked (0, 35, 0) = true ∧ (parked.slot 0 0).status = .parked 5 false (some (0, 35, 0)) := by decide +kernel
theorem witness_FaultService_resumes : MayResume parked 0 0 ∧ NoStream parked 0 0 :=
  ⟨⟨.inl (by decide), by decide, by decide, fun t m n h => Gang.noConfusion (show Gang.none = .joining t m n from h), fun r x j y h k => by
    obtain ⟨a, b⟩ := h
    have e : r = 0 := Option.some.inj (a.symm.trans (show (parked.cell 0).ctx = some 0 by decide))
    subst e
    have e : x = ctx0 := Option.some.inj (b.symm.trans (show parked.ctx 0 = some ctx0 by decide))
    subst e
    exact nomatch (show (none : Option Nat) = some j from k)⟩, by unfold NoStream; decide⟩
theorem witness_FaultRetry : samePage parked (pageNamed parked) (0, 35, 0) = true ∧ pageReady parked (pageNamed parked) = true ∧ pageReady world (0, 35, 0) = false := by decide +kernel
theorem witness_Migration : leafOf (paged 0x20003) (0, 35, 0) = some (0x20000, 0x10000, 0, 0x20003) ∧ bit (0x20003 : Word) 7 = false ∧ bit (0x20083 : Word) 7 = true
    ∧ leafOf (paged 0x20083) (0, 35, 0) = some (0x20000, 0x10000, 0, 0x20083) ∧ inPartition ctx0.parts 0x30000 (pageSize 0) = true := by decide +kernel
theorem witness_Migration_tables : KeepsTables (paged 0x20003) 0x10000 0x20083 ∧ KeepsTables (paged 0x20083) 0x10000 0x20003 :=
  ⟨fun _ => by decide +kernel, fun _ => by decide +kernel⟩
theorem witness_Migration_memory : Memory.wf (paged 0x20083).mem := by
  refine ⟨by decide, by decide⟩
theorem witness_DescriptorEvents : descAllowed world 0 ctx0 ⟨0x83F0000000001000, 0, 0, 0⟩ = true ∧ configLocked world 0 = false ∧ configLocked (world.setIface 0 { Iface.reset with tdisp := 1 }) 0 = true ∧ bit (ctx0.objs.getD 32 Desc.zero).w0 63 = true ∧ bit (Desc.zero).w0 63 = false := by decide
theorem witness_DescriptorEvents_tables : tablesApart (world.onCtx 0 fun y => { y with objs := y.objs.put 35 ⟨0x05F0000000001000, 0x10000, 0, 1⟩ }) = true := by decide +kernel
theorem witness_DebugEvents : (world.cell 0).stop = .no ∧ ((joining.setCell 1 { joining.cell 1 with stop := .stopping 0 }).cell 1).stop = .stopping 0
    ∧ (∀ l ∈ (world.cell 1).slots.toList, l.status ≠ .running) ∧ ∃ l ∈ (world.cell 0).slots.toList, l.status = .running := by
  refine ⟨by decide, by decide, by decide, slot0, by decide +kernel, rfl⟩
theorem witness_TraceSample : let a : Activation := { bootActivation with dbg := 0x8000000000008000 }
    bit a.dbg 15 = true ∧ takesHost world = true ∧ (world.cell 0).stop = .no ∧ samplePeriod { a with dbg := 0x00000100000F8000 } = 1
    ∧ (world.cell 0).sampled.getD 0 0 + 1000 * samplePeriod { a with dbg := 0x00000100000F8000 } ≤ { world with time := 1000 }.time.toNat ∧ bits (ctx0.objs.getD 32 Desc.zero).w0 57 3 = 1 ∧ (bits (ctx0.objs.getD 32 Desc.zero).w0 0 52 - 64) / 64 = 63 := by decide

/-! ### Engine harts -/

/-- A layout of 4 rows of 16 INT32 elements from an oref on. -/
def rowAt (o : Nat) : Vec := (0x10000 + 7 * 2 ^ 11 + 0x30 : BitVec 64) ++ (0 : BitVec 128) ++ (16 : BitVec 64) ++ (1 : BitVec 64) ++ (0x0000000100000001 : BitVec 64)
  ++ (0x0000000400000010 : BitVec 64) ++ BitVec.ofNat 64 o
/-- A command block of OP `op` on layouts 5 and 6 with 2 tuples, coordinates 0, its mailbox at offset 0xF00 of object 32, the index or member list at 0xE00. -/
def blockOf (op w0 aux : Nat) : List Word :=
  [word (op + 5 * 2 ^ 8 + 6 * 2 ^ 14 + w0), 0, 0, 0x0001000100010002, 0x0200000000000F00, word aux, 0, 0x77]
/-- Context 0 with those layouts and its command object, 37, on each die. -/
def ctxE : Context :=
  { ctx0 with
    objs := objs ++ [(37, ⟨0x83F0000000001000, 0x1000000, 0, 0⟩)], blocks := List.replicate 4 0x0250000000000000
    lays := [(5, rowAt 0x0200000000000000), (6, rowAt 0x0200000000000100)] }
/-- A kick of block 0. -/
def kick0 : Kick := ⟨0, .slot 0 0, 0, false, 0, none, none⟩
/-- Hart (0, h) with that kick at its head, its block in memory, and bytes `l` at offset 0xE00 of object 32. -/
def kicked (h : Nat) (b : List Word) (l : List Byte) : State :=
  { world.setHart 0 h { Hart.reset with fifo := [kick0] } with
    ctxs := [(0, ctxE)], inp := { die := 0, hart := h }
    mem := writeKeys (writeKeys [] (span (vaultKey 1 0) 64) (wordBytes b)) (span (vaultKey 0 0xE00) l.length) l }
/-- The mailbox's place. -/
def boxTarget : Target := ⟨.vault 0, 0, 0x1000, 31, 32, 0xF00, ⟨0x83F0000000001000, 0, 0, 0⟩⟩
/-- The mailbox's bytes. -/
def box : List Nat := span (vaultKey 0 0xF00) 8

/-- A posted kick store of slot 0 of cell 0 to hart 1 of die 0, block 0 or another. -/
def kickStore (v : Word) : Posted := { post0 with cls := 2, eff := .kick 0 1 v, rel := true }
theorem witness_EngineKicks : let s := { kicked 0 (blockOf 0 0 0) [] with posted := [kickStore 0], inp := {} }
    s.posted[s.inp.idx]? = some (kickStore 0) ∧ (s.hart 0 1).kickStop = none ∧ (s.hart 0 1).waiting = [] ∧ (s.hart 0 1).fifo.length < 16
      ∧ inOrder s (kickStore 0) (s.posted.take s.inp.idx ++ s.held) (s.posted ++ s.held) = true := by decide +kernel
theorem witness_EngineKicks_check : let s := { kicked 0 (blockOf 0 0 0) [] with inp := {} }
    (∃ r, kickCheck s 0 1 (kickOf (kickStore 0) 0) 0 = .ok r) ∧ kickCheck s 0 1 (kickOf (kickStore 64) 64) 64 = .error (.sub 3 none, ([], []))
      ∧ kickCheck s 0 1 (kickOf (kickStore 0x10000) 0x10000) 0x10000 = .error (.sub 1 none, ([], [])) := ⟨⟨_, rfl⟩, rfl, rfl⟩
theorem witness_EngineKicks_full : let s := world.setHart 0 0 { Hart.reset with fifo := List.replicate 16 kick0, waiting := [kick0] }
    16 ≤ (s.hart 0 0).fifo.length ∧ (s.hart 0 0).waiting = kick0 :: [] := by decide
theorem witness_EngineKicks_room : let s := world.setHart 0 0 { Hart.reset with waiting := [kick0] }
    (s.hart 0 0).waiting = kick0 :: [] ∧ (s.hart 0 0).fifo.length < 16 := by decide

theorem witness_AtHead {h op w0 aux : Nat} {l : List Byte} (hf : ((kicked h (blockOf op w0 aux) l).hart 0 h).fifo = [kick0] ∧ ((kicked h (blockOf op w0 aux) l).hart 0 h).stopped = none)
    (hb : readBlock (kicked h (blockOf op w0 aux) l) 0 h kick0 = .ok (blockOf op w0 aux, [], []))
    (hm : checkRef (kicked h (blockOf op w0 aux) l) (kickView (kicked h (blockOf op w0 aux) l) kick0) (blkWord (blockOf op w0 aux) 4) 8 2 7 = .ok boxTarget) :
    AtHead (kicked h (blockOf op w0 aux) l) (kicked h (blockOf op w0 aux) l) 0 h kick0 [] (blockOf op w0 aux) box :=
  ⟨rfl, rfl, hf.1, hf.2, rfl, ⟨([], []), hb, rfl⟩, ⟨boxTarget, hm, .inr ⟨0, rfl⟩, by decide +kernel⟩, by intro q hq; exact nomatch hq⟩
theorem witness_EngineCopies :
    AtHead (kicked 0 (blockOf 1 0 0) []) (kicked 0 (blockOf 1 0 0) []) 0 0 kick0 [] (blockOf 1 0 0) box ∧ AtHead (kicked 0 (blockOf 0 0 0) []) (kicked 0 (blockOf 0 0 0) []) 0 0 kick0 [] (blockOf 0 0 0) box
    ∧ AtHead (kicked 16 (blockOf 8 0 0x0200000000000E00) [3, 0, 0, 0]) (kicked 16 (blockOf 8 0 0x0200000000000E00) [3, 0, 0, 0]) 0 16 kick0 [] (blockOf 8 0 0x0200000000000E00) box := by
  refine ⟨witness_AtHead ?_ ?_ ?_, witness_AtHead ?_ ?_ ?_, witness_AtHead ?_ ?_ ?_⟩ <;> decide +kernel

/-- The layouts of the block, as its hart reads them. -/
def laysE : List Vec := [rowAt 0x0200000000000000, rowAt 0x0200000000000100]
/-- The elements of layouts 5 and 6 that a walk of two tuples meets. -/
def itemsOf (op : Nat) (idx : List Nat) (s : State) (b : List Word) : List Item × Option (EHalt × List (List Nat)) :=
  items s (kickView s kick0) b (rowAt 0x0200000000000000) (rowAt 0x0200000000000100) op (if op = 2 then 3 else 2) idx (tuples b)
theorem present_of {s : State} {v : View} {wr : Bool} {w : Nat} {l : List ElemRef}
    (h : ∀ x ∈ l, isRemoteHome x.t = false ∧ (locate s v x.t (elemBytes w) wr).toOption.any (fun a => a.key.isNone && a.keys.length == elemBytes w && decide a.keys.Nodup) = true) :
    Present s v wr w l := fun x hx => ⟨(h x hx).1, by
  have e := (h x hx).2
  revert e
  cases locate s v x.t (elemBytes w) wr with
  | error _ => intro e; exact nomatch e
  | ok a =>
    intro e
    have e : (a.key.isNone = true ∧ a.keys.length = elemBytes w) ∧ a.keys.Nodup := by simpa [Except.toOption] using e
    exact ⟨a, rfl, Option.isNone_iff_eq_none.mp e.1.1, e.1.2, e.2⟩⟩
theorem apart_of {s : State} {v : View} {w : Nat} {l : List ElemRef} (h : l.Pairwise fun x y => ∀ a ∈ partKeys s v true w x, a ∉ partKeys s v true w y) : Apart s v w l :=
  h.imp fun h => .inl h
/-- What the copying operations ask of the elements of a walk of two tuples. -/
def Copied (s : State) (l : List Item) : Prop :=
  l.length = 2 ∧ Present s (kickView s kick0) false 32 (l.map (·.src)) ∧ Clean s (kickView s kick0) false 32 (l.map (·.src)) ∧ Present s (kickView s kick0) true 32 (l.map (·.dst))
    ∧ Clean s (kickView s kick0) true 32 (l.map (·.dst)) ∧ Apart s (kickView s kick0) 32 (l.map (·.dst)) ∧ Separate s (kickView s kick0) 32 (l.map (·.dst)) [] box
    ∧ leavesOf s (kickView s kick0) false 32 (l.map (·.src)) ++ leavesOf s (kickView s kick0) true 32 (l.map (·.dst)) = []
theorem witness_EngineCopies_copy : let b := blockOf 1 0 0
    let s := kicked 0 b []
    blkOp b = 1 ∧ blockLegal 0 b = true ∧ headLays s 0 0 kick0 b = laysE ∧ opLayouts s (kickView s kick0) b laysE = .ok (rowAt 0x0200000000000000, rowAt 0x0200000000000100)
      ∧ (itemsOf 1 [] s b).2 = none ∧ Copied s (itemsOf 1 [] s b).1 := by
  refine ⟨by decide +kernel, by decide +kernel, by decide +kernel, by decide +kernel, by decide +kernel, by decide +kernel, present_of ?_, ?_, present_of ?_, ?_, apart_of ?_, ?_, ?_⟩
  all_goals first | decide +kernel | (unfold Clean; decide +kernel) | (unfold Separate; decide +kernel)
theorem witness_EngineCopies_gather : let b := blockOf 8 0 0x0200000000000E00
    let s := kicked 16 b [3, 0, 0, 0]
    blockLegal 16 b = true ∧ eWords s (.hart 0 16) (kickView s kick0) (blkWord b 5) (blkN b 1) 4 = .ok ([3], [], []) ∧ (itemsOf 8 [3] s b).2 = none ∧ Copied s (itemsOf 8 [3] s b).1 := by
  refine ⟨by decide +kernel, by decide +kernel, by decide +kernel, by decide +kernel, present_of ?_, ?_, present_of ?_, ?_, apart_of ?_, ?_, ?_⟩
  all_goals first | decide +kernel | (unfold Clean; decide +kernel) | (unfold Separate; decide +kernel)
theorem witness_EngineReductions : let b := blockOf 2 (2 * 2 ^ 24) 0
    let s := kicked 0 b []
    readBlock s 0 0 kick0 = .ok (b, [], []) ∧ blkOp b = 2 ∧ blockLegal 0 b = true ∧ blkOrd b = false ∧ (s.ctx kick0.ctx).isSome = true
      ∧ opLayouts s (kickView s kick0) b laysE = .ok (rowAt 0x0200000000000000, rowAt 0x0200000000000100) ∧ (itemsOf 2 [] s b).2 = none ∧ Copied s (itemsOf 2 [] s b).1 := by
  refine ⟨by decide +kernel, by decide +kernel, by decide +kernel, by decide +kernel, by decide +kernel, by decide +kernel, by decide +kernel, by decide +kernel, present_of ?_, ?_, present_of ?_, ?_,
    apart_of ?_, ?_, ?_⟩
  all_goals first | decide +kernel | (unfold Clean; decide +kernel) | (unfold Separate; decide +kernel)
/-- The block of an ordered group of one contribution. -/
def ordered : List Word := blockOf 2 (2 * 2 ^ 24 + 2 ^ 23 + 2 ^ 40) 0
/-- That contribution. -/
def contribution : Contribution := ⟨kick0, ordered, laysE, none⟩
theorem witness_EngineReductions_ordered : let s := kicked 0 ordered []
    readBlock s 0 0 kick0 = .ok (ordered, [], []) ∧ blockLegal 0 ordered = true ∧ blkOrd ordered = true ∧ (s.hart 0 24).groups = []
      ∧ opLayouts s (kickView s kick0) ordered (headLays s 0 0 kick0 ordered) = .ok (rowAt 0x0200000000000000, rowAt 0x0200000000000100) := by decide +kernel
/-- Hart 24 with the open group of that contribution. -/
def grouped : State := { (kicked 0 ordered []).setHart 0 24 { Hart.reset with groups := [(0, 0, [contribution])] } with inp := { die := 0, ctx := 0, idx := 0 } }
theorem witness_OrderedGroupCompletes : (grouped.hart 0 24).groups.find? (fun g => g.1 == 0 && g.2.1 == 0) = some (0, 0, [contribution]) ∧ (grouped.hart 0 24).stopped = none
    ∧ (grouped.hart 0 24).late = [] ∧ sorted grouped [contribution] = [contribution] ∧ blkNcon contribution.block ≤ 1 ∧ blkOp contribution.block = 2
    ∧ (∃ L, allSources grouped (.hart 0 24) [contribution] = .ok L ∧ (∀ e ∈ L, ∀ y ∈ e.2, y.2.1 = false ∧ y.2.2.leaves = [])) ∧ [box].flatten.Nodup := by
  refine ⟨by decide +kernel, by decide +kernel, by decide +kernel, by decide +kernel, by decide +kernel, by decide +kernel, ⟨_, rfl, by decide +kernel⟩, by decide +kernel⟩
theorem witness_OrderedGroupCompletes_elements : (itemsOf 2 [] grouped ordered).2 = none ∧ Copied grouped (itemsOf 2 [] grouped ordered).1 := by
  refine ⟨by decide +kernel, by decide +kernel, present_of ?_, ?_, present_of ?_, ?_, apart_of ?_, ?_, ?_⟩
  all_goals first | decide +kernel | (unfold Clean; decide +kernel) | (unfold Separate; decide +kernel)
theorem witness_MailboxAt : MailboxAt grouped 0 24 contribution.kick contribution.block box :=
  ⟨⟨boxTarget, by decide +kernel, .inr ⟨0, rfl⟩, by decide +kernel⟩, by intro q hq; exact nomatch hq⟩
/-- The block of member 0 of a collective of two contexts of die 0. -/
def member (op : Nat) : List Word := blockOf op (2 * 2 ^ 24 + 2 * 2 ^ 40) 0x0200000000000E00
/-- The state where that block is at the head of hart 24. -/
def entering : State := kicked 24 (member 0x10) (wordBytes [0, 2048])
theorem witness_Collectives : let b := member 0x10
    readBlock entering 0 24 kick0 = .ok (b, [], []) ∧ blockLegal 24 b = true ∧ memberList entering (.hart 0 24) kick0 b = .ok ([(0, 0, 0), (0, 0, 1)], [], []) ∧ blkMe b = 0
      ∧ membersHere entering 0 (0, 0, 0) [(0, 0, 0), (0, 0, 1)] = [] ∧ (entering.hart 0 24).members = []
      ∧ (entering.hart 0 24).fifo = [kick0] ∧ microLegal entering.fw.micro entering.fw.micro.length = true
      ∧ opLayouts entering (kickView entering kick0) b (headLays entering 0 24 kick0 b) = .ok (rowAt 0x0200000000000000, rowAt 0x0200000000000100) := by
  refine ⟨by decide +kernel, by decide +kernel, rfl, by decide +kernel, rfl, by decide +kernel, by decide +kernel, rfl, by decide +kernel⟩
theorem witness_Collectives_reach : let s := { entering with ctxs := [(0, { ctxE with grants := [(1, (0, 1, 0))] })] }
    ∀ m ∈ [((0 : Nat), (0 : Nat), (0 : Nat)), (0, 0, 1)], m.1 = s.devId.toNat ∧ reachable s kick0.ctx m = true := by decide +kernel
/-- Contexts 0 and 1, which share the objects here, have each entered a member of one collective. -/
def c0 (op : Nat) : Contribution := ⟨kick0, member op, laysE, none⟩
def c1 (op : Nat) : Contribution :=
  ⟨{ kick0 with ctx := 1 }, (blockOf op (2 * 2 ^ 24 + 2 * 2 ^ 40 + 2 ^ 48) 0x0200000000000E00).set 4 0x0200000000000F10, [rowAt 0x0200000000000200, rowAt 0x0200000000000300], none⟩
def collected (op : Nat) : State :=
  let x := { ctxE with grants := [(1, (0, 1, 0)), (2, (0, 0, 0))] }
  let s := { kicked 24 (member op) (wordBytes [0, 2048]) with ctxs := [(0, x), (1, x)] }
  (s.setHart 0 24 { Hart.reset with members := [c0 op] }).setHart 0 25 { Hart.reset with members := [c1 op] }
theorem witness_Collectives_complete : Complete (collected 0x10) (c0 0x10) [(0, 0, 0), (0, 0, 1)] [(0, 24, c0 0x10), (0, 25, c1 0x10)] where
  here := by decide +kernel
  length := by decide
  entered := by
    intro i m h
    match i, h with
    | 0, h => cases h; exact ⟨(24, c0 0x10), by decide +kernel, by decide +kernel⟩
    | 1, h => cases h; exact ⟨(25, c1 0x10), by decide +kernel, by decide +kernel⟩
  agree := by decide +kernel
  unsent := by decide +kernel
  unfailed := by decide +kernel
  own := ⟨(0, 24, c0 0x10), by decide +kernel, rfl⟩
/-- The elements of a member's walk of its source. -/
def sourceElems (s : State) (m : Contribution) : List ElemRef :=
  match collElems s (kickView s m.kick) (m.lays.getD 0 0) (blkWord m.block 1) m.block (blkN m.block 1) 0 1 with | .ok x => x | .error _ => []
theorem sourceOf {s : State} {m : Nat × Nat × Contribution} {es ed : Vec} (hl : opLayouts s (kickView s m.2.2.kick) m.2.2.block m.2.2.lays = .ok (es, ed))
    (hx : collElems s (kickView s m.2.2.kick) es (blkWord m.2.2.block 1) m.2.2.block (blkN m.2.2.block 1) 0 1 = .ok (sourceElems s m.2.2))
    (hp : Present s (kickView s m.2.2.kick) false 32 (sourceElems s m.2.2)) (hc : Clean s (kickView s m.2.2.kick) false 32 (sourceElems s m.2.2)) (hw : fmtWidth (layFmt es) = 32) :
    SourceOf s 32 m ((sourceElems s m.2.2).map fun x => partAt s 32 x (partKeys s (kickView s m.2.2.kick) false 32 x)) (leavesOf s (kickView s m.2.2.kick) false 32 (sourceElems s m.2.2)) :=
  ⟨es, ed, _, hl, hx, hp, hc, hw, rfl, rfl⟩
theorem witness_Collectives_sources : ∀ m ∈ [(0, 24, c0 0x10), (0, 25, c1 0x10)], ∃ vals lv, SourceOf (collected 0x10) 32 m vals lv ∧ vals.length = 2 ∧ lv = [] := by
  intro m hm
  rcases List.mem_cons.mp hm with h | h
  · subst h
    refine ⟨_, _, sourceOf (es := rowAt 0x0200000000000000) (ed := rowAt 0x0200000000000100) ?_ ?_ (present_of ?_) ?_ ?_, ?_, ?_⟩
    all_goals first | decide +kernel | (unfold Clean; decide +kernel)
  · obtain h := List.mem_singleton.mp h
    subst h
    refine ⟨_, _, sourceOf (es := rowAt 0x0200000000000200) (ed := rowAt 0x0200000000000300) ?_ ?_ (present_of ?_) ?_ ?_, ?_, ?_⟩
    all_goals first | decide +kernel | (unfold Clean; decide +kernel)
theorem witness_Collectives_writes : (∃ x, collWrite (collected 0x10) (c0 0x10) [[1, 2], [3, 4]] = .ok x ∧ x.1.map (·.2) = [4, 6])
    ∧ (∃ x, collWrite (collected 0x12) (c0 0x12) [[1, 2], [3, 4]] = .ok x) := ⟨⟨_, rfl, by decide +kernel⟩, ⟨_, rfl⟩⟩
/-- What the two members write. -/
def writesOf (c : Contribution) : MemberWrites :=
  (kickView (collected 0x10) c.kick, match collWrite (collected 0x10) c [[1, 2], [3, 4]] with | .ok x => x.1 | .error _ => [])
theorem witness_Collectives_writable : Writable (collected 0x10) 32 true [writesOf (c0 0x10), writesOf (c1 0x10)] [] (box ++ span (vaultKey 0 0xF10) 8) := by
  refine ⟨?_, by decide +kernel⟩
  intro x hx
  rcases List.mem_cons.mp hx with h | h
  · subst h
    refine ⟨present_of ?_, fun _ => ?_, apart_of ?_, ?_⟩
    all_goals first | decide +kernel | (unfold Clean; decide +kernel) | (unfold Separate; decide +kernel)
  · obtain h := List.mem_singleton.mp h
    subst h
    refine ⟨present_of ?_, fun _ => ?_, apart_of ?_, ?_⟩
    all_goals first | decide +kernel | (unfold Clean; decide +kernel) | (unfold Separate; decide +kernel)
theorem witness_Collectives_boxes : MailboxAt (collected 0x10) 0 25 (c1 0x10).kick (c1 0x10).block (span (vaultKey 0 0xF10) 8) :=
  ⟨⟨{ boxTarget with off := 0xF10 }, by decide +kernel, .inr ⟨0, rfl⟩, by decide +kernel⟩, by intro q hq; exact nomatch hq⟩

/-! ### Sarrun commands -/

/-- Queue 3: mapped, READY, privileged, of context 0 and die 0, with some registers. -/
def queue3 : Queue :=
  { Queue.reset with
    state := 1, map := true, priv := true, tail := 8, lsz := 4, base := 0x0200000000000800, wto := 1
    c := (((Vector.replicate 16 0).setIfInBounds 1 0x0200000000000100).setIfInBounds 2 5).setIfInBounds 4 4096 }
/-- The world on that queue. -/
def onQueue (q : Queue) : State := { world.setQueue 3 q with cur := .queue 3, inp := { queue := 3 } }
/-- Queue 3 in a buffer of 8 words at the word 2. -/
def buffered : Queue := { queue3 with lv := 1, bufs := [(0x0200000000000900, 8, 2)], calls := [] }

theorem witness_OnQueue : OnQueue (onQueue queue3) 3 queue3 ∧ OnQueue (onQueue buffered) 3 buffered ∧ Inside queue3 2 ∧ Inside buffered 2 :=
  ⟨⟨rfl, by decide⟩, ⟨rfl, by decide⟩, ⟨rfl, rfl, by intro o l i r h; exact nomatch h⟩, ⟨rfl, rfl, by intro o l i r h; cases h; decide⟩⟩
theorem witness_RegisterCommands : registerCommands queue3 (.cAdd 1 2 0 1 0xFFFFFFFF) = some (1, 1, queue3.reg 2 + 0xFFFFFFFFFFFFFFFF)
    ∧ registerCommands queue3 (.cMovw 5 0x123456789ABCDEF0) = some (2, 5, 0x123456789ABCDEF0) := ⟨rfl, rfl⟩
theorem witness_RegisterCommands_end : let q := { buffered with bufs := [(0x0200000000000900, 8, 7)] }
    OnQueue (onQueue q) 3 q ∧ q.bufs = [(0x0200000000000900, 8, 7)] ∧ 7 + 1 = 8 ∧ ∀ e ∈ q.calls, e.1 ≠ q.lv := ⟨⟨rfl, by decide⟩, rfl, rfl, by decide⟩
theorem witness_FlowCommands : branchCommands buffered (.cBeq 0 3 0xFFFFF) = some (true, -1, buffered) ∧ Int.ofNat 2 + -1 = Int.ofNat 1 ∧ 1 < 8
    ∧ branchCommands buffered (.cBeq 1 2 1) = some (false, 1, buffered) ∧ (branchCommands buffered (.cLoop 2 0xFFFFD)).map (·.2.1) = some (-3) ∧ Int.ofNat 2 + -3 < 0
    ∧ Int.ofNat 8 ≤ Int.ofNat 2 + 6 ∧ flowCommands .cRet = true ∧ queue3.lv = 0 ∧ queue3.bufs = [] := ⟨rfl, by decide, by decide, rfl, rfl, by decide, by decide, rfl, rfl, rfl⟩
theorem witness_FlowCommands_calls : 8 ≤ ({ buffered with calls := List.replicate 8 (1, 0) } : Queue).calls.length ∧ buffered.calls.length < 8
    ∧ ({ buffered with calls := [(1, 5)] } : Queue).calls = (buffered.lv, 5) :: [] ∧ 5 < 8 ∧ queue3.reg 2 ≠ 0 ∧ (queue3.reg 2).toNat ≤ 2 ^ 20
    ∧ bits (queue3.reg 1) 0 3 = 0 ∧ ({ buffered with lv := 4 } : Queue).lv = 4 := by decide

/-- The doubleword at offset 0x100 of object 32, and the sixteen bytes there. -/
theorem witness_QueuePlace : QueuePlace (onQueue queue3) 3 (queue3.reg 1) 8 1 false ⟨span (vaultKey 0 0x100) 8, [], false, none⟩
    ∧ QueuePlace (onQueue queue3) 3 (queueRef (queue3.reg 1) 0xFFFFFFF0) 8 2 true ⟨span (vaultKey 0 0xF0) 8, [], false, none⟩
    ∧ QueuePlace (onQueue queue3) 3 (queue3.reg 1) 8 11 true ⟨span (vaultKey 0 0x100) 8, [], false, none⟩
    ∧ QueuePlace (onQueue queue3) 3 (queue3.reg 1) 16 2 true ⟨span (vaultKey 0 0x100) 16, [], false, none⟩ := by
  refine ⟨?_, ?_, ?_, ?_⟩ <;> exact ⟨by decide, _, rfl, .inl ⟨0, rfl⟩, rfl, by decide, by decide, by decide, rfl⟩
theorem witness_MemoryCommands_refused : bits (queueRef (queue3.reg 1) 4) 0 3 ≠ 0 ∧ bits (queueRef (queue3.reg 2) 3) 0 3 = 0
    ∧ ∃ h, checkRef (onQueue queue3) (viewOf (onQueue queue3) (.queue 3)) (queueRef (queue3.reg 2) 3) 8 1 0 = .error h := ⟨by decide, by decide, _, rfl⟩
theorem witness_SemaphoreWaits : let s := onQueue queue3
    wordAt s ⟨span (vaultKey 0 0x100) 8, [], false, none⟩ = 0 ∧ conditionHolds 0 0 0 ∧ conditionHolds 1 5 5 ∧ conditionHolds 2 0 5 ∧ ¬ conditionHolds 0 0 5
      ∧ s.poisoned (span (vaultKey 0 0x100) 8) = false := by
  refine ⟨by decide +kernel, ⟨by decide, by decide, by decide⟩, ⟨by decide, by decide, by decide⟩, ⟨by decide, by decide, by decide⟩, fun h => absurd (h.1 rfl) (by decide), by decide⟩
theorem witness_SemaphoreWaits_report : let q := { queue3 with service := some (.cWaitsem 1 2 0 0 9 1), state := 2, waitNs := 1000000 }
    queue3.state < 2 ∧ q.state = 2 ∧ (onQueue q).inp.queue = 3 ∧ q.wto ≠ 0 ∧ q.wto * 1000000 ≤ q.waitNs ∧ ((onQueue q).queue 9).map = false ∧ (onQueue q).errRing = none ∧ q.map = true := by decide
theorem witness_WorkCommands : (onQueue queue3).ctx queue3.ctx = some ctx0 ∧ ctx0.caps.has (1 : BitVec 23).toNat = true ∧ ctx0.grid = (1 : BitVec 23).toNat
    ∧ ((onQueue queue3).caps.find (1 : BitVec 23).toNat).isSome = true ∧ ctx0.fold.v ≤ queue3.launched + 64 ∧ queue3.launched + 64 < 65 ∧ ctx0.caps.has (3 : BitVec 23).toNat = false
    ∧ (queue3.reg 2).toNat < 2 ^ 16 ∧ 2 ^ 16 ≤ (queue3.reg 1).toNat ∧ queue3.copies = 0 ∧ (0 : BitVec 11).toNat < ((onQueue queue3).iface ctx0.fn).msix
    ∧ ((onQueue queue3).iface ctx0.fn).masked.has 0 = false ∧ ((onQueue queue3).iface ctx0.fn).msix ≤ (1 : BitVec 11).toNat := by decide
theorem witness_WorkCommands_answer : ({ queue3 with service := some (.cCopy 2 1), answer := some true } : Queue).answer = some true
    ∧ ({ queue3 with service := some (.cCopy 2 1), answer := some false } : Queue).answer = some false ∧ ({ queue3 with copies := 1 } : Queue).copies ≠ 0 ∧ queue3.stalled = none ∧ ({ queue3 with stalled := some 1 } : Queue).stalled ≠ none := by decide
theorem witness_PrivilegedCommands : handedOver (.cSave 1 2 3) = true ∧ queue3.priv = true ∧ ({ queue3 with priv := false } : Queue).priv = false ∧ (queue3.reg 2).toNat < 4096
    ∧ 4096 ≤ (queue3.reg 4).toNat ∧ queue3.state = 1 ∧ (let s := (onQueue queue3).setQueue 5 { queue3 with priv := false }
      5 = (queue3.reg 2).toNat ∧ 5 ≠ 3 ∧ (s.queue 5).state = 1 ∧ (s.queue 5).service = none ∧ (s.queue 5).launched = 0) := by decide
theorem witness_PrivilegedService : let s := onQueue { queue3 with service := some (.cDelete 2 6), state := 2 }
    leadActs s = true ∧ s.inp.words = [] ∧ s.caps.find (queue3.reg 2).toNat = none ∧ s.images = [] ∧ statusReg (.cDelete 2 6) = some 6 := by decide
theorem witness_PrivilegedService_delete : let g := { cap1 [] with state := 1 }
    let s := { onQueue { queue3 with service := some (.cDelete 2 6), state := 2 } with caps := [(1, cap1 []), (5, g)], cells := [] }
    s.caps.find (queue3.reg 2).toNat = some g ∧ g.state ≠ 0 ∧ g.state ≠ 3 ∧ (∀ c ∈ s.ctxs, c.2.caps.has (queue3.reg 2).toNat = false)
      ∧ (∀ p ∈ s.cells, ∀ l ∈ p.2.slots.toList, l.act = none) ∧ ({ g with state := 4 } : Capsule).state = 4 ∧ ({ g with state := 2 } : Capsule).state = 2 := by decide +kernel
theorem witness_PrivilegedService_result : ({ queue3 with service := some (.cSave 1 2 6), result := some (9, 0) } : Queue).result = some (9, 0) ∧ 9 < 256 := by decide
theorem witness_CommandEngineSelects : let s := onQueue queue3
    s.inp.die = 0 ∧ (s.engine 0).serving = none ∧ servable s 0 3 = true ∧ (∃ e ∈ s.queues, servable s 0 e.1 = true) ∧ ((s.setEngine 0 ⟨some 3, 0, 0⟩).engine 0).serving = some 3
      ∧ ((s.setEngine 0 ⟨some 3, 0, 0⟩).engine 0).served < 64 ∧ (∀ e ∈ world.queues, servable world 0 e.1 = false) :=
  ⟨rfl, by decide, by decide, ⟨(3, queue3), by decide, by decide⟩, by decide, by decide, by decide⟩

/-! ### Capsules and the host -/

/-- Capsule 1 with a body of eight bytes, in another state. -/
def capIn (st : Nat) : Capsule := { cap1 (List.replicate 8 0) with state := st }
/-- The world with capsule 1 so, and an input about it. -/
def capWorld (st : Nat) (x : Input) : State := { world with caps := [(1, capIn st)], inp := { x with cap := 1 } }

theorem witness_CodePages : let s := capWorld 1 {}
    s.caps.find s.inp.cap = some (capIn 1) ∧ s.inp.die < 4 ∧ (capIn 1).state = 1 ∧ 4096 * s.inp.idx < (capIn 1).body.bytes.length ∧ s.inp.flag = false ∧ s.inp.sel = none
      ∧ (∃ e ∈ s.ctxs, e.2.caps.has s.inp.cap = true) ∧ s.errRing = none := by decide +kernel
theorem witness_RebuildAndFirmware : (capWorld 3 {}).caps.find 1 = some (capIn 3) ∧ (mernerPages ({ capIn 3 with list := [], hashes := (mernerPages []).map Config.sha512 } : Capsule).list).map Config.sha512
      = ({ capIn 3 with list := [], hashes := (mernerPages []).map Config.sha512 } : Capsule).hashes ∧ (∀ e ∈ State.reset.cells, ∀ l ∈ e.2.slots.toList, l.status ≠ .running)
    ∧ (∃ e ∈ world.cells, ∃ l ∈ e.2.slots.toList, l.status = .running) ∧ (∀ e ∈ world.caps, e.2.state ≠ 3 ∧ e.2.state ≠ 0) ∧ takesHost State.reset = true ∧ takesHost world = true :=
  ⟨rfl, rfl, fun e h => (nomatch h), ⟨(0, world.cell 0), by decide +kernel, slot0, by decide +kernel, rfl⟩, by decide, by decide, by decide⟩

/-- The world with an input about queue 3. -/
def hostQueue (q : Queue) (x : Input) : State := { world.setQueue 3 q with inp := { x with queue := 3 } }
theorem witness_QueueRecords : (hostQueue queue3 { word := 12 }).queue 3 = queue3 ∧ queue3.state ≠ 0 ∧ isDetached (hostQueue queue3 {}) queue3.ctx = false ∧ doorbellWaits (hostQueue queue3 {}) = false
    ∧ ((12 : Word).setWidth 32 - queue3.head).toNat ≤ 2 ^ queue3.lsz ∧ 2 ^ queue3.lsz < ((17 : Word).setWidth 32 - queue3.head).toNat ∧ queue3.service = none ∧ Queue.reset.state = 0
    ∧ 0 < (hostQueue queue3 {}).fw.epoch ∧ 7 ≠ queue3.version.toNat ∧ 2 < 6 ∧ 2 ≠ 3 % 4 := by
  decide
theorem witness_QueueControl : let s := hostQueue { queue3 with map := false } { sel := some 1 }
    takesHost s = true ∧ isDetached s queue3.ctx = false ∧ (s.queue 3).state ≠ 0 ∧ (s.queue 3).map = false ∧ s.inp.sel = some 1 ∧ mappedTo s 1 < 128 ∧ queue3.map = true ∧ queue3.launched = 0 := by decide
theorem witness_QueueControl_full : 128 ≤ mappedTo { world with queues := (List.range 128).map fun i => (i + 4, { queue3 with eng := 1 }) } 1 := by decide +kernel
theorem witness_QueueControl_faulted : ({ queue3 with state := 4, fcode := 5 } : Queue).state = 4 ∧ ({ queue3 with state := 4, fcode := 5 } : Queue).fcode ≠ 14 ∧ queue3.bufs = []
    ∧ ({ queue3 with state := 3 } : Queue).state = 3 ∧ ({ queue3 with state := 2, service := some (.cWaitsem 1 2 0 0 9 1) } : Queue).service = some (.cWaitsem 1 2 0 0 9 1) := by decide
theorem witness_LeaseOfTheLead : world.fw.lead = some 0 ∧ (world.dfc 0).alive = true ∧ (let s := { world.setDfc 1 { Dfc.reset with lease := 10000000 } with inp := { die := 1 } }
    s.inp.die = 1 ∧ (s.dfc 1).alive = true ∧ s.fw.lead ≠ some 1 ∧ s.fw.former ≠ some 1 ∧ s.inp.n = 0 ∧ (s.dfc 1).lapsed = false ∧ 10000000 ≤ (s.dfc 1).lease ∧ (world.dfc 1).lease < 10000000
      ∧ ∀ e < 1, (s.dfc e).alive = true → s.fw.lead = some e ∨ s.fw.former = some e) ∧ 10000000 ≤ ({ world.fw with sinceRenewal := 10000000 } : Firmware).sinceRenewal ∧ world.fw.sinceRenewal < 10000000 := by decide
/-- A context that asks for cell 8 and a partition of HBM. -/
def spec1 : CtxSpec := ⟨0, [8], [(0, 0x1000)], 512, 0, 65536, 512, 0, 0, 0, 0, [0, 0, 0, 0]⟩
theorem witness_ContextLife : world.sec.recovery = false ∧ 5 < 1024 ∧ takesHost world = true ∧ specAllowed spec1 = true ∧ (∀ c ∈ spec1.cells, c < 3072 ∧ cellPowered world c = true) ∧ world.ctx 5 = none ∧ (∀ c ∈ spec1.cells, (world.cell c).ctx = none)
    ∧ world.ctx 0 = some ctx0 ∧ ∀ p ∈ world.held, p.ctx ≠ 0 := by decide
theorem witness_HostInstructions : leadActs world = true ∧ tableAddr 0x10000 = true ∧ (∀ e ∈ world.fw.waiting, e.1 ≠ 7) ∧ world.ctx 0 = some ctx0 ∧ world.fw.answered.has 7 = false ∧ ({ world.fw with answered := [7] } : Firmware).answered.has 7 = true
    ∧ (∀ j ∈ world.jobs, j.2.phase ≠ 6) := by decide
theorem witness_HostInstructions_mask : let x := { ctx0 with vpes := [(0, { Vpe.reset with amask := 8, queues := [(3, [msg3])], used := 1 })] }
    (x.vpe 0).amask.getLsbD 3 = true ∧ (x.vpe 0).queues.getD 3 [] = msg3 :: [] := by decide
theorem witness_FirmwareWrites : takesHost world = true ∧ world.ctx 0 = some ctx0 ∧ configLocked world 0 = false ∧ configLocked (world.setIface 0 { Iface.reset with tdisp := 2 }) 0 = true ∧ (world.sec.spdm && world.sec.attested) = false ∧ 3 < 16 ∧ 1 < 3072 ∧ 3 < 4 ∧ 95 < 96 ∧ 255 < 256 := by decide
theorem witness_HostMemoryRequests : let s := { world with inp := { word := 0x0200000000000010, access := .read 4 } }
    s.ctx 0 = some ctx0 ∧ ctx0.fn = s.inp.fn ∧ ctx0.detached = false ∧ s.sec.recovery = false ∧ (s.iface s.inp.fn).tdisp = 0 ∧ 32 ≤ bits s.inp.word 52 12
      ∧ s.poisoned (span (vaultKey 0 16) 4) = false ∧ (∃ t, checkRef s ⟨some 0, none, 0, false, true⟩ s.inp.word 4 1 8 = .ok t ∧ InMemory t
        ∧ locate s ⟨some 0, none, 0, false, true⟩ t 4 false = .ok ⟨span (vaultKey 0 16) 4, [], false, none⟩ ∧ PlainPlace ⟨span (vaultKey 0 16) 4, [], false, none⟩ 4) :=
  ⟨by decide, rfl, rfl, rfl, by decide, by decide, by decide, _, rfl, .inl ⟨0, rfl⟩, rfl, by decide, by decide, by decide, rfl⟩
theorem witness_HostMemoryRequests_write : let s := { world with inp := { word := 0x0200000000000010, access := .write [1, 2, 3, 4] } }
    (∃ t, checkRef s ⟨some 0, none, 0, false, true⟩ s.inp.word 4 2 9 = .ok t ∧ locate s ⟨some 0, none, 0, false, true⟩ t 4 true = .ok ⟨span (vaultKey 0 16) 4, [], false, none⟩)
      ∧ ({ Iface.reset with tdisp := 1 } : Iface).tdisp = 1 ∧ ({ ctx0 with detached := true } : Context).detached = true := ⟨⟨_, rfl, rfl⟩, rfl, rfl⟩

/-! ### Saves, jobs, links -/

/-- Context 0 is being saved for queue 3, into object 32. -/
def saving0 : Saving := ⟨0x0200000000000000, some 3, 0, 0, 0⟩
/-- That context, with its cells at rest. -/
def savedCtx : Context := { ctx0 with saving := some saving0 }
/-- The world in that save. -/
def saved : State :=
  { world.setQueue 3 { queue3 with state := 2 } with
    ctxs := [(0, savedCtx)], cells := [(0, { Cell.reset with ctx := some 0 }), (1, { Cell.reset with ctx := some 0 })] }
theorem witness_SaveEvents : saved.ctx 0 = some savedCtx ∧ savedCtx.saving = some saving0 ∧ saving0.kind ≠ 2 ∧ quiet saved 0 savedCtx = true ∧ saving0.queue = some 3
    ∧ saved.ctx (saved.queue 3).ctx = some savedCtx ∧ quiet { world with ctxs := [(0, savedCtx)] } 0 savedCtx = false
    ∧ saved.saveLimit * 1000000 ≤ (({ saved with time := 1000000000 } : State).time - saving0.start).toNat ∧ (saved.time - saving0.start).toNat < saved.saveLimit * 1000000
    ∧ saved.inp.words = [] ∧ shootDone saved = true ∧ takesHost saved = true
    ∧ writable saved (imageCtx saved saving0 0) saving0.image (min (64 + 32 * (sectionList saved 0 savedCtx none).length) (((saved.ctx (imageCtx saved saving0 0)).map fun y => roomOf y saving0.image).getD 0)) = true := by decide +kernel
/-- That context without cells, with room for its image, unloaded. -/
def roomyCtx : Context := { savedCtx with unloaded := true, cells := [], parts := [], objs := [(32, ⟨0x83F0000000800000, 0, 0, 0⟩)] }
/-- The world with it. -/
def roomy : State := { saved with ctxs := [(0, roomyCtx)] }
theorem witness_SaveEvents_room : Nat.ble (imageLength (sectionList roomy 0 roomyCtx none)) (roomOf roomyCtx saving0.image) = true ∧ imageRoom roomy 0 roomyCtx saving0 none = true := by decide +kernel

/-- The words of a job descriptor: job 9, members (device, context), areas in object 32. -/
def jobWords (n : Nat) : List Word := [word (n + 9 * 2 ^ 32), 0x0200000000000200, 0x0200000000000400, 0x0200000000000500, 0x0200000000000700, 0x0200000000000900, 0, 0]
/-- The world with that descriptor at the start of object 32 and its member list of this device, context 0, and device 7, context 4. -/
def jobWorld (ms : List Word) : State :=
  { world with inp := { ctx := 0, word := 0x0200000000000000, job := 9 }, mem := writeKeys (writeKeys [] (span (vaultKey 0 0) 64) (wordBytes (jobWords ms.length))) (span (vaultKey 0 0x200) (8 * ms.length)) (wordBytes ms) }
/-- The job it describes. -/
def job9 : Job := ⟨0, 0x0200000000000000, [(0, 0), (7, 4)], 0x0200000000000400, 0x0200000000000500, 0x0200000000000700, 0x0200000000000900, 0, [], [], [], [], none, false, true, false⟩
theorem witness_JobRegistration : descriptorOf (jobWorld [0, 0x807]) 0 0x0200000000000000 = .ok job9
    ∧ serviceWords (jobWorld [0, 0x807]) 0 0x0200000000000000 1 2 = .ok [word (2 + 9 * 2 ^ 32)] ∧ (∃ m ∈ job9.members, m.1 = (jobWorld []).devId.toNat) ∧ (jobWorld [0, 0x807]).jobs.find 9 = none
    ∧ takesHost (jobWorld [0, 0x807]) = true ∧ (jobWorld [0, 0x807]).inp.words = [] ∧ (jobWorld [0, 0x807]).ctx 0 = some ctx0 ∧ ctx0.fn = (jobWorld [0, 0x807]).inp.fn :=
  ⟨rfl, rfl, ⟨(0, 0), by decide, rfl⟩, rfl, by decide, rfl, by decide, rfl⟩
theorem witness_JobRegistration_other : descriptorOf (jobWorld [0x807]) 0 0x0200000000000000 = .ok { job9 with members := [(7, 4)] } ∧ ∀ m ∈ ([(7, 4)] : List (Nat × Nat)), m.1 ≠ (jobWorld []).devId.toNat :=
  ⟨rfl, by decide⟩

/-- The world with that job in a phase; device 7 lies behind port 2, which is up. -/
def jobIn (s : State) (n : Nat) : State :=
  { s with jobs := [(9, { job9 with phase := n })], inp := { job := 9, port := 2, dev := 7 }, routes := [(7, 2)], ports := [(2, ⟨true, 7, 0, [], []⟩)] }
theorem witness_JobRegistration_unregister : (jobIn world 0).jobs.find 9 = some job9 ∧ job9.queue = none ∧ job9.phase = 0 ∧ (jobIn world 0).inp.job < 2 ^ 32 ∧ takesHost (jobIn world 0) = true := by decide
theorem witness_StrikePhases : world.jobs.find 9 = none ∧ (jobIn world 0).ctx (jobCtx (jobIn world 0) job9) = some ctx0 ∧ ctx0.saving = none
    ∧ (∃ c ∈ ctx0.cells, ∃ k < 4, ((jobIn world 1).slot c k).status = .running)
    ∧ ((jobIn world 0).ctx job9.ctx).isSome = true ∧ shootDone (jobIn world 0) = true ∧ areasReady (jobIn world 0) job9 = true :=
  ⟨by decide, by decide, by decide, ⟨0, by decide, 0, by decide, by decide⟩, by decide, by decide, by decide +kernel⟩
theorem witness_StrikePhases_halt : let s := jobIn { saved with ctxs := [(0, ctx0)] } 1
    s.jobs.find 9 = some { job9 with phase := 1 } ∧ (∀ c ∈ ctx0.cells, ∀ k < 4, (s.slot c k).status ≠ .running) ∧ kicksDone s (jobCtx s job9) = true := by decide
theorem witness_StrikePhases_drain : let s := jobIn world 2
    (∀ p ∈ s.net, jobPacket job9 p = false) ∧ (∀ c ∈ ctx0.cells, (s.cell c).netHeld = []) ∧ jobPacket job9 ⟨0, 0, 0, 7, 4, 0, 0, msg3⟩ = true := by decide +kernel
theorem witness_StrikePhases_sweep : let s := jobIn world 3
    (∀ p < 24, ∀ k ∈ (s.port p).egress ++ (s.port p).ingress, jobPacket job9 k = false) ∧ allPegged s job9 = false ∧ (s.inp.port, s.inp.dev) ∉ job9.pegs ∧ s.routes.find 7 = some 2 ∧ (s.port 2).up = true ∧ (s.port 2).partner = 7 ∧ shootDone s = true ∧ resetStop s { job9 with phase := 3 } = false ∧ s.inp.words = [] ∧ ∃ m ∈ job9.members, m.1 = 7 := by
  refine ⟨by decide +kernel, by decide +kernel, by decide, by decide, by decide, by decide, by decide, by decide, rfl, (7, 4), by decide, rfl⟩

/-- The world where that job waits for its last pegs and all have come, and a packet of device 7 arrives. -/
def lateWorld : State :=
  let s := jobIn (jobWorld [0, 0x807]) 4
  { s with jobs := [(9, { job9 with phase := 4, pegs := [(2, 7)] })], inp := { s.inp with pkt := ⟨7, 4, 0, 0, 0, 0, 0, msg3⟩ } }
theorem witness_PitchAndReports : let j := { job9 with phase := 4, pegs := [(2, 7)] }
    lateWorld.jobs.find 9 = some j ∧ jobPacket j { lateWorld.inp.pkt with inport := lateWorld.inp.port, tsw := lateWorld.time } = true ∧ portPegged lateWorld j lateWorld.inp.port = true
      ∧ (lateWorld.port lateWorld.inp.port).up = true ∧ (areaHead lateWorld j.ctx j.lateA).1 < recordRoom lateWorld j.ctx j.lateA ∧ lateWorld.errRing = none
      ∧ lateWorld.inp.words = [] ∧ shootDone lateWorld = true ∧ areaReady lateWorld j.ctx j.lateA ((areaHead lateWorld j.ctx j.lateA).1 + 1) = true := by decide +kernel
theorem witness_PitchAndReports_member : let j := { job9 with phase := 5, queue := some 3, reports := [(0, .struck)] }
    (7, 4) ∈ j.members ∧ (7, Report.struck) ∉ j.reports ∧ (∀ e ∈ j.reports, e.2 = .struck) ∧ (∀ k ∈ j.members, k.1 = 7 ∨ ∃ e ∈ j.reports, e.1 = k.1) ∧ (0, Report.struck) ∈ j.reports :=
  ⟨by decide, by decide, by decide, fun k h => by
    rcases List.mem_cons.mp h with h | h
    · exact .inr ⟨(0, .struck), by decide, by rw [h]⟩
    · exact .inl (by rw [List.mem_singleton.mp h]), by decide⟩
theorem witness_PitchAndReports_verdict : let j := { job9 with phase := 6, queue := some 3, reports := [(0, .passed)] }
    (7, 4) ∈ j.members ∧ (∀ e ∈ j.reports, e.1 ≠ 7 ∧ e.2 = .passed) ∧ (∀ k ∈ j.members, k.1 = 7 ∨ ∃ e ∈ j.reports, e.1 = k.1) :=
  ⟨by decide, by decide, fun k h => by
    rcases List.mem_cons.mp h with h | h
    · exact .inr ⟨(0, .passed), by decide, by rw [h]⟩
    · exact .inl (by rw [List.mem_singleton.mp h])⟩
theorem witness_PitchAndReports_refused : let s := jobIn world 5
    s.jobs.find 9 = some { job9 with phase := 5 } ∧ s.inp.n = 0 ∧ (∀ e ∈ job9.reports, e.2 ≠ .absent) ∧ ∃ c v, pitchCheck s { job9 with phase := 5 } false = .error (.status c v) := ⟨by decide, rfl, by decide, _, _, rfl⟩

/-- The context of the job stands without cells, with the image of a context without sections for one cell, and a cell list that names cell 8. -/
def pitching : State :=
  let head : List Word := [0x147535651, 64, 0, 1, 0, 0, 0, 0]
  { jobIn world 6 with
    ctxs := [(0, { ctx0 with cells := [] })], cells := []
    mem := writeKeys (writeKeys [] (span (vaultKey 0 0x400) 64) (wordBytes head)) (span (vaultKey 0 0x900) 16) (wordBytes [0x10000, 8]) }
theorem witness_PitchAndReports_passes : (match pitchCheck pitching { job9 with phase := 6 } false with | .ok (_, r, cells) => r == 0 && cells == [8] | .error _ => false) = true
    ∧ (7, 4) ∈ job9.members ∧ (7 : Nat) ≠ pitching.devId.toNat ∧ (7, Report.reinjected) ∉ job9.reports ∧ job9.queue = none ∧ (1 : Nat) ≠ 0 := by decide +kernel
theorem witness_PitchAndReports_absent : ∃ e ∈ ({ job9 with reports := [(7, .absent)] } : Job).reports, e.2 = .absent := ⟨(7, .absent), by decide, rfl⟩
theorem witness_JobRegistration_used : (({ jobWorld [0, 0x807] with jobs := [(9, job9)] } : State).jobs.find 9).isSome = true := by decide

/-- A packet from device 0, context 0 to virtual PE 1 on channel 3. -/
def packet1 : Packet := ⟨0, 0, 0, 0, 0, 1, 0, msg3⟩
theorem witness_LinksAndArrivals : let s := { world with net := [packet1], inp := { arrival := .net 0 } }
    s.inp.arrival = .net 0 ∧ s.net[0]? = some packet1 ∧ (∀ q ∈ s.net.take 0, sameTriple packet1 q = false) ∧ s.ctx packet1.dctx = some ctx0 ∧ ctx0.cells ≠ [] ∧ packet1.dvpe < ctx0.fold.v
      ∧ (s.cell (hostCell ctx0 packet1.dvpe)).netHeld = [] ∧ (ctx0.vpe packet1.dvpe).used < share ctx0 ∧ (s.cell (hostCell ctx0 packet1.dvpe)).spill = []
      ∧ (s.cell (hostCell ctx0 packet1.dvpe)).ctx = some packet1.dctx := by decide +kernel
theorem witness_LinksAndArrivals_spill : let x := { ctx0 with spillEntries := 512, vpes := [(1, { Vpe.reset with used := 128 })] }
    share x ≤ (x.vpe 1).used ∧ ((world.cell 1).spill.length < spillRoom x (world.cell 1)) := by decide +kernel
theorem witness_LinksAndArrivals_link : let s := { jobIn world 0 with jobs := [], inp := { arrival := .link 3 { packet1 with ddev := 7 } }, ports := [(2, ⟨true, 7, 0, [], []⟩), (3, ⟨true, 5, 0, [], []⟩)] }
    (s.port 3).up = true ∧ s.routes.find 7 = some 2 ∧ (s.port 2).up = true ∧ (∀ e ∈ s.jobs, jobPacket e.2 packet1 = false) ∧ (7 : Nat) ≠ s.devId.toNat ∧ (s.port 3).fails + 1 < 8
      ∧ 7 ≤ (⟨true, 7, 7, [], []⟩ : Port).fails := by decide
theorem witness_LinksAndArrivals_undeliverable : let s := { jobIn world 0 with jobs := [], inp := { port := 2, pkt := { packet1 with dctx := 9 } } }
    s.inp.pkt.ddev = s.devId.toNat ∧ (s.port s.inp.port).up = true ∧ s.ctx s.inp.pkt.dctx = none ∧ s.errRing = none := by decide

/-! ### The device, the step -/

theorem witness_BootAndAttestation : world.sec.recovery = false ∧ world.sec.meas = [] ∧ world.sec.attempts < 3 ∧ 3 ≤ ({ world.sec with attempts := 3 } : Security).attempts
    ∧ ({ world.sec with other := true } : Security).other = true ∧ world.sec.other = false ∧ world.fw.lead.isSome = true ∧ ({ world.sec with spdm := true } : Security).spdm = true
    ∧ ({ world.sec with secret := some 5 } : Security).secret.isSome = true ∧ world.sec.secret = none ∧ world.sec.spdm = false := by decide
theorem witness_InterfaceStates : world.sec.recovery = false ∧ ctx0.cells ≠ [] ∧ ctx0.saving = none ∧ ctx0.job = none ∧ (world.iface 0).tdisp = 0 ∧ ((world.setIface 0 { Iface.reset with tdisp := 1 }).iface 0).tdisp = 1 ∧ world.ctxs = [(0, ctx0)] := by decide
theorem witness_PowerStates : let s := { world with inp := { die := 3, rank := 95, n := 3 } }
    s.inp.die = 3 ∧ s.inp.rank < 96 ∧ (∀ i < 8, cellTaken s (8 * (3 * 96 + 95) + i) = false) ∧ (∃ i < 8, cellTaken s (8 * 0 + i) = true) ∧ s.errRing = none
      ∧ ({ s.power with exiting := [95] } : Power).exiting.has 95 = true := ⟨rfl, by decide, by decide +kernel, ⟨0, by decide, by decide⟩, rfl, by decide⟩
theorem witness_ErrorsAndFirmwareEvents : world.errRing = none ∧ (waiting.dfc 0).alive = true ∧ (waiting.dfc 0).pend = none ∧ ((waiting.setDfc 0 { waiting.dfc 0 with wfe := false }).dfc 0).ie = true
    ∧ ((waiting.setDfc 0 { waiting.dfc 0 with ie := false }).dfc 0).wfe = true ∧ world.ctx 0 = some ctx0 ∧ (1 : Word).getLsbD 0 = true := by decide

/-- The world where the bytes at the slot's program counter are those of `CSRR x5, 0x120`, scheduled to move. -/
def stepping : State :=
  { world with caps := [(1, cap1 [0xC1, 0x05, 0x80, 0x04])], codeStore := [(0, [2 ^ 20])], sched := [.agent (.slot 0 0)], cur := .idle }
theorem witness_StepRunsTheDecodedInstruction : slotOrder { stepping with sched := [] } 0 0 = [0] ∧ OnCells (.csrr 5 0x120) ∧ SlotFetches stepping 0 0 (.csrr 5 0x120) 4 ∧ Unhindered { stepping with sched := [], cur := .slot 0 0 } (.csrr 5 0x120) :=
  ⟨by decide +kernel, ⟨by decide, by decide, fun _ _ _ h => nomatch h⟩, ⟨by decide, by decide, by decide, by decide, _, rfl, rfl, by decide, rfl, by decide, by decide⟩,
    ⟨by decide, fun n h => by cases h; decide, by decide, by decide, by decide +kernel⟩⟩
theorem witness_StepRunsTheDecodedInstruction_dfc : let s := firmware.setDfc 0 { firmware.dfc 0 with code := [0xC1, 0x05, 0x08, 0x20] }
    DfcFetches s 0 (.csrr 5 0x802) 4 ∧ Unhindered s (.csrr 5 0x802) := by
  refine ⟨⟨by decide, by decide, .inl (by decide), by decide +kernel⟩, ⟨by decide, fun n h => ?_, by decide, by decide, by decide +kernel⟩⟩
  cases h; decide
theorem witness_StepRunsTheDecodedInstruction_engine : let s := { (onQueue queue3).setEngine 0 ⟨some 3, 0, 0⟩ with sched := [.engine 0], mem := writeKeys [] (span (vaultKey 0 0x800) 8) (bytesOf 8 0x012000000000000C) }
    (s.engine 0).serving = some 3 ∧ servable s 0 3 = true ∧ (match fetchWord { { s with sched := [] }.setEngine 0 ⟨some 3, 1, 0⟩ with cur := .queue 3 } 3 (s.queue 3) 0 with | .ok (w, _) => w == 0x012000000000000C | _ => false) = true
      ∧ bits (0x012000000000000C : Word) 56 8 ≠ 2 ∧ decodeCommand 0x012000000000000C 0 = .ok (.cMovi 2 12) ∧ queue3.stalled = none ∧ hasSecond queue3 = true := by
  refine ⟨by decide, by decide, by decide +kernel, by decide, rfl, rfl, by decide⟩
/-- Two slots of the cell run; the older one, slot 1, waits for a granule that is empty. -/
def behindWaiting : State := stepping.setSlot 0 1 { slot0 with age := 9, wait := .fullEmpty [scratchKey 0 0 / 16], status := .running, tbud := 5, cap := 9 }
theorem witness_StepRunsTheDecodedInstruction_order : slotOrder { behindWaiting with sched := [] } 0 0 = [1, 0] ∧ ∃ u, slotStep { behindWaiting with sched := [] } 0 1 = .next u :=
  ⟨by decide +kernel, _, rfl⟩
theorem witness_StepRunsTheDecodedInstruction_event : encodeFields .boot = [] ∧ encodeFields .messageArrival = [] := by decide
theorem witness_StepKeepsMemoryCanonical : Memory.wf stepping.mem ∧ ∃ t, step stepping = .next t ∧ (t.slot 0 0).pc = 4 := ⟨by decide, _, rfl, by decide +kernel⟩

/-! ### Single steps with results that the spec states or that follow from its formulas -/

/-- The world after `i`, as its slot 0 of cell 0 stands. -/
def after (i : Instr) (s : State) : Slot := match exec i s with | .next t => t.slot 0 0 | _ => Slot.reset

theorem test_lui : (after (.lui 5 0x12) world).x[5] = 0x48000 := by decide +kernel
theorem test_add_wraps : (after (.add 5 6 7) (regs [(6, 0xFFFFFFFFFFFFFFFF), (7, 2)])).x[5] = 1 := by decide +kernel
theorem test_addi_negative : (after (.addi 5 5 (-3)) (regs [(5, 1)])).x[5] = 0xFFFFFFFFFFFFFFFE := by decide +kernel
theorem test_divu_by_zero : (after (.divu 8 9 10) (regs [(9, 77)])).x[8] = 0xFFFFFFFFFFFFFFFF := by decide +kernel
theorem test_div_overflow : (after (.div 8 9 10) (regs [(9, 0x8000000000000000), (10, 0xFFFFFFFFFFFFFFFF)])).x[8] = 0x8000000000000000 := by decide +kernel
theorem test_x0_reads_zero : (after (.addi 0 6 5) (regs [(6, 9)])).x[0] = 0 := by decide +kernel
theorem test_sra_sign : (after (.sra 5 6 7) (regs [(6, 0x8000000000000000), (7, 65)])).x[5] = 0xC000000000000000 := by decide +kernel
theorem test_bne_taken : (after (.bne 6 0 (-2)) { onSlot0 fun l => { l with pc := 8, x := l.x.setIfInBounds 6 1 } with caps := [(1, cap1 (List.replicate 16 0))] }).pc = 4 := by decide +kernel
theorem test_bne_not_taken : (after (.bne 6 0 (-2)) (onSlot0 fun l => { l with pc := 8 })).pc = 12 := by decide +kernel
theorem test_mulhu : (after (.mulhu 5 6 7) (regs [(6, 0xFFFFFFFFFFFFFFFF), (7, 0xFFFFFFFFFFFFFFFF)])).x[5] = 0xFFFFFFFFFFFFFFFE := by decide +kernel

/-! ### Waits, caches, and what an access meets on its way -/

/-- The cell's cache holds no descriptor. -/
def uncached : State := mems.setCell 0 { mems.cell 0 with dcache := [] }
theorem witness_OchkResult : resolve mems (viewOf mems mems.cur) (getX mems 2) = .ok (target mems (getX mems 2)) ∧ bits (0x0110000000000000 : Word) 52 12 = 17
    ∧ 32 ≤ bits (getX uncached 2) 52 12 ∧ cacheMiss uncached (viewOf uncached uncached.cur) (bits (getX uncached 2) 52 12) = true := ⟨rfl, by decide, by decide, by decide +kernel⟩
/-- Slot 1 of the cell waits for granule 0, which is full, and comes before slot 0. -/
def contended : State := fullOne.setSlot 0 1 { slot0 with wait := .fullEmpty [scratchKey 0 0 / 16], age := 9 }
theorem witness_FullEmpty_turn : myTurn fullOne (granules (span (scratchKey 0 8) 8)) = true ∧ MayRead fullOne true ∧ myTurn contended (granules (span (scratchKey 0 8) 8)) = false
    ∧ isLocal (viewOf mems mems.cur) (target mems 0x0210000000000000) = false ∧ counter mems (postClass (target mems 0x0210000000000000)) < 4095 :=
  ⟨by decide +kernel, ⟨by decide, by decide⟩, by decide +kernel, by decide, by decide⟩
theorem witness_AtomicAtAnotherDevice : let s := { withPend mems (.amoaddW 5 6 7 3 0) with routes := [(1, 0)], ports := [(0, ⟨true, 1, 0, [], []⟩)] }
    let t := target s 0x0240000000000000
    checkRef s (viewOf s s.cur) 0x0240000000000000 4 11 2 = .ok t ∧ t.off % 4 = 0 ∧ t.home = .remote ∧ counter s 2 = 0 ∧ writeFenced s false = false ∧ NothingBefore s t 4 false []
      ∧ s.answered = true ∧ routed s (bits t.desc.ptr 0 9) = true ∧ s.inp.n = 0 :=
  ⟨rfl, by decide, rfl, by decide, by decide, ⟨⟨by decide, by decide⟩, by decide, by decide, by decide⟩, by decide, by decide, rfl⟩

/-- Layout 5 is a row of 16 INT32 elements at the start of named region 0. -/
def strip : State := { mems with ctxs := [(0, { ctx0 with lays := [(5, rowAt 0)] })] }
/-- A pattern of 2 elements of that layout. -/
def pattern2 : Vec := (5 : BitVec 64) ++ (1 : BitVec 64) ++ (0x0000000100000002 : BitVec 64) ++ (0 : BitVec 320)
/-- The elements of a strip from coordinate 14 on. -/
def stripElems (rts acc : Nat) : List (Nat × ElemRef) :=
  match elemRefs strip (viewOf strip strip.cur) (layoutEntry strip (viewOf strip strip.cur) 5) rts acc (stripCoords (layoutEntry strip (viewOf strip strip.cur) 5) 0) with
  | .ok x => x
  | .error _ => []
theorem stripReady {rts acc : Nat} {read : Bool}
    (m : myLayout strip (viewOf strip strip.cur) 5 = .ok (layoutEntry strip (viewOf strip strip.cur) 5)) (h : cacheMiss strip (viewOf strip strip.cur) 0 = false ∧ layoutUsable strip (viewOf strip strip.cur) (layoutEntry strip (viewOf strip strip.cur) 5) = true
      ∧ elemRefs strip (viewOf strip strip.cur) (layoutEntry strip (viewOf strip strip.cur) 5) rts acc (stripCoords (layoutEntry strip (viewOf strip strip.cur) 5) 0) = .ok (stripElems rts acc))
    (hx : ∀ x ∈ stripElems rts acc, x.2.t.home = .scratch 0 ∧ localMatch strip x.2.t 4 read (!read) = false) : StripReady strip 5 0 0 rts acc read (stripElems rts acc) :=
  ⟨m, h.1, h.2.1, h.2.2, .inl rfl, fun x m => ⟨⟨_, 0, 0, rfl, .inl ⟨(hx x m).1, rfl⟩⟩, (hx x m).2⟩⟩
theorem witness_LayoutForms : StripReady strip 5 0 0 1 0 true (stripElems 1 0) ∧ (stripElems 1 0).length = 16 ∧ baseOwnScratch strip (viewOf strip strip.cur) (layoutEntry strip (viewOf strip strip.cur) 5) = true :=
  ⟨stripReady rfl ⟨by decide, by decide +kernel, rfl⟩ (by decide +kernel), by decide +kernel, by decide +kernel⟩
theorem witness_LayoutForms_store : StripReady strip 5 0 0 2 1 false (stripElems 2 1) ∧ writeFenced strip true = false ∧ acquireHeld strip true = false :=
  ⟨stripReady rfl ⟨by decide, by decide +kernel, rfl⟩ (by decide +kernel), by decide, by decide⟩
theorem witness_QueueForms_pattern : patternLegal strip (viewOf strip strip.cur) (getQ strip 2) pattern2 = true ∧ layoutPosted strip (bits (patWord pattern2 7) 0 6) = false
    ∧ layoutReady strip (viewOf strip strip.cur) (layoutEntry strip (viewOf strip strip.cur) (bits (patWord pattern2 7) 0 6)) = .ok () :=
  ⟨by decide +kernel, by decide +kernel, rfl⟩

/-- A store to another device, on its way, and one held at an absent page that has come. -/
theorem witness_LostHeldAndRefusedWrites : let p : Posted := { post1 with mark := false }
    let s := { paged 0x20003 with held := [p] }
    s.held[s.inp.idx]? = some p ∧ toRemote p = false ∧ (∀ q ∈ s.held.take s.inp.idx, samePages s p q = false) ∧ inOrder s p (s.held.take s.inp.idx) (s.posted ++ s.held) = true ∧ (∀ a ∈ [0x10000], shooting s a = false) := by
  decide +kernel
theorem witness_PostedStoreAck_clear : ∀ q ∈ posting.held, q.agent = post0.agent → clash posting post0 q = false := by decide

/-- The slot waits for granule 0, which is full, at an LDF of its first doubleword. -/
def filled : State :=
  let s := { fullOne with caps := [(1, cap1 (bytesOf 4 0x00302249)), (2, cap1 [])], inp := { cell := 0, slot := 0 } }
  s.setSlot 0 0 { s.slot 0 0 with wait := .fullEmpty [scratchKey 0 0 / 16] }
theorem witness_WakesAndResponses_filled : (filled.slot 0 0).wait = .fullEmpty [scratchKey 0 0 / 16] ∧ (∀ g ∈ [scratchKey 0 0 / 16], filled.full.has g = true)
    ∧ servedFirst filled 0 0 [scratchKey 0 0 / 16] = true ∧ (filled.slot 0 0).pend = none ∧ budgetOut (filled.slot 0 0) = false ∧ (filled.slot 0 0).seq.run = none := by decide +kernel
theorem witness_WakesAndResponses_ready : decodeTableWord 32 0x00302249 = some (.ldf 2 1 0 3 0) ∧ ∃ i t u, ready { filled with cur := .slot 0 0 } = .ok (i, t) ∧ i = .ldf 2 1 0 3 0
    ∧ runForm i t = .next u := ⟨by decide, _, _, _, rfl, rfl, rfl⟩
theorem witness_WakesAndResponses_refused : let s := { withPend mems (.ld16 8 6) with routes := [(1, 0)], ports := [(0, ⟨true, 1, 0, [], []⟩)], inp := { n := 1, refused := .access (.slot 0 0) } }
    let t := target s 0x0240000000000000
    checkRef s (viewOf s s.cur) 0x0240000000000000 8 1 0 = .ok t ∧ t.home = .remote ∧ routed s (bits t.desc.ptr 0 9) = true ∧ s.provisional = false ∧ NothingBefore s t 8 false [] :=
  ⟨rfl, rfl, by decide, by decide, ⟨⟨by decide, by decide⟩, by decide, by decide, by decide⟩⟩

/-- Channel 3 of cell 0 is bound to a sequence of one slot on queue register 2, and a STREAM-START is at the head of its pair. -/
def opening : State :=
  let m : Msg := { msg3 with hdr := 0x1900 }
  { pending with
    ctxs := [(0, { ctx0 with vpes := [(0, { Vpe.reset with queues := [(3, [m])], used := 1 })] })]
    cells := [(0, { Cell.reset with ctx := some 0, handlers := Cell.reset.handlers.setIfInBounds 3 { bound with sbd := true, sq := 2 } }), (1, { Cell.reset with ctx := some 0 })] }
theorem witness_StreamOpen_starts : StartsNext opening 0 0 { ctx0 with vpes := [(0, { Vpe.reset with queues := [(3, [{ msg3 with hdr := 0x1900 }])], used := 1 })] } 0 0 3 { msg3 with hdr := 0x1900 } []
    ∧ opensStream (opening.cell 0) ({ Vpe.reset with queues := [(3, [{ msg3 with hdr := 0x1900 }])], used := 1 } : Vpe) 3 = true :=
  ⟨⟨by decide, ⟨by decide, by decide⟩, by decide, by decide, by decide, by decide +kernel, by decide⟩, by decide +kernel⟩
/-- Slot 0 serves that stream, with nothing left in it, and the EOS has come. -/
def closing : State :=
  let e : Msg := { msg3 with hdr := 0x1B00 }
  let x := { ctx0 with vpes := [(0, { Vpe.reset with queues := [(3, [e])], used := 1, busy := [3], streams := [(3, 0)] })] }
  let l := { slot0 with status := .stream 0, act := some { bootActivation with ch := 3, h := { bound with sbd := true, sq := 2 } }, seq := ⟨some ⟨0, 0, 16, 0, 0, 0, 0⟩, none, 0⟩ }
  { world with ctxs := [(0, x)], cells := [(0, { Cell.reset with ctx := some 0, slots := Cell.reset.slots.setIfInBounds 0 l }), (1, { Cell.reset with ctx := some 0 })], inp := { cell := 0, slot := 0 } }
theorem witness_StreamClose_closes : (closing.slot 0 0).status = .stream 0 ∧ drained (closing.slot 0 0) = true ∧ mayStart closing 0 = true ∧ (∃ b, closing.caps.find 1 = some b ∧ b.state = 1
    ∧ tagCurrent closing b = true) ∧ (((closing.ctx 0).getD ctx0).vpe 0).queues.getD 3 [] = [{ msg3 with hdr := 0x1B00 }] :=
  ⟨by decide, by decide +kernel, by decide +kernel, ⟨_, rfl, rfl, by decide⟩, by decide⟩
/-- Queue register 4 streams that pattern of 2 entries, none asked for. -/
def refilling : State :=
  let s := strip.setSlot 0 0 { strip.slot 0 0 with q := (strip.slot 0 0).q.setIfInBounds 4 { QReg.empty with mode := .stream, pat := pattern2, lay := rowAt 0 } }
  { s with inp := { cell := 0, slot := 0, reg := 4 } }
theorem witness_StreamRefill_element : let q := getQ refilling 4
    q.mode = .stream ∧ q.ents.length + q.flight.length < 4 ∧ refillWaits refilling q q.asked = false ∧ bit (patWord q.pat 7) 6 = false
      ∧ wideCoord (patCoords q.pat q.asked) = false ∧ outerBad q.lay (patCoords q.pat q.asked) = false ∧ layoutElem q.lay (patCoords q.pat q.asked) = some (0, 0) := by decide +kernel
theorem witness_StreamRefill_count : 0 < patCount (getQ refilling 4).pat ∧ checkRef refilling (viewOf refilling refilling.cur) 0 4 1 5 = .ok (target refilling 0)
    ∧ OwnBytes refilling (target refilling 0) 4 (span (scratchKey 0 0) 4) ∧ localMatch refilling (target refilling 0) 4 true false = false :=
  ⟨by decide +kernel, rfl, ⟨0, 0, rfl, .inl ⟨rfl, rfl⟩⟩, by decide⟩

/-! ### Migration, commands, capsules and the host, the turn of a cell -/

theorem witness_MigrationEvents : let s := { paged 0x20083 with inp := { idx := 35, word := 0x30000 } }
    movedPage s (pageNamed s) ∉ ctx0.noMove ∧ shooting s 0x10000 = false ∧ framePoisoned s 0x20000 (pageSize 0) = false ∧ s.inp.word.toNat % pageSize 0 = 0
      ∧ inPartition ctx0.ranges s.inp.word.toNat (pageSize 0) = true ∧ inHome (bits (ctx0.objs.getD s.inp.idx Desc.zero).w0 57 3) s.inp.word.toNat = true ∧ s.errRing = none := by decide +kernel
theorem witness_MigrationEvents_kept : let s := { paged 0x20003 with inp := { idx := 35 } }
    movedPage s (pageNamed s) ∈ ({ ctx0 with noMove := [(35, 0)] } : Context).noMove ∧ s.inp.flag = false := by decide +kernel
theorem witness_MigrationEvents_shootdown : let s := { posting with shoot := [(0x10000, [post0]), (0x10008, [])], inp := {} }
    s.shoot[s.inp.idx]? = some (0x10000, [post0]) ∧ post0 ∈ s.posted ∧ (∀ p ∈ ([] : List Posted), p ∉ s.posted) ∧ s.fw.waiting = []
      ∧ ({ s.fw with waiting := [(7, 0x10008)] } : Firmware).waiting = [(7, 0x10008)] ∧ ∀ e ∈ without s.shoot 1, e.1 ≠ 0x10008 := by decide +kernel
theorem witness_PageUnavailable : ∃ x, world.ctx world.inp.ctx = some x ∧ pagePresent world (pageNamed { world with inp := { idx := 35 } }) = false
    ∧ ∀ e ∈ world.harts, (world.hart (e.1 / 28) (e.1 % 28)).stopped = none := ⟨ctx0, by decide, by decide +kernel, by decide⟩

/-- Queue 3 with an oref of the engine window in c6 and one of another device in c7. -/
def reaching : Queue := { queue3 with c := (queue3.c.setIfInBounds 6 0x0220000000000040).setIfInBounds 7 0x0240000000000000 }
theorem witness_MemoryCommands_elsewhere : let s := onQueue reaching
    (∃ t, checkRef s (viewOf s (.queue 3)) (queueRef (reaching.reg 6) 0) 8 2 0 = .ok t ∧ t.home = .window 0 ∧ t.off % 64 = 0)
      ∧ (∃ t, memoryCommands reaching (.cLd 1 7 0) = some (queueRef (reaching.reg 7) 0, 8, 1) ∧ checkRef s (viewOf s (.queue 3)) (queueRef (reaching.reg 7) 0) 8 1 0 = .ok t ∧ t.home = .remote)
      ∧ routed { s with routes := [(1, 0)], ports := [(0, ⟨true, 1, 0, [], []⟩)] } 1 = true ∧ bits (queueRef (reaching.reg 7) 0) 0 52 % 8 = 0 ∧ reaching.answer = none := ⟨⟨_, rfl, rfl, by decide⟩, ⟨_, rfl, rfl, rfl⟩, by decide, by decide, rfl⟩
theorem witness_WorkCommands_signal : let s := onQueue queue3
    let t := s.setIface 0 { s.iface 0 with off := false }
    (0 : BitVec 11).toNat < (t.iface ctx0.fn).msix ∧ (t.iface ctx0.fn).off = false ∧ (t.iface ctx0.fn).masked.has 0 = false ∧ (s.iface ctx0.fn).off = true := by decide
/-- A code object of its first 64 bytes, of which OLEN says 64, at the start of object 32. -/
def coding : State := { onQueue queue3 with mem := writeKeys [] (span (vaultKey 0 8) 8) (bytesOf 8 64) }
theorem witness_PrivilegedCommands_copy : (copyPages coding queue3.ctx 0x0200000000000000).length = 1 ∧ copyPages coding queue3.ctx 0x0300000000000000 = [] := by decide +kernel
theorem witness_PrivilegedService_install : let q := { queue3 with service := some (.cInstall 2 6 7 1), state := 2, installing := some 5 }
    let s := { onQueue q with caps := [(1, cap1 []), (5, { cap1 [] with state := 0 })], inp := { queue := 3, flag := true } }
    (s.queue 3).installing = some 5 ∧ (s.caps.find 5).isSome = true ∧ s.inp.flag = true ∧ shootDone s = true ∧ s.inp.words = [] ∧ q.result = none ∧ q.answer = none := by decide
theorem witness_CommandsComplete : Inside buffered 1 ∧ Int.ofNat 2 + (3 : BitVec 20).toInt = Int.ofNat 5 ∧ 5 < 8 ∧ 1 ≤ buffered.lv ∧ buffered.lv < 4 ∧ buffered.reg 0 = buffered.reg 3
    ∧ buffered.reg 1 ≠ buffered.reg 2 ∧ (buffered.reg 0).toInt < (buffered.reg 2).toInt ∧ buffered.reg 2 ≠ 1 ∧ (buffered.reg 2).toNat < 4096 ∧ (buffered.reg 2).toNat ≠ 3 ∧ buffered.priv = true :=
  ⟨⟨rfl, rfl, by intro o l i r h; cases h; decide⟩, by decide, by decide, by decide, by decide, by decide, by decide, by decide, by decide, by decide, by decide, rfl⟩

/-- Capsule 2 with a body of eight bytes whose seal value is that of its page, in which the moving slot stands; the page is not stored. -/
def sealing : State :=
  let s := { world with codeStore := [], inp := { die := 0, cap := 2, idx := 0 } }
  let x := { cap1 (List.replicate 8 0) with dies := 15 }
  { s.setSlot 0 0 { s.slot 0 0 with cap := 2 } with caps := [(1, cap1 []), (2, { x with seals := [sealValue s x 2 0 (bodyPage x 0)] })] }
theorem witness_CodePages_fetching : ∃ x, sealing.caps.find 2 = some x ∧ x.state = 1 ∧ 4096 * 0 < x.body.bytes.length ∧ x.dies.getLsbD 0 = true ∧ pageStored sealing 0 2 0 = false
    ∧ fetching sealing 0 2 0 = true ∧ x.seals[0]? = some (sealValue sealing x 2 0 (bodyPage x 0)) := ⟨_, rfl, rfl, by decide, rfl, by decide, by decide +kernel, rfl⟩
theorem witness_CodePages_unsealed : (cap1 (List.replicate 8 0)).seals[0]? = none := rfl
theorem witness_QueueRecords_update : let s := hostQueue queue3 { upd := { base := none, tail := some 5, lsz := some 6, pri := some 15, wto := none, priv := none, ctx := some 0, map := none, version := some 0, epoch := none } }
    s.inp.upd.epoch = none ∧ movesLocked s (s.queue 3) s.inp.upd = false ∧ ((5 : BitVec 32) - (s.queue 3).head).toNat ≤ 2 ^ 6 ∧ updateInRange s s.inp.upd = true ∧ (∀ v, s.inp.upd.version = some v → v = (s.queue 3).version.toNat) := ⟨rfl, by decide, by decide, by decide, by intro v h; cases h; decide⟩
theorem witness_QueueControl_recovery : underWay { queue3 with state := 4, fcode := 5 } = false ∧ (hostQueue queue3 { how := .skip }).inp.how = .skip := by decide
theorem witness_HostMemoryRequests_waits : let s := { world with inp := { word := 0x0200000000000010, access := .read 4 } }
    let w := { s with posted := [{ post0 with agent := .host 0 }] }
    extWaits s (.host 0) (target mems 0x0200000000000010) 4 false = false ∧ extWaits w (.host 0) (target mems 0x0200000000000010) 4 false = true := by decide +kernel
theorem witness_ReleaseImage : imageRead world 0 32 = false ∧ imageRead { world with jobs := [(9, { job9 with phase := 6 })] } 0 32 = true := by decide +kernel

theorem witness_StepRunsTheDecodedInstruction_cell : let s := { stepping with sched := [] }
    candidates s 0 = [0] ∧ ∃ t, exec (.csrr 5 0x120) (touchCode { s with cur := .slot 0 0 } 4) = .next t ∧ notReady t 0 0 = false := ⟨by decide +kernel, _, rfl, by decide +kernel⟩
theorem witness_StepRunsTheDecodedInstruction_service : let q := { queue3 with service := some (.cLaunchall 1 0 3 0 1), launched := 64 }
    let s := { (onQueue q).setEngine 0 ⟨some 3, 0, 0⟩ with sched := [.engine 0] }
    (s.engine 0).serving = some 3 ∧ servable s 0 3 = true ∧ (s.engine 0).served < 64 ∧ (s.queue 3).service = some (.cLaunchall 1 0 3 0 1) := by decide

/-! ### The worked example of Tables 8.10 and 8.11 -/

/-- The words of Table 8.11. -/
def sumWords : List Word :=
  [0x0000C000000003F6, 0x3F0, 0x20, 0x0001000000000020, 0x3F1, 0x3F0, 0x13F3, 0x13F3, 0x400800, 0x0FFFC00000000820, 0xBF4, 0xBF4, 0x0000400000000FF2, 0x3F0] ++ [0x34]
/-- The records of Table 8.11, with their hints. -/
def sumListing : Listing :=
  let recs := recordsOf false sumWords
  ⟨recs, blocksFrom recs 0 none 0 0 [] false, [], [0, 0, 0x85, 0x86, 0, 0, 0x85, 0x86, 0x85, 0x86, 0, 0, 0, 0, 0], sumWords⟩
/-- The body of Table 8.10, its parcels laid on the records they come from. -/
def sumBody : Config.Body :=
  ⟨[0x46, 0x01, 0x0B, 0x06, 0x10, 0x00, 0x42, 0x31, 0x88, 0xF9, 0xA4, 0xF1, 0x22, 0x00], [(2, 0, 2), (3, 2, 6), (8, 6, 8), (9, 8, 10), (12, 10, 12), (14, 12, 14)], [(0, [])],
    [(3, [(2, .scalar 5)]), (8, [(6, .scalar 5), (7, .scalar 6)]), (9, [(8, .scalar 5), (7, .scalar 6)]), (12, [(10, .scalar 5), (9, .scalar 6)])]⟩

theorem test_installer_example : firstOffence sumListing.recs [] sumListing.hints = none ∧ (Machine.Derivation.mk sumListing sumBody).ok = true := by decide +kernel
/-- The backward branch goes elsewhere; MOV has no code; the END is another parcel; HANDLER has no resume map. -/
theorem test_installer_refuses : ([{ sumBody with bytes := sumBody.bytes.set 10 0x84 }, { sumBody with pos := sumBody.pos.drop 1 }, { sumBody with bytes := sumBody.bytes.set 12 0x02 }, { sumBody with resume := [] }].all fun b =>
    !(Machine.Derivation.mk sumListing b).ok) = true := by decide +kernel
theorem test_installer_live : sumListing.live[9]? = some [7, 8] ∧ sumListing.live[4]? = some [2, 3] := by decide +kernel

end Sys2Proof.Tests
end

section
/-! What an instruction of a slot that writes one scalar register and moves on leaves of the state (R191, R67), and the posted-store counters as CSRs (R48, R221). -/

namespace Sys2Proof.Laws
open Machine

/-! ### A slot put twice, and what the moving slot is read through -/

/-- Of two cells put at one number the last stays. -/
@[simp] theorem setCell_setCell (s : State) (c : Nat) (x y : Cell) : (s.setCell c x).setCell c y = s.setCell c y := by
  simp [State.setCell]

/-- Of two slots put at one place of a cell the last stays. -/
@[simp] theorem cell_setSlot_setSlot (x : Cell) (k : Nat) (l m : Slot) : (x.setSlot k l).setSlot k m = x.setSlot k m := by
  simp [Cell.setSlot, Vector.setIfInBounds]

/-- Of two slots put at one place of the device the last stays. -/
@[simp] theorem setSlot_setSlot (s : State) (c k : Nat) (l m : Slot) : (s.setSlot c k l).setSlot c k m = s.setSlot c k m := by
  simp only [State.setSlot, setCell_self, cell_setSlot_setSlot, setCell_setCell]

section MovingSlot
variable {s : State} {c k : Nat} (h : s.cur = .slot c k)
include h

/-- A scalar register is read from the moving slot. -/
theorem getX_slot (q : BitVec 5) : getX s q = if q = 0 then 0 else (s.slot c k).x[q.toNat]?.getD 0 := by
  simp only [getX, State.regs, h]

/-- A taint is read from the moving slot. -/
theorem tainted_slot (q : BitVec 5) : tainted s q = (decide (q ≠ 0) && bit (s.slot c k).taint q.toNat) := by
  simp only [tainted, State.taints, h]

/-- The program counter is the moving slot's. -/
theorem getPc_slot : getPc s = (s.slot c k).pc := by
  simp only [getPc, h]

/-- An instruction carried out by repetition stays at its place; every other moves on (R288). -/
theorem pcAfter_slot (n : Nat) : pcAfter s n = if (s.slot c k).rep.isSome then (s.slot c k).pc else (s.slot c k).pc + n := by
  simp only [pcAfter, h]

/-- The completion of an instruction moves the slot's program counter, clears its marks, and changes nothing else. -/
theorem retire_slot_spec (n : Nat) :
    ∃ l, retire s n = s.setSlot c k l ∧ l.wait = .none ∧ l.pend = none ∧ l.unmarked = { (s.slot c k).unmarked with pc := pcAfter s n } := by
  simp only [retire, h, pcAfter_slot h]
  refine ⟨_, rfl, rfl, rfl, ?_⟩
  unfold Slot.keepLay
  split <;> rfl

end MovingSlot

/-! ### One scalar register written -/

/-- A slot with x[r] and its taint written; x0 takes nothing (R191). -/
def withReg (l : Slot) (r : BitVec 5) (v : Word) (b : Bool) : Slot :=
  { l with x := if r = 0 then l.x else l.x.setIfInBounds r.toNat v, taint := if r = 0 then l.taint else taintBit l.taint r b }

/-- A slot keeps x0. -/
theorem withReg_zero (l : Slot) (v : Word) (b : Bool) : withReg l 0 v b = l := rfl

/-- One taint set leaves the others. -/
theorem bit_taintBit (t : BitVec 32) (r q : BitVec 5) (b : Bool) : bit (taintBit t r b) q.toNat = if q = r then b else bit t q.toNat := by
  have mask : (1#32 <<< r.toNat).getLsbD q.toNat = decide (q = r) := by
    rw [← BitVec.twoPow_eq, BitVec.getLsbD_twoPow, decide_eq_true (show r.toNat < 32 from r.isLt), Bool.true_and,
      decide_eq_decide, BitVec.toNat_inj, eq_comm]
  have inside : q.toNat < 32 := q.isLt
  cases b
  case false =>
    have cleared : bit (taintBit t r false) q.toNat = (bit t q.toNat && !decide (q = r)) := by
      simp only [bit, taintBit, Bool.false_eq_true, if_false, BitVec.getLsbD_and, BitVec.getLsbD_not, mask, inside, decide_true, Bool.true_and]
    rw [cleared]
    by_cases e : q = r <;> simp [e]
  case true =>
    have raised : bit (taintBit t r true) q.toNat = (bit t q.toNat || decide (q = r)) := by
      simp only [bit, taintBit, if_true, BitVec.getLsbD_or, mask]
    rw [raised]
    by_cases e : q = r <;> simp [e]

/-- One register set leaves the others. -/
theorem getElem?_setReg (x : Vector Word 32) (r q : BitVec 5) (v : Word) :
    (x.setIfInBounds r.toNat v)[q.toNat]?.getD 0 = if q = r then v else x[q.toNat]?.getD 0 := by
  by_cases e : q = r
  · subst e
    simp [Vector.getElem?_eq_getElem q.isLt]
  · have n : r.toNat ≠ q.toNat := fun i => e (BitVec.eq_of_toNat_eq i.symm)
    simp [e, n]

section MovingSlot
variable {s : State} {c k : Nat} (h : s.cur = .slot c k)
include h

/-- A write of a register other than x0 puts the slot with that register written. -/
theorem setXt_slot_withReg (r : BitVec 5) (v : Word) (b : Bool) (hr : r ≠ 0) : setXt s r v b = s.setSlot c k (withReg (s.slot c k) r v b) := by
  rw [setXt_slot s c k r v b h hr, withReg, if_neg hr, if_neg hr]

variable (hk : k < 4)
include hk

/-- A slot put in the moving one's place with the registers of `withReg` has x[r] written; the other registers and taints are as they were. -/
theorem writes_setSlot (l : Slot) (r : BitVec 5) (v : Word) (b : Bool) (hx : l.x = (withReg (s.slot c k) r v b).x)
    (ht : l.taint = (withReg (s.slot c k) r v b).taint) : Writes s (s.setSlot c k l) r v b := by
  intro q
  have hc : (s.setSlot c k l).cur = .slot c k := h
  rw [getX_slot hc, tainted_slot hc, getX_slot h, tainted_slot h, setSlot_self s c k l hk, hx, ht]
  by_cases hr : r = 0
  · have n : ¬(q = r ∧ q ≠ 0) := fun ⟨e, n⟩ => n (e.trans hr)
    simp only [withReg, if_pos hr, if_neg n, and_self]
  · simp only [withReg, if_neg hr, getElem?_setReg, bit_taintBit]
    by_cases hq : q = 0
    · simp [hq]
    · simp only [hq, if_false, ne_eq, not_false_eq_true, and_true, decide_true, Bool.true_and, and_self]

/-- An instruction that writes x[rd] and moves on puts one slot: x[rd] written, the program counter moved, the marks cleared. -/
theorem retire_setXt_spec (n : Nat) (r : BitVec 5) (v : Word) (b : Bool) :
    ∃ l, retire (setXt s r v b) n = s.setSlot c k l ∧ l.wait = .none ∧ l.pend = none
      ∧ l.unmarked = { (withReg (s.slot c k) r v b).unmarked with pc := pcAfter s n } := by
  by_cases hr : r = 0
  · rw [hr, setXt_zero, withReg_zero]
    exact retire_slot_spec h n
  · have hc : (s.setSlot c k (withReg (s.slot c k) r v b)).cur = .slot c k := h
    obtain ⟨l, e, hw, hp, hu⟩ := retire_slot_spec hc n
    rw [pcAfter_slot hc, setSlot_self _ _ _ _ hk] at hu
    rw [setXt_slot_withReg h r v b hr, pcAfter_slot h]
    exact ⟨l, e.trans (setSlot_setSlot ..), hw, hp, hu⟩

/-- Such an instruction does nothing but write x[rd]. -/
theorem writesOnly_retire_setXt (n : Nat) (r : BitVec 5) (v : Word) (b : Bool) : WritesOnly s (retire (setXt s r v b) n) n r v b := by
  obtain ⟨l, e, hw, hp, hu⟩ := retire_setXt_spec h hk n r v b
  have hc : (s.setSlot c k l).cur = .slot c k := h
  have hx : l.unmarked.x = (withReg (s.slot c k) r v b).x := by rw [hu]; rfl
  have ht : l.unmarked.taint = (withReg (s.slot c k) r v b).taint := by rw [hu]; rfl
  have hpc : l.unmarked.pc = pcAfter s n := by rw [hu]
  rw [e]
  refine ⟨writes_setSlot h hk l r v b hx ht, ?_, ?_, fun _ => rfl⟩
  · rw [getPc_slot hc, setSlot_self _ _ _ _ hk]
    exact hpc
  · simp only [OnlyRegisters, h]
    exact ⟨l, _, _, _, rfl, hw, hp, hu⟩

/-- What touches registers only leaves the counts of posted stores. -/
theorem onlyRegisters_counts {u : State} (hu : OnlyRegisters s u) :
    (u.slot c k).pcv = (s.slot c k).pcv ∧ (u.slot c k).pcm = (s.slot c k).pcm ∧ (u.slot c k).pcn = (s.slot c k).pcn := by
  simp only [OnlyRegisters, h] at hu
  obtain ⟨l, x, tn, pc, rfl, -, -, hl⟩ := hu
  have counts (m : Slot) : m.pcv = m.unmarked.pcv ∧ m.pcm = m.unmarked.pcm ∧ m.pcn = m.unmarked.pcn := ⟨rfl, rfl, rfl⟩
  obtain ⟨hv, hm, hn⟩ := counts l
  rw [setSlot_self _ _ _ _ hk, hv, hm, hn, hl]
  exact counts (s.slot c k)

end MovingSlot

/-! ### The CSR forms on a slot -/

/-- The four CSR forms run as their own definitions. -/
theorem exec_csrr (s : State) (rd : BitVec 5) (n : BitVec 12) : exec (.csrr rd n) s = execCsrr rd n s := rfl
theorem exec_csrw (s : State) (rd ra : BitVec 5) (n : BitVec 12) : exec (.csrw rd ra n) s = execCsrw rd ra n s := rfl
theorem exec_csrs (s : State) (rd ra : BitVec 5) (n : BitVec 12) : exec (.csrs rd ra n) s = execCsrs rd ra n s := rfl
theorem exec_csrc (s : State) (rd ra : BitVec 5) (n : BitVec 12) : exec (.csrc rd ra n) s = execCsrc rd ra n s := rfl

/-- A CSR form on a slot leaves the old value in x[rd] of the state its write made, and moves on (R221). -/
theorem csrForm_slot (s : State) (c k : Nat) (h : s.cur = .slot c k) (rd : BitVec 5) (n : BitVec 12) (g : Word → State) (old : Word)
    (hn : readCsr s n.toNat = some old) : csrForm rd n s g = .next (retire (setX (g old) rd old) 4) := by
  simp only [csrForm, hn, scalar_next s _ (.inl ⟨c, k, h⟩), finish]

/-- CSRR of a CSR that the map lists for the slot does nothing but write its value to x[rd] (R221). -/
theorem csrr_slot {s : State} {c k : Nat} (h : s.cur = .slot c k) (hk : k < 4) (rd : BitVec 5) (n : BitVec 12) (old : Word)
    (hn : readCsr s n.toNat = some old) : ∃ u, exec (.csrr rd n) s = .next u ∧ WritesOnly s u 4 rd old false := by
  rw [exec_csrr, execCsrr, csrForm_slot s c k h rd n _ old hn]
  exact ⟨_, rfl, writesOnly_retire_setXt h hk 4 rd old false⟩

/-- A writing form does what CSRR does where every write of the CSR is ignored (R3, R221). -/
theorem csrWrites_eq_csrr (s : State) (n : BitVec 12) (hf : isFlg s n = false) (hw : ∀ v, writeCsr s n.toNat v = s) (rd ra : BitVec 5) :
    ∀ i ∈ [Instr.csrw rd ra n, .csrs rd ra n, .csrc rd ra n], exec i s = exec (.csrr rd n) s := by
  simp [exec_csrr, exec_csrw, exec_csrs, exec_csrc, execCsrw, execCsrs, execCsrc, execCsrr, hf, hw]

/-! ### The counts of posted stores -/

/-- The three CSRs read the three counts of the slot that executes the read (Table 2.4). -/
theorem readCsr_counts (s : State) (c k : Nat) (h : s.cur = .slot c k) :
    readCsr s 0x160 = some (word (s.slot c k).pcv) ∧ readCsr s 0x161 = some (word (s.slot c k).pcm) ∧ readCsr s 0x162 = some (word (s.slot c k).pcn) := by
  have me : s.me = s.slot c k := by simp only [State.me, h]
  simp only [readCsr, h, cellCsr, me, and_self]

/-- A slot's write to one of the three is ignored. -/
theorem writeCsr_counts (s : State) (c k : Nat) (h : s.cur = .slot c k) (n : BitVec 12) (hn : n = 0x160 ∨ n = 0x161 ∨ n = 0x162) :
    isFlg s n = false ∧ ∀ v, writeCsr s n.toNat v = s := by
  simp only [isFlg, writeCsr, h]
  rcases hn with rfl | rfl | rfl <;> exact ⟨rfl, fun _ => rfl⟩

/-- Settles O13: the three CSRs are the slot's counts, and the writing forms are CSRR on them, which touches registers only. -/
theorem postedCounterRegisters : Obligations.PostedCounterRegisters := by
  intro s c k rd ra h hk
  obtain ⟨hv, hm, hn⟩ := readCsr_counts s c k h
  have rv := csrr_slot h hk rd 0x160 _ hv
  have rm := csrr_slot h hk rd 0x161 _ hm
  have rn := csrr_slot h hk rd 0x162 _ hn
  refine ⟨rv, rm, rn, fun n hn i hi => ?_⟩
  obtain ⟨flg, ignored⟩ := writeCsr_counts s c k h n hn
  obtain ⟨v, u, hu, -, -, only, -⟩ : ∃ v u, exec (.csrr rd n) s = .next u ∧ WritesOnly s u 4 rd v false := by
    rcases hn with rfl | rfl | rfl
    · exact ⟨_, rv⟩
    · exact ⟨_, rm⟩
    · exact ⟨_, rn⟩
  exact ⟨u, (csrWrites_eq_csrr s n flg ignored rd ra i hi).trans hu, onlyRegisters_counts h hk only⟩

end Sys2Proof.Laws
end

section
/-! SRET and WFE (R230): the words that decode to them, their runs on a firmware core and on a cell, and the event that ends a stall. -/

namespace Sys2Proof.Laws
open Machine

/-! ### The word of SRET and of WFE -/

/-- A form with must-be-zero fields is decoded when these are zero (R195 step 4). -/
theorem mbz_ok_iff (z : List Nat) (i j : Instr) : mbz z i = .ok j ↔ (∀ x ∈ z, x = 0) ∧ i = j := by
  have all : z.all (· == 0) = true ↔ ∀ x ∈ z, x = 0 := by simp
  rw [← all, mbz]
  split <;> simp [*]

/-- What a decoder answers, if it is an instruction, is encoded under MAJ `m` of the 32-bit formats (R190, Table 8.1). -/
def HasMaj (m : Nat) (r : Except Nat Instr) : Prop := ∀ i, r = .ok i → (encodeFields i).take 2 = [(1, 1), (7, m)]

/-- An instruction, no instruction, and a form with must-be-zero fields. -/
theorem hasMaj_ok {m : Nat} {i : Instr} (h : (encodeFields i).take 2 = [(1, 1), (7, m)]) : HasMaj m (.ok i) := by
  rintro j ⟨⟩; exact h

theorem hasMaj_error (m n : Nat) : HasMaj m (.error n) := nofun

theorem hasMaj_mbz {m : Nat} (z : List Nat) {i : Instr} (h : (encodeFields i).take 2 = [(1, 1), (7, m)]) : HasMaj m (mbz z i) := by
  intro j e
  obtain ⟨-, rfl⟩ := (mbz_ok_iff z i j).1 e
  exact h

/-- The decoder reads an instruction only from words of the MAJ under which it is encoded. -/
theorem decode32_hasMaj (w : Nat) : HasMaj (field w 1 7) (decode32 w) := by
  unfold decode32
  generalize field w 1 7 = m
  split
  -- the majors of one form, and those of none
  any_goals exact hasMaj_ok rfl
  any_goals exact hasMaj_mbz _ rfl
  any_goals exact hasMaj_error _ _
  -- VCVT, whose two formats differ
  case h_51 =>
    split
    · exact hasMaj_error _ _
    · exact hasMaj_mbz _ rfl
  -- the majors of several forms, by selector
  all_goals
    simp only [decodeMaj00, decodeMaj01, decodeMaj02, decodeMaj03, decodeMaj04, decodeMaj10, decodeMaj15, decodeMaj24, decodeMaj25, decodeMaj26,
      decodeMaj27, decodeMaj28, decodeMaj29, decodeMaj2a, decodeMaj2b, decodeMaj2c, decodeMaj2d, decodeMaj32, decodeMaj33, decodeMaj34, decodeMaj35,
      decodeMaj36, decodeMaj38, decodeMaj39, decodeMaj50, decodeMaj51, decodeMaj52, decodeMaj60, decodeMaj61, decodeMaj67]
    split
  any_goals exact hasMaj_ok rfl
  any_goals exact hasMaj_mbz _ rfl
  all_goals exact hasMaj_error _ _

/-- A 32-bit word of the tables is decoded when its lowest bit is set (R187). -/
theorem decodeTableWord_32 {w : Nat} (hw : w < 2 ^ 32) (i : Instr) : decodeTableWord 32 w = some i ↔ w % 2 = 1 ∧ decode32 w = .ok i := by
  have opt (r : Except Nat Instr) : r.toOption = some i ↔ r = .ok i := by cases r <;> simp [Except.toOption]
  by_cases odd : w % 2 = 1
  · simp only [decodeTableWord, parcelLength, decodeKreral, odd, Nat.mod_eq_of_lt hw, opt, or_true, if_true, true_and]
  · simp [decodeTableWord, parcelLength, odd]

/-- A form of MAJ 0x61 all whose other fields must be zero has one word. -/
theorem decodeTableWord_maj61 (i : Instr) (n : Nat) (hi : (encodeFields i).take 2 = [(1, 1), (7, 0x61)])
    (hd : ∀ w, decodeMaj61 w = .ok i ↔ field w 23 9 = n ∧ field w 8 15 = 0) (hn : n < 2 ^ 9) (w : Nat) (hw : w < 2 ^ 32) :
    decodeTableWord 32 w = some i ↔ w = 2 ^ 23 * n + 0xC3 := by
  have maj : decode32 w = .ok i ↔ field w 1 7 = 0x61 ∧ field w 23 9 = n ∧ field w 8 15 = 0 := by
    constructor
    · intro h
      have m : field w 1 7 = 0x61 := by simpa [hi, eq_comm] using decode32_hasMaj w i h
      exact ⟨m, (hd w).1 (decode32_61 w m ▸ h)⟩
    · rintro ⟨m, h⟩
      rw [decode32_61 w m]
      exact (hd w).2 h
  rw [decodeTableWord_32 hw, maj]
  simp only [field]
  omega

/-- The selectors of SRET and WFE (Table 8.2). -/
theorem decodeMaj61_sret (w : Nat) : decodeMaj61 w = .ok .sret ↔ field w 23 9 = 2 ∧ field w 8 15 = 0 := by
  unfold decodeMaj61
  split <;> simp_all [mbz_ok_iff]

theorem decodeMaj61_wfe (w : Nat) : decodeMaj61 w = .ok .wfe ↔ field w 23 9 = 3 ∧ field w 8 15 = 0 := by
  unfold decodeMaj61
  split <;> simp_all [mbz_ok_iff]

/-! ### A firmware core -/

/-- Of two firmware cores put at one number the last stays. -/
@[simp] theorem setDfc_setDfc (s : State) (d : Nat) (x y : Dfc) : (s.setDfc d x).setDfc d y = s.setDfc d y := by
  simp [State.setDfc]

/-- SRET, WFE and `DFC_EVENT` run as their own definitions. -/
theorem exec_sret (s : State) : exec .sret s = execSret s := rfl
theorem exec_wfe (s : State) : exec .wfe s = execWfe s := rfl
theorem exec_dfcEvent (s : State) : exec .dfcEvent s = execDfcEvent s := rfl

section MovingCore
variable {s : State} {d : Nat} (h : s.cur = .dfc d)
include h

/-- A firmware core put in the moving one's place with its registers and taints leaves every register as it reads. -/
theorem sameRegisters_setDfc {x : Dfc} (hx : x.x = (s.dfc d).x) (ht : x.taint = (s.dfc d).taint) : SameRegisters s (s.setDfc d x) := by
  intro r
  have hc : (s.setDfc d x).cur = .dfc d := h
  simp only [getX, tainted, State.regs, State.taints, h, hc, setDfc_self, hx, ht, and_self]

/-- SRET returns from a trap (R230). -/
theorem exec_sret_dfc : exec .sret s = .next (s.setDfc d { s.dfc d with pc := (s.dfc d).depc, ie := (s.dfc d).pie, wait := .none }) := by
  rw [exec_sret]
  simp only [execSret, dfcOnly, h, finish, dfcReturn]

/-- WFE with an event pending goes on at once (R230). -/
theorem exec_wfe_pending (he : (s.dfc d).devent ≠ 0) :
    exec .wfe s = .next (s.setDfc d { s.dfc d with wfe := false, pc := (s.dfc d).pc + 4, wait := .none, pend := none }) := by
  have hc : (s.setDfc d { s.dfc d with wfe := false }).cur = .dfc d := h
  rw [exec_wfe]
  simp only [execWfe, dfcOnly, h, finish, if_neg he, retire_dfc _ d 4 hc, setDfc_self, setDfc_setDfc]
  rfl

/-- WFE with no event pending stalls (R230). -/
theorem exec_wfe_stalls (he : (s.dfc d).devent = 0) : exec .wfe s = .next (s.setDfc d { s.dfc d with wfe := true }) := by
  rw [exec_wfe]
  simp only [execWfe, dfcOnly, h, finish, if_pos he]

end MovingCore

/-- An event raised is pending at the core that it is raised at. -/
theorem raiseEvent_pending (s : State) (d : Nat) {n : Nat} (hn : n < 8) : ((raiseEvent s d n).dfc d).devent ≠ 0 := by
  have mask : (1#8 <<< n).getLsbD n = true := by simp [hn]
  intro zero
  have b := congrArg (·.getLsbD n) zero
  simp only [raiseEvent, setDfc_self, BitVec.getLsbD_or, mask, Bool.or_true] at b
  simp at b

/-- It leaves the core's trap vector. -/
theorem raiseEvent_dtvec (s : State) (d n : Nat) : ((raiseEvent s d n).dfc d).dtvec = (s.dfc d).dtvec := by
  rw [raiseEvent, setDfc_self]

/-- An event that comes to a core stalled in a WFE traps behind it when IE is 1, and else ends the stall (R230). -/
theorem exec_dfcEvent_stalled {s : State} {d : Nat} (hd : s.inp.die = d) (h6 : d < 6) (hn : s.inp.n < 8) (ha : (s.dfc d).alive = true)
    (hp : (s.dfc d).pend = none) (hw : (s.dfc d).wfe = true) :
    let t := raiseEvent s d s.inp.n
    exec .dfcEvent s = .next (if (s.dfc d).ie then dfcTrap t d true (lowBit (t.dfc d).devent) ((s.dfc d).pc + 4)
      else t.setDfc d { t.dfc d with wfe := false, pc := (s.dfc d).pc + 4 }) := by
  have inside : ¬(Config.dfcs ≤ d ∨ 8 ≤ s.inp.n) := by simp only [Config.dfcs]; omega
  rw [exec_dfcEvent]
  simp only [execDfcEvent, hd, if_neg inside, raiseEvent, setDfc_self, ha, hp, hw]
  cases (s.dfc d).ie <;> simp

/-- A core with IE 1 and an event pending traps in its turn, behind a WFE it is stalled in (R229, R230). -/
theorem step_dfc_pending {s : State} {d : Nat} {r : List Turn} (hs : s.sched = .agent (.dfc d) :: r) (ha : (s.dfc d).alive = true)
    (hp : (s.dfc d).pend = none) (hi : (s.dfc d).ie = true) (he : (s.dfc d).devent ≠ 0) :
    step s = .next (dfcTrap { s with sched := r, cur := .dfc d } d true (lowBit (s.dfc d).devent)
      (if (s.dfc d).wfe then (s.dfc d).pc + 4 else (s.dfc d).pc)) := by
  have core : State.dfc { s with sched := r, cur := .dfc d } d = s.dfc d := rfl
  have pending : ((s.dfc d).devent != 0) = true := by simpa using he
  simp only [step, nextTurn, hs, dfcTurn, core, ha, hp, hi, pending, Option.isSome_none, Bool.not_true, Bool.or_self, Bool.false_eq_true,
    if_false, Bool.and_self, if_true]

/-- SRET and WFE are instructions of a firmware core only: a slot with nothing pending in its matrix queue takes 0x01 (R230). -/
theorem dfcOnly_slot {s : State} {c k : Nat} (h : s.cur = .slot c k) (hm : s.provisional = false) (g : Nat → State) :
    dfcOnly s g = .next (abortActivation s c k 1 1 0 0) := by
  have code : fcauseOf 1 0 0 0 = 1 := by decide
  simp only [dfcOnly, h, finish, settle, hm, Bool.and_false, Bool.false_eq_true, if_false, trapOf, takeHalt, takeTrap, code]

/-! ### The obligation -/

/-- Settles O15: the two forms and the event that ends a stall run as their equations say; the decoder reads each from the one word of its MAJ and selector. -/
theorem firmwareForms : Obligations.FirmwareForms := by
  refine ⟨fun s d h => ⟨⟨_, exec_sret_dfc h, ?returns⟩, fun he => ⟨_, exec_wfe_pending h he, ?goesOn⟩, fun he => ⟨_, exec_wfe_stalls h he, ?stalls⟩⟩,
    ?event, ?turn, fun w hw => ⟨?sretWord, ?wfeWord⟩, fun s c k h _ hm => ⟨dfcOnly_slot h hm _, dfcOnly_slot h hm _⟩⟩
  case returns =>
    rw [setDfc_self]
    exact ⟨rfl, rfl, rfl, sameRegisters_setDfc h rfl rfl, fun _ => rfl⟩
  case goesOn =>
    rw [setDfc_self]
    exact ⟨rfl, rfl, sameRegisters_setDfc h rfl rfl, fun _ => rfl⟩
  case stalls =>
    rw [setDfc_self]
    exact ⟨rfl, rfl, sameRegisters_setDfc h rfl rfl, fun _ => rfl⟩
  case event =>
    intro s d hd h6 hn ha hp hw
    have raised := raiseEvent_pending s d hn
    refine ⟨_, exec_dfcEvent_stalled hd h6 hn ha hp hw, ?_⟩
    cases (s.dfc d).ie
    case false =>
      rw [if_neg Bool.false_ne_true, if_neg Bool.false_ne_true, setDfc_self]
      exact ⟨rfl, raised, rfl⟩
    case true =>
      obtain ⟨x, e, hdepc, -, -, -, hie, hpc, -, hwfe, hev, -⟩ := dfcTrap_spec (raiseEvent s d s.inp.n) d true
        (lowBit ((raiseEvent s d s.inp.n).dfc d).devent) ((s.dfc d).pc + 4)
      rw [if_pos rfl, if_pos rfl, e, setDfc_self]
      exact ⟨hwfe, hev.trans_ne raised, hpc.trans (raiseEvent_dtvec ..), hdepc, hie⟩
  case turn =>
    intro s d r hs ha hp hi he
    refine ⟨_, step_dfc_pending hs ha hp hi he, ?_⟩
    obtain ⟨x, e, hdepc, -, -, hpie, hie, hpc, -⟩ := dfcTrap_spec { s with sched := r, cur := .dfc d } d true (lowBit (s.dfc d).devent)
      (if (s.dfc d).wfe then (s.dfc d).pc + 4 else (s.dfc d).pc)
    rw [e, setDfc_self]
    exact ⟨hpc, hie, hpie.trans hi, hdepc⟩
  case sretWord => exact decodeTableWord_maj61 .sret 2 rfl decodeMaj61_sret (by decide) w hw
  case wfeWord => exact decodeTableWord_maj61 .wfe 3 rfl decodeMaj61_wfe (by decide) w hw

end Sys2Proof.Laws
end

section
/-! The completion of a Sarrun command: the record of its queue past it, inside its buffer and at the end of one (R349, R350), and the commands that only write a register (R354). -/

namespace Sys2Proof.Laws
open Machine

/-! ### The registers of a queue -/

/-- A register written is read as what was written. -/
@[simp] theorem reg_setReg_self (q : Queue) (r : BitVec 4) (v : Word) : (q.setReg r v).reg r = v := by
  have inside : r.toNat < 16 := r.isLt
  simp [Queue.reg, Queue.setReg, inside]

/-- The other registers are read as before. -/
theorem reg_setReg_other (q : Queue) {r k : BitVec 4} (h : k ≠ r) (v : Word) : (q.setReg r v).reg k = q.reg k := by
  have apart : r.toNat ≠ k.toNat := fun e => h (BitVec.eq_of_toNat_eq e.symm)
  simp [Queue.reg, Queue.setReg, apart]

/-- Records with the same registers read alike. -/
theorem reg_congr {p q : Queue} (h : p.c = q.c) (r : BitVec 4) : p.reg r = q.reg r := by
  simp only [Queue.reg, h]

@[simp] theorem move_c (q : Queue) (len : Nat) : (q.move len).c = q.c := by
  unfold Queue.move
  split <;> rfl

@[simp] theorem boundary_c (q : Queue) : (boundary q).c = q.c := by
  unfold boundary
  dsimp only
  split_ifs <;> rfl

/-! ### The parts of a command's completion -/

/-- The model's way past a command: its status cleared, then its position moved. -/
theorem move_completed (q : Queue) (len : Nat) :
    Queue.move { q with ser := q.ser + 1, service := none, answer := none, launched := 0, stalled := none, state := if q.state = 2 then 1 else q.state } len
      = pastCommand q len := by
  cases hb : q.bufs <;> simp only [Queue.move, pastCommand, hb]

/-- The completion of a command, from the record past it. -/
theorem complete_eq (s : State) (n len : Nat) :
    complete s n len = noteOwner (leaveBuffers (s.setQueue n (boundary (pastCommand (s.queue n) len))) n 4) n (s.queue n) := by
  rw [← move_completed]
  rfl

/-- With neither a stop nor an unmapping asked for, a command boundary changes nothing (R347, R366). -/
theorem boundary_unasked {q : Queue} (hs : q.stopReq = false) (hu : q.unmapReq = false) : boundary q = q := by
  simp only [boundary, hs, hu, Bool.false_eq_true, if_false]

/-- A queue whose innermost buffer has words left, or that is in the ring, leaves no buffer (R350). -/
theorem leaveBuffers_inside {s : State} {n : Nat} (h : ∀ o l i r, (s.queue n).bufs = (o, l, i) :: r → i < l) (fuel : Nat) : leaveBuffers s n fuel = s := by
  cases fuel with
  | zero => rfl
  | succ f =>
    rcases hb : (s.queue n).bufs with _ | ⟨⟨o, l, i⟩, r⟩
    · simp only [leaveBuffers, hb]
    · simp only [leaveBuffers, hb, if_pos (h o l i r hb)]

/-- A buffer at its end with no call of its level pending is left for the word after its C.IB (R350). -/
theorem leaveBuffers_end {s : State} {n : Nat} {o : Word} {l i : Nat} {r : List (Word × Nat × Nat)} (hb : (s.queue n).bufs = (o, l, i) :: r) (hi : ¬ i < l)
    (hc : ∀ e ∈ (s.queue n).calls, e.1 ≠ (s.queue n).lv) (fuel : Nat) :
    leaveBuffers s n (fuel + 1) = leaveBuffers (s.setQueue n (Queue.move { s.queue n with bufs := r, lv := (s.queue n).lv - 1 } 1)) n fuel := by
  have none_pending : ((s.queue n).calls.any fun e => e.1 == (s.queue n).lv) = false := by simpa using hc
  simp only [leaveBuffers, hb, if_neg hi, none_pending, Bool.false_eq_true, if_false]

/-- The note to the owner, at a record that is mapped as before (R341, R348). -/
theorem noteOwner_setQueue (s : State) (n : Nat) {p q : Queue} (h : p.map = q.map) : noteOwner (s.setQueue n p) n q = s.setQueue n (writtenBack n q p) := by
  simp only [noteOwner, writtenBack, setQueue_self, setQueue_setQueue, h, ne_eq, not_true, false_or]
  split <;> rfl

/-! ### What a completion leaves of the registers -/

@[simp] theorem noteOwner_c (s : State) (n : Nat) (q : Queue) : ((noteOwner s n q).queue n).c = (s.queue n).c := by
  unfold noteOwner
  dsimp only
  split
  · rw [setQueue_self]; rfl
  · rfl

/-- A fault of a queue keeps its registers (R353). -/
@[simp] theorem enterFault_c (s : State) (n code : Nat) (taken : BitVec 36) : ((enterFault s n code taken).queue n).c = (s.queue n).c := by
  change ((s.setQueue n _).queue n).c = _
  rw [setQueue_self]
  rfl

/-- Whether buffers are left or a pending call faults the queue, its registers stay. -/
@[simp] theorem leaveBuffers_c (s : State) (n fuel : Nat) : ((leaveBuffers s n fuel).queue n).c = (s.queue n).c := by
  induction fuel generalizing s with
  | zero => rfl
  | succ f ih =>
    unfold leaveBuffers
    dsimp only
    split
    · split
      · rfl
      · split
        · exact enterFault_c s n 5 0
        · rw [ih, setQueue_self, move_c]
    · rfl

@[simp] theorem complete_c (s : State) (n len : Nat) : ((complete s n len).queue n).c = (s.queue n).c := by
  rw [complete_eq, noteOwner_c, leaveBuffers_c, setQueue_self, boundary_c]
  rfl

/-! ### Inside a buffer or the ring, and at the end of a buffer -/

/-- A command that ends inside its buffer or the ring moves its queue past it and changes nothing else (R349, R350). -/
theorem complete_inside {s : State} {n len : Nat} (h : Inside (s.queue n) len) : complete s n len = s.setQueue n (afterCommand n (s.queue n) len) := by
  obtain ⟨hs, hu, within⟩ := h
  have unasked : boundary (pastCommand (s.queue n) len) = pastCommand (s.queue n) len := boundary_unasked hs hu
  have words_left : ∀ o l i r, (pastCommand (s.queue n) len).bufs = (o, l, i) :: r → i < l := by
    intro o l i r e
    rcases hb : (s.queue n).bufs with _ | ⟨⟨o', l', i'⟩, r'⟩
    · simp [pastCommand, hb] at e
    · simp only [pastCommand, hb, List.cons.injEq, Prod.mk.injEq] at e
      obtain ⟨⟨-, rfl, rfl⟩, -⟩ := e
      exact within o' l' i' r' hb
  rw [complete_eq, unasked, leaveBuffers_inside (by simpa only [setQueue_self] using words_left)]
  exact noteOwner_setQueue s n rfl

/-- The record of a queue, which was `q`, past a command of `len` words that ended its only buffer: in the ring, after the C.IB that entered the buffer (R350). -/
def pastBuffer (q : Queue) (len : Nat) : Queue := { pastCommand q len with bufs := [], lv := q.lv - 1, head := q.head + 1 }

/-- The model's way there: the buffer left, then the C.IB passed. -/
theorem move_left {q : Queue} {e : Word × Nat × Nat} (hb : q.bufs = [e]) (len : Nat) :
    Queue.move { pastCommand q len with bufs := [], lv := (pastCommand q len).lv - 1 } 1 = pastBuffer q len := by
  simp only [Queue.move, pastBuffer, pastCommand, hb]
  rfl

/-- A command at the end of the only buffer leaves it, and changes nothing outside its queue's record (R350). -/
theorem complete_end {s : State} {n len : Nat} {o : Word} {l i : Nat} (hs : (s.queue n).stopReq = false) (hu : (s.queue n).unmapReq = false)
    (hb : (s.queue n).bufs = [(o, l, i)]) (hi : i + len = l) (hc : ∀ e ∈ (s.queue n).calls, e.1 ≠ (s.queue n).lv) :
    complete s n len = s.setQueue n (writtenBack n (s.queue n) (pastBuffer (s.queue n) len)) := by
  have unasked : boundary (pastCommand (s.queue n) len) = pastCommand (s.queue n) len := boundary_unasked hs hu
  have past : (pastCommand (s.queue n) len).bufs = [(o, l, i + len)] := by simp only [pastCommand, hb]
  have left : leaveBuffers (s.setQueue n (pastCommand (s.queue n) len)) n 4 = s.setQueue n (pastBuffer (s.queue n) len) := by
    rw [leaveBuffers_end (by rw [setQueue_self]; exact past) (by omega) (by rw [setQueue_self]; exact hc), setQueue_self, setQueue_setQueue, move_left hb]
    exact leaveBuffers_inside (by rw [setQueue_self]; exact fun _ _ _ _ e => nomatch e) 3
  rw [complete_eq, unasked, left]
  exact noteOwner_setQueue s n rfl

/-! ### C.NOP and the register forms -/

/-- C.NOP completes (R354). -/
theorem exec_cNop {s : State} {n : Nat} (h : s.cur = .queue n) : exec .cNop s = .next (complete s n 1) :=
  command_ok .cNop s _ n (fun n _ => .ok (complete s n 1)) h rfl

/-- A register form completes with its register written (R354). -/
theorem registerForm_next {s : State} {n : Nat} {q : Queue} (h : OnQueue s n q) (i : Instr) (ca : BitVec 4) (len : Nat) (g : Queue → Word) :
    registerForm i ca len s g = .next (complete (s.setQueue n (q.setReg ca (g q))) n len) := by
  obtain ⟨hcur, rfl⟩ := h
  exact command_ok _ _ _ n _ hcur rfl

/-- The register forms run as their own definitions. -/
theorem exec_cMovi (s : State) (ca : BitVec 4) (imm : BitVec 44) : exec (.cMovi ca imm) s = execCMovi ca imm s := rfl
theorem exec_cMovw (s : State) (ca : BitVec 4) (w : BitVec 64) : exec (.cMovw ca w) s = execCMovw ca w s := rfl
theorem exec_cAdd (s : State) (ca cb cc : BitVec 4) (i : BitVec 1) (imm : BitVec 32) : exec (.cAdd ca cb cc i imm) s = execCAdd ca cb cc i imm s := rfl
theorem exec_cSub (s : State) (ca cb cc : BitVec 4) (i : BitVec 1) (imm : BitVec 32) : exec (.cSub ca cb cc i imm) s = execCSub ca cb cc i imm s := rfl
theorem exec_cAnd (s : State) (ca cb cc : BitVec 4) (i : BitVec 1) (imm : BitVec 32) : exec (.cAnd ca cb cc i imm) s = execCAnd ca cb cc i imm s := rfl
theorem exec_cOr (s : State) (ca cb cc : BitVec 4) (i : BitVec 1) (imm : BitVec 32) : exec (.cOr ca cb cc i imm) s = execCOr ca cb cc i imm s := rfl
theorem exec_cShl (s : State) (ca cb cc : BitVec 4) (i : BitVec 1) (imm : BitVec 32) : exec (.cShl ca cb cc i imm) s = execCShl ca cb cc i imm s := rfl
theorem exec_cShr (s : State) (ca cb cc : BitVec 4) (i : BitVec 1) (imm : BitVec 32) : exec (.cShr ca cb cc i imm) s = execCShr ca cb cc i imm s := rfl

/-- Each of the commands that only write a register is a register form, of the words, the register and the value of Table 15.5. -/
theorem exec_registerCommand {s : State} {n : Nat} {q : Queue} (h : OnQueue s n q) {i : Instr} {len : Nat} {ca : BitVec 4} {v : Word}
    (hi : registerCommands q i = some (len, ca, v)) : exec i s = .next (complete (s.setQueue n (q.setReg ca v)) n len) := by
  unfold registerCommands at hi
  split at hi <;> cases hi
  · exact (exec_cMovi ..).trans (registerForm_next h ..)
  · exact (exec_cMovw ..).trans (registerForm_next h ..)
  · exact (exec_cAdd ..).trans (registerForm_next h ..)
  · exact (exec_cSub ..).trans (registerForm_next h ..)
  · exact (exec_cAnd ..).trans (registerForm_next h ..)
  · exact (exec_cOr ..).trans (registerForm_next h ..)
  · exact (exec_cShl ..).trans (registerForm_next h ..)
  · exact (exec_cShr ..).trans (registerForm_next h ..)

/-! ### The obligation -/

/-- Settles O40: every register command is the completion of its queue with that register written, and a completion is known inside a buffer, in the ring and at the end of
a buffer. -/
theorem registerCommands : Obligations.RegisterCommands := by
  intro s n q hq
  refine ⟨?nop, ?register, ?nopInside, ?registerInside, ?atEnd⟩
  case nop =>
    obtain ⟨hcur, rfl⟩ := hq
    exact ⟨_, exec_cNop hcur, complete_c s n 1, complete_mem s n 1⟩
  case register =>
    intro i len ca v hi
    have kept (r : BitVec 4) : ((complete (s.setQueue n (q.setReg ca v)) n len).queue n).reg r = (q.setReg ca v).reg r :=
      reg_congr (by rw [complete_c, setQueue_self]) r
    exact ⟨_, exec_registerCommand hq hi, by rw [kept, reg_setReg_self], fun r hr => by rw [kept, reg_setReg_other q hr], complete_mem ..⟩
  case nopInside =>
    intro within
    obtain ⟨hcur, rfl⟩ := hq
    rw [exec_cNop hcur, complete_inside within]
  case registerInside =>
    intro i len ca v hi within
    have within' : Inside ((s.setQueue n (q.setReg ca v)).queue n) len := by rw [setQueue_self]; exact within
    rw [exec_registerCommand hq hi, complete_inside within', setQueue_self, setQueue_setQueue]
  case atEnd =>
    intro o l i hs hu hb hi hc
    obtain ⟨hcur, rfl⟩ := hq
    rw [exec_cNop hcur, complete_end hs hu hb hi hc]
    rfl

end Sys2Proof.Laws
end
